-- ==== Sys2Proof/Word.lean ====
section
/-!
DEFINITION. The word types of the VL4820 (R46: 64-bit scalar registers and 32-bit predicate word; R98: bytes and
96-bit instruction words; R216, R217: 2048-bit vector registers and 256-bit vector predicates).
-/

namespace Sys2Proof

/-- A byte of memory. -/
abbrev Byte := BitVec 8

/-- A scalar register value (R46). -/
abbrev Word := BitVec 64

/-- The predicate word PW, and lane-sized words (R46). -/
abbrev W32 := BitVec 32

/-- A 96-bit instruction word (R107). -/
abbrev IWord := BitVec 96

/-- A vector register, lane 0 in the low bits (R216). -/
abbrev Vec := BitVec 2048

/-- A vector predicate (R217). -/
abbrev VPred := BitVec 256

end Sys2Proof
end

