-- ==== Sys2Proof/Machine/Bits.lean ====
section
/-!
DEFINITION. Bit fields, sign extension, clamping and little-endian bytes (R6), used by every family.
-/

namespace Sys2Proof.Machine

/-- The bits hi..lo of a word, as a number. -/
def bitsOf (x : Word) (hi lo : Nat) : Nat := x.toNat / 2 ^ lo % 2 ^ (hi + 1 - lo)

/-- A word with bits hi..lo replaced. -/
def putBits (x : Word) (hi lo : Nat) (v : Nat) : Word :=
  BitVec.ofNat 64 (x.toNat - bitsOf x hi lo * 2 ^ lo + v % 2 ^ (hi + 1 - lo) * 2 ^ lo)

/-- A word of a number, modulo 2^64. -/
def w64 (n : Nat) : Word := BitVec.ofNat 64 n

/-- A word of an integer, modulo 2^64. -/
def w64i (n : Int) : Word := BitVec.ofInt 64 n

/-- An integer clamped to lo .. hi. -/
def clampI (x lo hi : Int) : Int := if x < lo then lo else if hi < x then hi else x

/-- The n bytes of a number, least significant first. -/
def bytesLE (n x : Nat) : List Byte := (List.range n).map fun k => BitVec.ofNat 8 (x / 256 ^ k)

/-- The number of little-endian bytes. -/
def ofBytesLE (bs : List Byte) : Nat := bs.foldr (fun b acc => b.toNat + 256 * acc) 0

/-- A signed n-bit number, as an integer. -/
def signedN (n x : Nat) : Int := if x % 2 ^ n < 2 ^ (n - 1) then (x % 2 ^ n : Int) else (x % 2 ^ n : Int) - 2 ^ n

/-- The low n bits of an integer. -/
def wrapN (n : Nat) (x : Int) : Nat := (x % (2 ^ n : Int)).toNat

/-- A 9-bit immediate, sign-extended to 64 bits (R110). -/
def imm9 (v : BitVec 9) : Word := v.signExtend 64

/-- The number of leading zeros of an n-bit number. -/
def clzN : Nat → Nat → Nat
  | 0, _ => 0
  | n + 1, x => if x / 2 ^ n % 2 = 1 then 0 else 1 + clzN n x

/-- The number of trailing zeros of an n-bit number, counted from bit i. -/
def ctzFrom : Nat → Nat → Nat → Nat
  | 0, _, _ => 0
  | n + 1, i, x => if x / 2 ^ i % 2 = 1 then 0 else 1 + ctzFrom n (i + 1) x

/-- The number of 1 bits among the low n. -/
def popN : Nat → Nat → Nat
  | 0, _ => 0
  | n + 1, x => (if x / 2 ^ n % 2 = 1 then 1 else 0) + popN n x

/-- The low n bits in reverse order. -/
def revN : Nat → Nat → Nat
  | 0, _ => 0
  | n + 1, x => x % 2 * 2 ^ n + revN n (x / 2)

/-- An 8-byte field at an offset of a byte list. -/
def fieldAt (bs : List Byte) (off n : Nat) : Nat := ofBytesLE ((bs.drop off).take n)

end Sys2Proof.Machine
end

