-- ==== Sys2Proof/Syntax.lean ====
section
/-!
DEFINITION. The instructions of the VL4820: one constructor for each row of spec/opcode_table.json. The first 152 are
instruction forms (their operands as R110 to R113 and each chapter's encoding table give them); the last 81 are the
device's own steps and the outside world's inputs, which have no instruction word and whose arguments say what they
act on.
-/

namespace Sys2Proof

/-- What every instruction word carries beside its operation (R107): the switch marker (R64), the two guards (R108)
and the issue gap PACE (R62). -/
structure Hdr where
  sw   : Bool := false
  gan  : Bool := false
  ga   : Fin 32 := 0
  gbn  : Bool := false
  gb   : Fin 32 := 0
  pace : Fin 8 := 0
  deriving DecidableEq, Repr

/-- The rounding modes of the RM field (R107). -/
inductive RM where
  | rne | rtz | rmi | rsr
  deriving DecidableEq, Repr

/-- The fields of entry F (R109): flush inputs, flush results, rounding. -/
structure Fp where
  fzi : Bool := false
  fzo : Bool := false
  rm  : RM := .rne
  deriving DecidableEq, Repr

/-- The fields of entry Z (R109). -/
structure Fz where
  fzi : Bool := false
  fzo : Bool := false
  deriving DecidableEq, Repr

/-- The cache hints of the CH field (R107, R170). -/
inductive CH where
  | normal | stream | keep | bypass
  deriving DecidableEq, Repr

/-- A scalar register or a signed 9-bit immediate (class 0b110, R110). -/
inductive GI where
  | g (r : Fin 16)
  | im (v : BitVec 9)
  deriving DecidableEq, Repr

/-- The third source of the vector table (R218): a vector register, a scalar register or an immediate. -/
inductive VB where
  | v (r : Fin 32)
  | g (r : Fin 16)
  | im (v : BitVec 9)
  deriving DecidableEq, Repr

/-- A scalar or vector destination (VRED, GET, SRECV). -/
inductive GV where
  | g (r : Fin 16)
  | v (r : Fin 32)
  deriving DecidableEq, Repr

/-- A scalar, immediate or vector source (PUT, SSEND). -/
inductive GIV where
  | g (r : Fin 16)
  | im (v : BitVec 9)
  | v (r : Fin 32)
  deriving DecidableEq, Repr

/-- A link source, or a scalar or immediate one (R221, R231). -/
inductive LSrc where
  | g (r : Fin 16)
  | im (v : BitVec 9)
  | lw | le | lwf
  deriving DecidableEq, Repr

/-- A scalar or link destination of VMOVS.X (R221, R231). -/
inductive XDst where
  | g (r : Fin 16)
  | lw | le
  deriving DecidableEq, Repr

/-- A track or a gang of sixteen tracks (R264). -/
inductive KK where
  | k (r : Fin 64)
  | kg (r : Fin 4)
  deriving DecidableEq, Repr

/-- The element types of R112. -/
inductive VTy where
  | i8 | i16 | i32 | f16 | bf16 | f32
  deriving DecidableEq, Repr

/-- The relations of R113. -/
inductive Rel where
  | eq | ne | lt | le | gt | ge
  deriving DecidableEq, Repr

/-- A condition: its relation and its variant bit COND<3> (R113). -/
structure Cond where
  rel : Rel
  var : Bool
  deriving DecidableEq, Repr

/-- The forms of MUL (R132). -/
inductive MulK where
  | lo | lou | hi | hiu
  deriving DecidableEq, Repr

/-- The forms of DIV (R132). -/
inductive DivK where
  | q | r | qu | ru
  deriving DecidableEq, Repr

/-- The forms of MOVI (R132): sign-extended, `.Z`, `.HI`. -/
inductive MoviK where
  | sx | z | hi
  deriving DecidableEq, Repr

/-- The forms of BITC (R139). -/
inductive BitcK where
  | clz | ctz | popc | brev
  deriving DecidableEq, Repr

/-- The operations of ATOM (R171). -/
inductive AtomOp where
  | add | and | or | xor | min | max | swap | cas
  deriving DecidableEq, Repr

/-- The six levels of R17. -/
inductive Scope where
  | thread | core | cluster | polder | package | domain
  deriving DecidableEq, Repr

/-- The wire barriers (R185). -/
inductive BarK where
  | all | row | col
  deriving DecidableEq, Repr

/-- The operations of VUN (R226). -/
inductive UnK where
  | neg | abs | not
  deriving DecidableEq, Repr

/-- The bitwise operations of VLOG and PLOG (R227, R234). -/
inductive LogK where
  | and | or | xor | andn
  deriving DecidableEq, Repr

/-- The shifts of VSHF (R227). -/
inductive ShfK where
  | shl | shr | sar | rot
  deriving DecidableEq, Repr

/-- The block formats of VQNT (R222, R197). -/
inductive BFmt where
  | e4m3 | e5m2 | e2m3 | e3m2 | e2m1 | shp8 | int8
  deriving DecidableEq, Repr

/-- The functions of VSFU (R229). -/
inductive SfuK where
  | exp2 | log2 | rcp | rsqrt | tanh
  deriving DecidableEq, Repr

/-- The operations of VRED (R230). -/
inductive RedK where
  | add | min | max
  deriving DecidableEq, Repr

/-- The type pairs of VDOT (R223). -/
inductive DotK where
  | i8 | f16 | bf16
  deriving DecidableEq, Repr

/-- The directions of SEEK (R280). -/
inductive SeekK where
  | keep | fwd | rev
  deriving DecidableEq, Repr

/-- The instructions and device steps, in the order of spec/opcode_table.json. -/
inductive Instr where
  | nop (h : Hdr)
  | br (h : Hdr) (d : BitVec 24)
  | bri (h : Hdr) (r : Fin 16)
  | call (h : Hdr) (d : BitVec 24)
  | ret (h : Hdr) (r : Fin 16)
  | loop (h : Hdr) (n : Fin 16) (d : BitVec 24)
  | quit (h : Hdr)
  | spawn (h : Hdr) (l : Fin 16) (c : Fin 32) (d : BitVec 24)
  | migr (h : Hdr) (l : Fin 16)
  | park (h : Hdr) (d : Fin 16) (tmo : GI)
  | trap (h : Hdr) (code : BitVec 24)
  | tret (h : Hdr)
  | sysr (h : Hdr) (d : Fin 16) (n : BitVec 24)
  | sysw (h : Hdr) (r : Fin 16) (n : BitVec 24)
  | add (h : Hdr) (u : Bool) (sat : Bool) (d : Fin 16) (a : GI) (b : GI)
  | sub (h : Hdr) (u : Bool) (sat : Bool) (d : Fin 16) (a : GI) (b : GI)
  | mul (h : Hdr) (k : MulK) (sat : Bool) (d : Fin 16) (a : GI) (b : GI)
  | div (h : Hdr) (k : DivK) (d : Fin 16) (a : GI) (b : GI)
  | and (h : Hdr) (d : Fin 16) (a : GI) (b : GI)
  | or (h : Hdr) (d : Fin 16) (a : GI) (b : GI)
  | xor (h : Hdr) (d : Fin 16) (a : GI) (b : GI)
  | shl (h : Hdr) (u : Bool) (sat : Bool) (d : Fin 16) (a : GI) (b : GI)
  | shr (h : Hdr) (ar : Bool) (d : Fin 16) (a : GI) (b : GI)
  | min (h : Hdr) (u : Bool) (d : Fin 16) (a : GI) (b : GI)
  | max (h : Hdr) (u : Bool) (d : Fin 16) (a : GI) (b : GI)
  | cmp (h : Hdr) (cd : Cond) (c : Fin 32) (a : GI) (b : GI)
  | sel (h : Hdr) (d : Fin 16) (c : Fin 32) (a : GI) (b : GI)
  | mov (h : Hdr) (d : Fin 16) (a : GI)
  | movi (h : Hdr) (k : MoviK) (d : Fin 16) (imm : BitVec 48)
  | lea (h : Hdr) (x : Fin 4) (d : Fin 16) (b : Fin 16) (x_ : Option (Fin 16)) (disp : BitVec 24)
  | bfx (h : Hdr) (sx : Bool) (d : Fin 16) (a : GI) (pos : GI) (len : GI)
  | bfi (h : Hdr) (d : Fin 16) (a : GI) (pos : GI) (len : GI)
  | bitc (h : Hdr) (k : BitcK) (d : Fin 16) (a : GI)
  | ld (h : Hdr) (w : Fin 4) (sx : Bool) (x : Fin 4) (mig : Bool) (ch : CH) (d : Fin 16) (b : Fin 16) (x_ : Option (Fin 16)) (disp : BitVec 24)
  | st (h : Hdr) (w : Fin 4) (x : Fin 4) (mig : Bool) (ch : CH) (a : GI) (b : Fin 16) (x_ : Option (Fin 16)) (disp : BitVec 24)
  | atom (h : Hdr) (op : AtomOp) (u : Bool) (dw : Bool) (d : Fin 16) (a : Fin 16) (b : GI) (n : Option GI)
  | bind (h : Hdr) (u : Bool) (b : Fin 16) (len : GI) (o : Fin 16)
  | acq (h : Hdr) (x : Fin 4) (d : Fin 16) (b : Fin 16) (x_ : Option (Fin 16)) (disp : BitVec 24)
  | rel (h : Hdr) (acc : Bool) (x : Fin 4) (v : GI) (b : Fin 16) (x_ : Option (Fin 16)) (disp : BitVec 24)
  | fence (h : Hdr) (sc : Scope)
  | idem (h : Hdr)
  | mon (h : Hdr) (x : Fin 4) (b : Fin 16) (x_ : Option (Fin 16)) (disp : BitVec 24)
  | mwait (h : Hdr) (c : Fin 32) (a : Fin 16) (tmo : GI)
  | bar (h : Hdr) (k : BarK) (c : Fin 32) (sense : GI) (tmo : GI)
  | bara (h : Hdr) (a : Fin 16) (n : GI)
  | bwait (h : Hdr) (a : Fin 16) (ph : GI)
  | bwaitT (h : Hdr) (c : Fin 32) (a : Fin 16) (ph : GI) (tmo : GI)
  | qfence (h : Hdr) (mask : GI)
  | vwidth (h : Hdr) (w : Fin 4) (d : Fin 16)
  | whileP (h : Hdr) (w : Fin 4) (cd : Cond) (d : Fin 8) (c : Fin 32) (a : GI) (lim : GI)
  | vadd (h : Hdr) (t : VTy) (u : Bool) (f : Fp) (sat : Bool) (d : Fin 32) (a : Fin 32) (b : VB) (pg : Fin 8)
  | vsub (h : Hdr) (t : VTy) (u : Bool) (f : Fp) (sat : Bool) (d : Fin 32) (a : Fin 32) (b : VB) (pg : Fin 8)
  | vmul (h : Hdr) (t : VTy) (u : Bool) (hi : Bool) (f : Fp) (sat : Bool) (d : Fin 32) (a : Fin 32) (b : VB) (pg : Fin 8)
  | vfma (h : Hdr) (t : VTy) (np : Bool) (nc : Bool) (f : Fp) (sat : Bool) (d : Fin 32) (a : Fin 32) (b : VB) (c : VB) (pg : Fin 8)
  | vmin (h : Hdr) (t : VTy) (u : Bool) (z : Fz) (d : Fin 32) (a : Fin 32) (b : VB) (pg : Fin 8)
  | vmax (h : Hdr) (t : VTy) (u : Bool) (z : Fz) (d : Fin 32) (a : Fin 32) (b : VB) (pg : Fin 8)
  | vun (h : Hdr) (t : VTy) (k : UnK) (z : Fz) (d : Fin 32) (a : Fin 32) (pg : Fin 8)
  | vcmp (h : Hdr) (t : VTy) (cd : Cond) (z : Fz) (d : Fin 8) (a : Fin 32) (b : VB) (pg : Fin 8)
  | vsel (h : Hdr) (t : VTy) (d : Fin 32) (ps : Fin 8) (a : Fin 32) (b : VB)
  | vlog (h : Hdr) (t : VTy) (k : LogK) (d : Fin 32) (a : Fin 32) (b : VB) (pg : Fin 8)
  | vshf (h : Hdr) (t : VTy) (u : Bool) (k : ShfK) (sat : Bool) (d : Fin 32) (a : Fin 32) (b : VB) (pg : Fin 8)
  | vcvt (h : Hdr) (t : VTy) (s2 : VTy) (f : Fp) (sat : Bool) (d : Fin 32) (a : Fin 32) (part : Fin 4) (pg : Fin 8)
  | vqnt (h : Hdr) (fm : BFmt) (s2 : VTy) (f : Fp) (sat : Bool) (d : Fin 32) (a : Fin 32) (blk : Fin 4) (cnt : GI)
  | vdqn (h : Hdr) (t : VTy) (f : Fp) (d : Fin 32) (a : Fin 32) (blk : Fin 4) (first : GI) (pg : Fin 8)
  | vsfu (h : Hdr) (t : VTy) (fn : SfuK) (f : Fp) (d : Fin 32) (a : Fin 32) (pg : Fin 8)
  | vdiv (h : Hdr) (t : VTy) (f : Fp) (d : Fin 32) (a : Fin 32) (b : VB) (pg : Fin 8)
  | vdivSqrt (h : Hdr) (t : VTy) (f : Fp) (d : Fin 32) (a : Fin 32) (pg : Fin 8)
  | vred (h : Hdr) (t : VTy) (op : RedK) (ord : Bool) (f : Fp) (d : GV) (a : Fin 32) (pg : Fin 8)
  | vperm (h : Hdr) (t : VTy) (d : Fin 32) (a : Fin 32) (ix : Fin 32) (pg : Fin 8)
  | vpermRot (h : Hdr) (t : VTy) (dup : Bool) (d : Fin 32) (a : Fin 32) (k : GI) (pg : Fin 8)
  | vsplat (h : Hdr) (t : VTy) (d : Fin 32) (a : LSrc) (pg : Fin 8)
  | vmovsX (h : Hdr) (t : VTy) (d : XDst) (a : Fin 32) (ix : GI)
  | vmovsI (h : Hdr) (t : VTy) (d : Fin 32) (a : LSrc) (ix : GI)
  | vld (h : Hdr) (w : Fin 4) (mig : Bool) (ch : CH) (d : Fin 32) (b : Fin 16) (pg : Fin 8) (disp : BitVec 24)
  | vst (h : Hdr) (w : Fin 4) (mig : Bool) (ch : CH) (src : Fin 32) (b : Fin 16) (pg : Fin 8) (disp : BitVec 24)
  | vgath (h : Hdr) (w : Fin 4) (x : Fin 4) (ch : CH) (d : Fin 32) (b : Fin 16) (ix : Fin 32) (pg : Fin 8)
  | vscat (h : Hdr) (w : Fin 4) (x : Fin 4) (ch : CH) (src : Fin 32) (b : Fin 16) (ix : Fin 32) (pg : Fin 8)
  | plog (h : Hdr) (t : VTy) (k : LogK) (d : Fin 8) (a : Fin 8) (b : Fin 8) (pg : Fin 8)
  | plogNot (h : Hdr) (t : VTy) (d : Fin 8) (a : Fin 8) (pg : Fin 8)
  | plogCount (h : Hdr) (t : VTy) (first : Bool) (d : Fin 16) (a : Fin 8) (pg : Fin 8)
  | plogAny (h : Hdr) (t : VTy) (c : Fin 32) (a : Fin 8) (pg : Fin 8)
  | vdot (h : Hdr) (k : DotK) (f : Fp) (sat : Bool) (d : Fin 32) (a : Fin 32) (b : Fin 32) (pg : Fin 8)
  | vsmul (h : Hdr) (t : VTy) (f : Fp) (sat : Bool) (d : Fin 32) (a : Fin 32) (c : Fin 32) (off : GI) (pg : Fin 8)
  | tshape (h : Hdr) (tl : Fin 16) (v : GI)
  | tld (h : Hdr) (tl : Fin 16) (b : Fin 16) (st : Option (Fin 16)) (disp : BitVec 24)
  | tst (h : Hdr) (tl : Fin 16) (b : Fin 16) (st : Option (Fin 16)) (disp : BitVec 24)
  | mma (h : Hdr) (bt : Bool) (r64 : Bool) (c64 : Bool) (set : Bool) (z : Fz) (ac : Fin 4) (ta : Fin 16) (tb : Fin 16)
  | mmaA (h : Hdr) (bt : Bool) (r64 : Bool) (c64 : Bool) (set : Bool) (z : Fz) (j : Fin 16) (ac : Fin 4) (ta : Fin 16) (tb : Fin 16)
  | mmag (h : Hdr) (bt : Bool) (c64 : Bool) (set : Bool) (z : Fz) (j : Option (Fin 16)) (ac : Fin 4) (ta : Fin 16) (tb : Fin 16) (l : Fin 16)
  | accf (h : Hdr) (z : Bool) (c : Bool) (nf : Bool) (f : Fp) (sat : Bool) (j : Option (Fin 16)) (ac : Fin 4)
  | tmap (h : Hdr) (a : Fin 16)
  | tmapR (h : Hdr) (a : Fin 16)
  | copy (h : Hdr) (d2 : Bool) (wb : Bool) (ch : CH) (j : Fin 16) (q : Fin 4) (dst : Fin 16) (src : Fin 16) (n : GI)
  | jwait (h : Hdr) (j : GI) (gt : Option (Fin 16))
  | jwaitP (h : Hdr) (c : Fin 32) (j : GI) (gt : Option (Fin 16))
  | holdW (h : Hdr) (k : KK) (l : Option (Fin 16))
  | holdT (h : Hdr) (c : Fin 32) (k : KK) (l : Option (Fin 16))
  | hrel (h : Hdr) (k : KK) (l : Option (Fin 16))
  | seek (h : Hdr) (dir : SeekK) (k : KK) (a : Option (Fin 16)) (l : Option (Fin 16)) (disp : BitVec 24)
  | rds (h : Hdr) (sx : Bool) (d : Fin 16) (k : Fin 64) (l : Option (Fin 16))
  | wrs (h : Hdr) (k : Fin 64) (a : GI) (l : Option (Fin 16))
  | vrds (h : Hdr) (d : Fin 32) (kg : Fin 4) (l : Option (Fin 16))
  | vwrs (h : Hdr) (kg : Fin 4) (src : Fin 32) (pg : Fin 8)
  | rwnd (h : Hdr) (e : Bool) (k : KK) (l : Option (Fin 16))
  | hpos (h : Hdr) (d : Fin 16) (k : Fin 64) (l : Option (Fin 16))
  | chain (h : Hdr) (d : Fin 16) (a : Fin 16)
  | get (h : Hdr) (d : GV) (c : Fin 32)
  | put (h : Hdr) (a : GIV)
  | putE (h : Hdr)
  | chmodeQ (h : Hdr) (d : Fin 16) (id : Option (Fin 16))
  | chmodeOcc (h : Hdr) (d : Fin 16) (q : GI) (id : Option (Fin 16))
  | chmodeFold (h : Hdr) (id : Option (Fin 16))
  | chmodeSpread (h : Hdr) (id : Option (Fin 16))
  | chmodeAuto (h : Hdr) (id : Option (Fin 16))
  | ftile (h : Hdr) (d : Fin 16) (c : Fin 32)
  | dpush (h : Hdr) (c : Fin 32) (a : GI) (b : GI)
  | dpop (h : Hdr) (a : Fin 16) (b : Fin 16) (c : Fin 32)
  | dsteal (h : Hdr) (a : Fin 16) (b : Fin 16) (c : Fin 32) (l : Fin 16)
  | ssend (h : Hdr) (cl : Bool) (l : Fin 16) (p : Fin 4) (a : GIV)
  | srecv (h : Hdr) (d : GV) (c : Fin 32) (p : Fin 4)
  | mapv (h : Hdr) (d : Fin 16)
  | mapvA (h : Hdr) (d : Fin 16)
  | mapack (h : Hdr) (w : Fin 16)
  | collAr (h : Hdr) (j : Fin 16) (dst : Fin 16) (src : Fin 16) (n : Fin 16) (mk : Fin 16)
  | collBc (h : Hdr) (j : Fin 16) (dst : Fin 16) (src : Fin 16) (n : Fin 16) (mk : Fin 16)
  | collAg (h : Hdr) (j : Fin 16) (dst : Fin 16) (src : Fin 16) (n : Fin 16) (mk : Fin 16)
  | tlbiCtx (h : Hdr) (c : Fin 16)
  | tlbiPg (h : Hdr) (c : Fin 16) (v : Fin 16)
  | tlbiRng (h : Hdr) (c : Fin 16) (v : Fin 16) (n : Fin 16)
  | tlbiAll (h : Hdr)
  | kill (h : Hdr) (f : Bool) (d : Fin 16) (c : Fin 16)
  | ctxSave (h : Hdr) (d : Fin 16) (c : Fin 16) (l : Fin 16)
  | ctxLoad (h : Hdr) (d : Fin 16) (c : Fin 16) (l : Fin 16)
  | ctxMig (h : Hdr) (d : Fin 16) (c : Fin 16) (l : Fin 16) (p : Fin 16)
  | ctxRd (h : Hdr) (d : Fin 16) (c : Fin 16) (ix : Fin 16)
  | ctxWr (h : Hdr) (c : Fin 16) (v : Fin 16) (ix : Fin 16)
  | ctxRes (h : Hdr) (c : Fin 16)
  | ctxTv (h : Hdr) (a : Fin 16)
  | ctxSlot (h : Hdr) (d : Fin 16) (a : Fin 16)
  | pgrefQ (h : Hdr) (d : Fin 16) (c : Fin 16) (v : Fin 16)
  | pgrefRm (h : Hdr) (d : Fin 16) (c : Fin 16) (v : Fin 16) (e : Fin 16)
  | pgrefSh (h : Hdr) (d : Fin 16) (c : Fin 16) (v : Fin 16) (sv : Fin 16) (n : GI)
  | pgrefDr (h : Hdr) (d : Fin 16) (c : Fin 16) (v : Fin 16)
  | pgrefAdj (h : Hdr) (d : Fin 16) (c : Fin 16) (v : Fin 16) (delta : GI)
  | pgrefWk (h : Hdr) (c : Fin 16) (v : Fin 16)
  | pgrefClr (h : Hdr) (d : Fin 16) (p : Fin 16)
  | mgmtLog (h : Hdr) (c : Fin 16) (a : Fin 16)
  | mgmtTmr (h : Hdr) (tm : Fin 16)
  | mgmtRetire (h : Hdr) (d : Fin 16) (k : Fin 16) (r : Fin 16)
  | mgmtFwsel (h : Hdr) (b : Fin 16)
  | mgmtFwcommit (h : Hdr)
  | mgmtQuote (h : Hdr) (d : Fin 16) (n : Fin 16)
  /-- Thread tk takes the MAPEVT it was given (R36). -/
  | mapevtTake (tk : Nat)
  /-- Service core or Reeve thread tk takes its lowest pending interrupt (R354, R407). -/
  | interruptTake (tk : Nat)
  /-- Result rid of thread tk returns (R64). -/
  | resultReturn (tk rid : Nat)
  /-- The holder performs request rid of thread tk (R408), or an operation that holds thread tk is polled (R372). -/
  | remoteRequest (tk rid : Nat)
  /-- Thread tk refetches its line after a parity mismatch (R103). -/
  | fetchRefetch (tk : Nat)
  /-- A message of context ctx for thread tk, request rid of it or 0, meets another generation (R69). -/
  | messageDrop (tk rid ctx : Nat)
  /-- A message of context ctx has travelled 2,048 clocks (R68). -/
  | messageStaleDrop (tk rid ctx : Nat)
  /-- SPAWN request rid of thread tk reaches its target core (R71, R84). -/
  | spawnRequest (tk rid : Nat)
  /-- The record of migrating thread tk reaches its target core (R75). -/
  | migrantArrive (tk : Nat)
  /-- The refused record of thread tk is sent again (R75). -/
  | migrantRetry (tk : Nat)
  /-- The acceptance of a migrant's record reaches its source slot; `dest` names the slot, and the context and generation that
  left (R68, R85). -/
  | migrantAccepted (dest : Nat)
  /-- Admission from the inbox of a core (R75). -/
  | inboxAdmit (core : Nat)
  /-- Entry bid of the store buffer of thread tk drains (R146). -/
  | storeDrain (tk bid : Nat)
  /-- The write at the head of host path H(path) is performed (R154). -/
  | hostWrite (path : Nat)
  /-- The read at the head of host path H(path) is performed (R154). -/
  | hostRead (path : Nat)
  /-- The notice of a write to a watched line reaches its thread; `dest` names the slot, context and generation (R68, R182). -/
  | monitorNotice (dest line : Nat)
  /-- The timeout of wait rid of thread tk falls due (R123); `last` 1 after the other steps of its clock. -/
  | waitTimeout (tk rid last : Nat)
  /-- Barrier set set of context ctx releases (R186). -/
  | barRelease (ctx set : Nat)
  /-- Arrival aid of bytes at the barrier word at location loc is performed (R189). -/
  | barrierArrival (loc bytes aid : Nat)
  /-- A value reaches the west (0) or east (1) link queue of a core context (R221). -/
  | linkValueArrive (ctx lcore east val : Nat)
  /-- The job at the head of queue q starts (R152). -/
  | jobStart (q : Nat)
  /-- The running job of queue q takes its steps and completes (R152); with ev = 1 + 256·thread + generation, the completion event of a job of context q reaches that slot (R83). -/
  | jobComplete (q jid ev : Nat)
  /-- The running job of queue q meets a page fault (0) or an error (R255). -/
  | jobFault (q err : Nat)
  /-- Tile load op into tile tl completes (R244). -/
  | tileLoadComplete (tl op : Nat)
  /-- Tile store op of tile tl completes (R245). -/
  | tileStoreComplete (tl op : Nat)
  /-- Every participant of the collective at the head of qcl is ready (R392). -/
  | collectiveStart (peers : Nat)
  /-- The oldest request waiting for a track lease is granted (R270). -/
  | leaseGrant (track : Nat)
  /-- A head move reaches its target (R268). -/
  | seekComplete (track : Nat)
  /-- The settle check of a track ends (R273). -/
  | headSettle (track : Nat)
  /-- The cursor of a track steps after an access (R287). -/
  | cursorStep (track : Nat)
  /-- An accepted item reaches its consumer queue (R333). -/
  | itemArrive (ctx chain stage rep : Nat)
  /-- A waiting PUT is accepted in its turn (R318). -/
  | putAccept (ctx chain tk : Nat)
  /-- A pending fold takes place (R324); with chain = 65536 + core, a launch lacked a slot on that core (R327). -/
  | chainFold (ctx chain : Nat)
  /-- A pending spread takes effect (R325). -/
  | chainSpread (ctx chain : Nat)
  /-- An auto chain requests a spread (R327). -/
  | autoSpreadRequest (ctx chain : Nat)
  /-- A chain ends and its completion word is written (R329). -/
  | chainComplete (ctx chain : Nat)
  /-- A stream word reaches a port (R341). -/
  | streamWordArrive (core port route : Nat)
  /-- A waiting opening word is admitted at a port (R341). -/
  | streamRouteAdmit (core port : Nat)
  /-- The walk for the miss that holds thread tk ends (R300). -/
  | tlbWalk (tk : Nat)
  /-- The prefetcher serves a span of second-tier pages (R307). -/
  | prefetch (ctx va : Nat)
  /-- Service core d starts its next task (R353). -/
  | taskStart (d : Nat)
  /-- A doorbell write (R381). -/
  | doorbell (q val : Nat)
  /-- EN is set in a queue block (R380). -/
  | queueEnable (q : Nat)
  /-- TD = 01 is written (R367, R385); repeated until the launches of the queue have ended. -/
  | queueDrain (q : Nat)
  /-- TD = 10 is written (R367, R385); repeated until the launches of the queue have ended. -/
  | queueAbort (q : Nat)
  /-- A host write to a register without a behaviour of its own (R7). -/
  | registerWrite (addr val : Nat)
  /-- The service core of queue q considers its head packet (R382); repeated while it cannot be taken. -/
  | packetTake (q : Nat)
  /-- The reservation of a waiting launch is tried and, once met, the launch starts (R55). -/
  | launchStart (ctx : Nat)
  /-- A launch whose threads have quit completes (R58). -/
  | launchComplete (ctx : Nat)
  /-- The work of a retiring resource is moved (R39), clock by clock until none is left. -/
  | retirementMove (class_ res : Nat)
  /-- A retiring slice ends its write-back (R43). -/
  | sliceFlush (slice : Nat)
  /-- A change of the map is published (R26); it waits its turn by the order of R32. -/
  | mapPublish (kind class_ cause res old new : Nat)
  /-- A resource is lost (R40). -/
  | resourceLoss (class_ res cause : Nat)
  /-- ELAPSED of a context passes LIMIT: it is suspended (R38); for a suspended context that has acknowledged, it is restored. -/
  | graceExpiry (ctx : Nat)
  /-- A rehash answer reaches the requesting cluster (R45). -/
  | rehashReply (tk rid : Nat)
  /-- A waiting launch pre-empts core contexts of a core (R356). -/
  | preempt (ctx core : Nat)
  /-- A core context moves to physical core phys (R357); with phys = 4096 + core, its state reaches that core. -/
  | liveMigration (ctx lcore phys : Nat)
  /-- A core context is saved (R360). -/
  | contextSave (ctx lcore : Nat)
  /-- A save resumes at its cursor (R361). -/
  | saveResume (ctx lcore : Nat)
  /-- A saved core context resumes (R364). -/
  | contextResume (ctx lcore : Nat)
  /-- A vacated core forwards to thread tk the EVT bits ev mod 128 of context ev / 128 mod 65,536 for generation ev / 2^23 (R358). -/
  | bermForward (core tk ev : Nat)
  /-- A berm entry ends (R358). -/
  | bermExpire (core ctx lcore : Nat)
  /-- The kill wave reaches a router (R377). -/
  | sluiceArrive (ctx router : Nat)
  /-- A router stops discarding (R366). -/
  | sluiceDiscardEnd (ctx router : Nat)
  /-- The purge confirmation reaches the killer (R366). -/
  | killConfirm (ctx : Nat)
  /-- Thread tk consumes an uncorrectable error (R352). -/
  | uncorrectableConsumed (tk addr bank : Nat)
  /-- The scrub of a slot completes (R352). -/
  | slotScrubComplete (tk : Nat)
  /-- A slice boundary of gang n (R365). -/
  | gangBoundary (n : Nat)
  /-- A gang report of package pkg reaches the coordinator (R365); the own one waits for its launches to be saved. -/
  | gangReport (n pkg : Nat)
  /-- TIMER reaches the start value of gang n (R365). -/
  | gangStart (n : Nat)
  /-- The grace time of gang n passes (R365). -/
  | gangGraceExpiry (n : Nat)
  /-- The sixteen sensors are sampled, 16 bits each in vals (R398, R399). -/
  | sensorSample (vals : Nat)
  /-- COUNT reaches ALARM (R406). -/
  | alarmExpiry
  /-- The throttle level of polder p takes effect (R400). -/
  | thrlWrite (p : Nat)
  /-- TIMER is resynchronised (R390). -/
  | timerSync (val : Nat)
  /-- A domain is formed of the packages in the bit mask members, this one numbered pkg (R389). -/
  | domainForm (pkg members : Nat)
  /-- A Strelmin or CXL link changes state, with RATE rate mod 65,536 and AUX rate / 65,536 (R389). -/
  | linkChange (class_ link state rate : Nat)
  /-- The boot sequence after reset (R397). -/
  | boot
  /-- A mesh link changes (R41). -/
  | meshLinkChange (link code : Nat)
  /-- The clock of a stack is stepped (R31). -/
  | clockStep (p step_ : Nat)
  /-- The usable capacity of a stack is reduced (R294). -/
  | capacityWithdrawal (p cap : Nat)
  deriving DecidableEq, Repr

end Sys2Proof
end

