-- ==== Sys2Proof/WellFormed.lean ====
section
/-!
DEFINITION. Which instruction terms an instruction word can express: the limits on operands and modifiers that the
types of Syntax.lean do not already hold (R109, R113, R116, and the encoding rules of each chapter). An ill-formed
term has no word; a word that would need one traps ILLOP.
-/

namespace Sys2Proof

/-- Floating element types (R112). -/
def VTy.isFloat : VTy → Bool
  | .f16 | .bf16 | .f32 => true
  | _ => false

/-- Element size in bytes (R112, R216). -/
def VTy.size : VTy → Nat
  | .i8 => 1
  | .i16 | .f16 | .bf16 => 2
  | .i32 | .f32 => 4

/-- All of FZI, FZO and RM zero. -/
def Fp.zero (f : Fp) : Bool := !f.fzi && !f.fzo && f.rm == .rne

/-- FZI and FZO zero. -/
def Fz.zero (z : Fz) : Bool := !z.fzi && !z.fzo

/-- The integer conditions of R113: the unsigned equalities are reserved. -/
def Cond.okInt (c : Cond) : Bool := !c.var || (c.rel != .eq && c.rel != .ne)

/-- The system registers that SYSR reaches (R128, R129). -/
def sysReadable (n : Nat) : Bool :=
  n ≤ 0x10 || (0x100 ≤ n && n ≤ 0x104) || n == 0x200 || n == 0x201 || (0x210 ≤ n && n ≤ 0x21F) ||
  (0x300 ≤ n && n ≤ 0x304) || (0x400 ≤ n && n ≤ 0x407) || (0x410 ≤ n && n ≤ 0x41F) ||
  n == 0x420 || n == 0x421 || n == 0x430 || n == 0x431 || n == 0x440

/-- The system registers with a writable field (R128, R129). -/
def sysWritable (n : Nat) : Bool :=
  n == 1 || (5 ≤ n && n ≤ 0xD) || n == 0x10 || n == 0x102 || n == 0x103 || (0x210 ≤ n && n ≤ 0x21F) ||
  n == 0x302 || n == 0x304 || (0x400 ≤ n && n ≤ 0x407) || n == 0x420 || n == 0x421 || n == 0x430 ||
  n == 0x431 || n == 0x440

/-- The range of VCVT's part operand (R228): below the ratio of the two element sizes. -/
def partOk (t s : VTy) (part : Fin 4) : Bool :=
  decide (part.val * min t.size s.size < max t.size s.size)

/-- COPY's size operand (R242): a register under 2D or BAR, with the registers after it that the form reads; else a
register or a non-negative immediate. -/
def copyOk (d2 bar : Bool) : GI → Bool
  | .g r => decide (r.val + (if d2 then 1 else 0) + (if bar then 1 else 0) ≤ 15)
  | .im v => !d2 && !bar && !v.msb

/-- The well-formed terms. The device steps have no encoding and no limit of their own. -/
def Instr.wf : Instr → Bool
  | .nop _ => true
  | .br _ _ => true
  | .bri _ _ => true
  | .call _ _ => true
  | .ret _ _ => true
  | .loop _ _ _ => true
  | .quit _ => true
  | .spawn _ _ _ _ => true
  | .migr _ _ => true
  | .park _ _ _ => true
  | .trap _ _ => true
  | .tret _ => true
  | .sysr _ _ n => sysReadable n.toNat
  | .sysw _ _ n => sysWritable n.toNat
  | .add _ _ _ _ _ _ => true
  | .sub _ _ _ _ _ _ => true
  | .mul _ k sat _ _ _ => (!sat || k == .lo || k == .lou)
  | .div _ _ _ _ _ => true
  | .and _ _ _ _ => true
  | .or _ _ _ _ => true
  | .xor _ _ _ _ => true
  | .shl _ _ _ _ _ _ => true
  | .shr _ _ _ _ _ => true
  | .min _ _ _ _ _ => true
  | .max _ _ _ _ _ => true
  | .cmp _ cd _ _ _ => cd.okInt
  | .sel _ _ _ _ _ => true
  | .mov _ _ _ => true
  | .movi _ _ _ _ => true
  | .lea _ _ _ _ _ _ => true
  | .bfx _ _ _ _ _ _ => true
  | .bfi _ _ _ _ _ => true
  | .bitc _ _ _ _ => true
  | .ld _ w sx _ _ _ _ _ _ _ => !(sx && w == 3)
  | .st _ _ _ _ _ _ _ _ _ => true
  | .atom _ op u _ _ _ _ n => ((op == .cas) == n.isSome) && (!u || op == .min || op == .max)
  | .bind _ _ _ _ _ => true
  | .acq _ _ _ _ _ _ => true
  | .rel _ _ _ _ _ _ _ => true
  | .fence _ _ => true
  | .idem _ => true
  | .mon _ _ _ _ _ => true
  | .mwait _ _ _ _ => true
  | .bar _ _ _ _ _ => true
  | .bara _ _ _ => true
  | .bwait _ _ _ => true
  | .bwaitT _ _ _ _ _ => true
  | .qfence _ _ => true
  | .vwidth _ _ _ => true
  | .whileP _ w cd _ _ _ _ => w.val ≤ 2 && (cd.rel == .lt || cd.rel == .le)
  | .vadd _ t u f _ _ _ _ _ => (!t.isFloat || !u) && (t.isFloat || f.zero)
  | .vsub _ t u f _ _ _ _ _ => (!t.isFloat || !u) && (t.isFloat || f.zero)
  | .vmul _ t u hi f sat _ _ _ _ => (!t.isFloat || !u) && (t.isFloat || f.zero) && !(hi && (t.isFloat || sat))
  | .vfma _ t _ _ f _ _ _ _ _ _ => (t.isFloat || f.zero)
  | .vmin _ t u z _ _ _ _ => (!t.isFloat || !u) && (t.isFloat || z.zero)
  | .vmax _ t u z _ _ _ _ => (!t.isFloat || !u) && (t.isFloat || z.zero)
  | .vun _ t k z _ _ _ => (t.isFloat || z.zero) && !(t.isFloat && k == .not)
  | .vcmp _ t cd z _ _ _ _ => (t.isFloat || z.zero) && (t.isFloat || cd.okInt)
  | .vsel _ _ _ _ _ _ => true
  | .vlog _ _ _ _ _ _ _ => true
  | .vshf _ t u k sat _ _ _ _ => !t.isFloat && (!sat || k == .shl) && (!u || sat)
  | .vcvt _ t s2 f _ _ _ part _ => partOk t s2 part && (t.isFloat || s2.isFloat || f.zero)
  | .vqnt _ _ s2 _ _ _ _ _ _ => s2.isFloat
  | .vdqn _ t _ _ _ _ _ _ => t.isFloat
  | .vsfu _ t _ _ _ _ _ => t.isFloat
  | .vdiv _ t _ _ _ _ _ => t.isFloat
  | .vdivSqrt _ t _ _ _ _ => t.isFloat
  | .vred _ t _ _ f _ _ _ => (t.isFloat || f.zero)
  | .vperm _ _ _ _ _ _ => true
  | .vpermRot _ _ _ _ _ _ _ => true
  | .vsplat _ _ _ _ _ => true
  | .vmovsX _ _ _ _ _ => true
  | .vmovsI _ _ _ _ _ => true
  | .vld _ w _ _ _ _ _ _ => w.val ≤ 2
  | .vst _ w _ _ _ _ _ _ => w.val ≤ 2
  | .vgath _ w _ _ _ _ _ _ => w.val ≤ 2
  | .vscat _ w _ _ _ _ _ _ => w.val ≤ 2
  | .plog _ _ _ _ _ _ _ => true
  | .plogNot _ _ _ _ _ => true
  | .plogCount _ _ _ _ _ _ => true
  | .plogAny _ _ _ _ _ => true
  | .vdot _ k f _ _ _ _ _ => (k != .i8 || f.zero)
  | .vsmul _ _ _ _ _ _ _ _ _ => true
  | .tshape _ _ _ => true
  | .tld _ _ _ _ _ => true
  | .tst _ _ _ _ _ => true
  | .mma _ _ _ _ _ _ _ _ _ => true
  | .mmaA _ _ _ _ _ _ _ _ _ _ => true
  | .mmag _ _ _ _ _ _ _ _ _ _ => true
  | .accf _ z c nf f sat _ _ => !f.fzi && (c || (f.rm == .rne && !sat)) && (!nf || z)
  | .tmap _ _ => true
  | .tmapR _ _ => true
  | .copy _ d2 wb _ _ _ _ _ n => copyOk d2 wb n
  | .jwait _ _ _ => true
  | .jwaitP _ _ _ _ => true
  | .holdW _ _ _ => true
  | .holdT _ _ _ _ => true
  | .hrel _ _ _ => true
  | .seek _ _ _ _ _ _ => true
  | .rds _ _ _ _ _ => true
  | .wrs _ _ _ _ => true
  | .vrds _ _ _ _ => true
  | .vwrs _ _ _ _ => true
  | .rwnd _ _ _ _ => true
  | .hpos _ _ _ _ => true
  | .chain _ _ _ => true
  | .get _ _ _ => true
  | .put _ _ => true
  | .putE _ => true
  | .chmodeQ _ _ _ => true
  | .chmodeOcc _ _ _ _ => true
  | .chmodeFold _ _ => true
  | .chmodeSpread _ _ => true
  | .chmodeAuto _ _ => true
  | .ftile _ _ _ => true
  | .dpush _ _ _ _ => true
  | .dpop _ _ _ _ => true
  | .dsteal _ _ _ _ _ => true
  | .ssend _ _ _ _ _ => true
  | .srecv _ _ _ _ => true
  | .mapv _ _ => true
  | .mapvA _ _ => true
  | .mapack _ _ => true
  | .collAr _ _ _ _ _ _ => true
  | .collBc _ _ _ _ _ _ => true
  | .collAg _ _ _ _ _ _ => true
  | .tlbiCtx _ _ => true
  | .tlbiPg _ _ _ => true
  | .tlbiRng _ _ _ _ => true
  | .tlbiAll _ => true
  | .kill _ _ _ _ => true
  | .ctxSave _ _ _ _ => true
  | .ctxLoad _ _ _ _ => true
  | .ctxMig _ _ _ _ _ => true
  | .ctxRd _ _ _ _ => true
  | .ctxWr _ _ _ _ => true
  | .ctxRes _ _ => true
  | .ctxTv _ _ => true
  | .ctxSlot _ _ _ => true
  | .pgrefQ _ _ _ _ => true
  | .pgrefRm _ _ _ _ _ => true
  | .pgrefSh _ _ _ _ _ _ => true
  | .pgrefDr _ _ _ _ => true
  | .pgrefAdj _ _ _ _ _ => true
  | .pgrefWk _ _ _ => true
  | .pgrefClr _ _ _ => true
  | .mgmtLog _ _ _ => true
  | .mgmtTmr _ _ => true
  | .mgmtRetire _ _ _ _ => true
  | .mgmtFwsel _ _ => true
  | .mgmtFwcommit _ => true
  | .mgmtQuote _ _ _ => true
  | .mapevtTake _ => true
  | .interruptTake _ => true
  | .resultReturn _ _ => true
  | .remoteRequest _ _ => true
  | .fetchRefetch _ => true
  | .messageDrop _ _ _ => true
  | .messageStaleDrop _ _ _ => true
  | .spawnRequest _ _ => true
  | .migrantArrive _ => true
  | .migrantRetry _ => true
  | .migrantAccepted _ => true
  | .inboxAdmit _ => true
  | .storeDrain _ _ => true
  | .hostWrite _ => true
  | .hostRead _ => true
  | .monitorNotice _ _ => true
  | .waitTimeout _ _ _ => true
  | .barRelease _ _ => true
  | .barrierArrival _ _ _ => true
  | .linkValueArrive _ _ _ _ => true
  | .jobStart _ => true
  | .jobComplete _ _ _ => true
  | .jobFault _ _ => true
  | .tileLoadComplete _ _ => true
  | .tileStoreComplete _ _ => true
  | .collectiveStart _ => true
  | .leaseGrant _ => true
  | .seekComplete _ => true
  | .headSettle _ => true
  | .cursorStep _ => true
  | .itemArrive _ _ _ _ => true
  | .putAccept _ _ _ => true
  | .chainFold _ _ => true
  | .chainSpread _ _ => true
  | .autoSpreadRequest _ _ => true
  | .chainComplete _ _ => true
  | .streamWordArrive _ _ _ => true
  | .streamRouteAdmit _ _ => true
  | .tlbWalk _ => true
  | .prefetch _ _ => true
  | .taskStart _ => true
  | .doorbell _ _ => true
  | .queueEnable _ => true
  | .queueDrain _ => true
  | .queueAbort _ => true
  | .registerWrite _ _ => true
  | .packetTake _ => true
  | .launchStart _ => true
  | .launchComplete _ => true
  | .retirementMove _ _ => true
  | .sliceFlush _ => true
  | .mapPublish _ _ _ _ _ _ => true
  | .resourceLoss _ _ _ => true
  | .graceExpiry _ => true
  | .rehashReply _ _ => true
  | .preempt _ _ => true
  | .liveMigration _ _ _ => true
  | .contextSave _ _ => true
  | .saveResume _ _ => true
  | .contextResume _ _ => true
  | .bermForward _ _ _ => true
  | .bermExpire _ _ _ => true
  | .sluiceArrive _ _ => true
  | .sluiceDiscardEnd _ _ => true
  | .killConfirm _ => true
  | .uncorrectableConsumed _ _ _ => true
  | .slotScrubComplete _ => true
  | .gangBoundary _ => true
  | .gangReport _ _ => true
  | .gangStart _ => true
  | .gangGraceExpiry _ => true
  | .sensorSample _ => true
  | .alarmExpiry => true
  | .thrlWrite _ => true
  | .timerSync _ => true
  | .domainForm _ _ => true
  | .linkChange _ _ _ _ => true
  | .boot => true
  | .meshLinkChange _ _ => true
  | .clockStep _ _ => true
  | .capacityWithdrawal _ _ => true

/-- Whether an instruction has an instruction word: the forms do, the device steps do not. -/
def Instr.isForm : Instr → Bool
  | .mapevtTake _ => false
  | .interruptTake _ => false
  | .resultReturn _ _ => false
  | .remoteRequest _ _ => false
  | .fetchRefetch _ => false
  | .messageDrop _ _ _ => false
  | .messageStaleDrop _ _ _ => false
  | .spawnRequest _ _ => false
  | .migrantArrive _ => false
  | .migrantRetry _ => false
  | .migrantAccepted _ => false
  | .inboxAdmit _ => false
  | .storeDrain _ _ => false
  | .hostWrite _ => false
  | .hostRead _ => false
  | .monitorNotice _ _ => false
  | .waitTimeout _ _ _ => false
  | .barRelease _ _ => false
  | .barrierArrival _ _ _ => false
  | .linkValueArrive _ _ _ _ => false
  | .jobStart _ => false
  | .jobComplete _ _ _ => false
  | .jobFault _ _ => false
  | .tileLoadComplete _ _ => false
  | .tileStoreComplete _ _ => false
  | .collectiveStart _ => false
  | .leaseGrant _ => false
  | .seekComplete _ => false
  | .headSettle _ => false
  | .cursorStep _ => false
  | .itemArrive _ _ _ _ => false
  | .putAccept _ _ _ => false
  | .chainFold _ _ => false
  | .chainSpread _ _ => false
  | .autoSpreadRequest _ _ => false
  | .chainComplete _ _ => false
  | .streamWordArrive _ _ _ => false
  | .streamRouteAdmit _ _ => false
  | .tlbWalk _ => false
  | .prefetch _ _ => false
  | .taskStart _ => false
  | .doorbell _ _ => false
  | .queueEnable _ => false
  | .queueDrain _ => false
  | .queueAbort _ => false
  | .registerWrite _ _ => false
  | .packetTake _ => false
  | .launchStart _ => false
  | .launchComplete _ => false
  | .retirementMove _ _ => false
  | .sliceFlush _ => false
  | .mapPublish _ _ _ _ _ _ => false
  | .resourceLoss _ _ _ => false
  | .graceExpiry _ => false
  | .rehashReply _ _ => false
  | .preempt _ _ => false
  | .liveMigration _ _ _ => false
  | .contextSave _ _ => false
  | .saveResume _ _ => false
  | .contextResume _ _ => false
  | .bermForward _ _ _ => false
  | .bermExpire _ _ _ => false
  | .sluiceArrive _ _ => false
  | .sluiceDiscardEnd _ _ => false
  | .killConfirm _ => false
  | .uncorrectableConsumed _ _ _ => false
  | .slotScrubComplete _ => false
  | .gangBoundary _ => false
  | .gangReport _ _ => false
  | .gangStart _ => false
  | .gangGraceExpiry _ => false
  | .sensorSample _ => false
  | .alarmExpiry => false
  | .thrlWrite _ => false
  | .timerSync _ => false
  | .domainForm _ _ => false
  | .linkChange _ _ _ _ => false
  | .boot => false
  | .meshLinkChange _ _ => false
  | .clockStep _ _ => false
  | .capacityWithdrawal _ _ => false
  | _ => true

end Sys2Proof
end

