-- ==== Sys2Proof/Machine/Numbers.lean ====
section
/-!
DEFINITION. Numbers (R192 to R209): exact values, the formats, rounding with its flags, the stochastic generator,
self-describing blocks and the special functions. A finite value is exact, a sign and a quotient of naturals; a value
of a special function is given to 1,024 bits with a last bit set for what is left, which rounds as the exact value
does (log 22).
-/

namespace Sys2Proof.Machine

/-- An exact value: NaN, an infinity, or ± n/d. -/
inductive Num where
  | nan
  | inf (neg : Bool)
  | fin (neg : Bool) (n d : Nat)
  deriving DecidableEq, Repr

/-- FP flags (R206): FMT, NV, DZ, OF, UF, NX in bits 5 to 0. -/
abbrev Flags := BitVec 6

def fNX : Flags := 1
def fUF : Flags := 2
def fOF : Flags := 4
def fDZ : Flags := 8
def fNV : Flags := 16
def fFMT : Flags := 32

/-- How a format uses the exponent of all ones (R193 to R195). -/
inductive TopExp where
  | ieee
  | e4m3
  | normal
  deriving DecidableEq, Repr

/-- A floating format: exponent and fraction widths, bias, and its top exponent. -/
structure FFmt where
  we   : Nat
  wf   : Nat
  bias : Nat
  top  : TopExp
  deriving DecidableEq, Repr

def F32 : FFmt := ⟨8, 23, 127, .ieee⟩
def F16 : FFmt := ⟨5, 10, 15, .ieee⟩
def BF16 : FFmt := ⟨8, 7, 127, .ieee⟩
def E4M3 : FFmt := ⟨4, 3, 7, .e4m3⟩
def E5M2 : FFmt := ⟨5, 2, 15, .ieee⟩
def E2M3 : FFmt := ⟨2, 3, 1, .normal⟩
def E3M2 : FFmt := ⟨3, 2, 3, .normal⟩
def E2M1 : FFmt := ⟨2, 1, 1, .normal⟩

/-- The format of a floating element type. -/
def fmtOf : VTy → FFmt
  | .f16 => F16
  | .bf16 => BF16
  | _ => F32

/-- The sign bit's weight. -/
def FFmt.signW (F : FFmt) : Nat := 2 ^ (F.we + F.wf)

/-- Exponent field of bits. -/
def FFmt.expOf (F : FFmt) (b : Nat) : Nat := b / 2 ^ F.wf % 2 ^ F.we

/-- Fraction field of bits. -/
def FFmt.fracOf (F : FFmt) (b : Nat) : Nat := b % 2 ^ F.wf

/-- Sign of bits. -/
def FFmt.negOf (F : FFmt) (b : Nat) : Bool := b / F.signW % 2 == 1

/-- Whether bits are a NaN (R194, R195). -/
def FFmt.isNaN (F : FFmt) (b : Nat) : Bool :=
  match F.top with
  | .ieee => F.expOf b == 2 ^ F.we - 1 && F.fracOf b != 0
  | .e4m3 => F.expOf b == 15 && F.fracOf b == 7
  | .normal => false

/-- Whether bits are a signalling NaN (R194); narrow NaN codes are quiet (R211). -/
def FFmt.isSNaN (F : FFmt) (b : Nat) : Bool := F.isNaN b && F.top == .ieee && decide (F.fracOf b < 2 ^ (F.wf - 1)) && decide (7 ≤ F.wf)

/-- Whether bits are an infinity. -/
def FFmt.isInf (F : FFmt) (b : Nat) : Bool :=
  F.top == .ieee && F.expOf b == 2 ^ F.we - 1 && F.fracOf b == 0

/-- Whether bits are subnormal. -/
def FFmt.isSub (F : FFmt) (b : Nat) : Bool := F.expOf b == 0 && F.fracOf b != 0

/-- A value k·2^q of a sign. -/
def dyadic (neg : Bool) (k : Nat) (q : Int) : Num :=
  if q ≥ 0 then .fin neg (k * 2 ^ q.toNat) 1 else .fin neg k (2 ^ (-q).toNat)

/-- The value of bits (R193). -/
def FFmt.value (F : FFmt) (b : Nat) : Num :=
  if F.isNaN b then .nan
  else if F.isInf b then .inf (F.negOf b)
  else if F.expOf b = 0 then dyadic (F.negOf b) (F.fracOf b) (1 - (F.bias : Int) - F.wf)
  else dyadic (F.negOf b) (F.fracOf b + 2 ^ F.wf) ((F.expOf b : Int) - F.bias - F.wf)

/-- The canonical NaN (R194, R195); a format without one has none. -/
def FFmt.nan (F : FFmt) : Nat :=
  match F.top with
  | .ieee => (2 ^ F.we - 1) * 2 ^ F.wf + 2 ^ (F.wf - 1)
  | .e4m3 => 0x7F
  | .normal => 0

/-- The infinity's bits of a format that has one. -/
def FFmt.infBits (F : FFmt) : Nat := (2 ^ F.we - 1) * 2 ^ F.wf

/-- The largest finite code. -/
def FFmt.maxBits (F : FFmt) : Nat :=
  match F.top with
  | .ieee => (2 ^ F.we - 1) * 2 ^ F.wf - 1
  | .e4m3 => 0x7E
  | .normal => 2 ^ (F.we + F.wf) - 1

/-- Put a sign on a code. -/
def FFmt.signed (F : FFmt) (neg : Bool) (b : Nat) : Nat := if neg then b + F.signW else b

/-- A subnormal input replaced by zero of its sign under FZI (R205). -/
def FFmt.flush (F : FFmt) (fzi : Bool) (b : Nat) : Nat :=
  if fzi && F.isSub b then F.signed (F.negOf b) 0 else b

/-! ### Exact arithmetic -/

/-- The signed numerator. -/
def signedNum (neg : Bool) (n : Nat) : Int := if neg then -(n : Int) else n

/-- Opposite. -/
def Num.neg : Num → Num
  | .nan => .nan
  | .inf b => .inf (!b)
  | .fin b n d => .fin (!b) n d

/-- Magnitude. -/
def Num.abs : Num → Num
  | .nan => .nan
  | .inf _ => .inf false
  | .fin _ n d => .fin false n d

/-- Exact sum; an exact zero of opposite signs is −0 under RMI, else +0 (R225). -/
def Num.add (rmi : Bool) : Num → Num → Num
  | .nan, _ => .nan
  | _, .nan => .nan
  | .inf a, .inf b => if a = b then .inf a else .nan
  | .inf a, _ => .inf a
  | _, .inf b => .inf b
  | .fin a n d, .fin b n' d' =>
    let x := signedNum a (n * d') + signedNum b (n' * d)
    if x = 0 then .fin (if n = 0 ∧ n' = 0 ∧ a = b then a else rmi) 0 1
    else .fin (decide (x < 0)) x.natAbs (d * d')

/-- Exact product; 0 × ∞ is NaN (R202). -/
def Num.mul : Num → Num → Num
  | .nan, _ => .nan
  | _, .nan => .nan
  | .inf a, .inf b => .inf (a != b)
  | .inf a, .fin b n _ => if n = 0 then .nan else .inf (a != b)
  | .fin a n _, .inf b => if n = 0 then .nan else .inf (a != b)
  | .fin a n d, .fin b n' d' => .fin (a != b) (n * n') (d * d')

/-- Whether an invalid operation makes the sum NaN: ∞ − ∞. -/
def addInvalid : Num → Num → Bool
  | .inf a, .inf b => a != b
  | _, _ => false

/-- Whether an invalid operation makes the product NaN: 0 × ∞. -/
def mulInvalid : Num → Num → Bool
  | .inf _, .fin _ n _ => n == 0
  | .fin _ n _, .inf _ => n == 0
  | _, _ => false

/-- Whether a value is zero. -/
def Num.isZero : Num → Bool
  | .fin _ n _ => n == 0
  | _ => false

/-- Whether a value is NaN. -/
def Num.isNan : Num → Bool
  | .nan => true
  | _ => false

/-- The sign of a value. -/
def Num.isNeg : Num → Bool
  | .nan => false
  | .inf b => b
  | .fin b _ _ => b

/-- a ≤ b for values that are not NaN; −0 and +0 are equal. -/
def Num.le : Num → Num → Bool
  | .inf a, .inf b => a || !b
  | .inf a, _ => a
  | _, .inf b => !b
  | .fin a n d, .fin b n' d' => decide (signedNum a (n * d') ≤ signedNum b (n' * d))
  | _, _ => false

/-- The relation of a condition on values (R113): false where unordered. -/
def relNum (r : Rel) (x y : Num) : Bool :=
  match r with
  | .eq => x.le y && y.le x
  | .ne => !(x.le y && y.le x)
  | .lt => x.le y && !(y.le x)
  | .le => x.le y
  | .gt => y.le x && !(x.le y)
  | .ge => y.le x

/-- floor(log2 (n/d)) for n and d positive. -/
def floorLog2 (n d : Nat) : Int :=
  let e : Int := (Nat.log2 n : Int) - Nat.log2 d
  let under := if e ≥ 0 then decide (n < d * 2 ^ e.toNat) else decide (n * 2 ^ (-e).toNat < d)
  if under then e - 1 else e

/-- n/d divided by 2^q, as a quotient of naturals. -/
def scaleDown (n d : Nat) (q : Int) : Nat × Nat :=
  if q ≥ 0 then (n, d * 2 ^ q.toNat) else (n * 2 ^ (-q).toNat, d)

/-! ### Rounding (R200, R201) -/

/-- Whether to take the neighbour of greater magnitude: the magnitude lies frac = r/d above the lesser, r > 0; `odd`
says that the lesser is odd, for the tie of RNE. -/
def roundUp (rm : RM) (neg odd : Bool) (draw r d : Nat) : Bool :=
  match rm with
  | .rne => decide (d < 2 * r) || (decide (d = 2 * r) && odd)
  | .rtz => false
  | .rmi => neg
  | .rsr => decide (draw < 65536 * r / d)

/-- What an overflow of a finite value gives (R201). -/
def overflowBits (F : FFmt) (rm : RM) (sat neg : Bool) : Nat × Flags :=
  match F.top with
  | .ieee =>
    let toMax := sat || (match rm with
      | .rne => false
      | .rsr => false
      | .rtz => true
      | .rmi => !neg)
    (F.signed neg (if toMax then F.maxBits else F.infBits), fOF ||| fNX)
  | .e4m3 => if sat then (F.signed neg F.maxBits, fOF ||| fNX) else (F.nan, fOF ||| fNX ||| fNV)
  | .normal => (F.signed neg F.maxBits, fOF ||| fNX)

/-- What an infinity gives (R201). -/
def infinityBits (F : FFmt) (sat neg : Bool) : Nat × Flags :=
  match F.top with
  | .ieee => (F.signed neg (if sat then F.maxBits else F.infBits), 0)
  | .e4m3 => if sat then (F.signed neg F.maxBits, fNV) else (F.nan, fNV)
  | .normal => (F.signed neg F.maxBits, fNV)

/-- The code of k·2^q, k below 2^(wf+1), q at least the subnormal unit. -/
def FFmt.codeOf (F : FFmt) (k : Nat) (q : Int) : Nat :=
  if k < 2 ^ F.wf then k else (q + F.wf + F.bias).toNat * 2 ^ F.wf + (k - 2 ^ F.wf)

/-- `round(x, T, RM)` to a floating format (R200, R201), with one draw: the bits and the flags. -/
def roundF (F : FFmt) (rm : RM) (sat fzo : Bool) (draw : Nat) (x : Num) : Nat × Flags :=
  match x with
  | .nan => if F.top = .normal then (0, fNV) else (F.nan, 0)
  | .inf neg => infinityBits F sat neg
  | .fin neg n d =>
    if n = 0 then (F.signed neg 0, 0)
    else
      let emin : Int := 1 - (F.bias : Int)
      let q := max (floorLog2 n d) emin - F.wf
      let (a, b) := scaleDown n d q
      let fl := a / b
      let r := a % b
      let up := decide (0 < r) && roundUp rm neg (fl % 2 == 1) draw r b
      let k0 := if up then fl + 1 else fl
      let (k, q') := if k0 = 2 ^ (F.wf + 1) then (2 ^ F.wf, q + 1) else (k0, q)
      let big := decide (F.maxBits < F.codeOf k q')
      if big then overflowBits F rm sat neg
      else
        let code := F.codeOf k q'
        let tiny := decide (code < 2 ^ F.wf)
        let fl1 : Flags := if r = 0 then 0 else if tiny then fNX ||| fUF else fNX
        if fzo && tiny && code != 0 then (F.signed neg 0, fl1 ||| fUF ||| fNX)
        else (F.signed neg code, fl1)

/-- Rounding to an integer by RM (R200): the integer, and whether it was inexact. -/
def roundInt (rm : RM) (draw : Nat) (neg : Bool) (n d : Nat) : Int × Bool :=
  let fl := n / d
  let r := n % d
  let up := decide (0 < r) && roundUp rm neg (fl % 2 == 1) draw r d
  (signedNum neg (if up then fl + 1 else fl), decide (0 < r))

/-- A floating value to a signed n-bit integer (R201, R208): the integer and the flags. -/
def roundI (bits : Nat) (rm : RM) (draw : Nat) (x : Num) : Int × Flags :=
  let hi : Int := 2 ^ (bits - 1) - 1
  let lo : Int := -2 ^ (bits - 1)
  match x with
  | .nan => (0, fNV)
  | .inf neg => (if neg then lo else hi, fNV)
  | .fin neg n d =>
    let (i, inexact) := roundInt rm draw neg n d
    if i < lo then (lo, fNV) else if hi < i then (hi, fNV) else (i, if inexact then fNX else 0)

/-! ### Shift-pair codes (R196) -/

/-- One term of a shift-pair code in units of 2^−6. -/
def shpTerm (c : Nat) : Int := if c % 8 = 7 then 0 else if c / 8 % 2 = 1 then -(2 ^ (6 - c % 8)) else 2 ^ (6 - c % 8)

/-- The value of a code in units of 2^−6. -/
def shpUnits (c : Nat) : Int := shpTerm (c / 16) + shpTerm c

/-- The value of a code. -/
def shpValue (c : Nat) : Num := let u := shpUnits (c % 256); .fin (decide (u < 0)) u.natAbs 64

/-- Whether a magnitude in units is some code's. -/
def shpHas (u : Nat) : Bool := (List.range 256).any fun c => (shpUnits c).natAbs == u

/-- The canonical code of a value in units: 0x77 for zero, else the smallest code. -/
def shpCode (u : Int) : Nat :=
  if u = 0 then 0x77 else ((List.range 256).find? fun c => shpUnits c == u).getD 0x77

/-- The greatest representable magnitude at or below. -/
def shpBelow : Nat → Nat
  | 0 => 0
  | u + 1 => if shpHas (u + 1) then u + 1 else shpBelow u

/-- The least representable magnitude at or above, searched within a fuel. -/
def shpAbove : Nat → Nat → Nat
  | 0, u => u
  | k + 1, u => if shpHas u then u else shpAbove k (u + 1)

/-- Trailing zero bits of a magnitude in units; zero has more than any (R200). -/
def shpEven (u : Nat) : Nat := if u = 0 then 100 else ctzFrom 16 0 u

/-- `round(x, SHP8, RM)` (R200, R201). -/
def roundShp (rm : RM) (draw : Nat) (x : Num) : Nat × Flags :=
  match x with
  | .nan => (shpCode 0, fNV)
  | .inf neg => (shpCode (if neg then -128 else 128), fNV)
  | .fin neg n d =>
    if n = 0 then (0x77, 0)
    else if 2 * d < n then (shpCode (if neg then -128 else 128), fOF ||| fNX)
    else
      let u := n * 64 / d
      let a := shpBelow u
      if a * d = n * 64 then (shpCode (signedNum neg a), 0)
      else
        let b := shpAbove 130 (u + 1)
        let num := n * 64 - a * d
        let den := (b - a) * d
        let up := roundUp rm neg (decide (shpEven a < shpEven b)) draw num den
        let y := if up then b else a
        (shpCode (signedNum neg y), if y = 0 then fNX ||| fUF else fNX)

/-! ### Blocks (R197, R198) -/

/-- What a block element's code means: its value before the scale and whether it is NaN-free data. -/
inductive BCode where
  | zero
  | fp (F : FFmt) (bits : Nat)
  | shp (code : Nat)
  | int (v : Int)
  deriving DecidableEq, Repr

/-- Elements of a format in one block (R197). -/
def fmtCount (f : Nat) : Nat :=
  if f = 3 ∨ f = 4 then 80 else if f = 5 then 120 else 60

/-- Bits of a code of a format. -/
def fmtBits (f : Nat) : Nat := if f = 3 ∨ f = 4 then 6 else if f = 5 then 4 else 8

/-- The code of element i in a payload (R197). -/
def fmtCode (f payload i : Nat) : Nat := payload / 2 ^ (fmtBits f * i) % 2 ^ fmtBits f

/-- A code's meaning in a format. -/
def bcode (f code : Nat) : BCode :=
  match f with
  | 1 => .fp E4M3 code
  | 2 => .fp E5M2 code
  | 3 => .fp E2M3 code
  | 4 => .fp E3M2 code
  | 5 => .fp E2M1 code
  | 6 => .shp code
  | 7 => .int (signedN 8 code)
  | _ => .zero

/-- The unscaled value of a code. -/
def BCode.value : BCode → Num
  | .zero => .fin false 0 1
  | .fp F b => F.value b
  | .shp c => shpValue c
  | .int v => .fin (decide (v < 0)) v.natAbs 1

/-- Whether flushing acts on a code's format (R205: floating formats, not integers or SHP8). -/
def BCode.floating : BCode → Bool
  | .fp _ _ => true
  | _ => false

/-- A value times 2^k. -/
def Num.scale (k : Int) : Num → Num
  | .fin b n d => if k ≥ 0 then .fin b (n * 2 ^ k.toNat) d else .fin b n (d * 2 ^ (-k).toNat)
  | x => x

/-- Whether a value is nonzero and smaller than the smallest normal value of a format (R205). -/
def belowNormal (F : FFmt) : Num → Bool
  | .fin _ n d =>
    let k : Int := 1 - (F.bias : Int)
    n != 0 && (if k ≥ 0 then decide (n < d * 2 ^ k.toNat) else decide (n * 2 ^ (-k).toNat < d))
  | _ => false

/-- Zero of a value's sign. -/
def Num.zeroed (x : Num) : Num := .fin x.isNeg 0 1

/-! ### The stochastic generator (R203) -/

/-- `seed(S, L)`. -/
def seedGen (seed : W32) (lane : BitVec 16) : W32 :=
  let g := seed ^^^ (lane.setWidth 32 * 0x9E3779B9)
  if g = 0 then 0x9E3779B9 else g

/-- `draw()`: the new generator state; the draw is its high half. -/
def stepGen (g : W32) : W32 :=
  let x := g ^^^ (g <<< 13)
  let x := x ^^^ (x >>> 17)
  x ^^^ (x <<< 5)

/-- The draw of a generator state after its step. -/
def drawOf (g : W32) : Nat := g.toNat / 65536

/-! ### Square roots and the special functions (R209, R229) -/

/-- Newton's integer square root from a start above it, within a fuel. -/
def isqrtGo : Nat → Nat → Nat → Nat
  | 0, _, x => x
  | f + 1, n, x => let y := (x + n / x) / 2; if y < x then isqrtGo f n y else x

/-- The integer square root. -/
def isqrt (n : Nat) : Nat := if n = 0 then 0 else isqrtGo 200 n (2 ^ (Nat.log2 n / 2 + 1))

/-- Bits of precision of an approximated value. -/
def prec : Nat := 1024

/-- sqrt(n/d), with a last bit for what is left. -/
def sqrtNum (n d : Nat) : Num :=
  let x := n * 2 ^ (2 * prec) / d
  let r := isqrt x
  if r * r * d = n * 2 ^ (2 * prec) then .fin false r (2 ^ prec)
  else .fin false (2 * r + 1) (2 ^ (prec + 1))

/-- ln 2 in units of 2^−p. -/
def ln2Fx (p : Nat) : Nat := (List.range (p + 8)).foldl (fun a k => a + 2 ^ (p + 8) / ((k + 1) * 2 ^ (k + 1))) 0 / 2 ^ 8

/-- The exponential series less 1, from the term after `term` = y^(k−1)/(k−1)! on, in units of 2^−p. -/
def expSeries : Nat → Nat → Nat → Nat → Nat → Nat
  | 0, _, _, _, _ => 0
  | f + 1, p, y, k, term =>
    let t := term * y / 2 ^ p / k
    t + expSeries f p y (k + 1) t

/-- e^y − 1 in units of 2^−p, for 0 ≤ y < 2 in the same units. -/
def expm1Fx (p y : Nat) : Nat := expSeries 320 p y 1 (2 ^ p)

/-- Σ z^(2k+1)/(2k+1), the series of atanh, in units of 2^−p. -/
def atanhSeries : Nat → Nat → Nat → Nat → Nat → Nat
  | 0, _, _, _, _ => 0
  | f + 1, p, z2, k, term => term / (2 * k + 1) + atanhSeries f p z2 (k + 1) (term * z2 / 2 ^ p)

/-- Working precision of the series. -/
def wp : Nat := 1280

/-- A fixed-point magnitude in units of 2^−wp, less its last 128 bits, with a last bit for what is left. -/
def fromFx (neg : Bool) (x : Nat) : Num := .fin neg (2 * (x / 2 ^ 128) + 1) (2 ^ (wp - 127))

/-- 2^f in units of 2^−wp for a fraction f = r/d below 1. -/
def exp2Frac (r d : Nat) : Nat := 2 ^ wp + expm1Fx wp (r * ln2Fx wp / d)

/-- exp2 of a finite nonzero value: exact for an integer in range, else to the working precision; far out of range a
value beyond every format stands for it. -/
def exp2Num (neg : Bool) (n d : Nat) : Num :=
  if 4096 * d < n then (if neg then .fin false 1 (2 ^ 4096) else .fin false (2 ^ 4096) 1)
  else
    let fl : Int := if neg then -(((n + d - 1) / d : Nat) : Int) else ((n / d : Nat) : Int)
    let r := if neg then ((n + d - 1) / d) * d - n else n % d
    if r = 0 then dyadic false 1 fl
    else (fromFx false (exp2Frac r d)).scale fl

/-- log2 of a finite positive value: exact for a power of two. -/
def log2Num (n d : Nat) : Num :=
  let e := floorLog2 n d
  let (a, b) := scaleDown n d e
  if a = b then (if e = 0 then .fin false 0 1 else .fin (decide (e < 0)) e.natAbs 1)
  else
    let z := (a - b) * 2 ^ wp / (a + b)
    let ln := 2 * atanhSeries 420 wp (z * z / 2 ^ wp) 0 z
    let l := ln * 2 ^ wp / ln2Fx wp
    let x : Int := e * 2 ^ wp + l
    fromFx (decide (x < 0)) x.natAbs

/-- tanh of a finite nonzero value, by its magnitude. -/
def tanhNum (neg : Bool) (n d : Nat) : Num :=
  if 512 * d < n then .fin neg (2 ^ 1400 - 1) (2 ^ 1400)
  else if n < d then
    let m := expm1Fx wp (2 * n * 2 ^ wp / d)
    .fin neg (2 * (m * 2 ^ wp / (m + 2 * 2 ^ wp) / 2 ^ 64) + 1) (2 ^ (wp - 63))
  else
    let y := 2 * n * 2 ^ (2 * wp) / d / ln2Fx wp
    let k := y / 2 ^ wp
    let m := (2 ^ wp + expm1Fx wp (y % 2 ^ wp * ln2Fx wp / 2 ^ wp)) * 2 ^ k
    .fin neg (2 * ((m - 2 ^ wp) * 2 ^ wp / (m + 2 ^ wp) / 2 ^ 64) + 1) (2 ^ (wp - 63))

/-- 1/sqrt of a finite positive value. -/
def rsqrtNum (n d : Nat) : Num := sqrtNum d n

/-- A special function on a value (R209): the exact value or its approximation, and the flags. A NaN input is handled
by the caller. -/
def sfuVal (k : SfuK) (x : Num) : Num × Flags :=
  match k, x with
  | _, .nan => (.nan, 0)
  | .exp2, .inf true => (.fin false 0 1, 0)
  | .exp2, .inf false => (.inf false, 0)
  | .exp2, .fin neg n d => if n = 0 then (.fin false 1 1, 0) else (exp2Num neg n d, 0)
  | .log2, .inf true => (.nan, fNV)
  | .log2, .inf false => (.inf false, 0)
  | .log2, .fin neg n d =>
    if n = 0 then (.inf true, fDZ) else if neg then (.nan, fNV) else (log2Num n d, 0)
  | .rcp, .inf neg => (.fin neg 0 1, 0)
  | .rcp, .fin neg n d => if n = 0 then (.inf neg, fDZ) else (.fin neg d n, 0)
  | .rsqrt, .inf true => (.nan, fNV)
  | .rsqrt, .inf false => (.fin false 0 1, 0)
  | .rsqrt, .fin neg n d =>
    if n = 0 then (.inf neg, fDZ) else if neg then (.nan, fNV) else (rsqrtNum n d, 0)
  | .tanh, .inf neg => (.fin neg 1 1, 0)
  | .tanh, .fin neg n d => if n = 0 then (.fin neg 0 1, 0) else (tanhNum neg n d, 0)

/-- x / y (R229): the exact quotient and the flags. -/
def divNum (x y : Num) : Num × Flags :=
  match x, y with
  | .nan, _ => (.nan, 0)
  | _, .nan => (.nan, 0)
  | .inf _, .inf _ => (.nan, fNV)
  | .inf a, .fin b _ _ => (.inf (a != b), 0)
  | .fin a _ _, .inf b => (.fin (a != b) 0 1, 0)
  | .fin a n d, .fin b n' d' =>
    if n' = 0 then (if n = 0 then (.nan, fNV) else (.inf (a != b), fDZ))
    else (.fin (a != b) (n * d') (d * n'), 0)

/-- sqrt x (R229). -/
def sqrtVal (x : Num) : Num × Flags :=
  match x with
  | .nan => (.nan, 0)
  | .inf true => (.nan, fNV)
  | .inf false => (.inf false, 0)
  | .fin neg n d =>
    if n = 0 then (.fin neg 0 1, 0) else if neg then (.nan, fNV) else (sqrtNum n d, 0)

end Sys2Proof.Machine
end

