-- ==== Sys2Proof/Decode.lean ====
section
/-!
DEFINITION. The instruction word: its fields (R107), operand slots (R110), the decoder, which refuses every word that
is no instruction (R116, orders 2 to 5), and the encoder, written from the same encoding tables. The helpers on bit
fields that decoding needs stand here too.
-/

namespace Sys2Proof

/-- Guard of a decoding. -/
def need (b : Bool) : Option Unit := if b then some () else none

/-- A found code, or refusal. -/
def enumOf {α : Type} (x : Option α) : Option α := x

/-- Bit weight w of a modifier: 0 or w, and nothing else. -/
def bitOf (m w : Nat) : Option Bool :=
  if m = 0 then some false else if m = w then some true else none

/-- The weight of a Boolean. -/
def bn (b : Bool) (w : Nat) : Nat := if b then w else 0

/-- A two-bit number. -/
def w4 (n : Nat) : Fin 4 := Fin.ofNat 4 n

/-- A scale in bits [2:1], the other bits zero. -/
def scaleOf (m : Nat) : Option (Fin 4) :=
  if m % 2 = 0 ∧ m < 8 then some (w4 (m / 2)) else none

/-- The memory MOD of R114: width, SX, scale, MIG. -/
def memMod (m : Nat) : Fin 4 × Bool × Fin 4 × Bool :=
  (w4 (m / 16), m / 8 % 2 == 1, w4 (m / 2), m % 2 == 1)

/-- RM codes (R107). -/
def RM.code : RM → BitVec 2
  | .rne => 0 | .rtz => 1 | .rmi => 2 | .rsr => 3

/-- RM from its code. -/
def RM.ofCode (c : BitVec 2) : RM :=
  if c = 0 then .rne else if c = 1 then .rtz else if c = 2 then .rmi else .rsr

/-- CH codes (R107). -/
def CH.code : CH → BitVec 2
  | .normal => 0 | .stream => 1 | .keep => 2 | .bypass => 3

/-- CH from its code. -/
def CH.ofCode (c : BitVec 2) : CH :=
  if c = 0 then .normal else if c = 1 then .stream else if c = 2 then .keep else .bypass

/-- Type codes (R112). -/
def VTy.code : VTy → Nat
  | .i8 => 0 | .i16 => 1 | .i32 => 2 | .f16 => 4 | .bf16 => 5 | .f32 => 6

/-- Type of a code; 0b011 is for scalar instructions only and 0b111 is reserved. -/
def VTy.ofCode : Nat → Option VTy
  | 0 => some .i8 | 1 => some .i16 | 2 => some .i32 | 4 => some .f16 | 5 => some .bf16 | 6 => some .f32
  | _ => none

/-- Relation codes (R113). -/
def Rel.code : Rel → Nat
  | .eq => 0 | .ne => 1 | .lt => 2 | .le => 3 | .gt => 4 | .ge => 5

/-- Relation of a code. -/
def Rel.ofCode : Nat → Option Rel
  | 0 => some .eq | 1 => some .ne | 2 => some .lt | 3 => some .le | 4 => some .gt | 5 => some .ge
  | _ => none

/-- Condition codes (R113). -/
def Cond.code (c : Cond) : Nat := c.rel.code + bn c.var 8

/-- Condition of a code below 16. -/
def Cond.ofCode (n : Nat) : Option Cond :=
  if n < 16 then (Rel.ofCode (n % 8)).map fun r => ⟨r, n / 8 == 1⟩ else none

/-- MUL's MOD (R132). -/
def MulK.code : MulK → Nat
  | .lo => 0 | .lou => 4 | .hi => 1 | .hiu => 2

/-- MUL form of a MOD. -/
def MulK.ofCode : Nat → Option MulK
  | 0 => some .lo | 4 => some .lou | 1 => some .hi | 2 => some .hiu | _ => none

/-- DIV's MOD (R132). -/
def DivK.code : DivK → Nat
  | .q => 0 | .r => 1 | .qu => 2 | .ru => 3

/-- DIV form of a MOD. -/
def DivK.ofCode : Nat → Option DivK
  | 0 => some .q | 1 => some .r | 2 => some .qu | 3 => some .ru | _ => none

/-- MOVI's MOD (R132). -/
def MoviK.code : MoviK → Nat
  | .sx => 0 | .z => 1 | .hi => 2

/-- MOVI form of a MOD. -/
def MoviK.ofCode : Nat → Option MoviK
  | 0 => some .sx | 1 => some .z | 2 => some .hi | _ => none

/-- BITC's MOD (R132). -/
def BitcK.code : BitcK → Nat
  | .clz => 0 | .ctz => 1 | .popc => 2 | .brev => 3

/-- BITC form of a MOD. -/
def BitcK.ofCode : Nat → Option BitcK
  | 0 => some .clz | 1 => some .ctz | 2 => some .popc | 3 => some .brev | _ => none

/-- ATOM's operation codes (R171). -/
def AtomOp.code : AtomOp → Nat
  | .add => 0 | .and => 1 | .or => 2 | .xor => 3 | .min => 4 | .max => 5 | .swap => 6 | .cas => 7

/-- ATOM operation of a code. -/
def AtomOp.ofCode : Nat → Option AtomOp
  | 0 => some .add | 1 => some .and | 2 => some .or | 3 => some .xor | 4 => some .min | 5 => some .max
  | 6 => some .swap | 7 => some .cas | _ => none

/-- Scope codes (R17). -/
def Scope.code : Scope → Nat
  | .thread => 0 | .core => 1 | .cluster => 2 | .polder => 3 | .package => 4 | .domain => 5

/-- Scope of a code. -/
def Scope.ofCode : Nat → Option Scope
  | 0 => some .thread | 1 => some .core | 2 => some .cluster | 3 => some .polder | 4 => some .package
  | 5 => some .domain | _ => none

/-- BAR's MOD (R185). -/
def BarK.code : BarK → Nat
  | .all => 0 | .row => 1 | .col => 2

/-- BAR form of a MOD. -/
def BarK.ofCode : Nat → Option BarK
  | 0 => some .all | 1 => some .row | 2 => some .col | _ => none

/-- VUN's operation codes (R222). -/
def UnK.code : UnK → Nat
  | .neg => 0 | .abs => 1 | .not => 2

/-- VUN operation of a code. -/
def UnK.ofCode : Nat → Option UnK
  | 0 => some .neg | 1 => some .abs | 2 => some .not | _ => none

/-- VLOG's and PLOG's operation codes (R222). -/
def LogK.code : LogK → Nat
  | .and => 0 | .or => 1 | .xor => 2 | .andn => 3

/-- Operation of a code. -/
def LogK.ofCode : Nat → Option LogK
  | 0 => some .and | 1 => some .or | 2 => some .xor | 3 => some .andn | _ => none

/-- VSHF's operation codes (R222). -/
def ShfK.code : ShfK → Nat
  | .shl => 0 | .shr => 1 | .sar => 2 | .rot => 3

/-- VSHF operation of a code. -/
def ShfK.ofCode : Nat → Option ShfK
  | 0 => some .shl | 1 => some .shr | 2 => some .sar | 3 => some .rot | _ => none

/-- Block format codes (R222, R197). -/
def BFmt.code : BFmt → Nat
  | .e4m3 => 1 | .e5m2 => 2 | .e2m3 => 3 | .e3m2 => 4 | .e2m1 => 5 | .shp8 => 6 | .int8 => 7

/-- Block format of a code. -/
def BFmt.ofCode : Nat → Option BFmt
  | 1 => some .e4m3 | 2 => some .e5m2 | 3 => some .e2m3 | 4 => some .e3m2 | 5 => some .e2m1 | 6 => some .shp8
  | 7 => some .int8 | _ => none

/-- VSFU's function codes (R222). -/
def SfuK.code : SfuK → Nat
  | .exp2 => 0 | .log2 => 1 | .rcp => 2 | .rsqrt => 3 | .tanh => 4

/-- VSFU function of a code. -/
def SfuK.ofCode : Nat → Option SfuK
  | 0 => some .exp2 | 1 => some .log2 | 2 => some .rcp | 3 => some .rsqrt | 4 => some .tanh | _ => none

/-- VRED's operation codes (R222). -/
def RedK.code : RedK → Nat
  | .add => 0 | .min => 1 | .max => 2

/-- VRED operation of a code. -/
def RedK.ofCode : Nat → Option RedK
  | 0 => some .add | 1 => some .min | 2 => some .max | _ => none

/-- VDOT's MOD: t·8 + s (R222, R223). -/
def DotK.code : DotK → Nat
  | .i8 => 16 | .f16 => 52 | .bf16 => 53

/-- VDOT form of a MOD. -/
def DotK.ofCode : Nat → Option DotK
  | 16 => some .i8 | 52 => some .f16 | 53 => some .bf16 | _ => none

/-- SEEK's MOD (R278). -/
def SeekK.code : SeekK → Nat
  | .keep => 0 | .fwd => 1 | .rev => 2

/-- SEEK form of a MOD. -/
def SeekK.ofCode : Nat → Option SeekK
  | 0 => some .keep | 1 => some .fwd | 2 => some .rev | _ => none

/-! ### Operand slots (R110): class in bits 11 to 9, value in bits 8 to 0 -/

/-- A slot of a class and a value. -/
def slot (cls val : Nat) : BitVec 12 := BitVec.ofNat 12 (cls * 512 + val)

/-- The absent slot, 0xE00. -/
def absent : BitVec 12 := 0xE00

/-- A slot's class. -/
def slotCls (o : BitVec 12) : Nat := o.toNat / 512

/-- A slot's value. -/
def slotVal (o : BitVec 12) : Nat := o.toNat % 512

/-- The value of a slot of class cls within lo .. lo+n−1, less lo. -/
def slotIn (o : BitVec 12) (cls lo n : Nat) [NeZero n] : Option (Fin n) :=
  if slotCls o = cls ∧ lo ≤ slotVal o ∧ slotVal o < lo + n then some (Fin.ofNat n (slotVal o - lo)) else none

/-- The immediate of a class 0b110 slot. -/
def slotImm (o : BitVec 12) : Option (BitVec 9) :=
  if slotCls o = 6 then some (BitVec.ofNat 9 (slotVal o)) else none

def sG (r : Fin 16) : BitVec 12 := slot 0 r.val
def dG (o : BitVec 12) : Option (Fin 16) := slotIn o 0 0 16
def sIm9 (v : BitVec 9) : BitVec 12 := slot 6 v.toNat
def sV (r : Fin 32) : BitVec 12 := slot 1 r.val
def dV (o : BitVec 12) : Option (Fin 32) := slotIn o 1 0 32
def sP (r : Fin 8) : BitVec 12 := slot 2 r.val
def dP (o : BitVec 12) : Option (Fin 8) := slotIn o 2 0 8
def sC (r : Fin 32) : BitVec 12 := slot 2 (32 + r.val)
def dC (o : BitVec 12) : Option (Fin 32) := slotIn o 2 32 32
def sT (r : Fin 16) : BitVec 12 := slot 3 r.val
def dT (o : BitVec 12) : Option (Fin 16) := slotIn o 3 0 16
def sA (r : Fin 4) : BitVec 12 := slot 3 (16 + r.val)
def dA (o : BitVec 12) : Option (Fin 4) := slotIn o 3 16 4
def sK (r : Fin 64) : BitVec 12 := slot 4 r.val
def dK (o : BitVec 12) : Option (Fin 64) := slotIn o 4 0 64
def sKg (r : Fin 4) : BitVec 12 := slot 4 (64 + r.val)
def dKg (o : BitVec 12) : Option (Fin 4) := slotIn o 4 64 4
def sS (r : Fin 4) : BitVec 12 := slot 5 r.val
def dS (o : BitVec 12) : Option (Fin 4) := slotIn o 5 0 4
def sQ (r : Fin 4) : BitVec 12 := slot 5 (9 + r.val)
def dQ (o : BitVec 12) : Option (Fin 4) := slotIn o 5 9 4

/-- VCVT's part, VQNT's and VDQN's blk: an immediate in 0 .. 3 (R222, R228, R235). -/
def sIm (r : Fin 4) : BitVec 12 := slot 6 r.val
def dIm (o : BitVec 12) : Option (Fin 4) := slotIn o 6 0 4

def sGI : GI → BitVec 12
  | .g r => sG r
  | .im v => sIm9 v

def dGI (o : BitVec 12) : Option GI :=
  (dG o).map GI.g <|> (slotImm o).map GI.im

def sVB : VB → BitVec 12
  | .v r => sV r
  | .g r => sG r
  | .im v => sIm9 v

def dVB (o : BitVec 12) : Option VB :=
  (dV o).map VB.v <|> (dG o).map VB.g <|> (slotImm o).map VB.im

def sGV : GV → BitVec 12
  | .g r => sG r
  | .v r => sV r

def dGV (o : BitVec 12) : Option GV :=
  (dG o).map GV.g <|> (dV o).map GV.v

def sGIV : GIV → BitVec 12
  | .g r => sG r
  | .im v => sIm9 v
  | .v r => sV r

def dGIV (o : BitVec 12) : Option GIV :=
  (dG o).map GIV.g <|> (slotImm o).map GIV.im <|> (dV o).map GIV.v

/-- LW, LE and LWF are values 16 to 18 of class 0b000 (R110). -/
def sLS : LSrc → BitVec 12
  | .g r => sG r
  | .im v => sIm9 v
  | .lw => slot 0 16
  | .le => slot 0 17
  | .lwf => slot 0 18

def dLS (o : BitVec 12) : Option LSrc :=
  if o = slot 0 16 then some .lw else if o = slot 0 17 then some .le else if o = slot 0 18 then some .lwf
  else (dG o).map LSrc.g <|> (slotImm o).map LSrc.im

def sXD : XDst → BitVec 12
  | .g r => sG r
  | .lw => slot 0 16
  | .le => slot 0 17

def dXD (o : BitVec 12) : Option XDst :=
  if o = slot 0 16 then some .lw else if o = slot 0 17 then some .le else (dG o).map XDst.g

def sKK : KK → BitVec 12
  | .k r => sK r
  | .kg r => sKg r

def dKK (o : BitVec 12) : Option KK :=
  (dK o).map KK.k <|> (dKg o).map KK.kg

def sOG : Option (Fin 16) → BitVec 12
  | some r => sG r
  | none => absent

def dOG (o : BitVec 12) : Option (Option (Fin 16)) :=
  if o = absent then some none else (dG o).map some

def sOGI : Option GI → BitVec 12
  | some x => sGI x
  | none => absent

def dOGI (o : BitVec 12) : Option (Option GI) :=
  if o = absent then some none else (dGI o).map some

/-! ### The word's fields (R107) -/

/-- The fields of an instruction word. -/
structure Raw where
  opc  : BitVec 7
  md   : BitVec 6
  sw   : Bool
  gan  : Bool
  ga   : BitVec 5
  gbn  : Bool
  gb   : BitVec 5
  fzi  : Bool
  fzo  : Bool
  rm   : BitVec 2
  sat  : Bool
  ch   : BitVec 2
  pace : BitVec 3
  o1   : BitVec 12
  o2   : BitVec 12
  o3   : BitVec 12
  o4   : BitVec 12
  o5   : BitVec 12
  deriving DecidableEq, Repr

/-- The word of the fields: OPC in [95:89] down to O5 in [11:0]. -/
def pack (r : Raw) : IWord :=
  r.opc ++ r.md ++ BitVec.ofBool r.sw ++ BitVec.ofBool r.gan ++ r.ga ++ BitVec.ofBool r.gbn ++ r.gb ++
  BitVec.ofBool r.fzi ++ BitVec.ofBool r.fzo ++ r.rm ++ BitVec.ofBool r.sat ++ r.ch ++ r.pace ++
  r.o1 ++ r.o2 ++ r.o3 ++ r.o4 ++ r.o5

/-- The fields of a word. -/
def unpack (w : IWord) : Raw where
  opc  := w.extractLsb' 89 7
  md   := w.extractLsb' 83 6
  sw   := w.getLsbD 82
  gan  := w.getLsbD 81
  ga   := w.extractLsb' 76 5
  gbn  := w.getLsbD 75
  gb   := w.extractLsb' 70 5
  fzi  := w.getLsbD 69
  fzo  := w.getLsbD 68
  rm   := w.extractLsb' 66 2
  sat  := w.getLsbD 65
  ch   := w.extractLsb' 63 2
  pace := w.extractLsb' 60 3
  o1   := w.extractLsb' 48 12
  o2   := w.extractLsb' 36 12
  o3   := w.extractLsb' 24 12
  o4   := w.extractLsb' 12 12
  o5   := w.extractLsb' 0 12

/-- The header fields of a word. -/
def Raw.hdr (r : Raw) : Hdr where
  sw := r.sw
  gan := r.gan
  ga := Fin.ofNat 32 r.ga.toNat
  gbn := r.gbn
  gb := Fin.ofNat 32 r.gb.toNat
  pace := Fin.ofNat 8 r.pace.toNat

/-- Fields with a given header, everything else zero and every slot absent. -/
def Raw.ofHdr (h : Hdr) : Raw where
  opc := 0
  md := 0
  sw := h.sw
  gan := h.gan
  ga := BitVec.ofNat 5 h.ga.val
  gbn := h.gbn
  gb := BitVec.ofNat 5 h.gb.val
  fzi := false
  fzo := false
  rm := 0
  sat := false
  ch := 0
  pace := BitVec.ofNat 3 h.pace.val
  o1 := absent
  o2 := absent
  o3 := absent
  o4 := absent
  o5 := absent

/-- IMM24, word<23:0> (R111). -/
def imm24 (r : Raw) : BitVec 24 := r.o4 ++ r.o5

/-- IMM48, word<47:0> (R111). -/
def imm48 (r : Raw) : BitVec 48 := r.o2 ++ r.o3 ++ r.o4 ++ r.o5

/-- The O4 half of an IMM24. -/
def immHi (d : BitVec 24) : BitVec 12 := d.extractLsb' 12 12

/-- The O5 half of an IMM24. -/
def immLo (d : BitVec 24) : BitVec 12 := d.extractLsb' 0 12

/-- The fields of the word of an instruction form; `none` for a device step. -/
def toRaw : Instr → Option Raw
  | .nop h =>
    some { Raw.ofHdr h with opc := 0x0, md := BitVec.ofNat 6 (0) }
  | .br h d =>
    some { Raw.ofHdr h with opc := 0x1, md := BitVec.ofNat 6 (0), o4 := immHi d, o5 := immLo d }
  | .bri h r =>
    some { Raw.ofHdr h with opc := 0x2, md := BitVec.ofNat 6 (0), o1 := sG r }
  | .call h d =>
    some { Raw.ofHdr h with opc := 0x3, md := BitVec.ofNat 6 (0), o4 := immHi d, o5 := immLo d }
  | .ret h r =>
    some { Raw.ofHdr h with opc := 0x4, md := BitVec.ofNat 6 (0), o1 := sG r }
  | .loop h n d =>
    some { Raw.ofHdr h with opc := 0x5, md := BitVec.ofNat 6 (0), o1 := sG n, o4 := immHi d, o5 := immLo d }
  | .quit h =>
    some { Raw.ofHdr h with opc := 0x6, md := BitVec.ofNat 6 (0) }
  | .spawn h l c d =>
    some { Raw.ofHdr h with opc := 0x7, md := BitVec.ofNat 6 (0), o1 := sG l, o2 := sC c, o4 := immHi d, o5 := immLo d }
  | .migr h l =>
    some { Raw.ofHdr h with opc := 0x8, md := BitVec.ofNat 6 (0), o1 := sG l }
  | .park h d tmo =>
    some { Raw.ofHdr h with opc := 0x9, md := BitVec.ofNat 6 (0), o1 := sG d, o2 := sGI tmo }
  | .trap h code =>
    some { Raw.ofHdr h with opc := 0xa, md := BitVec.ofNat 6 (0), o4 := immHi code, o5 := immLo code }
  | .tret h =>
    some { Raw.ofHdr h with opc := 0xb, md := BitVec.ofNat 6 (0) }
  | .sysr h d n =>
    some { Raw.ofHdr h with opc := 0xc, md := BitVec.ofNat 6 (0), o1 := sG d, o4 := immHi n, o5 := immLo n }
  | .sysw h r n =>
    some { Raw.ofHdr h with opc := 0xd, md := BitVec.ofNat 6 (0), o1 := sG r, o4 := immHi n, o5 := immLo n }
  | .add h u sat d a b =>
    some { Raw.ofHdr h with opc := 0xe, md := BitVec.ofNat 6 (bn u 4), sat := sat, o1 := sG d, o2 := sGI a, o3 := sGI b }
  | .sub h u sat d a b =>
    some { Raw.ofHdr h with opc := 0xf, md := BitVec.ofNat 6 (bn u 4), sat := sat, o1 := sG d, o2 := sGI a, o3 := sGI b }
  | .mul h k sat d a b =>
    some { Raw.ofHdr h with opc := 0x10, md := BitVec.ofNat 6 (k.code), sat := sat, o1 := sG d, o2 := sGI a, o3 := sGI b }
  | .div h k d a b =>
    some { Raw.ofHdr h with opc := 0x11, md := BitVec.ofNat 6 (k.code), o1 := sG d, o2 := sGI a, o3 := sGI b }
  | .and h d a b =>
    some { Raw.ofHdr h with opc := 0x12, md := BitVec.ofNat 6 (0), o1 := sG d, o2 := sGI a, o3 := sGI b }
  | .or h d a b =>
    some { Raw.ofHdr h with opc := 0x13, md := BitVec.ofNat 6 (0), o1 := sG d, o2 := sGI a, o3 := sGI b }
  | .xor h d a b =>
    some { Raw.ofHdr h with opc := 0x14, md := BitVec.ofNat 6 (0), o1 := sG d, o2 := sGI a, o3 := sGI b }
  | .shl h u sat d a b =>
    some { Raw.ofHdr h with opc := 0x15, md := BitVec.ofNat 6 (bn u 4), sat := sat, o1 := sG d, o2 := sGI a, o3 := sGI b }
  | .shr h ar d a b =>
    some { Raw.ofHdr h with opc := 0x16, md := BitVec.ofNat 6 (bn ar 1), o1 := sG d, o2 := sGI a, o3 := sGI b }
  | .min h u d a b =>
    some { Raw.ofHdr h with opc := 0x17, md := BitVec.ofNat 6 (bn u 4), o1 := sG d, o2 := sGI a, o3 := sGI b }
  | .max h u d a b =>
    some { Raw.ofHdr h with opc := 0x18, md := BitVec.ofNat 6 (bn u 4), o1 := sG d, o2 := sGI a, o3 := sGI b }
  | .cmp h cd c a b =>
    some { Raw.ofHdr h with opc := 0x19, md := BitVec.ofNat 6 (cd.code), o1 := sC c, o2 := sGI a, o3 := sGI b }
  | .sel h d c a b =>
    some { Raw.ofHdr h with opc := 0x1a, md := BitVec.ofNat 6 (0), o1 := sG d, o2 := sC c, o3 := sGI a, o4 := sGI b }
  | .mov h d a =>
    some { Raw.ofHdr h with opc := 0x1b, md := BitVec.ofNat 6 (0), o1 := sG d, o2 := sGI a }
  | .movi h k d imm =>
    some { Raw.ofHdr h with opc := 0x1c, md := BitVec.ofNat 6 (k.code), o1 := sG d, o2 := imm.extractLsb' 36 12, o3 := imm.extractLsb' 24 12, o4 := imm.extractLsb' 12 12, o5 := imm.extractLsb' 0 12 }
  | .lea h x d b x_ disp =>
    some { Raw.ofHdr h with opc := 0x1d, md := BitVec.ofNat 6 (x.val * 2), o1 := sG d, o2 := sG b, o3 := sOG x_, o4 := immHi disp, o5 := immLo disp }
  | .bfx h sx d a pos len =>
    some { Raw.ofHdr h with opc := 0x1e, md := BitVec.ofNat 6 (bn sx 1), o1 := sG d, o2 := sGI a, o3 := sGI pos, o4 := sGI len }
  | .bfi h d a pos len =>
    some { Raw.ofHdr h with opc := 0x1f, md := BitVec.ofNat 6 (0), o1 := sG d, o2 := sGI a, o3 := sGI pos, o4 := sGI len }
  | .bitc h k d a =>
    some { Raw.ofHdr h with opc := 0x20, md := BitVec.ofNat 6 (k.code), o1 := sG d, o2 := sGI a }
  | .ld h w sx x mig ch d b x_ disp =>
    some { Raw.ofHdr h with opc := 0x21, md := BitVec.ofNat 6 (w.val * 16 + bn sx 8 + x.val * 2 + bn mig 1), ch := ch.code, o1 := sG d, o2 := sG b, o3 := sOG x_, o4 := immHi disp, o5 := immLo disp }
  | .st h w x mig ch a b x_ disp =>
    some { Raw.ofHdr h with opc := 0x22, md := BitVec.ofNat 6 (w.val * 16 + x.val * 2 + bn mig 1), ch := ch.code, o1 := sGI a, o2 := sG b, o3 := sOG x_, o4 := immHi disp, o5 := immLo disp }
  | .atom h op u dw d a b n =>
    some { Raw.ofHdr h with opc := 0x23, md := BitVec.ofNat 6 (op.code * 8 + bn u 4 + 2 + bn dw 1), o1 := sG d, o2 := sG a, o3 := sGI b, o4 := sOGI n }
  | .bind h u b len o =>
    some { Raw.ofHdr h with opc := 0x24, md := BitVec.ofNat 6 (bn u 1), o1 := sG b, o2 := sGI len, o3 := sG o }
  | .acq h x d b x_ disp =>
    some { Raw.ofHdr h with opc := 0x25, md := BitVec.ofNat 6 (x.val * 2), o1 := sG d, o2 := sG b, o3 := sOG x_, o4 := immHi disp, o5 := immLo disp }
  | .rel h acc x v b x_ disp =>
    some { Raw.ofHdr h with opc := 0x26, md := BitVec.ofNat 6 (bn acc 8 + x.val * 2), o1 := sGI v, o2 := sG b, o3 := sOG x_, o4 := immHi disp, o5 := immLo disp }
  | .fence h sc =>
    some { Raw.ofHdr h with opc := 0x27, md := BitVec.ofNat 6 (sc.code) }
  | .idem h =>
    some { Raw.ofHdr h with opc := 0x28, md := BitVec.ofNat 6 (0) }
  | .mon h x b x_ disp =>
    some { Raw.ofHdr h with opc := 0x29, md := BitVec.ofNat 6 (x.val * 2), o2 := sG b, o3 := sOG x_, o4 := immHi disp, o5 := immLo disp }
  | .mwait h c a tmo =>
    some { Raw.ofHdr h with opc := 0x2a, md := BitVec.ofNat 6 (0), o1 := sC c, o2 := sG a, o3 := sGI tmo }
  | .bar h k c sense tmo =>
    some { Raw.ofHdr h with opc := 0x2b, md := BitVec.ofNat 6 (k.code), o1 := sC c, o2 := sGI sense, o3 := sGI tmo }
  | .bara h a n =>
    some { Raw.ofHdr h with opc := 0x2c, md := BitVec.ofNat 6 (0), o1 := sG a, o2 := sGI n }
  | .bwait h a ph =>
    some { Raw.ofHdr h with opc := 0x2d, md := BitVec.ofNat 6 (0), o1 := sG a, o2 := sGI ph }
  | .bwaitT h c a ph tmo =>
    some { Raw.ofHdr h with opc := 0x2d, md := BitVec.ofNat 6 (1), o1 := sC c, o2 := sG a, o3 := sGI ph, o4 := sGI tmo }
  | .qfence h mask =>
    some { Raw.ofHdr h with opc := 0x2e, md := BitVec.ofNat 6 (0), o1 := sGI mask }
  | .vwidth h w d =>
    some { Raw.ofHdr h with opc := 0x2f, md := BitVec.ofNat 6 (w.val * 16), o1 := sG d }
  | .whileP h w cd d c a lim =>
    some { Raw.ofHdr h with opc := 0x30, md := BitVec.ofNat 6 (w.val * 16 + cd.code), o1 := sP d, o2 := sC c, o3 := sGI a, o4 := sGI lim }
  | .vadd h t u f sat d a b pg =>
    some { Raw.ofHdr h with opc := 0x31, md := BitVec.ofNat 6 (t.code * 8 + bn u 1), fzi := f.fzi, fzo := f.fzo, rm := f.rm.code, sat := sat, o1 := sV d, o2 := sV a, o3 := sVB b, o4 := sP pg }
  | .vsub h t u f sat d a b pg =>
    some { Raw.ofHdr h with opc := 0x32, md := BitVec.ofNat 6 (t.code * 8 + bn u 1), fzi := f.fzi, fzo := f.fzo, rm := f.rm.code, sat := sat, o1 := sV d, o2 := sV a, o3 := sVB b, o4 := sP pg }
  | .vmul h t u hi f sat d a b pg =>
    some { Raw.ofHdr h with opc := 0x33, md := BitVec.ofNat 6 (t.code * 8 + bn hi 2 + bn u 1), fzi := f.fzi, fzo := f.fzo, rm := f.rm.code, sat := sat, o1 := sV d, o2 := sV a, o3 := sVB b, o4 := sP pg }
  | .vfma h t np nc f sat d a b c pg =>
    some { Raw.ofHdr h with opc := 0x34, md := BitVec.ofNat 6 (t.code * 8 + bn np 2 + bn nc 1), fzi := f.fzi, fzo := f.fzo, rm := f.rm.code, sat := sat, o1 := sV d, o2 := sV a, o3 := sVB b, o4 := sVB c, o5 := sP pg }
  | .vmin h t u z d a b pg =>
    some { Raw.ofHdr h with opc := 0x35, md := BitVec.ofNat 6 (t.code * 8 + bn u 1), fzi := z.fzi, fzo := z.fzo, o1 := sV d, o2 := sV a, o3 := sVB b, o4 := sP pg }
  | .vmax h t u z d a b pg =>
    some { Raw.ofHdr h with opc := 0x36, md := BitVec.ofNat 6 (t.code * 8 + bn u 1), fzi := z.fzi, fzo := z.fzo, o1 := sV d, o2 := sV a, o3 := sVB b, o4 := sP pg }
  | .vun h t k z d a pg =>
    some { Raw.ofHdr h with opc := 0x37, md := BitVec.ofNat 6 (t.code * 8 + k.code), fzi := z.fzi, fzo := z.fzo, o1 := sV d, o2 := sV a, o3 := sP pg }
  | .vcmp h t cd z d a b pg =>
    some { Raw.ofHdr h with opc := 0x38, md := BitVec.ofNat 6 (t.code * 8 + cd.rel.code), fzi := z.fzi, fzo := z.fzo, sat := cd.var, o1 := sP d, o2 := sV a, o3 := sVB b, o4 := sP pg }
  | .vsel h t d ps a b =>
    some { Raw.ofHdr h with opc := 0x39, md := BitVec.ofNat 6 (t.code * 8 + 0), o1 := sV d, o2 := sP ps, o3 := sV a, o4 := sVB b }
  | .vlog h t k d a b pg =>
    some { Raw.ofHdr h with opc := 0x3a, md := BitVec.ofNat 6 (t.code * 8 + k.code), o1 := sV d, o2 := sV a, o3 := sVB b, o4 := sP pg }
  | .vshf h t u k sat d a b pg =>
    some { Raw.ofHdr h with opc := 0x3b, md := BitVec.ofNat 6 (t.code * 8 + bn u 4 + k.code), sat := sat, o1 := sV d, o2 := sV a, o3 := sVB b, o4 := sP pg }
  | .vcvt h t s2 f sat d a part pg =>
    some { Raw.ofHdr h with opc := 0x3c, md := BitVec.ofNat 6 (t.code * 8 + s2.code), fzi := f.fzi, fzo := f.fzo, rm := f.rm.code, sat := sat, o1 := sV d, o2 := sV a, o3 := sIm part, o4 := sP pg }
  | .vqnt h fm s2 f sat d a blk cnt =>
    some { Raw.ofHdr h with opc := 0x3d, md := BitVec.ofNat 6 (fm.code * 8 + s2.code), fzi := f.fzi, fzo := f.fzo, rm := f.rm.code, sat := sat, o1 := sV d, o2 := sV a, o3 := sIm blk, o4 := sGI cnt }
  | .vdqn h t f d a blk first pg =>
    some { Raw.ofHdr h with opc := 0x3e, md := BitVec.ofNat 6 (t.code * 8 + 0), fzi := f.fzi, fzo := f.fzo, rm := f.rm.code, o1 := sV d, o2 := sV a, o3 := sIm blk, o4 := sGI first, o5 := sP pg }
  | .vsfu h t fn f d a pg =>
    some { Raw.ofHdr h with opc := 0x3f, md := BitVec.ofNat 6 (t.code * 8 + fn.code), fzi := f.fzi, fzo := f.fzo, rm := f.rm.code, o1 := sV d, o2 := sV a, o3 := sP pg }
  | .vdiv h t f d a b pg =>
    some { Raw.ofHdr h with opc := 0x40, md := BitVec.ofNat 6 (t.code * 8 + 0), fzi := f.fzi, fzo := f.fzo, rm := f.rm.code, o1 := sV d, o2 := sV a, o3 := sVB b, o4 := sP pg }
  | .vdivSqrt h t f d a pg =>
    some { Raw.ofHdr h with opc := 0x40, md := BitVec.ofNat 6 (t.code * 8 + 1), fzi := f.fzi, fzo := f.fzo, rm := f.rm.code, o1 := sV d, o2 := sV a, o3 := sP pg }
  | .vred h t op ord f d a pg =>
    some { Raw.ofHdr h with opc := 0x41, md := BitVec.ofNat 6 (t.code * 8 + op.code * 2 + bn ord 1), fzi := f.fzi, fzo := f.fzo, rm := f.rm.code, o1 := sGV d, o2 := sV a, o3 := sP pg }
  | .vperm h t d a ix pg =>
    some { Raw.ofHdr h with opc := 0x42, md := BitVec.ofNat 6 (t.code * 8 + 0), o1 := sV d, o2 := sV a, o3 := sV ix, o4 := sP pg }
  | .vpermRot h t dup d a k pg =>
    some { Raw.ofHdr h with opc := 0x42, md := BitVec.ofNat 6 (t.code * 8 + 1 + bn dup 1), o1 := sV d, o2 := sV a, o3 := sGI k, o4 := sP pg }
  | .vsplat h t d a pg =>
    some { Raw.ofHdr h with opc := 0x43, md := BitVec.ofNat 6 (t.code * 8 + 0), o1 := sV d, o2 := sLS a, o3 := sP pg }
  | .vmovsX h t d a ix =>
    some { Raw.ofHdr h with opc := 0x44, md := BitVec.ofNat 6 (t.code * 8 + 0), o1 := sXD d, o2 := sV a, o3 := sGI ix }
  | .vmovsI h t d a ix =>
    some { Raw.ofHdr h with opc := 0x44, md := BitVec.ofNat 6 (t.code * 8 + 1), o1 := sV d, o2 := sLS a, o3 := sGI ix }
  | .vld h w mig ch d b pg disp =>
    some { Raw.ofHdr h with opc := 0x45, md := BitVec.ofNat 6 (w.val * 16 + bn mig 1), ch := ch.code, o1 := sV d, o2 := sG b, o3 := sP pg, o4 := immHi disp, o5 := immLo disp }
  | .vst h w mig ch src b pg disp =>
    some { Raw.ofHdr h with opc := 0x46, md := BitVec.ofNat 6 (w.val * 16 + bn mig 1), ch := ch.code, o1 := sV src, o2 := sG b, o3 := sP pg, o4 := immHi disp, o5 := immLo disp }
  | .vgath h w x ch d b ix pg =>
    some { Raw.ofHdr h with opc := 0x47, md := BitVec.ofNat 6 (w.val * 16 + x.val * 2), ch := ch.code, o1 := sV d, o2 := sG b, o3 := sV ix, o4 := sP pg }
  | .vscat h w x ch src b ix pg =>
    some { Raw.ofHdr h with opc := 0x48, md := BitVec.ofNat 6 (w.val * 16 + x.val * 2), ch := ch.code, o1 := sV src, o2 := sG b, o3 := sV ix, o4 := sP pg }
  | .plog h t k d a b pg =>
    some { Raw.ofHdr h with opc := 0x49, md := BitVec.ofNat 6 (t.code * 8 + k.code), o1 := sP d, o2 := sP a, o3 := sP b, o4 := sP pg }
  | .plogNot h t d a pg =>
    some { Raw.ofHdr h with opc := 0x49, md := BitVec.ofNat 6 (t.code * 8 + 4), o1 := sP d, o2 := sP a, o3 := sP pg }
  | .plogCount h t first d a pg =>
    some { Raw.ofHdr h with opc := 0x49, md := BitVec.ofNat 6 (t.code * 8 + 5 + bn first 1), o1 := sG d, o2 := sP a, o3 := sP pg }
  | .plogAny h t c a pg =>
    some { Raw.ofHdr h with opc := 0x49, md := BitVec.ofNat 6 (t.code * 8 + 7), o1 := sC c, o2 := sP a, o3 := sP pg }
  | .vdot h k f sat d a b pg =>
    some { Raw.ofHdr h with opc := 0x4a, md := BitVec.ofNat 6 (k.code), fzi := f.fzi, fzo := f.fzo, rm := f.rm.code, sat := sat, o1 := sV d, o2 := sV a, o3 := sV b, o4 := sP pg }
  | .vsmul h t f sat d a c off pg =>
    some { Raw.ofHdr h with opc := 0x4b, md := BitVec.ofNat 6 (t.code * 8 + 0), fzi := f.fzi, fzo := f.fzo, rm := f.rm.code, sat := sat, o1 := sV d, o2 := sV a, o3 := sV c, o4 := sGI off, o5 := sP pg }
  | .tshape h tl v =>
    some { Raw.ofHdr h with opc := 0x4c, md := BitVec.ofNat 6 (0), o1 := sT tl, o2 := sGI v }
  | .tld h tl b st disp =>
    some { Raw.ofHdr h with opc := 0x4d, md := BitVec.ofNat 6 (0), o1 := sT tl, o2 := sG b, o3 := sOG st, o4 := immHi disp, o5 := immLo disp }
  | .tst h tl b st disp =>
    some { Raw.ofHdr h with opc := 0x4e, md := BitVec.ofNat 6 (0), o1 := sT tl, o2 := sG b, o3 := sOG st, o4 := immHi disp, o5 := immLo disp }
  | .mma h bt r64 c64 set z ac ta tb =>
    some { Raw.ofHdr h with opc := 0x4f, md := BitVec.ofNat 6 (bn bt 2 + bn r64 4 + bn c64 8 + bn set 16), fzi := z.fzi, fzo := z.fzo, o2 := sA ac, o3 := sT ta, o4 := sT tb }
  | .mmaA h bt r64 c64 set z j ac ta tb =>
    some { Raw.ofHdr h with opc := 0x4f, md := BitVec.ofNat 6 (1 + bn bt 2 + bn r64 4 + bn c64 8 + bn set 16), fzi := z.fzi, fzo := z.fzo, o1 := sG j, o2 := sA ac, o3 := sT ta, o4 := sT tb }
  | .mmag h bt c64 set z j ac ta tb l =>
    some { Raw.ofHdr h with opc := 0x50, md := BitVec.ofNat 6 (bn j.isSome 1 + bn bt 2 + bn c64 8 + bn set 16), fzi := z.fzi, fzo := z.fzo, o1 := sOG j, o2 := sA ac, o3 := sT ta, o4 := sT tb, o5 := sG l }
  | .accf h z c nf f sat j ac =>
    some { Raw.ofHdr h with opc := 0x51, md := BitVec.ofNat 6 (bn j.isSome 1 + bn z 2 + bn c 4 + bn nf 8), fzi := f.fzi, fzo := f.fzo, rm := f.rm.code, sat := sat, o1 := sOG j, o2 := sA ac }
  | .tmap h a =>
    some { Raw.ofHdr h with opc := 0x52, md := BitVec.ofNat 6 (0), o1 := sG a }
  | .tmapR h a =>
    some { Raw.ofHdr h with opc := 0x52, md := BitVec.ofNat 6 (1), o1 := sG a }
  | .copy h d2 wb ch j q dst src n =>
    some { Raw.ofHdr h with opc := 0x53, md := BitVec.ofNat 6 (bn d2 1 + bn wb 2), ch := ch.code, o1 := sG j, o2 := sQ q, o3 := sG dst, o4 := sG src, o5 := sGI n }
  | .jwait h j gt =>
    some { Raw.ofHdr h with opc := 0x54, md := BitVec.ofNat 6 (0), o1 := sGI j, o2 := sOG gt }
  | .jwaitP h c j gt =>
    some { Raw.ofHdr h with opc := 0x54, md := BitVec.ofNat 6 (1), o1 := sC c, o2 := sGI j, o3 := sOG gt }
  | .holdW h k l =>
    some { Raw.ofHdr h with opc := 0x55, md := BitVec.ofNat 6 (0), o1 := sKK k, o2 := sOG l }
  | .holdT h c k l =>
    some { Raw.ofHdr h with opc := 0x55, md := BitVec.ofNat 6 (1), o1 := sC c, o2 := sKK k, o3 := sOG l }
  | .hrel h k l =>
    some { Raw.ofHdr h with opc := 0x56, md := BitVec.ofNat 6 (0), o1 := sKK k, o2 := sOG l }
  | .seek h dir k a l disp =>
    some { Raw.ofHdr h with opc := 0x57, md := BitVec.ofNat 6 (dir.code), o1 := sKK k, o2 := sOG a, o3 := sOG l, o4 := immHi disp, o5 := immLo disp }
  | .rds h sx d k l =>
    some { Raw.ofHdr h with opc := 0x58, md := BitVec.ofNat 6 (bn sx 1), o1 := sG d, o2 := sK k, o3 := sOG l }
  | .wrs h k a l =>
    some { Raw.ofHdr h with opc := 0x59, md := BitVec.ofNat 6 (0), o1 := sK k, o2 := sGI a, o3 := sOG l }
  | .vrds h d kg l =>
    some { Raw.ofHdr h with opc := 0x5a, md := BitVec.ofNat 6 (0), o1 := sV d, o2 := sKg kg, o3 := sOG l }
  | .vwrs h kg src pg =>
    some { Raw.ofHdr h with opc := 0x5b, md := BitVec.ofNat 6 (0), o1 := sKg kg, o2 := sV src, o3 := sP pg }
  | .rwnd h e k l =>
    some { Raw.ofHdr h with opc := 0x5c, md := BitVec.ofNat 6 (bn e 1), o1 := sKK k, o2 := sOG l }
  | .hpos h d k l =>
    some { Raw.ofHdr h with opc := 0x5d, md := BitVec.ofNat 6 (0), o1 := sG d, o2 := sK k, o3 := sOG l }
  | .chain h d a =>
    some { Raw.ofHdr h with opc := 0x5e, md := BitVec.ofNat 6 (0), o1 := sG d, o2 := sG a }
  | .get h d c =>
    some { Raw.ofHdr h with opc := 0x5f, md := BitVec.ofNat 6 (0), o1 := sGV d, o2 := sC c }
  | .put h a =>
    some { Raw.ofHdr h with opc := 0x60, md := BitVec.ofNat 6 (0), o1 := sGIV a }
  | .putE h =>
    some { Raw.ofHdr h with opc := 0x60, md := BitVec.ofNat 6 (1) }
  | .chmodeQ h d id =>
    some { Raw.ofHdr h with opc := 0x61, md := BitVec.ofNat 6 (0), o1 := sG d, o2 := sOG id }
  | .chmodeOcc h d q id =>
    some { Raw.ofHdr h with opc := 0x61, md := BitVec.ofNat 6 (1), o1 := sG d, o2 := sGI q, o3 := sOG id }
  | .chmodeFold h id =>
    some { Raw.ofHdr h with opc := 0x61, md := BitVec.ofNat 6 (2), o1 := sOG id }
  | .chmodeSpread h id =>
    some { Raw.ofHdr h with opc := 0x61, md := BitVec.ofNat 6 (3), o1 := sOG id }
  | .chmodeAuto h id =>
    some { Raw.ofHdr h with opc := 0x61, md := BitVec.ofNat 6 (4), o1 := sOG id }
  | .ftile h d c =>
    some { Raw.ofHdr h with opc := 0x62, md := BitVec.ofNat 6 (0), o1 := sG d, o2 := sC c }
  | .dpush h c a b =>
    some { Raw.ofHdr h with opc := 0x63, md := BitVec.ofNat 6 (0), o1 := sC c, o2 := sGI a, o3 := sGI b }
  | .dpop h a b c =>
    some { Raw.ofHdr h with opc := 0x64, md := BitVec.ofNat 6 (0), o1 := sG a, o2 := sG b, o3 := sC c }
  | .dsteal h a b c l =>
    some { Raw.ofHdr h with opc := 0x65, md := BitVec.ofNat 6 (0), o1 := sG a, o2 := sG b, o3 := sC c, o4 := sG l }
  | .ssend h cl l p a =>
    some { Raw.ofHdr h with opc := 0x66, md := BitVec.ofNat 6 (bn cl 1), o1 := sG l, o2 := sS p, o3 := sGIV a }
  | .srecv h d c p =>
    some { Raw.ofHdr h with opc := 0x67, md := BitVec.ofNat 6 (0), o1 := sGV d, o2 := sC c, o3 := sS p }
  | .mapv h d =>
    some { Raw.ofHdr h with opc := 0x68, md := BitVec.ofNat 6 (0), o1 := sG d }
  | .mapvA h d =>
    some { Raw.ofHdr h with opc := 0x68, md := BitVec.ofNat 6 (1), o1 := sG d }
  | .mapack h w =>
    some { Raw.ofHdr h with opc := 0x69, md := BitVec.ofNat 6 (0), o1 := sG w }
  | .collAr h j dst src n mk =>
    some { Raw.ofHdr h with opc := 0x6a, md := BitVec.ofNat 6 (0), o1 := sG j, o2 := sG dst, o3 := sG src, o4 := sG n, o5 := sG mk }
  | .collBc h j dst src n mk =>
    some { Raw.ofHdr h with opc := 0x6a, md := BitVec.ofNat 6 (1), o1 := sG j, o2 := sG dst, o3 := sG src, o4 := sG n, o5 := sG mk }
  | .collAg h j dst src n mk =>
    some { Raw.ofHdr h with opc := 0x6a, md := BitVec.ofNat 6 (2), o1 := sG j, o2 := sG dst, o3 := sG src, o4 := sG n, o5 := sG mk }
  | .tlbiCtx h c =>
    some { Raw.ofHdr h with opc := 0x6b, md := BitVec.ofNat 6 (0), o2 := sG c }
  | .tlbiPg h c v =>
    some { Raw.ofHdr h with opc := 0x6b, md := BitVec.ofNat 6 (1), o2 := sG c, o3 := sG v }
  | .tlbiRng h c v n =>
    some { Raw.ofHdr h with opc := 0x6b, md := BitVec.ofNat 6 (2), o2 := sG c, o3 := sG v, o4 := sG n }
  | .tlbiAll h =>
    some { Raw.ofHdr h with opc := 0x6b, md := BitVec.ofNat 6 (3) }
  | .kill h f d c =>
    some { Raw.ofHdr h with opc := 0x6c, md := BitVec.ofNat 6 (bn f 1), o1 := sG d, o2 := sG c }
  | .ctxSave h d c l =>
    some { Raw.ofHdr h with opc := 0x6d, md := BitVec.ofNat 6 (0), o1 := sG d, o2 := sG c, o3 := sG l }
  | .ctxLoad h d c l =>
    some { Raw.ofHdr h with opc := 0x6d, md := BitVec.ofNat 6 (1), o1 := sG d, o2 := sG c, o3 := sG l }
  | .ctxMig h d c l p =>
    some { Raw.ofHdr h with opc := 0x6d, md := BitVec.ofNat 6 (2), o1 := sG d, o2 := sG c, o3 := sG l, o4 := sG p }
  | .ctxRd h d c ix =>
    some { Raw.ofHdr h with opc := 0x6d, md := BitVec.ofNat 6 (3), o1 := sG d, o2 := sG c, o3 := sG ix }
  | .ctxWr h c v ix =>
    some { Raw.ofHdr h with opc := 0x6d, md := BitVec.ofNat 6 (4), o2 := sG c, o3 := sG v, o4 := sG ix }
  | .ctxRes h c =>
    some { Raw.ofHdr h with opc := 0x6d, md := BitVec.ofNat 6 (5), o2 := sG c }
  | .ctxTv h a =>
    some { Raw.ofHdr h with opc := 0x6d, md := BitVec.ofNat 6 (6), o2 := sG a }
  | .ctxSlot h d a =>
    some { Raw.ofHdr h with opc := 0x6d, md := BitVec.ofNat 6 (7), o1 := sG d, o2 := sG a }
  | .pgrefQ h d c v =>
    some { Raw.ofHdr h with opc := 0x6e, md := BitVec.ofNat 6 (0), o1 := sG d, o2 := sG c, o3 := sG v }
  | .pgrefRm h d c v e =>
    some { Raw.ofHdr h with opc := 0x6e, md := BitVec.ofNat 6 (1), o1 := sG d, o2 := sG c, o3 := sG v, o4 := sG e }
  | .pgrefSh h d c v sv n =>
    some { Raw.ofHdr h with opc := 0x6e, md := BitVec.ofNat 6 (2), o1 := sG d, o2 := sG c, o3 := sG v, o4 := sG sv, o5 := sGI n }
  | .pgrefDr h d c v =>
    some { Raw.ofHdr h with opc := 0x6e, md := BitVec.ofNat 6 (3), o1 := sG d, o2 := sG c, o3 := sG v }
  | .pgrefAdj h d c v delta =>
    some { Raw.ofHdr h with opc := 0x6e, md := BitVec.ofNat 6 (4), o1 := sG d, o2 := sG c, o3 := sG v, o4 := sGI delta }
  | .pgrefWk h c v =>
    some { Raw.ofHdr h with opc := 0x6e, md := BitVec.ofNat 6 (5), o2 := sG c, o3 := sG v }
  | .pgrefClr h d p =>
    some { Raw.ofHdr h with opc := 0x6e, md := BitVec.ofNat 6 (6), o1 := sG d, o2 := sG p }
  | .mgmtLog h c a =>
    some { Raw.ofHdr h with opc := 0x6f, md := BitVec.ofNat 6 (0), o1 := sG c, o2 := sG a }
  | .mgmtTmr h tm =>
    some { Raw.ofHdr h with opc := 0x6f, md := BitVec.ofNat 6 (1), o1 := sG tm }
  | .mgmtRetire h d k r =>
    some { Raw.ofHdr h with opc := 0x6f, md := BitVec.ofNat 6 (2), o1 := sG d, o2 := sG k, o3 := sG r }
  | .mgmtFwsel h b =>
    some { Raw.ofHdr h with opc := 0x6f, md := BitVec.ofNat 6 (3), o1 := sG b }
  | .mgmtFwcommit h =>
    some { Raw.ofHdr h with opc := 0x6f, md := BitVec.ofNat 6 (4) }
  | .mgmtQuote h d n =>
    some { Raw.ofHdr h with opc := 0x6f, md := BitVec.ofNat 6 (5), o1 := sG d, o2 := sG n }
  | .mapevtTake _ => none
  | .interruptTake _ => none
  | .resultReturn _ _ => none
  | .remoteRequest _ _ => none
  | .fetchRefetch _ => none
  | .messageDrop _ _ _ => none
  | .messageStaleDrop _ _ _ => none
  | .spawnRequest _ _ => none
  | .migrantArrive _ => none
  | .migrantRetry _ => none
  | .migrantAccepted _ => none
  | .inboxAdmit _ => none
  | .storeDrain _ _ => none
  | .hostWrite _ => none
  | .hostRead _ => none
  | .monitorNotice _ _ => none
  | .waitTimeout _ _ _ => none
  | .barRelease _ _ => none
  | .barrierArrival _ _ _ => none
  | .linkValueArrive _ _ _ _ => none
  | .jobStart _ => none
  | .jobComplete _ _ _ => none
  | .jobFault _ _ => none
  | .tileLoadComplete _ _ => none
  | .tileStoreComplete _ _ => none
  | .collectiveStart _ => none
  | .leaseGrant _ => none
  | .seekComplete _ => none
  | .headSettle _ => none
  | .cursorStep _ => none
  | .itemArrive _ _ _ _ => none
  | .putAccept _ _ _ => none
  | .chainFold _ _ => none
  | .chainSpread _ _ => none
  | .autoSpreadRequest _ _ => none
  | .chainComplete _ _ => none
  | .streamWordArrive _ _ _ => none
  | .streamRouteAdmit _ _ => none
  | .tlbWalk _ => none
  | .prefetch _ _ => none
  | .taskStart _ => none
  | .doorbell _ _ => none
  | .queueEnable _ => none
  | .queueDrain _ => none
  | .queueAbort _ => none
  | .registerWrite _ _ => none
  | .packetTake _ => none
  | .launchStart _ => none
  | .launchComplete _ => none
  | .retirementMove _ _ => none
  | .sliceFlush _ => none
  | .mapPublish _ _ _ _ _ _ => none
  | .resourceLoss _ _ _ => none
  | .graceExpiry _ => none
  | .rehashReply _ _ => none
  | .preempt _ _ => none
  | .liveMigration _ _ _ => none
  | .contextSave _ _ => none
  | .saveResume _ _ => none
  | .contextResume _ _ => none
  | .bermForward _ _ _ => none
  | .bermExpire _ _ _ => none
  | .sluiceArrive _ _ => none
  | .sluiceDiscardEnd _ _ => none
  | .killConfirm _ => none
  | .uncorrectableConsumed _ _ _ => none
  | .slotScrubComplete _ => none
  | .gangBoundary _ => none
  | .gangReport _ _ => none
  | .gangStart _ => none
  | .gangGraceExpiry _ => none
  | .sensorSample _ => none
  | .alarmExpiry => none
  | .thrlWrite _ => none
  | .timerSync _ => none
  | .domainForm _ _ => none
  | .linkChange _ _ _ _ => none
  | .boot => none
  | .meshLinkChange _ _ => none
  | .clockStep _ _ => none
  | .capacityWithdrawal _ _ => none

/-- NOP. -/
def decNop (raw : Raw) : Option Instr := do
  let m := raw.md.toNat
  need (m == 0)
  need (!raw.fzi && !raw.fzo)
  need (raw.rm == 0)
  need (!raw.sat)
  need (raw.ch == 0)
  need (raw.o1 == absent)
  need (raw.o2 == absent)
  need (raw.o3 == absent)
  need (raw.o4 == absent)
  need (raw.o5 == absent)
  pure (.nop raw.hdr)

/-- BR. -/
def decBr (raw : Raw) : Option Instr := do
  let m := raw.md.toNat
  need (m == 0)
  need (!raw.fzi && !raw.fzo)
  need (raw.rm == 0)
  need (!raw.sat)
  need (raw.ch == 0)
  need (raw.o1 == absent)
  need (raw.o2 == absent)
  need (raw.o3 == absent)
  let d := imm24 raw
  pure (.br raw.hdr d)

/-- BRI. -/
def decBri (raw : Raw) : Option Instr := do
  let m := raw.md.toNat
  need (m == 0)
  need (!raw.fzi && !raw.fzo)
  need (raw.rm == 0)
  need (!raw.sat)
  need (raw.ch == 0)
  let r ← dG raw.o1
  need (raw.o2 == absent)
  need (raw.o3 == absent)
  need (raw.o4 == absent)
  need (raw.o5 == absent)
  pure (.bri raw.hdr r)

/-- CALL. -/
def decCall (raw : Raw) : Option Instr := do
  let m := raw.md.toNat
  need (m == 0)
  need (!raw.fzi && !raw.fzo)
  need (raw.rm == 0)
  need (!raw.sat)
  need (raw.ch == 0)
  need (raw.o1 == absent)
  need (raw.o2 == absent)
  need (raw.o3 == absent)
  let d := imm24 raw
  pure (.call raw.hdr d)

/-- RET. -/
def decRet (raw : Raw) : Option Instr := do
  let m := raw.md.toNat
  need (m == 0)
  need (!raw.fzi && !raw.fzo)
  need (raw.rm == 0)
  need (!raw.sat)
  need (raw.ch == 0)
  let r ← dG raw.o1
  need (raw.o2 == absent)
  need (raw.o3 == absent)
  need (raw.o4 == absent)
  need (raw.o5 == absent)
  pure (.ret raw.hdr r)

/-- LOOP. -/
def decLoop (raw : Raw) : Option Instr := do
  let m := raw.md.toNat
  need (m == 0)
  need (!raw.fzi && !raw.fzo)
  need (raw.rm == 0)
  need (!raw.sat)
  need (raw.ch == 0)
  let n ← dG raw.o1
  need (raw.o2 == absent)
  need (raw.o3 == absent)
  let d := imm24 raw
  pure (.loop raw.hdr n d)

/-- QUIT. -/
def decQuit (raw : Raw) : Option Instr := do
  let m := raw.md.toNat
  need (m == 0)
  need (!raw.fzi && !raw.fzo)
  need (raw.rm == 0)
  need (!raw.sat)
  need (raw.ch == 0)
  need (raw.o1 == absent)
  need (raw.o2 == absent)
  need (raw.o3 == absent)
  need (raw.o4 == absent)
  need (raw.o5 == absent)
  pure (.quit raw.hdr)

/-- SPAWN. -/
def decSpawn (raw : Raw) : Option Instr := do
  let m := raw.md.toNat
  need (m == 0)
  need (!raw.fzi && !raw.fzo)
  need (raw.rm == 0)
  need (!raw.sat)
  need (raw.ch == 0)
  let l ← dG raw.o1
  let c ← dC raw.o2
  need (raw.o3 == absent)
  let d := imm24 raw
  pure (.spawn raw.hdr l c d)

/-- MIGR. -/
def decMigr (raw : Raw) : Option Instr := do
  let m := raw.md.toNat
  need (m == 0)
  need (!raw.fzi && !raw.fzo)
  need (raw.rm == 0)
  need (!raw.sat)
  need (raw.ch == 0)
  let l ← dG raw.o1
  need (raw.o2 == absent)
  need (raw.o3 == absent)
  need (raw.o4 == absent)
  need (raw.o5 == absent)
  pure (.migr raw.hdr l)

/-- PARK. -/
def decPark (raw : Raw) : Option Instr := do
  let m := raw.md.toNat
  need (m == 0)
  need (!raw.fzi && !raw.fzo)
  need (raw.rm == 0)
  need (!raw.sat)
  need (raw.ch == 0)
  let d ← dG raw.o1
  let tmo ← dGI raw.o2
  need (raw.o3 == absent)
  need (raw.o4 == absent)
  need (raw.o5 == absent)
  pure (.park raw.hdr d tmo)

/-- TRAP. -/
def decTrap (raw : Raw) : Option Instr := do
  let m := raw.md.toNat
  need (m == 0)
  need (!raw.fzi && !raw.fzo)
  need (raw.rm == 0)
  need (!raw.sat)
  need (raw.ch == 0)
  need (raw.o1 == absent)
  need (raw.o2 == absent)
  need (raw.o3 == absent)
  let code := imm24 raw
  pure (.trap raw.hdr code)

/-- TRET. -/
def decTret (raw : Raw) : Option Instr := do
  let m := raw.md.toNat
  need (m == 0)
  need (!raw.fzi && !raw.fzo)
  need (raw.rm == 0)
  need (!raw.sat)
  need (raw.ch == 0)
  need (raw.o1 == absent)
  need (raw.o2 == absent)
  need (raw.o3 == absent)
  need (raw.o4 == absent)
  need (raw.o5 == absent)
  pure (.tret raw.hdr)

/-- SYSR. -/
def decSysr (raw : Raw) : Option Instr := do
  let m := raw.md.toNat
  need (m == 0)
  need (!raw.fzi && !raw.fzo)
  need (raw.rm == 0)
  need (!raw.sat)
  need (raw.ch == 0)
  let d ← dG raw.o1
  need (raw.o2 == absent)
  need (raw.o3 == absent)
  let n := imm24 raw
  need (sysReadable n.toNat)
  pure (.sysr raw.hdr d n)

/-- SYSW. -/
def decSysw (raw : Raw) : Option Instr := do
  let m := raw.md.toNat
  need (m == 0)
  need (!raw.fzi && !raw.fzo)
  need (raw.rm == 0)
  need (!raw.sat)
  need (raw.ch == 0)
  let r ← dG raw.o1
  need (raw.o2 == absent)
  need (raw.o3 == absent)
  let n := imm24 raw
  need (sysWritable n.toNat)
  pure (.sysw raw.hdr r n)

/-- ADD. -/
def decAdd (raw : Raw) : Option Instr := do
  let m := raw.md.toNat
  let u ← bitOf m 4
  need (!raw.fzi && !raw.fzo)
  need (raw.rm == 0)
  need (raw.ch == 0)
  let sat := raw.sat
  let d ← dG raw.o1
  let a ← dGI raw.o2
  let b ← dGI raw.o3
  need (raw.o4 == absent)
  need (raw.o5 == absent)
  pure (.add raw.hdr u sat d a b)

/-- SUB. -/
def decSub (raw : Raw) : Option Instr := do
  let m := raw.md.toNat
  let u ← bitOf m 4
  need (!raw.fzi && !raw.fzo)
  need (raw.rm == 0)
  need (raw.ch == 0)
  let sat := raw.sat
  let d ← dG raw.o1
  let a ← dGI raw.o2
  let b ← dGI raw.o3
  need (raw.o4 == absent)
  need (raw.o5 == absent)
  pure (.sub raw.hdr u sat d a b)

/-- MUL. -/
def decMul (raw : Raw) : Option Instr := do
  let m := raw.md.toNat
  let k ← enumOf (MulK.ofCode m)
  need (!raw.fzi && !raw.fzo)
  need (raw.rm == 0)
  need (raw.ch == 0)
  let sat := raw.sat
  let d ← dG raw.o1
  let a ← dGI raw.o2
  let b ← dGI raw.o3
  need (raw.o4 == absent)
  need (raw.o5 == absent)
  need ((!sat || k == .lo || k == .lou))
  pure (.mul raw.hdr k sat d a b)

/-- DIV. -/
def decDiv (raw : Raw) : Option Instr := do
  let m := raw.md.toNat
  let k ← enumOf (DivK.ofCode m)
  need (!raw.fzi && !raw.fzo)
  need (raw.rm == 0)
  need (!raw.sat)
  need (raw.ch == 0)
  let d ← dG raw.o1
  let a ← dGI raw.o2
  let b ← dGI raw.o3
  need (raw.o4 == absent)
  need (raw.o5 == absent)
  pure (.div raw.hdr k d a b)

/-- AND. -/
def decAnd (raw : Raw) : Option Instr := do
  let m := raw.md.toNat
  need (m == 0)
  need (!raw.fzi && !raw.fzo)
  need (raw.rm == 0)
  need (!raw.sat)
  need (raw.ch == 0)
  let d ← dG raw.o1
  let a ← dGI raw.o2
  let b ← dGI raw.o3
  need (raw.o4 == absent)
  need (raw.o5 == absent)
  pure (.and raw.hdr d a b)

/-- OR. -/
def decOr (raw : Raw) : Option Instr := do
  let m := raw.md.toNat
  need (m == 0)
  need (!raw.fzi && !raw.fzo)
  need (raw.rm == 0)
  need (!raw.sat)
  need (raw.ch == 0)
  let d ← dG raw.o1
  let a ← dGI raw.o2
  let b ← dGI raw.o3
  need (raw.o4 == absent)
  need (raw.o5 == absent)
  pure (.or raw.hdr d a b)

/-- XOR. -/
def decXor (raw : Raw) : Option Instr := do
  let m := raw.md.toNat
  need (m == 0)
  need (!raw.fzi && !raw.fzo)
  need (raw.rm == 0)
  need (!raw.sat)
  need (raw.ch == 0)
  let d ← dG raw.o1
  let a ← dGI raw.o2
  let b ← dGI raw.o3
  need (raw.o4 == absent)
  need (raw.o5 == absent)
  pure (.xor raw.hdr d a b)

/-- SHL. -/
def decShl (raw : Raw) : Option Instr := do
  let m := raw.md.toNat
  let u ← bitOf m 4
  need (!raw.fzi && !raw.fzo)
  need (raw.rm == 0)
  need (raw.ch == 0)
  let sat := raw.sat
  let d ← dG raw.o1
  let a ← dGI raw.o2
  let b ← dGI raw.o3
  need (raw.o4 == absent)
  need (raw.o5 == absent)
  pure (.shl raw.hdr u sat d a b)

/-- SHR. -/
def decShr (raw : Raw) : Option Instr := do
  let m := raw.md.toNat
  let ar ← bitOf m 1
  need (!raw.fzi && !raw.fzo)
  need (raw.rm == 0)
  need (!raw.sat)
  need (raw.ch == 0)
  let d ← dG raw.o1
  let a ← dGI raw.o2
  let b ← dGI raw.o3
  need (raw.o4 == absent)
  need (raw.o5 == absent)
  pure (.shr raw.hdr ar d a b)

/-- MIN. -/
def decMin (raw : Raw) : Option Instr := do
  let m := raw.md.toNat
  let u ← bitOf m 4
  need (!raw.fzi && !raw.fzo)
  need (raw.rm == 0)
  need (!raw.sat)
  need (raw.ch == 0)
  let d ← dG raw.o1
  let a ← dGI raw.o2
  let b ← dGI raw.o3
  need (raw.o4 == absent)
  need (raw.o5 == absent)
  pure (.min raw.hdr u d a b)

/-- MAX. -/
def decMax (raw : Raw) : Option Instr := do
  let m := raw.md.toNat
  let u ← bitOf m 4
  need (!raw.fzi && !raw.fzo)
  need (raw.rm == 0)
  need (!raw.sat)
  need (raw.ch == 0)
  let d ← dG raw.o1
  let a ← dGI raw.o2
  let b ← dGI raw.o3
  need (raw.o4 == absent)
  need (raw.o5 == absent)
  pure (.max raw.hdr u d a b)

/-- CMP. -/
def decCmp (raw : Raw) : Option Instr := do
  let m := raw.md.toNat
  let cd ← enumOf (Cond.ofCode m)
  need (!raw.fzi && !raw.fzo)
  need (raw.rm == 0)
  need (!raw.sat)
  need (raw.ch == 0)
  let c ← dC raw.o1
  let a ← dGI raw.o2
  let b ← dGI raw.o3
  need (raw.o4 == absent)
  need (raw.o5 == absent)
  need (cd.okInt)
  pure (.cmp raw.hdr cd c a b)

/-- SEL. -/
def decSel (raw : Raw) : Option Instr := do
  let m := raw.md.toNat
  need (m == 0)
  need (!raw.fzi && !raw.fzo)
  need (raw.rm == 0)
  need (!raw.sat)
  need (raw.ch == 0)
  let d ← dG raw.o1
  let c ← dC raw.o2
  let a ← dGI raw.o3
  let b ← dGI raw.o4
  need (raw.o5 == absent)
  pure (.sel raw.hdr d c a b)

/-- MOV. -/
def decMov (raw : Raw) : Option Instr := do
  let m := raw.md.toNat
  need (m == 0)
  need (!raw.fzi && !raw.fzo)
  need (raw.rm == 0)
  need (!raw.sat)
  need (raw.ch == 0)
  let d ← dG raw.o1
  let a ← dGI raw.o2
  need (raw.o3 == absent)
  need (raw.o4 == absent)
  need (raw.o5 == absent)
  pure (.mov raw.hdr d a)

/-- MOVI. -/
def decMovi (raw : Raw) : Option Instr := do
  let m := raw.md.toNat
  let k ← enumOf (MoviK.ofCode m)
  need (!raw.fzi && !raw.fzo)
  need (raw.rm == 0)
  need (!raw.sat)
  need (raw.ch == 0)
  let d ← dG raw.o1
  let imm := imm48 raw
  pure (.movi raw.hdr k d imm)

/-- LEA. -/
def decLea (raw : Raw) : Option Instr := do
  let m := raw.md.toNat
  let x ← scaleOf m
  need (!raw.fzi && !raw.fzo)
  need (raw.rm == 0)
  need (!raw.sat)
  need (raw.ch == 0)
  let d ← dG raw.o1
  let b ← dG raw.o2
  let x_ ← dOG raw.o3
  let disp := imm24 raw
  pure (.lea raw.hdr x d b x_ disp)

/-- BFX. -/
def decBfx (raw : Raw) : Option Instr := do
  let m := raw.md.toNat
  let sx ← bitOf m 1
  need (!raw.fzi && !raw.fzo)
  need (raw.rm == 0)
  need (!raw.sat)
  need (raw.ch == 0)
  let d ← dG raw.o1
  let a ← dGI raw.o2
  let pos ← dGI raw.o3
  let len ← dGI raw.o4
  need (raw.o5 == absent)
  pure (.bfx raw.hdr sx d a pos len)

/-- BFI. -/
def decBfi (raw : Raw) : Option Instr := do
  let m := raw.md.toNat
  need (m == 0)
  need (!raw.fzi && !raw.fzo)
  need (raw.rm == 0)
  need (!raw.sat)
  need (raw.ch == 0)
  let d ← dG raw.o1
  let a ← dGI raw.o2
  let pos ← dGI raw.o3
  let len ← dGI raw.o4
  need (raw.o5 == absent)
  pure (.bfi raw.hdr d a pos len)

/-- BITC. -/
def decBitc (raw : Raw) : Option Instr := do
  let m := raw.md.toNat
  let k ← enumOf (BitcK.ofCode m)
  need (!raw.fzi && !raw.fzo)
  need (raw.rm == 0)
  need (!raw.sat)
  need (raw.ch == 0)
  let d ← dG raw.o1
  let a ← dGI raw.o2
  need (raw.o3 == absent)
  need (raw.o4 == absent)
  need (raw.o5 == absent)
  pure (.bitc raw.hdr k d a)

/-- LD. -/
def decLd (raw : Raw) : Option Instr := do
  let m := raw.md.toNat
  let (w, sx, x, mig) := memMod m
  need (!raw.fzi && !raw.fzo)
  need (raw.rm == 0)
  need (!raw.sat)
  let ch := CH.ofCode raw.ch
  let d ← dG raw.o1
  let b ← dG raw.o2
  let x_ ← dOG raw.o3
  let disp := imm24 raw
  need (!(sx && w == 3))
  pure (.ld raw.hdr w sx x mig ch d b x_ disp)

/-- ST. -/
def decSt (raw : Raw) : Option Instr := do
  let m := raw.md.toNat
  let (w, sx, x, mig) := memMod m
  need (!sx)
  need (!raw.fzi && !raw.fzo)
  need (raw.rm == 0)
  need (!raw.sat)
  let ch := CH.ofCode raw.ch
  let a ← dGI raw.o1
  let b ← dG raw.o2
  let x_ ← dOG raw.o3
  let disp := imm24 raw
  pure (.st raw.hdr w x mig ch a b x_ disp)

/-- ATOM. -/
def decAtom (raw : Raw) : Option Instr := do
  let m := raw.md.toNat
  let op ← enumOf (AtomOp.ofCode (m / 8))
  let u := m / 4 % 2 == 1
  need (m / 2 % 2 == 1)
  let dw := m % 2 == 1
  need (!raw.fzi && !raw.fzo)
  need (raw.rm == 0)
  need (!raw.sat)
  need (raw.ch == 0)
  let d ← dG raw.o1
  let a ← dG raw.o2
  let b ← dGI raw.o3
  let n ← dOGI raw.o4
  need (raw.o5 == absent)
  need (((op == .cas) == n.isSome) && (!u || op == .min || op == .max))
  pure (.atom raw.hdr op u dw d a b n)

/-- BIND. -/
def decBind (raw : Raw) : Option Instr := do
  let m := raw.md.toNat
  let u ← bitOf m 1
  need (!raw.fzi && !raw.fzo)
  need (raw.rm == 0)
  need (!raw.sat)
  need (raw.ch == 0)
  let b ← dG raw.o1
  let len ← dGI raw.o2
  let o ← dG raw.o3
  need (raw.o4 == absent)
  need (raw.o5 == absent)
  pure (.bind raw.hdr u b len o)

/-- ACQ. -/
def decAcq (raw : Raw) : Option Instr := do
  let m := raw.md.toNat
  let x ← scaleOf m
  need (!raw.fzi && !raw.fzo)
  need (raw.rm == 0)
  need (!raw.sat)
  need (raw.ch == 0)
  let d ← dG raw.o1
  let b ← dG raw.o2
  let x_ ← dOG raw.o3
  let disp := imm24 raw
  pure (.acq raw.hdr x d b x_ disp)

/-- REL. -/
def decRel (raw : Raw) : Option Instr := do
  let m := raw.md.toNat
  let acc := m / 8 % 2 == 1
  let x ← scaleOf (m - bn acc 8)
  need (!raw.fzi && !raw.fzo)
  need (raw.rm == 0)
  need (!raw.sat)
  need (raw.ch == 0)
  let v ← dGI raw.o1
  let b ← dG raw.o2
  let x_ ← dOG raw.o3
  let disp := imm24 raw
  pure (.rel raw.hdr acc x v b x_ disp)

/-- FENCE. -/
def decFence (raw : Raw) : Option Instr := do
  let m := raw.md.toNat
  let sc ← enumOf (Scope.ofCode m)
  need (!raw.fzi && !raw.fzo)
  need (raw.rm == 0)
  need (!raw.sat)
  need (raw.ch == 0)
  need (raw.o1 == absent)
  need (raw.o2 == absent)
  need (raw.o3 == absent)
  need (raw.o4 == absent)
  need (raw.o5 == absent)
  pure (.fence raw.hdr sc)

/-- IDEM. -/
def decIdem (raw : Raw) : Option Instr := do
  let m := raw.md.toNat
  need (m == 0)
  need (!raw.fzi && !raw.fzo)
  need (raw.rm == 0)
  need (!raw.sat)
  need (raw.ch == 0)
  need (raw.o1 == absent)
  need (raw.o2 == absent)
  need (raw.o3 == absent)
  need (raw.o4 == absent)
  need (raw.o5 == absent)
  pure (.idem raw.hdr)

/-- MON. -/
def decMon (raw : Raw) : Option Instr := do
  let m := raw.md.toNat
  let x ← scaleOf m
  need (!raw.fzi && !raw.fzo)
  need (raw.rm == 0)
  need (!raw.sat)
  need (raw.ch == 0)
  need (raw.o1 == absent)
  let b ← dG raw.o2
  let x_ ← dOG raw.o3
  let disp := imm24 raw
  pure (.mon raw.hdr x b x_ disp)

/-- MWAIT. -/
def decMwait (raw : Raw) : Option Instr := do
  let m := raw.md.toNat
  need (m == 0)
  need (!raw.fzi && !raw.fzo)
  need (raw.rm == 0)
  need (!raw.sat)
  need (raw.ch == 0)
  let c ← dC raw.o1
  let a ← dG raw.o2
  let tmo ← dGI raw.o3
  need (raw.o4 == absent)
  need (raw.o5 == absent)
  pure (.mwait raw.hdr c a tmo)

/-- BAR. -/
def decBar (raw : Raw) : Option Instr := do
  let m := raw.md.toNat
  let k ← enumOf (BarK.ofCode m)
  need (!raw.fzi && !raw.fzo)
  need (raw.rm == 0)
  need (!raw.sat)
  need (raw.ch == 0)
  let c ← dC raw.o1
  let sense ← dGI raw.o2
  let tmo ← dGI raw.o3
  need (raw.o4 == absent)
  need (raw.o5 == absent)
  pure (.bar raw.hdr k c sense tmo)

/-- BARA. -/
def decBara (raw : Raw) : Option Instr := do
  let m := raw.md.toNat
  need (m == 0)
  need (!raw.fzi && !raw.fzo)
  need (raw.rm == 0)
  need (!raw.sat)
  need (raw.ch == 0)
  let a ← dG raw.o1
  let n ← dGI raw.o2
  need (raw.o3 == absent)
  need (raw.o4 == absent)
  need (raw.o5 == absent)
  pure (.bara raw.hdr a n)

/-- BWAIT. -/
def decBwait (raw : Raw) : Option Instr := do
  let m := raw.md.toNat
  need (m == 0)
  need (!raw.fzi && !raw.fzo)
  need (raw.rm == 0)
  need (!raw.sat)
  need (raw.ch == 0)
  let a ← dG raw.o1
  let ph ← dGI raw.o2
  need (raw.o3 == absent)
  need (raw.o4 == absent)
  need (raw.o5 == absent)
  pure (.bwait raw.hdr a ph)

/-- BWAIT_T. -/
def decBwaitT (raw : Raw) : Option Instr := do
  let m := raw.md.toNat
  need (m == 1)
  need (!raw.fzi && !raw.fzo)
  need (raw.rm == 0)
  need (!raw.sat)
  need (raw.ch == 0)
  let c ← dC raw.o1
  let a ← dG raw.o2
  let ph ← dGI raw.o3
  let tmo ← dGI raw.o4
  need (raw.o5 == absent)
  pure (.bwaitT raw.hdr c a ph tmo)

/-- QFENCE. -/
def decQfence (raw : Raw) : Option Instr := do
  let m := raw.md.toNat
  need (m == 0)
  need (!raw.fzi && !raw.fzo)
  need (raw.rm == 0)
  need (!raw.sat)
  need (raw.ch == 0)
  let mask ← dGI raw.o1
  need (raw.o2 == absent)
  need (raw.o3 == absent)
  need (raw.o4 == absent)
  need (raw.o5 == absent)
  pure (.qfence raw.hdr mask)

/-- VWIDTH. -/
def decVwidth (raw : Raw) : Option Instr := do
  let m := raw.md.toNat
  need (m % 16 == 0)
  let w := w4 (m / 16)
  need (!raw.fzi && !raw.fzo)
  need (raw.rm == 0)
  need (!raw.sat)
  need (raw.ch == 0)
  let d ← dG raw.o1
  need (raw.o2 == absent)
  need (raw.o3 == absent)
  need (raw.o4 == absent)
  need (raw.o5 == absent)
  pure (.vwidth raw.hdr w d)

/-- WHILE. -/
def decWhileP (raw : Raw) : Option Instr := do
  let m := raw.md.toNat
  let w := w4 (m / 16)
  let cd ← enumOf (Cond.ofCode (m % 16))
  need (!raw.fzi && !raw.fzo)
  need (raw.rm == 0)
  need (!raw.sat)
  need (raw.ch == 0)
  let d ← dP raw.o1
  let c ← dC raw.o2
  let a ← dGI raw.o3
  let lim ← dGI raw.o4
  need (raw.o5 == absent)
  need (w.val ≤ 2 && (cd.rel == .lt || cd.rel == .le))
  pure (.whileP raw.hdr w cd d c a lim)

/-- VADD. -/
def decVadd (raw : Raw) : Option Instr := do
  let m := raw.md.toNat
  let t ← enumOf (VTy.ofCode (m / 8))
  let u ← bitOf (m % 8) 1
  need (raw.ch == 0)
  let f : Fp := ⟨raw.fzi, raw.fzo, RM.ofCode raw.rm⟩
  let sat := raw.sat
  let d ← dV raw.o1
  let a ← dV raw.o2
  let b ← dVB raw.o3
  let pg ← dP raw.o4
  need (raw.o5 == absent)
  need ((!t.isFloat || !u) && (t.isFloat || f.zero))
  pure (.vadd raw.hdr t u f sat d a b pg)

/-- VSUB. -/
def decVsub (raw : Raw) : Option Instr := do
  let m := raw.md.toNat
  let t ← enumOf (VTy.ofCode (m / 8))
  let u ← bitOf (m % 8) 1
  need (raw.ch == 0)
  let f : Fp := ⟨raw.fzi, raw.fzo, RM.ofCode raw.rm⟩
  let sat := raw.sat
  let d ← dV raw.o1
  let a ← dV raw.o2
  let b ← dVB raw.o3
  let pg ← dP raw.o4
  need (raw.o5 == absent)
  need ((!t.isFloat || !u) && (t.isFloat || f.zero))
  pure (.vsub raw.hdr t u f sat d a b pg)

/-- VMUL. -/
def decVmul (raw : Raw) : Option Instr := do
  let m := raw.md.toNat
  let t ← enumOf (VTy.ofCode (m / 8))
  need (m / 4 % 2 == 0)
  let hi := m / 2 % 2 == 1
  let u := m % 2 == 1
  need (raw.ch == 0)
  let f : Fp := ⟨raw.fzi, raw.fzo, RM.ofCode raw.rm⟩
  let sat := raw.sat
  let d ← dV raw.o1
  let a ← dV raw.o2
  let b ← dVB raw.o3
  let pg ← dP raw.o4
  need (raw.o5 == absent)
  need ((!t.isFloat || !u) && (t.isFloat || f.zero) && !(hi && (t.isFloat || sat)))
  pure (.vmul raw.hdr t u hi f sat d a b pg)

/-- VFMA. -/
def decVfma (raw : Raw) : Option Instr := do
  let m := raw.md.toNat
  let t ← enumOf (VTy.ofCode (m / 8))
  need (m / 4 % 2 == 0)
  let np := m / 2 % 2 == 1
  let nc := m % 2 == 1
  need (raw.ch == 0)
  let f : Fp := ⟨raw.fzi, raw.fzo, RM.ofCode raw.rm⟩
  let sat := raw.sat
  let d ← dV raw.o1
  let a ← dV raw.o2
  let b ← dVB raw.o3
  let c ← dVB raw.o4
  let pg ← dP raw.o5
  need ((t.isFloat || f.zero))
  pure (.vfma raw.hdr t np nc f sat d a b c pg)

/-- VMIN. -/
def decVmin (raw : Raw) : Option Instr := do
  let m := raw.md.toNat
  let t ← enumOf (VTy.ofCode (m / 8))
  let u ← bitOf (m % 8) 1
  need (raw.rm == 0)
  need (!raw.sat)
  need (raw.ch == 0)
  let z : Fz := ⟨raw.fzi, raw.fzo⟩
  let d ← dV raw.o1
  let a ← dV raw.o2
  let b ← dVB raw.o3
  let pg ← dP raw.o4
  need (raw.o5 == absent)
  need ((!t.isFloat || !u) && (t.isFloat || z.zero))
  pure (.vmin raw.hdr t u z d a b pg)

/-- VMAX. -/
def decVmax (raw : Raw) : Option Instr := do
  let m := raw.md.toNat
  let t ← enumOf (VTy.ofCode (m / 8))
  let u ← bitOf (m % 8) 1
  need (raw.rm == 0)
  need (!raw.sat)
  need (raw.ch == 0)
  let z : Fz := ⟨raw.fzi, raw.fzo⟩
  let d ← dV raw.o1
  let a ← dV raw.o2
  let b ← dVB raw.o3
  let pg ← dP raw.o4
  need (raw.o5 == absent)
  need ((!t.isFloat || !u) && (t.isFloat || z.zero))
  pure (.vmax raw.hdr t u z d a b pg)

/-- VUN. -/
def decVun (raw : Raw) : Option Instr := do
  let m := raw.md.toNat
  let t ← enumOf (VTy.ofCode (m / 8))
  let k ← enumOf (UnK.ofCode (m % 8))
  need (raw.rm == 0)
  need (!raw.sat)
  need (raw.ch == 0)
  let z : Fz := ⟨raw.fzi, raw.fzo⟩
  let d ← dV raw.o1
  let a ← dV raw.o2
  let pg ← dP raw.o3
  need (raw.o4 == absent)
  need (raw.o5 == absent)
  need ((t.isFloat || z.zero) && !(t.isFloat && k == .not))
  pure (.vun raw.hdr t k z d a pg)

/-- VCMP. -/
def decVcmp (raw : Raw) : Option Instr := do
  let m := raw.md.toNat
  let t ← enumOf (VTy.ofCode (m / 8))
  let rel ← enumOf (Rel.ofCode (m % 8))
  let cd : Cond := ⟨rel, raw.sat⟩
  need (raw.rm == 0)
  need (raw.ch == 0)
  let z : Fz := ⟨raw.fzi, raw.fzo⟩
  let d ← dP raw.o1
  let a ← dV raw.o2
  let b ← dVB raw.o3
  let pg ← dP raw.o4
  need (raw.o5 == absent)
  need ((t.isFloat || z.zero) && (t.isFloat || cd.okInt))
  pure (.vcmp raw.hdr t cd z d a b pg)

/-- VSEL. -/
def decVsel (raw : Raw) : Option Instr := do
  let m := raw.md.toNat
  let t ← enumOf (VTy.ofCode (m / 8))
  need (m % 8 == 0)
  need (!raw.fzi && !raw.fzo)
  need (raw.rm == 0)
  need (!raw.sat)
  need (raw.ch == 0)
  let d ← dV raw.o1
  let ps ← dP raw.o2
  let a ← dV raw.o3
  let b ← dVB raw.o4
  need (raw.o5 == absent)
  pure (.vsel raw.hdr t d ps a b)

/-- VLOG. -/
def decVlog (raw : Raw) : Option Instr := do
  let m := raw.md.toNat
  let t ← enumOf (VTy.ofCode (m / 8))
  let k ← enumOf (LogK.ofCode (m % 8))
  need (!raw.fzi && !raw.fzo)
  need (raw.rm == 0)
  need (!raw.sat)
  need (raw.ch == 0)
  let d ← dV raw.o1
  let a ← dV raw.o2
  let b ← dVB raw.o3
  let pg ← dP raw.o4
  need (raw.o5 == absent)
  pure (.vlog raw.hdr t k d a b pg)

/-- VSHF. -/
def decVshf (raw : Raw) : Option Instr := do
  let m := raw.md.toNat
  let t ← enumOf (VTy.ofCode (m / 8))
  let u := m / 4 % 2 == 1
  let k ← enumOf (ShfK.ofCode (m % 4))
  need (!raw.fzi && !raw.fzo)
  need (raw.rm == 0)
  need (raw.ch == 0)
  let sat := raw.sat
  let d ← dV raw.o1
  let a ← dV raw.o2
  let b ← dVB raw.o3
  let pg ← dP raw.o4
  need (raw.o5 == absent)
  need (!t.isFloat && (!sat || k == .shl) && (!u || sat))
  pure (.vshf raw.hdr t u k sat d a b pg)

/-- VCVT. -/
def decVcvt (raw : Raw) : Option Instr := do
  let m := raw.md.toNat
  let t ← enumOf (VTy.ofCode (m / 8))
  let s2 ← enumOf (VTy.ofCode (m % 8))
  need (raw.ch == 0)
  let f : Fp := ⟨raw.fzi, raw.fzo, RM.ofCode raw.rm⟩
  let sat := raw.sat
  let d ← dV raw.o1
  let a ← dV raw.o2
  let part ← dIm raw.o3
  let pg ← dP raw.o4
  need (raw.o5 == absent)
  need (partOk t s2 part && (t.isFloat || s2.isFloat || f.zero))
  pure (.vcvt raw.hdr t s2 f sat d a part pg)

/-- VQNT. -/
def decVqnt (raw : Raw) : Option Instr := do
  let m := raw.md.toNat
  let fm ← enumOf (BFmt.ofCode (m / 8))
  let s2 ← enumOf (VTy.ofCode (m % 8))
  need (raw.ch == 0)
  let f : Fp := ⟨raw.fzi, raw.fzo, RM.ofCode raw.rm⟩
  let sat := raw.sat
  let d ← dV raw.o1
  let a ← dV raw.o2
  let blk ← dIm raw.o3
  let cnt ← dGI raw.o4
  need (raw.o5 == absent)
  need (s2.isFloat)
  pure (.vqnt raw.hdr fm s2 f sat d a blk cnt)

/-- VDQN. -/
def decVdqn (raw : Raw) : Option Instr := do
  let m := raw.md.toNat
  let t ← enumOf (VTy.ofCode (m / 8))
  need (m % 8 == 0)
  need (!raw.sat)
  need (raw.ch == 0)
  let f : Fp := ⟨raw.fzi, raw.fzo, RM.ofCode raw.rm⟩
  let d ← dV raw.o1
  let a ← dV raw.o2
  let blk ← dIm raw.o3
  let first ← dGI raw.o4
  let pg ← dP raw.o5
  need (t.isFloat)
  pure (.vdqn raw.hdr t f d a blk first pg)

/-- VSFU. -/
def decVsfu (raw : Raw) : Option Instr := do
  let m := raw.md.toNat
  let t ← enumOf (VTy.ofCode (m / 8))
  let fn ← enumOf (SfuK.ofCode (m % 8))
  need (!raw.sat)
  need (raw.ch == 0)
  let f : Fp := ⟨raw.fzi, raw.fzo, RM.ofCode raw.rm⟩
  let d ← dV raw.o1
  let a ← dV raw.o2
  let pg ← dP raw.o3
  need (raw.o4 == absent)
  need (raw.o5 == absent)
  need (t.isFloat)
  pure (.vsfu raw.hdr t fn f d a pg)

/-- VDIV. -/
def decVdiv (raw : Raw) : Option Instr := do
  let m := raw.md.toNat
  let t ← enumOf (VTy.ofCode (m / 8))
  need (m % 8 == 0)
  need (!raw.sat)
  need (raw.ch == 0)
  let f : Fp := ⟨raw.fzi, raw.fzo, RM.ofCode raw.rm⟩
  let d ← dV raw.o1
  let a ← dV raw.o2
  let b ← dVB raw.o3
  let pg ← dP raw.o4
  need (raw.o5 == absent)
  need (t.isFloat)
  pure (.vdiv raw.hdr t f d a b pg)

/-- VDIV_SQRT. -/
def decVdivSqrt (raw : Raw) : Option Instr := do
  let m := raw.md.toNat
  let t ← enumOf (VTy.ofCode (m / 8))
  need (m % 8 == 1)
  need (!raw.sat)
  need (raw.ch == 0)
  let f : Fp := ⟨raw.fzi, raw.fzo, RM.ofCode raw.rm⟩
  let d ← dV raw.o1
  let a ← dV raw.o2
  let pg ← dP raw.o3
  need (raw.o4 == absent)
  need (raw.o5 == absent)
  need (t.isFloat)
  pure (.vdivSqrt raw.hdr t f d a pg)

/-- VRED. -/
def decVred (raw : Raw) : Option Instr := do
  let m := raw.md.toNat
  let t ← enumOf (VTy.ofCode (m / 8))
  let op ← enumOf (RedK.ofCode (m % 8 / 2))
  let ord := m % 2 == 1
  need (!raw.sat)
  need (raw.ch == 0)
  let f : Fp := ⟨raw.fzi, raw.fzo, RM.ofCode raw.rm⟩
  let d ← dGV raw.o1
  let a ← dV raw.o2
  let pg ← dP raw.o3
  need (raw.o4 == absent)
  need (raw.o5 == absent)
  need ((t.isFloat || f.zero))
  pure (.vred raw.hdr t op ord f d a pg)

/-- VPERM. -/
def decVperm (raw : Raw) : Option Instr := do
  let m := raw.md.toNat
  let t ← enumOf (VTy.ofCode (m / 8))
  need (m % 8 == 0)
  need (!raw.fzi && !raw.fzo)
  need (raw.rm == 0)
  need (!raw.sat)
  need (raw.ch == 0)
  let d ← dV raw.o1
  let a ← dV raw.o2
  let ix ← dV raw.o3
  let pg ← dP raw.o4
  need (raw.o5 == absent)
  pure (.vperm raw.hdr t d a ix pg)

/-- VPERM_ROT. -/
def decVpermRot (raw : Raw) : Option Instr := do
  let m := raw.md.toNat
  let t ← enumOf (VTy.ofCode (m / 8))
  let dup := m % 8 == 2
  need (!raw.fzi && !raw.fzo)
  need (raw.rm == 0)
  need (!raw.sat)
  need (raw.ch == 0)
  let d ← dV raw.o1
  let a ← dV raw.o2
  let k ← dGI raw.o3
  let pg ← dP raw.o4
  need (raw.o5 == absent)
  pure (.vpermRot raw.hdr t dup d a k pg)

/-- VSPLAT. -/
def decVsplat (raw : Raw) : Option Instr := do
  let m := raw.md.toNat
  let t ← enumOf (VTy.ofCode (m / 8))
  need (m % 8 == 0)
  need (!raw.fzi && !raw.fzo)
  need (raw.rm == 0)
  need (!raw.sat)
  need (raw.ch == 0)
  let d ← dV raw.o1
  let a ← dLS raw.o2
  let pg ← dP raw.o3
  need (raw.o4 == absent)
  need (raw.o5 == absent)
  pure (.vsplat raw.hdr t d a pg)

/-- VMOVS_X. -/
def decVmovsX (raw : Raw) : Option Instr := do
  let m := raw.md.toNat
  let t ← enumOf (VTy.ofCode (m / 8))
  need (m % 8 == 0)
  need (!raw.fzi && !raw.fzo)
  need (raw.rm == 0)
  need (!raw.sat)
  need (raw.ch == 0)
  let d ← dXD raw.o1
  let a ← dV raw.o2
  let ix ← dGI raw.o3
  need (raw.o4 == absent)
  need (raw.o5 == absent)
  pure (.vmovsX raw.hdr t d a ix)

/-- VMOVS_I. -/
def decVmovsI (raw : Raw) : Option Instr := do
  let m := raw.md.toNat
  let t ← enumOf (VTy.ofCode (m / 8))
  need (m % 8 == 1)
  need (!raw.fzi && !raw.fzo)
  need (raw.rm == 0)
  need (!raw.sat)
  need (raw.ch == 0)
  let d ← dV raw.o1
  let a ← dLS raw.o2
  let ix ← dGI raw.o3
  need (raw.o4 == absent)
  need (raw.o5 == absent)
  pure (.vmovsI raw.hdr t d a ix)

/-- VLD. -/
def decVld (raw : Raw) : Option Instr := do
  let m := raw.md.toNat
  let w := w4 (m / 16)
  let mig ← bitOf (m % 16) 1
  need (!raw.fzi && !raw.fzo)
  need (raw.rm == 0)
  need (!raw.sat)
  let ch := CH.ofCode raw.ch
  let d ← dV raw.o1
  let b ← dG raw.o2
  let pg ← dP raw.o3
  let disp := imm24 raw
  need (w.val ≤ 2)
  pure (.vld raw.hdr w mig ch d b pg disp)

/-- VST. -/
def decVst (raw : Raw) : Option Instr := do
  let m := raw.md.toNat
  let w := w4 (m / 16)
  let mig ← bitOf (m % 16) 1
  need (!raw.fzi && !raw.fzo)
  need (raw.rm == 0)
  need (!raw.sat)
  let ch := CH.ofCode raw.ch
  let src ← dV raw.o1
  let b ← dG raw.o2
  let pg ← dP raw.o3
  let disp := imm24 raw
  need (w.val ≤ 2)
  pure (.vst raw.hdr w mig ch src b pg disp)

/-- VGATH. -/
def decVgath (raw : Raw) : Option Instr := do
  let m := raw.md.toNat
  let w := w4 (m / 16)
  let x ← scaleOf (m % 16)
  need (!raw.fzi && !raw.fzo)
  need (raw.rm == 0)
  need (!raw.sat)
  let ch := CH.ofCode raw.ch
  let d ← dV raw.o1
  let b ← dG raw.o2
  let ix ← dV raw.o3
  let pg ← dP raw.o4
  need (raw.o5 == absent)
  need (w.val ≤ 2)
  pure (.vgath raw.hdr w x ch d b ix pg)

/-- VSCAT. -/
def decVscat (raw : Raw) : Option Instr := do
  let m := raw.md.toNat
  let w := w4 (m / 16)
  let x ← scaleOf (m % 16)
  need (!raw.fzi && !raw.fzo)
  need (raw.rm == 0)
  need (!raw.sat)
  let ch := CH.ofCode raw.ch
  let src ← dV raw.o1
  let b ← dG raw.o2
  let ix ← dV raw.o3
  let pg ← dP raw.o4
  need (raw.o5 == absent)
  need (w.val ≤ 2)
  pure (.vscat raw.hdr w x ch src b ix pg)

/-- PLOG. -/
def decPlog (raw : Raw) : Option Instr := do
  let m := raw.md.toNat
  let t ← enumOf (VTy.ofCode (m / 8))
  let k ← enumOf (LogK.ofCode (m % 8))
  need (!raw.fzi && !raw.fzo)
  need (raw.rm == 0)
  need (!raw.sat)
  need (raw.ch == 0)
  let d ← dP raw.o1
  let a ← dP raw.o2
  let b ← dP raw.o3
  let pg ← dP raw.o4
  need (raw.o5 == absent)
  pure (.plog raw.hdr t k d a b pg)

/-- PLOG_NOT. -/
def decPlogNot (raw : Raw) : Option Instr := do
  let m := raw.md.toNat
  let t ← enumOf (VTy.ofCode (m / 8))
  need (m % 8 == 4)
  need (!raw.fzi && !raw.fzo)
  need (raw.rm == 0)
  need (!raw.sat)
  need (raw.ch == 0)
  let d ← dP raw.o1
  let a ← dP raw.o2
  let pg ← dP raw.o3
  need (raw.o4 == absent)
  need (raw.o5 == absent)
  pure (.plogNot raw.hdr t d a pg)

/-- PLOG_COUNT. -/
def decPlogCount (raw : Raw) : Option Instr := do
  let m := raw.md.toNat
  let t ← enumOf (VTy.ofCode (m / 8))
  let first := m % 8 == 6
  need (!raw.fzi && !raw.fzo)
  need (raw.rm == 0)
  need (!raw.sat)
  need (raw.ch == 0)
  let d ← dG raw.o1
  let a ← dP raw.o2
  let pg ← dP raw.o3
  need (raw.o4 == absent)
  need (raw.o5 == absent)
  pure (.plogCount raw.hdr t first d a pg)

/-- PLOG_ANY. -/
def decPlogAny (raw : Raw) : Option Instr := do
  let m := raw.md.toNat
  let t ← enumOf (VTy.ofCode (m / 8))
  need (m % 8 == 7)
  need (!raw.fzi && !raw.fzo)
  need (raw.rm == 0)
  need (!raw.sat)
  need (raw.ch == 0)
  let c ← dC raw.o1
  let a ← dP raw.o2
  let pg ← dP raw.o3
  need (raw.o4 == absent)
  need (raw.o5 == absent)
  pure (.plogAny raw.hdr t c a pg)

/-- VDOT. -/
def decVdot (raw : Raw) : Option Instr := do
  let m := raw.md.toNat
  let k ← enumOf (DotK.ofCode m)
  need (raw.ch == 0)
  let f : Fp := ⟨raw.fzi, raw.fzo, RM.ofCode raw.rm⟩
  let sat := raw.sat
  let d ← dV raw.o1
  let a ← dV raw.o2
  let b ← dV raw.o3
  let pg ← dP raw.o4
  need (raw.o5 == absent)
  need ((k != .i8 || f.zero))
  pure (.vdot raw.hdr k f sat d a b pg)

/-- VSMUL. -/
def decVsmul (raw : Raw) : Option Instr := do
  let m := raw.md.toNat
  let t ← enumOf (VTy.ofCode (m / 8))
  need (m % 8 == 0)
  need (raw.ch == 0)
  let f : Fp := ⟨raw.fzi, raw.fzo, RM.ofCode raw.rm⟩
  let sat := raw.sat
  let d ← dV raw.o1
  let a ← dV raw.o2
  let c ← dV raw.o3
  let off ← dGI raw.o4
  let pg ← dP raw.o5
  pure (.vsmul raw.hdr t f sat d a c off pg)

/-- TSHAPE. -/
def decTshape (raw : Raw) : Option Instr := do
  let m := raw.md.toNat
  need (m == 0)
  need (!raw.fzi && !raw.fzo)
  need (raw.rm == 0)
  need (!raw.sat)
  need (raw.ch == 0)
  let tl ← dT raw.o1
  let v ← dGI raw.o2
  need (raw.o3 == absent)
  need (raw.o4 == absent)
  need (raw.o5 == absent)
  pure (.tshape raw.hdr tl v)

/-- TLD. -/
def decTld (raw : Raw) : Option Instr := do
  let m := raw.md.toNat
  need (m == 0)
  need (!raw.fzi && !raw.fzo)
  need (raw.rm == 0)
  need (!raw.sat)
  need (raw.ch == 0)
  let tl ← dT raw.o1
  let b ← dG raw.o2
  let st ← dOG raw.o3
  let disp := imm24 raw
  pure (.tld raw.hdr tl b st disp)

/-- TST. -/
def decTst (raw : Raw) : Option Instr := do
  let m := raw.md.toNat
  need (m == 0)
  need (!raw.fzi && !raw.fzo)
  need (raw.rm == 0)
  need (!raw.sat)
  need (raw.ch == 0)
  let tl ← dT raw.o1
  let b ← dG raw.o2
  let st ← dOG raw.o3
  let disp := imm24 raw
  pure (.tst raw.hdr tl b st disp)

/-- MMA. -/
def decMma (raw : Raw) : Option Instr := do
  let m := raw.md.toNat
  need (m < 32)
  let bt := m / 2 % 2 == 1
  let r64 := m / 4 % 2 == 1
  let c64 := m / 8 % 2 == 1
  let set := m / 16 % 2 == 1
  need (raw.rm == 0)
  need (!raw.sat)
  need (raw.ch == 0)
  let z : Fz := ⟨raw.fzi, raw.fzo⟩
  need (raw.o1 == absent)
  let ac ← dA raw.o2
  let ta ← dT raw.o3
  let tb ← dT raw.o4
  need (raw.o5 == absent)
  pure (.mma raw.hdr bt r64 c64 set z ac ta tb)

/-- MMA_A. -/
def decMmaA (raw : Raw) : Option Instr := do
  let m := raw.md.toNat
  need (m < 32)
  let bt := m / 2 % 2 == 1
  let r64 := m / 4 % 2 == 1
  let c64 := m / 8 % 2 == 1
  let set := m / 16 % 2 == 1
  need (raw.rm == 0)
  need (!raw.sat)
  need (raw.ch == 0)
  let z : Fz := ⟨raw.fzi, raw.fzo⟩
  let j ← dG raw.o1
  let ac ← dA raw.o2
  let ta ← dT raw.o3
  let tb ← dT raw.o4
  need (raw.o5 == absent)
  pure (.mmaA raw.hdr bt r64 c64 set z j ac ta tb)

/-- MMAG. -/
def decMmag (raw : Raw) : Option Instr := do
  let m := raw.md.toNat
  need (m < 32 && m / 4 % 2 == 0)
  let bt := m / 2 % 2 == 1
  let c64 := m / 8 % 2 == 1
  let set := m / 16 % 2 == 1
  need (raw.rm == 0)
  need (!raw.sat)
  need (raw.ch == 0)
  let z : Fz := ⟨raw.fzi, raw.fzo⟩
  let j ← dOG raw.o1
  let ac ← dA raw.o2
  let ta ← dT raw.o3
  let tb ← dT raw.o4
  let l ← dG raw.o5
  need (j.isSome == (m % 2 == 1))
  pure (.mmag raw.hdr bt c64 set z j ac ta tb l)

/-- ACCF. -/
def decAccf (raw : Raw) : Option Instr := do
  let m := raw.md.toNat
  need (m < 16)
  let z := m / 2 % 2 == 1
  let c := m / 4 % 2 == 1
  let nf := m / 8 % 2 == 1
  need (raw.ch == 0)
  let f : Fp := ⟨raw.fzi, raw.fzo, RM.ofCode raw.rm⟩
  let sat := raw.sat
  let j ← dOG raw.o1
  let ac ← dA raw.o2
  need (raw.o3 == absent)
  need (raw.o4 == absent)
  need (raw.o5 == absent)
  need (j.isSome == (m % 2 == 1))
  need (!f.fzi && (c || (f.rm == .rne && !sat)) && (!nf || z))
  pure (.accf raw.hdr z c nf f sat j ac)

/-- TMAP. -/
def decTmap (raw : Raw) : Option Instr := do
  let m := raw.md.toNat
  need (m == 0)
  need (!raw.fzi && !raw.fzo)
  need (raw.rm == 0)
  need (!raw.sat)
  need (raw.ch == 0)
  let a ← dG raw.o1
  need (raw.o2 == absent)
  need (raw.o3 == absent)
  need (raw.o4 == absent)
  need (raw.o5 == absent)
  pure (.tmap raw.hdr a)

/-- TMAP_R. -/
def decTmapR (raw : Raw) : Option Instr := do
  let m := raw.md.toNat
  need (m == 1)
  need (!raw.fzi && !raw.fzo)
  need (raw.rm == 0)
  need (!raw.sat)
  need (raw.ch == 0)
  let a ← dG raw.o1
  need (raw.o2 == absent)
  need (raw.o3 == absent)
  need (raw.o4 == absent)
  need (raw.o5 == absent)
  pure (.tmapR raw.hdr a)

/-- COPY. -/
def decCopy (raw : Raw) : Option Instr := do
  let m := raw.md.toNat
  need (m < 4)
  let d2 := m % 2 == 1
  let wb := m / 2 % 2 == 1
  need (!raw.fzi && !raw.fzo)
  need (raw.rm == 0)
  need (!raw.sat)
  let ch := CH.ofCode raw.ch
  let j ← dG raw.o1
  let q ← dQ raw.o2
  let dst ← dG raw.o3
  let src ← dG raw.o4
  let n ← dGI raw.o5
  need (copyOk d2 wb n)
  pure (.copy raw.hdr d2 wb ch j q dst src n)

/-- JWAIT. -/
def decJwait (raw : Raw) : Option Instr := do
  let m := raw.md.toNat
  need (m == 0)
  need (!raw.fzi && !raw.fzo)
  need (raw.rm == 0)
  need (!raw.sat)
  need (raw.ch == 0)
  let j ← dGI raw.o1
  let gt ← dOG raw.o2
  need (raw.o3 == absent)
  need (raw.o4 == absent)
  need (raw.o5 == absent)
  pure (.jwait raw.hdr j gt)

/-- JWAIT_P. -/
def decJwaitP (raw : Raw) : Option Instr := do
  let m := raw.md.toNat
  need (m == 1)
  need (!raw.fzi && !raw.fzo)
  need (raw.rm == 0)
  need (!raw.sat)
  need (raw.ch == 0)
  let c ← dC raw.o1
  let j ← dGI raw.o2
  let gt ← dOG raw.o3
  need (raw.o4 == absent)
  need (raw.o5 == absent)
  pure (.jwaitP raw.hdr c j gt)

/-- HOLD_W. -/
def decHoldW (raw : Raw) : Option Instr := do
  let m := raw.md.toNat
  need (m == 0)
  need (!raw.fzi && !raw.fzo)
  need (raw.rm == 0)
  need (!raw.sat)
  need (raw.ch == 0)
  let k ← dKK raw.o1
  let l ← dOG raw.o2
  need (raw.o3 == absent)
  need (raw.o4 == absent)
  need (raw.o5 == absent)
  pure (.holdW raw.hdr k l)

/-- HOLD_T. -/
def decHoldT (raw : Raw) : Option Instr := do
  let m := raw.md.toNat
  need (m == 1)
  need (!raw.fzi && !raw.fzo)
  need (raw.rm == 0)
  need (!raw.sat)
  need (raw.ch == 0)
  let c ← dC raw.o1
  let k ← dKK raw.o2
  let l ← dOG raw.o3
  need (raw.o4 == absent)
  need (raw.o5 == absent)
  pure (.holdT raw.hdr c k l)

/-- HREL. -/
def decHrel (raw : Raw) : Option Instr := do
  let m := raw.md.toNat
  need (m == 0)
  need (!raw.fzi && !raw.fzo)
  need (raw.rm == 0)
  need (!raw.sat)
  need (raw.ch == 0)
  let k ← dKK raw.o1
  let l ← dOG raw.o2
  need (raw.o3 == absent)
  need (raw.o4 == absent)
  need (raw.o5 == absent)
  pure (.hrel raw.hdr k l)

/-- SEEK. -/
def decSeek (raw : Raw) : Option Instr := do
  let m := raw.md.toNat
  let dir ← enumOf (SeekK.ofCode m)
  need (!raw.fzi && !raw.fzo)
  need (raw.rm == 0)
  need (!raw.sat)
  need (raw.ch == 0)
  let k ← dKK raw.o1
  let a ← dOG raw.o2
  let l ← dOG raw.o3
  let disp := imm24 raw
  pure (.seek raw.hdr dir k a l disp)

/-- RDS. -/
def decRds (raw : Raw) : Option Instr := do
  let m := raw.md.toNat
  let sx ← bitOf m 1
  need (!raw.fzi && !raw.fzo)
  need (raw.rm == 0)
  need (!raw.sat)
  need (raw.ch == 0)
  let d ← dG raw.o1
  let k ← dK raw.o2
  let l ← dOG raw.o3
  need (raw.o4 == absent)
  need (raw.o5 == absent)
  pure (.rds raw.hdr sx d k l)

/-- WRS. -/
def decWrs (raw : Raw) : Option Instr := do
  let m := raw.md.toNat
  need (m == 0)
  need (!raw.fzi && !raw.fzo)
  need (raw.rm == 0)
  need (!raw.sat)
  need (raw.ch == 0)
  let k ← dK raw.o1
  let a ← dGI raw.o2
  let l ← dOG raw.o3
  need (raw.o4 == absent)
  need (raw.o5 == absent)
  pure (.wrs raw.hdr k a l)

/-- VRDS. -/
def decVrds (raw : Raw) : Option Instr := do
  let m := raw.md.toNat
  need (m == 0)
  need (!raw.fzi && !raw.fzo)
  need (raw.rm == 0)
  need (!raw.sat)
  need (raw.ch == 0)
  let d ← dV raw.o1
  let kg ← dKg raw.o2
  let l ← dOG raw.o3
  need (raw.o4 == absent)
  need (raw.o5 == absent)
  pure (.vrds raw.hdr d kg l)

/-- VWRS. -/
def decVwrs (raw : Raw) : Option Instr := do
  let m := raw.md.toNat
  need (m == 0)
  need (!raw.fzi && !raw.fzo)
  need (raw.rm == 0)
  need (!raw.sat)
  need (raw.ch == 0)
  let kg ← dKg raw.o1
  let src ← dV raw.o2
  let pg ← dP raw.o3
  need (raw.o4 == absent)
  need (raw.o5 == absent)
  pure (.vwrs raw.hdr kg src pg)

/-- RWND. -/
def decRwnd (raw : Raw) : Option Instr := do
  let m := raw.md.toNat
  let e ← bitOf m 1
  need (!raw.fzi && !raw.fzo)
  need (raw.rm == 0)
  need (!raw.sat)
  need (raw.ch == 0)
  let k ← dKK raw.o1
  let l ← dOG raw.o2
  need (raw.o3 == absent)
  need (raw.o4 == absent)
  need (raw.o5 == absent)
  pure (.rwnd raw.hdr e k l)

/-- HPOS. -/
def decHpos (raw : Raw) : Option Instr := do
  let m := raw.md.toNat
  need (m == 0)
  need (!raw.fzi && !raw.fzo)
  need (raw.rm == 0)
  need (!raw.sat)
  need (raw.ch == 0)
  let d ← dG raw.o1
  let k ← dK raw.o2
  let l ← dOG raw.o3
  need (raw.o4 == absent)
  need (raw.o5 == absent)
  pure (.hpos raw.hdr d k l)

/-- CHAIN. -/
def decChain (raw : Raw) : Option Instr := do
  let m := raw.md.toNat
  need (m == 0)
  need (!raw.fzi && !raw.fzo)
  need (raw.rm == 0)
  need (!raw.sat)
  need (raw.ch == 0)
  let d ← dG raw.o1
  let a ← dG raw.o2
  need (raw.o3 == absent)
  need (raw.o4 == absent)
  need (raw.o5 == absent)
  pure (.chain raw.hdr d a)

/-- GET. -/
def decGet (raw : Raw) : Option Instr := do
  let m := raw.md.toNat
  need (m == 0)
  need (!raw.fzi && !raw.fzo)
  need (raw.rm == 0)
  need (!raw.sat)
  need (raw.ch == 0)
  let d ← dGV raw.o1
  let c ← dC raw.o2
  need (raw.o3 == absent)
  need (raw.o4 == absent)
  need (raw.o5 == absent)
  pure (.get raw.hdr d c)

/-- PUT. -/
def decPut (raw : Raw) : Option Instr := do
  let m := raw.md.toNat
  need (m == 0)
  need (!raw.fzi && !raw.fzo)
  need (raw.rm == 0)
  need (!raw.sat)
  need (raw.ch == 0)
  let a ← dGIV raw.o1
  need (raw.o2 == absent)
  need (raw.o3 == absent)
  need (raw.o4 == absent)
  need (raw.o5 == absent)
  pure (.put raw.hdr a)

/-- PUT_E. -/
def decPutE (raw : Raw) : Option Instr := do
  let m := raw.md.toNat
  need (m == 1)
  need (!raw.fzi && !raw.fzo)
  need (raw.rm == 0)
  need (!raw.sat)
  need (raw.ch == 0)
  need (raw.o1 == absent)
  need (raw.o2 == absent)
  need (raw.o3 == absent)
  need (raw.o4 == absent)
  need (raw.o5 == absent)
  pure (.putE raw.hdr)

/-- CHMODE_Q. -/
def decChmodeQ (raw : Raw) : Option Instr := do
  let m := raw.md.toNat
  need (m == 0)
  need (!raw.fzi && !raw.fzo)
  need (raw.rm == 0)
  need (!raw.sat)
  need (raw.ch == 0)
  let d ← dG raw.o1
  let id ← dOG raw.o2
  need (raw.o3 == absent)
  need (raw.o4 == absent)
  need (raw.o5 == absent)
  pure (.chmodeQ raw.hdr d id)

/-- CHMODE_OCC. -/
def decChmodeOcc (raw : Raw) : Option Instr := do
  let m := raw.md.toNat
  need (m == 1)
  need (!raw.fzi && !raw.fzo)
  need (raw.rm == 0)
  need (!raw.sat)
  need (raw.ch == 0)
  let d ← dG raw.o1
  let q ← dGI raw.o2
  let id ← dOG raw.o3
  need (raw.o4 == absent)
  need (raw.o5 == absent)
  pure (.chmodeOcc raw.hdr d q id)

/-- CHMODE_FOLD. -/
def decChmodeFold (raw : Raw) : Option Instr := do
  let m := raw.md.toNat
  need (m == 2)
  need (!raw.fzi && !raw.fzo)
  need (raw.rm == 0)
  need (!raw.sat)
  need (raw.ch == 0)
  let id ← dOG raw.o1
  need (raw.o2 == absent)
  need (raw.o3 == absent)
  need (raw.o4 == absent)
  need (raw.o5 == absent)
  pure (.chmodeFold raw.hdr id)

/-- CHMODE_SPREAD. -/
def decChmodeSpread (raw : Raw) : Option Instr := do
  let m := raw.md.toNat
  need (m == 3)
  need (!raw.fzi && !raw.fzo)
  need (raw.rm == 0)
  need (!raw.sat)
  need (raw.ch == 0)
  let id ← dOG raw.o1
  need (raw.o2 == absent)
  need (raw.o3 == absent)
  need (raw.o4 == absent)
  need (raw.o5 == absent)
  pure (.chmodeSpread raw.hdr id)

/-- CHMODE_AUTO. -/
def decChmodeAuto (raw : Raw) : Option Instr := do
  let m := raw.md.toNat
  need (m == 4)
  need (!raw.fzi && !raw.fzo)
  need (raw.rm == 0)
  need (!raw.sat)
  need (raw.ch == 0)
  let id ← dOG raw.o1
  need (raw.o2 == absent)
  need (raw.o3 == absent)
  need (raw.o4 == absent)
  need (raw.o5 == absent)
  pure (.chmodeAuto raw.hdr id)

/-- FTILE. -/
def decFtile (raw : Raw) : Option Instr := do
  let m := raw.md.toNat
  need (m == 0)
  need (!raw.fzi && !raw.fzo)
  need (raw.rm == 0)
  need (!raw.sat)
  need (raw.ch == 0)
  let d ← dG raw.o1
  let c ← dC raw.o2
  need (raw.o3 == absent)
  need (raw.o4 == absent)
  need (raw.o5 == absent)
  pure (.ftile raw.hdr d c)

/-- DPUSH. -/
def decDpush (raw : Raw) : Option Instr := do
  let m := raw.md.toNat
  need (m == 0)
  need (!raw.fzi && !raw.fzo)
  need (raw.rm == 0)
  need (!raw.sat)
  need (raw.ch == 0)
  let c ← dC raw.o1
  let a ← dGI raw.o2
  let b ← dGI raw.o3
  need (raw.o4 == absent)
  need (raw.o5 == absent)
  pure (.dpush raw.hdr c a b)

/-- DPOP. -/
def decDpop (raw : Raw) : Option Instr := do
  let m := raw.md.toNat
  need (m == 0)
  need (!raw.fzi && !raw.fzo)
  need (raw.rm == 0)
  need (!raw.sat)
  need (raw.ch == 0)
  let a ← dG raw.o1
  let b ← dG raw.o2
  let c ← dC raw.o3
  need (raw.o4 == absent)
  need (raw.o5 == absent)
  pure (.dpop raw.hdr a b c)

/-- DSTEAL. -/
def decDsteal (raw : Raw) : Option Instr := do
  let m := raw.md.toNat
  need (m == 0)
  need (!raw.fzi && !raw.fzo)
  need (raw.rm == 0)
  need (!raw.sat)
  need (raw.ch == 0)
  let a ← dG raw.o1
  let b ← dG raw.o2
  let c ← dC raw.o3
  let l ← dG raw.o4
  need (raw.o5 == absent)
  pure (.dsteal raw.hdr a b c l)

/-- SSEND. -/
def decSsend (raw : Raw) : Option Instr := do
  let m := raw.md.toNat
  let cl ← bitOf m 1
  need (!raw.fzi && !raw.fzo)
  need (raw.rm == 0)
  need (!raw.sat)
  need (raw.ch == 0)
  let l ← dG raw.o1
  let p ← dS raw.o2
  let a ← dGIV raw.o3
  need (raw.o4 == absent)
  need (raw.o5 == absent)
  pure (.ssend raw.hdr cl l p a)

/-- SRECV. -/
def decSrecv (raw : Raw) : Option Instr := do
  let m := raw.md.toNat
  need (m == 0)
  need (!raw.fzi && !raw.fzo)
  need (raw.rm == 0)
  need (!raw.sat)
  need (raw.ch == 0)
  let d ← dGV raw.o1
  let c ← dC raw.o2
  let p ← dS raw.o3
  need (raw.o4 == absent)
  need (raw.o5 == absent)
  pure (.srecv raw.hdr d c p)

/-- MAPV. -/
def decMapv (raw : Raw) : Option Instr := do
  let m := raw.md.toNat
  need (m == 0)
  need (!raw.fzi && !raw.fzo)
  need (raw.rm == 0)
  need (!raw.sat)
  need (raw.ch == 0)
  let d ← dG raw.o1
  need (raw.o2 == absent)
  need (raw.o3 == absent)
  need (raw.o4 == absent)
  need (raw.o5 == absent)
  pure (.mapv raw.hdr d)

/-- MAPV_A. -/
def decMapvA (raw : Raw) : Option Instr := do
  let m := raw.md.toNat
  need (m == 1)
  need (!raw.fzi && !raw.fzo)
  need (raw.rm == 0)
  need (!raw.sat)
  need (raw.ch == 0)
  let d ← dG raw.o1
  need (raw.o2 == absent)
  need (raw.o3 == absent)
  need (raw.o4 == absent)
  need (raw.o5 == absent)
  pure (.mapvA raw.hdr d)

/-- MAPACK. -/
def decMapack (raw : Raw) : Option Instr := do
  let m := raw.md.toNat
  need (m == 0)
  need (!raw.fzi && !raw.fzo)
  need (raw.rm == 0)
  need (!raw.sat)
  need (raw.ch == 0)
  let w ← dG raw.o1
  need (raw.o2 == absent)
  need (raw.o3 == absent)
  need (raw.o4 == absent)
  need (raw.o5 == absent)
  pure (.mapack raw.hdr w)

/-- COLL_AR. -/
def decCollAr (raw : Raw) : Option Instr := do
  let m := raw.md.toNat
  need (m == 0)
  need (!raw.fzi && !raw.fzo)
  need (raw.rm == 0)
  need (!raw.sat)
  need (raw.ch == 0)
  let j ← dG raw.o1
  let dst ← dG raw.o2
  let src ← dG raw.o3
  let n ← dG raw.o4
  let mk ← dG raw.o5
  pure (.collAr raw.hdr j dst src n mk)

/-- COLL_BC. -/
def decCollBc (raw : Raw) : Option Instr := do
  let m := raw.md.toNat
  need (m == 1)
  need (!raw.fzi && !raw.fzo)
  need (raw.rm == 0)
  need (!raw.sat)
  need (raw.ch == 0)
  let j ← dG raw.o1
  let dst ← dG raw.o2
  let src ← dG raw.o3
  let n ← dG raw.o4
  let mk ← dG raw.o5
  pure (.collBc raw.hdr j dst src n mk)

/-- COLL_AG. -/
def decCollAg (raw : Raw) : Option Instr := do
  let m := raw.md.toNat
  need (m == 2)
  need (!raw.fzi && !raw.fzo)
  need (raw.rm == 0)
  need (!raw.sat)
  need (raw.ch == 0)
  let j ← dG raw.o1
  let dst ← dG raw.o2
  let src ← dG raw.o3
  let n ← dG raw.o4
  let mk ← dG raw.o5
  pure (.collAg raw.hdr j dst src n mk)

/-- TLBI_CTX. -/
def decTlbiCtx (raw : Raw) : Option Instr := do
  let m := raw.md.toNat
  need (m == 0)
  need (!raw.fzi && !raw.fzo)
  need (raw.rm == 0)
  need (!raw.sat)
  need (raw.ch == 0)
  need (raw.o1 == absent)
  let c ← dG raw.o2
  need (raw.o3 == absent)
  need (raw.o4 == absent)
  need (raw.o5 == absent)
  pure (.tlbiCtx raw.hdr c)

/-- TLBI_PG. -/
def decTlbiPg (raw : Raw) : Option Instr := do
  let m := raw.md.toNat
  need (m == 1)
  need (!raw.fzi && !raw.fzo)
  need (raw.rm == 0)
  need (!raw.sat)
  need (raw.ch == 0)
  need (raw.o1 == absent)
  let c ← dG raw.o2
  let v ← dG raw.o3
  need (raw.o4 == absent)
  need (raw.o5 == absent)
  pure (.tlbiPg raw.hdr c v)

/-- TLBI_RNG. -/
def decTlbiRng (raw : Raw) : Option Instr := do
  let m := raw.md.toNat
  need (m == 2)
  need (!raw.fzi && !raw.fzo)
  need (raw.rm == 0)
  need (!raw.sat)
  need (raw.ch == 0)
  need (raw.o1 == absent)
  let c ← dG raw.o2
  let v ← dG raw.o3
  let n ← dG raw.o4
  need (raw.o5 == absent)
  pure (.tlbiRng raw.hdr c v n)

/-- TLBI_ALL. -/
def decTlbiAll (raw : Raw) : Option Instr := do
  let m := raw.md.toNat
  need (m == 3)
  need (!raw.fzi && !raw.fzo)
  need (raw.rm == 0)
  need (!raw.sat)
  need (raw.ch == 0)
  need (raw.o1 == absent)
  need (raw.o2 == absent)
  need (raw.o3 == absent)
  need (raw.o4 == absent)
  need (raw.o5 == absent)
  pure (.tlbiAll raw.hdr)

/-- KILL. -/
def decKill (raw : Raw) : Option Instr := do
  let m := raw.md.toNat
  let f ← bitOf m 1
  need (!raw.fzi && !raw.fzo)
  need (raw.rm == 0)
  need (!raw.sat)
  need (raw.ch == 0)
  let d ← dG raw.o1
  let c ← dG raw.o2
  need (raw.o3 == absent)
  need (raw.o4 == absent)
  need (raw.o5 == absent)
  pure (.kill raw.hdr f d c)

/-- CTX_SAVE. -/
def decCtxSave (raw : Raw) : Option Instr := do
  let m := raw.md.toNat
  need (m == 0)
  need (!raw.fzi && !raw.fzo)
  need (raw.rm == 0)
  need (!raw.sat)
  need (raw.ch == 0)
  let d ← dG raw.o1
  let c ← dG raw.o2
  let l ← dG raw.o3
  need (raw.o4 == absent)
  need (raw.o5 == absent)
  pure (.ctxSave raw.hdr d c l)

/-- CTX_LOAD. -/
def decCtxLoad (raw : Raw) : Option Instr := do
  let m := raw.md.toNat
  need (m == 1)
  need (!raw.fzi && !raw.fzo)
  need (raw.rm == 0)
  need (!raw.sat)
  need (raw.ch == 0)
  let d ← dG raw.o1
  let c ← dG raw.o2
  let l ← dG raw.o3
  need (raw.o4 == absent)
  need (raw.o5 == absent)
  pure (.ctxLoad raw.hdr d c l)

/-- CTX_MIG. -/
def decCtxMig (raw : Raw) : Option Instr := do
  let m := raw.md.toNat
  need (m == 2)
  need (!raw.fzi && !raw.fzo)
  need (raw.rm == 0)
  need (!raw.sat)
  need (raw.ch == 0)
  let d ← dG raw.o1
  let c ← dG raw.o2
  let l ← dG raw.o3
  let p ← dG raw.o4
  need (raw.o5 == absent)
  pure (.ctxMig raw.hdr d c l p)

/-- CTX_RD. -/
def decCtxRd (raw : Raw) : Option Instr := do
  let m := raw.md.toNat
  need (m == 3)
  need (!raw.fzi && !raw.fzo)
  need (raw.rm == 0)
  need (!raw.sat)
  need (raw.ch == 0)
  let d ← dG raw.o1
  let c ← dG raw.o2
  let ix ← dG raw.o3
  need (raw.o4 == absent)
  need (raw.o5 == absent)
  pure (.ctxRd raw.hdr d c ix)

/-- CTX_WR. -/
def decCtxWr (raw : Raw) : Option Instr := do
  let m := raw.md.toNat
  need (m == 4)
  need (!raw.fzi && !raw.fzo)
  need (raw.rm == 0)
  need (!raw.sat)
  need (raw.ch == 0)
  need (raw.o1 == absent)
  let c ← dG raw.o2
  let v ← dG raw.o3
  let ix ← dG raw.o4
  need (raw.o5 == absent)
  pure (.ctxWr raw.hdr c v ix)

/-- CTX_RES. -/
def decCtxRes (raw : Raw) : Option Instr := do
  let m := raw.md.toNat
  need (m == 5)
  need (!raw.fzi && !raw.fzo)
  need (raw.rm == 0)
  need (!raw.sat)
  need (raw.ch == 0)
  need (raw.o1 == absent)
  let c ← dG raw.o2
  need (raw.o3 == absent)
  need (raw.o4 == absent)
  need (raw.o5 == absent)
  pure (.ctxRes raw.hdr c)

/-- CTX_TV. -/
def decCtxTv (raw : Raw) : Option Instr := do
  let m := raw.md.toNat
  need (m == 6)
  need (!raw.fzi && !raw.fzo)
  need (raw.rm == 0)
  need (!raw.sat)
  need (raw.ch == 0)
  need (raw.o1 == absent)
  let a ← dG raw.o2
  need (raw.o3 == absent)
  need (raw.o4 == absent)
  need (raw.o5 == absent)
  pure (.ctxTv raw.hdr a)

/-- CTX_SLOT. -/
def decCtxSlot (raw : Raw) : Option Instr := do
  let m := raw.md.toNat
  need (m == 7)
  need (!raw.fzi && !raw.fzo)
  need (raw.rm == 0)
  need (!raw.sat)
  need (raw.ch == 0)
  let d ← dG raw.o1
  let a ← dG raw.o2
  need (raw.o3 == absent)
  need (raw.o4 == absent)
  need (raw.o5 == absent)
  pure (.ctxSlot raw.hdr d a)

/-- PGREF_Q. -/
def decPgrefQ (raw : Raw) : Option Instr := do
  let m := raw.md.toNat
  need (m == 0)
  need (!raw.fzi && !raw.fzo)
  need (raw.rm == 0)
  need (!raw.sat)
  need (raw.ch == 0)
  let d ← dG raw.o1
  let c ← dG raw.o2
  let v ← dG raw.o3
  need (raw.o4 == absent)
  need (raw.o5 == absent)
  pure (.pgrefQ raw.hdr d c v)

/-- PGREF_RM. -/
def decPgrefRm (raw : Raw) : Option Instr := do
  let m := raw.md.toNat
  need (m == 1)
  need (!raw.fzi && !raw.fzo)
  need (raw.rm == 0)
  need (!raw.sat)
  need (raw.ch == 0)
  let d ← dG raw.o1
  let c ← dG raw.o2
  let v ← dG raw.o3
  let e ← dG raw.o4
  need (raw.o5 == absent)
  pure (.pgrefRm raw.hdr d c v e)

/-- PGREF_SH. -/
def decPgrefSh (raw : Raw) : Option Instr := do
  let m := raw.md.toNat
  need (m == 2)
  need (!raw.fzi && !raw.fzo)
  need (raw.rm == 0)
  need (!raw.sat)
  need (raw.ch == 0)
  let d ← dG raw.o1
  let c ← dG raw.o2
  let v ← dG raw.o3
  let sv ← dG raw.o4
  let n ← dGI raw.o5
  pure (.pgrefSh raw.hdr d c v sv n)

/-- PGREF_DR. -/
def decPgrefDr (raw : Raw) : Option Instr := do
  let m := raw.md.toNat
  need (m == 3)
  need (!raw.fzi && !raw.fzo)
  need (raw.rm == 0)
  need (!raw.sat)
  need (raw.ch == 0)
  let d ← dG raw.o1
  let c ← dG raw.o2
  let v ← dG raw.o3
  need (raw.o4 == absent)
  need (raw.o5 == absent)
  pure (.pgrefDr raw.hdr d c v)

/-- PGREF_ADJ. -/
def decPgrefAdj (raw : Raw) : Option Instr := do
  let m := raw.md.toNat
  need (m == 4)
  need (!raw.fzi && !raw.fzo)
  need (raw.rm == 0)
  need (!raw.sat)
  need (raw.ch == 0)
  let d ← dG raw.o1
  let c ← dG raw.o2
  let v ← dG raw.o3
  let delta ← dGI raw.o4
  need (raw.o5 == absent)
  pure (.pgrefAdj raw.hdr d c v delta)

/-- PGREF_WK. -/
def decPgrefWk (raw : Raw) : Option Instr := do
  let m := raw.md.toNat
  need (m == 5)
  need (!raw.fzi && !raw.fzo)
  need (raw.rm == 0)
  need (!raw.sat)
  need (raw.ch == 0)
  need (raw.o1 == absent)
  let c ← dG raw.o2
  let v ← dG raw.o3
  need (raw.o4 == absent)
  need (raw.o5 == absent)
  pure (.pgrefWk raw.hdr c v)

/-- PGREF_CLR. -/
def decPgrefClr (raw : Raw) : Option Instr := do
  let m := raw.md.toNat
  need (m == 6)
  need (!raw.fzi && !raw.fzo)
  need (raw.rm == 0)
  need (!raw.sat)
  need (raw.ch == 0)
  let d ← dG raw.o1
  let p ← dG raw.o2
  need (raw.o3 == absent)
  need (raw.o4 == absent)
  need (raw.o5 == absent)
  pure (.pgrefClr raw.hdr d p)

/-- MGMT_LOG. -/
def decMgmtLog (raw : Raw) : Option Instr := do
  let m := raw.md.toNat
  need (m == 0)
  need (!raw.fzi && !raw.fzo)
  need (raw.rm == 0)
  need (!raw.sat)
  need (raw.ch == 0)
  let c ← dG raw.o1
  let a ← dG raw.o2
  need (raw.o3 == absent)
  need (raw.o4 == absent)
  need (raw.o5 == absent)
  pure (.mgmtLog raw.hdr c a)

/-- MGMT_TMR. -/
def decMgmtTmr (raw : Raw) : Option Instr := do
  let m := raw.md.toNat
  need (m == 1)
  need (!raw.fzi && !raw.fzo)
  need (raw.rm == 0)
  need (!raw.sat)
  need (raw.ch == 0)
  let tm ← dG raw.o1
  need (raw.o2 == absent)
  need (raw.o3 == absent)
  need (raw.o4 == absent)
  need (raw.o5 == absent)
  pure (.mgmtTmr raw.hdr tm)

/-- MGMT_RETIRE. -/
def decMgmtRetire (raw : Raw) : Option Instr := do
  let m := raw.md.toNat
  need (m == 2)
  need (!raw.fzi && !raw.fzo)
  need (raw.rm == 0)
  need (!raw.sat)
  need (raw.ch == 0)
  let d ← dG raw.o1
  let k ← dG raw.o2
  let r ← dG raw.o3
  need (raw.o4 == absent)
  need (raw.o5 == absent)
  pure (.mgmtRetire raw.hdr d k r)

/-- MGMT_FWSEL. -/
def decMgmtFwsel (raw : Raw) : Option Instr := do
  let m := raw.md.toNat
  need (m == 3)
  need (!raw.fzi && !raw.fzo)
  need (raw.rm == 0)
  need (!raw.sat)
  need (raw.ch == 0)
  let b ← dG raw.o1
  need (raw.o2 == absent)
  need (raw.o3 == absent)
  need (raw.o4 == absent)
  need (raw.o5 == absent)
  pure (.mgmtFwsel raw.hdr b)

/-- MGMT_FWCOMMIT. -/
def decMgmtFwcommit (raw : Raw) : Option Instr := do
  let m := raw.md.toNat
  need (m == 4)
  need (!raw.fzi && !raw.fzo)
  need (raw.rm == 0)
  need (!raw.sat)
  need (raw.ch == 0)
  need (raw.o1 == absent)
  need (raw.o2 == absent)
  need (raw.o3 == absent)
  need (raw.o4 == absent)
  need (raw.o5 == absent)
  pure (.mgmtFwcommit raw.hdr)

/-- MGMT_QUOTE. -/
def decMgmtQuote (raw : Raw) : Option Instr := do
  let m := raw.md.toNat
  need (m == 5)
  need (!raw.fzi && !raw.fzo)
  need (raw.rm == 0)
  need (!raw.sat)
  need (raw.ch == 0)
  let d ← dG raw.o1
  let n ← dG raw.o2
  need (raw.o3 == absent)
  need (raw.o4 == absent)
  need (raw.o5 == absent)
  pure (.mgmtQuote raw.hdr d n)

/-- The form a word holds, by its opcode and, where forms share one, its MOD field (R115, R116 orders 2 to 5). -/
def fromRaw (raw : Raw) : Option Instr :=
  match raw.opc.toNat with
  | 0x0 => decNop raw
  | 0x1 => decBr raw
  | 0x2 => decBri raw
  | 0x3 => decCall raw
  | 0x4 => decRet raw
  | 0x5 => decLoop raw
  | 0x6 => decQuit raw
  | 0x7 => decSpawn raw
  | 0x8 => decMigr raw
  | 0x9 => decPark raw
  | 0xa => decTrap raw
  | 0xb => decTret raw
  | 0xc => decSysr raw
  | 0xd => decSysw raw
  | 0xe => decAdd raw
  | 0xf => decSub raw
  | 0x10 => decMul raw
  | 0x11 => decDiv raw
  | 0x12 => decAnd raw
  | 0x13 => decOr raw
  | 0x14 => decXor raw
  | 0x15 => decShl raw
  | 0x16 => decShr raw
  | 0x17 => decMin raw
  | 0x18 => decMax raw
  | 0x19 => decCmp raw
  | 0x1a => decSel raw
  | 0x1b => decMov raw
  | 0x1c => decMovi raw
  | 0x1d => decLea raw
  | 0x1e => decBfx raw
  | 0x1f => decBfi raw
  | 0x20 => decBitc raw
  | 0x21 => decLd raw
  | 0x22 => decSt raw
  | 0x23 => decAtom raw
  | 0x24 => decBind raw
  | 0x25 => decAcq raw
  | 0x26 => decRel raw
  | 0x27 => decFence raw
  | 0x28 => decIdem raw
  | 0x29 => decMon raw
  | 0x2a => decMwait raw
  | 0x2b => decBar raw
  | 0x2c => decBara raw
  | 0x2d =>
    let m := raw.md.toNat
    if m == 0 then decBwait raw else
    if m == 1 then decBwaitT raw else
    none
  | 0x2e => decQfence raw
  | 0x2f => decVwidth raw
  | 0x30 => decWhileP raw
  | 0x31 => decVadd raw
  | 0x32 => decVsub raw
  | 0x33 => decVmul raw
  | 0x34 => decVfma raw
  | 0x35 => decVmin raw
  | 0x36 => decVmax raw
  | 0x37 => decVun raw
  | 0x38 => decVcmp raw
  | 0x39 => decVsel raw
  | 0x3a => decVlog raw
  | 0x3b => decVshf raw
  | 0x3c => decVcvt raw
  | 0x3d => decVqnt raw
  | 0x3e => decVdqn raw
  | 0x3f => decVsfu raw
  | 0x40 =>
    let m := raw.md.toNat
    if m % 8 == 0 then decVdiv raw else
    if m % 8 == 1 then decVdivSqrt raw else
    none
  | 0x41 => decVred raw
  | 0x42 =>
    let m := raw.md.toNat
    if m % 8 == 0 then decVperm raw else
    if m % 8 == 1 || m % 8 == 2 then decVpermRot raw else
    none
  | 0x43 => decVsplat raw
  | 0x44 =>
    let m := raw.md.toNat
    if m % 8 == 0 then decVmovsX raw else
    if m % 8 == 1 then decVmovsI raw else
    none
  | 0x45 => decVld raw
  | 0x46 => decVst raw
  | 0x47 => decVgath raw
  | 0x48 => decVscat raw
  | 0x49 =>
    let m := raw.md.toNat
    if m % 8 < 4 then decPlog raw else
    if m % 8 == 4 then decPlogNot raw else
    if m % 8 == 5 || m % 8 == 6 then decPlogCount raw else
    if m % 8 == 7 then decPlogAny raw else
    none
  | 0x4a => decVdot raw
  | 0x4b => decVsmul raw
  | 0x4c => decTshape raw
  | 0x4d => decTld raw
  | 0x4e => decTst raw
  | 0x4f =>
    let m := raw.md.toNat
    if m % 2 == 0 then decMma raw else
    if m % 2 == 1 then decMmaA raw else
    none
  | 0x50 => decMmag raw
  | 0x51 => decAccf raw
  | 0x52 =>
    let m := raw.md.toNat
    if m == 0 then decTmap raw else
    if m == 1 then decTmapR raw else
    none
  | 0x53 => decCopy raw
  | 0x54 =>
    let m := raw.md.toNat
    if m == 0 then decJwait raw else
    if m == 1 then decJwaitP raw else
    none
  | 0x55 =>
    let m := raw.md.toNat
    if m == 0 then decHoldW raw else
    if m == 1 then decHoldT raw else
    none
  | 0x56 => decHrel raw
  | 0x57 => decSeek raw
  | 0x58 => decRds raw
  | 0x59 => decWrs raw
  | 0x5a => decVrds raw
  | 0x5b => decVwrs raw
  | 0x5c => decRwnd raw
  | 0x5d => decHpos raw
  | 0x5e => decChain raw
  | 0x5f => decGet raw
  | 0x60 =>
    let m := raw.md.toNat
    if m == 0 then decPut raw else
    if m == 1 then decPutE raw else
    none
  | 0x61 =>
    let m := raw.md.toNat
    if m == 0 then decChmodeQ raw else
    if m == 1 then decChmodeOcc raw else
    if m == 2 then decChmodeFold raw else
    if m == 3 then decChmodeSpread raw else
    if m == 4 then decChmodeAuto raw else
    none
  | 0x62 => decFtile raw
  | 0x63 => decDpush raw
  | 0x64 => decDpop raw
  | 0x65 => decDsteal raw
  | 0x66 => decSsend raw
  | 0x67 => decSrecv raw
  | 0x68 =>
    let m := raw.md.toNat
    if m == 0 then decMapv raw else
    if m == 1 then decMapvA raw else
    none
  | 0x69 => decMapack raw
  | 0x6a =>
    let m := raw.md.toNat
    if m == 0 then decCollAr raw else
    if m == 1 then decCollBc raw else
    if m == 2 then decCollAg raw else
    none
  | 0x6b =>
    let m := raw.md.toNat
    if m == 0 then decTlbiCtx raw else
    if m == 1 then decTlbiPg raw else
    if m == 2 then decTlbiRng raw else
    if m == 3 then decTlbiAll raw else
    none
  | 0x6c => decKill raw
  | 0x6d =>
    let m := raw.md.toNat
    if m == 0 then decCtxSave raw else
    if m == 1 then decCtxLoad raw else
    if m == 2 then decCtxMig raw else
    if m == 3 then decCtxRd raw else
    if m == 4 then decCtxWr raw else
    if m == 5 then decCtxRes raw else
    if m == 6 then decCtxTv raw else
    if m == 7 then decCtxSlot raw else
    none
  | 0x6e =>
    let m := raw.md.toNat
    if m == 0 then decPgrefQ raw else
    if m == 1 then decPgrefRm raw else
    if m == 2 then decPgrefSh raw else
    if m == 3 then decPgrefDr raw else
    if m == 4 then decPgrefAdj raw else
    if m == 5 then decPgrefWk raw else
    if m == 6 then decPgrefClr raw else
    none
  | 0x6f =>
    let m := raw.md.toNat
    if m == 0 then decMgmtLog raw else
    if m == 1 then decMgmtTmr raw else
    if m == 2 then decMgmtRetire raw else
    if m == 3 then decMgmtFwsel raw else
    if m == 4 then decMgmtFwcommit raw else
    if m == 5 then decMgmtQuote raw else
    none
  | _ => none

/-- The decoder (R116, orders 2 to 5): the instruction form of a word, or none where the word traps ILLOP. -/
def decode (w : IWord) : Option Instr := fromRaw (unpack w)

/-- The encoder: the word of an instruction form; none for a device step. -/
def encode (i : Instr) : Option IWord := (toRaw i).map pack

/-- word<95:32>, the TVAL of the traps of R116. -/
def wordHigh (w : IWord) : Word := w.extractLsb' 32 64

/-- word<95:32> of an instruction. -/
def tvalOf (i : Instr) : Word :=
  match encode i with
  | some w => wordHigh w
  | none => 0

/-- The bytes of an instruction word as a line holds them, least significant first (R98). -/
def wordBytes (w : IWord) : List Byte := (List.range 12).map fun k => w.extractLsb' (8 * k) 8

/-- A word from its twelve bytes. -/
def bytesWord (bs : List Byte) : IWord := bs.foldr (fun b acc => acc <<< 8 ||| b.setWidth 96) 0

/-- The instruction my decoder reads from bits numbered as spec/opcode_table.json numbers them: the table gives no row
fixed bits, the word is one 96-bit unit, bit 0 its least significant bit, stored little-endian (R98). -/
def decodeTableWord (nbits w : Nat) : Option Instr :=
  decode (bytesWord (wordBytes (BitVec.ofNat 96 (w % 2 ^ nbits))))

end Sys2Proof
end

