-- ==== Sys2Proof/Machine/Memory.lean ====
section
/-!
DEFINITION. Memory: the last write of every location (R141), as a list of cells in one canonical form. A location is a
physical address below 2^52 (R294), or 2^52 + 2^18·core + offset for a byte of a core's SRAM (log 14). An unlisted
byte reads 0 (log 1), so no cell holds 0.
-/

namespace Sys2Proof.Machine

/-- Memory in canonical form. -/
abbrev Memory := List Host.Cell

/-- What an unlisted address reads as (log 1). -/
def Memory.unlisted : Byte := 0

/-- Read one byte. -/
def Memory.read (m : Memory) (a : Nat) : Byte :=
  match m with
  | [] => Memory.unlisted
  | (a', b) :: t => if a = a' then b else Memory.read t a

/-- Write one byte, keeping the canonical form. -/
def Memory.write (m : Memory) (a : Nat) (b : Byte) : Memory :=
  match m with
  | [] => if b = Memory.unlisted then [] else [(a, b)]
  | (a', b') :: t =>
    if a = a' then (if b = Memory.unlisted then t else (a, b) :: t)
    else if a < a' then (if b = Memory.unlisted then (a', b') :: t else (a, b) :: (a', b') :: t)
    else (a', b') :: Memory.write t a b

/-- Write a list of bytes at their locations. -/
def Memory.writes (m : Memory) (cs : List (Nat × Byte)) : Memory :=
  cs.foldl (fun m c => Memory.write m c.1 c.2) m

/-- Read n bytes from a location on. -/
def Memory.readN (m : Memory) (a n : Nat) : List Byte := (List.range n).map fun k => Memory.read m (a + k)

/-- The canonical form from an address on: addresses rise strictly and no cell reads as an unlisted one does. -/
def Memory.wfFrom (lo : Nat) : Memory → Bool
  | [] => true
  | (a, b) :: t => decide (lo ≤ a) && b != Memory.unlisted && Memory.wfFrom (a + 1) t

/-- The canonical form. -/
def Memory.wf (m : Memory) : Bool := Memory.wfFrom 0 m

end Sys2Proof.Machine
end

