-- ==== Sys2Proof/Config.lean ====
section
/-!
DEFINITION. What an implementation fixes and the spec leaves open: the free values. Each is an opaque constant with no
body, so that nothing can be proved of its value; the step applies it to the counter freeCtr of State (log 4). The
keys and firmware entries of R395 to R397 are opaque as well (log 13).
-/

namespace Sys2Proof.Config

/-- A value the spec leaves undefined, of 64 bits, for a use of the step counter and a tag. -/
opaque freeWord : Nat → Nat → Word

/-- An undefined vector register. -/
opaque freeVec : Nat → Nat → Vec

/-- An undefined vector predicate. -/
opaque freePred : Nat → Nat → VPred

/-- An undefined byte. -/
opaque freeByte : Nat → Nat → Byte

/-- An undefined bit: which of two values a read of an outstanding register takes (R65). -/
opaque freeBit : Nat → Nat → Bool

/-- Whether a read takes a newer write that it may take (R147): counter, tag of the read, time of the write. -/
opaque freeTakes : Nat → Nat → Nat → Bool

/-- The hops that a detour around a down mesh link adds on a route between two routers (R67, R41; log 31). -/
opaque detourHops : Nat → Nat → Nat

/-- The bytes of the share that a context holds on a logical core of another package (R24): package, context, logical
core; 0 where it holds no core there (log 20). -/
opaque peerShare : Nat → Nat → Nat → Nat

/-- The bytes of HBM of another package (R294, log 20). -/
opaque peerHbm : Nat → Nat

/-- Modulus of the firmware signing key held in ROM (R397). -/
opaque romKeyN : Nat

/-- Public exponent of the firmware signing key held in ROM (R397). -/
opaque romKeyE : Nat

/-- The signature the identity key makes over a message (R406); the private key is not readable. -/
opaque identitySign : List Byte → List Byte

/-- The pc at which a started firmware bank runs on the Reeve (R397). -/
opaque firmwareEntry : Bool → Word

/-- The pc at which firmware starts a service core (R354). -/
opaque serviceEntry : Nat → Word

/-- The place of the map region that firmware chooses at bring-up, in 4 KiB units of region 0x0 (R25). -/
opaque mapPlace : Nat → Nat

/-- Usable stack capacity at bring-up in MiB, for a fully working package (R30). -/
def stackCap : Nat := 61440

/-- ID's revision as shipped (R379). -/
def revision : W32 := 1

end Sys2Proof.Config
end

