-- ==== Sys2Proof/Machine/Maps.lean ====
section
/-!
DEFINITION. Finite maps from natural numbers, as lists of pairs in ascending key order, and small list operations the
machine uses. Sparse tables of the device (slots, contexts, tracks, tiles, queues) are such maps.
-/

namespace Sys2Proof.Machine

/-- A finite map, in ascending key order. -/
abbrev Map (α : Type) := List (Nat × α)

/-- The value at a key. -/
def mget {α : Type} (m : Map α) (k : Nat) : Option α :=
  match m with
  | [] => none
  | (k', v) :: t => if k = k' then some v else mget t k

/-- The value at a key, or a default. -/
def mgetD {α : Type} (m : Map α) (k : Nat) (d : α) : α := (mget m k).getD d

/-- Set the value at a key. -/
def mset {α : Type} (m : Map α) (k : Nat) (v : α) : Map α :=
  match m with
  | [] => [(k, v)]
  | (k', v') :: t =>
    if k = k' then (k, v) :: t
    else if k < k' then (k, v) :: (k', v') :: t
    else (k', v') :: mset t k v

/-- Remove a key. -/
def mdel {α : Type} (m : Map α) (k : Nat) : Map α := m.filter fun e => e.1 != k

/-- Change every value. -/
def mmap {α : Type} (f : Nat → α → α) (m : Map α) : Map α := m.map fun e => (e.1, f e.1 e.2)

/-- The first element of a list that satisfies a test, with its index. -/
def findIdx? {α : Type} (p : α → Bool) (l : List α) : Option Nat :=
  match l with
  | [] => none
  | a :: t => if p a then some 0 else (findIdx? p t).map (· + 1)

/-- Add an element unless it is there. -/
def addNew {α : Type} [DecidableEq α] (a : α) (l : List α) : List α := if a ∈ l then l else l ++ [a]

/-- The last n elements dropped: keep at most n of the front. -/
def keepFirst {α : Type} (n : Nat) (l : List α) : List α := l.take n

/-- Sorted insertion of a timed entry, after entries of the same or an earlier time. -/
def insertTimed {α : Type} (t : Nat) (a : α) (l : List (Nat × α)) : List (Nat × α) :=
  match l with
  | [] => [(t, a)]
  | (t', a') :: r => if t < t' then (t, a) :: (t', a') :: r else (t', a') :: insertTimed t a r


/-- Every number below a bound that satisfies a test, ascending. -/
def natsWhere (n : Nat) (p : Nat → Bool) : List Nat := (List.range n).filter p

/-- The ceiling of a quotient. -/
def ceilDiv (a b : Nat) : Nat := (a + b - 1) / b

/-- Bit i of a number. -/
def bitN (x i : Nat) : Bool := x / 2 ^ i % 2 == 1

end Sys2Proof.Machine
end

