-- ==== Sys2Proof/Machine/State.lean ====
section
/-!
DEFINITION. The state of the machine: everything the spec gives the package and its surroundings (INVENTORY.md lists
it with the rules), as plain data, and the state right after reset. Fields that are the model's own (agenda, sched,
freeCtr, idCtr, cur, turn) carry a log entry.
-/

namespace Sys2Proof.Machine

/-! ### The ordering machine (R142) -/

/-- A view: for each location, the time of the write it stands at, which is the latest of the base, the ranges
(first, one past, time) and the points (location, time) that hold the location. -/
structure View where
  base : Nat := 0
  rng  : List (Nat × Nat × Nat) := []
  pts  : List (Nat × Nat) := []
  deriving DecidableEq, Repr

/-- One byte of a write: its location, the value written and the value the write before it left. -/
structure WCell where
  loc : Nat
  val : Byte
  old : Byte
  deriving DecidableEq, Repr

/-- A performed write: its time in the order of performance, and its bytes (R141). -/
structure Wr where
  ts    : Nat
  cells : List WCell
  deriving DecidableEq, Repr

/-- An entry of a store buffer (R142, R145, R162): a write, with the virtual address of its sector, its tag (true:
the open region's) and its issue time; or a FENCE mark, tagged alike. -/
inductive BufItem where
  | write (id : Nat) (vaSec : Nat) (cells : List (Nat × Byte)) (opn : Bool)
  | mark (sc : Scope) (opn : Bool)
  deriving DecidableEq, Repr

/-- A region checkpoint (R158). -/
structure Ckpt where
  g  : Vector Word 16
  pw : W32
  pc : Word
  deriving DecidableEq, Repr

/-- A monitor: the watched 32-byte line of locations, its written flag (R180, R182) and the clock in which it is armed
(R181). -/
structure Mon where
  line    : Nat
  written : Bool
  armed   : Nat
  deriving DecidableEq, Repr

/-- A binding (R144): base, length and object, virtual; the clock it holds from, and the clock it ends (R173). -/
structure Binding where
  base : Nat
  len  : Nat
  obj  : Nat
  from_ : Nat
  until_ : Option Nat
  deriving DecidableEq, Repr

/-! ### Threads -/

/-- A register that a variable result may write. -/
inductive RegId where
  | g (r : Fin 16)
  | c (r : Fin 32)
  | v (r : Fin 32)
  deriving DecidableEq, Repr

/-- A register write. -/
inductive RegW where
  | g (r : Fin 16) (x : Word)
  | c (r : Fin 32) (b : Bool)
  | v (r : Fin 32) (x : Vec)
  deriving DecidableEq, Repr

/-- A request that another unit performs when it arrives (R408, R71, R339). -/
inductive Req where
  | sysr (n : Nat)
  | load (va loc n : Nat) (sx : Bool)
  | acq (va loc : Nat)
  | rel (va loc : Nat) (add : Bool) (val : Word)
  | mapv (acked : Bool)
  | ctxRd (c : Nat) (idx : Word)
  | ctxSlot (k : Nat)
  | retire (cls cause res : Nat)
  | chainId (desc : Word) (bytes : Nat)
  | chmodeQ (id : Nat) (stage rep : Nat)
  | chmodeOcc (id q : Nat)
  | spawn (lcore : Nat)
  | dsteal (lcore : Nat) (a b : Fin 16) (c : Fin 32) (late : Bool)
  | atom (va loc n : Nat) (op : AtomOp) (u : Bool) (b c : Nat)
  | bara (loc n : Nat)
  | vload (va z : Nat) (js locs : List Nat) (bySector : Bool) (old : Vec)
  | quote (off : Nat)
  | shoot (ctx : Option Nat) (pages : List (Nat × Nat)) (wake : Bool)
  | ctxOp (op c l : Nat)
  deriving DecidableEq, Repr

/-- What an outstanding variable result waits for (R79, R408). -/
inductive Wait where
  | none
  | request (q : Req)
  | park
  | mwait (line : Nat)
  | bar (set : Nat)
  | bwait (loc : Nat)
  | job (core : Nat) (jid : Nat) (gT : Option (Fin 16))
  | link (east fwd : Bool) (z : Nat) (mask : VPred)
  | srecv (port : Nat) (toV : Bool)
  | kill (ctx : Nat)
  | tst (op : Nat)
  | get (h : Hdr) (d : GV) (c : Fin 32)
  deriving DecidableEq, Repr

/-- An outstanding variable result (R63 to R66): its instruction, the registers it will still write, their values once
known, what it waits for, the view it joins (R147), the EVT bits it reports, and a lost reply's version (R348). `fence` is
its thread's count of FENCEs at its issue, `port` says that its request entered the core's port behind one (R162, effect 3),
and `sentTo` is the core that its request was last sent to (R358, R375). A memory read performed at its issue keeps the
request that it was (`again`) and the clock it left in (`sent`), in case its home has gone when it gets there; `rehash` is
then the slice that answers (R45). -/
structure Res where
  id   : Nat
  pc   : Word
  dst  : List RegId
  vals : List RegW
  wait : Wait
  join : Option View
  evt  : BitVec 7
  lost : Option (Bool × Word) := none
  fence : Nat := 0
  port : Bool := false
  sentTo : Option Nat := none
  again : Option Req := none
  sent : Nat := 0
  rehash : Option Nat := none
  deriving DecidableEq, Repr

/-- A trap to be taken. -/
structure TrapReq where
  cause : BitVec 8
  tval  : Word
  epc   : Word
  deriving DecidableEq, Repr

/-- The run in progress (R64, R347 to R350): whether one is open, its first pc, whether it holds an instruction that
closes regions, the earliest pc that raised an enabled flag, a shadow disagreement (pc, closer seen), a lost reply. -/
structure Run where
  live   : Bool := false
  first  : Word := 0
  closer : Bool := false
  fpx    : Option Word := none
  sdc    : Option (Word × Bool) := none
  lost   : Option TrapReq := none
  deriving DecidableEq, Repr

/-- What keeps a thread from issuing beside its clocks and its results. With `walked` its walk has ended, and its instruction
is tried again at its next turn: the access has still not completed translation (R312). -/
inductive Block where
  | free
  | walked
  | walk (va : Nat) (write fetch : Bool)
  | refetch
  | fault (ctx page cause : Nat)
  | leaving (lcore core : Nat)
  | job (q jid : Nat)
  | lease
  | port
  | device
  | inChain
  deriving DecidableEq, Repr

/-- The branch-target check due at the next fetch (R102): none, after a branch at a pc, at a thread's start, or at a
handler's first instruction (R125). -/
inductive Entry where
  | none
  | branch (epc : Word)
  | start
  | handler
  deriving DecidableEq, Repr

/-- The place of a thread in a chain (R313). -/
structure ChainPos where
  chain : Nat
  stage : Nat
  rep   : Nat
  deriving DecidableEq, Repr

/-- What an instruction held for buffer room has still to do (R233): its header and the writes not yet in the buffer. -/
structure Held where
  hdr : Hdr
  ws  : List (Nat × List (Nat × Byte))
  deriving DecidableEq, Repr

/-- A thread (R46, R57). `held` is the instruction at its pc whose writes still enter the store buffer (R233); `broken`
names the waits that a save or a move has ended without a result (R360); `hostSt` names the buffered stores to host memory
issued behind a FENCE, with the thread's count of FENCEs then (R162); `fence` counts the FENCEs that found an earlier track
instruction incomplete (R162, effect 3); `evtNew` are the bits of EVT that the device has set in the clock `evtAt`, which a
write of that clock leaves set, and `fxfNew` likewise of FXF (R7); `ghosts` are monitors displaced in this clock under an
MWAIT, which a write of the same clock still ends as written (R183). -/
structure Thread where
  ctx    : Nat := 0
  lcore  : Nat := 0
  g      : Vector Word 16 := Vector.replicate 16 0
  pw     : W32 := 1
  pc     : Word := 0
  lane   : BitVec 16 := 0
  priv   : BitVec 2 := 2
  cause  : BitVec 8 := 0
  tval   : Word := 0
  epc    : Word := 0
  tvec   : Word := 0
  inh    : Bool := false
  mheld  : Bool := false
  tscr   : Word := 0
  fxf    : BitVec 6 := 0
  fxe    : BitVec 5 := 0
  seed   : W32 := 1
  rng    : W32 := 1
  evt    : BitVec 7 := 0
  v      : Vector Vec 32 := Vector.replicate 32 0
  p      : Vector VPred 8 := (Vector.replicate 8 0).set 0 (BitVec.allOnes 256)
  region : Option Ckpt := none
  idemPc : Word := 0
  run    : Run := {}
  res    : List Res := []
  ended  : Bool := false
  trapP  : Option TrapReq := none
  hold   : Nat := 0
  block  : Block := .free
  entry  : Entry := .none
  mapevt : Bool := false
  held   : Option Held := none
  broken : List Nat := []
  mons   : List Mon := []
  ghosts : List Mon := []
  buf    : List BufItem := []
  view   : View := {}
  chain  : Option ChainPos := none
  fence  : Nat := 0
  fxfAt  : Nat := 0
  fxfNew : BitVec 6 := 0
  hostSt : List (Nat × Nat) := []
  evtAt  : Nat := 0
  evtNew : BitVec 7 := 0
  deriving DecidableEq, Repr

/-- A slot's occupancy (R352, R374). -/
inductive Occ where
  | free | used | scrub
  deriving DecidableEq, Repr

/-- A slot of a core: its generation, the clocks of its last placement and of its last freeing (R68, R84), its last
placements, newest first, each with the last name given before it and its context (R69), its occupancy, the context (0 for
none) and logical core that reserve it, its vector registers (R82) and its home lane (R56). -/
structure Slot where
  gen        : BitVec 8 := 0
  lastPlaced : Option Nat := none
  freed      : Option Nat := none
  past       : List (Nat × Nat) := []
  occ        : Occ := .free
  ctx        : Nat := 0
  lcore      : Nat := 0
  vregs      : Nat := 0
  home       : Nat := 0
  deriving DecidableEq, Repr

/-! ### Cores -/

/-- A stream route (R341): its name, its sender's core context, its kind, whether its opening word has reached the
port, whether its last word is sent, the words in the buffer (each with its last mark) and those on their way. -/
structure Route where
  id      : Nat
  ctx     : Nat
  lcore   : Nat
  vec     : Bool
  arrived : Bool := false
  closed  : Bool := false
  words   : List (Vec × Bool) := []
  flying  : List (Vec × Bool) := []
  deriving DecidableEq, Repr

/-- A stream port (R341): the route that holds it, whether a chain holds it (R329), the routes that wait in order of
arrival, and those whose opening word is on its way. -/
structure Port where
  held   : Option Route := none
  chain  : Bool := false
  waits  : List Route := []
  coming : List Route := []
  deriving DecidableEq, Repr

/-- A migrating thread's record on its way or in an inbox (R74, R75): its source slot, how it resumes, and the
thread. -/
structure Mig where
  src : Nat
  th  : Thread
  acc : Bool
  deriving DecidableEq, Repr

/-- A berm entry (R358): context, logical core, the new physical core or none for a save, and the clock in which it ends. -/
structure Berm where
  ctx   : Nat
  lcore : Nat
  dest  : Option Nat
  until_ : Option Nat
  deriving DecidableEq, Repr

/-- A compute core, a service core or the Reeve: the slot that issued last (R60), and the one before it, to which the
rotation returns when the turn's instruction is held (R66); `jobCtr` numbers the jobs that a core without core contexts has
enqueued (log 41). -/
structure CoreSt where
  last    : Nat := 7
  prev    : Nat := 7
  scratch : Nat := 4
  ports   : Vector Port 4 := Vector.replicate 4 {}
  inbox   : List Mig := []
  berm    : List Berm := []
  emerg   : Option (Nat × Nat) := none
  halted  : Bool := false
  pend    : BitVec 4 := 0
  talrtM  : Word := 0
  timerA  : Word := 0
  jobCtr  : Nat := 0
  deriving DecidableEq, Repr

/-- What an instruction in a track's queue does (R276 to R282): with the result it returns, if it has one. -/
inductive TrkOp where
  | rds (rid : Nat) (r : Fin 16) (sx : Bool)
  | wrs (x : W32)
  | vrds (rid : Nat) (r : Fin 32)
  | vwrs (src : Vec) (pg : VPred)
  | seek (target : Nat) (dir : Option Bool)
  | hrel
  | hold (hdr : Option Hdr) (named : List Nat)
  | holdT (rid : Nat) (r : Fin 32)
  deriving DecidableEq, Repr

/-- A waiting track access; `fence` is its thread's count of FENCEs at its issue (R162), and `next` what an instruction that
first has to hold an owed lease then does: the tracks and operation of each access (R271). -/
structure Acc where
  tk    : Nat
  gen   : BitVec 8
  ctx   : Nat
  pc    : Word
  gang  : List Nat
  op    : TrkOp
  clock : Nat
  fence : Nat := 0
  next  : List (List Nat × TrkOp) := []
  deriving DecidableEq, Repr

/-- A waiting lease request (R270). With `held` its thread is held for it; the instruction with the header `hdr`, issued at
`clock`, completes once the context owns the tracks it named (R286): its accesses `next` enter their tracks' queues (R271), and
after them the HRELs of its context that follow it (R279). -/
structure LeaseReq where
  ctx   : Nat
  gang  : List Nat
  slot  : Nat
  held  : Bool := false
  hdr   : Option Hdr := none
  named : List Nat := []
  next  : List (List Nat × TrkOp) := []
  clock : Nat := 0
  rels  : List Acc := []
  deriving DecidableEq, Repr

/-- A head move (R268): where it started, when, and its target position. -/
structure Move where
  frm   : Nat
  start : Nat
  dest  : Nat
  deriving DecidableEq, Repr

/-- A track of the track store (R263, R266). `slip` is its head's physical misalignment, `slipBad` that its ports disagree about
it, and `misfix` that the next correction's shift fails, which its re-read (`reread`) finds (R273; log 16). -/
structure Track where
  words   : Map W32 := []
  bad     : List Nat := []
  fill    : Nat := 0
  cursor  : Nat := 0
  back    : Bool := false
  herr    : Nat := 0
  owner   : Option Nat := none
  gang    : Bool := false
  lgen    : BitVec 16 := 0
  lost    : Bool := false
  head    : Nat := 0
  move    : Option Move := none
  settled : Nat := 0
  slip    : Int := 0
  slipBad : Bool := false
  misfix  : Bool := false
  reread  : Bool := false
  acc     : List Acc := []
  wait    : List LeaseReq := []
  deriving DecidableEq, Repr

/-! ### Clusters, jobs and queues -/

/-- The state of a tile (R241): empty, filling, or ready with its incomplete readers (none: ready; else draining). -/
inductive TileSt where
  | empty
  | filling
  | ready (readers : Nat)
  deriving DecidableEq, Repr

/-- A tile: shape register TSn (R239), state and bytes, and the load that fills it (R244). -/
structure Tile where
  shape : W32 := 0
  load  : Nat := 0
  st    : TileSt := .empty
  data  : List Byte := []
  deriving DecidableEq, Repr

/-- A tile store in progress (R245): its context, thread and result, its tile, the rows still to be appended with
their clocks, the clock it completes, the view over its writes, and the rows it covers, each of `rowb` bytes. -/
structure TileOp where
  ctx   : Nat
  tk    : Nat
  rid   : Nat
  tile  : Nat
  rows  : List (Nat × List (Nat × Byte))
  fin   : Nat
  view  : View
  covers : List Nat
  rowb  : Nat
  deriving DecidableEq, Repr

/-- What a job does; `peers` are the other participants' sources, once the collective has begun (R392). -/
inductive JobKind where
  | mma (bank : Nat) (ta tb : Nat) (bt r64 c64 set fzi fzo : Bool) (list : Option Nat)
  | accf (bank : Nat) (z c nf : Bool) (fzo : Bool) (rm : RM) (sat : Bool) (rowmap : BitVec 768)
  | copy (dst src rows rowb : Nat) (dstr sstr : Int) (bar : Option Nat)
  | coll (op : Nat) (dst src : Nat) (gn gm : Word) (peers : Option Nat)
  deriving DecidableEq, Repr

/-- A job (R252, R253): its id, its core context, the thread that enqueued it with its slot generation, its rounding
stream, the result that a thread holds for, its view, and, of a job that is stopped, the sectors it still writes
(R366). `fl` are flags it has raised before an error (R207); `owes` names the buffered writes that its enqueue has still to
drain, since a FENCE held one of them in the port (R162); `left` are the unthrottled clocks that the engine had still to give it
at the clock `since` (R400). -/
structure Job where
  id    : Nat
  ctx   : Nat
  lcore : Nat
  phys  : Nat
  tk    : Nat
  gen   : BitVec 8
  pc    : Word
  seed  : W32
  sync  : Option Nat
  view  : View
  kind  : JobKind
  stop  : Option Nat := none
  fence : Nat := 0
  lat   : Nat := 0
  fl    : BitVec 6 := 0
  owes  : List Nat := []
  left  : Nat := 0
  since : Nat := 0
  deriving DecidableEq, Repr

/-- An entry of an engine queue: a job, or a QFENCE marker with the queues it names (R153). -/
inductive QEnt where
  | job (j : Job)
  | mark (id : Nat) (qs : List Nat)
  deriving DecidableEq, Repr

/-- An engine queue (R142, R252): entries, whether the head runs or is stalled, and the view completed last. -/
structure JQueue where
  ents    : List QEnt := []
  running : Bool := false
  stalled : Option (Nat × Nat × Nat) := none
  last    : View := {}
  deriving DecidableEq, Repr

/-- A retained job (R252, R254): status and final view. -/
structure JobRec where
  id     : Nat
  status : Word
  view   : View
  deriving DecidableEq, Repr

/-- A cached translation (R301): context, first page, its frame's base and permissions; of one page, or, for a range entry,
of every page of a contiguous range. -/
structure TlbE where
  ctx   : Nat
  page  : Nat
  pa    : Nat
  w     : Bool
  x     : Bool
  cow   : Bool
  range : Bool := false
  pages : Nat := 1
  deriving DecidableEq, Repr

/-- A cluster: its engine's holder and banks, ROWMAP, TLB, the walks of its walkers and the misses that are queued, each by
the thread that missed, its context and the address (R301), the pool register VGROUP, and the slice-map generations it has
adopted for a context beyond the context's own by a rehash (R44). `copies` are the sectors left to request of the copy jobs
that run, by queue, as they stood at the clock `copyAt`, the next one served first (R258). -/
structure Cluster where
  holder : Option Nat := none
  banks  : Map W32 := []
  rowmap : BitVec 768 := 0
  tlb    : List TlbE := []
  walks  : List (Nat × Nat × Nat) := []
  missQ  : List (Nat × Nat × Nat) := []
  donors : BitVec 8 := 0
  users  : BitVec 8 := 0
  gens   : Map Nat := []
  copies : List (Nat × Nat) := []
  copyAt : Nat := 0
  deriving DecidableEq, Repr

/-- An error that strikes a shadowed unit, put in by the environment (R214, R215; log 17): the unit, (0, core) for a
core's vector unit and (1, cluster) for a matrix engine; the result it strikes, by lane or by the job's group sums in
order; whether the results are finite and not zero; and how the unit's normalised result differs from the shadow's: in class,
sign, exponent and the 8-bit field. -/
structure Upset where
  unit : Nat × Nat
  nth  : Nat
  fin  : Bool := true
  cls  : Bool := false
  sign : Bool := false
  exp  : Int := 0
  frac : Int := 0
  deriving DecidableEq, Repr

/-! ### Contexts -/

/-- The launch packet (R48 to R53). -/
structure Packet where
  entry : Word := 0
  arg0  : Word := 0
  arg1  : Word := 0
  arg2  : Word := 0
  arg3  : Word := 0
  cmpl  : Word := 0
  place : Word := 0
  res   : Word := 0
  grid  : Word := 0
  ctl   : Word := 0
  deps  : List (Word × W32) := []
  deriving DecidableEq, Repr

/-- RUN of STATE (R373), and where a launch stands before and after it runs. -/
inductive CtxRun where
  | waiting | running | suspended | dying | completing
  deriving DecidableEq, Repr

/-- A wire-barrier set (R185, R186): its phase, the threads that have arrived, and the clock of the last arrival. -/
structure BarSet where
  phase   : Bool := false
  arrived : List Nat := []
  full    : Option Nat := none
  deriving DecidableEq, Repr

/-- How a replica stands (R322, R345): not yet started, ready to go on, parked at a GET or a PUT, or running. -/
inductive Parked where
  | fresh | ready | atGet | atPut | run
  deriving DecidableEq, Repr

/-- A replica of a chain (R313, R322): its stage and number, its thread when it has a slot, its record when it is a frame,
how it stands, whether its stream has ended, and whether it has quit. -/
structure Replica where
  stage : Nat
  rep   : Nat
  tk    : Option Nat
  frame : Option Thread
  at_   : Parked
  done  : Bool
  quit  : Bool
  deriving DecidableEq, Repr

/-- A chain item: its value, the producer's view (R320), and the clock from which it is in its consumer's queue (R333). -/
structure Item where
  val  : Vec
  view : View
  due  : Nat := 0
  deriving DecidableEq, Repr

/-- A chain queue (R318): the pointers, and for each consumer replica the items present and the items in flight with
their arrival clocks. -/
structure CQueue where
  p      : Nat := 0
  c      : Nat := 0
  items  : Map (List Item) := []
  flying : Map (List Item) := []
  eosAt  : Option Nat := none
  deriving DecidableEq, Repr

/-- A chain (R313 to R329): its form and pending requests (a fold for a retirement: foldR), its replicas and counts by
stage, its queues, the stream ports it holds (R329), the clock from which slots have sufficed (R327), the view its
completion releases, and the preferred core of each stage (R315). -/
structure Chain where
  id       : Nat
  folded   : Bool
  auto     : Bool
  foldP    : Bool := false
  foldR    : Bool := false
  spreadP  : Bool := false
  depth    : Nat
  vec      : Bool
  qoff     : Nat
  cmpl     : Word
  reps     : List Replica
  counts   : List Nat
  queues   : List CQueue
  ports    : List (Nat × Nat) := []
  freeFrom : Option Nat := none
  view     : View := {}
  homes    : List Nat
  deriving DecidableEq, Repr

/-- What a core context holds while it is being saved and is saved (R359, R360, R341): the save area's cursor and whether
the save is complete, its threads by rank among its slots, its track records with their heads' corrected errors, its tiles, the
stream routes to it with their ports, and the core it is saved from with the generations of its eight slots then. -/
structure Saved where
  cursor  : Nat
  done    : Bool
  threads : List (Nat × Thread)
  recs    : List (Nat × Nat × Bool × Bool × BitVec 16)
  herrs   : List Nat
  tiles   : List (Nat × Tile)
  routes  : List (Nat × Route)
  core    : Nat
  gens    : List Nat
  deriving DecidableEq, Repr

/-- The room a moving or resuming core context has taken on its target core (R357): the core, its share's offset, its
slots and its tracks there. -/
structure Seat where
  phys  : Nat
  shOff : Nat
  slots : List Nat
  tmap  : List Nat
  deriving DecidableEq, Repr

/-- CST of a core-table entry (R373). -/
inductive CSt where
  | resident | saving | saved | migrating
  deriving DecidableEq, Repr

/-- A core context (R18, R373): the physical core, reserved slots and tracks, share, track map, shared tracks, owed
leases, jobs, link queues, deque registers, the ordinal of its cluster among its launch's (R76), its target while it moves,
the launch that pre-empts it (R362; 0 for none), the messages that wait for it to be on a core again, in order of arrival
(R363, R375), and the SAVEBASE under which its save began (R373). -/
structure CoreCtx where
  phys    : Nat
  cluster : Nat := 0
  cst     : CSt := .resident
  slots   : BitVec 8 := 0
  nTracks : Nat := 0
  shOff   : Nat := 0
  shSize  : Nat := 0
  tmap    : List Nat := []
  owed    : List (Nat × Nat × Bool × Bool × BitVec 16) := []
  jobCtr  : Nat := 0
  jobs    : List JobRec := []
  west    : List Word := []
  east    : List Word := []
  dqBase  : BitVec 18 := 0
  dqEn    : Bool := false
  dqBad   : Bool := false
  dqLim   : BitVec 18 := 0
  saved   : Option Saved := none
  target  : Option Seat := none
  claim   : Nat := 0
  waiting : List Instr := []
  saveAt  : Word := 0
  deriving DecidableEq, Repr

/-- A context (R18, R33, R373): `told` says that its completion word reads suspended (R38); `dropsAt` is the clock in
which the device last counted in DROPS (R7); `gen` is the slice-map generation that the context itself has adopted
(R44); `ptp` says that a PTPOISON task has been handed for it (R308); `die` is that of the service core that took its packet
(R410). -/
structure Ctx where
  pkt      : Packet := {}
  queue    : Nat := 0
  index    : Nat := 0
  age      : Nat := 0
  run      : CtxRun := .waiting
  lost     : Bool := false
  told     : Bool := false
  ackv     : Word := 0
  mapvec   : Word := 0
  graceAt  : Option Nat := none
  limit    : W32 := 0x00400000
  drops    : W32 := 0
  dropsAt  : Option Nat := none
  troot    : Word := 0
  tpref    : Word := 0
  saveBase : Word := 0
  ncores   : Nat := 0
  binds    : List Binding := []
  bars     : Map BarSet := []
  chains   : List Chain := []
  chainCtr : Nat := 0
  ftile    : Map Nat := []
  nclus    : Nat := 1
  drain    : List (Nat × List BufItem) := []
  all      : View := {}
  ackHold  : Nat := 0
  gen      : Nat := 0
  ptp      : Bool := false
  die      : Nat := 0
  deriving DecidableEq, Repr

/-! ### Package, host and management -/

/-- A change record of the map (R31). -/
structure ChangeRec where
  version : Word
  kind    : Nat
  cls     : Nat
  cause   : Nat
  res     : Nat
  time    : Word
  old     : Nat
  new     : Nat
  deriving DecidableEq, Repr

/-- A task of a privileged queue (R353): its code and registers; for a host task (R384) its entry and its queue and
completion word; the status it ended with; its place in the order of arrival (R304). -/
structure Task where
  code  : Nat
  g1    : Word
  g2    : Word
  g3    : Word
  entry : Option Word := none
  cmpl  : Option (Nat × Word) := none
  ended : Option Nat := none
  seq   : Nat := 0
  deriving DecidableEq, Repr

/-- A fault task outstanding (R304): context, page, cause. -/
structure FaultKey where
  ctx   : Nat
  page  : Nat
  cause : Nat
  deriving DecidableEq, Repr

/-- The privileged side of a quadrant: its queue, its task vector table (R374), the task running and the fault it
serves. -/
structure Quad where
  tasks   : List Task := []
  tv      : Option Word := none
  task    : Option Task := none
  deriving DecidableEq, Repr

/-- A status that a settled packet is still owed (R54, R410): its completion word, its template's root, the die of the service
core that took it, and the status. -/
structure Owed where
  cmpl   : Word
  troot  : Word
  die    : Nat
  status : Nat
  deriving DecidableEq, Repr

/-- A host queue block with its tail and the doorbells that moved it, oldest first: the tail they set and their clock
(R380 to R382); the clocks in which the device last set ERR and TDONE (R7); the statuses still to be written. -/
structure QBlk where
  base  : Word := 0
  log2  : Nat := 0
  gang  : Nat := 0
  irq   : Bool := false
  sc    : Nat := 0
  priv  : Bool := false
  en    : Bool := false
  head  : W32 := 0
  err   : Bool := false
  tdone : Bool := false
  errAt   : Option Nat := none
  tdoneAt : Option Nat := none
  td    : Nat := 0
  tail  : W32 := 0
  marks : List (Nat × Nat) := []
  qctxI : W32 := 0
  qctxC : BitVec 16 := 0
  qctxa : Word := 0
  qtmpl : Word := 0
  owed  : List Owed := []
  deriving DecidableEq, Repr

/-- A host request on a path (R154, R378, R381): a write of bytes or a read of a length at an offset of BAR2, a read of a
length of BAR0, or a doorbell. -/
inductive HostReq where
  | write (off : Nat) (data : List Byte)
  | read (off len : Nat)
  | reg (off len : Nat)
  | bell (q val : Nat)
  deriving DecidableEq, Repr

/-- A gang block and the gang's run (R387, R365); `startAt` is the start value S, a TIMER value. -/
structure Gang where
  start   : Word := 0
  period  : Word := 0
  grace   : W32 := 55000
  members : List Nat := []
  reports : List Nat := []
  due     : Option Word := none
  bound   : Word := 0
  late    : Bool := false
  startAt : Option Word := none
  deriving DecidableEq, Repr

/-- A kill in progress (R366): context, status, killer's router, issuing thread and result, first clock, routers that
discard. -/
structure KillOp where
  ctx     : Nat
  status  : Nat
  router  : Nat
  waiters : List (Nat × Nat × Bool)
  start   : Nat
  deriving DecidableEq, Repr

/-- A retirement in progress (R39): the contexts it affects, by what they held of the resource (R34). -/
structure RetireOp where
  cls   : Nat
  res   : Nat
  cause : Nat
  old   : Nat
  held  : List Nat := []
  deriving DecidableEq, Repr

/-- The Reeve's registers (R398 to R406), flash and boot state (R395 to R397); `timerAt` is the clock in which the device last
set TIMER (R7, R390), and `timer0` is package 0's TIMER less the clock (R390). -/
structure Reeve where
  tsens    : Vector (BitVec 16) 16 := Vector.replicate 16 0
  talert   : BitVec 16 := 0x05F0
  tclear   : BitVec 16 := 0x0580
  armed    : Bool := true
  thrl     : Vector (BitVec 3) 8 := Vector.replicate 8 0
  thrlEff  : Vector (BitVec 3) 8 := Vector.replicate 8 0
  timerOff : Word := 0
  timerAt  : Option Nat := none
  timer0   : Word := 0
  alarm    : Option Word := none
  logLog2  : BitVec 4 := 9
  logBase  : BitVec 14 := 0x3C00
  logHead  : W32 := 0
  flash    : List Host.Cell := []
  counter  : Word := 0
  bank     : Option Bool := none
  revision : W32 := 0
  mapBase  : Word := 0
  shifts   : Nat := 0
  corrected : Nat := 0
  deriving DecidableEq, Repr

/-- A change of the map that is still to be published (R32): its kind, class and resource, and the clock in which it fell
due. -/
structure Due where
  kind  : Nat
  cls   : Nat
  res   : Nat
  clock : Nat
  deriving DecidableEq, Repr

/-- The Construction Map as the device holds it (R28 to R33): the version, the slice generation, the units out of
service or degraded (key 2^32·class + resource; an unlisted unit is live, an unlisted mesh link up at full speed), the
version of each unit's retirement or loss, stacks' CAP and STEP, Strelmin and CXL RATE and AUX, the change records, the
slices removed with the generation that removed each, the units and numbers as the image of the present version shows
them (img…), which change with their version, and the changes still to be published, in the order of their versions (R32). -/
structure CMap where
  version  : Word := 0
  sliceGen : Word := 0
  time     : Word := 0
  units    : Map Nat := []
  since    : Map Nat := []
  cap      : Map Nat := []
  stepN    : Map Nat := []
  rate     : Map Nat := []
  aux      : Map Nat := []
  recs     : List ChangeRec := []
  dead     : List (Nat × Nat) := []
  imgUnits : Map Nat := []
  imgCap   : Map Nat := []
  imgStepN : Map Nat := []
  imgRate  : Map Nat := []
  imgAux   : Map Nat := []
  pending  : List Due := []
  deriving DecidableEq, Repr

/-- An arrival on its way to a scratchpad barrier (R163, R189, R262): its bytes, the view it covers, its place among the
arrivals of one clock, the BARA it acknowledges (thread 0, result 0 for a job), the core it was last sent to, and whether it
has come and waits for the end of its clock. -/
structure Arrival where
  bytes : Nat
  view : View
  key  : Nat
  tk   : Nat
  rid  : Nat
  sentTo : Nat
  late : Bool := false
  deriving DecidableEq, Repr

/-- A page's fault at the prefetcher (R306, R303): the die whose service core it is due to, its core and its flags. -/
structure Fetching where
  ctx   : Nat
  page  : Nat
  die   : Nat
  core  : Nat
  flags : Nat
  deriving DecidableEq, Repr

/-- The machine. -/
structure State where
  clock     : Nat
  agenda    : List (Nat × Instr)
  ends      : List Instr
  sched     : List Nat
  freeCtr   : Nat
  idCtr     : Nat
  cur       : Nat
  turn      : Nat
  romHalted : Bool
  booted    : Bool
  mem       : List Host.Cell
  tsCtr     : Nat
  hist      : List Wr
  poison    : List Nat
  rels      : Map View
  vers      : Map Nat
  bwaits    : List (Nat × Nat × Nat)
  arrivals  : Map Arrival
  spawns    : Map Thread
  threads   : Map Thread
  slots     : Map Slot
  cores     : Map CoreSt
  tracks    : Map Track
  tiles     : Map Tile
  tileOps   : Map TileOp
  clusters  : Map Cluster
  queues    : Map JQueue
  ctxs      : Map Ctx
  cctxs     : Map CoreCtx
  cmap      : CMap
  filters   : Map (List Nat)
  faint     : List Nat
  ptPoison  : List (Nat × Nat)
  fetches   : List Fetching
  faults    : List FaultKey
  discards  : List (Nat × Nat)
  kills     : List KillOp
  retires   : List RetireOp
  quads     : Map Quad
  qblks     : Map QBlk
  hpaths    : Map (List HostReq)
  hreads    : List (List Byte)
  msix      : List Nat
  gangs     : Map Gang
  pkg       : Nat
  domain    : List Nat
  mesh      : List (Nat × Nat)
  routes    : Map Nat
  loads     : List (List (Nat × Nat × List W32))
  reeve     : Reeve
  corrupt   : List Upset
  deriving DecidableEq, Repr

/-- A blank thread: the start values of R57, at pc 0. -/
def Thread.blank : Thread := {}

/-- The machine right after reset: no launch, no map, memory with nothing listed, and the boot of R397 due at once.
Values the spec does not give are named in log 2. -/
def State.reset : State where
  clock     := 0
  agenda    := [(0, .boot)]
  ends      := []
  sched     := []
  freeCtr   := 0
  idCtr     := 0
  cur       := 0
  turn      := 0
  romHalted := false
  booted    := false
  mem       := []
  tsCtr     := 0
  hist      := []
  poison    := []
  rels      := []
  vers      := []
  bwaits    := []
  arrivals  := []
  spawns    := []
  threads   := []
  slots     := []
  cores     := []
  tracks    := []
  tiles     := []
  tileOps   := []
  clusters  := []
  queues    := []
  ctxs      := []
  cctxs     := []
  cmap      := {}
  filters   := []
  faint     := []
  ptPoison  := []
  fetches   := []
  faults    := []
  discards  := []
  kills     := []
  retires   := []
  quads     := []
  qblks     := []
  hpaths    := []
  hreads    := []
  msix      := []
  gangs     := []
  pkg       := 0
  domain    := []
  mesh      := []
  routes    := []
  loads     := []
  reeve     := {}
  corrupt   := []

/-- Why the machine stops with a fault. -/
inductive Fault where
  /-- Raised by the step once the boot of R397 has found neither firmware bank valid, the ROM has halted, and no outside
  input is due any more: nothing but the clock would change until the next reset. Safe: the spec says so. -/
  | romHalted
  deriving DecidableEq, Repr

/-- Why the model gives no meaning. -/
inductive Refusal where
  /-- An instruction the model does not give a meaning yet, by its mnemonic. Raised only by Dispatch. Safe. -/
  | notModelled (mnemonic : String)
  deriving DecidableEq, Repr

end Sys2Proof.Machine
end

