-- ==== Sys2Proof/Machine/Topology.lean ====
section
/-!
DEFINITION. Places of the package (R9 to R20): routers, dies, polders, clusters and cores; message latency (R67); the
state of units in the map (R28 to R30); home slices (R42) and stack placement (R294).
-/

namespace Sys2Proof.Machine

/-- Thread key: 8·physical core + slot. Service core d is core 0x800 + d, the Reeve 0x804 (R20), each with one
slot. -/
def tkOf (core slot : Nat) : Nat := core * 8 + slot

/-- The core of a thread key. -/
def coreOf (tk : Nat) : Nat := tk / 8

/-- The slot of a thread key. -/
def slotOf (tk : Nat) : Nat := tk % 8

/-- Whether a core is one of the 2,048 compute cores (R16, R20). -/
def isCompute (core : Nat) : Bool := decide (core < 2048)

/-- Router of a core, as cluster number 16·y + x (R9, R16). -/
def routerOf (core : Nat) : Nat :=
  if core < 2048 then core / 8
  else if core < 0x804 then 16 * (8 * ((core - 0x800) / 2)) + 8 * ((core - 0x800) % 2)
  else 0

/-- x of a router. -/
def rx (r : Nat) : Nat := r % 16

/-- y of a router. -/
def ry (r : Nat) : Nat := r / 16 % 16

/-- The die of a router (R9). -/
def dieOf (r : Nat) : Nat := 2 * (ry r / 8) + rx r / 8

/-- The polder of a router (R15). -/
def polderOf (r : Nat) : Nat := 2 * dieOf r + (if rx r % 8 ≥ 4 then 1 else 0)

/-- Distance of two numbers. -/
def absDiff (a b : Nat) : Nat := if a ≤ b then b - a else a - b

/-- Router hops without a detour (R67). -/
def manhattan (a b : Nat) : Nat := absDiff (rx a) (rx b) + absDiff (ry a) (ry b)

/-- Die crossings (R10). -/
def crossings (a b : Nat) : Nat :=
  (if rx a / 8 = rx b / 8 then 0 else 1) + (if ry a / 8 = ry b / 8 then 0 else 1)

/-- Resource classes of R31. -/
def clsCore : Nat := 1
def clsTrack : Nat := 2
def clsEngine : Nat := 3
def clsCopy : Nat := 4
def clsSlice : Nat := 5
def clsLink : Nat := 6
def clsStack : Nat := 7
def clsDie : Nat := 8
def clsStrelmin : Nat := 9
def clsCxl : Nat := 10

/-- Key of a unit. -/
def unitKey (cls res : Nat) : Nat := cls * 2 ^ 32 + res

/-- State of a unit as R29 codes it (a mesh link: R30); an unlisted Strelmin link or CXL port reads lost (R30). -/
def unitState (m : CMap) (cls res : Nat) : Nat :=
  mgetD m.units (unitKey cls res) (if cls = clsStrelmin ∨ cls = clsCxl then 3 else 0)

/-- Whether a unit serves: live or degraded (R29). -/
def inService (m : CMap) (cls res : Nat) : Bool := decide (unitState m cls res < 2)

/-- Whether a mesh link is down (R30). -/
def linkDown (m : CMap) (router dir : Nat) : Bool := decide (unitState m clsLink (4 * router + dir) / 4 = 2)

/-- Whether the x-then-y route between two routers crosses a down link (R10). -/
def routeDown (m : CMap) (a b : Nat) : Bool :=
  let y := ry a
  let xs := (List.range 16).any fun x =>
    (decide (rx a ≤ x ∧ x < rx b) && linkDown m (16 * y + x) 1) ||
    (decide (rx b < x ∧ x ≤ rx a) && linkDown m (16 * y + x) 3)
  let ys := (List.range 16).any fun y' =>
    (decide (ry a ≤ y' ∧ y' < ry b) && linkDown m (16 * y' + rx b) 0) ||
    (decide (ry b < y' ∧ y' ≤ ry a) && linkDown m (16 * y' + rx b) 2)
  xs || ys

/-- Whether a number lies between two others, in either order. -/
def between (x a b : Nat) : Bool := decide (min a b ≤ x ∧ x ≤ max a b)

/-- Whether a router lies on the x-then-y route between two routers, its ends among them (R10). -/
def onRoute (a b r : Nat) : Bool :=
  (ry r == ry a && between (rx r) (rx a) (rx b)) || (rx r == rx b && between (ry r) (ry a) (ry b))

/-- Hops of the route taken: the Manhattan distance, or more on a detour (R67, R41). -/
def hops (m : CMap) (a b : Nat) : Nat :=
  manhattan a b + (if routeDown m a b then Config.detourHops a b else 0)

/-- Message latency 8 + 2h + 6d (R67). -/
def latency (m : CMap) (a b : Nat) : Nat := 8 + 2 * hops m a b + 6 * crossings a b

/-- Latency of a migrating record (R74). -/
def recLatency (m : CMap) (a b : Nat) : Nat := 2 * hops m a b + 6 * crossings a b + 13

/-- Latency of the sluice between routers (R377). -/
def sluiceLatency (m : CMap) (a b : Nat) : Nat := 2 * hops m a b + 6 * crossings a b

/-! ### Home slices (R42) -/

/-- Whether a slice is out of service under a slice-map generation. -/
def sliceDeadUnder (m : CMap) (gen slice : Nat) : Bool := m.dead.any fun e => decide (e.1 ≤ gen) && e.2 == slice

/-- Probe i of the fixed sequence of a physical address (R42). -/
def probe (pa i : Nat) : Nat :=
  let l := pa / 256
  let f := fun hi lo => l / 2 ^ lo % 2 ^ (hi + 1 - lo)
  let a := (((((f 7 0) ^^^ (f 15 8)) ^^^ (f 23 16)) ^^^ (f 31 24)) ^^^ (f 39 32)) ^^^ (f 43 40)
  let st := (((f 14 8) ^^^ (f 30 24)) ^^^ (f 42 36)) * 2 + 1
  (a + i * st) % 256

/-- The first live slice of a line's probe sequence under a generation. -/
def homeSlice (m : CMap) (gen pa : Nat) : Nat :=
  match (List.range 256).find? fun i => !sliceDeadUnder m gen (probe pa i) with
  | some i => probe pa i
  | none => probe pa 0

/-! ### Stacks (R294) -/

/-- Usable capacity of a stack in MiB (R30). -/
def capOf (m : CMap) (p : Nat) : Nat := mgetD m.cap p Config.stackCap

/-- The stacks in service, ascending. -/
def liveStacks (m : CMap) : List Nat := natsWhere 8 fun p => inService m clsStack p

/-- The summed capacity of the stacks in service, in bytes. -/
def hbmBytes (m : CMap) : Nat := (liveStacks m).foldl (fun a p => a + capOf m p * 2 ^ 20) 0

/-- The tiers of R294: the stack of a granule. -/
def stackOfGranule (m : CMap) (g : Nat) : Nat → Nat → Nat → List Nat → Option Nat
  | 0, _, _, _ => none
  | fuel + 1, base, done, set =>
    match set with
    | [] => none
    | _ =>
      let c := set.foldl (fun a p => min a (capOf m p * 256 - done)) (2 ^ 60)
      let k := set.length
      if g < base + k * c then (set[(g - base) % k]?)
      else stackOfGranule m g fuel (base + k * c) (done + c) (set.filter fun p => decide (done + c < capOf m p * 256))

/-- The stack that holds an HBM offset. -/
def stackOf (m : CMap) (off : Nat) : Option Nat := stackOfGranule m (off / 4096) 9 0 0 (liveStacks m)

/-! ### Locations (log 14) -/

/-- The location of a byte of a core context's share, by the core context's key. -/
def sramLoc (key off : Nat) : Nat := 2 ^ 52 + key * 2 ^ 18 + off

/-- Whether a location is a byte of a share. -/
def isSram (loc : Nat) : Bool := decide (2 ^ 52 ≤ loc)

/-- The key of the core context whose share holds a location. -/
def sramKey (loc : Nat) : Nat := (loc - 2 ^ 52) / 2 ^ 18

/-- The offset of a location in its share. -/
def sramOff (loc : Nat) : Nat := (loc - 2 ^ 52) % 2 ^ 18

/-- The key of a core context of another package (R24): above every key of this one. -/
def peerKey (pkg key : Nat) : Nat := (pkg + 1) * 2 ^ 28 + key

/-- The package of a share of another package, none for this one's. -/
def peerOf (loc : Nat) : Option Nat :=
  if isSram loc ∧ 2 ^ 28 ≤ sramKey loc then some (sramKey loc / 2 ^ 28 - 1) else none

/-- PA[51:48] of a physical location. -/
def regionOf (loc : Nat) : Nat := loc / 2 ^ 48 % 16

end Sys2Proof.Machine
end

