-- ==== Sys2Proof/Machine/Ops.lean ====
section
/-!
DEFINITION. The named operations over threads, registers, runs and results: what retiring an instruction does (R64),
taking an exception (R125) and returning from one (R126), reading and writing registers with results outstanding
(R65), variable results and their return (R63, R66), scheduling, and tasks of the privileged queues (R353).
-/

namespace Sys2Proof.Machine

open Host

/-! ### Parts of the state -/

/-- The thread of a key. -/
def getT (s : State) (tk : Nat) : Thread := mgetD s.threads tk Thread.blank

/-- Replace a thread. -/
def setT (s : State) (tk : Nat) (t : Thread) : State := { s with threads := mset s.threads tk t }

/-- Change a thread that exists. -/
def modT (s : State) (tk : Nat) (f : Thread → Thread) : State :=
  match mget s.threads tk with
  | some t => setT s tk (f t)
  | none => s

/-- The thread whose instruction is being executed. -/
def curT (s : State) : Thread := getT s s.cur

/-- Replace the executing thread. -/
def putT (s : State) (t : Thread) : State := setT s s.cur t

/-- A slot. -/
def slotAt (s : State) (tk : Nat) : Slot := mgetD s.slots tk {}

/-- Replace a slot. -/
def setSlot (s : State) (tk : Nat) (x : Slot) : State := { s with slots := mset s.slots tk x }

/-- A core. -/
def coreAt (s : State) (c : Nat) : CoreSt := mgetD s.cores c {}

/-- Replace a core. -/
def setCore (s : State) (c : Nat) (x : CoreSt) : State := { s with cores := mset s.cores c x }

/-- A context. -/
def getCtx (s : State) (c : Nat) : Option Ctx := mget s.ctxs c

/-- A context, or an empty one. -/
def ctxD (s : State) (c : Nat) : Ctx := mgetD s.ctxs c {}

/-- Replace a context. -/
def setCtx (s : State) (c : Nat) (x : Ctx) : State := { s with ctxs := mset s.ctxs c x }

/-- Change a context that exists. -/
def modCtx (s : State) (c : Nat) (f : Ctx → Ctx) : State :=
  match getCtx s c with
  | some x => setCtx s c (f x)
  | none => s

/-- Key of a core context. -/
def ccKey (c l : Nat) : Nat := c * 4096 + l

/-- A core context. -/
def getCC (s : State) (c l : Nat) : Option CoreCtx := mget s.cctxs (ccKey c l)

/-- Replace a core context. -/
def setCC (s : State) (c l : Nat) (x : CoreCtx) : State := { s with cctxs := mset s.cctxs (ccKey c l) x }

/-- Change a core context that exists. -/
def modCC (s : State) (c l : Nat) (f : CoreCtx → CoreCtx) : State :=
  match getCC s c l with
  | some x => setCC s c l (f x)
  | none => s

/-- The logical cores of a context with their core contexts, ascending. -/
def ccsOf (s : State) (c : Nat) : List (Nat × CoreCtx) :=
  (s.cctxs.filter fun e => e.1 / 4096 == c).map fun e => (e.1 % 4096, e.2)

/-- The core that holds the share of a location; router 0, by the Reeve, for a share of another package (R24, log 20). -/
def sramCore (s : State) (loc : Nat) : Nat := match mget s.cctxs (sramKey loc) with
  | some cc => cc.phys
  | none => 0x804

/-- Whether a location's share belongs to a core context that is being saved or moved, or is saved: requests to it wait
(R363, R375). -/
def heldShare (s : State) (loc : Nat) : Bool :=
  isSram loc && (mget s.cctxs (sramKey loc)).any fun cc => cc.cst != .resident

/-- The router of a location's home under a generation (R42, R172, R291): the holding core of a share, else the home
slice, host memory and other packages' memory included. -/
def homeRouter (s : State) (gen loc : Nat) : Nat :=
  if isSram loc then routerOf (sramCore s loc) else homeSlice s.cmap gen loc

/-- A cluster. -/
def clusterAt (s : State) (n : Nat) : Cluster := mgetD s.clusters n {}

/-- Replace a cluster. -/
def setCluster (s : State) (n : Nat) (x : Cluster) : State := { s with clusters := mset s.clusters n x }

/-- The slice-map generation that stamps a context's requests from a core (R44): the context's own, or a later one that
the core's cluster has adopted for it by a rehash. -/
def genFor (s : State) (c core : Nat) : Nat :=
  max (ctxD s c).gen (if isCompute core then mgetD (clusterAt s (core / 8)).gens c 0 else s.cmap.sliceGen.toNat)

/-- An engine queue: 5·cluster + 0 for qm, + 1 to 4 for qc0 to qc3; 1280 for qcl (R142). -/
def queueAt (s : State) (q : Nat) : JQueue := mgetD s.queues q {}

/-- Replace an engine queue. -/
def setQueue (s : State) (q : Nat) (x : JQueue) : State := { s with queues := mset s.queues q x }

/-- The package's collective queue. -/
def qclKey : Nat := 1280

/-- A track: 64·core + track. -/
def trackAt (s : State) (k : Nat) : Track := mgetD s.tracks k {}

/-- Replace a track. -/
def setTrack (s : State) (k : Nat) (x : Track) : State := { s with tracks := mset s.tracks k x }

/-- A tile: 16·core + tile. -/
def tileAt (s : State) (k : Nat) : Tile := mgetD s.tiles k {}

/-- Replace a tile. -/
def setTile (s : State) (k : Nat) (x : Tile) : State := { s with tiles := mset s.tiles k x }

/-- The privileged side of a quadrant. -/
def quadAt (s : State) (d : Nat) : Quad := mgetD s.quads d {}

/-- Replace it. -/
def setQuad (s : State) (d : Nat) (x : Quad) : State := { s with quads := mset s.quads d x }

/-- Whether a kill of a context is in progress. -/
def dying (s : State) (c : Nat) : Bool := s.kills.any fun k => k.ctx == c

/-- Whether a location lies in a share of this package that no core holds any more: its core context is gone. -/
def lostShare (s : State) (loc : Nat) : Bool := isSram loc && (peerOf loc).isNone && (mget s.cctxs (sramKey loc)).isNone

/-- Whether what a context sends from a core to a location is discarded (R366, R377): the context is being killed, and the
sluice has passed a router of the way, or has reset the core that held the share. -/
def discarded (s : State) (c core loc : Nat) : Bool :=
  dying s c && (lostShare s loc ||
    s.discards.any fun d => d.1 == c && onRoute (routerOf core) (homeRouter s (genFor s c core) loc) d.2)

/-- The context of the executing thread. -/
def curCtx (s : State) : Ctx := ctxD s (curT s).ctx

/-- The slice-map generation of the executing thread's requests (R44). -/
def curGen (s : State) : Nat := genFor s (curT s).ctx (coreOf s.cur)

/-! ### Messages to threads (R68, R69) -/

/-- What a message to a thread carries beside its slot (R68): 256 times its context, and the slot's generation. -/
def stamp (s : State) (tk : Nat) : Nat := 256 * (getT s tk).ctx + (slotAt s tk).gen.toNat

/-- Where a message goes (R68), as one number: its slot below 2^16, and above it the context and generation it carries. -/
def addressOf (s : State) (tk : Nat) : Nat := 65536 * stamp s tk + tk

/-- The slot a message goes to, and what it carries beside it. -/
def msgSlot (dest : Nat) : Nat := dest % 65536
def msgStamp (dest : Nat) : Nat := dest / 65536 % 2 ^ 48

/-- The clock of arming that a monitor's notice carries above the rest (R182, R184). -/
def armStamp (armed : Nat) : Nat := 2 ^ 64 * armed
def msgArm (dest : Nat) : Nat := dest / 2 ^ 64

/-- Whether a message finds its thread: the slot holds a thread under the generation that the message carries (R69). -/
def hereFor (s : State) (tk stmp : Nat) : Bool := (mget s.threads tk).isSome && (slotAt s tk).gen.toNat == stmp % 256

/-- Count a dropped message of a context (R69, R70). -/
def countDrop (s : State) (c : Nat) : State :=
  modCtx s c fun x => { x with drops := if x.drops = 0xFFFFFFFF then x.drops else x.drops + 1, dropsAt := some s.clock }

/-- A message for a core context that is on no core waits there (R363, R375). -/
def holdAt (s : State) (c l : Nat) (i : Instr) : State := modCC s c l fun cc => { cc with waiting := cc.waiting ++ [i] }

/-! ### Time -/

/-- Put a device step on the agenda, d clocks from now. -/
def later (s : State) (d : Nat) (i : Instr) : State := { s with agenda := insertTimed (s.clock + d) i s.agenda }

/-- Put a device step on the agenda at a clock, not before this one. -/
def laterAt (s : State) (t : Nat) (i : Instr) : State := { s with agenda := insertTimed (max t s.clock) i s.agenda }

/-- Put a device step at the end of this clock, after its issue turns and before anything of the next clock. -/
def atClockEnd (s : State) (i : Instr) : State := { s with ends := s.ends ++ [i] }

/-- Take the next delay of the tape, below a bound (log 3). -/
def takeDelay (s : State) (lim : Nat) : Nat × State :=
  match s.sched with
  | [] => (0, s)
  | d :: r => (d % lim, { s with sched := r })

/-- A fresh name. -/
def newId (s : State) : Nat × State := (s.idCtr + 1, { s with idCtr := s.idCtr + 1 })

/-- Message latency between two cores (R67). -/
def coreLat (s : State) (a b : Nat) : Nat := latency s.cmap (routerOf a) (routerOf b)

/-- The Reeve's TIMER (R401): a count that rises once a clock. -/
def timerNow (s : State) : Word := s.reeve.timerOff + w64 s.clock

/-- The messages that wait for a core context go on, in order of arrival (R375). -/
def releaseHeld (s : State) (c l : Nat) : State :=
  match getCC s c l with
  | some cc => cc.waiting.foldl (fun s i => later s 0 i) (setCC s c l { cc with waiting := [] })
  | none => s

/-! ### Program counters (R101) -/

/-- The pc that follows (R101). -/
def nextPc (pc : Word) : Word := if pc.toNat % 8 < 4 then pc + 1 else pc + 60

/-- The slot index of a pc plus an offset (R101). -/
def slotIndex (pc : Word) (d : Int) : Int := ((pc.toNat / 64 % 2 ^ 50 : Nat) : Int) * 5 + ((pc.toNat % 8 : Nat) : Int) + d

/-- The pc of a slot index (R101); div and mod round toward −∞. -/
def pcOfIndex (n : Int) : Int := (n / 5) * 64 + n % 5

/-- The target of offset d at a pc, or the slot index where it lies outside 0 .. 2^56−1 (R101). -/
def slotTarget (pc : Word) (d : BitVec 24) : Except Word Word :=
  let n := slotIndex pc d.toInt
  let t := pcOfIndex n
  if 0 ≤ t ∧ t < 2 ^ 56 then .ok (w64i t) else .error (w64i n)

/-! ### Registers (R65) -/

/-- Whether a register awaits a result (R65). -/
def pendingReg (t : Thread) (r : RegId) : Bool := t.res.any fun x => x.dst.contains r

/-- The value a pending scalar result will bring, if it is known. -/
def pendingG (t : Thread) (r : Fin 16) : Option Word :=
  t.res.findSome? fun x => x.vals.findSome? fun w =>
    match w with
    | .g r' v => if r' = r then some v else none
    | _ => none

/-- The value a pending predicate result will bring, if it is known. -/
def pendingC (t : Thread) (r : Fin 32) : Option Bool :=
  t.res.findSome? fun x => x.vals.findSome? fun w =>
    match w with
    | .c r' v => if r' = r then some v else none
    | _ => none

/-- The value a pending vector result will bring, if it is known. -/
def pendingV (t : Thread) (r : Fin 32) : Option Vec :=
  t.res.findSome? fun x => x.vals.findSome? fun w =>
    match w with
    | .v r' v => if r' = r then some v else none
    | _ => none

/-- Read a scalar register: with a result outstanding, the old or the new value (R65, log 4). -/
def readG (s : State) (t : Thread) (r : Fin 16) : Word :=
  if pendingReg t (.g r) then
    (if Config.freeBit s.freeCtr r.val then (pendingG t r).getD (Config.freeWord s.freeCtr r.val) else t.g[r])
  else t.g[r]

/-- Bit n of PW; c0 reads 1 (R46). -/
def pwBit (t : Thread) (c : Fin 32) : Bool := c == 0 || t.pw.getLsbD c.val

/-- Read a scalar predicate: c0 reads 1 (R46); with a result outstanding, the old or the new value (R65, log 4). -/
def readC (s : State) (t : Thread) (c : Fin 32) : Bool :=
  if c = 0 then true
  else if pendingReg t (.c c) then
    (if Config.freeBit s.freeCtr (32 + c.val) then
      (pendingC t c).getD (Config.freeBit s.freeCtr (64 + c.val)) else pwBit t c)
  else pwBit t c

/-- Read a vector register: with a result outstanding, the old or the new value (R65, log 4). -/
def readV (s : State) (t : Thread) (r : Fin 32) : Vec :=
  if pendingReg t (.v r) then
    (if Config.freeBit s.freeCtr (96 + r.val) then (pendingV t r).getD (Config.freeVec s.freeCtr r.val) else t.v[r])
  else t.v[r]

/-- Later writes win: an outstanding result no longer writes a register written since (R65). -/
def cancelReg (t : Thread) (r : RegId) : Thread :=
  { t with res := t.res.map fun x => { x with dst := x.dst.filter (· != r) } }

/-- Set a bit of PW; c0 keeps 1 (R46, R110). -/
def setPw (pw : W32) (c : Fin 32) (b : Bool) : W32 :=
  if c = 0 then pw
  else if b then pw ||| (1#32 <<< c.val) else pw &&& ~~~(1#32 <<< c.val)

/-- Write a scalar register as a fixed result. -/
def writeG (t : Thread) (r : Fin 16) (x : Word) : Thread :=
  let t' := cancelReg t (.g r)
  { t' with g := t'.g.set r x }

/-- Write a scalar predicate as a fixed result; a write to c0 is ignored (R110). -/
def writeC (t : Thread) (c : Fin 32) (b : Bool) : Thread :=
  let t' := cancelReg t (.c c)
  { t' with pw := setPw t'.pw c b }

/-- Write a vector register as a fixed result. -/
def writeV (t : Thread) (r : Fin 32) (x : Vec) : Thread :=
  let t' := cancelReg t (.v r)
  { t' with v := t'.v.set r x }

/-- Write a vector predicate; a write to p0 is ignored (R217). -/
def writeP (t : Thread) (r : Fin 8) (x : VPred) : Thread :=
  if r = 0 then t else { t with p := t.p.set r x }

/-- A register write of a result. -/
def applyW (t : Thread) : RegW → Thread
  | .g r x => { t with g := t.g.set r x }
  | .c r b => { t with pw := setPw t.pw r b }
  | .v r x => { t with v := t.v.set r x }

/-- The register a write names. -/
def RegW.reg : RegW → RegId
  | .g r _ => .g r
  | .c r _ => .c r
  | .v r _ => .v r

/-! ### Privileged queues and kills -/

/-- Hand a task to a quadrant's privileged queue (R353). -/
def pushTask (s : State) (d : Nat) (k : Task) : State :=
  let (n, s1) := newId s
  let q := quadAt s1 d
  later (setQuad s1 d { q with tasks := q.tasks ++ [{ k with seq := n }] }) 1 (.taskStart d)

/-- Latch an interrupt of a service core or the Reeve: code 0x40 + n (R407). -/
def latchInt (s : State) (core n : Nat) : State :=
  let c := coreAt s core
  setCore s core { c with pend := c.pend ||| BitVec.ofNat 4 (2 ^ n) }

/-- The quadrants a context occupies (R35). -/
def quadsOf (s : State) (c : Nat) : List Nat :=
  natsWhere 4 fun d => (ccsOf s c).any fun e => dieOf (routerOf e.2.phys) == d

/-- The routers a context's cores stand at, those that its moves have reserved among them. -/
def routersOf (s : State) (c : Nat) : List Nat :=
  natsWhere 256 fun r => (ccsOf s c).any fun e => routerOf e.2.phys == r || e.2.target.any fun t => routerOf t.phys == r

/-- The clock a kill's confirmation takes (R366, R377): the wave and the reply to the farthest core, with 8 clocks of
reset between them. -/
def confirmTime (s : State) (c router : Nat) : Nat :=
  8 + 2 * (routersOf s c).foldl (fun a r => max a (sluiceLatency s.cmap router r)) 0

/-- Begin a kill of a context (R366): the wave leaves the killer's router for every router of the mesh. -/
def startKill (s : State) (c status router : Nat) (waiters : List (Nat × Nat × Bool)) : State :=
  if dying s c then
    { s with kills := s.kills.map fun k => if k.ctx = c then { k with waiters := k.waiters ++ waiters } else k }
  else
    let s1 := { s with kills := s.kills ++ [{ ctx := c, status := status, router := router, waiters := waiters, start := s.clock }] }
    let s2 := modCtx s1 c fun x => { x with run := .dying }
    let s3 := (List.range 256).foldl
      (fun s r => later s (sluiceLatency s.cmap router r) (.sluiceArrive c r)) s2
    later s3 (confirmTime s c router) (.killConfirm c)

/-! ### Exceptions (R125, R126) -/

/-- Entry of a handler: what R125 changes in the thread. -/
def trapEntry (t : Thread) (tr : TrapReq) : Thread :=
  { t with cause := tr.cause, tval := tr.tval, epc := tr.epc &&& 0x00FFFFFFFFFFFFC7, inh := true, pc := t.tvec,
           entry := .handler, run := {}, ended := false, trapP := none, held := none }

/-- The fresh thread of a service core or the Reeve at its firmware entry (R354, log 13). It starts with the empty view
(log 47). -/
def firmwareThread (s : State) (core : Nat) : Thread :=
  { Thread.blank with
    priv := if core = 0x804 then 0 else 1
    pc := if core = 0x804 then Config.firmwareEntry (s.reeve.bank.getD false) else Config.serviceEntry (core - 0x800) }

/-- A trap that no handler of a service core or the Reeve takes (R353, R354): a task ends and the core goes on with
the next one; else the core halts and is restarted at its firmware entry. -/
def privTrap (s : State) (tk : Nat) : State :=
  let core := coreOf tk
  let d := core - 0x800
  let t := getT s tk
  match (if core = 0x804 then none else (quadAt s d).task) with
  | some k =>
    let s1 := later (setQuad s d { quadAt s d with task := some { k with ended := some 0x80 } }) 1 (.taskStart d)
    if t.tvec = 0 then
      setSlot { s1 with threads := mdel s1.threads tk } tk { slotAt s1 tk with occ := .free, freed := some s1.clock }
    else setT s1 tk (firmwareThread s core)
  | none => setT s tk (firmwareThread s core)

/-- Take a trap with no result outstanding (R125): enter the handler, or, with none or inside one, kill the context
with status 0x82 (service cores and the Reeve: R353, R354). -/
def enterTrap (s : State) (tk : Nat) (tr : TrapReq) : State :=
  let t := getT s tk
  if t.tvec = 0 ∨ t.inh then
    (if isCompute (coreOf tk) then startKill s t.ctx 0x82 (routerOf (coreOf tk)) [] else privTrap s tk)
  else setT s tk (trapEntry t tr)

/-- Take a trap (R125): at once, or once every outstanding variable result has returned. -/
def takeTrap (s : State) (tk : Nat) (tr : TrapReq) : State :=
  let t := getT s tk
  if t.res = [] then enterTrap s tk tr
  else setT s tk { t with trapP := some tr }

/-- The executing thread takes a trap. -/
def trap (s : State) (cause : BitVec 8) (tval epc : Word) : State :=
  takeTrap s s.cur { cause := cause, tval := tval, epc := epc }

/-- A trap whose EPC is the instruction. -/
def trapHere (s : State) (cause : BitVec 8) (tval : Word) : State := trap s cause tval (curT s).pc

/-! Cause codes (R351). -/
def cILLOP : BitVec 8 := 0x01
def cPRIV : BitVec 8 := 0x02
def cBADTGT : BitVec 8 := 0x03
def cFETCHPAR : BitVec 8 := 0x04
def cALIGN : BitVec 8 := 0x05
def cPROT : BitVec 8 := 0x06
def cDIVZ : BitVec 8 := 0x07
def cFPX : BitVec 8 := 0x08
def cSDC : BitVec 8 := 0x09
def cTRKERR : BitVec 8 := 0x0A
def cTRKOWN : BitVec 8 := 0x0B
def cTILEERR : BitVec 8 := 0x0C
def cCHAINERR : BitVec 8 := 0x0D
def cDQERR : BitVec 8 := 0x0E
def cSTRMERR : BitVec 8 := 0x0F
def cMAPSTALE : BitVec 8 := 0x10
def cMAPEVT : BitVec 8 := 0x11
def cTRAPI : BitVec 8 := 0x12
def cDEADRES : BitVec 8 := 0x13

/-- The executing thread traps ILLOP at its instruction (R116, R117). -/
def illop (i : Instr) (s : State) : State := trapHere s cILLOP (tvalOf i)

/-- The executing thread traps PRIV (R116, order 6). -/
def privTrapI (i : Instr) (s : State) : State := trapHere s cPRIV (tvalOf i)

/-! ### Runs (R64, R347 to R350) -/

/-- The deferred trap a run ends with: SDC before a lost reply before FPX (R349, R350, log 37). -/
def deferred (t : Thread) : Option TrapReq :=
  match t.run.sdc with
  | some (pc, closer) =>
    some { cause := cSDC, tval := pc ||| (if closer then 0x8000000000000000 else 0), epc := t.run.first }
  | none =>
    match t.run.lost with
    | some tr => some tr
    | none => t.run.fpx.map fun pc => { cause := cFPX, tval := pc, epc := t.pc }

/-- Whether the target of a branch or a start has still to be checked when its line is fetched (R102). -/
def checkDue (t : Thread) : Bool := match t.entry with
  | .branch _ => true
  | .start => true
  | _ => false

/-- The end of a run whose results are all back: take its deferred trap, or go on. A branch at the marker is checked first,
since its BADTGT supersedes the deferred trap (R350). -/
def finishRun (s : State) (tk : Nat) : State :=
  let t := getT s tk
  match deferred t with
  | some tr =>
    if checkDue t then setT s tk { t with ended := true }
    else enterTrap (setT s tk { t with run := {}, ended := false }) tk tr
  | none => setT s tk { t with run := {}, ended := false }

/-- What a thread that waits for its results does once the last one is back. -/
def settle (s : State) (tk : Nat) : State :=
  let t := getT s tk
  if t.res = [] then
    match t.trapP with
    | some tr => enterTrap s tk tr
    | none => if t.ended then finishRun s tk else s
  else s

/-- The run a thread is in, at an instruction. -/
def runAt (t : Thread) : Run := if t.run.live then t.run else { t.run with live := true, first := t.pc }

/-- Complete the executing instruction (R64, R62): go to a pc, hold for PACE, end the run at the switch marker. -/
def retireTo (h : Hdr) (pc : Word) (s : State) : State :=
  let t := curT s
  let t1 := { t with run := runAt t, pc := pc, hold := s.clock + 1 + h.pace.val }
  if h.sw then
    (if t.res = [] then finishRun (putT s t1) s.cur else putT s { t1 with ended := true })
  else putT s t1

/-- Complete the executing instruction and go on with the next. -/
def retire (h : Hdr) (s : State) : State := retireTo h (nextPc (curT s).pc) s

/-- Hold the executing thread at its instruction, which is tried again in the next clock; this turn passes to the core's
other slots, as if the held one had not had it (R59, R66). -/
def retry (s : State) : State :=
  let core := coreOf s.cur
  let s1 := putT s { curT s with hold := s.clock + 1 }
  { setCore s1 core { coreAt s1 core with last := (coreAt s1 core).prev } with turn := core }

/-- Hold the thread n clocks after its instruction, as PACE n does (R133, R62, log 27). -/
def holdFor (n : Nat) (s : State) : State :=
  let t := curT s
  putT s { t with hold := max t.hold (s.clock + 1 + n) }

/-! ### Guards (R108) -/

/-- Whether both guards hold. -/
def guardsHold (h : Hdr) (s : State) : Bool :=
  let t := curT s
  ((readC s t h.ga != h.gan) && (readC s t h.gb != h.gbn))

/-- Execute an instruction (R108, R349): with a guard clear, or after a shadow disagreement in its run, it changes
nothing and only its marker acts; else its effect follows. -/
def issue (h : Hdr) (s : State) (eff : State → State) : Outcome State Fault Refusal :=
  .next (if guardsHold h s && (curT s).run.sdc.isNone then eff s else retire h s)

/-- Execute an instruction that service cores and the Reeve do not have (R117). -/
def issueC (i : Instr) (h : Hdr) (s : State) (eff : State → State) : Outcome State Fault Refusal :=
  if isCompute (coreOf s.cur) then issue h s eff else .next (illop i s)

/-- Execute an instruction of a level: above it the thread traps PRIV (R115, R116). -/
def issueL (lvl : Nat) (i : Instr) (h : Hdr) (s : State) (eff : State → State) : Outcome State Fault Refusal :=
  if (curT s).priv.toNat ≤ lvl then issue h s eff else .next (privTrapI i s)

/-! ### Variable results (R63, R66) -/

/-- The most results a thread has outstanding (R66). -/
def maxRes : Nat := 16

/-- Add an outstanding result to the executing thread; registers it will write await it alone. A write to c0 is ignored
(R110). -/
def addRes (s : State) (r : Res) : State :=
  let dst := r.dst.filter (· != .c 0)
  let t := dst.foldl cancelReg (curT s)
  putT s { t with res := t.res ++ [{ r with dst := dst }] }

/-- A result that needs room among the sixteen (R66): without it the thread is held. -/
def withRoom (s : State) (eff : State → State) : State :=
  if (curT s).res.length < maxRes then eff s else retry s

/-- The executing instruction's variable result with known register values, returned in d clocks, of a memory read that left in
this clock or of none. -/
def resultFrom (h : Hdr) (d : Nat) (read : Option Req) (vals : List RegW) (s : State) : State :=
  let (id, s1) := newId s
  let r : Res := { id := id, pc := (curT s1).pc, dst := vals.map RegW.reg, vals := vals, wait := .none, join := none, evt := 0,
                   again := read, sent := s.clock }
  retire h (later (addRes s1 r) d (.resultReturn s1.cur id))

/-- The executing instruction's variable result with known register values, returned in d clocks. -/
def resultIn (h : Hdr) (d : Nat) (vals : List RegW) (s : State) : State := resultFrom h d none vals s

/-- The executing instruction's result that a wait or a request will give. -/
def resultWait (dst : List RegId) (w : Wait) (s : State) : Nat × State :=
  let (id, s1) := newId s
  let r : Res := { id := id, pc := (curT s1).pc, dst := dst, vals := [], wait := w, join := none, evt := 0, fence := (curT s1).fence }
  (id, addRes s1 r)

/-- An outstanding result of a thread. -/
def findRes (t : Thread) (rid : Nat) : Option Res := t.res.find? fun r => r.id == rid

/-- Change an outstanding result. -/
def modRes (t : Thread) (rid : Nat) (f : Res → Res) : Thread :=
  { t with res := t.res.map fun r => if r.id == rid then f r else r }

/-- Join of two views: the later write at each location (R143). -/
def View.join (a b : View) : View where
  base := max a.base b.base
  rng := a.rng ++ b.rng
  pts := a.pts ++ b.pts

/-- A result returns (R64, R65): its registers that still await it are written, its view is joined, the EVT bits it
reports are cleared, a lost reply raises its deferred cause. -/
def returnRes (t : Thread) (r : Res) : Thread :=
  let t1 := r.vals.foldl (fun t w => if r.dst.contains w.reg then applyW t w else t) t
  let t2 := { t1 with res := t.res.filter fun x => x.id != r.id, evt := t1.evt &&& ~~~r.evt }
  let t3 := match r.join with
    | some v => { t2 with view := t2.view.join v }
    | none => t2
  match r.lost with
  | some (stale, ver) =>
    if t3.run.lost.isSome then t3
    else { t3 with run := { t3.run with
      lost := some { cause := if stale then cMAPSTALE else cDEADRES, tval := ver, epc := r.pc } } }
  | none => t3

/-- The bits of EVT that the device has set in a clock (R7). -/
def evtFresh (t : Thread) (clock : Nat) : BitVec 7 := if t.evtAt = clock then t.evtNew else 0

/-- The bits of FXF that the device has set in a clock (R7). -/
def fxfFresh (t : Thread) (clock : Nat) : BitVec 6 := if t.fxfAt = clock then t.fxfNew else 0

/-- Latch EVT bits of a thread in a clock (R80). -/
def latchEvt (clock : Nat) (t : Thread) (bits : BitVec 7) : Thread :=
  { t with evt := t.evt ||| bits, evtNew := evtFresh t clock ||| bits, evtAt := clock }

/-- EVT bits (R80). -/
def evTMO : BitVec 7 := 1
def evMWR : BitVec 7 := 2
def evMDSP : BitVec 7 := 4
def evBPH : BitVec 7 := 8
def evJOB : BitVec 7 := 16
def evCHQ : BitVec 7 := 32
def evSTRM : BitVec 7 := 64

/-- End a wait: the result's values, the EVT bits it latches and reports, the view it joins; it returns in d clocks. -/
def endWait (s : State) (tk rid : Nat) (vals : List RegW) (bits : BitVec 7) (join : Option View) (d : Nat) : State :=
  match findRes (getT s tk) rid with
  | some r =>
    if r.wait = .none then s
    else
      let t := modRes (latchEvt s.clock (getT s tk) bits) rid fun r => { r with vals := vals, wait := .none, join := join, evt := bits }
      later (setT s tk t) d (.resultReturn tk rid)
  | none => s

/-- The thread keys of a context that are in slots. -/
def threadsOf (s : State) (c : Nat) : List Nat :=
  (s.threads.filter fun e => e.2.ctx == c && (slotAt s e.1).occ == .used).map (·.1)

end Sys2Proof.Machine
end

