-- ==== Sys2Proof/Machine/Ordering.lean ====
section
/-!
DEFINITION. The ordering machine (R140 to R165): views, reads, the store buffer and its drains, releases and acquires,
and idempotent regions. Every instruction that touches memory is written with these steps.
-/

namespace Sys2Proof.Machine

/-! ### Views and values (R142, R143, R147) -/

/-- The write a view stands at, as a time. -/
def View.at (v : View) (x : Nat) : Nat :=
  let a := v.rng.foldl (fun a r => if r.1 ≤ x ∧ x < r.2.1 then max a r.2.2 else a) v.base
  v.pts.foldl (fun a p => if p.1 = x then max a p.2 else a) a

/-- Raise a view at a location. -/
def View.raise (v : View) (x ts : Nat) : View := if ts ≤ v.at x then v else { v with pts := (x, ts) :: v.pts }

/-- Raise a view at every location of a list. -/
def View.raises (v : View) (xs : List Nat) (ts : Nat) : View := xs.foldl (fun v x => v.raise x ts) v

/-- A view restricted to ranges of locations (first, one past). -/
def View.restrict (v : View) (rs : List (Nat × Nat)) : View where
  base := 0
  rng := rs.map (fun r => (r.1, r.2, v.base)) ++
    v.rng.flatMap fun e => rs.filterMap fun r =>
      (if max e.1 r.1 < min e.2.1 r.2 then some (max e.1 r.1, min e.2.1 r.2, e.2.2) else none)
  pts := v.pts.filter fun p => rs.any fun r => decide (r.1 ≤ p.1 ∧ p.1 < r.2)

/-- The view of everything performed so far. -/
def viewNow (s : State) : View := { base := s.tsCtr }

/-- The bytes a write leaves and found at a location. -/
def Wr.cell? (w : Wr) (x : Nat) : Option WCell := w.cells.find? fun c => c.loc == x

/-- The value of a location at a time: what the first later write found there, or the last value (R142). The history
lists writes oldest first. -/
def valueAt (hist : List Wr) (last : Byte) (x t : Nat) : Byte :=
  match hist.findSome? fun w => if t < w.ts then w.cell? x else none with
  | some c => c.old
  | none => last

/-- One byte of a read under way: location, value, the time its view or the write it took stands at, and whether that is
settled. -/
structure RByte where
  loc  : Nat
  val  : Byte
  ts   : Nat
  done : Bool := false
  deriving DecidableEq, Repr

/-- What a write does to a read of one sector, the newest write first (R143, R147, log 9): it is taken at every location it
covers at which no newer write is taken, or at none of them; it is taken where the view stands at it at one of them. -/
def readStep (ctr salt : Nat) (bs : List RByte) (w : Wr) : List RByte :=
  let here := fun (b : RByte) => !b.done && (w.cell? b.loc).isSome
  if (bs.any fun b => here b && decide (w.ts ≤ b.ts)) || (bs.any here && Config.freeTakes ctr salt w.ts) then
    bs.map fun b => match w.cell? b.loc with
      | some c => if b.done then b else if w.ts ≤ b.ts then { b with done := true } else { b with val := c.val, ts := w.ts, done := true }
      | none => b
  else bs

/-- `read(V, x)` of locations of one sector (R147), without forwarding: the bytes and the raised view. -/
def readView (s : State) (salt : Nat) (v : View) (locs : List Nat) : List Byte × View :=
  let start := locs.map fun x => { loc := x, val := valueAt s.hist (Memory.read s.mem x) x (v.at x), ts := v.at x : RByte }
  let fin := s.hist.foldr (fun w bs => readStep s.freeCtr salt bs w) start
  (fin.map (·.val), fin.foldl (fun v b => v.raise b.loc b.ts) v)

/-- The content of a whole line that a fetch takes (R104): as the line stood at one moment, no earlier than the view at any of
its locations, however the view came there, and without the thread's own buffered stores (log 49). -/
def readLine (s : State) (salt : Nat) (v : View) (locs : List Nat) : List Byte :=
  let t0 := locs.foldl (fun a x => max a (v.at x)) 0
  let newer := s.hist.filter fun w => decide (t0 < w.ts) && locs.any fun x => (w.cell? x).isSome
  let taken := newer.takeWhile fun w => Config.freeTakes s.freeCtr salt w.ts
  let at_ := (taken.getLast?.map (·.ts)).getD t0
  locs.map fun x => valueAt s.hist (Memory.read s.mem x) x at_

/-- The youngest buffered byte for a location (R147, forwarding). -/
def forward (buf : List BufItem) (x : Nat) : Option Byte :=
  buf.foldl (fun a b => match b with
    | .write _ _ cells _ => match cells.find? fun c => c.1 == x with
      | some c => some c.2
      | none => a
    | .mark _ _ => a) none

/-- `read(V(t), x)` by a thread: buffered bytes forward and leave the view; the others are read (R147). -/
def readThread (s : State) (salt : Nat) (t : Thread) (locs : List Nat) : List Byte × View :=
  let rest := locs.filter fun x => (forward t.buf x).isNone
  let (vals, v) := readView s salt t.view rest
  let tbl := rest.zip vals
  (locs.map fun x => match forward t.buf x with
    | some b => b
    | none => ((tbl.find? fun e => e.1 == x).map (·.2)).getD 0, v)

/-- The sectors of a list of locations, in order, each with its locations. -/
def sectors (locs : List Nat) : List (List Nat) :=
  locs.foldr (fun x acc => match acc with
    | (y :: g) :: r => if x / 32 = y / 32 then (x :: y :: g) :: r else [x] :: (y :: g) :: r
    | _ => [x] :: acc) []

/-- Reads of several sectors by a party with a view, one step each. -/
def readMany (s : State) (salt : Nat) (v : View) (secs : List (List Nat)) : List Byte × View :=
  secs.foldl (fun a x =>
    let (bs, v') := readView s (salt + a.1.length) a.2 x
    (a.1 ++ bs, v')) ([], v)

/-- Reads of several sectors by a thread. -/
def readThreadMany (s : State) (salt : Nat) (t : Thread) (secs : List (List Nat)) : List Byte × View :=
  secs.foldl (fun a x =>
    let (bs, v') := readThread s (salt + a.1.length) { t with view := a.2 } x
    (a.1 ++ bs, v')) ([], t.view)

/-! ### Performing a write (R141, R157, R182, R295) -/

/-- Whether any sector of locations is poisoned (R295). -/
def poisoned (s : State) (locs : List Nat) : Bool := locs.any fun x => s.poison.contains (x / 32)

/-- Poison after a write: a whole-sector write clears it (R295). -/
def clearPoison (s : State) (cells : List (Nat × Byte)) : List Nat :=
  s.poison.filter fun sec => !((List.range 32).all fun k => cells.any fun c => c.1 == sec * 32 + k)

/-- Mark monitors of a written line and send their notices (R182): not to the writer of an ATOM. A notice carries the clock in
which its monitor was armed, by which a later arming knows it for an older one. -/
def notify (s : State) (locs : List Nat) (atomBy : Option Nat) : State :=
  let lines := locs.foldl (fun a x => addNew (x / 32) a) []
  s.threads.foldl (fun s e =>
    if atomBy = some e.1 then s
    else lines.foldl (fun s ln =>
      match (e.2.mons ++ e.2.ghosts).find? fun m => m.line == ln && !m.written && decide (m.armed ≤ s.clock) with
      | none => s
      | some m =>
        let mark := fun (l : List Mon) => l.map fun m => if m.line = ln then { m with written := true } else m
        let s1 := modT s e.1 fun t => { t with mons := mark t.mons, ghosts := mark t.ghosts }
        let d := if isSram (ln * 32) ∧ sramCore s (ln * 32) = coreOf e.1 then 0
                 else latency s.cmap (homeRouter s (genFor s e.2.ctx (coreOf e.1)) (ln * 32)) (routerOf (coreOf e.1))
        later s1 (d + 3) (.monitorNotice (addressOf s1 e.1 + armStamp m.armed) ln)) s) s

/-- An undefined frame (R316): each field of its record (R47) is a free value. -/
def spoilFrame (ctr tag : Nat) (t : Thread) : Thread :=
  let f := fun (i : Nat) => Config.freeWord ctr (6000 + tag + i)
  { t with
    g := Vector.ofFn fun i => f i.val
    pc := f 16 &&& 0x00FFFFFFFFFFFFC7
    pw := (f 17).setWidth 32 ||| 1
    lane := (f 18).setWidth 16
    priv := (f 19).setWidth 2
    tvec := f 20
    rng := (f 21).setWidth 32
    fxe := (f 22).setWidth 5
    fxf := (f 23).setWidth 6
    evt := (f 24).setWidth 7 }

/-- A chain whose area software has written (R316): its items and frames become undefined, and nothing else. -/
def spoilChain (ctr : Nat) (ch : Chain) : Chain :=
  let item := fun (base : Nat) (i : Item × Nat) => { i.1 with val := Config.freeVec ctr (6000 + base + i.2) }
  let spoil := fun (q : Nat) (m : Map (List Item)) => mmap (fun j l => (l.zip (List.range l.length)).map (item (256 * q + 64 * j))) m
  { ch with
    queues := (ch.queues.zip (List.range ch.queues.length)).map fun e => { e.1 with
      items := spoil e.2 e.1.items
      flying := spoil (8 + e.2) e.1.flying }
    reps := ch.reps.map fun r => { r with frame := r.frame.map (spoilFrame ctr (32 * (4 * r.stage + r.rep))) } }

/-- Size of a chain's area (R316). -/
def areaOf (depth : Nat) (vec : Bool) : Nat := max (8 * (64 + depth * (if vec then 256 else 8))) 8192

/-- Whether a location lies in a chain's area in a share of its context. -/
def inArea (c : Nat) (ch : Chain) (loc : Nat) : Bool :=
  isSram loc && sramKey loc / 4096 == c && decide (ch.qoff ≤ sramOff loc ∧ sramOff loc < ch.qoff + areaOf ch.depth ch.vec)

/-- What a write to shares does to the chains whose areas it meets (R316). -/
def spoilAreas (s : State) (locs : List Nat) : State :=
  let mine := locs.filter isSram
  if mine = [] then s
  else
    let hit := fun (c : Nat) (ch : Chain) => mine.any (inArea c ch)
    if s.ctxs.any fun e => e.2.chains.any (hit e.1) then
      { s with ctxs := mmap (fun c x => { x with chains := x.chains.map fun ch => if hit c ch then spoilChain s.freeCtr ch else ch }) s.ctxs }
    else s

/-- Append a write to co(x) of every location it covers (R141, R142); the answer is its time. -/
def append (s : State) (cells : List (Nat × Byte)) (atomBy : Option Nat) : Nat × State :=
  let ts := s.tsCtr + 1
  let wc := cells.map fun c => { loc := c.1, val := c.2, old := Memory.read s.mem c.1 : WCell }
  let s1 := { s with
    tsCtr := ts
    hist := s.hist ++ [{ ts := ts, cells := wc }]
    poison := clearPoison s cells
    faint := s.faint.filter fun sec => !(cells.any fun c => c.1 / 32 == sec)
    mem := Memory.writes s.mem cells }
  (ts, notify (spoilAreas s1 (cells.map (·.1))) (cells.map (·.1)) atomBy)

/-- Note in the router filters that a context wrote lines of region 0x0 or 0x1 from a core (R40, R296): each slice's list,
latest writer last. -/
def noteWriter (s : State) (c core : Nat) (locs : List Nat) : State :=
  if c = 0 then s
  else locs.foldl (fun s x =>
    if isSram x ∨ 2 ≤ regionOf x then s
    else
      let h := homeSlice s.cmap (genFor s c core) x
      let l := mgetD s.filters h []
      if l.getLast? = some c then s else { s with filters := mset s.filters h ((l.filter (· != c)) ++ [c]) }) s

/-- Appends of several writes by a party with a view, in order. -/
def appendAll (s : State) (v : View) (ws : List (List (Nat × Byte))) : State × View :=
  ws.foldl (fun a w =>
    if w = [] then a
    else
      let (ts, s') := append a.1 w none
      (s', a.2.raises (w.map (·.1)) ts)) (s, v)

/-! ### Scopes (R161) -/

/-- Order of the scopes. -/
def scopeRank : Scope → Nat
  | .thread => 0 | .core => 1 | .cluster => 2 | .polder => 3 | .package => 4 | .domain => 5

/-- The narrowest scope of a thread's core that a location lies in (R161). -/
def scopeOfLoc (s : State) (core loc : Nat) : Scope :=
  if isSram loc then
    (if (peerOf loc).isSome then .domain
     else if sramCore s loc = core then .core
     else if sramCore s loc / 8 = core / 8 ∧ core < 2048 then .cluster
     else .package)
  else if regionOf loc = 0 then
    (match stackOf s.cmap loc with
     | some p => if p = polderOf (routerOf core) ∧ core < 2048 then .polder else .package
     | none => .package)
  else if 8 ≤ regionOf loc then .domain
  else .package

/-- Whether a location lies within a scope of a core's threads. -/
def inScope (s : State) (core loc : Nat) (sc : Scope) : Bool :=
  decide (0 < scopeRank sc ∧ scopeRank (scopeOfLoc s core loc) ≤ scopeRank sc)

/-! ### The store buffer (R145, R146) -/

/-- The locations of a buffered write. -/
def BufItem.locs : BufItem → List Nat
  | .write _ _ cells _ => cells.map (·.1)
  | .mark _ _ => []

/-- The name of a buffered write. -/
def BufItem.id? : BufItem → Option Nat
  | .write id _ _ _ => some id
  | .mark _ _ => none

/-- Whether an entry carries the open region's tag. -/
def BufItem.opened : BufItem → Bool
  | .write _ _ _ o => o
  | .mark _ o => o

/-- Whether an entry is a write. -/
def BufItem.isWrite : BufItem → Bool
  | .write .. => true
  | .mark _ _ => false

/-- Whether two entries share a location. -/
def shareLoc (a b : BufItem) : Bool := a.locs.any fun x => b.locs.contains x

/-- Whether a write lies within a scope. -/
def itemIn (s : State) (core : Nat) (b : BufItem) (sc : Scope) : Bool := b.locs.all fun x => inScope s core x sc

/-- Whether an older entry must drain before a younger one (R146, conditions 2 and 3), `between` the entries that
stand between them. -/
def mustPrecede (s : State) (core : Nat) (old young : BufItem) (between : List BufItem) : Bool :=
  old.isWrite && (shareLoc old young || between.any fun m => match m with
    | .mark sc _ => itemIn s core old sc && itemIn s core young sc
    | .write .. => false)

/-- The names of the entries that must drain before the last of a list drains, it among them, oldest first (R146):
worked back from the youngest; `need` holds those found with what stands between. -/
def drainSet (s : State) (core : Nat) (older : List BufItem) (b : BufItem) : List BufItem :=
  let step := fun (acc : List BufItem × List BufItem) (o : BufItem) =>
    let (need, seen) := acc
    if need.any fun n => mustPrecede s core o n (seen.takeWhile fun z => z != n) then (o :: need, o :: seen)
    else (need, o :: seen)
  (older.foldr (fun o acc => step acc o) ([b], [b])).1

/-- Remove an entry of a store buffer and, with it, leading marks (a mark with nothing before it orders nothing). -/
def bufRemove (buf : List BufItem) (id : Nat) : List BufItem :=
  (buf.filter fun b => b.id? != some id).dropWhile fun b => !b.isWrite

/-- Whether a write of a context from a core is discarded on its way (R366). -/
def discardedCells (s : State) (c core : Nat) (cells : List (Nat × Byte)) : Bool := cells.any fun e => discarded s c core e.1

/-- `drain(t, w)`: append one entry and raise the thread's view (R146); of a context that is being killed the write may be
discarded on its way (R366). -/
def drainOne (s : State) (tk : Nat) (b : BufItem) : State :=
  match b with
  | .write id _ cells _ =>
    let s1 := modT s tk fun t => { t with buf := bufRemove t.buf id }
    if discardedCells s (getT s tk).ctx (coreOf tk) cells then s1
    else
    let (ts, s2) := append s1 cells none
    noteWriter (modT s2 tk fun t => { t with view := t.view.raises (cells.map (·.1)) ts }) (getT s1 tk).ctx (coreOf tk) (cells.map (·.1))
  | .mark _ _ => s

/-- The entries before the one named. -/
def bufBefore (buf : List BufItem) (id : Nat) : List BufItem := buf.takeWhile fun b => b.id? != some id

/-- The entries that drain with the one named, it among them, oldest first (R146). -/
def drainsWith (s : State) (core : Nat) (buf : List BufItem) (id : Nat) : List BufItem :=
  match buf.find? fun b => b.id? == some id with
  | some b => drainSet s core (bufBefore buf id) b
  | none => []

/-- Whether a store buffer holds an entry. -/
def hasEntry (buf : List BufItem) (bid : Nat) : Bool := buf.any fun b => b.id? == some bid

/-- Drain the entry named and, first, every entry that must drain before it, oldest first. -/
def drainWith (s : State) (tk id : Nat) : State :=
  (drainsWith s (coreOf tk) (getT s tk).buf id).foldl (fun s b => drainOne s tk b) s

/-- Drain the entry named from a buffer that no thread in a slot holds, and first every entry that must drain before it: the
state, the buffer and the view after. -/
def drainBuf (s : State) (c core : Nat) (buf : List BufItem) (v : View) (bid : Nat) : State × List BufItem × View :=
  (drainsWith s core buf bid).foldl (fun a b => match b with
    | .write id _ cells _ =>
      let locs := cells.map (·.1)
      if discardedCells a.1 c core cells then (a.1, bufRemove a.2.1 id, a.2.2)
      else
      let (ts, s1) := append a.1 cells none
      (noteWriter s1 c core locs, bufRemove a.2.1 id, a.2.2.raises locs ts)
    | .mark _ _ => a) (s, buf, v)

/-- Drain an entry of a record that waits in a core's inbox (R156). -/
def drainInInbox (s : State) (core bid : Nat) : State :=
  match (coreAt s core).inbox.find? fun m => hasEntry m.th.buf bid with
  | none => s
  | some m =>
    let (s1, buf, v) := drainBuf s m.th.ctx core m.th.buf m.th.view bid
    let c := coreAt s1 core
    setCore s1 core { c with inbox := c.inbox.map fun x =>
      if x.src = m.src then { x with th := { x.th with buf := buf, view := v } } else x }

/-- Drain every entry that satisfies a test, oldest first, with those that must drain before it. -/
def drainWhere (s : State) (tk : Nat) (p : BufItem → Bool) : State :=
  ((getT s tk).buf.filter fun b => b.isWrite && p b).foldl (fun s b => match b.id? with
    | some id => drainWith s tk id
    | none => s) s

/-- Drain every entry covering one of the locations. -/
def drainCovering (s : State) (tk : Nat) (locs : List Nat) : State :=
  drainWhere s tk fun b => b.locs.any fun x => locs.contains x

/-- Drain every entry, oldest first. -/
def drainAll (s : State) (tk : Nat) : State := drainWhere s tk fun _ => true

/-- The most writes a store buffer holds (R142). -/
def maxBuf : Nat := 64

/-- The writes of a store buffer. -/
def bufWrites (t : Thread) : Nat := (t.buf.filter BufItem.isWrite).length

/-- The delay bound of R156. -/
def drainBound : Nat := 4097

/-- Schedule the drain of a closed entry, within 4,096 clocks (R156, log 3). -/
def schedDrain (s : State) (tk id : Nat) : State :=
  let (d, s1) := takeDelay s drainBound
  later s1 d (.storeDrain tk id)

/-! ### Idempotent regions (R158 to R160) -/

/-- Close a thread's open region: its entries are tagged closed and may drain (R158). The run holds a closer (R349). -/
def closeRegion (s : State) (tk : Nat) : State :=
  let t := getT s tk
  let s0 := setT s tk { t with run := { t.run with closer := true } }
  match t.region with
  | none => s0
  | some c =>
    let ids := (t.buf.filter BufItem.opened).filterMap BufItem.id?
    let s1 := modT s0 tk fun t => { t with
      region := none
      idemPc := c.pc
      buf := t.buf.map fun b => match b with
        | .write id va cells _ => .write id va cells false
        | .mark sc _ => .mark sc false }
    ids.foldl (fun s id => schedDrain s tk id) s1

/-- Close the executing thread's region. -/
def closeCur (s : State) : State := closeRegion s s.cur

/-- Open a region at a pc with the thread's registers as checkpoint (R158). -/
def openRegion (s : State) (tk : Nat) (pc : Word) : State :=
  modT s tk fun t => { t with region := some { g := t.g, pw := t.pw, pc := pc }, idemPc := pc }

/-- `discard(t)` (R160): the open region's entries are removed, its FENCE marks with them, and the registers return to the
checkpoint. -/
def discardRegion (s : State) (tk : Nat) : State :=
  let t := getT s tk
  match t.region with
  | none => s
  | some c => setT s tk { t with
      buf := (t.buf.filter fun b => !b.opened).dropWhile fun b => !b.isWrite
      g := c.g
      pw := c.pw
      pc := c.pc
      entry := .none
      res := []
      ended := false
      held := none
      run := {} }

/-- Whether a store finds no room (R145). -/
def bufFull (t : Thread) : Bool := decide (maxBuf ≤ bufWrites t)

/-- Whether every buffered write belongs to the open region (R159). -/
def bufAllOpen (t : Thread) : Bool := t.region.isSome && (t.buf.filter BufItem.isWrite).all BufItem.opened

/-- `issue_store(t, w)` (R145): append one write, tagged with the open region; a closed one is due to drain. -/
def issueStore (s : State) (tk : Nat) (vaSec : Nat) (cells : List (Nat × Byte)) : State :=
  let (id, s1) := newId s
  let t := getT s1 tk
  let opn := t.region.isSome
  let s2 := setT s1 tk { t with buf := t.buf ++ [.write id vaSec cells opn] }
  if opn then s2 else schedDrain s2 tk id

/-- Make room for n more writes (R145, R159): with all entries of the open region, the region splits at the executing
instruction, once results are back as at an IDEM (R178); else the thread is held until entries drain. -/
def withBufRoom (n : Nat) (s : State) (eff : State → State) : State :=
  let t := curT s
  if bufWrites t + n ≤ maxBuf then eff s
  else if bufAllOpen t ∧ t.res = [] then retry (openRegion (closeCur s) s.cur t.pc)
  else retry s

/-- Whether an incomplete tile store of the thread covers some location (R245). -/
def tstCovers (s : State) (tk : Nat) (locs : List Nat) : Bool :=
  s.tileOps.any fun e => e.2.tk == tk && e.2.covers.any fun r => locs.any fun x => decide (r ≤ x ∧ x < r + e.2.rowb)

/-- Hold the thread while a tile store of its own is incomplete over an entry that a step would drain (R245). -/
def withTstDone (s : State) (eff : State → State) : State :=
  if tstCovers s s.cur ((curT s).buf.flatMap BufItem.locs) then retry s else eff s

end Sys2Proof.Machine
end

