-- ==== Sys2Proof/Machine/Translate.lean ====
section
/-!
DEFINITION. Addresses: the windows (R22 to R24), the B-tree walk (R297 to R300), the cluster TLB (R301), physical
regions (R294), lost targets (R41, R348), the order of the checks of R167, and translation faults (R302 to R304).
-/

namespace Sys2Proof.Machine

/-! ### Windows (R22) -/

/-- The window of a virtual address. -/
inductive Window where
  | translated | global | local_ | reserved
  deriving DecidableEq, Repr

/-- The window that holds an address; bits 63 to 56 set put it in none (log 24). -/
def windowOf (va : Nat) : Window :=
  if va < 2 ^ 55 then .translated
  else if va < 0x80001000000000 then .global
  else if 0xFFFFFFFFFC0000 ≤ va ∧ va < 2 ^ 56 then .local_
  else .reserved

/-! ### The page table (R298 to R300) -/

/-- What a walk finds: a frame address and permissions; a fault's cause and reason; a poisoned line; or a page of the
second tier for the prefetcher. -/
inductive Walk where
  | ok (pa : Nat) (w x cow : Bool)
  | fault (reason : Nat)
  | poison (line : Nat)
  | second
  deriving DecidableEq, Repr

/-- Bits hi..lo of a number. -/
def nbits (x hi lo : Nat) : Nat := x / 2 ^ lo % 2 ^ (hi + 1 - lo)

/-- A number of n bytes in memory at a physical address (the last writes: R301). -/
def memN (s : State) (a n : Nat) : Nat := ofBytesLE (Memory.readN s.mem a n)

/-- Whether a walker read of a 256-byte line meets poison (R308). -/
def linePoison (s : State) (pa : Nat) : Bool :=
  s.ptPoison.any (fun e => e.2 == pa / 256) || (List.range 8).any fun k => s.poison.contains (pa / 256 * 8 + k)

/-- The last slot of an interior node whose key is at or below an address. -/
def childOf (slots : List Nat) (va : Nat) : Option Nat :=
  (slots.filter fun e => decide (nbits e 119 80 * 65536 ≤ va)).getLast?

/-- The slot of a leaf whose range holds an address. -/
def rangeOf (slots : List Nat) (va : Nat) : Option Nat :=
  slots.find? fun e =>
    decide (nbits e 119 80 * 65536 ≤ va ∧ va < (nbits e 119 80 + nbits e 79 40 + 1) * 65536)

/-- The page array entry's address for an address in a paged range. -/
def pteAddr (e va : Nat) : Nat := nbits e 39 0 * 4096 + 8 * (va / 65536 - nbits e 119 80)

/-- The end of a walk in a leaf slot (R299, R300); `pref`: whether a second-tier page goes to the prefetcher. -/
def walkLeaf (s : State) (e va : Nat) (pref : Bool) : Walk :=
  let base := nbits e 119 80 * 65536
  if nbits e 127 127 = 0 then .fault 2
  else if nbits e 124 124 = 0 then
    .ok (nbits e 35 0 * 65536 + (va - base)) (nbits e 126 126 == 1) (nbits e 125 125 == 1) false
  else
    let a := pteAddr e va
    if linePoison s a then .poison (a / 256)
    else
      let p := memN s a 8
      if nbits p 7 3 ≠ 0 ∨ 2 ≤ nbits p 1 0 then .fault 3
      else if nbits p 63 63 = 0 then (if nbits p 2 2 = 1 ∧ pref then .second else .fault 2)
      else .ok (nbits p 51 16 * 65536 + va % 65536) (nbits e 126 126 == 1 && nbits p 62 62 == 1)
        (nbits e 125 125 == 1 && nbits p 61 61 == 1) (nbits p 60 60 == 1)

/-- The leaf slot of an address, found by the steps of R300; the fuel is the depth limit. -/
def findLeaf (s : State) (va : Nat) : Nat → Nat → Except Walk Nat
  | 0, n => .error (if linePoison s n then .poison (n / 256) else .fault 3)
  | fuel + 1, n =>
    if linePoison s n then .error (.poison (n / 256))
    else
      let hdr := memN s n 16
      let count := nbits hdr 7 0
      let leaf := nbits hdr 8 8
      let slots := (List.range count).map fun k => memN s (n + 16 + 16 * k) 16
      if count = 0 ∨ 15 < count ∨ nbits hdr 127 9 ≠ 0 then .error (.fault 3)
      else if leaf = 0 then
        if slots.any fun e => decide (nbits e 127 120 ≠ 0 ∨ nbits e 79 44 ≠ 0) then .error (.fault 3)
        else match childOf slots va with
          | none => .error (.fault 1)
          | some e => findLeaf s va fuel (nbits e 43 0 * 256)
      else if slots.any fun e => decide (nbits e 123 120 ≠ 0 ∨ (nbits e 124 124 = 0 ∧ nbits e 39 36 ≠ 0)) then
        .error (.fault 3)
      else match rangeOf slots va with
        | none => .error (.fault 1)
        | some e => .ok e

/-- The walk of R300 under a translation root. -/
def walkRoot (s : State) (troot : Word) (va : Nat) (pref : Bool) : Walk :=
  if troot = 0 then .fault 1
  else match findLeaf s va 8 (nbits troot.toNat 43 0 * 256) with
    | .error w => w
    | .ok e => walkLeaf s e va pref

/-- The nodes that R300's steps read on the way to an address's leaf slot. -/
def nodesOf (s : State) (va : Nat) : Nat → Nat → List Nat
  | 0, n => [n]
  | fuel + 1, n =>
    let slots := (List.range (memN s n 1)).map fun k => memN s (n + 16 + 16 * k) 16
    n :: (if nbits (memN s n 16) 8 8 = 1 then [] else match childOf slots va with
      | some e => nodesOf s va fuel (nbits e 43 0 * 256)
      | none => [])

/-- One location of every sector that a walk for a context reads (R295, R300): its nodes, and the page entry of a paged
range. -/
def walkReads (s : State) (c va : Nat) : List Nat :=
  let root := nbits (ctxD s c).troot.toNat 43 0 * 256
  (nodesOf s va 8 root).flatMap (fun n => (List.range 8).map fun k => n + 32 * k) ++
    (match findLeaf s va 8 root with
      | .ok e => if nbits e 124 124 = 1 then [pteAddr e va] else []
      | .error _ => [])

/-- The walk of a context. -/
def walk (s : State) (c va : Nat) : Walk :=
  let x := ctxD s c
  walkRoot s x.troot va (nbits x.tpref.toNat 63 12 != 0)

/-! ### Physical regions (R294) and lost targets (R41) -/

/-- The location of a physical address: this package's own range under regions 0x8 to 0xF is its HBM (R141). -/
def canonPa (s : State) (pa : Nat) : Nat :=
  if 8 ≤ pa / 2 ^ 48 ∧ s.domain ≠ [] ∧ nbits pa 50 45 = s.pkg then nbits pa 44 0 else pa

/-- Whether a CXL port was ever fitted (R30). -/
def cxlFitted (m : CMap) (port : Nat) : Bool := (mget m.units (unitKey clsCxl port)).isSome

/-- The second-tier ports fitted, ascending. -/
def cxlPorts (m : CMap) : List Nat := natsWhere 3 fun p => decide (0 < p) && cxlFitted m p

/-- The port of a region-0x1 offset (R388). -/
def cxlPortOf (m : CMap) (off : Nat) : Option Nat :=
  let ps := cxlPorts m
  ps[off / 4096 % max ps.length 1]?

/-- Whether a physical address lies in a region that exists for a core (R294, R404); how much HBM another package has is
that package's affair (log 20). -/
def paValid (s : State) (core pa : Nat) : Bool :=
  let off := pa % 2 ^ 48
  match pa / 2 ^ 48 with
  | 0 => decide (off < hbmBytes s.cmap)
  | 1 => decide (off < 2 ^ 42) && (cxlPortOf s.cmap off).isSome
  | 2 => true
  | 4 => decide (core = 0x804 ∧ off < 2 ^ 19)
  | r =>
    let p := nbits pa 50 45
    decide (8 ≤ r ∧ r < 16) && s.domain.contains p &&
      decide (nbits pa 44 0 < (if p = s.pkg then hbmBytes s.cmap else Config.peerHbm p))

/-- MAPSTALE or DEADRES with the version of a loss, by what the context has acknowledged (R41). -/
def lostTrap (ackv : Word) (ver : Nat) : BitVec 8 × Word :=
  (if ackv.toNat < ver then cMAPSTALE else cDEADRES, w64 ver)

/-- The version in which a unit went out of service. -/
def sinceOf (m : CMap) (cls res : Nat) : Nat := mgetD m.since (unitKey cls res) 0

/-- The stack that held an offset when the lost stacks still served (log 32). -/
def lostStackOf (m : CMap) (off : Nat) : Option Nat :=
  let m' := { m with units := m.units.filter fun e => !(e.1 / 2 ^ 32 == clsStack && e.2 == 3) }
  match stackOf m' off with
  | some p => if unitState m clsStack p = 3 then some p else none
  | none => none

/-- The trap of another package that no route reaches any more, for a context that has acknowledged a version (R41). -/
def lostPeer (s : State) (ackv : Word) (pkg : Nat) : Option (BitVec 8 × Word) :=
  match mget s.routes pkg with
  | some _ => none
  | none => some (lostTrap ackv ((List.range 16).foldl (fun a l => max a (sinceOf s.cmap clsStrelmin l)) 0))

/-- The trap of a line homed at a lost slice, under the generation of the requests of a context from a core (R41, R44): every
line has a home, host memory and other packages' memory included (R172, R291). -/
def lostHome (s : State) (c core loc : Nat) : Option (BitVec 8 × Word) :=
  let h := homeSlice s.cmap (genFor s c core) loc
  let ver := sinceOf s.cmap clsSlice h
  if regionOf loc ≠ 4 ∧ unitState s.cmap clsSlice h = 3 ∧ (ctxD s c).ackv.toNat < ver then some (cMAPSTALE, w64 ver) else none

/-- The trap of a lost target, if an access of a context from a core meets one (R41, R348). -/
def lostTarget (s : State) (c core loc : Nat) : Option (BitVec 8 × Word) :=
  let ackv := (ctxD s c).ackv
  let m := s.cmap
  if isSram loc then (peerOf loc).bind (lostPeer s ackv)
  else match lostHome s c core loc with
    | some r => some r
    | none =>
      match regionOf loc with
      | 0 => (lostStackOf m loc).map fun p => lostTrap ackv (sinceOf m clsStack p)
      | 1 =>
        match cxlPortOf m (loc % 2 ^ 48) with
        | some p => if unitState m clsCxl p = 3 then some (lostTrap ackv (sinceOf m clsCxl p)) else none
        | none => none
      | 2 => none
      | 4 => none
      | _ => lostPeer s ackv (nbits loc 50 45)

/-! ### The checks of R167 -/

/-- What an access meets: its location; a trap with its TVAL; a miss of the TLB; or a fault task's cause and reason. -/
inductive Access where
  | ok (loc : Nat)
  | trap (cause : BitVec 8) (tval : Word)
  | miss
  | fault (cause reason : Nat)
  deriving DecidableEq, Repr

/-- Whether a TLB entry translates a page of a context (R301). -/
def TlbE.holds (e : TlbE) (c page : Nat) : Bool := e.ctx == c && decide (e.page ≤ page ∧ page < e.page + e.pages)

/-- A TLB entry that translates a context's page. -/
def tlbFind (s : State) (cl c page : Nat) : Option TlbE := (clusterAt s cl).tlb.find? (·.holds c page)

/-- The physical address that a TLB entry gives an address. -/
def TlbE.paOf (e : TlbE) (va : Nat) : Nat := e.pa + (va - e.page * 65536)

/-- The share byte of a core context: its location, if the offset and size lie in the share (R23). -/
def shareLocOf (s : State) (c l off size : Nat) : Option Nat :=
  (getCC s c l).bind fun cc => if off + size ≤ cc.shSize then some (sramLoc (ccKey c l) off) else none

/-- The byte of a context's share on a logical core of another package of the domain (R24): the share's size there is that
package's affair (log 20). -/
def peerLocOf (s : State) (c p l off size : Nat) : Option Nat :=
  if c ≠ 0 ∧ s.domain.contains p ∧ off + size ≤ Config.peerShare p c l then some (sramLoc (peerKey p (ccKey c l)) off) else none

/-- Order 1 of R167 for an access of a thread of context c on logical core l: the window and the share; for a
scratchpad window the location. A context whose root is zero has no translated window (R297). -/
def windowCheck (s : State) (c l va size : Nat) : Except (BitVec 8 × Word) (Option Nat) :=
  let bad : Except (BitVec 8 × Word) (Option Nat) := .error (cPROT, w64 va)
  if windowOf va ≠ windowOf (va + size - 1) then bad
  else match windowOf va with
    | .translated => if c ≠ 0 ∧ (ctxD s c).troot = 0 then bad else .ok none
    | .reserved => bad
    | .local_ =>
      match shareLocOf s c l (va - 0xFFFFFFFFFC0000) size with
      | some x => .ok (some x)
      | none => bad
    | .global =>
      if nbits va 29 29 = 1 then bad
      else
        let p := nbits va 35 30
        match (if p = s.pkg then shareLocOf s c (nbits va 28 18) (nbits va 17 0) size
               else peerLocOf s c p (nbits va 28 18) (nbits va 17 0) size) with
        | some x => .ok (some x)
        | none => bad

/-- Orders 3 to 6 of R167 for a translated address, given what its page translates to. -/
def pageCheck (s : State) (core c va : Nat) (write : Bool) (pa : Nat) (w cow : Bool) : Access :=
  if write && !w && !cow then .trap cPROT (w64 va)
  else if write && cow then .fault 0x31 0
  else if !paValid s core pa then .trap cPROT (w64 va)
  else match lostTarget s c core (canonPa s pa) with
    | some (cause, ver) => .trap cause ver
    | none => .ok (canonPa s pa)

/-- A byte of a share: this package's is reached, another's unless no route leads there any more (R24, R41). -/
def shareAccess (s : State) (c core loc : Nat) : Access :=
  match lostTarget s c core loc with
  | some (cause, ver) => .trap cause ver
  | none => .ok loc

/-- An address on a service core or the Reeve is physical (R294). -/
def physAccess (s : State) (core va : Nat) : Access :=
  if va < 2 ^ 52 ∧ paValid s core va then .ok (canonPa s va) else .trap cPROT (w64 va)

/-- The checks of R167 for an access of the executing thread. -/
def access (s : State) (va size align : Nat) (write : Bool) : Access :=
  let t := curT s
  let core := coreOf s.cur
  match windowCheck s t.ctx t.lcore va size with
  | .error (cause, tv) => .trap cause tv
  | .ok sp =>
    if va % align ≠ 0 then .trap cALIGN (w64 va)
    else match sp with
      | some loc => shareAccess s t.ctx core loc
      | none =>
        if !isCompute core then physAccess s core va
        else match tlbFind s (core / 8) t.ctx (va / 65536) with
          | none => .miss
          | some e => pageCheck s core t.ctx va write (e.paOf va) e.w e.cow

/-! ### Device and job translation -/

/-- Translate a byte for the device or a job in a context, without the TLB: its location, or what stops it. A job of a
service core or the Reeve has physical addresses (R294). -/
def devAccess (s : State) (core c l va : Nat) (write : Bool) : Access :=
  if !isCompute core && c == 0 then physAccess s core va
  else match windowCheck s c l va 1 with
  | .error (cause, tv) => .trap cause tv
  | .ok (some loc) => shareAccess s c core loc
  | .ok none =>
    match walk s c va with
    | .ok pa w _ cow => pageCheck s core c va write pa w cow
    | .fault r => .fault 0x30 r
    | .poison _ => .fault 0x33 0
    | .second => .fault 0x30 2

/-- The locations of a virtual range that translate, as ranges of locations, page by page or within one share
(R148). -/
def rangeLocs (s : State) (c l base len : Nat) : List (Nat × Nat) :=
  match windowOf base with
  | .translated =>
    let p0 := base / 65536
    let p1 := (base + len - 1) / 65536
    (List.range (p1 + 1 - p0)).filterMap fun k =>
      let lo := max base ((p0 + k) * 65536)
      let hi := min (base + len) ((p0 + k + 1) * 65536)
      match walk s c lo with
      | .ok pa _ _ _ => some (canonPa s pa, canonPa s pa + (hi - lo))
      | _ => none
  | _ =>
    match windowCheck s c l base len with
    | .ok (some loc) => [(loc, loc + len)]
    | _ => []

/-! ### Faults (R302 to R304) -/

/-- The virtual page of an address. -/
def pageOf (va : Nat) : Nat := va / 65536

/-- Whether a fault task of a key is outstanding (R304). -/
def faultOut (s : State) (k : FaultKey) : Bool := s.faults.contains k

/-- The router at which the purge of a context starts whose walk met poison on a die (R308): the die's first (log 37). -/
def purgeRouter (die : Nat) : Nat := die / 2 * 128 + die % 2 * 8

/-- A walker read met a poisoned line: it is listed on its home's die, unless that list is full (R308). -/
def listPoison (s : State) (line : Nat) : State :=
  let d := dieOf (homeSlice s.cmap s.cmap.sliceGen.toNat (line * 256))
  if s.ptPoison.contains (d, line) ∨ 64 ≤ s.ptPoison.countP (fun e => e.1 == d) then s
  else { s with ptPoison := s.ptPoison ++ [(d, line)] }

/-- Put a fault task in a die's privileged queue unless one is outstanding for its context, page and cause (R303,
R304). -/
def taskFor (s : State) (die c core12 va cause flags : Nat) : State :=
  let k : FaultKey := { ctx := c, page := pageOf va, cause := cause }
  if faultOut s k then s
  else
    pushTask { s with faults := s.faults ++ [k] } die
      { code := cause, g1 := w64 (c + core12 * 65536), g2 := w64 va, g3 := w64 flags }

/-- A walk for a context met a poisoned line (R308): it is listed, the context is purged, and one PTPOISON task for the context
names the line. -/
def poisonFault (s : State) (die c core12 line flags : Nat) : State :=
  let s1 := listPoison s line
  let s2 := if (ctxD s c).ptp then s1
    else modCtx (taskFor s1 die c core12 (line * 256) 0x33 (flags / 16 * 16)) c fun x => { x with ptp := true }
  startKill s2 c 0x82 (purgeRouter die) []

/-- Hand a translation fault (R303): a page of the second tier goes to the prefetcher (R306); a poisoned line is
listed, its context purged and the task names the line (R308); else the fault task. -/
def handFault (s : State) (die c core12 va cause flags : Nat) : State :=
  match (if cause = 0x31 then Walk.fault 0 else walk s c va) with
  | .second =>
    if s.agenda.any fun e => match e.2 with
      | .prefetch c' va' => c' == c && pageOf va' == pageOf va
      | _ => false
    then s
    else
      let (d, s1) := takeDelay s 65536
      later { s1 with fetches := s1.fetches ++ [{ ctx := c, page := pageOf va, die := die, core := core12, flags := flags }] }
        (d + 1) (.prefetch c va)
  | .poison line => poisonFault s die c core12 line flags
  | _ => taskFor s die c core12 va cause flags

/-- A thread's translation fault: the region is discarded if one is open, the thread parks, and the task is handed
(R302, R303). -/
def raiseFault (s : State) (tk va cause reason : Nat) (write fetch : Bool) : State :=
  let t := getT s tk
  let core := coreOf tk
  let inRegion := t.region.isSome
  let flags := reason + (if write then 256 else 0) + (if fetch then 512 else 0) + (if inRegion then 2048 else 0)
  let s1 := handFault s (dieOf (routerOf core)) t.ctx (core % 4096) va cause flags
  let s2 := if inRegion then discardRegion s1 tk else s1
  modT s2 tk fun t => { t with block := .fault t.ctx (pageOf va) cause }

/-- The page whose walk a thread waits for. -/
def walkPage (t : Thread) : Option (Nat × Nat) := match t.block with
  | .walk va _ _ => some (t.ctx, pageOf va)
  | _ => none

/-- The threads of a cluster that wait for the walk of a page of a context (R301). -/
def walkers (s : State) (cl c page : Nat) : List Nat :=
  (s.threads.filter fun e => coreOf e.1 / 8 == cl && walkPage e.2 == some (c, page)).map (·.1)

/-- A cluster's walker takes a miss: the thread that missed, its context and the address (R301, log 3). -/
def beginWalk (s : State) (cl : Nat) (w : Nat × Nat × Nat) : State :=
  let (d, s1) := takeDelay s 4096
  later (setCluster s1 cl { clusterAt s1 cl with walks := (clusterAt s1 cl).walks ++ [w] }) (d + 1) (.tlbWalk w.1)

/-- The executing thread misses the TLB (R301, R302, log 11): it waits for the walk of its page, which misses to one page
share; six walkers serve a cluster and up to 32 further misses queue in order of arrival; one beyond those is held at its
instruction. -/
def startWalk (s : State) (va : Nat) (write fetch : Bool) : State :=
  let cl := coreOf s.cur / 8
  let c := clusterAt s cl
  let x := (curT s).ctx
  let wait := modT s s.cur fun t => { t with block := .walk va write fetch }
  if (c.walks ++ c.missQ).any fun w => w.2.1 == x && pageOf w.2.2 == pageOf va then wait
  else if c.walks.length < 6 then beginWalk wait cl (s.cur, x, va)
  else if c.missQ.length < 32 then setCluster wait cl { c with missQ := c.missQ ++ [(s.cur, x, va)] }
  else
    let s1 := retry s
    putT s1 { curT s1 with block := .walked }

/-- The incomplete accesses of a track: those in its queue, and the HRELs that follow a waiting hold (R279). -/
def Track.open_ (t : Track) : List Acc := t.acc ++ t.wait.flatMap (·.rels)

/-- Whether a track instruction of a thread is incomplete. -/
def trackBusy (s : State) (tk : Nat) : Bool := s.tracks.any fun e => e.2.open_.any fun a => a.tk == tk

/-- Whether the request port holds what a thread issues after its n-th FENCE: a track instruction that it issued before
that FENCE is incomplete (R162, effect 3). -/
def fenced (s : State) (tk : Nat) (gen : BitVec 8) (n : Nat) : Bool :=
  n != 0 && s.tracks.any fun e => e.2.open_.any fun a => a.tk == tk && a.gen == gen && decide (a.fence < n)

/-- Whether a location is host memory. -/
def isHost (loc : Nat) : Bool := !isSram loc && regionOf loc == 2

/-- Whether the executing thread has issued a FENCE behind which its host requests are still held (R162, effect 3). -/
def fencedNow (s : State) : Bool := fenced s s.cur (slotAt s s.cur).gen (curT s).fence

/-- Whether the core's port holds a request of the executing thread behind a FENCE (R162): a track instruction or a memory
request. -/
def portBusy (s : State) : Bool :=
  let gen := (slotAt s s.cur).gen
  (s.tracks.any fun e => e.2.acc.any fun a => a.tk == s.cur && a.gen == gen && fenced s s.cur gen a.fence) ||
    (curT s).res.any fun r => r.port && fenced s s.cur gen r.fence

/-- Whether a memory request of the executing thread enters the port behind a FENCE (R162, effect 3): a host-visible one, or
one that queues behind a held one. -/
def portHeld (s : State) (loc : Nat) : Bool := fencedNow s && (isHost loc || (!isSram loc && portBusy s))

/-- Whether a FENCE holds a store to host memory in the executing thread's buffer (R162): what would drain it waits. -/
def hostHeld (s : State) : Bool :=
  (curT s).hostSt.any fun e => hasEntry (curT s).buf e.1 && fenced s s.cur (slotAt s s.cur).gen e.2

/-- Whether an access to a location waits: its share is not resident, or a FENCE holds it (R363, R162; log 33). -/
def accessHeld (s : State) (loc : Nat) : Bool := heldShare s loc || portHeld s loc

/-- Whether a REL of the thread has still to take its step: later steps of the thread follow it (R175), but for the ACQ of
`acqGoes` (log 44). -/
def stepDue (t : Thread) : Bool := t.res.any fun r => match r.wait with
  | .request (.rel _ _ _ _) => true
  | _ => false

/-- Whether a read of the thread has not returned (R162, effect 1). -/
def readDue (t : Thread) : Bool := t.res.any fun r => match r.wait with
  | .none => true
  | .request (.acq _ _) => true
  | .request (.load _ _ _ _) => true
  | .request (.atom _ _ _ _ _ _ _) => true
  | .request (.vload _ _ _ _ _ _) => true
  | _ => false

/-- Whether a monitor of the thread is still being armed: its reads are performed after (R181). -/
def armDue (s : State) (t : Thread) : Bool := t.mons.any fun m => decide (s.clock < m.armed)

/-- Run a memory effect once the thread's earlier steps allow it. -/
def withOrder (s : State) (read : Bool) (eff : State → State) : State :=
  if stepDue (curT s) || (read && armDue s (curT s)) then retry s else eff s

/-- Run a step that drains the whole store buffer, once the thread's earlier steps allow it (R175) and nothing in the buffer is
held by a tile store (R245) or behind a FENCE (R162). -/
def withDrain (s : State) (eff : State → State) : State :=
  if hostHeld s then retry s else withOrder s false fun s => withTstDone s eff

/-- Run an effect at a location once every check of R167 passes; else the trap, the walk or the fault. -/
def withTarget (s : State) (va size align : Nat) (write : Bool) (eff : Nat → State → State) : State :=
  match access s va size align write with
  | .ok loc => eff loc s
  | .trap cause tv => trapHere s cause tv
  | .miss => startWalk s va write false
  | .fault cause reason => raiseFault s s.cur va cause reason write false

/-- Run an effect at a location once every check of R167 passes; a share that is not resident holds the thread (R363). -/
def withChecks (s : State) (va size align : Nat) (write : Bool) (eff : Nat → State → State) : State :=
  withTarget s va size align write fun loc s => if heldShare s loc then retry s else eff loc s

/-- Run a memory effect at a location: the checks of R167, and the order of the thread's steps. -/
def withAccess (s : State) (va size align : Nat) (write : Bool) (eff : Nat → State → State) : State :=
  withChecks s va size align write fun loc s => withOrder s (!write) (eff loc)

/-- Effective address of R114: base, optional index times scale, displacement, modulo 2^64. -/
def effAddr (s : State) (b : Fin 16) (x : Option (Fin 16)) (scale : Fin 4) (disp : BitVec 24) : Nat :=
  let t := curT s
  let idx := match x with
    | some r => readG s t r * w64 (2 ^ scale.val)
    | none => 0
  (readG s t b + idx + disp.signExtend 64).toNat

/-- Locations of n consecutive bytes. -/
def locsFrom (loc n : Nat) : List Nat := (List.range n).map fun k => loc + k

end Sys2Proof.Machine
end

