-- ==== Sys2Proof/Machine/Operands.lean ====
section
/-!
DEFINITION. Operand forms (R110, R114, R218): the value of every scalar operand form, and writing a fixed scalar
result.
-/

namespace Sys2Proof.Machine

/-- A scalar register or an immediate, sign-extended to 64 bits (R110). -/
def giVal (s : State) (x : GI) : Word :=
  match x with
  | .g r => readG s (curT s) r
  | .im v => imm9 v

/-- A scalar register of the executing thread. -/
def gVal (s : State) (r : Fin 16) : Word := readG s (curT s) r

/-- A scalar predicate of the executing thread. -/
def cVal (s : State) (c : Fin 32) : Bool := readC s (curT s) c

/-- Write a fixed scalar result of the executing thread. -/
def setG (s : State) (r : Fin 16) (x : Word) : State := putT s (writeG (curT s) r x)

/-- Write a fixed predicate result of the executing thread. -/
def setC (s : State) (c : Fin 32) (b : Bool) : State := putT s (writeC (curT s) c b)

/-- A fixed scalar result completes the instruction (R63). -/
def resultG (h : Hdr) (r : Fin 16) (x : Word) (s : State) : State := retire h (setG s r x)

/-- A fixed predicate result completes the instruction (R63). -/
def resultC (h : Hdr) (c : Fin 32) (b : Bool) (s : State) : State := retire h (setC s c b)

end Sys2Proof.Machine
end

