-- ==== Sys2Proof/Machine/Flags.lean ====
section
/-!
DEFINITION. The floating-point flags of a thread (R206, R207), the trap FPX they may raise (R349), and W1C fields
(R7).
-/

namespace Sys2Proof.Machine

/-- Whether a raised flag is enabled in FXE (R207): FMT never traps. -/
def enabledFlag (fxe : BitVec 5) (fl : Flags) : Bool := (fl.setWidth 5 &&& fxe) != 0

/-- A completing instruction raises flags (R206): FXF gathers them, and the first enabled one of the run is kept for
FPX with the instruction's pc (R349). -/
def raiseFlags (t : Thread) (fl : Flags) : Thread :=
  { t with
    fxf := t.fxf ||| fl
    run := if enabledFlag t.fxe fl && t.run.fpx.isNone then { t.run with fpx := some t.pc } else t.run }

/-- The executing thread raises flags. -/
def flagsCur (fl : Flags) (s : State) : State := putT s (raiseFlags (curT s) fl)

/-- A write of ones clears (R7). -/
def w1c {n : Nat} (old val : BitVec n) : BitVec n := old &&& ~~~val

end Sys2Proof.Machine
end

