-- ==== Sys2Proof/Machine/Waits.lean ====
section
/-!
DEFINITION. Waits (R79 to R81, R123): latching events, timeouts, monitors (R180 to R184), wire barriers (R185 to R187)
and scratchpad barriers (R188 to R190), with the device steps that end them.
-/

namespace Sys2Proof.Machine

open Host

/-! ### Events and endings (R80, R81) -/

/-- The values that give one word to every scalar register and one bit to every predicate of a result. -/
def valsOf (dst : List RegId) (x : Word) (b : Bool) : List RegW :=
  dst.filterMap fun r => match r with
    | .g r => some (.g r x)
    | .c r => some (.c r b)
    | .v _ => none

/-- The outstanding results of a thread whose wait satisfies a test. -/
def waitsWhere (t : Thread) (p : Wait → Bool) : List Res := t.res.filter fun r => p r.wait

/-- An event latches in EVT; a PARK that waits ends in this clock, with the bits that are set at the clock's end (R80,
R123). -/
def latch (s : State) (tk : Nat) (bits : BitVec 7) : State :=
  let s1 := modT s tk fun t => latchEvt s.clock t bits
  (waitsWhere (getT s1 tk) (· == .park)).foldl (fun s r => atClockEnd s (.waitTimeout tk r.id 2)) s1

/-- Bits are ORed into the saved EVT of the thread of a rank (R363): as the device keeps it, and in its scalar record, at offset
0x98 of it (R47), once that is written to the save area. -/
def orSaved (s : State) (c l k : Nat) (bits : BitVec 7) : State :=
  match getCC s c l with
  | none => s
  | some cc =>
    match cc.saved with
    | none => s
    | some x =>
      let s1 := setCC s c l { cc with saved := some { x with
        threads := mmap (fun r t => if r = k then latchEvt s.clock t bits else t) x.threads } }
      if x.cursor < 64 + 160 * (k + 1) then s1
      else match devAccess s1 cc.phys c l (cc.saveAt.toNat + l * 0x100000 + 0x40 + 160 * k + 0x98) true with
        | .ok loc => (append s1 [(loc, Memory.read s1.mem loc ||| bits.setWidth 8)] none).2
        | _ => s1

/-- An event latches in the saved EVT of the saved threads that satisfy a test of their core context's key, rank and thread. -/
def latchSaved (s : State) (p : Nat → Nat → Thread → Bool) (bits : BitVec 7) : State :=
  s.cctxs.foldl (fun s e => match e.2.saved with
    | some x => x.threads.foldl (fun s t => if p e.1 t.1 t.2 then orSaved s (e.1 / 4096) (e.1 % 4096) t.1 bits else s) s
    | none => s) s

/-- An event of a wait that a save or a move ended latches for its thread (R363). -/
def latchBroken (s : State) (rid : Nat) (bits : BitVec 7) : State :=
  let s1 := (s.threads.filter fun e => e.2.broken.contains rid).foldl (fun s e => latch s e.1 bits) s
  latchSaved s1 (fun _ _ t => t.broken.contains rid) bits

/-- A wait ends by an event that it reports. -/
def finishWait (s : State) (tk rid : Nat) (vals : List RegW) (bits : BitVec 7) (join : Option View) (d : Nat) : State :=
  endWait (latch s tk bits) tk rid vals bits join d

/-- A wait that has ended at issue: its result returns in d clocks and clears the bits it reports. -/
def waitOver (h : Hdr) (d : Nat) (vals : List RegW) (bits : BitVec 7) (join : Option View) (s : State) : State :=
  let (id, s1) := resultWait (vals.map RegW.reg) .park s
  let t := modRes (curT s1) id fun r => { r with vals := vals, wait := .none, join := join, evt := bits }
  retire h (later (putT s1 t) d (.resultReturn s1.cur id))

/-- A wait that ends at once (R81): its bits latch, its result returns in the next clock and its bits are reported. -/
def waitNow (h : Hdr) (vals : List RegW) (bits : BitVec 7) (join : Option View) (s : State) : State :=
  waitOver h 1 vals bits join (putT s (latchEvt s.clock (curT s) bits))

/-- A timeout operand (R123). -/
def tmoOf (x : Word) : Nat := x.toNat % 2 ^ 32

/-- Schedule a timeout, unless there is none (R123). -/
def schedTimeout (s : State) (tk rid tmo : Nat) : State :=
  if tmo = 0xFFFFFFFF then s else later s tmo (.waitTimeout tk rid 0)

/-! ### Monitors (R180 to R184) -/

/-- The monitor of a line. -/
def monOf (t : Thread) (line : Nat) : Option Mon := t.mons.find? fun m => m.line == line

/-- Disarm the monitor of a line. -/
def disarm (t : Thread) (line : Nat) : Thread := { t with mons := t.mons.filter fun m => m.line != line }

/-- A monitor is displaced: MDSP latches, and an MWAIT on it ends with its predicate clear, unless the line was written
before or is written in the same clock (R183). -/
def displaceOne (s : State) (tk : Nat) (m : Mon) : State :=
  let s1 := latch (modT s tk fun t => disarm t m.line) tk evMDSP
  if m.written then s1
  else (waitsWhere (getT s1 tk) (· == .mwait m.line)).foldl
    (fun s r => atClockEnd (modT s tk fun t => { t with ghosts := t.ghosts ++ [m] }) (.waitTimeout tk r.id 2)) s1

/-- Every monitor of a thread is displaced (R180). -/
def displaceMons (s : State) (tk : Nat) : State := (getT s tk).mons.foldl (fun s m => displaceOne s tk m) s

/-- The clocks until the notice for a thread's monitor latches, 0 with none on its way. -/
def noticeIn (s : State) (tk : Nat) (m : Mon) : Nat :=
  match s.agenda.find? fun e => e.2 == .monitorNotice (addressOf s tk + armStamp m.armed) m.line with
  | some e => e.1 - s.clock
  | none => 0

/-- MONITOR_NOTICE (R182 to R184): MWR latches, and an MWAIT on the line ends with its predicate set, unless a MON has
re-armed the monitor since: that one has a notice of its own. A notice for another generation is dropped (R69). -/
def execMonitorNotice (dest line : Nat) (s : State) : Outcome State Fault Refusal :=
  .next <|
    let tk := msgSlot dest
    let stmp := msgStamp dest
    if !hereFor s tk stmp then countDrop s (stmp / 256)
    else
      let s1 := latch s tk evMWR
      if (monOf (getT s1 tk) line).all fun m => m.written && m.armed == msgArm dest then
        (waitsWhere (getT s1 tk) (· == .mwait line)).foldl
          (fun s r => endWait (modT s tk fun t => disarm t line) tk r.id (valsOf r.dst 0 true) evMWR none 0) s1
      else s1

/-! ### Wire barriers (R185 to R187) -/

/-- A thread's set of a BAR form: 0 for all, 1 + y, 17 + x. -/
def barSetOf (k : BarK) (router : Nat) : Nat :=
  match k with
  | .all => 0
  | .row => 1 + ry router
  | .col => 17 + rx router

/-- Whether a router's threads belong to a set. -/
def inSet (set router : Nat) : Bool :=
  if set = 0 then true else if set < 17 then ry router + 1 == set else rx router + 17 == set

/-- Members of a set that stand in slots (R185). -/
def barMembers (s : State) (c set : Nat) : List Nat := (threadsOf s c).filter fun tk => inSet set (routerOf (coreOf tk))

/-- The name of a saved thread in a set of arrivals: its core context and slot. -/
def savedKey (c l k : Nat) : Nat := 2 ^ 32 + ccKey c l * 8 + k

/-- The state of a set. -/
def barAt (s : State) (c set : Nat) : BarSet := mgetD (ctxD s c).bars set {}

/-- Replace the state of a set. -/
def setBar (s : State) (c set : Nat) (b : BarSet) : State := modCtx s c fun x => { x with bars := mset x.bars set b }

/-- Whether a member of a set that stands in an inbox, or is saved, has still to arrive (R185, R376). -/
def barOthers (s : State) (c set : Nat) : Bool :=
  (s.cores.any fun e => inSet set (routerOf e.1) && e.2.inbox.any fun m => m.th.ctx == c) ||
  ((ccsOf s c).any fun e => match e.2.saved with
    | some x => inSet set (routerOf x.core) && x.threads.any fun t => !(barAt s c set).arrived.contains (savedKey c e.1 t.1)
    | none => false)

/-- Note the last arrival once every member has arrived: the set releases 64 clocks later (R186). -/
def checkBar (s : State) (c set : Nat) : State :=
  let b := barAt s c set
  let ms := barMembers s c set
  if b.full.isNone && b.arrived != [] && ms.all (fun tk => b.arrived.contains tk) && !barOthers s c set then
    later (setBar s c set { b with full := some s.clock }) 64 (.barRelease c set)
  else s

/-- Check every set of a context, after a thread has left (R186). -/
def checkBars (s : State) (c : Nat) : State := (ctxD s c).bars.foldl (fun s e => checkBar s c e.1) s

/-- BAR_RELEASE (R186): the phase flips and every waiting member ends with its predicate set. -/
def execBarRelease (ctx set : Nat) (s : State) : Outcome State Fault Refusal :=
  .next <|
    let b := barAt s ctx set
    if b.full.isSome then
      let s1 := setBar s ctx set { phase := !b.phase, arrived := [], full := none }
      let s2 := b.arrived.foldl (fun s tk =>
        if (getT s tk).ctx = ctx then
          (waitsWhere (getT s tk) (· == .bar set)).foldl
            (fun s r => finishWait s tk r.id (valsOf r.dst 0 true) evBPH none 0) (latch s tk evBPH)
        else s) s1
      latchSaved s2 (fun key k _ => b.arrived.contains (savedKey (key / 4096) (key % 4096) k)) evBPH
    else s

/-! ### Scratchpad barriers (R188 to R190) -/

/-- The barrier word at a location. -/
def barWord (s : State) (loc : Nat) : Nat := memN s loc 8

/-- R189: the word after an arrival of n bytes, and whether it flips. -/
def arriveVal (w n : Nat) : Nat × Bool :=
  let ph := nbits w 63 63
  let ex := nbits w 62 32
  let arr := nbits w 31 0
  if ex ≤ arr + n then ((1 - ph) * 2 ^ 63 + ex * 2 ^ 32, true) else (ph * 2 ^ 63 + ex * 2 ^ 32 + (arr + n), false)

/-- The view a thread joins by acquiring an object at a location: the released set and the object's last write
(R149). -/
def acquired (s : State) (loc : Nat) : View :=
  let rs : View := mgetD s.rels loc {}
  rs.raises (locsFrom loc 8) s.tsCtr

/-- The extra clocks of a message between a location's core and a thread's core: none in its own share (R190). -/
def awayLat (s : State) (tk loc : Nat) : Nat :=
  if sramCore s loc = coreOf tk then 0 else latency s.cmap (routerOf (sramCore s loc)) (routerOf (coreOf tk))

/-- What an acquire of the object at a location does before it reads it (R149): the region closes if it holds an entry over
the object, and every entry over the object drains. -/
def acqDrain (s : State) (tk loc : Nat) : State :=
  let locs := locsFrom loc 8
  let own := (getT s tk).buf.any fun b => b.opened && b.locs.any fun x => locs.contains x
  drainCovering (if own then closeRegion s tk else s) tk locs

/-- A flip of the barrier at a location ends every wait registered there, as an acquire of it (R190, R163). -/
def flipWake (s : State) (loc : Nat) : State :=
  let ws := s.bwaits.filter fun e => e.1 == loc
  ws.foldl (fun s e =>
    match findRes (getT s e.2.1) e.2.2 with
    | some r =>
      let s1 := acqDrain s e.2.1 loc
      finishWait s1 e.2.1 r.id (valsOf r.dst 0 true) evBPH (some (acquired s1 loc)) (3 + awayLat s1 e.2.1 loc)
    | none => latchBroken s e.2.2 evBPH) { s with bwaits := s.bwaits.filter fun e => e.1 != loc }

/-- Send an arrival of n bytes to the barrier at a location, to be performed after d clocks (R189). -/
def sendArrival (s : State) (d loc n : Nat) (v : View) (key tk rid : Nat) : State :=
  let (id, s1) := newId s
  let a : Arrival := { bytes := n, view := v, key := key, tk := tk, rid := rid, sentTo := sramCore s loc }
  later { s1 with arrivals := mset s1.arrivals id a } d (.barrierArrival loc n id)

/-- Whether another arrival that has come at the same word in this clock goes first (R262). -/
def arrivalWaits (s : State) (loc : Nat) (a : Arrival) : Bool :=
  s.ends.any fun i => match i with
    | .barrierArrival loc' _ aid' => loc' == loc && (mget s.arrivals aid').any fun x => x.late && decide (x.key < a.key)
    | _ => false

/-- Perform an arrival at a scratchpad barrier (R189, R163): the word changes in one step, its released set grows, and a flip
wakes the waiters; a BARA is acknowledged. -/
def arriveNow (s : State) (loc aid : Nat) (a : Arrival) : State :=
  let (w, flip) := arriveVal (barWord s loc) a.bytes
  let s0 := { s with arrivals := mdel s.arrivals aid }
  let (ts, s1) := append s0 ((locsFrom loc 8).zip (bytesLE 8 w)) none
  let s2 := { s1 with
    rels := mset s1.rels loc ((mgetD s1.rels loc {}).join a.view)
    vers := mset s1.vers loc (mgetD s1.vers loc 0 + 1) }
  let s3 := if flip then flipWake s2 loc else s2
  match findRes (getT s3 a.tk) a.rid with
  | some _ =>
    let s4 := modT s3 a.tk fun t => { t with view := t.view.raises (locsFrom loc 8) ts }
    later s4 (if sramCore s loc = coreOf a.tk then 3 else awayLat s4 a.tk loc) (.resultReturn a.tk a.rid)
  | none => s3

/-- BARRIER_ARRIVAL (R189, R163, R262): what comes in one clock is performed at the clock's end, once every job has posted its
arrivals, in the order of R262. A core context that is on no core holds an arrival, and one that finds it moved travels on
(R363, R375, R358). -/
def execBarrierArrival (loc bytes aid : Nat) (s : State) : Outcome State Fault Refusal :=
  .next <|
    match mget s.arrivals aid with
    | none => s
    | some a =>
      if lostShare s loc then { s with arrivals := mdel s.arrivals aid }
      else if heldShare s loc then holdAt s (sramKey loc / 4096) (sramKey loc % 4096) (.barrierArrival loc bytes aid)
      else if sramCore s loc ≠ a.sentTo then
        later { s with arrivals := mset s.arrivals aid { a with sentTo := sramCore s loc } } (coreLat s a.sentTo (sramCore s loc))
          (.barrierArrival loc bytes aid)
      else if !a.late then
        atClockEnd { s with arrivals := mset s.arrivals aid { a with late := true } } (.barrierArrival loc bytes aid)
      else if arrivalWaits s loc a then atClockEnd s (.barrierArrival loc bytes aid)
      else arriveNow s loc aid a

/-! ### Timeouts (R123, R183, R187, R190) -/

/-- A wait's timeout, after every other step of its clock. An MWAIT whose flag is set and whose notice is on its way does not
time out (R183, R184; log 44). -/
def timeoutNow (s : State) (tk : Nat) (r : Res) : State :=
  let t := getT s tk
  match r.wait with
  | .park => if t.evt = 0 then latch s tk evTMO else s
  | .mwait line =>
    (match monOf t line with
      | some m => if m.written then s
                  else finishWait (modT s tk fun t => disarm t line) tk r.id (valsOf r.dst 0 false) evTMO none 1
      | none => s)
  | .bar set =>
    let b := barAt s t.ctx set
    if b.full.isSome then s
    else finishWait (setBar s t.ctx set { b with arrived := b.arrived.filter (· != tk) }) tk r.id
      (valsOf r.dst 0 false) evTMO none 1
  | .bwait loc =>
    finishWait { s with bwaits := s.bwaits.filter fun e => e != (loc, tk, r.id) } tk r.id (valsOf r.dst 0 false) evTMO none 1
  | _ => s

/-- The end, at a clock's end, of a wait that an event of the clock ends: a PARK reports every bit then set (R123); an MWAIT
whose monitor was displaced ends so unless its line was written in the clock, and then its notice ends it (R183). -/
def eventNow (s : State) (tk : Nat) (r : Res) : State :=
  let t := getT s tk
  match r.wait with
  | .park => if t.evt = 0 then s else endWait s tk r.id (valsOf r.dst (t.evt.setWidth 64) true) t.evt none 1
  | .mwait line =>
    let s1 := modT s tk fun t => { t with ghosts := t.ghosts.filter (·.line != line) }
    if t.ghosts.any fun m => m.line == line && m.written then s1
    else endWait s1 tk r.id (valsOf r.dst 0 false) evMDSP none 1
  | _ => s

/-- WAIT_TIMEOUT (R123): an ending of the same clock wins, one by an instruction of that clock included (R183, R187, R190);
so the step takes its turn once the clock's issue turns are over, before anything of the next clock. With 2 for its last
operand it is the end of a wait by an event of the clock. -/
def execWaitTimeout (tk rid last : Nat) (s : State) : Outcome State Fault Refusal :=
  .next <|
    match findRes (getT s tk) rid with
    | none => s
    | some r =>
      if last = 0 then atClockEnd s (.waitTimeout tk rid 1)
      else if last = 2 then eventNow s tk r
      else timeoutNow s tk r

end Sys2Proof.Machine
end

