-- ==== Sys2Proof/Machine/Place.lean ====
section
/-!
DEFINITION. Placing threads in slots and freeing them (R68), SPAWN's request (R71, R84), and migration (R73 to R75,
R85): departure, inboxes, admission and the freeing of the source slot.
-/

namespace Sys2Proof.Machine

open Host

/-- A chain's replica stands in a slot (R313). -/
def seatReplica (s : State) (tk : Nat) (th : Thread) : State :=
  match th.chain with
  | none => s
  | some p => modCtx s th.ctx fun x => { x with chains := x.chains.map fun ch =>
      if ch.id = p.chain then
        { ch with reps := ch.reps.map fun r => if r.stage = p.stage ∧ r.rep = p.rep then { r with tk := some tk } else r }
      else ch }

/-- Place a thread in a slot, which takes a fresh generation (R68). -/
def placeThread (s : State) (tk : Nat) (th : Thread) : State :=
  let x := slotAt s tk
  seatReplica (setT (setSlot s tk { x with gen := x.gen + 1, lastPlaced := some s.clock, past := (s.idCtr, th.ctx) :: x.past.take 255, occ := .used }) tk th) tk th

/-- The first clock in which a freed slot takes a placement (R68, R84). -/
def placeableAt (x : Slot) : Nat :=
  max (match x.lastPlaced with
    | some p => p + 16
    | none => 0) (match x.freed with
    | some f => f + 1
    | none => 0)

/-- A slot of a core that is reserved for a core context, free and open to a placement in this clock; the lowest
such. -/
def openSlot (s : State) (core c l : Nat) : Option Nat :=
  (natsWhere 8 fun k =>
    let x := slotAt s (tkOf core k)
    x.ctx == c && x.lcore == l && x.occ == .free && decide (placeableAt x ≤ s.clock)).head?.map fun k => tkOf core k

/-- Free a slot; its core's inbox admits once the slot takes a placement (R72, R75). -/
def freeSlot (s : State) (tk : Nat) : State :=
  let x := slotAt s tk
  let s1 := setSlot { s with threads := mdel s.threads tk } tk { x with occ := .free, freed := some s.clock }
  if isCompute (coreOf tk) then laterAt s1 (placeableAt (slotAt s1 tk)) (.inboxAdmit (coreOf tk)) else s1

/-- Undefined vector registers (R71; log 4). -/
def clobberRegs (ctr tag : Nat) (t : Thread) : Thread := { t with v := Vector.ofFn fun i => Config.freeVec ctr (tag + i.val) }

/-- Undefined vector registers and predicates (R74; log 4), p0 all-true. -/
def clobberVec (ctr tag : Nat) (t : Thread) : Thread :=
  { clobberRegs ctr tag t with
    p := (Vector.ofFn fun i => Config.freePred ctr (tag + i.val)).set 0 (BitVec.allOnes 256) }

/-- Whether a migrant of a context waits in a core's inbox. -/
def migrantWaits (s : State) (core c : Nat) : Bool := (coreAt s core).inbox.any fun m => m.th.ctx == c

/-- Note the core that a result's request is sent to. -/
def sendTo (s : State) (rid : Nat) (core : Option Nat) : State :=
  if core.isSome then putT s (modRes (curT s) rid fun r => { r with sentTo := core }) else s

/-- Whether a core that a core context has left still forwards its messages (R358). -/
def forwards (s : State) (core c l : Nat) : Bool := (coreAt s core).berm.any fun b => b.ctx == c && b.lcore == l

/-- A request that a core context performs, as the step `i`: while it is on no core the request waits there (R363, R375); where
it has moved since the request was sent, the vacated core forwards it as long as its berm entry stands (R358), and after that it
is dropped (R69). -/
def atCC (s : State) (c l : Nat) (cc : CoreCtx) (tk rid : Nat) (i : Instr) (eff : State → State) : State :=
  let from_ := ((findRes (getT s tk) rid).bind (·.sentTo)).getD cc.phys
  if cc.cst ≠ .resident then holdAt s c l i
  else if from_ = cc.phys ∨ !isCompute from_ then eff s
  else if forwards s from_ c l then
    later (modT s tk fun t => modRes t rid fun r => { r with sentTo := some cc.phys }) (coreLat s from_ cc.phys) i
  else later (modT s tk fun t => modRes t rid fun r => { r with sentTo := none }) 0 (.messageDrop tk rid c)

/-- The child that SPAWN makes (R71, R57, R155). -/
def spawnChild (s : State) (lcore : Nat) (pc : Word) : Thread :=
  let t := curT s
  clobberRegs s.freeCtr 1000
    { Thread.blank with
      ctx := t.ctx
      lcore := lcore
      g := Vector.ofFn fun i => if i.val < 4 then readG s t i else 0
      pc := pc
      lane := t.lane ||| 0x8000
      priv := t.priv
      tvec := t.tvec
      fxe := t.fxe
      rng := seedGen 1 (t.lane ||| 0x8000)
      entry := .start
      view := t.view }

/-- SPAWN_REQUEST (R71, R84): place the child if a reserved slot is free and no migrant waits; the reply carries the
predicate. A core context that is on no core holds the request, and one that has moved has it forwarded (R363, R375, R358). -/
def execSpawnRequest (tk rid : Nat) (s : State) : Outcome State Fault Refusal :=
  .next <|
    match mget s.spawns rid with
    | none => s
    | some ch =>
      match getCC s ch.ctx ch.lcore with
      | none => { s with spawns := mdel s.spawns rid }
      | some cc => atCC s ch.ctx ch.lcore cc tk rid (.spawnRequest tk rid) fun s =>
          let s0 := { s with spawns := mdel s.spawns rid }
          let slot := if migrantWaits s cc.phys ch.ctx then none else openSlot s cc.phys ch.ctx ch.lcore
          let (s1, ok) := match slot with
            | some k => (placeThread s0 k ch, true)
            | none => (later s0 0 (.chainFold ch.ctx (65536 + cc.phys)), false)
          later (modT s1 tk fun t => modRes t rid fun r => { r with vals := valsOf r.dst 0 ok, wait := .none })
            (coreLat s1 cc.phys (coreOf tk)) (.resultReturn tk rid)

/-! ### Migration (R73 to R75, R85) -/

/-- A thread departs for a logical core (R74): its region ends, its monitors are displaced, its vector state and TSCR
are undefined, and its record leaves. A new run starts where it resumes (R64). CAUSE, TVAL, EPC, TSTAT and SEED, for which
the record has no field, go on with it (R131; log 48). -/
def depart (s : State) (tk lcore phys : Nat) : State :=
  let s1 := displaceMons (closeRegion s tk) tk
  let s2 := modT s1 tk fun t =>
    { clobberVec s.freeCtr 2000 t with tscr := Config.freeWord s.freeCtr 2000, block := .leaving lcore phys,
                                         run := { t.run with live := false, closer := false } }
  later s2 (recLatency s.cmap (routerOf (coreOf tk)) (routerOf phys)) (.migrantArrive tk)

/-- The executing thread migrates before its instruction (R73): once its results are back, it departs and will resume
at the instruction. -/
def migrateHere (s : State) (lcore phys : Nat) : State :=
  if (curT s).res = [] then depart s s.cur lcore phys else retry s

/-- What is left in a source slot until the acceptance arrives (R75, R85). -/
def ghost (lcore core : Nat) : Thread := { Thread.blank with block := .leaving lcore core }

/-- MIGRANT_ARRIVE (R74, R75): the target's inbox takes the record, or refuses it and the source tries again a multiple of
64 clocks after departure. The row and column that the thread leaves may then be complete (R185, R186). A target that is on
no core holds the record, and a vacated core forwards it (R375, R358). -/
def execMigrantArrive (tk : Nat) (s : State) : Outcome State Fault Refusal :=
  .next <|
    let t := getT s tk
    match t.block with
    | .leaving l core =>
      match getCC s t.ctx l with
      | none => s
      | some cc =>
        if cc.cst ≠ .resident then holdAt s t.ctx l (.migrantArrive tk)
        else if core ≠ cc.phys then
          later (setT s tk { t with block := .leaving l cc.phys }) (recLatency s.cmap (routerOf core) (routerOf cc.phys)) (.migrantArrive tk)
        else
          let c := coreAt s cc.phys
          let lat := coreLat s cc.phys (coreOf tk)
          if c.inbox.length < 16 then
            let th := { t with block := .free, lcore := l }
            let s1 := setCore s cc.phys { c with inbox := c.inbox ++ [{ src := tk, th := th, acc := true }] }
            let s2 := checkBars (setT s1 tk (ghost l core)) t.ctx
            later (later s2 lat (.migrantAccepted (addressOf s tk))) 0 (.inboxAdmit cc.phys)
          else
            let rec_ := recLatency s.cmap (routerOf (coreOf tk)) (routerOf cc.phys)
            later s (64 * ceilDiv (rec_ + lat) 64 - rec_) (.migrantRetry tk)
    | _ => s

/-- MIGRANT_RETRY (R75): the refused record leaves again. -/
def execMigrantRetry (tk : Nat) (s : State) : Outcome State Fault Refusal :=
  .next <|
    match (getT s tk).block with
    | .leaving _ core => later s (recLatency s.cmap (routerOf (coreOf tk)) (routerOf core)) (.migrantArrive tk)
    | _ => s

/-- MIGRANT_ACCEPTED (R85): the source slot is freed, if it is still the one whose thread left. -/
def execMigrantAccepted (dest : Nat) (s : State) : Outcome State Fault Refusal :=
  .next <|
    let tk := msgSlot dest
    let stmp := msgStamp dest
    match mget s.threads tk with
    | some t => (match t.block with
      | .leaving _ _ =>
        if t.ctx = 0 ∧ (slotAt s tk).past.head?.any (fun e => e.2 == stmp / 256) ∧ (slotAt s tk).gen.toNat = stmp % 256 then freeSlot s tk
        else s
      | _ => s)
    | none => s

/-- Split an inbox at the first record that satisfies a test. -/
def takeFirst (p : Mig → Bool) : List Mig → Option (Mig × List Mig)
  | [] => none
  | m :: r => if p m then some (m, r) else (takeFirst p r).map fun e => (e.1, m :: e.2)

/-- Ask the chains of a launch that have a stage thread on a core to fold, for want of a slot there (R327). -/
def askFolds (s : State) (c core : Nat) : State :=
  if (ctxD s c).chains = [] ∨ (s.agenda.any fun e => e.2 == .chainFold c (65536 + core)) then s
  else later s 0 (.chainFold c (65536 + core))

/-- INBOX_ADMIT (R75): the first record whose launch has a reserved slot open takes it; the record's IDEMPC becomes
its pc (R74). -/
def execInboxAdmit (core : Nat) (s : State) : Outcome State Fault Refusal :=
  .next <|
    let c := coreAt s core
    match takeFirst (fun m => (openSlot s core m.th.ctx m.th.lcore).isSome) c.inbox with
    | none => c.inbox.foldl (fun s m => askFolds s m.th.ctx core) s
    | some (m, rest) =>
      match openSlot s core m.th.ctx m.th.lcore with
      | none => s
      | some k =>
        let s1 := placeThread (setCore s core { c with inbox := rest }) k { m.th with idemPc := m.th.pc }
        if rest = [] then s1 else later s1 0 (.inboxAdmit core)

end Sys2Proof.Machine
end

