-- ==== Sys2Proof/Machine/Control.lean ====
section
/-!
DEFINITION. Control and thread instructions, opcodes 0x00 to 0x0C but QUIT (R118 to R131), the request of a variable
result (R408) and its return (R63 to R65), and taking MAPEVT (R36).
-/

namespace Sys2Proof.Machine

open Host

/-! ### Branches (R101, R102, R119) -/

/-- Go to a target (R102): one that no slot can be traps BADTGT at once; else its line is checked when fetched. -/
def jump (h : Hdr) (t : Word) (s : State) : State :=
  if bitsOf t 5 3 ≠ 0 ∨ 4 < bitsOf t 2 0 then trapHere s cBADTGT t
  else
    let pc := (curT s).pc
    retireTo h t (putT s { curT s with entry := .branch pc })

/-- Branch by an offset (R101): a target outside the address space traps BADTGT with its slot index. -/
def branch (h : Hdr) (d : BitVec 24) (s : State) : State :=
  match slotTarget (curT s).pc d with
  | .ok t => jump h t s
  | .error n => trapHere s cBADTGT n

/-- Branch to a register (R119). -/
def branchReg (h : Hdr) (r : Fin 16) (s : State) : State :=
  let t := gVal s r
  if bitsOf t 63 56 ≠ 0 then trapHere s cBADTGT t else jump h t s

/-- NOP (R118). -/
def execNop (h : Hdr) (s : State) : Outcome State Fault Refusal := issue h s (retire h)

/-- BR (R119). -/
def execBr (h : Hdr) (d : BitVec 24) (s : State) : Outcome State Fault Refusal := issue h s (branch h d)

/-- BRI (R119). -/
def execBri (h : Hdr) (r : Fin 16) (s : State) : Outcome State Fault Refusal := issue h s (branchReg h r)

/-- CALL (R119): g15 takes the next pc. -/
def execCall (h : Hdr) (d : BitVec 24) (s : State) : Outcome State Fault Refusal :=
  issue h s fun s => branch h d (setG s 15 (nextPc (curT s).pc))

/-- RET (R119). -/
def execRet (h : Hdr) (r : Fin 16) (s : State) : Outcome State Fault Refusal := issue h s (branchReg h r)

/-- LOOP (R119): count down, and branch while the count is not zero. -/
def execLoop (h : Hdr) (n : Fin 16) (d : BitVec 24) (s : State) : Outcome State Fault Refusal :=
  issue h s fun s =>
    let x := gVal s n - 1
    let s1 := setG s n x
    if x ≠ 0 then branch h d s1 else retire h s1

/-! ### Threads (R120 to R123) -/

/-- The core context of a logical core named by a register value. -/
def namedCore (s : State) (l : Word) : Option CoreCtx :=
  if l.toNat < 4096 then getCC s (curT s).ctx l.toNat else none

/-- SPAWN (R121, R71): the request leaves for the target core; the predicate is variable. -/
def execSpawn (h : Hdr) (l : Fin 16) (c : Fin 32) (d : BitVec 24) (s : State) : Outcome State Fault Refusal :=
  issueC (.spawn h l c d) h s fun s =>
    let L := gVal s l
    match namedCore s L with
    | none => trapHere s cPROT L
    | some cc =>
      match slotTarget (curT s).pc d with
      | .error n => trapHere s cBADTGT n
      | .ok t => withRoom s fun s => withOrder s false fun s =>
        let ch := spawnChild s L.toNat t
        let (id, s0) := resultWait [.c c] (.request (.spawn L.toNat)) (closeCur s)
        let s1 := sendTo s0 id (some cc.phys)
        retire h (later { s1 with spawns := mset s1.spawns id ch } (coreLat s1 (coreOf s.cur) cc.phys) (.spawnRequest s.cur id))

/-- MIGR (R122, R73): to the own core it only waits for results; else the thread departs and resumes at the next
instruction. -/
def execMigr (h : Hdr) (l : Fin 16) (s : State) : Outcome State Fault Refusal :=
  issueC (.migr h l) h s fun s =>
    let L := gVal s l
    match namedCore s L with
    | none => trapHere s cPROT L
    | some cc =>
      if (curT s).res ≠ [] then retry s
      else if L.toNat = (curT s).lcore then retire h s
      else depart (retire h s) s.cur L.toNat cc.phys

/-- PARK (R123): ends at once if an event is latched or the timeout is 0. -/
def execPark (h : Hdr) (d : Fin 16) (tmo : GI) (s : State) : Outcome State Fault Refusal :=
  issue h s fun s => withRoom s fun s =>
    let t := tmoOf (giVal s tmo)
    let e := (curT s).evt
    if e ≠ 0 ∨ t = 0 then waitNow h [.g d (e.setWidth 64)] e none s
    else
      let (id, s1) := resultWait [.g d] .park s
      retire h (schedTimeout s1 s.cur id t)

/-! ### Handlers (R124, R126) -/

/-- TRAP (R124). -/
def execTrap (h : Hdr) (code : BitVec 24) (s : State) : Outcome State Fault Refusal :=
  issue h s fun s => trap s cTRAPI (code.setWidth 64) (nextPc (curT s).pc)

/-- Kill the executing thread's context with a status; on a service core or the Reeve, R353 and R354 instead. -/
def killCur (s : State) (status : Nat) : State :=
  if isCompute (coreOf s.cur) then startKill s (curT s).ctx status (routerOf (coreOf s.cur)) [] else privTrap s s.cur

/-- Take the MAPEVT a context's version asks for (R36). Versions delivered before the boundary make one MAPEVT, whose TVAL
is the latest MAPVEC (log 48). -/
def takeMapevt (s : State) (tk : Nat) : State :=
  let t := getT s tk
  takeTrap (setT s tk { t with mapevt := false, mheld := false }) tk
    { cause := cMAPEVT, tval := (ctxD s t.ctx).mapvec, epc := t.pc }

/-! ### Who awaits a result (R345, log 10) -/

/-- Whether a thread awaits a result. -/
def awaits (rid : Nat) (t : Thread) : Bool := (findRes t rid).isSome

/-- Whether a frame of a folded chain awaits a result, which was outstanding at the fold (log 10). -/
def frameAwaits (s : State) (rid : Nat) : Bool :=
  s.ctxs.any fun e => e.2.chains.any fun ch => ch.reps.any fun r => r.frame.any (awaits rid)

/-- The thread in a slot that awaits a result that was asked for from a slot. -/
def holderOf (s : State) (tk rid : Nat) : Option Nat :=
  if awaits rid (getT s tk) then some tk else (s.threads.find? fun e => awaits rid e.2).map (·.1)

/-- Whether a result is still awaited, by a thread or by a frame. -/
def awaited (s : State) (tk rid : Nat) : Bool := (holderOf s tk rid).isSome || frameAwaits s rid

/-- Change the frame that awaits a result. -/
def modFrame (s : State) (rid : Nat) (f : Thread → Thread) : State :=
  { s with ctxs := mmap (fun _ x => { x with chains := x.chains.map fun ch =>
      { ch with reps := ch.reps.map fun r => { r with frame := r.frame.map fun t => if awaits rid t then f t else t } } }) s.ctxs }

/-- Change whoever awaits a result. -/
def modHolder (s : State) (tk rid : Nat) (f : Thread → Thread) : State :=
  match holderOf s tk rid with
  | some k => modT s k f
  | none => modFrame s rid f

/-- The context of a message that a slot's thread asked for: that of the placement under which the slot stood then (R69). -/
def messageCtx (s : State) (tk rid : Nat) : Nat :=
  match (slotAt s tk).past.find? fun e => decide (e.1 < rid) with
  | some e => e.2
  | none => (slotAt s tk).ctx

/-- TRET (R126): outside a handler it traps ILLOP; it waits for results, then resumes at EPC; a held MAPEVT is taken
at once if MAPVEC still exceeds ACKV (R36), and supersedes a deferred trap of the handler's run (R350). -/
def execTret (h : Hdr) (s : State) : Outcome State Fault Refusal :=
  issue h s fun s =>
    let t := curT s
    let x := ctxD s t.ctx
    if t.inh = false then illop (.tret h) s
    else if t.res ≠ [] then retry s
    else if 4 < bitsOf t.epc 2 0 then killCur s 0x82
    else
      let t1 := { t with inh := false, mheld := false }
      if t.mheld ∧ x.ackv.toNat < x.mapvec.toNat then
        takeMapevt (putT s { t1 with pc := t.epc, hold := s.clock + 1 + h.pace.val }) s.cur
      else retireTo h t.epc (putT s t1)

/-- Whether a wait of R79 holds a result (R360, R36). -/
def Wait.isWait : Wait → Bool
  | .none => false
  | .request _ => false
  | .kill _ => false
  | .tst _ => false
  | .link _ _ _ _ => false
  | .park => true
  | .mwait _ => true
  | .bar _ => true
  | .bwait _ => true
  | .job _ _ _ => true
  | .srecv _ _ => true
  | .get _ _ _ => true

/-- End a thread's waits without results (R36, R360): it will run again from the earliest waiting instruction. -/
def breakWaits (t : Thread) : Thread :=
  match t.res.find? fun r => r.wait.isWait with
  | none => t
  | some r => { t with res := t.res.filter (fun r => !r.wait.isWait), pc := r.pc, ended := false, entry := .none }

/-- A chain's replica is no longer parked at its GET or PUT (R345). -/
def unparkReplica (s : State) (tk : Nat) : State :=
  match (getT s tk).chain with
  | none => s
  | some p => modCtx s (getT s tk).ctx fun x => { x with chains := x.chains.map fun ch =>
      if ch.id = p.chain then
        { ch with reps := ch.reps.map fun r =>
            if r.stage = p.stage ∧ r.rep = p.rep then { r with at_ := .run, tk := some tk, frame := none } else r }
      else ch }

/-- Enter accesses into their tracks' queues, whose turn is then looked at in this clock. -/
def enterAccs (s : State) (l : List Acc) : State :=
  l.foldl (fun s a =>
    later (a.gang.foldl (fun s k => let t := trackAt s k; setTrack s k { t with acc := t.acc ++ [a] }) s) 0 (.cursorStep (a.gang.headD 0))) s

/-- Withdraw the hold of a thread from the track store (R279): its request leaves every queue, and what stood behind it in
one goes on, an HREL that followed it too. -/
def leaveLeases (s : State) (tk : Nat) : State :=
  let gone := fun (r : LeaseReq) => r.slot == tk && r.held
  let hold := fun (a : Acc) => a.tk == tk && (match a.op with
    | .hold _ _ => true
    | _ => false)
  let s1 := s.tracks.foldl (fun s e => if e.2.wait.any gone then later s 1 (.leaseGrant e.1) else s) s
  let s2 := s.tracks.foldl (fun s e => if e.2.acc.any hold then later s 0 (.cursorStep e.1) else s) s1
  let rels := s.tracks.foldl (fun a e => (e.2.wait.filter gone).foldl (fun a r => r.rels.foldl (fun a x => addNew x a) a) a) []
  enterAccs { s2 with tracks := s.tracks.map fun e =>
      (e.1, { e.2 with wait := e.2.wait.filter fun r => !gone r, acc := e.2.acc.filter fun a => !hold a }) } rels

/-- Whether a thread is the folded thread of a chain whose running frame has quit and of which no other is able: events wait for
a frame to run (R328, R346). -/
def frameless (s : State) (t : Thread) : Bool :=
  match t.chain with
  | none => false
  | some p => (ctxD s t.ctx).chains.any fun ch => ch.id == p.chain &&
      ch.reps.any fun r => r.stage == p.stage && r.rep == p.rep && r.quit

/-- Whether a thread is parked: at its run's switch marker, or at an instruction that waits (R64, R79, R345). -/
def parked (t : Thread) : Bool := t.ended || t.block == .inChain || t.block == .port

/-- A thread held at a HOLD.W, a GET, a PUT or a stream send lets go of it: the instruction runs again (R36, R279). -/
def unhold (s : State) (tk : Nat) : State :=
  let free := fun (s : State) => modT s tk fun t => { t with block := .free }
  match (getT s tk).block with
  | .lease => free (leaveLeases s tk)
  | .port => free s
  | .inChain => free (unparkReplica s tk)
  | _ => unparkReplica s tk

/-- MAPEVT_TAKE (R36): held inside a handler; a thread parked in a wait is woken, and its wait runs again after TRET; a
thread that cannot take a trap in this clock, whose instruction's writes still enter its store buffer (R233), or whose
branch target has still to be checked, takes it at its next instruction. -/
def execMapevtTake (tk : Nat) (s : State) : Outcome State Fault Refusal :=
  .next <|
    let t := getT s tk
    let x := ctxD s t.ctx
    if !t.mapevt && !(t.mheld && !t.inh) then s
    else if !t.mapevt && !decide (x.ackv.toNat < x.mapvec.toNat) then setT s tk { t with mheld := false }
    else if t.inh then setT s tk { t with mapevt := false, mheld := true }
    else if t.held.isSome || frameless s t then s
    else
      let s1 := unhold s tk
      let t := if parked t then breakWaits (getT s1 tk) else getT s1 tk
      if t.block ≠ .free ∨ t.trapP.isSome ∨ checkDue t then s1
      else takeMapevt (setT s1 tk t) tk

/-! ### Variable results of other holders (R408) -/

/-- Each leg of a request from the executing thread's core to a holder: within one cluster the request takes 2 clocks
and the reply 2. -/
def legTo (s : State) (a b : Nat) : Nat :=
  if a = b ∨ (isCompute a && isCompute b && a / 8 == b / 8) then 2 else coreLat s a b

/-- Send a request to a holder (R408); its result returns after both legs. -/
def startRequest (h : Hdr) (dst : List RegId) (q : Req) (holder : Nat) (s : State) : State :=
  withRoom s fun s =>
    let (id, s1) := resultWait dst (.request q) s
    retire h (later (sendTo s1 id (some holder)) (legTo s1 (coreOf s.cur) holder) (.remoteRequest s.cur id))

/-- The physical core of logical core 0 of a context, or a fallback. -/
def core0 (s : State) (c fallback : Nat) : Nat :=
  match getCC s c 0 with
  | some cc => cc.phys
  | none => fallback

/-- The reply to a request (R408): its values, returned after its leg. -/
def reply (s : State) (tk rid holder : Nat) (vals : List RegW) : State :=
  later (modT s tk fun t => modRes t rid fun r => { r with vals := vals, wait := .none })
    (legTo s holder (coreOf tk)) (.resultReturn tk rid)

/-! ### SYSR (R128 to R131) -/

/-- SLOTID (R82). -/
def slotId (s : State) (tk : Nat) : Word := w64 ((slotAt s tk).gen.toNat * 256 + slotOf tk)

/-- CLID (R19). -/
def clId (s : State) (core : Nat) : Word :=
  let r := routerOf core
  w64 (s.pkg * 2 ^ 16 + polderOf r * 2 ^ 13 + dieOf r * 2 ^ 11 + ry r * 16 + rx r)

/-- IDEMPC (R179). -/
def idemPcVal (t : Thread) : Word :=
  match t.region with
  | some c => (c.pc &&& 0x00FFFFFFFFFFFFC7) ||| 0x8000000000000000
  | none => t.idemPc &&& 0x00FFFFFFFFFFFFC7

/-- PW as read, predicate by predicate (R65). -/
def pwVal (s : State) (t : Thread) : Word :=
  (List.finRange 32).foldl (fun a c => if readC s t c then a ||| (1#64 <<< c.val) else a) 0

/-- GRACE (R33): ELAPSED saturates. -/
def graceVal (s : State) (x : Ctx) : Word :=
  let el := match x.graceAt with
    | some t0 => min (s.clock - t0) 0xFFFFFFFF
    | none => 0
  w64 (el * 2 ^ 32 + x.limit.toNat)

/-- DQBASE (R77). -/
def dqBaseVal (cc : CoreCtx) : Word := w64 ((if cc.dqEn then 2 ^ 63 else 0) + cc.dqBase.toNat)

/-- A thread or core register (R128 to R131, R77, R82, R204, R206, R207, R288). -/
def sysFixed (s : State) (tk n : Nat) : Word :=
  let t := getT s tk
  let cc : CoreCtx := (getCC s t.ctx t.lcore).getD { phys := coreOf tk }
  match n with
  | 0x000 => t.pc
  | 0x001 => pwVal s t
  | 0x002 => t.priv.setWidth 64
  | 0x003 => t.lane.setWidth 64
  | 0x004 => slotId s tk
  | 0x005 => t.cause.setWidth 64
  | 0x006 => t.tval
  | 0x007 => t.epc
  | 0x008 => t.tvec
  | 0x009 => w64 ((if t.mheld then 2 else 0) + (if t.inh then 1 else 0))
  | 0x00A => t.fxf.setWidth 64
  | 0x00B => t.fxe.setWidth 64
  | 0x00C => t.seed.setWidth 64
  | 0x00D => t.evt.setWidth 64
  | 0x00E => idemPcVal t
  | 0x00F => w64 (slotAt s tk).vregs
  | 0x010 => t.tscr
  | 0x100 => w64 (coreOf tk * 2 ^ 16 + t.lcore)
  | 0x101 => w64 (coreAt s (coreOf tk)).scratch
  | 0x102 => dqBaseVal cc
  | 0x103 => cc.dqLim.setWidth 64
  | 0x104 => w64 s.clock
  | _ => 0

/-- A register of the Reeve (R398 to R402). -/
def sysReeve (s : State) (n : Nat) : Word :=
  let r := s.reeve
  if 0x400 ≤ n ∧ n < 0x408 then (r.thrl.toList.getD (n - 0x400) 0).setWidth 64
  else if 0x410 ≤ n ∧ n < 0x420 then (r.tsens.toList.getD (n - 0x410) 0).signExtend 64
  else match n with
    | 0x420 => r.talert.setWidth 64
    | 0x421 => r.tclear.setWidth 64
    | 0x430 => w64 (r.logLog2.toNat * 2 ^ 20 + r.logBase.toNat * 2 ^ 5)
    | 0x431 => r.logHead.setWidth 64
    | 0x440 => timerNow s
    | _ => 0

/-- A cluster, context or management register, for a thread (R19, R290, R239, R33, R70, R355). -/
def sysVariable (s : State) (tk n : Nat) : Word :=
  let t := getT s tk
  let x := ctxD s t.ctx
  if 0x400 ≤ n then sysReeve s n
  else if 0x210 ≤ n ∧ n < 0x220 then (tileAt s (16 * coreOf tk + (n - 0x210))).shape.setWidth 64
  else match n with
    | 0x200 => clId s (coreOf tk)
    | 0x201 => let c := clusterAt s (coreOf tk / 8); w64 (c.users.toNat * 256 + c.donors.toNat)
    | 0x300 => w64 t.ctx
    | 0x301 => x.ackv
    | 0x302 => if (getCtx s t.ctx).isSome then graceVal s x else 0
    | 0x303 => x.mapvec
    | 0x304 => x.drops.setWidth 64
    | _ => 0

/-- The level of a system register for reading (R129). -/
def sysReadLevel (n : Nat) : Nat := if 0x400 ≤ n then 1 else 2

/-- Registers that service cores and the Reeve do not have (R128). -/
def sysAbsent (core n : Nat) : Bool := !isCompute core && ((0x101 ≤ n && n ≤ 0x103) || (0x200 ≤ n && n ≤ 0x220))

/-- The holder of a register (R408). -/
def sysHolder (s : State) (n : Nat) : Nat :=
  if 0x400 ≤ n then 0x804
  else if 0x300 ≤ n then core0 s (curT s).ctx (coreOf s.cur)
  else coreOf s.cur

end Sys2Proof.Machine
end

