-- ==== Sys2Proof/Machine/MemSync.lean ====
section
/-!
DEFINITION. Memory and synchronisation instructions, opcodes 0x21 to 0x2D (R166 to R190), as steps of the ordering
machine (R140 to R163), and the device step STORE_DRAIN (R146).
-/

namespace Sys2Proof.Machine

open Host

/-! ### Requests through the port (R162, R176) -/

/-- Note that the last result's request has entered the core's port behind a FENCE. -/
def markPort (s : State) (rid : Nat) (held : Bool) : State :=
  if held then putT s (modRes (curT s) rid fun r => { r with port := true }) else s

/-- The core that a request's share stands on, if it goes to a share. -/
def reqCore (s : State) (q : Req) : Option Nat :=
  let share := fun (loc : Nat) => if isSram loc then (mget s.cctxs (sramKey loc)).map (·.phys) else none
  match q with
  | .acq _ loc => share loc
  | .rel _ loc _ _ => share loc
  | .atom _ loc _ _ _ _ _ => share loc
  | _ => none

/-- Send a request of a result to its home, after d clocks; behind a FENCE it waits in the port. -/
def portSend (h : Hdr) (dst : List RegId) (q : Req) (held : Bool) (d : Nat) (s : State) : State :=
  let (id, s1) := resultWait dst (.request q) s
  retire h (later (sendTo (markPort s1 id held) id (reqCore s1 q)) d (.remoteRequest s.cur id))

/-- A request that the port holds behind a FENCE. -/
def portRequest (h : Hdr) (dst : List RegId) (q : Req) (s : State) : State := portSend h dst q true 1 s

/-! ### Reads (R168, R295) -/

/-- The delay of a memory reply: a hit's 4 clocks, and what the tape adds (R291, log 3). -/
def memDelay (s : State) : Nat × State :=
  let (d, s1) := takeDelay s 4096
  (4 + d, s1)

/-- Whether a read by a thread delivers a poisoned sector (R295). -/
def readsPoison (s : State) (t : Thread) (locs : List Nat) : Bool :=
  poisoned s (locs.filter fun x => (forward t.buf x).isNone)

/-- Count the single-bit errors that a read corrects (R295). -/
def countCorrected (s : State) (locs : List Nat) : State :=
  let n := (s.faint.filter fun sec => locs.any fun x => x / 32 == sec).length
  if n = 0 then s else { s with reeve := { s.reeve with corrected := s.reeve.corrected + n } }

/-- A variable result of memory bytes that a request has read; a poisoned sector is consumed in its stead (R295, R352). -/
def memResult (h : Hdr) (va : Nat) (read : Option Req) (poison : Bool) (vals : List RegW) (s : State) : State :=
  let (d, s1) := memDelay s
  if poison then
    let (_, s2) := resultWait (vals.map RegW.reg) .none s1
    retire h (later s2 d (.uncorrectableConsumed s2.cur va 0))
  else resultFrom h d read vals s1

/-- Whether an ATOM waits in the port (R162): behind a held request, or behind held stores that it would drain. -/
def atomHeld (s : State) (loc : Nat) : Bool := fencedNow s && ((!isSram loc && portBusy s) || hostHeld s)

/-- Where a `.MIG` access goes (R73): another logical core of the context, or a number that is none. An address of another
package, or one that no share can have (R24), has no such target. -/
def migTarget (s : State) (va : Nat) : Option (Except Nat (Nat × Nat)) :=
  let t := curT s
  let l := nbits va 28 18
  if isCompute (coreOf s.cur) && windowOf va == .global && nbits va 29 29 == 0 && nbits va 35 30 == s.pkg && l != t.lcore then
    some (match getCC s t.ctx l with
      | some cc => .ok (l, cc.phys)
      | none => .error l)
  else none

/-- Run an access, after the migration its hint asks for (R73, R170). -/
def withMig (mig : Bool) (s : State) (va : Nat) (eff : State → State) : State :=
  match (if mig then migTarget s va else none) with
  | none => eff s
  | some (.error l) => trapHere s cPROT (w64 l)
  | some (.ok (l, phys)) => migrateHere s l phys

/-- LD's register value (R168). -/
def ldVal (n : Nat) (sx : Bool) (bs : List Byte) : Word :=
  if sx then w64i (signedN (8 * n) (ofBytesLE bs)) else w64 (ofBytesLE bs)

/-- Whether an entry was issued before a result of its thread. -/
def BufItem.before (b : BufItem) (rid : Nat) : Bool := b.id?.all fun i => decide (i < rid)

/-- A thread with the buffered stores that it issued before a result of its own. -/
def asOf (t : Thread) (rid : Nat) : Thread := { t with buf := t.buf.filter (·.before rid) }

/-- The clocks of the reply of a read that was sent again to its line's home (R45): the lookup there and its leg. -/
def againBack (s : State) (tk loc : Nat) (r : Res) : Nat :=
  if r.rehash.isSome then 20 + latency s.cmap (homeRouter s (genFor s (getT s tk).ctx (coreOf tk)) loc) (routerOf (coreOf tk)) else 0

/-- A request that meets a lost target where it gets there has a lost reply (R348), which is back after its leg. -/
def unlessLost (s : State) (tk rid loc : Nat) (eff : State → State) : State :=
  match lostTarget s (getT s tk).ctx (coreOf tk) loc with
  | some (cause, ver) =>
    later (modT s tk fun t => modRes t rid fun r => { r with vals := [], wait := .none, lost := some (cause == cMAPSTALE, ver) })
      (2 + latency s.cmap (homeRouter s (genFor s (getT s tk).ctx (coreOf tk)) loc) (routerOf (coreOf tk))) (.resultReturn tk rid)
  | none => eff s

/-- Perform a load of n bytes at a location that its thread has issued and whose result is outstanding (R168): a request that
the port has held (R162), or that is sent again (R45). -/
def loadRequest (s : State) (tk rid va loc n : Nat) (sx : Bool) (r : Res) : State :=
  unlessLost s tk rid loc fun s =>
    let t := getT s tk
    let old := asOf t rid
    let locs := locsFrom loc n
    let (bs, v) := readThread s 0 old locs
    let (d, s1) := memDelay (countCorrected (setT s tk { t with view := v }) locs)
    let back := d + againBack s tk loc r
    if readsPoison s old locs then later (modT s1 tk fun t => modRes t rid fun r => { r with wait := .none }) back (.uncorrectableConsumed tk va 0)
    else
      later (modT s1 tk fun t => modRes t rid fun _ =>
        { r with vals := valsOf r.dst (ldVal n sx bs) true, wait := .none, again := some (.load va loc n sx), sent := s.clock, rehash := none })
        back (.resultReturn tk rid)

/-- LD (R168): one read step; the result is variable. Behind a FENCE the request may wait in the core's port (R162). -/
def execLd (h : Hdr) (w : Fin 4) (sx : Bool) (x : Fin 4) (mig : Bool) (_ch : CH) (d b : Fin 16)
    (idx : Option (Fin 16)) (disp : BitVec 24) (s : State) : Outcome State Fault Refusal :=
  issue h s fun s => withRoom s fun s =>
    let va := effAddr s b idx x disp
    let n := 2 ^ w.val
    withMig mig s va fun s => withTarget s va n n false fun loc s =>
      if heldShare s loc then retry s
      else withOrder s true fun s =>
      if portHeld s loc then portRequest h [.g d] (.load va loc n sx) s
      else
      let locs := locsFrom loc n
      let (bs, v) := readThread s 0 (curT s) locs
      memResult h va (some (.load va loc n sx)) (readsPoison s (curT s) locs) [.g d (ldVal n sx bs)] (countCorrected (putT s { curT s with view := v }) locs)

/-- ST (R169): one write enters the store buffer, without waiting for memory. Behind a FENCE, one to host memory will drain
when the FENCE lets it (R162). -/
def execSt (h : Hdr) (w : Fin 4) (x : Fin 4) (mig : Bool) (_ch : CH) (a : GI) (b : Fin 16)
    (idx : Option (Fin 16)) (disp : BitVec 24) (s : State) : Outcome State Fault Refusal :=
  issue h s fun s =>
    let va := effAddr s b idx x disp
    let n := 2 ^ w.val
    withMig mig s va fun s => withTarget s va n n true fun loc s => withBufRoom 1 s fun s =>
      let s1 := if portHeld s loc then putT s { curT s with hostSt := (curT s).hostSt ++ [(s.idCtr + 1, (curT s).fence)] } else s
      retire h (issueStore s1 s.cur (va / 32) ((locsFrom loc n).zip (bytesLE n (giVal s a).toNat)))

/-! ### ATOM (R150, R171, R172) -/

/-- The new value of an ATOM of n bytes, or none where `.CAS` fails. -/
def atomVal (op : AtomOp) (u : Bool) (n : Nat) (old b c : Nat) : Option Nat :=
  let m := 2 ^ (8 * n)
  let less := if u then decide (old ≤ b) else decide (signedN (8 * n) old ≤ signedN (8 * n) b)
  match op with
  | .add => some ((old + b) % m)
  | .and => some (old &&& b)
  | .or => some (old ||| b)
  | .xor => some (old ^^^ b)
  | .min => some (if less then old else b)
  | .max => some (if less then b else old)
  | .swap => some b
  | .cas => if old = b then some c else none

/-- ATOM's step at a location by a thread, whose stores up to some point drain first (R150): the old value and the state
after. -/
def atomBy (s : State) (tk : Nat) (mine : BufItem → Bool) (op : AtomOp) (u : Bool) (n loc b c : Nat) : Nat × State :=
  let locs := locsFrom loc n
  let s1 := drainWhere (closeRegion s tk) tk fun b => mine b && b.locs.any fun x => locs.contains x
  let old := ofBytesLE (Memory.readN s1.mem loc n)
  match atomVal op u n old b c with
  | some new =>
    let (ts, s2) := append s1 (locs.zip (bytesLE n new)) (some tk)
    (old, noteWriter (modT s2 tk fun t => { t with view := t.view.raises locs ts }) (getT s tk).ctx (coreOf tk) locs)
  | none => (old, modT s1 tk fun t => { t with view := t.view.raises locs s1.tsCtr })

/-- ATOM's step at a location by the executing thread. -/
def atomStep (s : State) (op : AtomOp) (u : Bool) (n loc b c : Nat) : Nat × State :=
  atomBy s s.cur (fun _ => true) op u n loc b c

/-- Note that the run holds an instruction that closes regions (R349). -/
def markCloser (s : State) : State := putT s { curT s with run := { (curT s).run with closer := true } }

/-- Whether an ATOM travels to its line's home and is performed when it gets there, and not in the clock of its issue: the tape
decides (R150, log 3). -/
def atomTravels (s : State) (loc : Nat) : Bool × State :=
  if isSram loc then (false, s)
  else
    let (k, s1) := takeDelay s 2
    (k == 1, s1)

/-- ATOM (R171, R172): on host memory it traps PROT. Behind a FENCE the request may wait in the core's port (R162). -/
def execAtom (h : Hdr) (op : AtomOp) (u dw : Bool) (d a : Fin 16) (b : GI) (n : Option GI) (s : State) :
    Outcome State Fault Refusal :=
  issue h s fun s => withRoom s fun s =>
    let va := (gVal s a).toNat
    let w := if dw then 8 else 4
    let m := 2 ^ (8 * w)
    let c := match n with
      | some x => (giVal s x).toNat % m
      | none => 0
    withChecks s va w w true fun loc s =>
      if regionOf loc = 2 ∧ !isSram loc then trapHere s cPROT (w64 va)
      else withOrder s true fun s => withTstDone s fun s =>
        let y := (giVal s b).toNat % m
        let q : Req := .atom va loc w op u y c
        if atomHeld s loc then portRequest h [.g d] q (markCloser s)
        else
          let (far, s) := atomTravels s loc
          if far then
            portSend h [.g d] q false (latency s.cmap (routerOf (coreOf s.cur)) (homeRouter s (curGen s) loc)) (markCloser s)
          else
            let p := poisoned s (locsFrom loc w)
            let (old, s1) := atomStep (countCorrected s (locsFrom loc w)) op u w loc y c
            memResult h va none p [.g d (w64 old)] s1

/-! ### Bindings (R144, R173) -/

/-- Whether a binding has not ended or begun to end. -/
def Binding.stands (b : Binding) : Bool := b.until_.isNone

/-- Whether a binding holds at a clock (R173). -/
def Binding.holdsAt (b : Binding) (clock : Nat) : Bool :=
  decide (b.from_ ≤ clock) && (match b.until_ with
    | some u => decide (clock < u)
    | none => true)

/-- Whether an address lies in a binding's range. -/
def Binding.covers (b : Binding) (va : Nat) : Bool := decide (b.base ≤ va ∧ va < b.base + b.len)

/-- Whether two ranges overlap. -/
def overlaps (a la b lb : Nat) : Bool := decide (a < b + lb ∧ b < a + la)

/-- Whether an address is bound in a context. -/
def isBound (s : State) (c va : Nat) : Bool := (ctxD s c).binds.any fun b => b.holdsAt s.clock && b.covers va

/-- The trap BIND's operands meet (R173): alignment before the windows, and no trap for an identical binding in a full set
(log 47). BIND.U takes the checks of its own operands; those against the set are of a binding that is added (log 30). -/
def bindTrap (u : Bool) (bs : List Binding) (base len obj : Nat) : Option (BitVec 8 × Nat) :=
  let same := fun (b : Binding) => b.base == base && b.len == len && b.obj == obj
  let other := fun w => decide (w ≠ Window.translated ∧ w ≠ .global)
  if base % 32 ≠ 0 ∨ len % 32 ≠ 0 ∨ len = 0 then some (cALIGN, base)
  else if obj % 8 ≠ 0 then some (cALIGN, obj)
  else if windowOf base = .local_ ∨ windowOf obj = .local_ ∨ other (windowOf base) ∨
      other (windowOf (base + len - 1)) ∨ windowOf base ≠ windowOf (base + len - 1) then some (cPROT, base)
  else if u then none
  else if bs.any (fun b => !same b && overlaps base len b.base b.len) then some (cPROT, base)
  else if bs.any (fun b => b.covers obj || overlaps base len b.obj 8) || overlaps base len obj 8 then some (cPROT, obj)
  else if 64 ≤ bs.length && !bs.any same then some (cPROT, base)
  else none

/-- BIND (R173): the change holds from 8 clocks on, for which the thread is held. -/
def execBind (h : Hdr) (u : Bool) (b : Fin 16) (len : GI) (o : Fin 16) (s : State) : Outcome State Fault Refusal :=
  issue h s fun s =>
    let base := (gVal s b).toNat
    let n := (giVal s len).toNat
    let obj := (gVal s o).toNat
    let c := (curT s).ctx
    let all := (ctxD s c).binds.filter fun b => match b.until_ with
      | some u => decide (s.clock < u)
      | none => true
    match bindTrap u (all.filter Binding.stands) base n obj with
    | some (cause, tv) => trapHere s cause (w64 tv)
    | none =>
      let same := fun (b : Binding) => b.base == base && b.len == n && b.obj == obj && b.stands
      let bs := if u then all.map fun b => if same b then { b with until_ := some (s.clock + 8) } else b
        else if all.any same then all
        else all ++ [{ base := base, len := n, obj := obj, from_ := s.clock + 8, until_ := none }]
      holdFor 8 (retire h (modCtx s c fun x => { x with binds := bs }))

/-! ### ACQ and REL (R148, R149, R174, R175, R191) -/

/-- The location a context's virtual address names for its objects, without the TLB. -/
def objLoc (s : State) (c va : Nat) : Option Nat :=
  match devAccess s 0 c 0 va false with
  | .ok loc => some loc
  | _ => none

/-- The ranges bound to the object at a location, in a context. -/
def boundTo (s : State) (c loc : Nat) : List Binding :=
  (ctxD s c).binds.filter fun b => b.holdsAt s.clock && objLoc s c b.obj == some loc

/-- Whether an entry was issued in a bound range (R148). -/
def itemBound (bs : List Binding) : BufItem → Bool
  | .write _ sec _ _ => bs.any fun b => b.covers (sec * 32)
  | .mark _ _ => false

/-- `release(o)` (R148) of a value at a location by the REL of a result, and before it the drain of what covers the object
(R175). Entries that the thread has issued since are of later steps. -/
def relStep (s : State) (tk rid loc : Nat) (add : Bool) (val : Word) : State :=
  let c := (getT s tk).ctx
  let locs := locsFrom loc 8
  let bs := boundTo s c loc
  let s0 := drainWhere (closeRegion s tk) tk fun b => b.before rid && b.locs.any fun x => locs.contains x
  let s1 := drainWhere s0 tk fun b => b.before rid && itemBound bs b
  let rs := (getT s1 tk).view.restrict (bs.flatMap fun b => rangeLocs s1 c 0 b.base b.len)
  let v := if add then w64 (memN s1 loc 8) + val else val
  let s2 := { s1 with
    rels := mset s1.rels loc ((mgetD s1.rels loc {}).join rs)
    vers := mset s1.vers loc (mgetD s1.vers loc 0 + 1) }
  let (ts, s3) := append s2 (locs.zip (bytesLE 8 v.toNat)) none
  noteWriter (modT s3 tk fun t => { t with view := t.view.raises locs ts }) c (coreOf tk) locs

/-- `acquire(o)` (R149) at a location: the value, and the state after. -/
def acqStep (s : State) (tk loc : Nat) : Word × State :=
  let s1 := acqDrain s tk loc
  let x := w64 (memN s1 loc 8)
  (x, modT s1 tk fun t => { t with view := t.view.join (acquired s1 loc) })

/-- The legs of an ACQ's request and reply (R191): in the own scratchpad the step falls one clock after issue or when a
pending arm completes, and the result returns at the later of issue + 4 and step + 3. -/
def acqLegs (s : State) (loc : Nat) : Nat × Nat :=
  let arm := (curT s).mons.foldl (fun a m => max a (m.armed - s.clock)) 0
  if isSram loc ∧ sramCore s loc = coreOf s.cur then let d := max 1 arm; (d, max (4 - d) 3)
  else
    let l := latency s.cmap (routerOf (coreOf s.cur)) (homeRouter s (curGen s) loc)
    (max l arm, latency s.cmap (homeRouter s (curGen s) loc) (routerOf (coreOf s.cur)))

/-- The leg of a REL's request (R191; own scratchpad: 3 clocks, log 8). -/
def relLeg (s : State) (loc : Nat) : Nat :=
  if isSram loc ∧ sramCore s loc = coreOf s.cur then 3
  else latency s.cmap (routerOf (coreOf s.cur)) (homeRouter s (curGen s) loc)

/-- The leg of its acknowledgement, routed from the object's home (R191, R10). -/
def relBack (s : State) (loc : Nat) : Nat :=
  if isSram loc ∧ sramCore s loc = coreOf s.cur then 3
  else latency s.cmap (homeRouter s (curGen s) loc) (routerOf (coreOf s.cur))

/-- Whether an object lies in the executing core's own scratchpad. -/
def ownShare (s : State) (loc : Nat) : Bool := isSram loc && sramCore s loc == coreOf s.cur

/-- Whether an ACQ is taken by its own timing (R191) although a REL of the thread to another core is on its way: of an object
in the own scratchpad that no store of the thread covers (log 44). -/
def acqGoes (s : State) (loc : Nat) : Bool :=
  ownShare s loc && ((curT s).res.all fun r => match r.wait with
    | .request (.rel _ l _ _) => !ownShare s l
    | _ => true) && !(curT s).buf.any fun b => b.locs.any fun x => (locsFrom loc 8).contains x

/-- Whether an ACQ or a REL waits in the port (R162): behind a FENCE, or behind held stores that it may drain. -/
def objHeld (s : State) (loc : Nat) : Bool := portHeld s loc || hostHeld s

/-- ACQ (R174): the step is taken at the object; the value is a variable result. -/
def execAcq (h : Hdr) (x : Fin 4) (d b : Fin 16) (idx : Option (Fin 16)) (disp : BitVec 24) (s : State) :
    Outcome State Fault Refusal :=
  issue h s fun s => withRoom s fun s =>
    let va := effAddr s b idx x disp
    withChecks s va 8 8 false fun loc s =>
      if isBound s (curT s).ctx va then trapHere s cPROT (w64 va)
      else if stepDue (curT s) && !acqGoes s loc then retry s
      else withTstDone s fun s => portSend h [.g d] (.acq va loc) (objHeld s loc) (acqLegs s loc).1 s

/-- REL (R175): the step is taken at the object; the acknowledgement is a variable result without a register. -/
def execRel (h : Hdr) (acc : Bool) (x : Fin 4) (v : GI) (b : Fin 16) (idx : Option (Fin 16)) (disp : BitVec 24)
    (s : State) : Outcome State Fault Refusal :=
  issue h s fun s => withRoom s fun s =>
    let va := effAddr s b idx x disp
    withChecks s va 8 8 true fun loc s =>
      if isBound s (curT s).ctx va then trapHere s cPROT (w64 va)
      else withOrder s false fun s => withTstDone s fun s =>
        portSend h [] (.rel va loc acc (giVal s v)) (objHeld s loc) (relLeg s loc) (markCloser s)

/-! ### FENCE and IDEM (R162, R176, R178) -/

/-- FENCE (R162, R176): held until earlier reads have returned. Beyond thread scope, later track instructions, enqueues
and host requests come after the track instructions still incomplete (effect 3), and a mark enters a store buffer that
holds writes (effect 2). -/
def execFence (h : Hdr) (sc : Scope) (s : State) : Outcome State Fault Refusal :=
  issue h s fun s =>
    let t := curT s
    if readDue t then retry s
    else if sc = .thread then retire h s
    else retire h (putT s { t with
      buf := if t.buf = [] then [] else t.buf ++ [.mark sc t.region.isSome]
      fence := if trackBusy s s.cur then t.fence + 1 else t.fence })

/-- IDEM (R178): once results are back, the open region closes and a new one opens. -/
def execIdem (h : Hdr) (s : State) : Outcome State Fault Refusal :=
  issue h s fun s =>
    if (curT s).res ≠ [] then retry s
    else
      let pc := (curT s).pc
      retire h (openRegion (closeCur s) s.cur pc)

/-! ### Monitors (R180 to R184) -/

/-- The clocks of an arm (R181): 2, plus the message latency to a remote home. The home slice at the core's own router is a
local home (log 44). -/
def armDelay (s : State) (loc : Nat) : Nat :=
  2 + (if ownShare s loc then 0
       else if isSram loc then coreLat s (coreOf s.cur) (sramCore s loc)
       else
         let r := homeRouter s (curGen s) loc
         if r = routerOf (coreOf s.cur) then 0 else latency s.cmap (routerOf (coreOf s.cur)) r)

/-- MON (R181): re-arms the line's monitor, or takes a free entry, or displaces the one armed longest ago: the one whose MON
issued first (log 49). -/
def execMon (h : Hdr) (x : Fin 4) (b : Fin 16) (idx : Option (Fin 16)) (disp : BitVec 24) (s : State) :
    Outcome State Fault Refusal :=
  issue h s fun s =>
    let va := effAddr s b idx x disp
    withChecks s va 1 1 false fun loc s =>
      let line := loc / 32
      let s1 := if (monOf (curT s) line).isSome then s
        else if 4 ≤ (curT s).mons.length then
          (match (curT s).mons.head? with
            | some m => displaceOne s s.cur m
            | none => s)
        else s
      let t := disarm (curT s1) line
      retire h (putT s1 { t with mons := t.mons ++ [{ line := line, written := false, armed := s.clock + armDelay s loc }] })

/-- The line a register names, if it translates. -/
def lineOf (s : State) (va : Nat) : Option Nat :=
  let t := curT s
  match (if isCompute (coreOf s.cur) then devAccess s (coreOf s.cur) t.ctx t.lcore va false else physAccess s (coreOf s.cur) va) with
  | .ok loc => some (loc / 32)
  | _ => none

/-- MWAIT (R183, R191): displaced, written, timed out, or a wait on the monitor. A flag set at issue ends the wait as
written, with the notice where that is still on its way (log 44). -/
def execMwait (h : Hdr) (c : Fin 32) (a : Fin 16) (tmo : GI) (s : State) : Outcome State Fault Refusal :=
  issue h s fun s => withRoom s fun s =>
    let t := tmoOf (giVal s tmo)
    let m := (lineOf s (gVal s a).toNat).bind fun l => monOf (curT s) l
    match m with
    | none => waitNow h [.c c false] evMDSP none s
    | some m =>
      let off := fun (s : State) => putT s (disarm (curT s) m.line)
      if m.written then
        (if noticeIn s s.cur m = 0 then waitNow h [.c c true] evMWR none (off s)
         else waitOver h (noticeIn s s.cur m) [.c c true] evMWR none (off s))
      else if t = 0 then waitNow h [.c c false] evTMO none (off s)
      else
        let (id, s1) := resultWait [.c c] (.mwait m.line) s
        retire h (schedTimeout s1 s.cur id t)

/-! ### Barriers (R185 to R190) -/

/-- BAR (R186, R187): ends at once against the other phase; else the thread arrives and waits. -/
def execBar (h : Hdr) (k : BarK) (c : Fin 32) (sense tmo : GI) (s : State) : Outcome State Fault Refusal :=
  issue h s fun s => withRoom s fun s =>
    let x := (curT s).ctx
    let set := barSetOf k (routerOf (coreOf s.cur))
    let b := barAt s x set
    let t := tmoOf (giVal s tmo)
    if (giVal s sense).getLsbD 0 ≠ b.phase then waitNow h [.c c true] evBPH none s
    else
      let s1 := checkBar (setBar s x set { b with arrived := addNew s.cur b.arrived }) x set
      if t = 0 ∧ (barAt s1 x set).full.isNone then waitNow h [.c c false] evTMO none s
      else
        let (id, s2) := resultWait [.c c] (.bar set) s1
        retire h (schedTimeout s2 s.cur id t)

/-- The checks of a scratchpad barrier's address (R188, R167). An arrival follows a pending arm of its thread, as an ATOM does
(R181, R189; log 49). -/
def withBarrier (s : State) (va : Nat) (eff : Nat → State → State) : State :=
  if windowOf va = .local_ ∨ windowOf va = .global then withAccess s va 8 8 false eff
  else trapHere s cPROT (w64 va)

/-- The arrival of a BARA that the port has held (R162): its thread's earlier stores drain, and it travels to the barrier's
core. -/
def baraRequest (s : State) (tk rid loc n : Nat) : State :=
  let s1 := drainWhere (closeRegion s tk) tk (·.before rid)
  let s2 := modT s1 tk fun t => modRes t rid fun r => { r with wait := .none }
  sendArrival s2 (relLeg { s2 with cur := tk } loc) loc n (getT s1 tk).view (10000 + tk) tk rid

/-- BARA (R189, R163): the store buffer drains, and the arrival travels to the barrier's core. It waits in the port behind
stores that a FENCE holds there (R162). -/
def execBara (h : Hdr) (a : Fin 16) (n : GI) (s : State) : Outcome State Fault Refusal :=
  issue h s fun s => withRoom s fun s =>
    let va := (gVal s a).toNat
    withBarrier s va fun loc s => withTstDone s fun s =>
      if hostHeld s then portRequest h [] (.bara loc ((giVal s n).toNat % 2 ^ 32)) (markCloser s)
      else
      let s1 := drainAll (closeCur s) s.cur
      let (id, s2) := resultWait [] .none s1
      retire h (sendArrival s2 (relLeg s loc) loc ((giVal s n).toNat % 2 ^ 32) (curT s1).view (10000 + s.cur) s.cur id)

/-- BWAIT's wait at a barrier (R190): at once where the phase differs, else registered for the next flip. -/
def bwaitAt (h : Hdr) (a : Fin 16) (ph : GI) (tmo : Nat) (dst : List RegId) (s : State) : State :=
  withRoom s fun s => withBarrier s (gVal s a).toNat fun loc s =>
    if nbits (barWord s loc) 63 63 ≠ (giVal s ph).toNat % 2 then
      let s1 := acqDrain s s.cur loc
      waitNow h (valsOf dst 0 true) evBPH (some (acquired s1 loc)) s1
    else if tmo = 0 then waitNow h (valsOf dst 0 false) evTMO none s
    else
      let (id, s1) := resultWait dst (.bwait loc) s
      retire h (schedTimeout { s1 with bwaits := s1.bwaits ++ [(loc, s.cur, id)] } s.cur id tmo)

/-- BWAIT (R190). -/
def execBwait (h : Hdr) (a : Fin 16) (ph : GI) (s : State) : Outcome State Fault Refusal :=
  issue h s (bwaitAt h a ph 0xFFFFFFFF [])

/-- BWAIT.T (R190). -/
def execBwaitT (h : Hdr) (c : Fin 32) (a : Fin 16) (ph tmo : GI) (s : State) : Outcome State Fault Refusal :=
  issue h s fun s => bwaitAt h a ph (tmoOf (giVal s tmo)) [.c c] s

/-! ### STORE_DRAIN (R146, R156) -/

/-- Drain an entry that a thread which quit left to its launch (R72, R58). -/
def drainLeft (s : State) (c tk bid : Nat) : State :=
  match (ctxD s c).drain.find? fun e => e.1 == tk && hasEntry e.2 bid with
  | none => s
  | some e =>
    let (s1, buf, v) := drainBuf s c (coreOf tk) e.2 (ctxD s c).all bid
    modCtx s1 c fun x => { x with drain := x.drain.map fun d => if d = e then (tk, buf) else d, all := v }

/-- Whether a buffered entry of a thread in a slot may not drain yet: a tile store covers it (R245), its share is not resident
(R363), an earlier REL has still to take its step (R175), or a FENCE holds it in the port (R162). -/
def drainHeld (s : State) (tk : Nat) (t : Thread) (b : BufItem) (bid : Nat) : Bool :=
  tstCovers s tk b.locs || b.locs.any (heldShare s) ||
    (t.res.any fun r => match r.wait with
      | .request (.rel _ _ _ _) => decide (r.id < bid)
      | _ => false) ||
    (t.hostSt.any fun e => e.1 == bid && fenced s tk (slotAt s tk).gen e.2)

/-- Whether an entry of a thread in a slot waits: it, or an entry that must drain before it, is held. -/
def drainWaits (s : State) (k bid : Nat) (t : Thread) : Bool :=
  (drainsWith s (coreOf k) t.buf bid).any fun x => drainHeld s k t x (x.id?.getD 0)

/-- Drain an entry from wherever it stands: its thread, in a slot or an inbox, or its launch's pending drain. It waits while it,
or an entry that must drain before it, is held. -/
def drainNamed (tk bid : Nat) (s : State) : State :=
    match s.threads.find? fun e => hasEntry e.2.buf bid with
    | some (k, t) =>
      (match t.buf.find? fun b => b.id? == some bid with
        | some b =>
          if b.opened then s
          else if drainWaits s k bid t then later s 1 (.storeDrain tk bid)
          else drainWith (setT s k { t with hostSt := t.hostSt.filter (·.1 != bid) }) k bid
        | none => s)
    | none =>
      match s.ctxs.find? fun e => e.2.drain.any fun d => hasEntry d.2 bid with
      | some (c, x) =>
        (match x.drain.find? fun d => hasEntry d.2 bid with
          | some d => drainLeft s c d.1 bid
          | none => s)
      | none =>
        match s.cores.find? fun e => e.2.inbox.any fun m => hasEntry m.th.buf bid with
        | some e => drainInInbox s e.1 bid
        | none => s

/-- STORE_DRAIN (R146, R156): the entry drains from its thread, in a slot or an inbox, or from its launch's pending drain. -/
def execStoreDrain (tk bid : Nat) (s : State) : Outcome State Fault Refusal := .next (drainNamed tk bid s)

end Sys2Proof.Machine
end

