-- ==== Sys2Proof/Machine/Scalar.lean ====
section
/-!
DEFINITION. The scalar integer instructions, opcodes 0x0E to 0x20 (R132 to R139). Each computes on 64-bit values and
writes a fixed result; none has flags.
-/

namespace Sys2Proof.Machine

open Host

/-- An operand as an integer: signed, or unsigned under MOD<2> (R133). -/
def asInt (u : Bool) (x : Word) : Int := if u then (x.toNat : Int) else x.toInt

/-- The result of R134 for an exact value: wrapped, or under SAT clamped to the signed or unsigned range. -/
def narrow (u sat : Bool) (x : Int) : Word :=
  if sat then (if u then w64i (clampI x 0 (2 ^ 64 - 1)) else w64i (clampI x (-2 ^ 63) (2 ^ 63 - 1)))
  else w64i x

/-- SHL's result (R134): the exact a·2^b narrowed; b of 64 or more gives 0, or the clamp. -/
def shlVal (u sat : Bool) (a : Int) (b : Nat) : Word :=
  if b < 64 then narrow u sat (a * 2 ^ b)
  else if sat && a != 0 then narrow u true (if a < 0 then -2 ^ 64 else 2 ^ 64)
  else 0

/-- DIV's quotient and remainder, truncated toward zero (R135). -/
def divVal (k : DivK) (a b : Word) : Word :=
  match k with
  | .q => w64i (Int.tdiv a.toInt b.toInt)
  | .r => w64i (Int.tmod a.toInt b.toInt)
  | .qu => w64 (a.toNat / b.toNat)
  | .ru => w64 (a.toNat % b.toNat)

/-- MUL's forms (R134). -/
def mulVal (k : MulK) (sat : Bool) (a b : Word) : Word :=
  match k with
  | .lo => narrow false sat (a.toInt * b.toInt)
  | .lou => narrow true sat ((a.toNat : Int) * b.toNat)
  | .hi => w64i ((a.toInt * b.toInt) / 2 ^ 64)
  | .hiu => w64 (a.toNat * b.toNat / 2 ^ 64)

/-- SHR's result (R136). -/
def shrVal (ar : Bool) (a : Word) (b : Nat) : Word :=
  if ar then w64i (a.toInt / 2 ^ min b 64) else if b < 64 then w64 (a.toNat / 2 ^ b) else 0

/-- The relation of a condition on integers (R113). -/
def relInt (r : Rel) (x y : Int) : Bool :=
  match r with
  | .eq => x == y | .ne => x != y | .lt => decide (x < y) | .le => decide (x ≤ y)
  | .gt => decide (y < x) | .ge => decide (y ≤ x)

/-- COND on integer operands (R113): the variant compares unsigned. -/
def condInt (cd : Cond) (a b : Word) : Bool := relInt cd.rel (asInt cd.var a) (asInt cd.var b)

/-- MOVI's result (R137). -/
def moviVal (k : MoviK) (old : Word) (imm : BitVec 48) : Word :=
  match k with
  | .sx => imm.signExtend 64
  | .z => imm.setWidth 64
  | .hi => imm ++ old.extractLsb' 0 16

/-- BFX's result (R138). -/
def bfxVal (sx : Bool) (a : Word) (p n : Nat) : Word :=
  if p ≥ 64 ∨ n = 0 then 0
  else
    let m := min n (64 - p)
    let f := a.toNat / 2 ^ p % 2 ^ m
    if sx then w64i (signedN m f) else w64 f

/-- BFI's result (R138). -/
def bfiVal (old a : Word) (p n : Nat) : Word :=
  if p ≥ 64 ∨ n = 0 then old
  else putBits old (p + min n (64 - p) - 1) p a.toNat

/-- BITC's result (R139). -/
def bitcVal (k : BitcK) (a : Word) : Word :=
  match k with
  | .clz => w64 (clzN 64 a.toNat)
  | .ctz => w64 (ctzFrom 64 0 a.toNat)
  | .popc => w64 (popN 64 a.toNat)
  | .brev => w64 (revN 64 a.toNat)

/-- ADD (R134). -/
def execAdd (h : Hdr) (u sat : Bool) (d : Fin 16) (a b : GI) (s : State) : Outcome State Fault Refusal :=
  issue h s fun s => resultG h d (narrow u sat (asInt u (giVal s a) + asInt u (giVal s b))) s

/-- SUB (R134). -/
def execSub (h : Hdr) (u sat : Bool) (d : Fin 16) (a b : GI) (s : State) : Outcome State Fault Refusal :=
  issue h s fun s => resultG h d (narrow u sat (asInt u (giVal s a) - asInt u (giVal s b))) s

/-- MUL (R134); it holds its thread for 3 clocks (R133, log 27). -/
def execMul (h : Hdr) (k : MulK) (sat : Bool) (d : Fin 16) (a b : GI) (s : State) : Outcome State Fault Refusal :=
  issue h s fun s => holdFor 3 (resultG h d (mulVal k sat (giVal s a) (giVal s b)) s)

/-- DIV (R135): a zero divisor traps DIVZ with the dividend; else it holds its thread for 20 clocks (R133). -/
def execDiv (h : Hdr) (k : DivK) (d : Fin 16) (a b : GI) (s : State) : Outcome State Fault Refusal :=
  issue h s fun s =>
    if giVal s b = 0 then trapHere s cDIVZ (giVal s a)
    else holdFor 20 (resultG h d (divVal k (giVal s a) (giVal s b)) s)

/-- AND (R136). -/
def execAnd (h : Hdr) (d : Fin 16) (a b : GI) (s : State) : Outcome State Fault Refusal :=
  issue h s fun s => resultG h d (giVal s a &&& giVal s b) s

/-- OR (R136). -/
def execOr (h : Hdr) (d : Fin 16) (a b : GI) (s : State) : Outcome State Fault Refusal :=
  issue h s fun s => resultG h d (giVal s a ||| giVal s b) s

/-- XOR (R136). -/
def execXor (h : Hdr) (d : Fin 16) (a b : GI) (s : State) : Outcome State Fault Refusal :=
  issue h s fun s => resultG h d (giVal s a ^^^ giVal s b) s

/-- SHL (R134): b is unsigned. -/
def execShl (h : Hdr) (u sat : Bool) (d : Fin 16) (a b : GI) (s : State) : Outcome State Fault Refusal :=
  issue h s fun s => resultG h d (shlVal u sat (asInt u (giVal s a)) (giVal s b).toNat) s

/-- SHR (R136). -/
def execShr (h : Hdr) (ar : Bool) (d : Fin 16) (a b : GI) (s : State) : Outcome State Fault Refusal :=
  issue h s fun s => resultG h d (shrVal ar (giVal s a) (giVal s b).toNat) s

/-- MIN (R136). -/
def execMin (h : Hdr) (u : Bool) (d : Fin 16) (a b : GI) (s : State) : Outcome State Fault Refusal :=
  issue h s fun s =>
    resultG h d (if asInt u (giVal s a) ≤ asInt u (giVal s b) then giVal s a else giVal s b) s

/-- MAX (R136). -/
def execMax (h : Hdr) (u : Bool) (d : Fin 16) (a b : GI) (s : State) : Outcome State Fault Refusal :=
  issue h s fun s =>
    resultG h d (if asInt u (giVal s a) ≤ asInt u (giVal s b) then giVal s b else giVal s a) s

/-- CMP (R136, R113). -/
def execCmp (h : Hdr) (cd : Cond) (c : Fin 32) (a b : GI) (s : State) : Outcome State Fault Refusal :=
  issue h s fun s => resultC h c (condInt cd (giVal s a) (giVal s b)) s

/-- SEL (R136). -/
def execSel (h : Hdr) (d : Fin 16) (c : Fin 32) (a b : GI) (s : State) : Outcome State Fault Refusal :=
  issue h s fun s => resultG h d (if cVal s c then giVal s a else giVal s b) s

/-- MOV (R136). -/
def execMov (h : Hdr) (d : Fin 16) (a : GI) (s : State) : Outcome State Fault Refusal :=
  issue h s fun s => resultG h d (giVal s a) s

/-- MOVI (R137). -/
def execMovi (h : Hdr) (k : MoviK) (d : Fin 16) (imm : BitVec 48) (s : State) : Outcome State Fault Refusal :=
  issue h s fun s => resultG h d (moviVal k (gVal s d) imm) s

/-- LEA (R137). -/
def execLea (h : Hdr) (x : Fin 4) (d b : Fin 16) (idx : Option (Fin 16)) (disp : BitVec 24) (s : State) :
    Outcome State Fault Refusal :=
  issue h s fun s => resultG h d (w64 (effAddr s b idx x disp)) s

/-- BFX (R138). -/
def execBfx (h : Hdr) (sx : Bool) (d : Fin 16) (a pos len : GI) (s : State) : Outcome State Fault Refusal :=
  issue h s fun s => resultG h d (bfxVal sx (giVal s a) (giVal s pos).toNat (giVal s len).toNat) s

/-- BFI (R138): it reads its destination too. -/
def execBfi (h : Hdr) (d : Fin 16) (a pos len : GI) (s : State) : Outcome State Fault Refusal :=
  issue h s fun s => resultG h d (bfiVal (gVal s d) (giVal s a) (giVal s pos).toNat (giVal s len).toNat) s

/-- BITC (R139). -/
def execBitc (h : Hdr) (k : BitcK) (d : Fin 16) (a : GI) (s : State) : Outcome State Fault Refusal :=
  issue h s fun s => resultG h d (bitcVal k (giVal s a)) s

end Sys2Proof.Machine
end

