-- ==== Sys2Proof/Machine/Vector.lean ====
section
/-!
DEFINITION. Vector instructions, opcodes 0x2F to 0x44 and 0x49 to 0x4B (R216 to R237): lanes and predicates, the
operand forms of R218, every computation, stochastic draws (R203), flags (R206, R220) and the shadow check (R214).
-/

namespace Sys2Proof.Machine

open Host

/-! ### Lanes and predicates (R216, R217) -/

/-- Lanes of z bytes in a vector register. -/
def lanesOf (z : Nat) : Nat := 256 / z

/-- Lane j of a register's bits. -/
def laneN (z : Nat) (v : Nat) (j : Nat) : Nat := v / 2 ^ (8 * z * j) % 2 ^ (8 * z)

/-- The register of a list of lanes. -/
def ofLanes (z : Nat) (l : List Nat) : Vec := BitVec.ofNat 2048 (l.foldr (fun x a => x % 2 ^ (8 * z) + 2 ^ (8 * z) * a) 0)

/-- Whether lane j is active (R217). -/
def laneOn (z : Nat) (p : VPred) (j : Nat) : Bool := p.getLsbD (z * j)

/-- The predicate of a lane test: every bit of a lane takes its result (R217). -/
def predOf (z : Nat) (f : Nat → Bool) : VPred :=
  BitVec.ofNat 256 ((List.range (lanesOf z)).foldr (fun j a => (if f j then 2 ^ z - 1 else 0) + 2 ^ z * a) 0)

/-- A register with its active lanes replaced. -/
def mergeLanes (z : Nat) (p : VPred) (old : Vec) (f : Nat → Nat) : Vec :=
  ofLanes z ((List.range (lanesOf z)).map fun j => if laneOn z p j then f j else laneN z old.toNat j)

/-- What a lane loop gathers: lanes so far (last first), flags, generator. -/
structure LaneAcc where
  lanes : List Nat
  fl    : Flags
  rng   : W32
  deriving DecidableEq, Repr

/-- One element under RSR takes one draw (R203). -/
def takeDraw (rm : RM) (g : W32) : Nat × W32 :=
  if rm = .rsr then let g' := stepGen g; (drawOf g', g') else (0, g)

/-- Compute the active lanes in ascending order, with a draw and flags each. -/
def laneLoop (z : Nat) (p : VPred) (old : Vec) (rm : RM) (rng : W32) (f : Nat → Nat → Nat × Flags) : Vec × Flags × W32 :=
  let a := (List.range (lanesOf z)).foldl (fun (a : LaneAcc) j =>
    if laneOn z p j then
      let (d, g) := takeDraw rm a.rng
      let (x, fl) := f j d
      { lanes := x :: a.lanes, fl := a.fl ||| fl, rng := g }
    else { a with lanes := laneN z old.toNat j :: a.lanes }) { lanes := [], fl := 0, rng := rng : LaneAcc }
  (ofLanes z a.lanes.reverse, a.fl, a.rng)

/-! ### Executing (R110, R117, R214, R220) -/

/-- Vector registers at or above VREGS.COUNT trap ILLOP (R110). -/
def withVRegs (i : Instr) (rs : List (Fin 32)) (s : State) (eff : State → State) : State :=
  if rs.all fun r => decide (r.val < (slotAt s s.cur).vregs) then eff s else illop i s

/-- The device's comparison of a unit's result with its shadow's (R214): it traps where they differ in class, in the sign or
exponent of finite nonzero results, or by more than 1 in the 8-bit field. -/
def Upset.caught (u : Upset) : Bool := u.cls || (u.fin && (u.sign || u.exp != 0)) || decide (1 < u.frac.natAbs)

/-- What of an instruction is shadowed: the results it rounds, and what becomes of one whose error the comparison lets
pass (a free value; log 17). -/
structure Shadow where
  on   : Nat → Bool
  free : Nat → State → State

/-- An instruction without a shadow. -/
def noShadow (_ : State) : Shadow := { on := fun _ => false, free := fun _ s => s }

/-- Lane j of a vector register becomes a free value. -/
def freeLane (z : Nat) (d : Fin 32) (j : Nat) (s : State) : State :=
  modT s s.cur fun t =>
    let old := t.v[d].toNat
    let new := (Config.freeVec s.freeCtr 6000).toNat
    { t with v := t.v.set d (ofLanes z ((List.range (lanesOf z)).map fun k => laneN z (if k = j then new else old) k)) }

/-- The shadow of an instruction that rounds each active lane of vD. -/
def laneShadow (rounds : Bool) (z : Nat) (d : Fin 32) (pg : Fin 8) (s : State) : Shadow where
  on := fun j => rounds && decide (j < lanesOf z) && laneOn z (curT s).p[pg] j
  free := freeLane z d

/-- The shadow check (R214, R217; log 17): an error that strikes a result the instruction rounds is compared. Caught,
the instruction writes no result and the rest of the run is suppressed (R349). -/
def withShadow (h : Hdr) (sh : State → Shadow) (s : State) (eff : State → State) : State :=
  match s.corrupt.find? fun u => u.unit == (0, coreOf s.cur) && (sh s).on u.nth with
  | none => eff s
  | some u =>
    let s1 := { s with corrupt := s.corrupt.erase u }
    if u.caught then
      let t := curT s
      let r := runAt t
      retire h (putT s1 { t with run := { r with sdc := some (t.pc, r.closer) } })
    else (sh s).free u.nth (eff s1)

/-- Execute a vector instruction on vector registers. -/
def vecIssue (i : Instr) (h : Hdr) (rs : List (Fin 32)) (sh : State → Shadow) (s : State) (eff : State → State) :
    Outcome State Fault Refusal :=
  issueC i h s fun s => withVRegs i rs s fun s => withShadow h sh s eff

/-- A fixed vector result, with its flags and the generator after its draws. -/
def resultV (h : Hdr) (d : Fin 32) (x : Vec × Flags × W32) (s : State) : State :=
  let t := raiseFlags (curT s) x.2.1
  retire h (putT s { writeV t d x.1 with rng := x.2.2 })

/-- A fixed predicate result, with its flags. -/
def resultP (h : Hdr) (d : Fin 8) (x : VPred) (fl : Flags) (s : State) : State :=
  retire h (putT s (writeP (raiseFlags (curT s) fl) d x))

/-- A vector register of the executing thread. -/
def vVal (s : State) (r : Fin 32) : Vec := readV s (curT s) r

/-- A vector predicate of the executing thread. -/
def pVal (s : State) (r : Fin 8) : VPred := (curT s).p[r]

/-- A lane-computing instruction: old lanes of vD, predicate, one function per lane. -/
def laneOp (h : Hdr) (z : Nat) (d : Fin 32) (pg : Fin 8) (rm : RM) (f : State → Nat → Nat → Nat × Flags) (s : State) :
    State :=
  resultV h d (laneLoop z (pVal s pg) (vVal s d) rm (curT s).rng (f s)) s

/-! ### Operands (R218) -/

/-- A small integer in a floating format, exactly. -/
def immFloat (F : FFmt) (v : Int) : Nat := (roundF F .rne false false 0 (.fin (decide (v < 0)) v.natAbs 1)).1

/-- An immediate as a lane (R218). -/
def immLane (t : VTy) (v : BitVec 9) : Nat :=
  if t.isFloat then immFloat (fmtOf t) v.toInt else wrapN (8 * t.size) v.toInt

/-- The lanes of a source b (R218). -/
def vbLane (s : State) (t : VTy) (x : VB) : Nat → Nat :=
  match x with
  | .v r => let n := (vVal s r).toNat; laneN t.size n
  | .g r => let n := (gVal s r).toNat % 2 ^ (8 * t.size); fun _ => n
  | .im v => let n := immLane t v; fun _ => n

/-- The vector registers a source b names. -/
def vbRegs : VB → List (Fin 32)
  | .v r => [r]
  | _ => []

/-! ### Elements (R200 to R202, R225, R226) -/

/-- Round an exact value, a NaN raising NV where an operation made it invalid (R202). -/
def finishF (F : FFmt) (f : Fp) (sat : Bool) (draw : Nat) (x : Num) (nv : Bool) : Nat × Flags :=
  if x.isNan then (F.nan, if nv then fNV else 0) else roundF F f.rm sat f.fzo draw x

/-- Sum of two floating elements (R225). -/
def addF (F : FFmt) (f : Fp) (sat : Bool) (draw x y : Nat) : Nat × Flags :=
  let a := F.value (F.flush f.fzi x)
  let b := F.value (F.flush f.fzi y)
  finishF F f sat draw (a.add (f.rm == .rmi) b) (F.isSNaN x || F.isSNaN y || addInvalid a b)

/-- A floating element with its sign changed. -/
def negF (F : FFmt) (x : Nat) : Nat := if F.negOf x then x - F.signW else x + F.signW

/-- Difference of two floating elements. -/
def subF (F : FFmt) (f : Fp) (sat : Bool) (draw x y : Nat) : Nat × Flags := addF F f sat draw x (negF F y)

/-- Product of two floating elements. -/
def mulF (F : FFmt) (f : Fp) (sat : Bool) (draw x y : Nat) : Nat × Flags :=
  let a := F.value (F.flush f.fzi x)
  let b := F.value (F.flush f.fzi y)
  finishF F f sat draw (a.mul b) (F.isSNaN x || F.isSNaN y || mulInvalid a b)

/-- Opposite of a value under a flag. -/
def negIf (b : Bool) (x : Num) : Num := if b then x.neg else x

/-- Fused product and sum, rounded once (R225). -/
def fmaF (F : FFmt) (f : Fp) (sat np nc : Bool) (draw x y z : Nat) : Nat × Flags :=
  let a := F.value (F.flush f.fzi x)
  let b := F.value (F.flush f.fzi y)
  let p := negIf np (a.mul b)
  let c := negIf nc (F.value (F.flush f.fzi z))
  finishF F f sat draw (p.add (f.rm == .rmi) c)
    (F.isSNaN x || F.isSNaN y || F.isSNaN z || mulInvalid a b || addInvalid p c)

/-- FZO on a result that is not rounded (R226): a subnormal becomes zero of its sign, with UF and NX. -/
def flushOut (F : FFmt) (fzo : Bool) (x : Nat) : Nat × Flags :=
  if fzo && F.isSub x then (F.signed (F.negOf x) 0, fUF ||| fNX) else (x, 0)

/-- Whether x comes before y, −0 before +0 (R226). -/
def lessF (F : FFmt) (x y : Nat) : Bool :=
  let a := F.value x
  let b := F.value y
  if a.le b && b.le a then F.negOf x && !F.negOf y else a.le b

/-- The lesser or greater of two floating elements (R226). -/
def minmaxF (F : FFmt) (z : Fz) (mx : Bool) (x0 y0 : Nat) : Nat × Flags :=
  let x := F.flush z.fzi x0
  let y := F.flush z.fzi y0
  if F.isNaN x || F.isNaN y then (F.nan, if F.isSNaN x || F.isSNaN y then fNV else 0)
  else flushOut F z.fzo (if lessF F x y != mx then x else y)

/-- An integer lane, signed or unsigned. -/
def laneInt (u : Bool) (z x : Nat) : Int := if u then (x : Int) else signedN (8 * z) x

/-- An exact integer in a lane: wrapped, or clamped by SAT (R225). -/
def narrowLane (u sat : Bool) (z : Nat) (x : Int) : Nat :=
  let w := 8 * z
  wrapN w (if sat then (if u then clampI x 0 (2 ^ w - 1) else clampI x (-2 ^ (w - 1)) (2 ^ (w - 1) - 1)) else x)

/-- The lesser or greater of two integer elements. -/
def minmaxI (u mx : Bool) (z x y : Nat) : Nat := if decide (laneInt u z x ≤ laneInt u z y) != mx then x else y

/-- VUN on an element (R226). -/
def unVal (t : VTy) (k : UnK) (fz : Fz) (x0 : Nat) : Nat × Flags :=
  if t.isFloat then
    let F := (fmtOf t)
    let x := F.flush fz.fzi x0
    if F.isNaN x then (F.nan, if F.isSNaN x then fNV else 0)
    else flushOut F fz.fzo (match k with
      | .neg => negF F x
      | .abs => x % F.signW
      | .not => x)
  else
    let v := laneInt false t.size x0
    (wrapN (8 * t.size) (match k with
      | .neg => -v
      | .abs => if v < 0 then -v else v
      | .not => -v - 1), 0)

/-- COND on two elements (R113): the result and the flags. -/
def condVal (t : VTy) (cd : Cond) (fzi : Bool) (x y : Nat) : Bool × Flags :=
  if t.isFloat then
    let F := (fmtOf t)
    if F.isNaN x || F.isNaN y then (cd.var, if F.isSNaN x || F.isSNaN y then fNV else 0)
    else (relNum cd.rel (F.value (F.flush fzi x)) (F.value (F.flush fzi y)), 0)
  else (relInt cd.rel (laneInt cd.var t.size x) (laneInt cd.var t.size y), 0)

/-- The bitwise operations (R227, R234). -/
def logVal (k : LogK) (x y : Nat) : Nat :=
  match k with
  | .and => x &&& y
  | .or => x ||| y
  | .xor => x ^^^ y
  | .andn => x - (x &&& y)

/-- VSHF on an element (R227). -/
def shfVal (z : Nat) (u sat : Bool) (k : ShfK) (x y : Nat) : Nat :=
  let w := 8 * z
  match k with
  | .shl =>
    if sat then narrowLane u true z (laneInt u z x * 2 ^ min y 64) else if y < w then x * 2 ^ y % 2 ^ w else 0
  | .shr => if y < w then x / 2 ^ y else 0
  | .sar => wrapN w (signedN w x / 2 ^ min y w)
  | .rot => let r := y % w; x / 2 ^ r + x % 2 ^ r * 2 ^ (w - r)

/-- An integer as an exact value. -/
def numOfInt (x : Int) : Num := .fin (decide (x < 0)) x.natAbs 1

/-- VCVT on an element (R228, R208). -/
def cvtVal (t src : VTy) (f : Fp) (sat : Bool) (draw x : Nat) : Nat × Flags :=
  let v : Num := if src.isFloat then (fmtOf src).value ((fmtOf src).flush f.fzi x) else numOfInt (signedN (8 * src.size) x)
  if t.isFloat then finishF (fmtOf t) f sat draw v (src.isFloat && (fmtOf src).isSNaN x)
  else if src.isFloat then
    let (i, fl) := roundI (8 * t.size) f.rm draw v
    (wrapN (8 * t.size) i, fl)
  else (narrowLane false sat t.size (signedN (8 * src.size) x), 0)

/-- A special function on an element (R229, R209). -/
def sfuElem (F : FFmt) (f : Fp) (k : SfuK) (draw x : Nat) : Nat × Flags :=
  let b := F.flush f.fzi x
  if F.isNaN b then (F.nan, if F.isSNaN b then fNV else 0)
  else
    let (v, fl) := sfuVal k (F.value b)
    let (r, fl') := finishF F f false draw v false
    (r, fl ||| fl')

/-- A quotient of elements (R229). -/
def divElem (F : FFmt) (f : Fp) (draw x y : Nat) : Nat × Flags :=
  let a := F.flush f.fzi x
  let b := F.flush f.fzi y
  let (v, fl) := divNum (F.value a) (F.value b)
  let (r, fl') := finishF F f false draw v (F.isSNaN a || F.isSNaN b)
  (r, fl ||| fl')

/-- A square root of an element (R229). -/
def sqrtElem (F : FFmt) (f : Fp) (draw x : Nat) : Nat × Flags :=
  let a := F.flush f.fzi x
  let (v, fl) := sqrtVal (F.value a)
  let (r, fl') := finishF F f false draw v (F.isSNaN a)
  (r, fl ||| fl')

/-! ### Width, arithmetic, compare, logic, shifts (R224 to R227) -/

/-- VWIDTH (R224). -/
def execVwidth (h : Hdr) (w : Fin 4) (d : Fin 16) (s : State) : Outcome State Fault Refusal :=
  issueC (.vwidth h w d) h s fun s => resultG h d (w64 (256 / 2 ^ w.val)) s

/-- WHILE (R224): the sum a + j does not wrap. -/
def execWhileP (h : Hdr) (w : Fin 4) (cd : Cond) (d : Fin 8) (c : Fin 32) (a lim : GI) (s : State) :
    Outcome State Fault Refusal :=
  issueC (.whileP h w cd d c a lim) h s fun s =>
    let x := asInt cd.var (giVal s a)
    let y := asInt cd.var (giVal s lim)
    let z := 2 ^ w.val
    let act := fun (j : Nat) => relInt cd.rel (x + j) y
    let any := (List.range (lanesOf z)).any act
    retire h (putT s (writeC (writeP (curT s) d (predOf z act)) c any))

/-- VADD (R225). -/
def execVadd (h : Hdr) (t : VTy) (u : Bool) (f : Fp) (sat : Bool) (d a : Fin 32) (b : VB) (pg : Fin 8) (s : State) :
    Outcome State Fault Refusal :=
  vecIssue (.vadd h t u f sat d a b pg) h (d :: a :: vbRegs b) (laneShadow t.isFloat t.size d pg) s <| laneOp h t.size d pg f.rm fun s =>
    let x := laneN t.size (vVal s a).toNat
    let y := vbLane s t b
    fun j draw =>
      if t.isFloat then addF (fmtOf t) f sat draw (x j) (y j)
      else (narrowLane u sat t.size (laneInt u t.size (x j) + laneInt u t.size (y j)), 0)

/-- VSUB (R225). -/
def execVsub (h : Hdr) (t : VTy) (u : Bool) (f : Fp) (sat : Bool) (d a : Fin 32) (b : VB) (pg : Fin 8) (s : State) :
    Outcome State Fault Refusal :=
  vecIssue (.vsub h t u f sat d a b pg) h (d :: a :: vbRegs b) (laneShadow t.isFloat t.size d pg) s <| laneOp h t.size d pg f.rm fun s =>
    let x := laneN t.size (vVal s a).toNat
    let y := vbLane s t b
    fun j draw =>
      if t.isFloat then subF (fmtOf t) f sat draw (x j) (y j)
      else (narrowLane u sat t.size (laneInt u t.size (x j) - laneInt u t.size (y j)), 0)

/-- VMUL (R225). -/
def execVmul (h : Hdr) (t : VTy) (u hi : Bool) (f : Fp) (sat : Bool) (d a : Fin 32) (b : VB) (pg : Fin 8) (s : State) :
    Outcome State Fault Refusal :=
  vecIssue (.vmul h t u hi f sat d a b pg) h (d :: a :: vbRegs b) (laneShadow t.isFloat t.size d pg) s <| laneOp h t.size d pg f.rm fun s =>
    let x := laneN t.size (vVal s a).toNat
    let y := vbLane s t b
    fun j draw =>
      if t.isFloat then mulF (fmtOf t) f sat draw (x j) (y j)
      else
        let p := laneInt u t.size (x j) * laneInt u t.size (y j)
        (narrowLane u sat t.size (if hi then p / 2 ^ (8 * t.size) else p), 0)

/-- VFMA (R225): rounds once. -/
def execVfma (h : Hdr) (t : VTy) (np nc : Bool) (f : Fp) (sat : Bool) (d a : Fin 32) (b c : VB) (pg : Fin 8) (s : State) :
    Outcome State Fault Refusal :=
  vecIssue (.vfma h t np nc f sat d a b c pg) h (d :: a :: (vbRegs b ++ vbRegs c)) (laneShadow t.isFloat t.size d pg) s <|
    laneOp h t.size d pg f.rm fun s =>
      let x := laneN t.size (vVal s a).toNat
      let y := vbLane s t b
      let w := vbLane s t c
      fun j draw =>
        if t.isFloat then fmaF (fmtOf t) f sat np nc draw (x j) (y j) (w j)
        else
          let p := laneInt false t.size (x j) * laneInt false t.size (y j)
          let z := laneInt false t.size (w j)
          (narrowLane false sat t.size ((if np then -p else p) + (if nc then -z else z)), 0)

/-- VMIN and VMAX (R226). -/
def minmaxOp (h : Hdr) (t : VTy) (u mx : Bool) (fz : Fz) (d a : Fin 32) (b : VB) (pg : Fin 8) : State → State :=
  laneOp h t.size d pg .rne fun s =>
    let x := laneN t.size (vVal s a).toNat
    let y := vbLane s t b
    fun j _ => if t.isFloat then minmaxF (fmtOf t) fz mx (x j) (y j) else (minmaxI u mx t.size (x j) (y j), 0)

/-- VMIN (R226). -/
def execVmin (h : Hdr) (t : VTy) (u : Bool) (z : Fz) (d a : Fin 32) (b : VB) (pg : Fin 8) (s : State) :
    Outcome State Fault Refusal :=
  vecIssue (.vmin h t u z d a b pg) h (d :: a :: vbRegs b) noShadow s (minmaxOp h t u false z d a b pg)

/-- VMAX (R226). -/
def execVmax (h : Hdr) (t : VTy) (u : Bool) (z : Fz) (d a : Fin 32) (b : VB) (pg : Fin 8) (s : State) :
    Outcome State Fault Refusal :=
  vecIssue (.vmax h t u z d a b pg) h (d :: a :: vbRegs b) noShadow s (minmaxOp h t u true z d a b pg)

/-- VUN (R226). -/
def execVun (h : Hdr) (t : VTy) (k : UnK) (z : Fz) (d a : Fin 32) (pg : Fin 8) (s : State) :
    Outcome State Fault Refusal :=
  vecIssue (.vun h t k z d a pg) h [d, a] noShadow s <| laneOp h t.size d pg .rne fun s =>
    let x := laneN t.size (vVal s a).toNat
    fun j _ => unVal t k z (x j)

/-- VCMP (R227): inactive lanes are cleared. -/
def execVcmp (h : Hdr) (t : VTy) (cd : Cond) (z : Fz) (d : Fin 8) (a : Fin 32) (b : VB) (pg : Fin 8) (s : State) :
    Outcome State Fault Refusal :=
  vecIssue (.vcmp h t cd z d a b pg) h (a :: vbRegs b) noShadow s fun s =>
    let x := laneN t.size (vVal s a).toNat
    let y := vbLane s t b
    let p := pVal s pg
    let on := fun j => laneOn t.size p j
    let r := fun j => condVal t cd z.fzi (x j) (y j)
    let fl := (List.range (lanesOf t.size)).foldl (fun fl j => if on j then fl ||| (r j).2 else fl) (0 : Flags)
    resultP h d (predOf t.size fun j => on j && (r j).1) fl s

/-- VSEL (R227): every lane is written. -/
def execVsel (h : Hdr) (t : VTy) (d : Fin 32) (ps : Fin 8) (a : Fin 32) (b : VB) (s : State) :
    Outcome State Fault Refusal :=
  vecIssue (.vsel h t d ps a b) h (d :: a :: vbRegs b) noShadow s fun s =>
    let x := laneN t.size (vVal s a).toNat
    let y := vbLane s t b
    let p := pVal s ps
    let v := ofLanes t.size ((List.range (lanesOf t.size)).map fun j => if laneOn t.size p j then x j else y j)
    resultV h d (v, 0, (curT s).rng) s

/-- VLOG (R227). -/
def execVlog (h : Hdr) (t : VTy) (k : LogK) (d a : Fin 32) (b : VB) (pg : Fin 8) (s : State) :
    Outcome State Fault Refusal :=
  vecIssue (.vlog h t k d a b pg) h (d :: a :: vbRegs b) noShadow s <| laneOp h t.size d pg .rne fun s =>
    let x := laneN t.size (vVal s a).toNat
    let y := vbLane s t b
    fun j _ => (logVal k (x j) (y j), 0)

/-- VSHF (R227): the count is unsigned. -/
def execVshf (h : Hdr) (t : VTy) (u : Bool) (k : ShfK) (sat : Bool) (d a : Fin 32) (b : VB) (pg : Fin 8) (s : State) :
    Outcome State Fault Refusal :=
  vecIssue (.vshf h t u k sat d a b pg) h (d :: a :: vbRegs b) noShadow s <| laneOp h t.size d pg .rne fun s =>
    let x := laneN t.size (vVal s a).toNat
    let y := vbLane s t b
    fun j _ => (shfVal t.size u sat k (x j) (y j), 0)

/-! ### Conversions, blocks and special functions (R228, R229, R235, R236) -/

/-- VCVT's lane loop (R228): for each lane j of the wider type, a source lane and a destination lane. -/
def cvtLoop (t src : VTy) (f : Fp) (sat : Bool) (part : Nat) (p : VPred) (old a : Vec) (rng : W32) : Vec × Flags × W32 :=
  let zw := max t.size src.size
  let n := lanesOf zw
  let at_ := fun (y : VTy) (j : Nat) => if y.size < zw then part * n + j else j
  let acc := (List.range n).foldl (fun (acc : Map Nat × Flags × W32) j =>
    if laneOn zw p j then
      let (d, g) := takeDraw f.rm acc.2.2
      let (x, fl) := cvtVal t src f sat d (laneN src.size a.toNat (at_ src j))
      (mset acc.1 (at_ t j) x, acc.2.1 ||| fl, g)
    else acc) ([], 0, rng)
  (ofLanes t.size ((List.range (lanesOf t.size)).map fun j => mgetD acc.1 j (laneN t.size old.toNat j)), acc.2)

/-- The shadow of VCVT to a floating type: the converted lanes. -/
def cvtShadow (t src : VTy) (part : Nat) (d : Fin 32) (pg : Fin 8) (s : State) : Shadow :=
  let zw := max t.size src.size
  { on := fun j => t.isFloat && decide (j < lanesOf zw) && laneOn zw (curT s).p[pg] j
    free := fun j => freeLane t.size d (if t.size < zw then part * lanesOf zw + j else j) }

/-- VCVT (R228). -/
def execVcvt (h : Hdr) (t s2 : VTy) (f : Fp) (sat : Bool) (d a : Fin 32) (part : Fin 4) (pg : Fin 8) (s : State) :
    Outcome State Fault Refusal :=
  vecIssue (.vcvt h t s2 f sat d a part pg) h [d, a] (cvtShadow t s2 part.val d pg) s fun s =>
    resultV h d (cvtLoop t s2 f sat part.val (pVal s pg) (vVal s d) (vVal s a) (curT s).rng) s

/-- FMT code of a block format (R197, R222). -/
def blockCode : BFmt → Nat
  | .e4m3 => 1 | .e5m2 => 2 | .e2m3 => 3 | .e3m2 => 4 | .e2m1 => 5 | .shp8 => 6 | .int8 => 7

/-- emax of a block format (R235). -/
def emaxOf : BFmt → Int
  | .e4m3 => 8 | .e5m2 => 15 | .e2m3 => 2 | .e3m2 => 4 | .e2m1 => 2 | .shp8 => 1 | .int8 => 6

/-- Round an exact value to a code of a block format (R200, R201). -/
def roundCode (fm : BFmt) (f : Fp) (sat : Bool) (draw : Nat) (x : Num) : Nat × Flags :=
  match fm with
  | .shp8 => roundShp f.rm draw x
  | .int8 => let (i, fl) := roundI 8 f.rm draw x; (wrapN 8 i, fl)
  | .e4m3 => roundF E4M3 f.rm sat f.fzo draw x
  | .e5m2 => roundF E5M2 f.rm sat f.fzo draw x
  | .e2m3 => roundF E2M3 f.rm sat f.fzo draw x
  | .e3m2 => roundF E3M2 f.rm sat f.fzo draw x
  | .e2m1 => roundF E2M1 f.rm sat f.fzo draw x

/-- A payload position that is not filled (R199). -/
def padCode (fm : BFmt) : Nat := if fm = .shp8 then 0x77 else 0

/-- A block as 512 bits: FMT, SCALE, two zero bytes, payload. -/
def blockBits (fmt scale : Nat) (bits : Nat) (codes : List Nat) : Nat :=
  fmt + 256 * scale + 2 ^ 32 * codes.foldr (fun c a => c % 2 ^ bits + 2 ^ bits * a) 0

/-- The greatest finite magnitude of a list, or none where no finite value is nonzero. -/
def amaxOf (xs : List Num) : Option Num :=
  xs.foldl (fun a x => match x with
    | .fin _ n _ => if n = 0 then a else (match a with
      | some m => if m.le x.abs then some x.abs else some m
      | none => some x.abs)
    | _ => a) none

/-- The scale of a block (R235). -/
def scaleOf (fm : BFmt) (xs : List Num) : Nat :=
  match amaxOf xs with
  | some (.fin _ n d) => (clampI (floorLog2 n d - emaxOf fm + 127) 0 254).toNat
  | _ => 127

/-- Draw once per element, in order. -/
def drawList (rm : RM) (g : W32) : List Num → List (Num × Nat) × W32
  | [] => ([], g)
  | x :: r =>
    let (d, g1) := takeDraw rm g
    let (l, g2) := drawList rm g1 r
    ((x, d) :: l, g2)

/-- VQNT's block of c elements (R235): its bits, the flags and the generator. -/
def quantise (fm : BFmt) (f : Fp) (sat : Bool) (xs : List Num) (rng : W32) : Nat × Flags × W32 :=
  let k := (blockCode fm)
  let n := fmtCount k
  let (ds, g) := drawList f.rm rng xs
  let pad := fun (m : Nat) => List.replicate m (padCode fm)
  if xs.all Num.isZero then (blockBits 0 0x7F 8 [], 0, g)
  else if xs.any Num.isNan then (blockBits k 0xFF (fmtBits k) (pad n), fNV, g)
  else
    let sc := scaleOf fm xs
    let rs := ds.map fun e => roundCode fm f sat e.2 (e.1.scale (127 - (sc : Int)))
    (blockBits k sc (fmtBits k) (rs.map (·.1) ++ pad (n - xs.length)), rs.foldl (fun fl r => fl ||| r.2) 0, g)

/-- VQNT's number of elements. -/
def qntCount (s : State) (fm : BFmt) (cnt : GI) : Nat := min (giVal s cnt).toNat (fmtCount (blockCode fm))

/-- The shadow of VQNT to a floating code: its elements; an error let pass frees the block. -/
def qntShadow (fm : BFmt) (d : Fin 32) (blk : Fin 4) (cnt : GI) (s : State) : Shadow where
  on := fun j => fm != .shp8 && fm != .int8 && decide (j < qntCount s fm cnt)
  free := fun _ => freeLane 64 d blk.val

/-- VQNT (R235): the second source register is needed where the elements exceed the lanes. -/
def execVqnt (h : Hdr) (fm : BFmt) (s2 : VTy) (f : Fp) (sat : Bool) (d a : Fin 32) (blk : Fin 4) (cnt : GI) (s : State) :
    Outcome State Fault Refusal :=
  let i := Instr.vqnt h fm s2 f sat d a blk cnt
  issueC i h s fun s => withVRegs i [d, a] s fun s =>
    let m := lanesOf s2.size
    let c := qntCount s fm cnt
    if m < c ∧ (a.val = 31 ∨ (slotAt s s.cur).vregs ≤ a.val + 1) then illop i s
    else withShadow h (qntShadow fm d blk cnt) s fun s =>
      let F := (fmtOf s2)
      let lo := (vVal s a).toNat
      let hi := if m < c then (vVal s (a + 1)).toNat else 0
      let xs := (List.range c).map fun k =>
        F.value (F.flush f.fzi (if k < m then laneN s2.size lo k else laneN s2.size hi (k - m)))
      let (bits, fl, g) := quantise fm f sat xs (curT s).rng
      let old := (vVal s d).toNat
      let v := ofLanes 64 ((List.range 4).map fun k => if k = blk.val then bits else laneN 64 old k)
      resultV h d (v, fl, g) s

/-- An element of a block, rounded to a type (R236, R198). Of a reserved FMT with SCALE 0xFF the model takes the zeros and
FMT of the one and not the NaN of the other (log 50). -/
def dequant (t : VTy) (f : Fp) (block idx draw : Nat) : Nat × Flags :=
  let fmt := block % 256
  let scale := block / 256 % 256
  let F := (fmtOf t)
  if fmt = 0 then (0, 0)
  else if 7 < fmt then (0, fFMT)
  else if fmtCount fmt ≤ idx then (0, 0)
  else if scale = 0xFF then (F.nan, fNV)
  else
    let c := bcode fmt (fmtCode fmt (block / 2 ^ 32) idx)
    let x := c.value.scale ((scale : Int) - 127)
    let y := if f.fzi && c.floating && belowNormal F x then x.zeroed else x
    finishF F f false draw y false

/-- VDQN (R236). -/
def execVdqn (h : Hdr) (t : VTy) (f : Fp) (d a : Fin 32) (blk : Fin 4) (first : GI) (pg : Fin 8) (s : State) :
    Outcome State Fault Refusal :=
  vecIssue (.vdqn h t f d a blk first pg) h [d, a] (laneShadow true t.size d pg) s <| laneOp h t.size d pg f.rm fun s =>
    let b := laneN 64 (vVal s a).toNat blk.val
    let k := (giVal s first).toNat
    fun j draw => dequant t f b (k + j) draw

/-- VSFU (R229). -/
def execVsfu (h : Hdr) (t : VTy) (fn : SfuK) (f : Fp) (d a : Fin 32) (pg : Fin 8) (s : State) :
    Outcome State Fault Refusal :=
  vecIssue (.vsfu h t fn f d a pg) h [d, a] (laneShadow true t.size d pg) s <| laneOp h t.size d pg f.rm fun s =>
    let x := laneN t.size (vVal s a).toNat
    fun j draw => sfuElem (fmtOf t) f fn draw (x j)

/-- VDIV (R229). -/
def execVdiv (h : Hdr) (t : VTy) (f : Fp) (d a : Fin 32) (b : VB) (pg : Fin 8) (s : State) :
    Outcome State Fault Refusal :=
  vecIssue (.vdiv h t f d a b pg) h (d :: a :: vbRegs b) (laneShadow true t.size d pg) s <| laneOp h t.size d pg f.rm fun s =>
    let x := laneN t.size (vVal s a).toNat
    let y := vbLane s t b
    fun j draw => divElem (fmtOf t) f draw (x j) (y j)

/-- VDIV.SQRT (R229). -/
def execVdivSqrt (h : Hdr) (t : VTy) (f : Fp) (d a : Fin 32) (pg : Fin 8) (s : State) : Outcome State Fault Refusal :=
  vecIssue (.vdivSqrt h t f d a pg) h [d, a] (laneShadow true t.size d pg) s <| laneOp h t.size d pg f.rm fun s =>
    let x := laneN t.size (vVal s a).toNat
    fun j draw => sqrtElem (fmtOf t) f draw (x j)

/-! ### Reductions (R230) -/

/-- One comb step of a floating reduction: partial results are no inputs of the instruction, so FZI leaves them (R205,
R230). -/
def combF (F : FFmt) (op : RedK) (f : Fp) (draw x y : Nat) : Nat × Flags :=
  match op with
  | .add => addF F { f with fzi := false } false draw x y
  | .min => minmaxF F { fzi := false, fzo := f.fzo } false x y
  | .max => minmaxF F { fzi := false, fzo := f.fzo } true x y

/-- A reduction in progress: value, flags, generator. -/
abbrev RedAcc := Nat × Flags × W32

/-- The ordered reduction of the active lanes. -/
def redOrd (F : FFmt) (op : RedK) (f : Fp) (rng : W32) : List Nat → RedAcc
  | [] => (0, 0, rng)
  | x :: xs => xs.foldl (fun (a : RedAcc) y =>
      let (d, g) := takeDraw f.rm a.2.2
      let (r, fl) := combF F op f d a.1 y
      (r, a.2.1 ||| fl, g)) (x, 0, rng)

/-- One level of the pairwise tree. -/
def redLevel (F : FFmt) (op : RedK) (f : Fp) : List (Option Nat) → Flags × W32 → List (Option Nat) × Flags × W32
  | x :: y :: r, (fl, g) =>
    match x, y with
    | some a, some b =>
      let (d, g1) := takeDraw f.rm g
      let (v, fl1) := combF F op f d a b
      let (l, z) := redLevel F op f r (fl ||| fl1, g1)
      (some v :: l, z)
    | a, b =>
      let (l, z) := redLevel F op f r (fl, g)
      ((match a with
        | some v => some v
        | none => b) :: l, z)
  | l, z => (l, z)

/-- The pairwise tree over 2^k lanes. -/
def redTree (F : FFmt) (op : RedK) (f : Fp) : Nat → List (Option Nat) → Flags × W32 → RedAcc
  | 0, l, z => ((l.head?.join).getD 0, z)
  | k + 1, l, z => let (l', z') := redLevel F op f l z; redTree F op f k l' z'

/-- The integer reduction of lanes, exact. -/
def redInt (op : RedK) : List Int → Int
  | [] => 0
  | x :: xs => match op with
    | .add => xs.foldl (· + ·) x
    | .min => xs.foldl min x
    | .max => xs.foldl max x

/-- A floating reduction's result (R202): a NaN that reaches it uncombined becomes the canonical one, a signalling one
with NV. -/
def redNaN (F : FFmt) (x : RedAcc) : RedAcc :=
  if F.isNaN x.1 then (F.nan, x.2.1 ||| (if F.isSNaN x.1 then fNV else 0), x.2.2) else x

/-- The shadow of VRED.ADD on a floating type: its comb steps, counted by the active lanes after the first. -/
def redShadow (t : VTy) (op : RedK) (d : GV) (pg : Fin 8) (s : State) : Shadow where
  on := fun j => t.isFloat && op == .add &&
    decide (j + 1 < (natsWhere (lanesOf t.size) (laneOn t.size (curT s).p[pg])).length)
  free := fun _ => match d with
    | .v r => freeLane t.size r 0
    | .g r => fun s => modT s s.cur fun x => { x with g := x.g.set r (Config.freeWord s.freeCtr 6000) }

/-- VRED (R230): to a scalar register, or to lane 0 of a vector register. -/
def execVred (h : Hdr) (t : VTy) (op : RedK) (ord : Bool) (f : Fp) (d : GV) (a : Fin 32) (pg : Fin 8) (s : State) :
    Outcome State Fault Refusal :=
  let rs := match d with
    | .g _ => [a]
    | .v r => [r, a]
  vecIssue (.vred h t op ord f d a pg) h rs (redShadow t op d pg) s fun s =>
    let z := t.size
    let p := pVal s pg
    let x := laneN z (vVal s a).toNat
    let F := (fmtOf t)
    let lanes := List.range (lanesOf z)
    let acts := lanes.filter fun j => laneOn z p j
    let rng := (curT s).rng
    let fx := fun j => F.flush f.fzi (x j)
    let i := redInt op (acts.map fun j => laneInt false z (x j))
    let (v, fl, g) : RedAcc :=
      if !t.isFloat then (wrapN 64 i, 0, rng)
      else redNaN F (if ord then redOrd F op f rng (acts.map fx)
        else redTree F op f (Nat.log2 (lanesOf z)) (lanes.map fun j => if laneOn z p j then some (fx j) else none) (0, rng))
    match d with
    | .g r => retire h (putT s { writeG (raiseFlags (curT s) fl) r (w64 v) with rng := g })
    | .v r =>
      let old := (vVal s r).toNat
      let out := ofLanes z (lanes.map fun j => if j = 0 then v else laneN z old j)
      resultV h r (out, fl, g) s

/-! ### Permutes (R231) -/

/-- VPERM (R231): an index at or above the lane count gives 0. -/
def execVperm (h : Hdr) (t : VTy) (d a ix : Fin 32) (pg : Fin 8) (s : State) : Outcome State Fault Refusal :=
  vecIssue (.vperm h t d a ix pg) h [d, a, ix] noShadow s <| laneOp h t.size d pg .rne fun s =>
    let x := laneN t.size (vVal s a).toNat
    let k := laneN t.size (vVal s ix).toNat
    fun j _ => (if k j < lanesOf t.size then x (k j) else 0, 0)

/-- VPERM.ROT and .DUP (R231). -/
def execVpermRot (h : Hdr) (t : VTy) (dup : Bool) (d a : Fin 32) (k : GI) (pg : Fin 8) (s : State) :
    Outcome State Fault Refusal :=
  vecIssue (.vpermRot h t dup d a k pg) h [d, a] noShadow s <| laneOp h t.size d pg .rne fun s =>
    let x := laneN t.size (vVal s a).toNat
    let n := lanesOf t.size
    let m := (giVal s k).toNat % n
    fun j _ => (if dup then x m else x ((j + m) % n), 0)

/-! ### Narrow products (R237) -/

/-- VDOT on floating pairs: one rounding of the exact sum. -/
def dotF (F : FFmt) (f : Fp) (sat : Bool) (draw acc a0 b0 a1 b1 : Nat) : Nat × Flags :=
  let v := fun x => F.value (F.flush f.fzi x)
  let c := F32.value (F32.flush f.fzi acc)
  let p := (v a0).mul (v b0)
  let q := (v a1).mul (v b1)
  let rmi := f.rm == .rmi
  let nv := F32.isSNaN acc || F.isSNaN a0 || F.isSNaN b0 || F.isSNaN a1 || F.isSNaN b1 ||
    mulInvalid (v a0) (v b0) || mulInvalid (v a1) (v b1) || addInvalid c p || addInvalid c q || addInvalid p q
  finishF F32 f sat draw ((c.add rmi p).add rmi q) nv

/-- VDOT (R237): vD accumulates. -/
def execVdot (h : Hdr) (k : DotK) (f : Fp) (sat : Bool) (d a b : Fin 32) (pg : Fin 8) (s : State) :
    Outcome State Fault Refusal :=
  vecIssue (.vdot h k f sat d a b pg) h [d, a, b] (laneShadow (k != .i8) 4 d pg) s <| laneOp h 4 d pg f.rm fun s =>
    let acc := laneN 4 (vVal s d).toNat
    let x := (vVal s a).toNat
    let y := (vVal s b).toNat
    fun j draw =>
      let fl2 := fun F => dotF F f sat draw (acc j) (laneN 2 x (2 * j)) (laneN 2 y (2 * j)) (laneN 2 x (2 * j + 1))
        (laneN 2 y (2 * j + 1))
      match k with
      | .i8 => (narrowLane false sat 4 ((List.range 4).foldl (fun e m =>
          e + signedN 8 (laneN 1 x (4 * j + m)) * signedN 8 (laneN 1 y (4 * j + m))) (signedN 32 (acc j))), 0)
      | .f16 => fl2 F16
      | .bf16 => fl2 BF16

/-- VSMUL on an element (R237). -/
def smulVal (t : VTy) (f : Fp) (sat : Bool) (draw x code : Nat) : Nat × Flags :=
  if t.isFloat then
    let F := (fmtOf t)
    let a := F.value (F.flush f.fzi x)
    let w := shpValue code
    finishF F f sat draw (a.mul w) (F.isSNaN x || mulInvalid a w)
  else
    let u := signedN (8 * t.size) x * shpUnits code
    let (i, inexact) := roundInt f.rm draw (decide (u < 0)) u.natAbs 64
    (narrowLane false sat t.size i, if inexact then fNX else 0)

/-- VSMUL (R237): codes past the register read 0x77. -/
def execVsmul (h : Hdr) (t : VTy) (f : Fp) (sat : Bool) (d a c : Fin 32) (off : GI) (pg : Fin 8) (s : State) :
    Outcome State Fault Refusal :=
  vecIssue (.vsmul h t f sat d a c off pg) h [d, a, c] noShadow s <| laneOp h t.size d pg f.rm fun s =>
    let x := laneN t.size (vVal s a).toNat
    let cs := (vVal s c).toNat
    let o := (giVal s off).toNat
    fun j draw => smulVal t f sat draw (x j) (if o + j < 256 then laneN 1 cs (o + j) else 0x77)

/-! ### Predicate logic (R234) -/

/-- PLOG.AND, .OR, .XOR and .ANDN (R234). -/
def execPlog (h : Hdr) (t : VTy) (k : LogK) (d a b pg : Fin 8) (s : State) : Outcome State Fault Refusal :=
  issueC (.plog h t k d a b pg) h s fun s =>
    let z := t.size
    let bit := fun (x : Bool) => if x then 1 else 0
    resultP h d (predOf z fun j => laneOn z (pVal s pg) j &&
      logVal k (bit (laneOn z (pVal s a) j)) (bit (laneOn z (pVal s b) j)) == 1) 0 s

/-- PLOG.NOT (R234). -/
def execPlogNot (h : Hdr) (t : VTy) (d a pg : Fin 8) (s : State) : Outcome State Fault Refusal :=
  issueC (.plogNot h t d a pg) h s fun s =>
    resultP h d (predOf t.size fun j => laneOn t.size (pVal s pg) j && !laneOn t.size (pVal s a) j) 0 s

/-- The lanes active in both predicates (R234). -/
def bothOn (s : State) (t : VTy) (a pg : Fin 8) : List Nat :=
  natsWhere (lanesOf t.size) fun j => laneOn t.size (pVal s a) j && laneOn t.size (pVal s pg) j

/-- PLOG.COUNT and .FIRST (R234). -/
def execPlogCount (h : Hdr) (t : VTy) (first : Bool) (d : Fin 16) (a pg : Fin 8) (s : State) :
    Outcome State Fault Refusal :=
  issueC (.plogCount h t first d a pg) h s fun s =>
    let l := bothOn s t a pg
    resultG h d (w64 (if first then l.head?.getD (lanesOf t.size) else l.length)) s

/-- PLOG.ANY (R234). -/
def execPlogAny (h : Hdr) (t : VTy) (c : Fin 32) (a pg : Fin 8) (s : State) : Outcome State Fault Refusal :=
  issueC (.plogAny h t c a pg) h s fun s => resultC h c (bothOn s t a pg != []) s

end Sys2Proof.Machine
end

