-- ==== Sys2Proof/Machine/VecMem.lean ====
section
/-!
DEFINITION. Link registers (R221) with VSPLAT and VMOVS (R231), the device step LINK_VALUE_ARRIVE, and vector memory:
VLD, VST, VGATH and VSCAT (R232, R233).
-/

namespace Sys2Proof.Machine

open Host

/-! ### Link registers (R13, R221) -/

/-- The physical neighbour of a core to the west or east, within the mesh (R13). -/
def neighbour (core : Nat) (east : Bool) : Option Nat :=
  let n := core / 8
  let c := core % 8
  if east then
    (if c < 7 then some (core + 1) else if rx n < 15 then some (8 * (n + 1)) else none)
  else (if 0 < c then some (core - 1) else if 0 < rx n then some (8 * (n - 1) + 7) else none)

/-- The logical core of a context that stands on a physical core. -/
def lcoreOn (s : State) (c phys : Nat) : Option Nat := ((ccsOf s c).find? fun e => e.2.phys == phys).map (·.1)

/-- The core context at the other end of a link, or none where the link is absent (R221). -/
def linkEnd (s : State) (c core : Nat) (east : Bool) : Option Nat :=
  match neighbour core east with
  | some n => if inService s.cmap clsCore n then lcoreOn s c n else none
  | none => none

/-- The trap of an access to an absent link (R221): MAPSTALE where the neighbour's loss or retirement is newer than
ACKV, else PROT with the operand value. -/
def linkTrap (s : State) (east : Bool) (operand : Nat) : BitVec 8 × Word :=
  let stale := match neighbour (coreOf s.cur) east with
    | some n => if !inService s.cmap clsCore n && decide ((curCtx s).ackv.toNat < sinceOf s.cmap clsCore n) then some n else none
    | none => none
  match stale with
  | some n => (cMAPSTALE, w64 (sinceOf s.cmap clsCore n))
  | none => (cPROT, w64 operand)

/-- Values on their way to a link queue. -/
def linkFlying (s : State) (c l : Nat) (east : Bool) : Nat :=
  s.agenda.countP fun e => match e.2 with
    | .linkValueArrive c' l' e' _ => c' == c && l' == l && e' == (if east then 1 else 0)
    | _ => false

/-- A link queue of a core context: east reads LE. -/
def linkQ (cc : CoreCtx) (east : Bool) : List Word := if east then cc.east else cc.west

/-- Replace a link queue. -/
def setLinkQ (cc : CoreCtx) (east : Bool) (q : List Word) : CoreCtx :=
  if east then { cc with east := q } else { cc with west := q }

/-- Whether a link queue, with what is on its way to it, has room (R221). -/
def linkRoom (s : State) (c l : Nat) (east : Bool) : Bool :=
  match getCC s c l with
  | some cc => cc.cst == .resident && decide ((linkQ cc east).length + linkFlying s c l east < 4)
  | none => false

/-- Send a value over a link: LE's value goes to the neighbour's west queue, LW's to its east queue. -/
def sendLink (s : State) (c core l : Nat) (east : Bool) (x : Word) : State :=
  match getCC s c l with
  | some cc => later s (coreLat s core cc.phys) (.linkValueArrive c l (if east then 0 else 1) x.toNat)
  | none => s

/-- The outstanding link reads of a core context's threads at one queue, oldest first. -/
def linkReader (s : State) (c l : Nat) (east : Bool) : Option (Nat × Res) :=
  (s.threads.flatMap fun e =>
    if e.2.ctx = c ∧ e.2.lcore = l then
      e.2.res.filterMap fun r => match r.wait with
        | .link e' _ _ _ => if e' = east then some (e.1, r) else none
        | _ => none
    else []).foldl (fun (a : Option (Nat × Res)) e => match a with
      | some b => if e.2.id < b.2.id then some e else a
      | none => some e) none

/-- The value a link read writes: the lanes of a mask (R231). -/
def linkVals (t : Thread) (r : Res) (z : Nat) (mask : VPred) (x : Word) : List RegW :=
  r.dst.filterMap fun d => match d with
    | .v v => some (.v v (mergeLanes z mask t.v[v] fun _ => x.toNat % 2 ^ (8 * z)))
    | _ => none

/-- Serve the oldest link read of a queue while a value is there; LWF also needs room in the east (R221). The value
returns in d clocks. A queue that gives a value up lets a forwarding read of its writer go on. -/
def serveLink (d : Nat) : Nat → Nat → Nat → Bool → State → State
  | 0, _, _, _, s => s
  | fuel + 1, c, l, east, s =>
    match getCC s c l, linkReader s c l east with
    | some cc, some (tk, r) =>
      match linkQ cc east, r.wait with
      | x :: q, .link _ fwd z mask =>
        let go := fun (s : State) =>
          let s1 := setCC s c l (setLinkQ cc east q)
          let s2 := endWait s1 tk r.id (linkVals (getT s1 tk) r z mask x) 0 none d
          let s3 := match linkEnd s2 c cc.phys east with
            | some w => serveLink 1 fuel c w east s2
            | none => s2
          serveLink d fuel c l east s3
        if fwd then
          (match linkEnd s c cc.phys true with
            | some n => if linkRoom s c n false then go (sendLink s c cc.phys n true x) else s
            | none => s)
        else go s
      | _, _ => s
    | _, _ => s

/-- A value for a core context that is away waits, and the values on their way behind it keep their order (R221). -/
def holdLink (s : State) (ctx lcore east val : Nat) : State :=
  let mine := fun (i : Instr) => match i with
    | .linkValueArrive c l e _ => c == ctx && l == lcore && e == east
    | _ => false
  let s1 := { s with agenda := s.agenda.filter fun e => !mine e.2 }
  (s.agenda.filter fun e => mine e.2).foldl (fun s e => laterAt s (max e.1 (s.clock + 1)) e.2)
    (later s1 1 (.linkValueArrive ctx lcore east val))

/-- A core context is on a core again: its link reads and its west neighbour's forwarding reads go on (R221). -/
def wakeLinks (s : State) (c l : Nat) : State :=
  match getCC s c l with
  | some cc =>
    let s1 := serveLink 1 64 c l true (serveLink 1 64 c l false s)
    match linkEnd s1 c cc.phys false with
    | some w => serveLink 1 64 c w false s1
    | none => s1
  | none => s

/-- LINK_VALUE_ARRIVE (R221): the value enters the queue; a waiting read takes it. -/
def execLinkValueArrive (ctx lcore east val : Nat) (s : State) : Outcome State Fault Refusal :=
  .next <|
    match getCC s ctx lcore with
    | some cc =>
      if cc.cst ≠ .resident then holdLink s ctx lcore east val
      else serveLink 1 64 ctx lcore (east == 1) (setCC s ctx lcore (setLinkQ cc (east == 1) (linkQ cc (east == 1) ++ [w64 val])))
    | none => s

/-- Read a link into lanes of vD (R221): the result is variable; on an empty queue it waits. -/
def readLink (h : Hdr) (d : Fin 32) (z : Nat) (mask : VPred) (src : LSrc) (s : State) : State :=
  let east := src == .le
  let fwd := src == .lwf
  let t := curT s
  let absent := fun e => (linkEnd s t.ctx (coreOf s.cur) e).isNone
  let num := if fwd then 18 else if east then 17 else 16
  let bad := if absent east then some east else if fwd && absent true then some true else none
  match bad with
  | some e => let (cause, tv) := linkTrap s e num; trapHere s cause tv
  | none => withRoom s fun s =>
    let (_, s1) := resultWait [.v d] (.link east fwd z mask) s
    retire h (serveLink 4 64 t.ctx t.lcore east s1)

/-- The lanes of a register or immediate source (R218), or a link. -/
def lsrcLane (s : State) (t : VTy) (a : LSrc) : Option Nat :=
  match a with
  | .g r => some ((gVal s r).toNat % 2 ^ (8 * t.size))
  | .im v => some (immLane t v)
  | _ => none

/-- VSPLAT (R231). -/
def execVsplat (h : Hdr) (t : VTy) (d : Fin 32) (a : LSrc) (pg : Fin 8) (s : State) : Outcome State Fault Refusal :=
  vecIssue (.vsplat h t d a pg) h [d] noShadow s fun s =>
    match lsrcLane s t a with
    | some x => laneOp h t.size d pg .rne (fun _ _ _ => (x, 0)) s
    | none => readLink h d t.size (pVal s pg) a s

/-- VMOVS.X (R231): a lane to a scalar register, or to a link (R221), where a full queue holds the writer. -/
def execVmovsX (h : Hdr) (t : VTy) (d : XDst) (a : Fin 32) (ix : GI) (s : State) : Outcome State Fault Refusal :=
  vecIssue (.vmovsX h t d a ix) h [a] noShadow s fun s =>
    let k := (giVal s ix).toNat
    let z := t.size
    let x := laneN z (vVal s a).toNat k
    let v := if lanesOf z ≤ k then 0 else if t.isFloat then w64 x else w64i (signedN (8 * z) x)
    let send := fun (east : Bool) =>
      match linkEnd s (curT s).ctx (coreOf s.cur) east with
      | none => let (cause, tv) := linkTrap s east (if east then 17 else 16); trapHere s cause tv
      | some n =>
        if linkRoom s (curT s).ctx n (!east) then retire h (sendLink s (curT s).ctx (coreOf s.cur) n east v)
        else retry s
    match d with
    | .g r => resultG h r v s
    | .le => send true
    | .lw => send false

/-- VMOVS.I (R231): an index at or above the lane count writes nothing. -/
def execVmovsI (h : Hdr) (t : VTy) (d : Fin 32) (a : LSrc) (ix : GI) (s : State) : Outcome State Fault Refusal :=
  vecIssue (.vmovsI h t d a ix) h [d] noShadow s fun s =>
    let k := (giVal s ix).toNat
    let mask := predOf t.size fun j => j == k
    match lsrcLane s t a with
    | some x => resultV h d (mergeLanes t.size mask (vVal s d) fun _ => x, 0, (curT s).rng) s
    | none => readLink h d t.size mask a s

/-! ### Vector memory (R232, R233) -/

/-- Check every lane address in order (R232): their locations, or the first that fails with its address. -/
def lanesAccess (s : State) (z : Nat) (write : Bool) (vas : List Nat) : Except (Nat × Access) (List Nat) :=
  vas.foldl (fun a va => match a with
    | .error e => .error e
    | .ok l => match access s va z z write with
      | .ok loc => .ok (l ++ [loc])
      | x => .error (va, x)) (.ok [])

/-- Run an effect on the lanes' locations once every lane passes (R232); else the lowest failing lane's trap, walk or
fault. A share that is not resident holds the thread (R363). -/
def withLanes (s : State) (z : Nat) (write : Bool) (vas : List Nat) (eff : List Nat → State → State) : State :=
  match lanesAccess s z write vas with
  | .ok locs => if locs.any (heldShare s) then retry s else withOrder s (!write) (eff locs)
  | .error (_, .trap cause tv) => trapHere s cause tv
  | .error (va, .miss) => startWalk s va write false
  | .error (va, .fault cause reason) => raiseFault s s.cur va cause reason write false
  | .error (_, .ok _) => s

/-- The active lanes of a predicate. -/
def activeLanes (z : Nat) (p : VPred) : List Nat := natsWhere (lanesOf z) fun j => laneOn z p j

/-- A lane's bytes put into a register of lanes. -/
def fillLanes (z : Nat) (old : Vec) (js : List Nat) (bs : List Byte) : Vec :=
  let tbl := (js.zip (List.range js.length)).map fun e => (e.1, ofBytesLE ((bs.drop (z * e.2)).take z))
  ofLanes z ((List.range (lanesOf z)).map fun j => match tbl.find? fun e => e.1 == j with
    | some e => e.2
    | none => laneN z old.toNat j)

/-- Steps of one lane each. -/
def chunks (z : Nat) : Nat → List Nat → List (List Nat)
  | 0, _ => []
  | n + 1, l => l.take z :: chunks z n (l.drop z)

/-- The steps of a vector read: by sector for VLD (R232), by lane for VGATH (R233). -/
def vecSteps (bySector : Bool) (z n : Nat) (all : List Nat) : List (List Nat) :=
  if bySector then sectors all else chunks z n all

/-- Read the active lanes in steps and return the register (R232, R233). Behind a FENCE the request may wait in the core's port
(R162). -/
def vecRead (h : Hdr) (z : Nat) (d : Fin 32) (js vas locs : List Nat) (bySector : Bool) (s : State) : State :=
  if locs.any (portHeld s) then portRequest h [.v d] (.vload (vas.headD 0) z js locs bySector (vVal s d)) s
  else
    let all := locs.flatMap fun x => locsFrom x z
    let p := readsPoison s (curT s) all
    let (bs, v) := readThreadMany s 0 (curT s) (vecSteps bySector z js.length all)
    let x := fillLanes z (vVal s d) js bs
    memResult h (vas.headD 0) (some (.vload (vas.headD 0) z js locs bySector (vVal s d))) p [.v d x] (countCorrected (putT s { curT s with view := v }) all)

/-- The first of several locations that is of a lost target, or the first of all (R348). -/
def lostFirst (s : State) (tk : Nat) (locs : List Nat) : Nat :=
  (locs.find? fun x => (lostTarget s (getT s tk).ctx (coreOf tk) x).isSome).getD (locs.headD 0)

/-- Perform a vector read that the port has held (R162), or that is sent again (R45). -/
def vecRequest (s : State) (tk rid va z : Nat) (js locs : List Nat) (bySector : Bool) (old : Vec) (r : Res) : State :=
  unlessLost s tk rid (lostFirst s tk locs) fun s =>
    let t := getT s tk
    let mine := asOf t rid
    let all := locs.flatMap fun x => locsFrom x z
    let (bs, v) := readThreadMany s 0 mine (vecSteps bySector z js.length all)
    let (d, s1) := memDelay (countCorrected (setT s tk { t with view := v }) all)
    let back := d + againBack s tk (locs.headD 0) r
    let vals := r.dst.filterMap fun x => match x with
      | .v i => some (.v i (fillLanes z old js bs))
      | _ => none
    if readsPoison s mine all then later (modT s1 tk fun t => modRes t rid fun r => { r with wait := .none }) back (.uncorrectableConsumed tk va 0)
    else later (modT s1 tk fun t => modRes t rid fun _ =>
      { r with vals := vals, wait := .none, again := some (.vload va z js locs bySector old), sent := s.clock, rehash := none })
      back (.resultReturn tk rid)

/-- VLD (R232). The hint MIG goes by A = g + IMM24, lane 0's address, active or not, and by nothing where no lane is active
(R73; log 49). -/
def execVld (h : Hdr) (w : Fin 4) (mig : Bool) (ch : CH) (d : Fin 32) (b : Fin 16) (pg : Fin 8) (disp : BitVec 24)
    (s : State) : Outcome State Fault Refusal :=
  vecIssue (.vld h w mig ch d b pg disp) h [d] noShadow s fun s => withRoom s fun s =>
    let z := 2 ^ w.val
    let a := effAddr s b none 0 disp
    let js := activeLanes z (pVal s pg)
    let vas := js.map fun j => (a + z * j) % 2 ^ 64
    withMig (mig && js != []) s a fun s => withLanes s z false vas fun locs s => vecRead h z d js vas locs true s

/-- VGATH (R233): one read step for each active lane. -/
def execVgath (h : Hdr) (w x : Fin 4) (ch : CH) (d : Fin 32) (b : Fin 16) (ix : Fin 32) (pg : Fin 8) (s : State) :
    Outcome State Fault Refusal :=
  vecIssue (.vgath h w x ch d b ix pg) h [d, ix] noShadow s fun s => withRoom s fun s =>
    let z := 2 ^ w.val
    let k := laneN z (vVal s ix).toNat
    let js := activeLanes z (pVal s pg)
    let vas := js.map fun j => ((gVal s b).toNat + k j * 2 ^ x.val) % 2 ^ 64
    withLanes s z false vas fun locs s => vecRead h z d js vas locs false s

/-- A write of the executing thread enters its store buffer (R145). Behind a FENCE, one to host memory will drain when the FENCE
lets it (R162). -/
def storeOut (s : State) (vaSec : Nat) (cells : List (Nat × Byte)) : State :=
  let s1 := if cells.any fun c => portHeld s c.1 then putT s { curT s with hostSt := (curT s).hostSt ++ [(s.idCtr + 1, (curT s).fence)] } else s
  issueStore s1 s.cur vaSec cells

/-- Enter an instruction's writes into the store buffer in order as room allows (R233, R159); held until the last is
in, its checks done (R232). A region that fills the buffer splits once results are back, as at an IDEM (R159, R178). -/
def issueWrites (h : Hdr) (ws : List (Nat × List (Nat × Byte))) (s : State) : State :=
  let room := maxBuf - bufWrites (curT s)
  let s1 := (ws.take room).foldl (fun s w => storeOut s w.1 w.2) s
  if ws.length ≤ room then retire h (putT s1 { curT s1 with held := none })
  else
    let s2 := putT s1 { curT s1 with held := some { hdr := h, ws := ws.drop room } }
    if bufAllOpen (curT s2) ∧ (curT s2).res = [] then retry (openRegion (closeCur s2) s2.cur (curT s2).pc) else retry s2

/-- The writes of lanes, merged into one for each sector (R232). -/
def sectorWrites (cells : List (Nat × Nat × Byte)) : List (Nat × List (Nat × Byte)) :=
  cells.foldr (fun c acc => match acc with
    | (sec, (x, b) :: g) :: r =>
      if c.1 = sec ∧ c.2.1 / 32 = x / 32 then (sec, c.2 :: (x, b) :: g) :: r else (c.1, [c.2]) :: (sec, (x, b) :: g) :: r
    | _ => (c.1, [c.2]) :: acc) []

/-- The cells of lanes: virtual sector, location and byte. -/
def laneCells (z : Nat) (v : Nat) (js vas locs : List Nat) : List (List (Nat × Nat × Byte)) :=
  (js.zip (vas.zip locs)).map fun e =>
    (List.range z).map fun k => ((e.2.1 + k) / 32, e.2.2 + k, BitVec.ofNat 8 (laneN z v e.1 / 256 ^ k))

/-- VST (R232): one write for each sector, in ascending address order. The hint MIG goes by A, as VLD's does (log 49). -/
def execVst (h : Hdr) (w : Fin 4) (mig : Bool) (ch : CH) (src : Fin 32) (b : Fin 16) (pg : Fin 8) (disp : BitVec 24)
    (s : State) : Outcome State Fault Refusal :=
  vecIssue (.vst h w mig ch src b pg disp) h [src] noShadow s fun s =>
    let z := 2 ^ w.val
    let a := effAddr s b none 0 disp
    let js := activeLanes z (pVal s pg)
    let vas := js.map fun j => (a + z * j) % 2 ^ 64
    withMig (mig && js != []) s a fun s => withLanes s z true vas fun locs s =>
      issueWrites h (sectorWrites (laneCells z (vVal s src).toNat js vas locs).flatten) s

/-- VSCAT (R233): one write for each active lane, in ascending lane order. -/
def execVscat (h : Hdr) (w x : Fin 4) (ch : CH) (src : Fin 32) (b : Fin 16) (ix : Fin 32) (pg : Fin 8) (s : State) :
    Outcome State Fault Refusal :=
  vecIssue (.vscat h w x ch src b ix pg) h [src, ix] noShadow s fun s =>
    let z := 2 ^ w.val
    let k := laneN z (vVal s ix).toNat
    let js := activeLanes z (pVal s pg)
    let vas := js.map fun j => ((gVal s b).toNat + k j * 2 ^ x.val) % 2 ^ 64
    withLanes s z true vas fun locs s =>
      issueWrites h ((laneCells z (vVal s src).toNat js vas locs).filterMap fun c => match c with
        | [] => none
        | e :: r => some (e.1, (e :: r).map (·.2))) s

end Sys2Proof.Machine
end

