-- ==== Sys2Proof/Machine/Fetch.lean ====
section
/-!
DEFINITION. Issue turns (R59 to R62), fetching a line with its checks (R98 to R104, R116), and storing an instruction
where the next step fetches it.
-/

namespace Sys2Proof.Machine

open Host

/-! ### Lines (R98 to R100) -/

/-- Parity group j of a line (R100): whether its 60 bits hold an odd number of ones. -/
def parityBit (l j : Nat) : Nat := popN 60 (l / 2 ^ (60 * j) % 2 ^ 60) % 2

/-- PAR of a line. -/
def parityOf (l : Nat) : Nat := (List.range 8).foldl (fun a j => a + parityBit l j * 2 ^ j) 0

/-- The line word (R99). -/
def lineWord (bs : List Byte) : Nat := ofBytesLE ((bs.drop 60).take 4)

/-- Whether a line's parity matches (R100). -/
def parityOk (bs : List Byte) : Bool := nbits (lineWord bs) 31 24 == parityOf (ofBytesLE (bs.take 60))

/-- Instruction word i of a line (R98). -/
def lineInstr (bs : List Byte) (i : Nat) : IWord := BitVec.ofNat 96 (ofBytesLE ((bs.drop (12 * i)).take 12))

/-! ### Readiness (R59) -/

/-- Whether a thread of a launch may issue: its context runs, and its core context is resident with its numbers
resolved (R37, R38, R363). -/
def ctxReady (s : State) (t : Thread) : Bool :=
  match getCtx s t.ctx, getCC s t.ctx t.lcore with
  | some x, some cc => x.run == .running && cc.cst == .resident && decide (x.ackHold ≤ s.clock)
  | _, _ => false

/-- Whether a slot is ready (R59). -/
def ready (s : State) (tk : Nat) : Bool :=
  match mget s.threads tk with
  | none => false
  | some t =>
    (slotAt s tk).occ == .used && (t.block == .free || t.block == .walked) && decide (t.hold ≤ s.clock) && !(t.ended && t.res != []) &&
      t.trapP.isNone && !(coreAt s (coreOf tk)).halted && (!isCompute (coreOf tk) || ctxReady s t)

/-- Whether a core runs a deterministic launch (R51, R55, R61). -/
def detCore (s : State) (core : Nat) : Bool :=
  (List.range 8).any fun k =>
    let c := (slotAt s (tkOf core k)).ctx
    c != 0 && bitsOf (ctxD s c).pkt.ctl 0 0 == 1

/-- Whether the throttle withholds a core's turn in this clock (R62). -/
def throttled (s : State) (core : Nat) (det : Bool) : Bool :=
  if isCompute core then
    let n := (s.reeve.thrlEff.toList.getD (polderOf (routerOf core)) 0).toNat
    decide ((if det then s.clock / 8 % 8 else s.clock % 8) < n)
  else false

/-- The slot of a core that has this clock's turn, if it is ready (R60, R61). -/
def chooseSlot (s : State) (core : Nat) : Option Nat :=
  let det := detCore s core
  if throttled s core det then none
  else if det then
    let tk := tkOf core (s.clock % 8)
    if ready s tk then some tk else none
  else
    let last := (coreAt s core).last
    ((List.range 8).map fun k => tkOf core ((last + 1 + k) % 8)).find? (ready s)

/-- The cores that hold threads and have not had their turn in this clock, ascending. -/
def turnCores (s : State) : List Nat :=
  s.threads.foldr (fun e acc =>
    let c := coreOf e.1
    if s.turn ≤ c ∧ acc.head? ≠ some c then c :: acc else acc) []

/-- The next slot to issue in this clock. -/
def nextSlot (s : State) : Option Nat := (turnCores s).findSome? (chooseSlot s)

/-- A thread whose walk has ended tries its instruction again. -/
def tryAgain (s : State) (tk : Nat) : State :=
  if (getT s tk).block = .walked then modT s tk fun t => { t with block := .free } else s

/-- The turn passes: the slot is the one that issues, and later cores follow in this clock. -/
def takeTurn (s : State) (tk : Nat) : State :=
  let core := coreOf tk
  let s1 := tryAgain (setCore s core { coreAt s core with last := slotOf tk, prev := (coreAt s core).last }) tk
  { s1 with cur := tk, turn := core + 1, freeCtr := s1.freeCtr + 1 }

/-- Every core has had its turn: the clock moves on. -/
def tick (s : State) : State := { s with clock := s.clock + 1, turn := 0 }

/-! ### Fetch (R102 to R104) -/

/-- The access of a fetch of the line at an address: X as R104 asks. -/
def fetchAccess (s : State) (tk va : Nat) : Access :=
  let t := getT s tk
  let core := coreOf tk
  if !isCompute core then physAccess s core va
  else if windowOf va ≠ .translated ∨ (ctxD s t.ctx).troot = 0 then .trap cPROT t.pc
  else match tlbFind s (core / 8) t.ctx (va / 65536) with
    | none => .miss
    | some e => if !e.x then .trap cPROT t.pc else pageCheck s core t.ctx va false (e.paOf va) e.w e.cow

/-- What a fetch ends in: the line read, with the errors it corrected counted; or the state after what it met. -/
inductive Fetched where
  | line (bs : List Byte) (s : State)
  | stop (s : State)
  deriving DecidableEq, Repr

/-- The address of the line of a pc. -/
def lineAddr (pc : Word) : Nat := pc.toNat / 64 * 64

/-- After a fetch fault at a branch's target, a failing check belongs to the target (R102). -/
def entryAtTarget (t : Thread) : Thread :=
  match t.entry with
  | .branch _ => { t with entry := .start }
  | _ => t

/-- Fetch the line of the executing thread's pc (R103, R104): the line, a trap at the pc, a walk or a fault, an
uncorrectable error consumed, or a refetch after a parity mismatch. -/
def fetchLine (s : State) : Fetched :=
  let t := curT s
  let va := lineAddr t.pc
  match fetchAccess s s.cur va with
  | .trap cause tv => .stop (trapHere s cause (if cause = cPROT then t.pc else tv))
  | .miss => .stop (startWalk s va false true)
  | .fault cause reason => .stop (raiseFault (putT s (entryAtTarget t)) s.cur va cause reason false true)
  | .ok loc =>
    let locs := locsFrom loc 64
    if poisoned s locs then
      .stop (later (putT s { t with block := .refetch }) 0 (.uncorrectableConsumed s.cur va 0))
    else
      let bs := readLine s 0 t.view locs
      if parityOk bs then .line bs (countCorrected s locs)
      else
        let (d, s1) := takeDelay s 4096
        .stop (later (putT s1 { curT s1 with block := .refetch }) (d + 1) (.fetchRefetch s1.cur))

/-- FETCH_REFETCH (R103): the line is checked again; a second mismatch traps FETCHPAR. -/
def execFetchRefetch (tk : Nat) (s : State) : Outcome State Fault Refusal :=
  .next <|
    let t := getT s tk
    if t.block ≠ .refetch then s
    else
      let s1 := setT s tk { t with block := .free }
      match fetchAccess s tk (lineAddr t.pc) with
      | .ok loc =>
        let bs := readLine s 1 t.view (locsFrom loc 64)
        if parityOk bs then s1
        else takeTrap s1 tk { cause := cFETCHPAR, tval := w64 (lineAddr t.pc), epc := t.pc }
      | _ => s1

/-- Whether a fetched line admits the executing thread at its slot: R102's check where one is due. -/
def entryOk (t : Thread) (lw : Nat) : Bool :=
  match t.entry with
  | .none => true
  | _ => decide (bitsOf t.pc 5 3 = 0 ∧ bitsOf t.pc 2 0 ≤ 4) && bitN lw (19 + bitsOf t.pc 2 0)

/-- A failing check of R102: BADTGT with the EPC it gives; at a handler's entry the context is killed (R125). -/
def entryTrap (s : State) : State :=
  let t := curT s
  match t.entry with
  | .branch e => trap s cBADTGT t.pc e
  | .handler => killCur s 0x82
  | _ => trap s cBADTGT t.pc t.pc

/-- Whether a pc can be a slot at all (R102, step 1). -/
def slotOkPc (pc : Word) : Bool := decide (bitsOf pc 5 3 = 0 ∧ bitsOf pc 2 0 ≤ 4)

/-! ### Boundaries (R36, R127, R354) -/

/-- The event a thread takes at its next instruction boundary, if one is due: a MAPEVT given to it or held and now
permitted, or an interrupt of a service core or the Reeve. None within an instruction whose writes are still entering
the store buffer, or before a branch's target is checked. -/
def boundary (s : State) (tk : Nat) : Option Instr :=
  let t := getT s tk
  if t.held.isSome ∨ checkDue t then none
  else if t.mapevt then some (.mapevtTake tk)
  else if t.mheld && !t.inh then some (.mapevtTake tk)
  else if !isCompute (coreOf tk) && (coreAt s (coreOf tk)).pend != 0 && !t.inh && t.tvec != 0 then some (.interruptTake tk)
  else none

/-- What the executing thread issues: an instruction, or the state after what it met. -/
inductive Issue where
  | run (i : Instr) (s : State)
  | stop (s : State)
  deriving DecidableEq, Repr

/-- Fetch and decode at the executing thread's pc (R102 to R104, R116 orders 1 to 5). An instruction held for buffer room
goes on with its writes, its checks done (R232, R233). A target once checked, the branch is
done: the deferred trap of a run that ended with it, or an event that waited for the boundary, is taken. -/
def fetchDecode (s : State) : Issue :=
  let t := curT s
  match t.held with
  | some p => .stop (issueWrites p.hdr p.ws s)
  | none =>
    if !slotOkPc t.pc then .stop (entryTrap s)
    else match fetchLine s with
      | .stop s' => .stop s'
      | .line bs s0 =>
        let lw := lineWord bs
        if !entryOk t lw then .stop (entryTrap s0)
        else
          let s1 := putT s0 { t with entry := .none }
          if checkDue t && t.ended then .stop (finishRun s1 s.cur)
          else match (if checkDue t then boundary s1 s.cur else none) with
          | some e => .run e s1
          | none =>
            if nbits lw 14 0 ≠ 0 then .stop (trapHere s1 cILLOP (w64 (2 ^ 63 + lw)))
            else
              let w := lineInstr bs (bitsOf t.pc 2 0)
              match decode w with
              | some i => .run i s1
              | none => .stop (trapHere s1 cILLOP (wordHigh w))

/-! ### Where a test places an instruction -/

/-- The slot withFetchWord uses: slot 0 of core 0, or the Reeve for the opcodes above level 2 (R115). -/
def placeKey (w : Nat) : Nat := if 0x6B ≤ w / 2 ^ 89 % 2 ^ 7 then tkOf 0x804 0 else tkOf 0 0

/-- The address of the placed line, virtual and physical. -/
def placeVa : Nat := 0x10000

/-- The bytes of a line with one instruction in slot 0, every slot open to branches, with its parity (R98 to R100). -/
def placedLine (w : Nat) : List Byte :=
  bytesLE 60 (w % 2 ^ 96) ++ bytesLE 4 (parityOf (w % 2 ^ 96) * 2 ^ 24 + 0x1F * 2 ^ 19)

/-- The context of the placed thread: one core, one slot, all of its core's tracks and tiles. -/
def placedCtx : Ctx :=
  { run := .running, ncores := 1, troot := 1,
    pkt := { entry := w64 placeVa, res := w64 (16 * 2 ^ 37 + 64 * 2 ^ 30 + 3 * 2 ^ 28 + 64 * 2 ^ 16) } }

/-- The core context of the placed thread. -/
def placedCC : CoreCtx := { phys := 0, slots := 1, nTracks := 64, shSize := 65536, tmap := List.range 64 }

/-- A state with a thread placed that fetches the instruction w next: agenda steps due now are put off, and the clock's
turn starts with it. -/
def placeWord (s : State) (w : Nat) : State :=
  let tk := placeKey w
  let core := coreOf tk
  let t : Thread := { Thread.blank with
    ctx := if isCompute core then 1 else 0, pc := w64 placeVa, priv := if isCompute core then 2 else 0 }
  let line : List (Nat × Byte) := (locsFrom placeVa 64).zip (placedLine w)
  let s1 : State := { s with
    agenda := s.agenda.filter fun e => decide (s.clock < e.1)
    turn := core
    romHalted := false
    hist := []
    poison := []
    mem := Memory.writes s.mem line
    threads := [(tk, t)]
    slots := [(tk, { gen := 1, lastPlaced := some s.clock, occ := .used, ctx := t.ctx, vregs := if isCompute core then 32 else 0 })]
    cores := mset s.cores core {} }
  if isCompute core then
    let cl := clusterAt s1 0
    { s1 with
      reeve := { s1.reeve with thrlEff := Vector.replicate 8 0 }
      ctxs := [(1, placedCtx)]
      cctxs := [(ccKey 1 0, placedCC)]
      clusters := mset s1.clusters 0
        { cl with holder := some 1, tlb := [{ ctx := 1, page := 1, pa := placeVa, w := true, x := true, cow := false }] } }
  else s1

end Sys2Proof.Machine
end

