-- ==== Sys2Proof/Machine/Tiles.lean ====
section
/-!
DEFINITION. Tile registers (R238 to R241): shapes, states, TSHAPE, TLD and TST (R243 to R245, R261), with the device
steps that complete them.
-/

namespace Sys2Proof.Machine

open Host

/-! ### Shares and shapes (R238 to R240) -/

/-- Tile registers per core that a context's launch reserves (R50). -/
def tilesOfCtx (x : Ctx) : Nat := bitsOf x.pkt.res 41 37

/-- The tile registers of the executing thread's core (R238). -/
def tileShare (s : State) : Nat :=
  if (clusterAt s (coreOf s.cur / 8)).holder = some (curT s).ctx then tilesOfCtx (curCtx s) else 0

/-- Key of a tile of the executing thread's core. -/
def tileKey (s : State) (t : Nat) : Nat := 16 * coreOf s.cur + t

/-- ELEM of a shape. -/
def shElem (x : W32) : Nat := x.toNat / 2 ^ 28

/-- Rows of a shape. -/
def shRows (x : W32) : Nat := x.toNat / 2 ^ 20 % 2 ^ 7 + 1

/-- ROWB of a shape. -/
def shRowB (x : W32) : Nat := x.toNat / 2 ^ 8 % 2 ^ 12

/-- Element size of a shape in bytes; 64 for a block-described tile (R240). -/
def shSize (x : W32) : Nat :=
  match shElem x with
  | 0 => 2
  | 1 => 2
  | 2 => 4
  | 3 => 1
  | _ => 64

/-- A valid shape (R240); the value is what was written, of 64 bits. -/
def shapeOk (v : Word) : Bool :=
  let x : W32 := v.setWidth 32
  decide (shElem x ≤ 4 ∧ bitsOf v 27 27 = 0 ∧ bitsOf v 7 0 = 0 ∧ 1 ≤ shRowB x ∧ shRowB x ≤ 256 ∧
    shRowB x % shSize x = 0 ∧ shRows x * shRowB x ≤ 16384)

/-- TILEERR with a reason and the operand's value (R261). -/
def tileErr (s : State) (reason operand : Nat) : State := trapHere s cTILEERR (w64 (reason * 256 + operand))

/-- The trap of an instruction that needs a unit which is out of service (R255): MAPSTALE until acknowledged, then
DEADRES. -/
def withUnit (s : State) (cls : Nat) (eff : State → State) : State :=
  let cl := coreOf s.cur / 8
  if inService s.cmap cls cl then eff s
  else
    let (cause, tv) := lostTrap (curCtx s).ackv (sinceOf s.cmap cls cl)
    trapHere s cause tv

/-- An instruction that names a tile within its core's share (R238). -/
def withTile (s : State) (t : Fin 16) (eff : State → State) : State :=
  if t.val < tileShare s then eff s else tileErr s 6 t.val

/-- Whether a tile is free to be changed (R241): not filling and not draining. -/
def tileIdle (x : Tile) : Bool :=
  match x.st with
  | .empty => true
  | .filling => false
  | .ready r => r == 0

/-- TSHAPE and SYSW TSn (R239 to R241), with what follows it. -/
def setShape (s : State) (t : Fin 16) (v : Word) (done : State → State) : State :=
  withTile s t fun s =>
    let x := tileAt s (tileKey s t.val)
    if !tileIdle x then retry s
    else if !shapeOk v then tileErr s 1 t.val
    else done (setTile s (tileKey s t.val) { x with shape := v.setWidth 32, st := .empty, data := [] })

/-- TSHAPE (R240). -/
def execTshape (h : Hdr) (tl : Fin 16) (v : GI) (s : State) : Outcome State Fault Refusal :=
  issueC (.tshape h tl v) h s fun s => withUnit s clsEngine fun s => setShape s tl (giVal s v) (retire h)

/-! ### Rows in scratchpad (R243) -/

/-- The address of row r (R243). -/
def rowAddr (a : Nat) (st : Int) (r : Nat) : Nat := (((a : Int) + r * st) % 2 ^ 64).toNat

/-- The location of n bytes in a scratchpad share on the executing core's cluster (R243), or the address that traps. -/
def clusterLoc (s : State) (va n : Nat) : Except Nat Nat :=
  match windowCheck s (curT s).ctx (curT s).lcore va n with
  | .ok (some loc) => if sramCore s loc / 8 = coreOf s.cur / 8 then .ok loc else .error va
  | _ => .error va

/-- The locations of a tile's rows, or the first address that traps. -/
def rowLocs (s : State) (a : Nat) (st : Int) (n rows : Nat) : Except Nat (List Nat) :=
  (List.range rows).foldl (fun acc r => match acc with
    | .error e => .error e
    | .ok l => match clusterLoc s (rowAddr a st r) n with
      | .ok loc => .ok (l ++ [loc])
      | .error e => .error e) (.ok [])

/-- The checks of TLD and TST over every row (R243), then the effect on the rows' locations. -/
def withRows (s : State) (tl : Fin 16) (b : Fin 16) (st : Option (Fin 16)) (disp : BitVec 24)
    (eff : Tile → List Nat → State → State) : State :=
  withUnit s clsEngine fun s => withTile s tl fun s =>
    let x := tileAt s (tileKey s tl.val)
    let n := shRowB x.shape
    let a := effAddr s b none 0 disp
    let str : Int := match st with
      | some r => (gVal s r).toInt
      | none => n
    if n = 0 then tileErr s 1 tl.val
    else match rowLocs s a str n (shRows x.shape) with
      | .error va => trapHere s cPROT (w64 va)
      | .ok locs =>
        if a % shSize x.shape ≠ 0 ∨ str % (shSize x.shape : Int) ≠ 0 then trapHere s cALIGN (w64 a)
        else if locs.any (heldShare s) then retry s
        else eff x locs s

/-- 16 clocks more for a share on another core of the cluster (R244, R245). -/
def tileFar (s : State) (locs : List Nat) : Nat := if locs.all fun x => sramCore s x == coreOf s.cur then 0 else 16

/-- TLD (R244): the region closes, covered entries drain, the rows are read; the tile is ready after the stated
clocks. -/
def execTld (h : Hdr) (tl : Fin 16) (b : Fin 16) (st : Option (Fin 16)) (disp : BitVec 24) (s : State) :
    Outcome State Fault Refusal :=
  issueC (.tld h tl b st disp) h s fun s => withRows s tl b st disp fun x rows s =>
    if !tileIdle x then retry s
    else withOrder s true fun s => withTstDone s fun s =>
      let n := shRowB x.shape
      let locs := rows.flatMap fun r => locsFrom r n
      let s1 := drainCovering (closeCur s) s.cur locs
      let (bs, v) := readThreadMany s1 0 (curT s1) (sectors locs)
      let (id, s2) := newId (putT s1 { curT s1 with view := v })
      let s3 := setTile (countCorrected s2 locs) (tileKey s tl.val) { x with st := .filling, data := bs, load := id }
      retire h (later s3 (3 + rows.length + tileFar s rows) (.tileLoadComplete (tileKey s tl.val) id))

/-- TILE_LOAD_COMPLETE (R244): the tile that this load fills is ready. -/
def execTileLoadComplete (tl op : Nat) (s : State) : Outcome State Fault Refusal :=
  .next <|
    let x := tileAt s tl
    if x.st = .filling ∧ x.load = op then setTile s tl { x with st := .ready 0 } else s

/-- One reader of a tile more or less (R241). -/
def addReader (s : State) (tl : Nat) : State :=
  let x := tileAt s tl
  match x.st with
  | .ready r => setTile s tl { x with st := .ready (r + 1) }
  | _ => s

/-- One reader of a tile has completed (R241). -/
def dropReader (s : State) (tl : Nat) : State :=
  let x := tileAt s tl
  match x.st with
  | .ready r => setTile s tl { x with st := .ready (r - 1) }
  | _ => s

/-- A tile's source check (R241, R261): empty traps, filling waits. -/
def withSource (s : State) (t : Fin 16) (eff : State → State) : State :=
  match (tileAt s (tileKey s t.val)).st with
  | .empty => tileErr s 2 t.val
  | .filling => retry s
  | .ready _ => eff s

/-- TST (R245): the region closes, covered entries drain; row r is appended 3 + r clocks after issue; the completion
is a variable result without a register. -/
def execTst (h : Hdr) (tl : Fin 16) (b : Fin 16) (st : Option (Fin 16)) (disp : BitVec 24) (s : State) :
    Outcome State Fault Refusal :=
  issueC (.tst h tl b st disp) h s fun s => withRoom s fun s => withRows s tl b st disp fun x rows s =>
    withSource s tl fun s => withOrder s false fun s => withTstDone s fun s =>
      let n := shRowB x.shape
      let far := tileFar s rows
      let s1 := drainCovering (closeCur s) s.cur (rows.flatMap fun r => locsFrom r n)
      let (op, s2) := newId s1
      let (rid, s3) := resultWait [] (.tst op) s2
      let items := (List.range rows.length).map fun r =>
        (s.clock + 3 + r + far, (locsFrom (rows.getD r 0) n).zip ((x.data.drop (r * n)).take n))
      let o : TileOp := { ctx := (curT s).ctx, tk := s.cur, rid := rid, tile := tileKey s tl.val, rows := items,
                          fin := s.clock + 3 + rows.length + far, view := {}, covers := rows, rowb := n }
      let s4 := addReader { s3 with tileOps := mset s3.tileOps op o } (tileKey s tl.val)
      retire h (later s4 (3 + far) (.tileStoreComplete (tileKey s tl.val) op))

/-- The cells of a write, one list for each sector. -/
def sectorCells (cells : List (Nat × Byte)) : List (List (Nat × Byte)) :=
  cells.foldr (fun c acc => match acc with
    | ((x, b) :: g) :: r => if c.1 / 32 = x / 32 then (c :: (x, b) :: g) :: r else [c] :: ((x, b) :: g) :: r
    | _ => [c] :: acc) []

/-- TILE_STORE_COMPLETE (R245): the rows due are appended; in the clock after the last one the store completes, the tile
loses a reader, and the thread's view and result follow. Rows of a context that is being killed may be discarded on their
way (R366). -/
def execTileStoreComplete (tl op : Nat) (s : State) : Outcome State Fault Refusal :=
  .next <|
    match mget s.tileOps op with
    | none => s
    | some o =>
      let due := o.rows.filter fun r => decide (r.1 ≤ s.clock)
      let rest := o.rows.filter fun r => decide (s.clock < r.1)
      let ws := (due.flatMap fun r => sectorCells r.2).filter fun w => !discardedCells s o.ctx (o.tile / 16) w
      let (s1, v) := appendAll s o.view ws
      if rest = [] ∧ o.fin ≤ s.clock then
        let s2 := dropReader { s1 with tileOps := mdel s1.tileOps op } o.tile
        let s3 := modHolder s2 o.tk o.rid fun t => modRes t o.rid fun r => { r with wait := .none, join := some v }
        later s3 0 (.resultReturn o.tk o.rid)
      else
        let s2 := { s1 with tileOps := mset s1.tileOps op { o with rows := rest, view := v } }
        laterAt s2 (match rest with
          | r :: _ => r.1
          | [] => o.fin) (.tileStoreComplete tl op)

end Sys2Proof.Machine
end

