-- ==== Sys2Proof/Machine/Matrix.lean ====
section
/-!
DEFINITION. What a matrix job computes (R210 to R212, R246 to R250): the elements of a tile, group sums, the outputs
of MMA and MMAG, and the rows that ACCF flushes (R260).
-/

namespace Sys2Proof.Machine

/-! ### Elements (R246, R247) -/

/-- An element of a matrix operand: its value before any block scale, whether it is a signalling NaN, the scale of its
block, whether that scale is NaN, whether a reserved or unequal format was met, whether FZI acts on its code; and
whether it only pads a row (R212). -/
structure MElem where
  v     : Num
  snan  : Bool
  scale : Nat
  nanB  : Bool
  fmt   : Bool
  fp    : Bool
  pad   : Bool := false
  deriving DecidableEq, Repr

/-- A zero element. -/
def mzero : MElem := { v := .fin false 0 1, snan := false, scale := 127, nanB := false, fmt := false, fp := false }

/-- An element beyond an operand's K (R212). -/
def mpad : MElem := { mzero with pad := true }

/-- Cut a list into pieces of n. -/
def pieces {α : Type} (n : Nat) : Nat → List α → List (List α)
  | 0, _ => []
  | k + 1, l => l.take n :: pieces n k (l.drop n)

/-- The wide format of ELEM. -/
def wideFmt (e : Nat) : FFmt := if e = 0 then BF16 else if e = 1 then F16 else F32

/-- A wide element (R210). -/
def wideElem (F : FFmt) (fzi : Bool) (bs : List Byte) : MElem :=
  let b := F.flush fzi (ofBytesLE bs)
  { mzero with v := F.value b, snan := F.isSNaN b }

/-- The elements of a block (R198, R246): its own format, or zeros with FMT where its count differs from nb. -/
def blockElems (nb : Nat) (bs : List Byte) : List MElem :=
  let blk := ofBytesLE bs
  let f := blk % 256
  let sc := blk / 256 % 256
  if f = 0 then List.replicate nb mzero
  else if 7 < f ∨ fmtCount f ≠ nb then List.replicate nb { mzero with fmt := true }
  else (List.range nb).map fun i =>
    let c := bcode f (fmtCode f (blk / 2 ^ 32) i)
    { v := c.value, snan := false, scale := sc, nanB := sc == 255, fmt := false, fp := c.floating }

/-- A tile's rows as byte lists. -/
def tileRows (x : Tile) : List (List Byte) := pieces (shRowB x.shape) (shRows x.shape) x.data

/-- nb and the format of a block tile (R246), from its first row. -/
def blockKind (x : Tile) : Nat × Nat :=
  let fs := (pieces 64 (shRowB x.shape / 64) ((tileRows x).headD [])).map fun b => (b.headD 0).toNat
  match fs.find? fun f => f != 0 && f ≤ 7 with
  | some f => (fmtCount f, f)
  | none => (60, 1)

/-- The element rows of a tile. -/
def elemRows (fzi : Bool) (x : Tile) : List (List MElem) :=
  match shElem x.shape with
  | 3 => (tileRows x).map fun r => r.map fun b => { mzero with v := numOfInt b.toInt }
  | 4 => let nb := (blockKind x).1
         (tileRows x).map fun r => (pieces 64 (shRowB x.shape / 64) r).flatMap (blockElems nb)
  | e => (tileRows x).map fun r => (pieces (shSize x.shape) (shRowB x.shape / shSize x.shape) r).map (wideElem (wideFmt e) fzi)

/-- Whether a shape's elements are wide. -/
def isWide (x : W32) : Bool := decide (shElem x < 3)

/-- Elements in a row of a shape (R240), blocks counted by nb. -/
def rowElems (x : Tile) : Nat :=
  if shElem x.shape = 4 then shRowB x.shape / 64 * (blockKind x).1 else shRowB x.shape / shSize x.shape

/-- The element count a block operand's K is padded to a multiple of (R212). -/
def padUnit (x : Tile) : Nat := if shElem x.shape = 4 then (blockKind x).1 else 60

/-- k per clock of one operand (R246). -/
def rateOf (x : Tile) : Nat :=
  if shElem x.shape = 4 then
    (let f := (blockKind x).2; if f = 6 then 240 else if f = 3 ∨ f = 4 ∨ f = 5 then 120 else 60)
  else 60

/-! ### Group sums (R210, R211) -/

/-- The flags and value of a group of wide products (R210). -/
def groupWide (ps : List (MElem × MElem)) : Num × Flags :=
  let prods := ps.map fun e => e.1.v.mul e.2.v
  let bad := ps.any fun e => e.1.snan || e.2.snan || mulInvalid e.1.v e.2.v
  let pinf := prods.any fun p => p == .inf false
  let ninf := prods.any fun p => p == .inf true
  if bad || (pinf && ninf) then (.nan, fNV)
  else if prods.any Num.isNan then (.nan, 0)
  else if pinf then (.inf false, 0)
  else if ninf then (.inf true, 0)
  else
    let es := prods.filterMap fun p => match p with
      | .fin _ n d => if n = 0 then none else some (floorLog2 n d)
      | _ => none
    match es with
    | [] => (.fin false 0 1, 0)
    | e :: r =>
      let u : Int := r.foldl max e - 40
      let g : Int := prods.foldl (fun a p => match p with
        | .fin b n d => let (x, y) := scaleDown n d u; a + signedNum b (x / y)
        | _ => a) 0
      (dyadic (decide (g < 0)) g.natAbs u, 0)

/-- FZI on an element of a block, judged after its scale against F32 (R205). -/
def flushElem (fzi : Bool) (e : MElem) : Num :=
  if fzi && e.fp && belowNormal F32 (e.v.scale ((e.scale : Int) - 127)) then e.v.zeroed else e.v

/-- The flags and value of a group of block products (R211), before the accumulation. A padded position contributes a
zero product, whatever the other operand holds there (R212; log 46). -/
def groupBlock (fzi : Bool) (all : List (MElem × MElem)) : Num × Flags :=
  let fm : Flags := if all.any fun e => e.1.fmt || e.2.fmt then fFMT else 0
  let ps := all.filter fun e => !e.1.pad && !e.2.pad
  let vs := ps.map fun e => (flushElem fzi e.1, flushElem fzi e.2)
  let prods := vs.map fun e => e.1.mul e.2
  let pinf := prods.any fun p => p == .inf false
  let ninf := prods.any fun p => p == .inf true
  if ps.any fun e => e.1.nanB || e.2.nanB then (.nan, fm ||| fNV)
  else if vs.any fun e => mulInvalid e.1 e.2 then (.nan, fm ||| fNV)
  else if pinf && ninf then (.nan, fm ||| fNV)
  else if prods.any Num.isNan then (.nan, fm)
  else if pinf then (.inf false, fm)
  else if ninf then (.inf true, fm)
  else
    let sum := prods.foldl (fun (a : Num) p => a.add false p) (.fin false 0 1 : Num)
    let (sa, sb) := match ps with
      | e :: _ => (e.1.scale, e.2.scale)
      | [] => (127, 127)
    let (g, fl) := roundF F32 .rne false false 0 (sum.scale ((sa : Int) - 127 + (sb - 127)))
    (F32.value g, fm ||| fl)

/-- Add a group to an accumulator (R210, R211): one rounding, RNE, and FZO. -/
def accumulate (fzo : Bool) (acc : Nat) (g : Num) : Nat × Flags :=
  let a := F32.value acc
  if a.isNan || g.isNan then (F32.nan, 0)
  else if addInvalid a g then (F32.nan, fNV)
  else roundF F32 .rne false fzo 0 (a.add false g)

/-- Products in a group. -/
def groupSize (wide : Bool) : Nat := if wide then 32 else 20

/-- The first m groups of an output's sum (R248), in ascending order. -/
def dotAcc (wide fzi fzo : Bool) (m acc : Nat) (a b : List MElem) : Nat × Flags :=
  let n := max a.length b.length
  let pad := fun (l : List MElem) => l ++ List.replicate (n - l.length) mpad
  (pieces (groupSize wide) m ((pad a).zip (pad b))).foldl (fun (x : Nat × Flags) ps =>
    let (v, fl) := if wide then groupWide ps else groupBlock fzi ps
    let (r, fl') := accumulate fzo x.1 v
    (r, x.2 ||| fl ||| fl')) (acc, 0)

/-- Extend a row of K elements to a multiple of its padding (R212). -/
def padRow (wide : Bool) (unit : Nat) (l : List MElem) : List MElem :=
  if wide then l else l ++ List.replicate (ceilDiv l.length unit * unit - l.length) mpad

/-- The columns of B (R247): with BT its rows, else its transposed rows. -/
def bCols (bt fzi : Bool) (x : Tile) : List (List MElem) :=
  let rows := elemRows fzi x
  if bt then rows else (List.range (rowElems x)).map fun j => rows.map fun r => r.getD j mzero

/-! ### MMA and MMAG (R248, R249) -/

/-- Key of a bank entry. -/
def bankKey (bank i j : Nat) : Nat := bank * 4096 + i * 64 + j

/-- The outputs of a job, in order: A's row and the bank's row (R248, R249). -/
def outRows (rows ro : Nat) (list : Option (List Byte)) : List (Nat × Nat) :=
  match list with
  | none => (List.range 64).filterMap fun i => if ro + i < rows then some (ro + i, i) else none
  | some l => (List.range 64).filterMap fun i =>
      let ra := (l.getD i 0xFF).toNat
      let rb := (l.getD (64 + i) 0xFF).toNat
      if ra < rows ∧ rb < 64 then some (ra, rb) else none

/-- A matrix job as it is computed: A's rows, B's columns, the outputs in order (A's row, the bank's row, the column),
and the groups of each output's sum. -/
structure MmaPlan where
  wide : Bool
  ar   : List (List MElem)
  bc   : List (List MElem)
  outs : List (Nat × Nat × Nat)
  per  : Nat
  deriving DecidableEq, Repr

/-- The plan of an MMA or MMAG job on two tiles (R246 to R249). -/
def mmaPlan (a b : Tile) (bt fzi : Bool) (ro co : Nat) (list : Option (List Byte)) : MmaPlan :=
  let wide := isWide a.shape
  let ar := (elemRows fzi a).map (padRow wide (padUnit a))
  let bc := (bCols bt fzi b).map (padRow wide (padUnit b))
  let cols := natsWhere 64 fun j => decide (co + j < bc.length)
  { wide := wide, ar := ar, bc := bc
    outs := (outRows ar.length ro list).flatMap fun o => cols.map fun j => (o.1, o.2, co + j)
    per := ceilDiv (max (ar.headD []).length (bc.headD []).length) (groupSize wide) }

/-- A bank row set to +0 (R249). -/
def zeroRow (banks : Map W32) (bank i : Nat) : Map W32 := banks.filter fun e => e.1 / 64 != bank * 64 + i

/-- The group sums in all of a job. -/
def MmaPlan.groups (p : MmaPlan) : Nat := p.outs.length * p.per

/-- Perform the first `n` group sums of a matrix job on banks (R248, R249): the banks after and the flags. MMA's SET
starts every output at +0; MMAG's sets a bank row to +0 once, before its first update. -/
def mmaBanks (p : MmaPlan) (banks : Map W32) (bank co : Nat) (gather set fzi fzo : Bool) (n : Nat) : Map W32 × Flags :=
  let r := (p.outs.zip (List.range p.outs.length)).foldl (fun (x : (Map W32 × Flags) × List Nat) e =>
    let (ra, rb, cb) := e.1
    let m := min p.per (n - e.2 * p.per)
    if m = 0 then x
    else
      let base := if gather && set && !x.2.contains rb then zeroRow x.1.1 bank rb else x.1.1
      let k := bankKey bank rb (cb - co)
      let acc := if set && !gather then 0 else (mgetD base k 0).toNat
      let (v, fl) := dotAcc p.wide fzi fzo m acc (p.ar.getD ra []) (p.bc.getD cb [])
      ((mset base k (BitVec.ofNat 32 v), x.1.2 ||| fl), addNew rb x.2)) ((banks, 0), [])
  r.1

/-- The clocks of an MMA or MMAG job after its start (R250): b × ⌈K/W⌉. -/
def mmaClocks (a b : Tile) (bt : Bool) (ro co : Nat) (list : Option (List Byte)) : Nat :=
  let rows := shRows a.shape
  let cols := if bt then shRows b.shape else rowElems b
  let is := match list with
    | none => natsWhere 64 fun i => decide (ro + i < rows)
    | some l => natsWhere 64 fun i => decide ((l.getD i 0xFF).toNat < rows ∧ (l.getD (64 + i) 0xFF).toNat < 64)
  let bi := natsWhere 4 fun q => is.any fun i => i / 16 == q
  let nj := min 64 (cols - co)
  let wide := isWide a.shape
  let k := if wide then rowElems a else max (ceilDiv (rowElems a) (padUnit a) * padUnit a)
    (ceilDiv (if bt then rowElems b else shRows b.shape) (padUnit b) * padUnit b)
  let w := if wide then (if shElem a.shape = 2 ∨ shElem b.shape = 2 then 16 else 32) else min (rateOf a) (rateOf b)
  bi.length * ceilDiv nj 16 * ceilDiv k w

/-! ### ACCF (R259, R260) -/

/-- The destination of row r under a row map: its core, or none where it is skipped (R259). -/
def rowDest (m : BitVec 768) (r : Nat) : Option Nat :=
  let e := m.toNat / 2 ^ (4 * r) % 16
  if 8 ≤ e then none else some (e % 8)

/-- The core entry of core m (R259). -/
def coreEntry (m : BitVec 768) (c : Nat) : Word := BitVec.ofNat 64 (m.toNat / 2 ^ (256 + 64 * c))

/-- The rows sent, in order: row, core, offset in that core's share (R260). -/
def flushRows (m : BitVec 768) : List (Nat × Nat × Nat) :=
  ((List.range 64).foldl (fun (a : List (Nat × Nat × Nat) × List Nat) r =>
    match rowDest m r with
    | none => a
    | some c =>
      let k := a.2.countP (· == c)
      let e := coreEntry m c
      (a.1 ++ [(r, c, bitsOf e 17 0 + k * bitsOf e 35 18)], a.2 ++ [c])) ([], [])).1

/-- A flushed row's bytes, with flags and the job's generator after its draws (R260, R203). -/
def rowBytes (banks : Map W32) (bank r : Nat) (c : Bool) (fzo : Bool) (rm : RM) (sat : Bool) (g : W32) :
    List Byte × Flags × W32 :=
  (List.range 64).foldl (fun (a : List Byte × Flags × W32) j =>
    let x := (mgetD banks (bankKey bank r j) 0).toNat
    if c then
      let (d, g') := takeDraw rm a.2.2
      let (y, fl) := finishF BF16 { fzo := fzo, rm := rm } sat d (F32.value x) (F32.isSNaN x)
      (a.1 ++ bytesLE 2 y, a.2.1 ||| fl, g')
    else
      let (y, fl) := flushOut F32 fzo x
      (a.1 ++ bytesLE 4 y, a.2.1 ||| fl, a.2.2)) ([], 0, g)

/-- A bank set to +0 (R260). -/
def zeroBank (banks : Map W32) (bank : Nat) : Map W32 := banks.filter fun e => e.1 / 4096 != bank

end Sys2Proof.Machine
end

