-- ==== Sys2Proof/Machine/Jobs.lean ====
section
/-!
DEFINITION. Jobs: the engine queues (R142, R151 to R153, R252 to R255), what a matrix job, a row flush, a copy and a
collective do (R248, R258, R260, R392, R393), and the device steps JOB_START, JOB_COMPLETE and JOB_FAULT.
-/

namespace Sys2Proof.Machine

open Host

/-! ### Job records and events (R252, R253, R83) -/

/-- PEND and ERR of a status (R253). -/
def stPend : Nat := 2 ^ 15
def stErr : Nat := 2 ^ 14

/-- A status (R253): an error is its cause and its address, or for SDC the group that failed. -/
def jobStatus (err : Option (Nat × Nat)) (fl : Flags) : Word :=
  match err with
  | some (c, x) => w64 ((if c = cSDC.toNat then x % 2 ^ 16 * 2 ^ 16 else 0) + stErr + c % 64 * 256 + fl.toNat)
  | none => w64 fl.toNat

/-- Whether a status is of a job in flight. -/
def isPending (x : Word) : Bool := bitsOf x 15 15 == 1

/-- The retained record of a job id of a core context. -/
def jobRec (s : State) (c l id : Nat) : Option JobRec := (getCC s c l).bind fun cc => cc.jobs.find? fun r => r.id == id

/-- The entries of a queue that are jobs of a core context. -/
def jobsOfCC (q : JQueue) (c l : Nat) : Nat := q.ents.countP fun e => match e with
  | .job j => j.ctx == c && j.lcore == l
  | .mark _ _ => false

/-- The jobs in flight of a core context (R252). -/
def inFlight (s : State) (c l : Nat) : Nat := s.queues.foldl (fun a e => a + jobsOfCC e.2 c l) 0

/-- The next job id (R252). -/
def nextJobId (n : Nat) : Nat := if (n + 1) % 65536 = 0 then 1 else (n + 1) % 65536

/-- Key of queue i of a cluster: qm, then qc0 to qc3. -/
def queueKey (cl i : Nat) : Nat := 5 * cl + i

/-! ### Markers and heads (R152, R153) -/

/-- Whether a marker heads a queue. -/
def markAt (s : State) (id q : Nat) : Bool :=
  match (queueAt s q).ents with
  | .mark id' _ :: _ => id' == id
  | _ => false

/-- A marker that heads every queue it names. -/
def passable (s : State) : Option (Nat × List Nat) :=
  s.queues.findSome? fun e => match e.2.ents with
    | .mark id qs :: _ => if qs.all (markAt s id) then some (id, qs) else none
    | _ => none

/-- Pass a marker (R153): the queues it names go on, each from the views of all the entries completed before it. -/
def passMark (s : State) (qs : List Nat) : State :=
  let v := qs.foldl (fun (v : View) q => v.join (queueAt s q).last) {}
  qs.foldl (fun s q => let x := queueAt s q; setQueue s q { x with ents := x.ents.drop 1, last := v }) s

/-- Pass every marker that can be passed. -/
def passMarks : Nat → State → State
  | 0, s => s
  | n + 1, s => match passable s with
    | some (_, qs) => passMarks n (passMark s qs)
    | none => s

/-- Whether a queue's head is a job that may start: one behind a FENCE follows its thread's track instructions (R162). -/
def headWaits (s : State) (x : JQueue) : Bool :=
  !x.running && x.stalled.isNone && (match x.ents with
    | .job j :: _ => !fenced s j.tk j.gen j.fence
    | _ => false)

/-- Start what can start: markers pass, and each idle queue's head job begins. -/
def pumpQueues (s : State) : State :=
  let s1 := passMarks 1300 s
  s1.queues.foldl (fun s e =>
    if headWaits s e.2 && !(s.agenda.any fun a => a.2 == .jobStart e.1) then later s 0 (.jobStart e.1) else s) s1

/-! ### Enqueueing (R151, R252) -/

/-- Whether the engine or copy unit that serves a queue is being retired: it takes no new work (R39). -/
def unitRetiring (s : State) (q : Nat) : Bool :=
  decide (q < qclKey) && s.retires.any fun r => r.cls == (if q % 5 = 0 then clsEngine else clsCopy) && r.res == q / 5

/-- Room in a queue and among the core context's jobs in flight, and the order of the thread's steps; else the thread
is held. -/
def withQueue (q : Nat) (s : State) (eff : State → State) : State :=
  let t := curT s
  if 64 ≤ (queueAt s q).ents.length ∨ 32 ≤ inFlight s t.ctx t.lcore ∨ unitRetiring s q then retry s
  else withOrder s false fun s => withTstDone s eff

/-- The last job id given on the executing thread's core context, or, where there is none, on its core (log 41). -/
def lastJobId (s : State) : Nat :=
  ((getCC s (curT s).ctx (curT s).lcore).map CoreCtx.jobCtr).getD (coreAt s (coreOf s.cur)).jobCtr

/-- The step of R151: the job's id and the state after. A job that rounds stochastically takes its generator (R203). Where a
FENCE holds a buffered store of the thread in the port, the enqueue waits there too, and drains with the job's start (R162). -/
def enqueue (q : Nat) (kind : JobKind) (rsr : Bool) (sync : Option Nat) (s : State) : Nat × State :=
  let owes := if hostHeld s then (curT s).buf.filterMap BufItem.id? else []
  let s1 := if hostHeld s then closeCur s else drainAll (closeCur s) s.cur
  let t := curT s1
  let (d, rng) := takeDraw (if rsr then .rsr else .rne) t.rng
  let n := nextJobId (lastJobId s1)
  let j : Job := { id := n, ctx := t.ctx, lcore := t.lcore, phys := coreOf s1.cur, tk := s1.cur,
                   gen := (slotAt s1 s1.cur).gen, pc := t.pc, seed := seedGen (BitVec.ofNat 32 d) 0, sync := sync,
                   view := t.view, kind := kind, fence := t.fence, owes := owes }
  let s2 := modCC (setCore (putT s1 { t with rng := rng }) (coreOf s.cur)
      { coreAt s1 (coreOf s.cur) with jobCtr := n }) t.ctx t.lcore fun cc =>
    let js := cc.jobs.filter (fun r => r.id != n) ++ [{ id := n, status := w64 stPend, view := {} }]
    { cc with jobCtr := n, jobs := js.drop (js.length - 64) }
  let x := queueAt s2 q
  (n, pumpQueues (setQueue s2 q { x with ents := x.ents ++ [.job j] }))

/-- Enqueue with A = 1: the id is a fixed result. -/
def enqueueId (h : Hdr) (q : Nat) (kind : JobKind) (rsr : Bool) (j : Fin 16) (s : State) : State :=
  let (n, s1) := enqueue q kind rsr none s
  resultG h j (w64 n) s1

/-- Enqueue with A = 0: the thread is held until the job completes (R251). -/
def enqueueSync (h : Hdr) (q : Nat) (kind : JobKind) (rsr : Bool) (s : State) : State :=
  withRoom s fun s =>
    let l := (curT s).lcore
    let (rid, s1) := resultWait [] (.job l 0 none) s
    let (n, s2) := enqueue q kind rsr (some rid) s1
    let s3 := retire h s2
    putT s3 { curT s3 with block := .job q n }

/-- Enqueue in the form an optional id register asks for (R251). -/
def enqueueForm (h : Hdr) (q : Nat) (kind : JobKind) (rsr : Bool) (j : Option (Fin 16)) (s : State) : State :=
  withQueue q s fun s => match j with
    | some r => enqueueId h q kind rsr r s
    | none => enqueueSync h q kind rsr s

/-! ### The static checks of MMA and MMAG (R240 to R249, R261) -/

/-- The first reason for TILEERR among a pair of tiles, with the tile it names. The spec gives no order among reasons that
hold together: the model takes 6, which `withTile` finds, before 1, 2, 4, 5 and 3, and the order of the operands within one
(log 29). -/
def pairError (x y : Tile) (ta tb : Nat) (bt : Bool) : Option (Nat × Nat) :=
  if shRowB x.shape = 0 then some (1, ta)
  else if shRowB y.shape = 0 then some (1, tb)
  else if x.st = .empty then some (2, ta)
  else if y.st = .empty then some (2, tb)
  else if isWide x.shape != isWide y.shape then some (4, tb)
  else if !isWide y.shape && !bt then some (5, tb)
  else if isWide x.shape && rowElems x != (if bt then rowElems y else shRows y.shape) then some (3, tb)
  else none

/-- A bank is named within its share (R238). -/
def withBank (s : State) (a : Fin 4) (eff : State → State) : State :=
  if tileShare s = 0 then tileErr s 6 (16 + a.val) else eff s

/-- The effect of an MMA or MMAG on its tiles: the checks, the wait for filling tiles, and the readers (R241). -/
def withPair (s : State) (a : Fin 4) (ta tb : Fin 16) (bt : Bool) (eff : State → State) : State :=
  withUnit s clsEngine fun s => withBank s a fun s => withTile s ta fun s => withTile s tb fun s =>
    let x := tileAt s (tileKey s ta.val)
    let y := tileAt s (tileKey s tb.val)
    if x.st = .filling ∨ y.st = .filling then retry s
    else match pairError x y ta.val tb.val bt with
      | some (r, t) => tileErr s r t
      | none => eff s

/-- The readers a job adds: one for each tile it names. -/
def readPair (ta tb : Fin 16) (s : State) : State :=
  let s1 := addReader s (tileKey s ta.val)
  if ta = tb then s1 else addReader s1 (tileKey s tb.val)

/-- A synchronous form needs room for its result (R66). -/
def withRoomSync (j : Option (Fin 16)) (s : State) (eff : State → State) : State :=
  if j.isNone then withRoom s eff else eff s

/-- Queue qm of the executing thread's cluster. -/
def qmOf (s : State) : Nat := queueKey (coreOf s.cur / 8) 0

/-- MMA in either form. -/
def mmaForm (h : Hdr) (bt r64 c64 set : Bool) (z : Fz) (j : Option (Fin 16)) (ac : Fin 4) (ta tb : Fin 16) (s : State) :
    State :=
  withPair s ac ta tb bt fun s => withQueue (qmOf s) s fun s =>
    enqueueForm h (qmOf s) (.mma ac.val (tileKey s ta.val) (tileKey s tb.val) bt r64 c64 set z.fzi z.fzo none) false j
      (readPair ta tb s)

/-- MMA (R246 to R251). -/
def execMma (h : Hdr) (bt r64 c64 set : Bool) (z : Fz) (ac : Fin 4) (ta tb : Fin 16) (s : State) :
    Outcome State Fault Refusal :=
  issueC (.mma h bt r64 c64 set z ac ta tb) h s fun s => withRoom s (mmaForm h bt r64 c64 set z none ac ta tb)

/-- MMA.A (R251). -/
def execMmaA (h : Hdr) (bt r64 c64 set : Bool) (z : Fz) (j : Fin 16) (ac : Fin 4) (ta tb : Fin 16) (s : State) :
    Outcome State Fault Refusal :=
  issueC (.mmaA h bt r64 c64 set z j ac ta tb) h s (mmaForm h bt r64 c64 set z (some j) ac ta tb)

/-- MMAG (R249): the index list stands in scratchpad on the cluster. -/
def execMmag (h : Hdr) (bt c64 set : Bool) (z : Fz) (j : Option (Fin 16)) (ac : Fin 4) (ta tb l : Fin 16) (s : State) :
    Outcome State Fault Refusal :=
  issueC (.mmag h bt c64 set z j ac ta tb l) h s fun s => withRoomSync j s fun s =>
    withPair s ac ta tb bt fun s =>
      let va := (gVal s l).toNat
      match clusterLoc s va 128 with
      | .error e => trapHere s cPROT (w64 e)
      | .ok loc =>
        if va % 8 ≠ 0 then trapHere s cALIGN (w64 va)
        else withQueue (qmOf s) s fun s =>
          enqueueForm h (qmOf s)
            (.mma ac.val (tileKey s ta.val) (tileKey s tb.val) bt false c64 set z.fzi z.fzo (some loc)) false j
            (readPair ta tb s)

/-! ### ACCF (R259, R260) -/

/-- The core context of a context that stands on core m of a cluster. -/
def clusterShare (s : State) (c cl m : Nat) : Option (Nat × CoreCtx) :=
  (ccsOf s c).find? fun e => e.2.phys == 8 * cl + m

/-- The byte offset that makes an unskipped row's address trap (R260). -/
def rowError (s : State) (c cl : Nat) (m : BitVec 768) (size : Nat) : Option Nat :=
  (flushRows m).findSome? fun (_, core, off) =>
    let e := coreEntry m core
    let bar := bitsOf e 53 36
    match clusterShare s c cl core with
    | none => some off
    | some cc =>
      if cc.2.shSize < off + size then some off
      else if bar % 8 ≠ 0 ∨ (bitsOf e 63 63 = 1 ∧ cc.2.shSize < bar + 8) then some bar
      else none

/-- ACCF (R260). -/
def execAccf (h : Hdr) (z c nf : Bool) (f : Fp) (sat : Bool) (j : Option (Fin 16)) (ac : Fin 4) (s : State) :
    Outcome State Fault Refusal :=
  issueC (.accf h z c nf f sat j ac) h s fun s => withRoomSync j s fun s =>
    withUnit s clsEngine fun s => withBank s ac fun s =>
      let cl := coreOf s.cur / 8
      let m := (clusterAt s cl).rowmap
      match rowError s (curT s).ctx cl m (if c then 128 else 256) with
      | some off => trapHere s cPROT (w64 off)
      | none => enqueueForm h (qmOf s) (.accf ac.val z c nf f.fzo f.rm sat m) (f.rm == .rsr && c) j s

/-! ### TMAP (R259) -/

/-- The addresses of a row map image in pieces of eight bytes. -/
def imageVas (a : Nat) : List Nat := (List.range 12).map fun k => (a + 8 * k) % 2 ^ 64

/-- A row map as it is kept (R259): bits 62 to 54 of a core entry are read-only zeros. -/
def rowmapOf (x : Nat) : BitVec 768 :=
  BitVec.ofNat 768 x &&& (List.range 8).foldl (fun m c => m &&& ~~~(0x1FF#768 <<< (256 + 64 * c + 54))) (BitVec.allOnes 768)

/-- TMAP (R259): the image is read by the thread's reads and becomes ROWMAP in one step. A read that a FENCE holds in the port
holds the thread, since ROWMAP has no result to wait for (log 33). On a core without a tile share TMAP and TMAP.R trap TILEERR
with reason 6 and operand value 16, that of a0 (log 50). -/
def execTmap (h : Hdr) (a : Fin 16) (s : State) : Outcome State Fault Refusal :=
  issueC (.tmap h a) h s fun s => withUnit s clsEngine fun s => withBank s 0 fun s =>
    let va := (gVal s a).toNat
    withLanes s 8 false (imageVas va) fun locs s =>
      let all := locs.flatMap fun x => locsFrom x 8
      if all.any (portHeld s) then retry s
      else if readsPoison s (curT s) all then later (putT s { curT s with block := .device }) 0 (.uncorrectableConsumed s.cur va 0)
      else
        let s1 := countCorrected (closeCur s) all
        let (bs, v) := readThreadMany s1 0 (curT s1) (sectors all)
        let cl := coreOf s.cur / 8
        let s2 := setCluster (putT s1 { curT s1 with view := v }) cl
          { clusterAt s1 cl with rowmap := rowmapOf (ofBytesLE bs) }
        let (d, s3) := memDelay s2
        holdFor d (retire h s3)

/-- TMAP.R (R259): ROWMAP's image goes out as stores. -/
def execTmapR (h : Hdr) (a : Fin 16) (s : State) : Outcome State Fault Refusal :=
  issueC (.tmapR h a) h s fun s => withUnit s clsEngine fun s => withBank s 0 fun s =>
    let vas := imageVas (gVal s a).toNat
    withLanes s 8 true vas fun locs s =>
      let img := bytesLE 96 (clusterAt s (coreOf s.cur / 8)).rowmap.toNat
      let cells := (vas.zip locs).zip (List.range 12) |>.map fun e =>
        (List.range 8).map fun k => ((e.1.1 + k) / 32, e.1.2 + k, img.getD (8 * e.2 + k) 0)
      issueWrites h (sectorWrites cells.flatten) (closeCur s)

/-! ### COPY (R257, R258) -/

/-- The signed 32-bit half of a stride register. -/
def strideOf (x : Word) (hi : Bool) : Int := signedN 32 (if hi then bitsOf x 63 32 else bitsOf x 31 0)

/-- A register of number r + k. -/
def regAfter (r : GI) (k : Nat) : Fin 16 :=
  match r with
  | .g x => Fin.ofNat 16 (x.val + k)
  | .im _ => 0

/-- Row r's addresses on one side. -/
def copyVa (base : Nat) (stride : Int) (r : Nat) : Nat := (((base : Int) + r * stride) % 2 ^ 64).toNat

/-- Whether an address fails order 1 or 4 of R167, which COPY and COLL check at issue (R257, R391); a service core's or the
Reeve's address is physical (R294). -/
def edgeFails (s : State) (t : Thread) (write : Bool) (a : Nat) : Bool :=
  if !isCompute (coreOf s.cur) && t.ctx == 0 then (match physAccess s (coreOf s.cur) a with
    | .ok _ => false
    | _ => true)
  else match windowCheck s t.ctx t.lcore a 1 with
    | .error _ => true
    | .ok (some _) => false
    | .ok none => write && (match walk s t.ctx a with
      | .ok _ w _ cow => !w && !cow
      | _ => false)

/-- The first of COPY's issue checks that fails (R257), on the first and last byte of a row. -/
def edgeError (s : State) (t : Thread) (va n : Nat) (write : Bool) : Option Nat :=
  if n = 0 then none
  else [va, (va + n - 1) % 2 ^ 64].find? (edgeFails s t write)

/-- The first failing edge of a copy's rows. -/
def copyEdges (s : State) (dst src rows rowb : Nat) (dstr sstr : Int) : Option Nat :=
  (List.range rows).findSome? fun r =>
    match edgeError s (curT s) (copyVa src sstr r) rowb false with
    | some a => some a
    | none => edgeError s (curT s) (copyVa dst dstr r) rowb true

/-- COPY (R257): a copy job on queue q. -/
def execCopy (h : Hdr) (d2 wb : Bool) (ch : CH) (j : Fin 16) (q : Fin 4) (dst src : Fin 16) (n : GI) (s : State) :
    Outcome State Fault Refusal :=
  issueC (.copy h d2 wb ch j q dst src n) h s fun s => withUnit s clsCopy fun s =>
    let x := giVal s n
    let rows := if d2 then bitsOf x 47 32 + 1 else 1
    let rowb := bitsOf x 31 0
    let st := if d2 then gVal s (regAfter n 1) else 0
    let d := (gVal s dst).toNat
    let a := (gVal s src).toNat
    let dstr := strideOf st true
    let sstr := strideOf st false
    match copyEdges s d a rows rowb dstr sstr with
    | some va => trapHere s cPROT (w64 va)
    | none =>
      let qk := queueKey (coreOf s.cur / 8) (1 + q.val)
      let go := fun (b : Option Nat) (s : State) => withQueue qk s fun s =>
        enqueueId h qk (.copy d a rows rowb dstr sstr b) false j s
      if wb then withBarrier s (gVal s (regAfter n (if d2 then 2 else 1))).toNat fun loc s => go (some loc) s
      else go none s

/-! ### What a job does -/

/-- What performing a job ends in: a page fault; or the state, the view, the flags, and the cause and address of an
error. -/
inductive JobOut where
  | stall (va cause reason : Nat) (write : Bool)
  | done (s : State) (v : View) (fl : Flags) (err : Option (Nat × Nat))
  deriving DecidableEq, Repr

/-- A range of addresses cut at sectors: address and length. -/
def sectorPieces (va n : Nat) : List (Nat × Nat) :=
  if n = 0 then []
  else (List.range ((va + n - 1) / 32 - va / 32 + 1)).map fun k =>
    let lo := max va ((va / 32 + k) * 32)
    let hi := min (va + n) ((va / 32 + k + 1) * 32)
    (lo % 2 ^ 64, hi - lo)

/-- A job's access. -/
def jobAccess (s : State) (j : Job) (va : Nat) (write : Bool) : Access := devAccess s j.phys j.ctx j.lcore va write

/-- The first piece that meets a page fault. -/
def firstFault (s : State) (j : Job) (ps : List (Nat × Nat)) (write : Bool) : Option JobOut :=
  ps.findSome? fun p => match jobAccess s j p.1 write with
    | .fault c r => some (.stall p.1 c r write)
    | _ => none

/-- The error of an access. -/
def jobErr (va : Nat) : Access → Nat × Nat
  | .trap c _ => (c.toNat, va)
  | _ => (cPROT.toNat, va)

/-- Read pieces as `read(V(e), x)` steps: the bytes and view, or the error and what came before it. -/
def jobRead (s : State) (j : Job) (v : View) (ps : List (Nat × Nat)) : List Byte × View × Option (Nat × Nat) :=
  ps.foldl (fun (a : List Byte × View × Option (Nat × Nat)) p =>
    if a.2.2.isSome then a
    else match jobAccess s j p.1 false with
      | .ok loc =>
        let locs := locsFrom loc p.2
        if poisoned s locs then (a.1, a.2.1, some (0x32, p.1))
        else
          let (bs, v') := readView s a.1.length a.2.1 locs
          (a.1 ++ bs, v', none)
      | x => (a.1, a.2.1, some (jobErr p.1 x))) ([], v, none)

/-- The location ranges of pieces. -/
def pieceLocs (s : State) (j : Job) (ps : List (Nat × Nat)) (write : Bool) : List (Nat × Nat) :=
  ps.filterMap fun p => match jobAccess s j p.1 write with
    | .ok loc => some (loc, p.2)
    | _ => none

/-- Whether a job's read of a piece delivers its bytes. -/
def pieceReads (s : State) (j : Job) (p : Nat × Nat) : Bool :=
  match jobAccess s j p.1 false with
  | .ok loc => !poisoned s (locsFrom loc p.2)
  | _ => false

/-- Count the single-bit errors that a job's reads correct (R295), up to the piece that stops it. -/
def jobCorrected (s : State) (j : Job) (ps : List (Nat × Nat)) : State :=
  countCorrected s ((pieceLocs s j (ps.takeWhile (pieceReads s j)) false).flatMap fun e => locsFrom e.1 e.2)

/-- Write pieces, one write for each destination sector. -/
def jobWrite (s : State) (j : Job) (v : View) (ps : List (Nat × Nat)) (bs : List Byte) :
    State × View × Option (Nat × Nat) :=
  (ps.foldl (fun (a : (State × View × Option (Nat × Nat)) × List Byte) p =>
    if a.1.2.2.isSome then a
    else match jobAccess a.1.1 j p.1 true with
      | .ok loc =>
        let cells := (locsFrom loc p.2).zip (a.2.take p.2)
        let (ts, s') := append a.1.1 cells none
        ((noteWriter s' j.ctx j.phys (cells.map (·.1)), a.1.2.1.raises (cells.map (·.1)) ts, none), a.2.drop p.2)
      | x => ((a.1.1, a.1.2.1, some (jobErr p.1 x)), a.2)) ((s, v, none), bs)).1

/-- What a job writes of sectors that come after others: all of them, or as many as one that is stopped still writes
(R366). -/
def upTo {α : Type} (j : Job) (before : Unit → Nat) (ps : List α) : List α :=
  match j.stop with
  | none => ps
  | some n => ps.take (n - before ())

/-- Bytes to be written over a range that overlaps the source are undefined (R258; log 4). -/
def blurOverlap (s : State) (j : Job) (srcs : List (Nat × Nat)) (ps : List (Nat × Nat)) (bs : List Byte) : List Byte :=
  let dst := (pieceLocs s j ps true).flatMap fun p => locsFrom p.1 p.2
  bs.zip (List.range bs.length) |>.map fun e =>
    match dst[e.2]? with
    | some x => if srcs.any fun r => decide (r.1 ≤ x ∧ x < r.1 + r.2) then Config.freeByte s.freeCtr e.2 else e.1
    | none => e.1

/-- COPY's job (R258): rows in ascending order. -/
def performCopy (s : State) (j : Job) (v : View) (dst src rows rowb : Nat) (dstr sstr : Int) : JobOut :=
  let sp := fun r => sectorPieces (copyVa src sstr r) rowb
  let dp := fun r => sectorPieces (copyVa dst dstr r) rowb
  match firstFault s j ((List.range rows).flatMap sp) false with
  | some x => x
  | none =>
    match firstFault s j ((List.range rows).flatMap dp) true with
    | some x => x
    | none =>
      let srcs := pieceLocs s j ((List.range rows).flatMap sp) false
      let r := (List.range rows).foldl (fun (a : State × View × Option (Nat × Nat)) r =>
        if a.2.2.isSome then a
        else
          let (bs, v1, e) := jobRead a.1 j a.2.1 (sp r)
          let s1 := jobCorrected a.1 j (sp r)
          if e.isSome then (s1, v1, e)
          else jobWrite s1 j v1 (upTo j (fun _ => ((List.range r).map fun k => (dp k).length).sum) (dp r))
            (blurOverlap a.1 j srcs (dp r) bs)) (s, v, none)
      .done r.1 r.2.1 0 r.2.2

/-- MMA's and MMAG's job (R248, R249). An error that strikes one of its group sums and that the shadow catches ends it
before that group (R215, R253); one that passes leaves its output a free value (log 17). -/
def performMma (s : State) (v : View) (cl bank ta tb : Nat) (bt r64 c64 set fzi fzo : Bool) (list : Option Nat) : JobOut :=
  let (idx, v1, bad) : Option (List Byte) × View × Bool := match list with
    | none => (none, v, false)
    | some loc =>
      let locs := locsFrom loc 128
      let (bs, v') := readMany s 0 v (sectors locs)
      (some bs, v', poisoned s locs)
  let s := countCorrected s ((list.map fun loc => locsFrom loc 128).getD [])
  if bad then .done s v1 0 (some (0x32, list.getD 0))
  else
    let c := clusterAt s cl
    let co := if c64 then 64 else 0
    let p := mmaPlan (tileAt s ta) (tileAt s tb) bt fzi (if r64 then 64 else 0) co idx
    let run := mmaBanks p c.banks bank co list.isSome set fzi fzo
    match s.corrupt.find? fun u => u.unit == (1, cl) && decide (u.nth < p.groups) with
    | none =>
      let (bs, fl) := run p.groups
      .done (setCluster s cl { c with banks := bs }) v1 fl none
    | some u =>
      let s1 := { s with corrupt := s.corrupt.erase u }
      if u.caught then
        .done (setCluster s1 cl { c with banks := (run u.nth).1 }) v1 (run u.nth).2 (some (cSDC.toNat, u.nth % p.per))
      else
        let (bs, fl) := run p.groups
        let o := p.outs.getD (u.nth / p.per) (0, 0, co)
        let x := (Config.freeWord s.freeCtr 6000).setWidth 32
        .done (setCluster s1 cl { c with banks := mset bs (bankKey bank o.2.1 (o.2.2 - co)) x }) v1 fl none

/-- ACCF's job (R260). A row whose core context has left the cluster since the enqueue is skipped, and its arrival with it (log
50). -/
def performAccf (s : State) (j : Job) (v : View) (cl bank : Nat) (z c nf fzo : Bool) (rm : RM) (sat : Bool)
    (m : BitVec 768) : JobOut :=
  let banks := (clusterAt s cl).banks
  let rows := if nf then [] else flushRows m
  let r := (rows.zip (List.range rows.length)).foldl (fun (a : State × View × Flags × W32) en =>
    let e := en.1
    match clusterShare a.1 j.ctx cl e.2.1 with
    | none => a
    | some cc =>
      let (bs, fl, g) := rowBytes banks bank e.1 c fzo rm sat a.2.2.2
      let loc := sramLoc (ccKey j.ctx cc.1) e.2.2
      let (s', v') := appendAll a.1 a.2.1 (upTo j (fun _ => en.2 * bs.length / 32) (sectorCells ((locsFrom loc bs.length).zip bs)))
      (s', v', a.2.2.1 ||| fl, g)) (s, v, 0, j.seed)
  let s1 := if z then setCluster r.1 cl { clusterAt r.1 cl with banks := zeroBank banks bank } else r.1
  .done s1 r.2.1 r.2.2.1 none

/-! ### Collectives (R392, R393) -/

/-- The packages of a mask, ascending. -/
def maskPkgs (gm : Word) : List Nat := natsWhere 64 fun p => gm.getLsbD p

/-- The format of a TYPE, or none for I32 (R112). -/
def collFmt (ty : Nat) : Option FFmt := if ty = 4 then some F16 else if ty = 5 then some BF16 else if ty = 6 then some F32 else none

/-- Element size of a TYPE. -/
def collSize (ty : Nat) : Nat := if ty = 4 ∨ ty = 5 then 2 else 4

/-- The comb of R393 on two elements. -/
def combElem (ty op x y : Nat) : Nat × Flags :=
  let k : RedK := if op = 0 then .add else if op = 1 then .min else .max
  match collFmt ty with
  | some F => combF F k {} 0 x y
  | none => (wrapN 32 (match k with
    | .add => signedN 32 x + signedN 32 y
    | .min => min (signedN 32 x) (signedN 32 y)
    | .max => max (signedN 32 x) (signedN 32 y)), 0)

/-- The result of a rank in the tree of R393, element by element; the fuel covers 64 ranks. -/
def rankResult (ty op : Nat) (srcs : List (List Nat)) : Nat → Nat → List Nat × Flags
  | 0, r => (srcs.getD r [], 0)
  | fuel + 1, r =>
    [2 * r + 1, 2 * r + 2].foldl (fun (a : List Nat × Flags) c =>
      if c < srcs.length then
        let (b, fl) := rankResult ty op srcs fuel c
        let xs := a.1.zipWith (combElem ty op) b
        (xs.map (·.1), xs.foldl (fun f e => f ||| e.2) (a.2 ||| fl))
      else a) (srcs.getD r [], 0)

/-- A byte list as elements. -/
def elemsOf (z : Nat) (bs : List Byte) : List Nat := (chunksOf z (bs.length / z) bs).map ofBytesLE
where
  /-- Pieces of z bytes. -/
  chunksOf (z : Nat) : Nat → List Byte → List (List Byte)
    | 0, _ => []
    | n + 1, l => l.take z :: chunksOf z n (l.drop z)

/-- The bytes a participant writes, and the flags (R392): the sources in ascending package order. -/
def collOut (form : Nat) (gn gm : Word) (srcs : List (List Byte)) : List Byte × Flags :=
  let ty := bitsOf gn 34 32
  let z := collSize ty
  if form = 0 then
    let (xs, fl) := rankResult ty (bitsOf gn 37 36) (srcs.map (elemsOf z)) 7 0
    (xs.flatMap (bytesLE z), fl)
  else if form = 1 then
    (srcs.getD ((maskPkgs gm).filter (· < bitsOf gn 47 40)).length [], 0)
  else (srcs.flatten, 0)

/-- What a participant writes where its source and destination overlap but in part: nothing is defined (R392; log 4). -/
def spoilOverlap (s : State) (j : Job) (dst src n : Nat) (dp : List (Nat × Nat)) (bs : List Byte) : List Byte :=
  let srcs := pieceLocs s j (sectorPieces src n) false
  let hit := (pieceLocs s j dp true).any fun d => srcs.any fun r => decide (r.1 < d.1 + d.2 ∧ d.1 < r.1 + r.2)
  if dst ≠ src ∧ hit then (List.range bs.length).map (Config.freeByte s.freeCtr) else bs

/-- COLL's job (R392): the other participants' sources are inputs of the step, n bytes each, in ascending order
(log 20). -/
def performColl (s : State) (j : Job) (v : View) (form dst src : Nat) (gn gm : Word) (peers : Nat) : JobOut :=
  let n := bitsOf gn 31 0
  let ps := maskPkgs gm
  let own := (ps.filter (· < s.pkg)).length
  let total := if form = 2 then n * ps.length else n
  let reads := !(form == 1 && bitsOf gn 47 40 != s.pkg)
  let sp := if reads then sectorPieces src n else []
  let dp := sectorPieces dst total
  match firstFault s j sp false with
  | some x => x
  | none =>
    match firstFault s j dp true with
    | some x => x
    | none =>
      let (bs, v1, e) := jobRead s j v sp
      let s := jobCorrected s j sp
      if e.isSome then .done s v1 0 e
      else
        let others := (List.range (ps.length - 1)).map fun k => bytesLE n (peers / 256 ^ (n * k))
        let srcs := others.take own ++ [bs] ++ others.drop own
        let (out, fl) := collOut form gn gm srcs
        let (s1, v2, e2) := jobWrite s j v1 (upTo j (fun _ => 0) dp) (spoilOverlap s j dst src n dp out)
        .done s1 v2 fl e2

/-- How many sectors a job writes at most. -/
def jobSectors (j : Job) : Nat :=
  match j.kind with
  | .mma _ _ _ _ _ _ _ _ _ _ => 0
  | .accf _ _ _ _ _ _ _ _ => 512
  | .copy _ _ rows rowb _ _ _ => rows * (rowb / 32 + 2)
  | .coll form _ _ gn gm _ => bitsOf gn 31 0 * (if form = 2 then (maskPkgs gm).length else 1) / 32 + 2

/-- Perform a job (R152). -/
def performJob (s : State) (q : Nat) (j : Job) (v : View) : JobOut :=
  match j.kind with
  | .mma bank ta tb bt r64 c64 set fzi fzo list => performMma s v (q / 5) bank ta tb bt r64 c64 set fzi fzo list
  | .accf bank z c nf fzo rm sat m => performAccf s j v (q / 5) bank z c nf fzo rm sat m
  | .copy dst src rows rowb dstr sstr _ => performCopy s j v dst src rows rowb dstr sstr
  | .coll form dst src gn gm peers => performColl s j v form dst src gn gm (peers.getD 0)

/-! ### Clocks (R250, R258, R400) -/

/-- A time stretched by a polder's throttle level (R400). -/
def stretch (s : State) (cl d : Nat) : Nat :=
  let n := (s.reeve.thrlEff.toList.getD (polderOf cl) 0).toNat
  ceilDiv (d * 8) (8 - n)

/-- The clocks of a job from its start to its completion (R250), for a collective without what the tape adds; a copy's
follow from its share of the copy unit. -/
def jobClocks (s : State) (q : Nat) (j : Job) : Nat :=
  match j.kind with
  | .mma _ ta tb bt r64 c64 _ _ _ list =>
    10 + mmaClocks (tileAt s ta) (tileAt s tb) bt (if r64 then 64 else 0) (if c64 then 64 else 0)
      (list.map fun loc => Memory.readN s.mem loc 128)
  | .accf _ _ c nf _ _ _ m =>
    let rows := if nf then 0 else (flushRows m).length
    10 + (if c then 1 else 2) * rows + (if rows = 0 then 0 else latency s.cmap (q / 5) (q / 5))
  | .copy _ _ _ _ _ _ _ => 0
  | .coll _ _ _ _ _ _ => 1

/-- Whether a head job starts by itself: a collective of one package, one that a page fault has stopped (R255), or any other
job. -/
def startsAlone (j : Job) : Bool :=
  match j.kind with
  | .coll _ _ _ _ gm peers => (maskPkgs gm).length == 1 || peers.isSome
  | _ => true

/-! ### The copy unit's rate (R258, R400) -/

/-- What is left of the requests of the running copies after n sectors in turn, one sector each: a copy leaves once its
last sector is requested. The fuel covers the four queues. -/
def takeTurns : Nat → List (Nat × Nat) → Nat → List (Nat × Nat)
  | 0, l, _ => l
  | f + 1, l, n =>
    match l with
    | [] => []
    | x :: r =>
      let m := l.length
      let k := r.foldl (fun a e => min a e.2) x.2
      if n < k * m then
        let l1 := (l.zip (List.range m)).map fun e => (e.1.1, e.1.2 - n / m - (if e.2 < n % m then 1 else 0))
        (l1.drop (n % m) ++ l1.take (n % m)).filter fun e => e.2 != 0
      else takeTurns f ((l.map fun e => (e.1, e.2 - k)).filter fun e => e.2 != 0) (n - k * m)

/-- The turns until the last sector of a queue's copy is requested. -/
def lastTurn : Nat → List (Nat × Nat) → Nat → Nat
  | 0, _, _ => 0
  | f + 1, l, q =>
    match l with
    | [] => 0
    | x :: r =>
      let m := l.length
      let k := r.foldl (fun a e => min a e.2) x.2
      if l.any fun e => e.1 == q && e.2 == k then (k - 1) * m + (l.findIdx fun e => e.1 == q) + 1
      else k * m + lastTurn f ((l.map fun e => (e.1, e.2 - k)).filter fun e => e.2 != 0) q

/-- The running head of a queue. -/
def runningJob (s : State) (q : Nat) : Option Job :=
  let x := queueAt s q
  if x.running then (match x.ents with
    | .job j :: _ => some j
    | _ => none)
  else none

/-- The sectors left to request of a cluster's running copies: four are requested a clock, as the throttle lets the unit
advance. -/
def copiesNow (s : State) (cl : Nat) : List (Nat × Nat) :=
  let c := clusterAt s cl
  let n := (s.reeve.thrlEff.toList.getD (polderOf cl) 0).toNat
  (takeTurns 5 c.copies ((s.clock - c.copyAt) * (8 - n) / 2)).filter fun e => (runningJob s e.1).isSome

/-- Set what is left of a cluster's copies: each completes once its last sector is requested and has returned. -/
def setCopies (s : State) (cl : Nat) (l : List (Nat × Nat)) : State :=
  l.foldl (fun s e => match runningJob s e.1 with
    | some j =>
      let s1 := { s with agenda := s.agenda.filter fun a => a.2 != .jobComplete e.1 j.id 0 }
      later s1 (stretch s cl (ceilDiv (lastTurn 5 l e.1) 4) + j.lat) (.jobComplete e.1 j.id 0)
    | none => s) (setCluster s cl { clusterAt s cl with copies := l, copyAt := s.clock })

/-- The destination sectors of a copy: its requests in turn. -/
def copySectors (dst rows rowb : Nat) (dstr : Int) : Nat :=
  if rowb = 0 then 0
  else ((List.range rows).map fun r => let a := copyVa dst dstr r; (a + rowb - 1) / 32 - a / 32 + 1).sum

/-- Start a queue's head job: it runs, and completes after its clocks. A copy shares the cluster's copy unit; its reads
return after a latency that the tape decides. -/
def startHead (s : State) (q : Nat) (j : Job) (rest : List QEnt) : State :=
  let x := queueAt s q
  let run := fun (s : State) (j : Job) =>
    setQueue s q { x with ents := .job { j with view := j.view.join x.last } :: rest, running := true }
  match j.kind with
  | .copy dst _ rows rowb dstr _ _ =>
    let n := copySectors dst rows rowb dstr
    if n = 0 then later (run s j) 0 (.jobComplete q j.id 0)
    else
      let (d, s1) := takeDelay s 4096
      let s2 := run s1 { j with lat := 20 + d }
      setCopies s2 (q / 5) ((copiesNow s2 (q / 5)).filter (fun e => e.1 != q) ++ [(q, n)])
  | .coll _ _ _ _ _ _ =>
    let (d, s1) := takeDelay s 4096
    later (run s1 j) (jobClocks s q j + d) (.jobComplete q j.id 0)
  | _ =>
    let d := jobClocks s q j
    later (run s { j with left := d, since := s.clock }) (stretch s (q / 5) d) (.jobComplete q j.id 0)

/-- The running job of an engine completes by the clocks left to it: at a throttle level's change they are counted anew
(R400). -/
def retimeEngine (n : Nat) (s : State) (cl : Nat) : State :=
  let q := queueKey cl 0
  match runningJob s q with
  | none => s
  | some j =>
    let left := j.left - (s.clock - j.since) * (8 - n) / 8
    let x := queueAt s q
    let s1 := setQueue s q { x with ents := .job { j with left := left, since := s.clock } :: x.ents.drop 1 }
    later { s1 with agenda := s1.agenda.filter fun a => a.2 != .jobComplete q j.id 0 } (stretch s cl left) (.jobComplete q j.id 0)

/-- A polder's throttle level takes effect (R400): its engines and copy units advance by it from this clock on. -/
def throttle (s : State) (p : Nat) (l : BitVec 3) : State :=
  if h : p < 8 then
    let n := s.reeve.thrlEff[p].toNat
    let cls := natsWhere 256 fun cl => polderOf cl == p
    let s1 := { s with reeve := { s.reeve with thrlEff := s.reeve.thrlEff.set p l } }
    cls.foldl (fun t cl => setCopies (retimeEngine n t cl) cl (copiesNow s cl)) s1
  else s

/-- A job whose enqueue the port has held goes on (R162): what it has still to drain drains, and its view is its thread's of
that moment; a write of a thread that has left counts as performed now. None while an entry is held. -/
def settleOwed (s : State) (j : Job) : Option (State × Job) :=
  let due := fun (s : State) => (getT s j.tk).buf.filterMap fun b => b.id?.filter j.owes.contains
  let here := (mget s.threads j.tk).isSome && (slotAt s j.tk).gen == j.gen
  if j.owes = [] then some (s, j)
  else if here ∧ (due s).any fun bid => drainWaits s j.tk bid (getT s j.tk) then none
  else
    let s1 := j.owes.foldl (fun s bid => drainNamed j.tk bid s) s
    some (s1, { j with owes := [], view := j.view.join (if here then (getT s1 j.tk).view else viewNow s1) })

/-- JOB_START (R152). -/
def execJobStart (q : Nat) (s : State) : Outcome State Fault Refusal :=
  .next <|
    let x := queueAt s q
    if !headWaits s x then s
    else match x.ents with
      | .job j :: rest =>
        if !startsAlone j then s
        else (match settleOwed s j with
          | some (s1, j1) => startHead s1 q j1 rest
          | none => later s 1 (.jobStart q))
      | _ => s

/-- COLLECTIVE_START (R392): the head collective proceeds with the other participants' sources. -/
def execCollectiveStart (peers : Nat) (s : State) : Outcome State Fault Refusal :=
  .next <|
    let x := queueAt s qclKey
    if !headWaits s x then s
    else match x.ents with
      | .job j :: rest =>
        (match j.kind with
          | .coll form dst src gn gm _ =>
            (match settleOwed s j with
              | some (s1, j1) => startHead s1 qclKey { j1 with kind := .coll form dst src gn gm (some peers) } rest
              | none => later s 1 (.collectiveStart peers))
          | _ => s)
      | _ => s

/-! ### Completion (R83, R152, R163, R251, R254) -/

/-- A scratchpad barrier arrival posted by a job on a queue (R163, R262). -/
def postArrival (s : State) (q loc n : Nat) (v : View) : State :=
  let cl := q / 5
  let d := if sramCore s loc / 8 = cl then 0 else latency s.cmap cl (routerOf (sramCore s loc))
  sendArrival s d loc n v ((if q = qclKey then 5 else q % 5) * 256 + cl) 0 0

/-- The arrivals a completed job posts: location and bytes. -/
def jobArrivals (s : State) (q : Nat) (j : Job) : List (Nat × Nat) :=
  match j.kind with
  | .copy _ _ rows rowb _ _ (some loc) => [(loc, rows * rowb)]
  | .accf _ _ c nf _ _ _ m =>
    (if nf then [] else flushRows m).filterMap fun (_, core, _) =>
      let e := coreEntry m core
      if bitsOf e 63 63 = 1 then
        (clusterShare s j.ctx (q / 5) core).map fun cc =>
          (sramLoc (ccKey j.ctx cc.1) (bitsOf e 53 36), if c then 128 else 256)
      else none
  | _ => []

/-- The tiles a job reads. -/
def jobTiles (j : Job) : List Nat :=
  match j.kind with
  | .mma _ ta tb _ _ _ _ _ _ _ => if ta = tb then [ta] else [ta, tb]
  | _ => []

/-- End the JWAITs on a job (R254). -/
def wakeJobWaits (s : State) (c l id : Nat) (sync : Option Nat) (status : Word) (v : View) : State :=
  s.threads.foldl (fun s e =>
    if e.2.ctx = c ∧ e.2.lcore = l then
      (e.2.res.filter fun r => some r.id != sync && (match r.wait with
        | .job l' id' _ => l' == l && id' == id
        | _ => false)).foldl (fun s r => finishWait s e.1 r.id (valsOf r.dst status true) evJOB (some v) 8) s
    else s) s

/-- A synchronous job's thread goes on (R251): the flags are its own, and an error traps. -/
def wakeSync (s : State) (j : Job) (rid : Nat) (status : Word) (fl : Flags) (err : Option (Nat × Nat)) (v : View) : State :=
  match mget s.threads j.tk with
  | none => s
  | some t =>
    if (findRes t rid).isNone then s
    else
      let t1 := { modRes t rid (fun r => { r with wait := .none, join := some v }) with
        block := .free, fxfAt := s.clock, fxfNew := fxfFresh t s.clock ||| fl }
      let t2 := { raiseFlags { t1 with pc := j.pc } fl with pc := t1.pc }
      let s1 := later (setT s j.tk t2) 0 (.resultReturn j.tk rid)
      match err with
      | none => s1
      | some (c, a) =>
        if c = 0x32 then later (modT s1 j.tk fun t => { t with block := .device }) 0 (.uncorrectableConsumed j.tk a 0)
        else takeTrap s1 j.tk { cause := BitVec.ofNat 8 c, tval := status, epc := j.pc }

/-- Whether the thread that enqueued a job waits for it by a JWAIT, which then reports the completion (R254, R80). -/
def ownWait (s : State) (j : Job) : Bool :=
  (slotAt s j.tk).gen == j.gen && (getT s j.tk).res.any fun r => some r.id != j.sync && (match r.wait with
    | .job l id _ => l == j.lcore && id == j.id
    | _ => false)

/-- End the running job of a queue. Its event reaches its thread, unless that thread's own JWAIT has reported it (log 41). -/
def finishJob (s : State) (q : Nat) (j : Job) (v : View) (fl : Flags) (err : Option (Nat × Nat)) : State :=
  let status := jobStatus err fl
  let x := queueAt s q
  let s1 := setQueue s q { x with ents := x.ents.drop 1, running := false, stalled := none, last := v }
  let s2 := modCC s1 j.ctx j.lcore fun cc =>
    { cc with jobs := cc.jobs.map fun r => if r.id = j.id then { r with status := status, view := v } else r }
  let s3 := (jobTiles j).foldl dropReader s2
  let s4 := wakeJobWaits s3 j.ctx j.lcore j.id j.sync status v
  let s5 := match j.sync with
    | some rid => wakeSync s4 j rid status fl err v
    | none => s4
  let from_ := if q = qclKey then 0 else q / 5
  let s6 := if ownWait s j then s5
    else later s5 (latency s5.cmap from_ (routerOf (coreOf j.tk))) (.jobComplete j.ctx 0 (1 + 256 * j.tk + j.gen.toNat))
  let s7 := if err.isSome then s6 else (jobArrivals s6 q j).foldl (fun s a => postArrival s q a.1 a.2 v) s6
  pumpQueues (modCtx s7 j.ctx fun c => { c with all := c.all.join v })

/-- A completion event reaches its slot (R83): the JOB bit latches, or the event is dropped and counted: where the
generation differs, and, by the model's choice, where the slot holds no thread of the context (log 47). -/
def jobEvent (s : State) (c tk gen : Nat) : State :=
  if (slotAt s tk).gen.toNat = gen ∧ (getT s tk).ctx = c ∧ (slotAt s tk).occ = .used then latch s tk evJOB
  else countDrop s c

/-- JOB_COMPLETE (R152, R253): the running job takes its steps and completes; a fault or an error is met as R255
says. -/
def execJobComplete (q jid ev : Nat) (s : State) : Outcome State Fault Refusal :=
  .next <|
    if ev ≠ 0 then jobEvent s q ((ev - 1) / 256) ((ev - 1) % 256)
    else match runningJob s q with
      | none => s
      | some j =>
        if j.id ≠ jid then s
        else match performJob s q j j.view with
          | .stall _ _ _ _ => later s 0 (.jobFault q 0)
          | .done s1 v fl none => finishJob s1 q j v fl none
          | .done s1 v fl (some (c, a)) =>
            let x := queueAt s1 q
            later (setQueue s1 q { x with ents := .job { j with view := v, fl := fl } :: x.ents.drop 1 }) 0 (.jobFault q (c + 256 * a))

/-- JOB_FAULT (R255): a page fault hands its task and stalls the queue; an error, its cause in the low 8 bits, ends the
job with ERR. -/
def execJobFault (q err : Nat) (s : State) : Outcome State Fault Refusal :=
  .next <|
    match runningJob s q with
    | none => s
    | some j =>
      if err ≠ 0 then finishJob s q j j.view j.fl (some (err % 256, err / 256))
      else match performJob s q j j.view with
        | .stall va cause reason write =>
          let die := dieOf (if q = qclKey then 0 else q / 5)
          let s1 := handFault s die j.ctx 0xFFF va cause (reason + 1024 + (if write then 256 else 0))
          setQueue s1 q { queueAt s1 q with running := false, stalled := some (j.ctx, pageOf va, cause) }
        | .done _ _ _ _ => later s 0 (.jobComplete q j.id 0)

/-! ### JWAIT (R254) -/

/-- JWAIT's destination. -/
def jwaitDst (gt : Option (Fin 16)) : List RegId := match gt with
  | some r => [.g r]
  | none => []

/-- JWAIT (R254). -/
def execJwait (h : Hdr) (j : GI) (gt : Option (Fin 16)) (s : State) : Outcome State Fault Refusal :=
  issueC (.jwait h j gt) h s fun s => withRoom s fun s =>
    let t := curT s
    let id := (giVal s j).toNat % 65536
    let dst := jwaitDst gt
    match (if id = 0 then none else jobRec s t.ctx t.lcore id) with
    | some r =>
      if isPending r.status then
        let (_, s1) := resultWait dst (.job t.lcore id gt) s
        retire h s1
      else
        let (rid, s1) := resultWait dst .none s
        let t1 := modRes (latchEvt s1.clock (curT s1) evJOB) rid fun x => { x with vals := valsOf dst r.status true, join := some r.view, evt := evJOB }
        retire h (later (putT s1 t1) 2 (.resultReturn s1.cur rid))
    | none => resultIn h 2 (valsOf dst 0 true) s

/-- JWAIT.P (R254): fixed results; a poll that finds the job complete joins its view. -/
def execJwaitP (h : Hdr) (c : Fin 32) (j : GI) (gt : Option (Fin 16)) (s : State) : Outcome State Fault Refusal :=
  issueC (.jwaitP h c j gt) h s fun s =>
    let t := curT s
    let id := (giVal s j).toNat % 65536
    let put := fun (b : Bool) (x : Word) (s : State) =>
      let s1 := setC s c b
      retire h (match gt with
        | some r => setG s1 r x
        | none => s1)
    match (if id = 0 then none else jobRec s t.ctx t.lcore id) with
    | some r =>
      if isPending r.status then put false r.status s
      else put true r.status (putT s { t with view := t.view.join r.view })
    | none => put true 0 s

/-! ### QFENCE (R153, R177) -/

/-- The queues a mask names for a core. -/
def fenceQueues (core mask : Nat) : List Nat :=
  (if isCompute core then ((List.range 5).filter fun i => bitN mask i).map (queueKey (core / 8)) else []) ++
    (if bitN mask 5 then [qclKey] else [])

/-- QFENCE (R153): one marker in every queue named; with nothing ahead of it anywhere it is passed at once. A marker takes
one of a queue's 64 entries, and a full queue holds the thread (log 47). -/
def execQfence (h : Hdr) (mask : GI) (s : State) : Outcome State Fault Refusal :=
  issue h s fun s => withOrder s false fun s =>
    let qs := fenceQueues (coreOf s.cur) (giVal s mask).toNat
    if qs.any fun q => decide (64 ≤ (queueAt s q).ents.length) then retry s
    else if qs.all fun q => (queueAt s q).ents.isEmpty then
      retire h (passMark s qs)
    else
      let (id, s1) := newId s
      let s2 := qs.foldl (fun s q => let x := queueAt s q; setQueue s q { x with ents := x.ents ++ [.mark id qs] }) s1
      retire h (pumpQueues s2)

end Sys2Proof.Machine
end

