-- ==== Sys2Proof/Machine/Track.lean ====
section
/-!
DEFINITION. The track store (R263 to R287): head moves and settles, leases, accesses in issue order, the nine track
instructions, and the device steps LEASE_GRANT, SEEK_COMPLETE, HEAD_SETTLE and CURSOR_STEP.
-/

namespace Sys2Proof.Machine

open Host

/-! ### Heads (R266 to R268, R273, R274) -/

/-- Clocks of a move over n positions to its completion (R268). -/
def seekCost (n : Nat) : Nat := ceilDiv n 4 + 2

/-- Where a moving head stands (R268). -/
def movePos (m : Move) (clock : Nat) : Nat :=
  let k := min (4 * (clock - m.start)) (absDiff m.frm m.dest)
  if m.frm ≤ m.dest then m.frm + k else m.frm - k

/-- The head's position. -/
def headPos (t : Track) (clock : Nat) : Nat :=
  match t.move with
  | some m => movePos m clock
  | none => t.head

/-- The clock a move completes. -/
def moveEnd (m : Move) : Nat := m.start + seekCost (absDiff m.frm m.dest)

/-- Whether position is lost at a clock (R274): until the home rewind ends. -/
def lostAt (t : Track) (clock : Nat) : Bool := t.lost && (match t.move with
  | some m => decide (clock < m.start)
  | none => true)

/-- Start a move of a head toward a position in this clock (R268); a track with position lost rewinds home first
(R274). -/
def startMove (s : State) (k dest : Nat) : State :=
  let t := trackAt s k
  let rewind := t.lost && t.move.isNone
  let m : Move := match t.move with
    | some m => if s.clock < m.start then { m with dest := dest } else { frm := headPos t s.clock, start := s.clock, dest := dest }
    | none => if rewind then { frm := 0, start := s.clock + 1026, dest := dest } else { frm := t.head, start := s.clock, dest := dest }
  let s1 := setTrack s k { t with move := some m, lost := lostAt t s.clock || rewind, slip := if rewind then 0 else t.slip,
                                  slipBad := if rewind then false else t.slipBad }
  laterAt s1 (moveEnd m) (.seekComplete k)

/-- Abandon a shift under way (R271, step 2): the head stays where it stopped. -/
def haltMove (s : State) (k : Nat) : State :=
  let t := trackAt s k
  setTrack s k { t with head := headPos t s.clock, move := none, lost := lostAt t s.clock }

/-- Carry a track, contents and head state, to another place (R39, R272): a shift under way and a settle to come go on
there. -/
def carryTrack (s : State) (a b : Nat) : State :=
  let t := trackAt s a
  let s1 := setTrack (setTrack s b t) a {}
  let s2 := match t.move with
    | some m => laterAt s1 (moveEnd m) (.seekComplete b)
    | none => s1
  if s.clock ≤ t.settled then laterAt s2 t.settled (.headSettle b) else s2

/-- Whether a track's head still moves or has not settled over the cursor. -/
def unsettled (t : Track) : Bool := t.move.isSome || t.lost

/-! ### The saved record (R285) -/

/-- The virtual number a context gives a physical track, or 255. -/
def virtOf (s : State) (c k : Nat) : Nat :=
  match (ccsOf s c).find? fun e => e.2.phys == k / 64 with
  | some e => (e.2.tmap.findIdx? (· == k % 64)).getD 255
  | none => 255

/-- A head state in the layout of R285, bits [47:32] given. -/
def headState (t : Track) (vt mid : Nat) (gang : Bool) : Word :=
  w64 (t.lgen.toNat * 2 ^ 48 + mid * 2 ^ 32 + vt * 2 ^ 24 + t.herr * 2 ^ 16 + (if gang then 2 ^ 15 else 0) +
    (if t.back then 2 ^ 14 else 0) + t.cursor)

/-! ### Performing accesses (R267, R281, R282, R284) -/

/-- The word at a physical track address; one never written is undefined (log 16). -/
def trackWord (t : Track) (a : Nat) : W32 :=
  match mget t.words a with
  | some w => w
  | none => (Config.freeWord t.fill a).setWidth 32

/-- The word address under port p at position h, with the head's physical misalignment (log 16). -/
def portAddr (t : Track) (h p : Nat) : Nat := ((4 * ((h : Int) + t.slip) + p) % 16384).toNat

/-- Step a cursor by one word (R267). -/
def stepCursor (t : Track) : Nat := if t.back then (t.cursor + 16383) % 16384 else (t.cursor + 1) % 16384

/-- A settle check's verdict (R273): nothing, one correction with the misalignment after it, or TRKERR; of the re-read after a
correction, nothing or TRKERR. -/
inductive Verdict where
  | fine
  | corrected (slip : Int)
  | lost
  deriving DecidableEq, Repr

/-- The settle check of R273. -/
def verdict (t : Track) : Verdict :=
  if t.slipBad || (t.reread && t.slip % 4 != 0) then .lost
  else match (t.slip % 4).toNat with
    | 0 => .fine
    | 1 => .corrected (t.slip - 1)
    | 3 => .corrected (t.slip + 1)
    | _ => .lost

/-- What the request port held behind an access goes on once that is complete (R162, effect 3). -/
def wakeFenced (s : State) (a : Acc) : State :=
  let s1 := s.tracks.foldl (fun s e => match e.2.acc with
    | b :: _ => if b.tk = a.tk ∧ a.fence < b.fence then later s 0 (.cursorStep e.1) else s
    | [] => s) s
  s.queues.foldl (fun s e => match e.2.ents with
    | .job j :: _ => if j.tk = a.tk ∧ a.fence < j.fence then later s 0 (.jobStart e.1) else s
    | _ => s) s1

/-- Remove an access from every track it names. -/
def dropAcc (s : State) (a : Acc) : State :=
  wakeFenced (a.gang.foldl (fun s k => let t := trackAt s k; setTrack s k { t with acc := t.acc.filter (· != a) }) s) a

/-- The result an access brings, if it brings one. -/
def accRid (a : Acc) : Option Nat :=
  match a.op with
  | .rds rid _ _ => some rid
  | .vrds rid _ => some rid
  | .holdT rid _ => some rid
  | _ => none

/-- Whether the thread that issued an access still stands in its slot. -/
def accAlive (s : State) (a : Acc) : Bool := (mget s.threads a.tk).isSome && (slotAt s a.tk).gen == a.gen

/-- Whether an access waits for the settle of its tracks' heads. -/
def needsHead (a : Acc) : Bool :=
  match a.op with
  | .rds _ _ _ => true
  | .wrs _ => true
  | .vrds _ _ => true
  | .vwrs _ _ => true
  | .seek _ _ => false
  | .hrel => false
  | .hold _ _ => false
  | .holdT _ _ => false

/-- A thread that is to trap lets go of what holds it at its instruction: a lease, a port, or a chain's turn (R279). A GET's
result is still awaited (R125). -/
def letGo (s : State) (tk : Nat) : State :=
  let t := getT s tk
  if t.block = .lease ∨ t.block = .port ∨ (t.block = .inChain ∧ t.res = []) then unhold s tk else s

/-- TRKERR (R274): position is lost; the access that waited on the settle has no effect and its thread traps, once a frame that
issued it runs again. What waits on no settle meets nothing. What stood behind the access in a queue goes on. -/
def trkErr (s : State) (k : Nat) : State :=
  let t := trackAt s k
  let s1 := setTrack s k { t with lost := true, move := none, reread := false }
  match t.acc with
  | a :: _ =>
    if !needsHead a then s1
    else
    let s2 := a.gang.foldl (fun s k => later s 0 (.cursorStep k)) (dropAcc s1 a)
    let tr : TrapReq := { cause := cTRKERR, tval := headState t (virtOf s a.ctx k) 0 t.gang, epc := a.pc }
    let without := fun (rid : Nat) (t : Thread) => { t with res := t.res.filter fun r => r.id != rid }
    match accRid a with
    | some rid =>
      (match holderOf s2 a.tk rid with
        | some n => let s3 := modT s2 n (without rid); takeTrap (letGo s3 n) n tr
        | none => modFrame s2 rid fun t => { without rid t with trapP := some tr })
    | none => if accAlive s2 a then takeTrap (letGo s2 a.tk) a.tk tr else s2
  | [] => s1

/-- The head comes over a position at a settle (R273): from this clock, or 3 clocks later after a correction, whose
HERR increment the device reports to the Reeve, and whose re-read may still find an error. -/
def settleAt (s : State) (k : Nat) : State :=
  let t := trackAt s k
  match verdict t with
  | .fine => setTrack s k { t with settled := s.clock, reread := false }
  | .corrected sl =>
    let s1 := setTrack { s with reeve := { s.reeve with shifts := s.reeve.shifts + 1 } } k
      { t with settled := s.clock + 3, slip := if t.misfix then t.slip else sl, misfix := false, reread := t.misfix,
               herr := min 255 (t.herr + 1) }
    if t.misfix then later s1 3 (.headSettle k) else s1
  | .lost => trkErr s k

/-- Move a cursor after an access (R267, R287): no new position, one position pipelined, or a seek across the end. -/
def moveCursor (s : State) (k cursor : Nat) : State :=
  let t := trackAt s k
  let s1 := setTrack s k { t with cursor := cursor, settled := s.clock }
  if cursor / 4 = t.head then s1
  else if absDiff (cursor / 4) t.head = 1 then settleAt (setTrack s1 k { trackAt s1 k with head := cursor / 4 }) k
  else startMove s1 k (cursor / 4)

/-- The gang step (R267): every member's cursor goes to the next position in the leader's direction. -/
def gangStep (s : State) (ks : List Nat) (h : Nat) (back : Bool) : State :=
  let h' := if back then (h + 4095) % 4096 else (h + 1) % 4096
  ks.foldl (fun s k => moveCursor s k (4 * h')) s

/-- Whether what an access brings is still awaited: its result, or, where it brings none, its thread. -/
def accAwaited (s : State) (a : Acc) : Bool :=
  match accRid a with
  | some rid => awaited s a.tk rid
  | none => accAlive s a

/-- Deliver a track read (R268): the value returns 4 clocks after the settle or the issue, which is 3 after this
clock; a poisoned word is consumed in its stead (R275). -/
def deliver (s : State) (a : Acc) (rid : Nat) (v : RegW) (bad : Bool) : State :=
  if !accAwaited s a then s
  else if bad then later s 3 (.uncorrectableConsumed ((holderOf s a.tk rid).getD a.tk) 0 0)
  else later (modHolder s a.tk rid fun t => modRes t rid fun r => { r with vals := [v] }) 3 (.resultReturn a.tk rid)

/-- The register value of RDS (R281). -/
def rdsVal (w : W32) (sx : Bool) : Word := if sx then w.signExtend 64 else w.setWidth 64

/-- The 64 words under a gang, member by member and port by port (R282). -/
def gangWords (s : State) (ks : List Nat) (h : Nat) : List W32 :=
  ks.flatMap fun k => (List.range 4).map fun p => trackWord (trackAt s k) (portAddr (trackAt s k) h p)

/-- Whether a gang read meets a poisoned word. -/
def gangBad (s : State) (ks : List Nat) (h : Nat) : Bool :=
  ks.any fun k => (List.range 4).any fun p => (trackAt s k).bad.contains (portAddr (trackAt s k) h p)

/-- Write a word of a track, with new check bits (R275). -/
def putWord (t : Track) (a : Nat) (x : W32) : Track := { t with words := mset t.words a x, bad := t.bad.filter (· != a) }

/-- Write the active lanes of a vector under a gang (R282): lane 4m + p is port p of member m. -/
def gangPut (s : State) (ks : List Nat) (h : Nat) (src : Vec) (pg : VPred) : State :=
  (ks.zip (List.range ks.length)).foldl (fun s e =>
    (List.range 4).foldl (fun s p =>
      let j := 4 * e.2 + p
      if pg.getLsbD (4 * j) then
        let t := trackAt s e.1
        setTrack s e.1 (putWord t (portAddr t h p) (BitVec.ofNat 32 (src.toNat / 2 ^ (32 * j))))
      else s) s) s

/-- Release a lease and cancel one owed (R279); the next waiting request may be granted in the next clock (R286). -/
def releaseTrack (s : State) (c k : Nat) : State :=
  let t := trackAt s k
  let s1 := if t.owner = some c then later (setTrack s k { t with owner := none, gang := false }) 1 (.leaseGrant k) else s
  (ccsOf s1 c).foldl (fun s e =>
    if e.2.phys = k / 64 then
      modCC s c e.1 fun cc => { cc with owed := cc.owed.filter fun o => cc.tmap.getD o.1 64 != k % 64 }
    else s) s1

/-- The leader's position of an access. -/
def accHead (s : State) (a : Acc) : Nat :=
  match a.gang with
  | k :: _ => (trackAt s k).cursor / 4
  | [] => 0

/-- Whether an access heads the queue of every track it names and no FENCE holds it (R162, R284). -/
def accFirst (s : State) (a : Acc) : Bool :=
  (a.gang.all fun k => (trackAt s k).acc.head? == some a) && !fenced s a.tk a.gen a.fence

/-- Bring every head an access needs toward its position (R268, R274, R282). -/
def bringHeads (s : State) (a : Acc) : State :=
  let h := accHead s a
  a.gang.foldl (fun s k =>
    let t := trackAt s k
    if t.move.isNone ∧ (t.lost ∨ t.head ≠ h) then startMove s k h
    else match t.move with
      | some m => if m.dest = h then s else startMove s k h
      | none => s) s

/-- The clock from which an access may be performed: after its issue and after every settle (R268). -/
def accDue (s : State) (a : Acc) : Nat := a.gang.foldl (fun d k => max d ((trackAt s k).settled + 1)) (a.clock + 1)

/-- Whether a context owns every track of a list. -/
def ownsAll (s : State) (c : Nat) (ks : List Nat) : Bool := ks.all fun k => (trackAt s k).owner == some c

/-- Whether a track's retirement is under way: no request of it is granted before it has moved (R39). -/
def trackRetiring (s : State) (k : Nat) : Bool := s.retires.any fun x => x.cls == clsTrack && x.res == k

/-- An access of the executing thread, issued at a clock. -/
def accOf (s : State) (ks : List Nat) (op : TrkOp) (clock : Nat) (next : List (List Nat × TrkOp)) : Acc :=
  let t := curT s
  { tk := s.cur, gen := (slotAt s s.cur).gen, ctx := t.ctx, pc := t.pc, gang := ks, op := op, clock := clock, fence := t.fence,
    next := next }

/-- Name the result that an operation of the executing thread brings, if it brings one. -/
def askResult (op : TrkOp) (s : State) : TrkOp × State :=
  match op with
  | .rds _ r sx => let (rid, s1) := resultWait [.g r] .none s; (.rds rid r sx, s1)
  | .vrds _ r => let (rid, s1) := resultWait [.v r] .none s; (.vrds rid r, s1)
  | .holdT _ c => let (rid, s1) := resultWait [.c c] .none s; (.holdT rid c, s1)
  | .wrs x => (.wrs x, s)
  | .vwrs x p => (.vwrs x p, s)
  | .seek t d => (.seek t d, s)
  | .hrel => (.hrel, s)
  | .hold h n => (.hold h n, s)

/-- A thread held for leases goes on: an instruction whose context owns every track it named completes in this clock (R286), and
its accesses enter their tracks' queues as they were issued (R271, R284); any other runs again. The HRELs of its context that
followed it are performed after it (R279). -/
def endHold (s : State) (r : LeaseReq) : State :=
  let done :=
    if (getT s r.slot).block ≠ .lease then s
    else
      let s1 := modT s r.slot fun t => { t with block := .free }
      match r.hdr with
      | some h =>
        if ownsAll s r.ctx r.named then
          let s2 := r.next.foldl (fun s e => let (op, s1) := askResult e.2 s; enterAccs s1 [accOf s1 e.1 op r.clock []]) { s1 with cur := r.slot }
          { retire h s2 with cur := s.cur }
        else s1
      | none => s1
  enterAccs done r.rels

/-- Put a lease request in the queue of every track it names; it may be granted in the next clock (R270, R286). -/
def requestLease (s : State) (r : LeaseReq) : State :=
  let s1 := r.gang.foldl (fun s k => let t := trackAt s k; setTrack s k { t with wait := t.wait ++ [r] }) s
  later s1 1 (.leaseGrant (r.gang.headD 0))

/-- The request of a hold. -/
def holdReq (a : Acc) (hdr : Option Hdr) (named : List Nat) : LeaseReq :=
  { ctx := a.ctx, gang := a.gang, slot := a.tk, held := true, hdr := hdr, named := named, next := a.next, clock := a.clock }

/-- A hold is performed at its tracks (R279): leases that the context already owns are enough; else they are requested. -/
def performHold (s : State) (a : Acc) (hdr : Option Hdr) (named : List Nat) : State :=
  if ownsAll s a.ctx a.gang then endHold s (holdReq a hdr named) else requestLease s (holdReq a hdr named)

/-- The youngest request of a context that still holds a thread for one of an HREL's tracks. -/
def holdBefore (s : State) (a : Acc) : Option LeaseReq :=
  (a.gang.flatMap fun k => (trackAt s k).wait.filter fun r => r.ctx == a.ctx && r.held).getLast?

/-- HREL is performed at its tracks (R279): behind a HOLD.W of its context that still waits it follows that; else the leases are
released. -/
def performHrel (s : State) (a : Acc) : State :=
  match holdBefore s a with
  | some r => r.gang.foldl (fun s k =>
      let t := trackAt s k
      setTrack s k { t with wait := t.wait.map fun x => if x = r then { x with rels := x.rels ++ [a] } else x }) s
  | none => a.gang.foldl (fun s k => releaseTrack s a.ctx k) s

/-- HOLD.T is performed at its tracks (R279): its one request is granted or takes nothing, and the predicate returns 4
clocks later (R408). -/
def performHoldT (s : State) (a : Acc) (rid : Nat) (c : Fin 32) : State :=
  let own := ownsAll s a.ctx a.gang
  let free := a.gang.all fun k => (trackAt s k).owner.isNone && (trackAt s k).wait.isEmpty && !trackRetiring s k
  let s1 := if !own && free then requestLease s { ctx := a.ctx, gang := a.gang, slot := a.tk } else s
  if accAwaited s1 a then
    later (modHolder s1 a.tk rid fun t => modRes t rid fun r => { r with vals := [.c c (own || free)] }) 4 (.resultReturn a.tk rid)
  else s1

/-- Perform the effect of an access and its step (R281, R282). -/
def performAcc (s : State) (a : Acc) : State :=
  let h := accHead s a
  let k := a.gang.headD 0
  let t := trackAt s k
  let adr := portAddr t h (t.cursor % 4)
  match a.op with
  | .rds rid r sx => moveCursor (deliver s a rid (.g r (rdsVal (trackWord t adr) sx)) (t.bad.contains adr)) k (stepCursor t)
  | .wrs x => moveCursor (setTrack s k (putWord t adr x)) k (stepCursor t)
  | .vrds rid r =>
    let x : Vec := BitVec.ofNat 2048 ((gangWords s a.gang h).foldr (fun w acc => w.toNat + 2 ^ 32 * acc) 0)
    gangStep (deliver s a rid (.v r x) (gangBad s a.gang h)) a.gang h t.back
  | .vwrs src pg => gangStep (gangPut s a.gang h src pg) a.gang h t.back
  | .seek target dir =>
    startMove (setTrack s k { t with cursor := target, back := dir.getD t.back }) k (target / 4)
  | .hrel => performHrel s a
  | .hold hdr named => performHold s a hdr named
  | .holdT rid c => performHoldT s a rid c

/-- Serve the front of a track's queue: seeks and releases at once (R284), an access once its heads have settled. -/
def serveTrack : Nat → State → Nat → State
  | 0, s, _ => s
  | fuel + 1, s, k =>
    match (trackAt s k).acc with
    | [] => s
    | a :: _ =>
      if !accFirst s a then s
      else if !needsHead a then a.gang.foldl (fun s k => serveTrack fuel s k) (performAcc (dropAcc s a) a)
      else
        let s1 := bringHeads s a
        if a.gang.any fun k => unsettled (trackAt s1 k) then s1
        else laterAt s1 (accDue s1 a) (.cursorStep k)

/-- CURSOR_STEP (R287): the front access of a track is performed and its cursor steps. -/
def execCursorStep (track : Nat) (s : State) : Outcome State Fault Refusal :=
  .next <|
    match (trackAt s track).acc with
    | [] => s
    | a :: _ =>
      if !accFirst s a then s
      else if !needsHead a then serveTrack 64 s track
      else if (a.gang.any fun k => unsettled (trackAt s k) || (trackAt s k).head != accHead s a) || decide (s.clock < accDue s a) then
        serveTrack 64 s track
      else a.gang.foldl (fun s k => serveTrack 64 s k) (performAcc (dropAcc s a) a)

/-- SEEK_COMPLETE (R268): the head stands at its target; the settle check follows 3 clocks later. -/
def execSeekComplete (track : Nat) (s : State) : Outcome State Fault Refusal :=
  .next <|
    let t := trackAt s track
    match t.move with
    | some m =>
      if s.clock < moveEnd m then s
      else later (setTrack s track { t with head := m.dest, move := none, lost := false, settled := s.clock + 3 }) 3 (.headSettle track)
    | none => s

/-- HEAD_SETTLE (R273): the check at the end of a seek; waiting accesses follow. -/
def execHeadSettle (track : Nat) (s : State) : Outcome State Fault Refusal :=
  .next <|
    let t := trackAt s track
    if t.move.isSome ∨ t.lost ∨ t.settled ≠ s.clock then s else serveTrack 64 (settleAt s track) track

/-! ### Leases (R269 to R271, R286) -/

/-- Whether a lease request may be granted (R270): it is first on every track it names, and each is free. -/
def grantable (s : State) (r : LeaseReq) : Bool :=
  r.gang.all fun k => (trackAt s k).wait.head? == some r && (trackAt s k).owner.isNone && !trackRetiring s k

/-- The owed record of a physical track (R271). -/
def owedOf (s : State) (c k : Nat) : Option (Nat × Nat × Bool × Bool × BitVec 16) :=
  (ccsOf s c).findSome? fun e =>
    if e.2.phys = k / 64 then e.2.owed.find? fun o => e.2.tmap.getD o.1 64 == k % 64 else none

/-- Grant a track's lease (R270): its generation rises; an owed lease seeks to its saved cursor (R271, R286). -/
def grantTrack (s : State) (r : LeaseReq) (k : Nat) : State :=
  let t := trackAt s k
  let s1 := setTrack s k { t with owner := some r.ctx, gang := decide (r.gang.length = 16), lgen := t.lgen + 1,
                                  wait := t.wait.drop 1 }
  match owedOf s1 r.ctx k with
  | none => s1
  | some o =>
    let s2 := (ccsOf s1 r.ctx).foldl (fun s e =>
      if e.2.phys = k / 64 then
        modCC s r.ctx e.1 fun cc => { cc with owed := cc.owed.filter fun o => cc.tmap.getD o.1 64 != k % 64 }
      else s) s1
    startMove (setTrack s2 k { trackAt s2 k with cursor := o.2.1, back := o.2.2.1 }) k (o.2.1 / 4)

/-- Requests of a context that wait for tracks which it owns by now: they are met (R279), and leave the queues. -/
def meetOthers (s : State) (c : Nat) (ks : List Nat) : State :=
  let met := fun (r : LeaseReq) => r.ctx == c && ownsAll s c r.gang
  let rs := ks.foldl (fun a k => (trackAt s k).wait.foldl (fun a r => if met r then addNew r a else a) a) []
  rs.foldl (fun s r => if r.held then endHold s r else s)
    (rs.foldl (fun s r => r.gang.foldl (fun s k => let t := trackAt s k; setTrack s k { t with wait := t.wait.filter (· != r) }) s) s)

/-- LEASE_GRANT (R270, R286): the oldest request of a track, if every track it names is free; a HOLD.W of it completes, and
so does every other request of its context that this meets. -/
def execLeaseGrant (track : Nat) (s : State) : Outcome State Fault Refusal :=
  .next <|
    match (trackAt s track).wait with
    | [] => s
    | r :: _ =>
      if grantable s r then
        let s1 := r.gang.foldl (fun s k => grantTrack s r k) s
        meetOthers (if r.held then endHold s1 r else s1) r.ctx r.gang
      else if r.gang.any (trackRetiring s) then later s 1 (.leaseGrant track)
      else s

/-- Enter an access of the executing thread into its tracks' queues (R284), with what follows it once it holds a lease. -/
def pushAccThen (s : State) (ks : List Nat) (op : TrkOp) (next : List (List Nat × TrkOp)) : State :=
  let a := accOf s ks op s.clock next
  let s1 := ks.foldl (fun s k => let t := trackAt s k; setTrack s k { t with acc := t.acc ++ [a] }) s
  serveTrack 64 s1 (ks.headD 0)

/-- Enter an access of the executing thread into its tracks' queues (R284). -/
def pushAcc (s : State) (ks : List Nat) (op : TrkOp) : State := pushAccThen s ks op []

/-- Hold the thread at its instruction until its context owns the leases of tracks, which are requested once every earlier
track instruction on them has been performed (R279, R284); the instruction then completes, its accesses with it. -/
def holdForLease (s : State) (ks : List Nat) (hdr : Option Hdr) (named : List Nat) (next : List (List Nat × TrkOp)) : State :=
  let s1 := closeCur s
  pushAccThen (putT s1 { curT s1 with block := .lease }) ks (.hold hdr named) next

/-- Complete a track instruction whose leases are held: its accesses enter the queues, with the results they bring. -/
def enterOps (h : Hdr) (ops : List (List Nat × TrkOp)) (s : State) : State :=
  retire h (ops.foldl (fun s e => let (op, s1) := askResult e.2 s; pushAcc s1 e.1 op) (closeCur s))

/-- What a context's queued instructions leave of its claim to a track (R269, R284): the lease as it stands; none, behind
an HREL of its own; open while a HOLD.T of its own waits behind one. -/
def leaseAfter (s : State) (c k : Nat) : Option Bool :=
  let t := trackAt s k
  t.acc.foldl (fun x a => if a.ctx ≠ c then x else match a.op with
    | .hrel => some false
    | .holdT _ _ => if x = some true then x else none
    | _ => x) (some (t.owner == some c))

/-- Whether a lease is owed to a context on a track (R271), and no queued HREL of its own cancels it. -/
def owedAfter (s : State) (c k : Nat) : Bool :=
  (owedOf s c k).isSome && !((trackAt s k).acc.any fun a => a.ctx == c && a.op == .hrel)

/-! ### Naming (R264, R276, R278) -/

/-- The virtual tracks an operand names. -/
def vtracks : KK → List Nat
  | .k r => [r.val]
  | .kg r => (List.range 16).map fun i => 16 * r.val + i

/-- The slot value of a track operand (R276). -/
def kkVal : KK → Nat
  | .k r => r.val
  | .kg r => 64 + r.val

/-- TRKOWN (R276). -/
def trkOwn (s : State) (reason : Nat) (k : KK) : State := trapHere s cTRKOWN (w64 (reason * 256 + kkVal k))

/-- The core context of the executing thread. -/
def curCC (s : State) : CoreCtx := (getCC s (curT s).ctx (curT s).lcore).getD { phys := coreOf s.cur }

/-- Run a track instruction on its core (R278), on the physical tracks its operand names. -/
def withTracks (s : State) (l : Option (Fin 16)) (k : KK) (eff : List Nat → State → State) : State :=
  let go := fun (s : State) =>
    let cc := curCC s
    let vs := vtracks k
    if vs.any fun v => decide (cc.tmap.length ≤ v) then trkOwn s 1 k
    else eff (vs.map fun v => 64 * cc.phys + cc.tmap.getD v 0) s
  match l with
  | none => go s
  | some r =>
    let L := gVal s r
    match namedCore s L with
    | none => trapHere s cPROT L
    | some cc => if L.toNat = (curT s).lcore then go s else migrateHere s L.toNat cc.phys

/-- The tracks an owed lease is requested with: itself, or its whole gang (R271). -/
def owedGang (s : State) (ks : List Nat) : Option (List Nat) :=
  let c := (curT s).ctx
  let cc := curCC s
  (ks.findSome? fun k => if owedAfter s c k then owedOf s c k else none).map fun o =>
    if o.2.2.2.1 then (List.range 16).map fun i => 64 * cc.phys + cc.tmap.getD (o.1 / 16 * 16 + i) 0
    else [64 * cc.phys + cc.tmap.getD o.1 0]

/-- The tracks a HOLD requests (R279): those it names; of a lease owed as a gang member, the whole gang (R271). -/
def holdSet (s : State) (ks : List Nat) : List Nat :=
  match ks with
  | [_] => (owedGang s ks).getD ks
  | _ => ks

/-- Run a track instruction on tracks that its context leases or is owed (R269, R276): else TRKOWN. It waits where a HOLD.T
of its context that is still to be performed decides. -/
def withClaim (s : State) (l : Option (Fin 16)) (k : KK) (eff : List Nat → State → State) : State :=
  withTracks s l k fun ks s =>
    let c := (curT s).ctx
    if ks.any fun k => leaseAfter s c k == some false && !owedAfter s c k then trkOwn s 2 k
    else if ks.any fun k => leaseAfter s c k == none && !owedAfter s c k then retry s
    else eff ks s

/-- A track instruction's accesses under its leases: an owed one is first acquired (R271). -/
def underLeases (h : Hdr) (ops : List Nat → List (List Nat × TrkOp)) (ks : List Nat) (s : State) : State :=
  match owedGang s ks with
  | some g => holdForLease s g (some h) g (ops ks)
  | none => enterOps h (ops ks) s

/-- Run a track instruction's accesses under its leases (R269, R271). -/
def withLeases (s : State) (h : Hdr) (l : Option (Fin 16)) (k : KK) (ops : List Nat → List (List Nat × TrkOp)) : State :=
  withClaim s l k (underLeases h ops)

/-! ### The instructions (R279 to R283) -/

/-- HOLD.W (R279): completes once the context owns every named lease, at once where it does already. -/
def execHoldW (h : Hdr) (k : KK) (l : Option (Fin 16)) (s : State) : Outcome State Fault Refusal :=
  issueC (.holdW h k l) h s fun s => withTracks s l k fun ks s =>
    if (ks.all fun k => leaseAfter s (curT s).ctx k == some true) && !fencedNow s then retire h (closeCur s)
    else holdForLease s (holdSet s ks) (some h) ks []

/-- HOLD.T (R279): one request, which is granted or takes nothing; the predicate is variable (R408). It is performed in the
order of its tracks (R284). -/
def execHoldT (h : Hdr) (c : Fin 32) (k : KK) (l : Option (Fin 16)) (s : State) : Outcome State Fault Refusal :=
  issueC (.holdT h c k l) h s fun s => withRoom s fun s => withTracks s l k fun ks s =>
    let (rid, s1) := resultWait [.c c] .none (closeCur s)
    retire h (pushAcc s1 (holdSet s ks) (.holdT rid c))

/-- HREL (R279): after every earlier track instruction on the named tracks, their leases are released. -/
def execHrel (h : Hdr) (k : KK) (l : Option (Fin 16)) (s : State) : Outcome State Fault Refusal :=
  issueC (.hrel h k l) h s fun s => withTracks s l k fun ks s =>
    retire h (pushAcc (closeCur s) ks .hrel)

/-- Set every named track's target and direction (R280). -/
def seekOps (target : Nat) (dir : Option Bool) (ks : List Nat) : List (List Nat × TrkOp) := ks.map fun k => ([k], .seek target dir)

/-- SEEK (R280). -/
def execSeek (h : Hdr) (dir : SeekK) (k : KK) (a l : Option (Fin 16)) (disp : BitVec 24) (s : State) :
    Outcome State Fault Refusal :=
  issueC (.seek h dir k a l disp) h s fun s => withClaim s l k fun ks s =>
    let base := match a with
      | some r => gVal s r
      | none => 0
    let T := base + disp.signExtend 64
    if 16383 < T.toNat then trapHere s cPROT T
    else underLeases h (seekOps T.toNat (match dir with
      | .keep => none
      | .fwd => some false
      | .rev => some true)) ks s

/-- RDS (R281). -/
def execRds (h : Hdr) (sx : Bool) (d : Fin 16) (k : Fin 64) (l : Option (Fin 16)) (s : State) :
    Outcome State Fault Refusal :=
  issueC (.rds h sx d k l) h s fun s => withRoom s fun s => withLeases s h l (.k k) fun ks => [(ks, .rds 0 d sx)]

/-- WRS (R281). -/
def execWrs (h : Hdr) (k : Fin 64) (a : GI) (l : Option (Fin 16)) (s : State) : Outcome State Fault Refusal :=
  issueC (.wrs h k a l) h s fun s => withLeases s h l (.k k) fun ks => [(ks, .wrs ((giVal s a).setWidth 32))]

/-- VRDS (R282). -/
def execVrds (h : Hdr) (d : Fin 32) (kg : Fin 4) (l : Option (Fin 16)) (s : State) : Outcome State Fault Refusal :=
  vecIssue (.vrds h d kg l) h [d] noShadow s fun s => withRoom s fun s => withLeases s h l (.kg kg) fun ks =>
    [(ks, .vrds 0 d)]

/-- VWRS (R282). -/
def execVwrs (h : Hdr) (kg : Fin 4) (src : Fin 32) (pg : Fin 8) (s : State) : Outcome State Fault Refusal :=
  vecIssue (.vwrs h kg src pg) h [src] noShadow s fun s => withLeases s h none (.kg kg) fun ks =>
    [(ks, .vwrs (vVal s src) (pVal s pg))]

/-- RWND (R280). -/
def execRwnd (h : Hdr) (e : Bool) (k : KK) (l : Option (Fin 16)) (s : State) : Outcome State Fault Refusal :=
  issueC (.rwnd h e k l) h s fun s => withLeases s h l k (seekOps (if e then 16383 else 0) (some e))

/-- A track's cursor, direction and shifting bit once given accesses of its queue are performed (R284): a seek sets them, a
step moves the cursor, and one across the track's end is a seek (R267). -/
def queuedStep : Nat → State → Nat → List Acc → Nat × Bool × Bool
  | 0, s, k, _ => ((trackAt s k).cursor, (trackAt s k).back, (trackAt s k).move.isSome)
  | fuel + 1, s, k, l =>
    l.foldl (fun x a =>
      let go := fun (cursor : Nat) => (cursor, x.2.1, decide (1 < absDiff (cursor / 4) (x.1 / 4)))
      let gang := fun (_ : Unit) =>
        let lead := a.gang.headD k
        let y := if lead = k then x else queuedStep fuel s lead ((trackAt s lead).acc.takeWhile (· != a))
        go (4 * (if y.2.1 then (y.1 / 4 + 4095) % 4096 else (y.1 / 4 + 1) % 4096))
      match a.op with
      | .rds _ _ _ => go (stepCursor { cursor := x.1, back := x.2.1 })
      | .wrs _ => go (stepCursor { cursor := x.1, back := x.2.1 })
      | .vrds _ _ => gang ()
      | .vwrs _ _ => gang ()
      | .seek target dir => (target, dir.getD x.2.1, true)
      | .hrel => x
      | .hold _ _ => x
      | .holdT _ _ => x) ((trackAt s k).cursor, (trackAt s k).back, (trackAt s k).move.isSome)

/-- The head state that HPOS gives (R283), a fixed result that waits for nothing: it counts every earlier instruction on
the track as performed (R284, log 25). -/
def hposWord (s : State) (c k vt : Nat) : Word :=
  let t := trackAt s k
  let (cursor, back, moving) := queuedStep 64 s k t.acc
  let held := t.owner == some c && !(t.acc.any fun a => a.ctx == c && a.op == .hrel)
  headState { t with cursor := cursor, back := back } vt
    ((if lostAt t s.clock && !(t.acc.any needsHead) then 8 else 0) + (if owedAfter s c k then 4 else 0) + (if held then 2 else 0) +
      (if moving then 1 else 0)) (held && t.gang)

/-- HPOS (R283): a fixed result that needs no lease; it closes the region (log 25). -/
def execHpos (h : Hdr) (d : Fin 16) (k : Fin 64) (l : Option (Fin 16)) (s : State) : Outcome State Fault Refusal :=
  issueC (.hpos h d k l) h s fun s => withTracks s l (.k k) fun ks s =>
    resultG h d (hposWord s (curT s).ctx (ks.headD 0) k.val) (closeCur s)

end Sys2Proof.Machine
end

