-- ==== Sys2Proof/Machine/Complete.lean ====
section
/-!
DEFINITION. Completion words (R386, R410): the device's write of a status, its faults, and the task for a write that
cannot be made.
-/

namespace Sys2Proof.Machine

/-- What a device access to a word under a translation root meets. -/
inductive WordAcc where
  | ok (loc : Nat)
  | fault (cause reason : Nat)
  | bad
  deriving DecidableEq, Repr

/-- The access of the device to a byte of the translated window under a root (R52, R410). -/
def wordAccess (s : State) (c : Nat) (troot : Word) (va : Nat) (write : Bool) : WordAcc :=
  if windowOf va ≠ .translated ∨ troot = 0 then .bad
  else match walkRoot s troot va false with
    | .ok pa w _ cow =>
      if write && !w && !cow then .bad
      else if write && cow then .fault 0x31 0
      else if !paValid s 0 pa then .bad
      else if (lostTarget s c 0x804 (canonPa s pa)).isSome then .bad
      else .ok (canonPa s pa)
    | .fault r => .fault 0x30 r
    | .poison _ => .fault 0x33 0
    | .second => .fault 0x30 2

/-- Write a status into the completion word at a location, as a release that covers a view (R58, R386): its high byte
alone changes. -/
def writeStatus (s : State) (loc status : Nat) (v : View) : State :=
  let s1 := { s with
    rels := mset s.rels loc ((mgetD s.rels loc {}).join v)
    vers := mset s.vers loc (mgetD s.vers loc 0 + 1) }
  (append s1 [(loc + 7, BitVec.ofNat 8 status)] none).2

/-- The status of the completion word at a location. -/
def statusAt (s : State) (loc : Nat) : Nat := (Memory.read s.mem (loc + 7)).toNat

/-- Whether a fault of a page of a context is still with a service core (R304, R306). -/
def pageAwaits (s : State) (c page : Nat) : Bool :=
  (s.faults.any fun f => f.ctx == c && f.page == page) || s.fetches.any fun f => f.ctx == c && f.page == page

/-- Make a completion-word write (R410): done, or not yet: its page is handed to a task, and the write is made once the task has
ended. A write that is impossible hands a completion-lost task and counts as made. -/
def postStatus (s : State) (die c : Nat) (troot : Word) (va status : Nat) (v : View) : State × Bool :=
  if pageAwaits s c (pageOf va) then (s, false)
  else match wordAccess s c troot va true with
  | .ok loc => (writeStatus s loc status v, true)
  | .fault cause reason => (handFault s die c 0xFFF va cause (reason + 1024 + 256), false)
  | .bad => (pushTask s die { code := 0x25, g1 := w64 c, g2 := w64 va, g3 := w64 status }, true)

/-- The interrupt of a queue after a completion-word write (R380). -/
def completionIrq (s : State) (q : Nat) : State :=
  if (mgetD s.qblks q {}).irq then { s with msix := s.msix ++ [q % 2048] } else s

/-- Write a context's completion word (R58, R366, R38), with its queue's interrupt. -/
def postCompletion (s : State) (c status : Nat) (v : View) : State × Bool :=
  let x := ctxD s c
  let (s1, ok) := postStatus s x.die c x.troot x.pkt.cmpl.toNat status v
  (if ok then completionIrq s1 x.queue else s1, ok)

/-- Write a chain's completion word (R329, R366), with its queue's interrupt (R380). -/
def postChain (s : State) (c : Nat) (cmpl : Word) (status : Nat) (v : View) : State × Bool :=
  let x := ctxD s c
  let (s1, ok) := postStatus s x.die c x.troot cmpl.toNat status v
  (if ok then completionIrq s1 x.queue else s1, ok)

/-- Drain every buffered store that quit threads left to a launch (R58, R72). -/
def drainPending (s : State) (c : Nat) : State :=
  (ctxD s c).drain.foldl (fun s e =>
    e.2.foldl (fun s b => match b.id? with
      | some id => drainLeft s c e.1 id
      | none => s) s) s

end Sys2Proof.Machine
end

