-- ==== Sys2Proof/Machine/Chain.lean ====
section
/-!
DEFINITION. Stage chains (R313 to R336, R345, R346): descriptors, placement, queues and turns, GET and PUT in spread
and folded form, form changes, CHMODE, and the device steps ITEM_ARRIVE, PUT_ACCEPT, CHAIN_FOLD, CHAIN_SPREAD,
AUTO_SPREAD_REQUEST and CHAIN_COMPLETE.
-/

namespace Sys2Proof.Machine

open Host

/-! ### Chains and their replicas -/

/-- A chain of a context. -/
def chainOf (s : State) (c id : Nat) : Option Chain := (ctxD s c).chains.find? fun ch => ch.id == id

/-- Replace a chain of a context. -/
def setChain (s : State) (c : Nat) (ch : Chain) : State :=
  modCtx s c fun x => { x with chains := x.chains.map fun e => if e.id = ch.id then ch else e }

/-- A replica of a chain. -/
def repOf (ch : Chain) (stage rep : Nat) : Option Replica := ch.reps.find? fun r => r.stage == stage && r.rep == rep

/-- Change a replica. -/
def modRep (ch : Chain) (stage rep : Nat) (f : Replica → Replica) : Chain :=
  { ch with reps := ch.reps.map fun r => if r.stage = stage ∧ r.rep = rep then f r else r }

/-- Stage count. -/
def chStages (ch : Chain) : Nat := ch.counts.length

/-- Queue s of a chain. -/
def chQueue (ch : Chain) (s : Nat) : CQueue := ch.queues.getD s {}

/-- Replace queue s. -/
def setChQueue (ch : Chain) (s : Nat) (q : CQueue) : Chain := { ch with queues := ch.queues.set s q }

/-- A producer replica has ended (R319). -/
def hasEnded (ch : Chain) (stage rep : Nat) : Bool :=
  match repOf ch stage rep with
  | some r => r.done || r.quit
  | none => true

/-- A replica has quit. -/
def hasQuit (ch : Chain) (stage rep : Nat) : Bool :=
  match repOf ch stage rep with
  | some r => r.quit
  | none => true

/-- The next of n replicas after one, cyclically, that satisfies a test; itself when it alone does; else it stays. -/
def nextCyc (n at_ : Nat) (p : Nat → Bool) : Nat :=
  (((List.range n).map fun k => (at_ + 1 + k) % n).find? p).getD at_

/-- Producer pointer moves on after replica i (R318). -/
def advanceP (ch : Chain) (s i : Nat) : Nat := nextCyc (ch.counts.getD s 1) i fun j => !hasEnded ch s j

/-- Consumer pointer moves on after replica j (R318). -/
def advanceC (ch : Chain) (s j : Nat) : Nat := nextCyc (ch.counts.getD (s + 1) 1) j fun k => !hasQuit ch (s + 1) k

/-- Items held for one consumer replica, those in flight among them. -/
def heldFor (q : CQueue) (j : Nat) : Nat := (mgetD q.items j []).length + (mgetD q.flying j []).length

/-- Items held over all consumer replicas (R335). -/
def heldAll (q : CQueue) : Nat :=
  q.items.foldl (fun a e => a + e.2.length) 0 + q.flying.foldl (fun a e => a + e.2.length) 0

/-- Whether every producer replica of queue s has ended (R319). -/
def producersEnded (ch : Chain) (s : Nat) : Bool := (List.range (ch.counts.getD s 0)).all fun i => hasEnded ch s i

/-- Whether every consumer replica of queue s has quit (R318). -/
def consumersQuit (ch : Chain) (s : Nat) : Bool := (List.range (ch.counts.getD (s + 1) 0)).all fun j => hasQuit ch (s + 1) j

/-- Whether an item of producer i is accepted now (R318, R324): its turn, and room. -/
def canAccept (ch : Chain) (s i : Nat) : Bool :=
  let q := chQueue ch s
  q.p == i && (consumersQuit ch s ||
    (if ch.folded || ch.foldP then heldAll q == 0 else decide (heldFor q q.c < ch.depth)))

/-- The core a replica stands on. -/
def repCore (ch : Chain) (stage rep : Nat) : Nat :=
  match (repOf ch stage rep).bind (·.tk) with
  | some tk => coreOf tk
  | none => match (ch.reps.find? fun r => r.tk.isSome).bind (·.tk) with
    | some tk => coreOf tk
    | none => 0

/-! ### The fold condition (R324, R345) -/

/-- Whether a result is that of the GET at which its thread is parked. -/
def isGetWait (r : Res) : Bool := match r.wait with
  | .get _ _ _ => true
  | _ => false

/-- Whether every register value that a result brings is known, so that the fold's record takes it (R323, log 10). -/
def resKnown (r : Res) : Bool := r.wait == .none && r.dst.all fun d => r.vals.any fun w => w.reg == d

/-- Whether a result of an earlier instruction leaves its thread parked at a GET or a PUT (R324): it is not that of another
wait. -/
def Wait.folds : Wait → Bool
  | .none => true
  | .request _ => true
  | .tst _ => true
  | .get _ _ _ => true
  | _ => false

/-- Whether a stage thread is parked at a GET or PUT, and in no other wait, or has quit (R324, R345). -/
def repParked (s : State) (r : Replica) : Bool :=
  r.quit || ((r.at_ == .atGet || r.at_ == .atPut) && (match r.tk with
    | some tk => (getT s tk).res.all fun x => x.wait.folds
    | none => false))

/-- The condition of R324. -/
def foldReady (s : State) (ch : Chain) : Bool :=
  ch.foldP && !ch.folded && ch.queues.all (fun q => decide (heldAll q ≤ 1)) && ch.reps.all (repParked s)

/-- Schedule a fold whose condition holds. -/
def checkFold (s : State) (c id : Nat) : State :=
  match chainOf s c id with
  | some ch => if foldReady s ch && !(s.agenda.any fun e => e.2 == .chainFold c id) then later s 0 (.chainFold c id) else s
  | none => s

/-- Let the producer whose turn it is at queue s try again, if it is parked at its PUT. -/
def wakePut (s : State) (c id q : Nat) : State :=
  match chainOf s c id with
  | none => s
  | some ch =>
    match repOf ch q (chQueue ch q).p with
    | some r => (match r.tk with
      | some tk => if r.at_ = .atPut ∧ !ch.folded then later s 0 (.putAccept c id tk) else s
      | none => s)
    | none => s

/-! ### Accepting items (R318, R319, R333) -/

/-- The notice of an acceptance or of end of stream leaves for a consumer replica's core. -/
def sendNotice (s : State) (c : Nat) (ch : Chain) (from_ stage j : Nat) : State :=
  later s (coreLat s from_ (repCore ch stage j)) (.itemArrive c ch.id stage j)

/-- Items in flight enter their consumer's queue (R333): each one message latency after its acceptance, in the order of
the acceptances (R319). -/
def landDue (clock : Nat) : List Item → List Item → List Item × List Item
  | here, it :: r => if it.due ≤ clock then landDue clock (here ++ [it]) r else (here, it :: r)
  | here, [] => (here, [])

/-- The last producer of queue s has ended: end of stream travels to each consumer (R333). -/
def noteEnd (s : State) (c : Nat) (ch : Chain) (q from_ : Nat) : State :=
  if producersEnded ch q ∧ (chQueue ch q).eosAt.isNone then
    let ch1 := setChQueue ch q { chQueue ch q with eosAt := some s.clock }
    let s1 := setChain s c ch1
    if ch.folded then s1
    else (List.range (ch.counts.getD (q + 1) 0)).foldl (fun s j => sendNotice s c ch1 from_ (q + 1) j) s1
  else setChain s c ch

/-- An item of producer i is accepted at queue q (R318, R320). -/
def acceptItem (s : State) (c : Nat) (ch : Chain) (q i from_ : Nat) (it : Item) : State :=
  let x := chQueue ch q
  if consumersQuit ch q then setChain s c (setChQueue ch q { x with p := advanceP ch q i })
  else
    let j := x.c
    let y : CQueue := { x with p := advanceP ch q i, c := advanceC ch q j }
    if ch.folded then setChain s c (setChQueue ch q { y with items := mset y.items j (mgetD y.items j [] ++ [it]) })
    else
      let due := s.clock + coreLat s from_ (repCore ch (q + 1) j)
      let ch1 := setChQueue ch q { y with flying := mset y.flying j (mgetD y.flying j [] ++ [{ it with due := due }]) }
      sendNotice (setChain s c ch1) c ch1 from_ (q + 1) j

/-- A replica ends its stream by PUT.E (R319, R334), or by QUIT. -/
def endStream (s : State) (c : Nat) (ch : Chain) (q i from_ : Nat) (quit : Bool) : State :=
  let ch1 := modRep ch q i fun r => if quit then { r with quit := true, tk := none, frame := none } else { r with done := true }
  let x := chQueue ch1 q
  let ch2 := if x.p = i ∧ q < ch1.queues.length then setChQueue ch1 q { x with p := advanceP ch1 q i } else ch1
  if q < ch2.queues.length then wakePut (noteEnd s c ch2 q from_) c ch.id q else setChain s c ch2

/-- Whether a consumer replica finds end of stream (R319, R333), at a core. -/
def eosAtRep (s : State) (ch : Chain) (stage rep : Nat) : Bool :=
  let q := chQueue ch (stage - 1)
  heldFor q rep == 0 && producersEnded ch (stage - 1) && (ch.folded || (match q.eosAt with
    | some t => decide (t ≤ s.clock)
    | none => false))

/-- Whether the notice of end of stream is still on its way to a replica. -/
def noticeFlying (s : State) (c id stage rep : Nat) : Bool := s.agenda.any fun e => e.2 == .itemArrive c id stage rep

/-- Whether a GET of a replica finds an item or end of stream. -/
def getReady (s : State) (c : Nat) (ch : Chain) (stage rep : Nat) : Bool :=
  mgetD (chQueue ch (stage - 1)).items rep [] != [] ||
    (eosAtRep s ch stage rep && (ch.folded || !noticeFlying s c ch.id stage rep))

/-- ITEM_ARRIVE (R333): items in flight enter their consumer's queue, or end of stream reaches it; CHQ latches, and a
waiting GET returns 4 clocks later. -/
def execItemArrive (ctx chain stage rep : Nat) (s : State) : Outcome State Fault Refusal :=
  .next <|
    match chainOf s ctx chain with
    | none => s
    | some ch =>
      let q := chQueue ch (stage - 1)
      let (here, away) := landDue s.clock (mgetD q.items rep []) (mgetD q.flying rep [])
      let s1 := setChain s ctx (setChQueue ch (stage - 1) { q with flying := mset q.flying rep away, items := mset q.items rep here })
      match (repOf ch stage rep).bind (·.tk) with
      | none => s1
      | some tk =>
        if ch.folded then s1
        else
          let s2 := latch s1 tk evCHQ
          let t := getT s2 tk
          let wakes := match chainOf s2 ctx chain with
            | some ch' => getReady s2 ctx ch' stage rep
            | none => false
          match t.res.find? isGetWait with
          | some g => if wakes then later s2 4 (.resultReturn tk g.id) else s2
          | none => s2

/-- PUT_ACCEPT (R318): a parked PUT whose turn it is tries again. -/
def execPutAccept (ctx chain tk : Nat) (s : State) : Outcome State Fault Refusal :=
  .next <|
    match chainOf s ctx chain with
    | none => s
    | some ch =>
      match ch.reps.find? fun r => r.tk == some tk with
      | some r =>
        if r.at_ = .atPut ∧ (getT s tk).block = .inChain ∧ (chQueue ch r.stage).p = r.rep then
          latch (modT s tk fun t => { t with block := .free }) tk evCHQ
        else s
      | none => s

/-! ### The descriptor (R314 to R317) -/

/-- A chain descriptor as read: header fields, and for each stage its entry, replica count and preferred core. -/
structure ChainDesc where
  form   : Nat
  depth  : Nat
  vec    : Bool
  qoff   : Nat
  cmpl   : Word
  stages : List (Word × Nat × Nat)
  deriving DecidableEq, Repr

/-- Size of the chain area (R316). -/
def areaSize (d : ChainDesc) : Nat := areaOf d.depth d.vec

/-- Read a descriptor's 64 bytes at an address (R314, R315); none where a field is out of range (R317). -/
def parseDesc (addr : Word) (bs : List Byte) : Option ChainDesc :=
  let b := fun i => (bs.getD i 0).toNat
  let nst := b 0
  let ent := fun k => fieldAt bs (0x10 + 6 * k) 4
  let plc := fun k => fieldAt bs (0x14 + 6 * k) 2
  let qoff := fieldAt bs 4 4
  let cmpl := fieldAt bs 8 8
  let tgt := fun k => pcOfIndex (slotIndex addr (signedN 32 (ent k)))
  let ks := List.range nst
  let okHead := decide (2 ≤ nst ∧ nst ≤ 8 ∧ b 1 ≤ 2 ∧ b 3 ≤ 1 ∧ qoff % 64 = 0 ∧ cmpl % 8 = 0) &&
    [2, 4, 8, 16, 32, 64].contains (b 2)
  let okRows := ks.all (fun k => decide (plc k / 2048 % 8 = 0 ∧ 0 ≤ tgt k ∧ tgt k < 2 ^ 56)) &&
    (List.range 8).all fun k => decide (k < nst ∨ (ent k = 0 ∧ plc k = 0))
  let stages := ks.map fun k => (w64i (tgt k), plc k / 2 ^ 14 + 1, plc k % 2048)
  if okHead && okRows && decide (stages.foldl (fun a e => a + e.2.1) 0 ≤ 32) then
    some { form := b 1, depth := b 2, vec := b 3 == 1, qoff := qoff, cmpl := w64 cmpl, stages := stages }
  else none

/-- Whether the chain area fits every share of a context (R317). -/
def areaFits (s : State) (c : Nat) (d : ChainDesc) : Bool :=
  (ccsOf s c).all fun e => decide (d.qoff + areaSize d ≤ e.2.shSize)

/-- The replicas of a descriptor in order: stage, replica, entry, preferred core. -/
def descReps (d : ChainDesc) : List (Nat × Nat × Word × Nat) :=
  (d.stages.zip (List.range d.stages.length)).flatMap fun e =>
    (List.range e.1.2.1).map fun i => (e.2, i, e.1.1, e.1.2.2)

/-! ### Placement (R329) -/

/-- A stream port of a core that no route and no chain holds. -/
def freePort (s : State) (core : Nat) : Option Nat :=
  ((coreAt s core).ports.toList.zip (List.range 4)).findSome? fun e =>
    if e.1.held.isNone ∧ !e.1.chain ∧ e.1.waits = [] then some e.2 else none

/-- Change a stream port. -/
def modPort (s : State) (core p : Nat) (f : Port → Port) : State :=
  let c := coreAt s core
  setCore s core { c with ports := Vector.ofFn fun i => if i.val = p then f c.ports[i] else c.ports[i] }

/-- The cores a replica may take, in order of preference: its home, then logical cores ascending. -/
def homeOrder (s : State) (c home : Nat) : List (Nat × CoreCtx) :=
  match getCC s c home with
  | some cc => (home, cc) :: ccsOf s c
  | none => ccsOf s c

/-- Whether a retirement of a core is in progress (R39). -/
def coreRetiring (s : State) (core : Nat) : Bool := s.retires.any fun r => r.cls == clsCore && r.res == core

/-- The port for a consumer on a core whose producers stand on others (R329): none is needed within one cluster; else one
that the chain holds there already and no other consumer of it has taken, or a free one. -/
def portFor (s : State) (core : Nat) (producers : List Nat) (held taken : List (Nat × Nat)) : Option (Option (Nat × Nat)) :=
  if producers.all fun p => p / 8 == core / 8 then some none
  else match held.find? fun e => e.1 == core && !taken.contains e with
    | some e => some (some e)
    | none => (freePort s core).map fun p => some (core, p)

/-- The place of a replica: logical core, slot, and the port it needs (R329). A freed slot goes to a waiting migrant first
(R72). -/
def placeFor (s : State) (c home : Nat) (producers : List Nat) (held taken : List (Nat × Nat)) :
    Option (Nat × Nat × Option (Nat × Nat)) :=
  (homeOrder s c home).findSome? fun e =>
    let core := e.2.phys
    if e.2.cst ≠ .resident ∨ coreRetiring s core ∨ migrantWaits s core c then none
    else match openSlot s core c e.1, portFor s core producers held taken with
      | some tk, some p => some (e.1, tk, p)
      | _, _ => none

/-- Hold a port for a chain. -/
def takePort (s : State) : Option (Nat × Nat) → State
  | some (core, p) => modPort s core p fun x => { x with chain := true }
  | none => s

/-- Place replica threads in order: the state, the replicas placed and the ports they use, or none where one finds no
place. `held` lists the ports the chain holds from before. -/
def placeReps (c : Nat) (homes : List Nat) (held : List (Nat × Nat)) : List (Nat × Nat × Thread) → State →
    List (Nat × Nat × Nat) → List (Nat × Nat) → Option (State × List (Nat × Nat × Nat) × List (Nat × Nat))
  | [], s, done, ports => some (s, done, ports)
  | (st, i, th) :: r, s, done, ports =>
    let prods := (done.filter fun e => e.1 + 1 == st).map fun e => coreOf e.2.2
    match placeFor s c (homes.getD st 4096) prods held ports with
    | none => none
    | some (l, tk, port) =>
      placeReps c homes held r (placeThread (takePort s port) tk { th with lcore := l }) (done ++ [(st, i, tk)])
        (ports ++ port.toList)

/-- A replica's first thread (R313): R57 with the template's g0 to g3 and view. -/
def replicaThread (tmpl : Thread) (id st i : Nat) (pc : Word) (lane : BitVec 16) : Thread :=
  { tmpl with pc := pc, lane := lane, rng := seedGen 1 lane, entry := .start, chain := some { chain := id, stage := st, rep := i } }

/-! ### Switching frames (R322) -/

/-- Whether a frame is able to proceed (R322). -/
def ableFrame (s : State) (c : Nat) (ch : Chain) (r : Replica) : Bool :=
  !r.quit && r.frame.isSome && (match r.at_ with
    | .fresh => true
    | .ready => true
    | .atGet => getReady s c ch r.stage r.rep
    | .atPut => let q := chQueue ch r.stage; q.p == r.rep && heldAll q == 0
    | .run => true)

/-- The frame to resume: the highest stage able, its lowest replica (R322). -/
def chooseFrame (s : State) (c : Nat) (ch : Chain) : Option Replica :=
  ((List.range (chStages ch)).reverse.findSome? fun st =>
    (List.range (ch.counts.getD st 0)).findSome? fun i => (repOf ch st i).filter (ableFrame s c ch))

/-- The record of a frame (R47) in the folded thread's registers, with the frame's view, its run so far (R328) and the results
that it still awaits (log 10); what R47 does not hold is the folded thread's own (R322, R346). -/
def frameInto (cur th : Thread) : Thread :=
  { cur with
    g := th.g, pc := th.pc, pw := th.pw, lane := th.lane, priv := th.priv, tvec := th.tvec, rng := th.rng, fxe := th.fxe,
    fxf := th.fxf, evt := th.evt, v := th.v, p := th.p, view := th.view, chain := th.chain, entry := th.entry,
    idemPc := th.idemPc, region := none, run := th.run, res := th.res, ended := th.ended, trapP := th.trapP, held := none }

/-- Load a frame into the folded thread's slot, to issue from a clock on. MAPEVTs given to the folded thread pass to
the frame that runs (R328, R346). -/
def loadFrame (s : State) (c : Nat) (ch : Chain) (tk : Nat) (r : Replica) (th : Thread) (at_ : Nat) (ev : Bool) : State :=
  let cur := getT s tk
  let th1 := { frameInto cur th with ctx := c, block := .free, hold := at_, mapevt := cur.mapevt || ev,
                                     entry := if r.at_ = .fresh then .start else th.entry }
  let keep : Parked := if r.at_ = .fresh ∨ r.at_ = .ready then .run else r.at_
  setT (setChain s c (modRep ch r.stage r.rep fun r => { r with tk := some tk, frame := none, at_ := keep })) tk th1

/-- The number of free reserved slots of a context. -/
def freeSlots (s : State) (c : Nat) : Nat :=
  s.slots.countP fun e => e.2.ctx == c && e.2.occ == .free

/-- The frames that have not quit and are not running. -/
def waitingFrames (ch : Chain) : List Replica := ch.reps.filter fun r => !r.quit && r.frame.isSome

/-- The spread of R325 at a switch: the running frame stays in its slot; the others get threads of their own, which
start when their records have travelled. -/
def doSpread (s : State) (c : Nat) (ch : Chain) (tk : Nat) : Option State :=
  let fs := waitingFrames ch
  let ths := fs.filterMap fun r => r.frame.map fun t => (r.stage, r.rep, { frameInto Thread.blank t with ctx := c, block := .free })
  let own := ch.reps.find? fun r => r.tk == some tk
  let here := (own.map fun r => (r.stage, r.rep, tk)).toList
  match placeReps c ch.homes ch.ports ths
      (setChain s c { ch with folded := false, spreadP := false, foldP := false, foldR := false, freeFrom := none }) here [] with
  | none => none
  | some (s0, placed, ports0) =>
    let prods := (placed.filter fun e => own.any fun r => e.1 + 1 == r.stage).map fun e => coreOf e.2.2
    match portFor s0 (coreOf tk) prods ch.ports ports0, chainOf s0 c ch.id with
    | none, _ => none
    | _, none => none
    | some port, some ch1 =>
      let s1 := takePort s0 port
      let done := placed.drop here.length
      let ports := (ports0 ++ port.toList).filter fun e => !ch.ports.contains e
      let ch2 := { ch1 with
        ports := ch1.ports ++ ports
        reps := ch1.reps.map fun r => match done.find? fun e => e.1 == r.stage && e.2.1 == r.rep with
          | some e => { r with tk := some e.2.2, frame := none, at_ := if r.at_ = .fresh ∨ r.at_ = .ready then .run else r.at_ }
          | none => r }
      let s2 := setChain s1 c ch2
      let v := (done.map fun e => (getT s2 e.2.2).view).foldl View.join (getT s2 tk).view
      let s3 := done.foldl (fun s e =>
        let d := recLatency s.cmap (routerOf (coreOf tk)) (routerOf (coreOf e.2.2))
        modT s e.2.2 fun t => { t with hold := s.clock + d, view := v }) s2
      some (done.foldl (fun s e => settle s e.2.2) (modT s3 tk fun t => { t with hold := s3.clock + 4, view := v }))

/-- The folded thread's next frame runs: 4 clocks for the switch (R322). A pending spread takes effect here (R325). A trap that
the frame's run has deferred to its marker is taken now (R328); with no frame able, a MAPEVT waits for one (R346). -/
def resumeNext (s : State) (c id tk : Nat) (ev : Bool) : State :=
  match chainOf s c id with
  | none => s
  | some ch =>
    match chooseFrame s c ch with
    | some r => (match r.frame with
      | some th =>
        let s1 := loadFrame s c ch tk r th (s.clock + 4) ev
        (match (if ch.spreadP then (chainOf s1 c id).bind fun ch1 => doSpread s1 c ch1 tk else none) with
          | some s2 => settle s2 tk
          | none => settle s1 tk)
      | none => s)
    | none => modT s tk fun t => { t with block := .inChain, mapevt := t.mapevt || ev }

/-- Store the running frame, parked as given, and switch (R322). Its buffered stores drain first (log 10). -/
def switchFrame (s : State) (tk : Nat) (at_ : Parked) : State :=
  match (getT s tk).chain with
  | none => s
  | some p =>
    let s1 := displaceMons (drainAll s tk) tk
    let t := clobberVec s.freeCtr 3000 (getT s1 tk)
    let c := t.ctx
    match chainOf s1 c p.chain with
    | none => s1
    | some ch =>
      let ev := t.mapevt
      let th := { t with mapevt := false }
      let stay := modRep ch p.stage p.rep fun r => { r with at_ := if at_ = .ready then .run else at_ }
      let spread := if ch.spreadP && decide ((waitingFrames ch).length ≤ freeSlots s1 c) then
          doSpread (setT (setChain s1 c stay) tk t) c stay tk
        else none
      match spread with
      | some s2 => settle s2 tk
      | none =>
        let ch1 := modRep ch p.stage p.rep fun r => { r with at_ := at_, tk := none, frame := some th }
        resumeNext (setT (setChain s1 c ch1) tk { t with mapevt := false, run := {}, ended := false }) c p.chain tk ev

/-! ### Starting a chain (R313, R329, R332) -/

/-- A chain of a descriptor, its replicas not yet placed. -/
def newChain (d : ChainDesc) (id : Nat) (reps : List Replica) (folded : Bool) : Chain where
  id := id
  folded := folded
  auto := d.form == 2
  depth := d.depth
  vec := d.vec
  qoff := d.qoff
  cmpl := d.cmpl
  reps := reps
  counts := d.stages.map (·.2.1)
  queues := List.replicate (d.stages.length - 1) {}
  homes := d.stages.map (·.2.2)

/-- A context's next chain id (R332). -/
def nextChainId (n : Nat) : Nat := if (n + 1) % 65536 = 0 then 1 else (n + 1) % 65536

/-- Start a chain spread: every replica in a slot of its own. -/
def startSpread (s : State) (c id : Nat) (d : ChainDesc) (ths : List (Nat × Nat × Thread)) : Option State :=
  let s0 := modCtx s c fun x => { x with chains := x.chains ++ [newChain d id [] false], chainCtr := id }
  match placeReps c (d.stages.map (·.2.2)) [] ths s0 [] [] with
  | none => none
  | some (s1, done, ports) =>
    let reps : List Replica := done.map fun e =>
      { stage := e.1, rep := e.2.1, tk := some e.2.2, frame := none, at_ := .run, done := false, quit := false }
    some (setChain s1 c { newChain d id reps false with ports := ports })

/-- Start a chain folded: one thread, every replica a frame that has never run (R322). -/
def startFolded (s : State) (c id : Nat) (d : ChainDesc) (ths : List (Nat × Nat × Thread)) : Option State :=
  match placeFor s c ((d.stages.map (·.2.2)).getD 0 4096) [] [] [] with
  | none => none
  | some (l, tk, _) =>
    let reps : List Replica := ths.map fun e =>
      { stage := e.1, rep := e.2.1, tk := none, frame := some e.2.2, at_ := .fresh, done := false, quit := false }
    let s0 := modCtx s c fun x => { x with chains := x.chains ++ [newChain d id reps true], chainCtr := id }
    let s1 := placeThread s0 tk { Thread.blank with ctx := c, lcore := l }
    let s2 := resumeNext s1 c id tk false
    some (if d.form = 2 then later s2 1 (.autoSpreadRequest c id) else s2)

/-- Start a chain (R332): its id and the state, or 0 where nothing starts. -/
def startChain (s : State) (c : Nat) (tmpl : Thread) (lanes : Bool) (d : ChainDesc) : Nat × State :=
  let x := ctxD s c
  let id := nextChainId x.chainCtr
  let ls := descReps d
  let ths := (ls.zip (List.range ls.length)).map fun e =>
    (e.1.1, e.1.2.1, replicaThread tmpl id e.1.1 e.1.2.1 e.1.2.2.1 (if lanes then BitVec.ofNat 16 e.2 else tmpl.lane))
  if 16 ≤ x.chains.length then (0, s)
  else
    let spread := if d.form = 1 then none else startSpread s c id d ths
    match spread with
    | some s1 => (id, s1)
    | none =>
      if d.form = 0 then (0, s)
      else match startFolded s c id d ths with
        | some s1 => (id, s1)
        | none => (0, s)

/-- The template of CHAIN's replicas (R313): R57 with the issuer's g0 to g3, its LANE with bit 15, and its view. -/
def chainTemplate (s : State) : Thread :=
  let t := curT s
  { Thread.blank with
    ctx := t.ctx
    g := Vector.ofFn fun i => if i.val < 4 then readG s t i else 0
    lane := t.lane ||| 0x8000
    view := t.view }

/-- CHAINERR (R336). -/
def chainErr (s : State) (reason stage : Nat) : State := trapHere s cCHAINERR (w64 (reason * 256 + stage))

/-- CHAIN (R332, R317): the descriptor is read and checked; once its reads are back the request for the id travels to
logical core 0, which starts the chain. A read that a FENCE holds in the port holds the thread, whose chain id waits for what it
reads (log 33). -/
def execChain (h : Hdr) (d a : Fin 16) (s : State) : Outcome State Fault Refusal :=
  issueC (.chain h d a) h s fun s => withRoom s fun s =>
    let va := (gVal s a).toNat
    if va % 64 ≠ 0 ∧ windowOf va ≠ .reserved then trapHere s cALIGN (w64 va)
    else withLanes s 8 false ((List.range 8).map fun k => va + 8 * k) fun locs s =>
      let all := locs.flatMap fun x => locsFrom x 8
      if all.any (portHeld s) then retry s
      else if readsPoison s (curT s) all then
        later (putT s { curT s with block := .device }) 0 (.uncorrectableConsumed s.cur va 0)
      else
        let s1 := countCorrected (closeCur s) all
        let (bs, v) := readThreadMany s1 0 (curT s1) (sectors all)
        match parseDesc (w64 va) bs with
        | none => chainErr s 7 0
        | some ds =>
          if !areaFits s (curT s).ctx ds then trapHere s cPROT (w64 ds.qoff)
          else
            let s2 := putT s1 { curT s1 with view := v }
            let tmpl := chainTemplate s2
            let (n, s3) := memDelay s2
            let (rid, s4) := resultWait [.g d] (.request (.chainId (w64 va) (ofBytesLE bs))) s3
            retire h (later { s4 with spawns := mset s4.spawns rid tmpl }
              (n + legTo s4 (coreOf s.cur) (core0 s4 (curT s).ctx (coreOf s.cur))) (.remoteRequest s.cur rid))

/-- The holder starts a chain that CHAIN asks for: its id (R332). -/
def chainRequest (s : State) (rid : Nat) (desc : Word) (bytes : Nat) : Nat × State :=
  match mget s.spawns rid, parseDesc desc (bytesLE 64 bytes) with
  | some tmpl, some d =>
    let s1 := { s with spawns := mdel s.spawns rid }
    let (id, s2) := startChain s1 tmpl.ctx tmpl false d
    let full := decide (16 ≤ (ctxD s tmpl.ctx).chains.length)
    (id, if id = 0 ∧ !full then (ccsOf s1 tmpl.ctx).foldl (fun s e => later s 0 (.chainFold tmpl.ctx (65536 + e.2.phys))) s2 else s2)
  | _, _ => (0, s)

/-! ### GET and PUT (R333, R334) -/

/-- The chain and replica of the executing thread. -/
def curReplica (s : State) : Option (Chain × Replica) :=
  (curT s).chain.bind fun p => (chainOf s (curT s).ctx p.chain).bind fun ch => (repOf ch p.stage p.rep).map fun r => (ch, r)

/-- Park the executing thread at its GET or PUT (R345). -/
def parkAt (s : State) (ch : Chain) (r : Replica) (at_ : Parked) (blk : Bool) (hold : Nat) : State :=
  let c := (curT s).ctx
  let s1 := setChain s c (modRep ch r.stage r.rep fun r => { r with at_ := at_ })
  checkFold (putT s1 { curT s1 with block := if blk then .inChain else .free, hold := hold }) c ch.id

/-- What a GET or PUT leaves of the thread (R321): vector state undefined, monitors displaced, CHQ reported. -/
def chainDone (s : State) : State :=
  let s1 := displaceMons s s.cur
  putT s1 { clobberVec s.freeCtr 4000 (curT s1) with evt := (curT s1).evt &&& ~~~evCHQ }

/-- The destination of a GET matches the chain's kind (R333). -/
def kindOk (ch : Chain) : GV → Bool
  | .g _ => !ch.vec
  | .v _ => ch.vec

/-- Complete a GET (R333): the item or end of stream. -/
def finishGet (h : Hdr) (d : GV) (cp : Fin 32) (s : State) (ch : Chain) (r : Replica) : State :=
  let c := (curT s).ctx
  let q := chQueue ch (r.stage - 1)
  let ch1 := modRep ch r.stage r.rep fun r => { r with at_ := .run }
  match mgetD q.items r.rep [] with
  | it :: rest =>
    let ch2 := setChQueue ch1 (r.stage - 1) { q with items := mset q.items r.rep rest }
    let s1 := wakePut (setChain s c ch2) c ch.id (r.stage - 1)
    let s2 := chainDone (putT s1 { curT s1 with view := (curT s1).view.join it.view })
    let s3 := match d with
      | .g x => setG s2 x (it.val.setWidth 64)
      | .v x => putT s2 (writeV (curT s2) x it.val)
    retire h (setC s3 cp true)
  | [] => retire h (setC (chainDone (setChain s c ch1)) cp false)

/-- The vector registers a GET names. -/
def gvRegs : GV → List (Fin 32)
  | .g _ => []
  | .v r => [r]

/-- The result of a GET returns (R333): the item is taken now (R345), and the thread goes on from its GET. -/
def returnGet (s : State) (tk rid : Nat) (h : Hdr) (d : GV) (cp : Fin 32) : State :=
  let s1 := modT { s with cur := tk } tk fun t => { t with block := .free, res := t.res.filter fun r => r.id != rid }
  match curReplica s1 with
  | none => s
  | some (ch, r) =>
    let s2 := finishGet h d cp s1 ch r
    { modT s2 tk fun t => { t with hold := s.clock + h.pace.val } with cur := s.cur }

/-- RESULT_RETURN (R64, R65): the result's registers are written and, when it is the last one that the thread waits for, the
thread goes on; a thread parked at its GET or PUT may now fold (R324). A frame that was folded with the result outstanding
takes it into its record. A result of a thread that is no longer there, or whose slot has been placed again since, is
dropped, and its own context counts it (R69). -/
def execResultReturn (tk rid : Nat) (s : State) : Outcome State Fault Refusal :=
  .next <|
    match holderOf s tk rid with
    | some k =>
      let t := getT s k
      (match findRes t rid with
        | none => s
        | some r =>
          match r.wait with
          | .get h d c => returnGet s k rid h d c
          | _ =>
            let s1 := settle (setT s k (returnRes t r)) k
            match t.chain with
            | some p => checkFold s1 t.ctx p.chain
            | none => s1)
    | none =>
      if frameAwaits s rid then
        modFrame s rid fun t => match findRes t rid with
          | some r => returnRes t r
          | none => t
      else if (mget s.threads tk).isNone || decide (rid ≤ (((slotAt s tk).past.head?).map (·.1)).getD 0) then
        countDrop s (messageCtx s tk rid)
      else s

/-- Park the executing thread at its GET (R345) with the GET's variable result outstanding, which returns 4 clocks after the
item, or end of stream, is there (R333). -/
def waitGet (s : State) (h : Hdr) (d : GV) (cp : Fin 32) (ch : Chain) (r : Replica) (ready : Bool) : State :=
  let dst : RegId := match d with
    | .g x => .g x
    | .v x => .v x
  let (rid, s1) := resultWait [dst, .c cp] (.get h d cp) (if ready then latch s s.cur evCHQ else s)
  let s2 := parkAt s1 ch r .atGet true (s.clock + 1)
  if ready then later s2 4 (.resultReturn s.cur rid) else s2

/-- GET (R333, R322): a waiting instruction whose result is variable; the thread is parked at the instruction from its issue
until the result returns (R345). A folded frame that has waited takes its item at its first issue. -/
def execGet (h : Hdr) (d : GV) (c : Fin 32) (s : State) : Outcome State Fault Refusal :=
  issueC (.get h d c) h s fun s => withVRegs (.get h d c) (gvRegs d) s fun s =>
    match curReplica s with
    | none => chainErr s 3 0
    | some (ch, r) =>
      if r.stage = 0 then chainErr s 1 0
      else if !kindOk ch d then chainErr s 6 r.stage
      else withRoom s fun s => (if ch.folded then withDrain s else withOrder s false) fun s =>
        let ready := getReady s (curT s).ctx ch r.stage r.rep
        if ch.folded && !ready && (curT s).inh then chainErr s 5 r.stage
        else if ch.folded && !ready && (curT s).res != [] then retry s
        else
          let s1 := closeCur s
          if ready && ch.folded && r.at_ == .atGet then finishGet h d c s1 ch r
          else if ch.folded && !ready then switchFrame s1 s1.cur .atGet
          else waitGet s1 h d c ch r ready

/-- A PUT is accepted (R320): the store buffer drains and the item carries the view. -/
def acceptPut (s : State) (ch : Chain) (r : Replica) (x : Vec) : State :=
  let s1 := drainAll s s.cur
  let c := (curT s1).ctx
  let ch1 := modRep ch r.stage r.rep fun r => { r with at_ := .run }
  acceptItem s1 c ch1 r.stage r.rep (coreOf s.cur) { val := x, view := (curT s1).view }

/-- The clocks of an acceptance's way back (R334): one message latency. -/
def acceptLat (s : State) (ch : Chain) (r : Replica) : Nat :=
  coreLat s (coreOf s.cur) (repCore ch (r.stage + 1) (chQueue ch r.stage).c)

/-- The item a PUT passes. -/
def putVal (s : State) : GIV → Vec
  | .g r => (gVal s r).setWidth 2048
  | .im v => (imm9 v).setWidth 2048
  | .v r => vVal s r

/-- The operand of a PUT matches the chain's kind. -/
def putKindOk (ch : Chain) : GIV → Bool
  | .v _ => ch.vec
  | _ => !ch.vec

/-- The vector registers a PUT or a stream send names. -/
def givRegs : GIV → List (Fin 32)
  | .v r => [r]
  | _ => []

/-- The checks of PUT and PUT.E (R334), and the executing replica. -/
def withPut (s : State) (kind : Chain → Bool) (eff : Chain → Replica → State → State) : State :=
  match curReplica s with
  | none => chainErr s 3 0
  | some (ch, r) =>
    if r.stage + 1 = chStages ch then chainErr s 2 r.stage
    else if r.done then chainErr s 4 r.stage
    else if !kind ch then chainErr s 6 r.stage
    else withRoom s fun s => withDrain s fun s => eff ch r s

/-- Complete an instruction at which its frame is switched: what its run has deferred to the marker is left to the frame
(R328). -/
def leaveRun (h : Hdr) (s : State) : State :=
  let t := curT s
  putT s { t with run := runAt t, pc := nextPc t.pc, hold := s.clock + 1 + h.pace.val, ended := h.sw }

/-- PUT in folded form (R322, R346): place the item and switch, discard it, or park and switch. -/
def putFolded (h : Hdr) (s : State) (ch : Chain) (r : Replica) (x : Vec) : State :=
  let inTurn := (chQueue ch r.stage).p == r.rep
  let sc := closeCur s
  if inTurn && consumersQuit ch r.stage then retire h (chainDone (acceptPut sc ch r x))
  else if (curT s).inh then chainErr s 5 r.stage
  else if (curT s).res ≠ [] then retry s
  else if canAccept ch r.stage r.rep then
    let s1 := leaveRun h (chainDone (acceptPut sc ch r x))
    switchFrame s1 s1.cur .ready
  else switchFrame sc sc.cur .atPut

/-- PUT (R334): held at the instruction until its acceptance (R345, log 10). -/
def execPut (h : Hdr) (a : GIV) (s : State) : Outcome State Fault Refusal :=
  issueC (.put h a) h s fun s => withVRegs (.put h a) (givRegs a) s fun s =>
    withPut s (fun ch => putKindOk ch a) fun ch r s =>
      let x := putVal s a
      if ch.folded then putFolded h s ch r x
      else if canAccept ch r.stage r.rep then
        let n := acceptLat s ch r
        let s1 := chainDone (acceptPut (closeCur s) ch r x)
        checkFold (resultIn h n [] (wakePut s1 (curT s1).ctx ch.id r.stage)) (curT s1).ctx ch.id
      else parkAt (closeCur s) ch r .atPut true (s.clock + 1)

/-- PUT.E (R334, R346): accepted in its turn, it ends its replica's stream. -/
def execPutE (h : Hdr) (s : State) : Outcome State Fault Refusal :=
  issueC (.putE h) h s fun s => withPut s (fun _ => true) fun ch r s =>
    let c := (curT s).ctx
    if (chQueue ch r.stage).p = r.rep then
      let n := acceptLat s ch r
      let s1 := drainAll (closeCur s) s.cur
      let s2 := chainDone (endStream s1 c (modRep ch r.stage r.rep fun r => { r with at_ := .run }) r.stage r.rep (coreOf s.cur) false)
      if ch.folded then retire h s2 else checkFold (resultIn h n [] s2) c ch.id
    else if ch.folded then
      (if (curT s).inh then chainErr s 5 r.stage
       else if (curT s).res ≠ [] then retry s
       else switchFrame (closeCur s) s.cur .atPut)
    else parkAt (closeCur s) ch r .atPut true (s.clock + 1)

/-! ### Folds and spreads (R324 to R327) -/

/-- The slot of the folded thread (R324): the lowest stage thread on a core not being retired, else the lowest. -/
def foldSlot (s : State) (ch : Chain) : Option Nat :=
  let ts := ch.reps.filterMap (·.tk)
  match ts.find? fun tk => !coreRetiring s (coreOf tk) with
  | some tk => some tk
  | none => ts.head?

/-- Merge what is in flight into the queues (R324, R345). -/
def landItems (q : CQueue) : CQueue :=
  { q with items := q.flying.foldl (fun m e => mset m e.1 (mgetD m e.1 [] ++ e.2)) q.items, flying := [] }

/-- Request a fold of a chain (R324, R327). -/
def requestFold (s : State) (c : Nat) (ch : Chain) (retire : Bool) : State :=
  if ch.folded then setChain s c { ch with spreadP := false, foldR := ch.foldR || retire }
  else checkFold (setChain s c { ch with foldP := true, foldR := ch.foldR || retire, spreadP := false }) c ch.id

/-- Whether a stage thread of a chain stands on a core. -/
def stageOn (ch : Chain) (core : Nat) : Bool := ch.reps.any fun r => match r.tk with
  | some tk => coreOf tk == core
  | none => false

/-- CHAIN_SPREAD (R325): a pending spread of a folded chain whose thread is held with no frame able takes effect; at a
switch it takes effect of itself. -/
def execChainSpread (ctx chain : Nat) (s : State) : Outcome State Fault Refusal :=
  .next <|
    match chainOf s ctx chain with
    | some ch =>
      if ch.folded ∧ ch.spreadP then
        (match ch.reps.findSome? (·.tk) with
          | some tk =>
            if (getT s tk).block = .inChain ∧ (getT s tk).res = [] ∧ (waitingFrames ch).length ≤ freeSlots s ctx then
              (match doSpread s ctx ch tk with
                | some s1 => modT s1 tk fun t => { t with block := .free }
                | none => s)
            else s
          | none => s)
      else s
    | none => s

/-- AUTO_SPREAD_REQUEST (R327): in every clock, a folded chain in auto form tests its launch's free slots; after 65,536
consecutive clocks in which they suffice it requests a spread. -/
def execAutoSpreadRequest (ctx chain : Nat) (s : State) : Outcome State Fault Refusal :=
  .next <|
    match chainOf s ctx chain with
    | none => s
    | some ch =>
      if !ch.auto || !ch.folded || ch.foldR then s
      else if decide ((ch.reps.filter fun r => !r.quit).length ≤ freeSlots s ctx) then
        let t0 := ch.freeFrom.getD s.clock
        if t0 + 65535 ≤ s.clock then later (setChain s ctx { ch with spreadP := true, freeFrom := none }) 0 (.chainSpread ctx chain)
        else later (setChain s ctx { ch with freeFrom := some t0 }) 1 (.autoSpreadRequest ctx chain)
      else later (setChain s ctx { ch with freeFrom := none }) 1 (.autoSpreadRequest ctx chain)

/-! ### CHMODE (R335) -/

/-- The chain a CHMODE names: its register's, or the issuer's own; outside any chain it traps CHAINERR. -/
def withChainId (s : State) (id : Option (Fin 16)) (eff : Nat → State → State) : State :=
  match id, (curT s).chain with
  | some r, _ => eff ((gVal s r).toNat % 65536) (closeCur s)
  | none, some p => eff p.chain (closeCur s)
  | none, none => chainErr s 3 0

/-- The holder of the chain table: logical core 0 (R408). -/
def chainHolder (s : State) : Nat := core0 s (curT s).ctx (coreOf s.cur)

/-- The issuer's place in a chain it names, as CHMODE.Q reports it. -/
def ownPlace (s : State) (id : Nat) : Nat × Nat :=
  match (curT s).chain with
  | some p => if p.chain = id then (p.stage, p.rep) else (0xF, 0)
  | none => (0xF, 0)

/-- CHMODE.Q's result (R335). -/
def chmodeWord (s : State) (c id stage rep : Nat) : Word :=
  match chainOf s c id with
  | none => 0
  | some ch =>
    w64 (id * 2 ^ 48 + (if ch.spreadP then 2 ^ 35 else 0) + (if ch.foldP then 2 ^ 34 else 0) + (if ch.auto then 2 ^ 33 else 0) +
      (if ch.folded then 2 ^ 32 else 0) + chStages ch * 2 ^ 12 + stage * 2 ^ 8 + rep)

/-- CHMODE.OCC's result (R335). -/
def occWord (s : State) (c id q : Nat) : Word :=
  match chainOf s c id with
  | none => 0
  | some ch =>
    if chStages ch ≤ q + 1 then 0
    else
      let n := heldAll (chQueue ch q)
      w64 ((if producersEnded ch q then 2 ^ 15 else 0) + (if ch.folded ∧ n ≠ 0 then 2 ^ 14 else 0) + n)

/-- CHMODE.Q (R335). -/
def execChmodeQ (h : Hdr) (d : Fin 16) (id : Option (Fin 16)) (s : State) : Outcome State Fault Refusal :=
  issueC (.chmodeQ h d id) h s fun s => withChainId s id fun n s =>
    let (st, rp) := ownPlace s n
    startRequest h [.g d] (.chmodeQ n st rp) (chainHolder s) s

/-- CHMODE.OCC (R335). -/
def execChmodeOcc (h : Hdr) (d : Fin 16) (q : GI) (id : Option (Fin 16)) (s : State) : Outcome State Fault Refusal :=
  issueC (.chmodeOcc h d q id) h s fun s => withChainId s id fun n s =>
    startRequest h [.g d] (.chmodeOcc n (giVal s q).toNat) (chainHolder s) s

/-- Change a chain that a request names (R335); a request on none has no effect. -/
def chmodeReq (h : Hdr) (id : Option (Fin 16)) (s : State) (f : State → Nat → Chain → State) : State :=
  withChainId s id fun n s =>
    let c := (curT s).ctx
    retire h (match chainOf s c n with
      | some ch => f s c ch
      | none => s)

/-- CHMODE.FOLD (R324, R327): leaves auto form and cancels a pending spread. -/
def execChmodeFold (h : Hdr) (id : Option (Fin 16)) (s : State) : Outcome State Fault Refusal :=
  issueC (.chmodeFold h id) h s fun s => chmodeReq h id s fun s c ch => requestFold s c { ch with auto := false } false

/-- CHMODE.SPREAD (R325, R327): leaves auto form; it cancels a pending fold, but not one for a retirement. -/
def execChmodeSpread (h : Hdr) (id : Option (Fin 16)) (s : State) : Outcome State Fault Refusal :=
  issueC (.chmodeSpread h id) h s fun s => chmodeReq h id s fun s c ch =>
    let folding := ch.foldP && ch.foldR
    let s1 := setChain s c { ch with auto := false, foldP := folding, foldR := folding, spreadP := ch.folded || folding }
    let s2 := if ch.foldP && !folding then (List.range ch.queues.length).foldl (fun s q => wakePut s c ch.id q) s1 else s1
    later s2 0 (.chainSpread c ch.id)

/-- CHMODE.AUTO (R327). -/
def execChmodeAuto (h : Hdr) (id : Option (Fin 16)) (s : State) : Outcome State Fault Refusal :=
  issueC (.chmodeAuto h id) h s fun s => chmodeReq h id s fun s c ch =>
    later (setChain s c { ch with auto := true, foldR := ch.foldP && ch.foldR }) 1 (.autoSpreadRequest c ch.id)

/-! ### Completion (R329) -/

/-- A replica quits (R318, R319, R346): it ends its stream, is dropped from its queue's consumers, its items are
discarded, and the chain's view grows by the thread's. -/
def replicaQuits (s : State) (tk : Nat) : State :=
  let t := getT s tk
  match t.chain with
  | none => s
  | some p =>
    match chainOf s t.ctx p.chain with
    | none => s
    | some ch0 =>
      let ch := { ch0 with view := ch0.view.join t.view }
      let s1 := endStream s t.ctx ch p.stage p.rep (coreOf tk) true
      match chainOf s1 t.ctx p.chain with
      | none => s1
      | some ch1 =>
        let s2 := if p.stage = 0 then s1
          else
            let q := chQueue ch1 (p.stage - 1)
            let q1 : CQueue := { q with items := mdel q.items p.rep, flying := mdel q.flying p.rep,
                                        c := if q.c = p.rep then advanceC ch1 (p.stage - 1) p.rep else q.c }
            wakePut (setChain s1 t.ctx (setChQueue ch1 (p.stage - 1) q1)) t.ctx p.chain (p.stage - 1)
        let s3 := checkFold s2 t.ctx p.chain
        if ch1.reps.all (·.quit) then later s3 0 (.chainComplete t.ctx p.chain) else s3

/-- CHAIN_COMPLETE (R329): the chain's writes drain, CMPL reads done, the ports and the table entry are freed. -/
def execChainComplete (ctx chain : Nat) (s : State) : Outcome State Fault Refusal :=
  .next <|
    match chainOf s ctx chain with
    | none => s
    | some ch =>
      if !ch.reps.all (·.quit) then s
      else
        let s1 := drainPending s ctx
        let x := ctxD s1 ctx
        let (s2, ok) := if ch.cmpl = 0 then (s1, true) else postChain s1 ctx ch.cmpl 0x01 (ch.view.join x.all)
        if !ok then later s2 1 (.chainComplete ctx chain)
        else
          let s3 := ch.ports.foldl (fun s e => later (modPort s e.1 e.2 fun p => { p with chain := false }) 0 (.streamRouteAdmit e.1 e.2)) s2
          let s4 := modCtx s3 ctx fun x => { x with chains := x.chains.filter fun e => e.id != chain }
          later s4 0 (.launchComplete ctx)

end Sys2Proof.Machine
end

