-- ==== Sys2Proof/Machine/Tasks.lean ====
section
/-!
DEFINITION. Sub-tiles (R76, R337), the work deque (R77, R78, R338 to R340) and stream routes (R341 to R344), with the
device steps STREAM_WORD_ARRIVE and STREAM_ROUTE_ADMIT.
-/

namespace Sys2Proof.Machine

open Host

/-! ### Sub-tiles (R76, R337) -/

/-- The sub-tile i of a grid, as FTILE's result word (R337). -/
def subTile (grid : Word) (i : Nat) : Word :=
  let nx := bitsOf grid 63 48 + 1
  let ny := bitsOf grid 47 32 + 1
  let tx := bitsOf grid 31 16 + 1
  let ty := bitsOf grid 15 0 + 1
  let ntx := ceilDiv nx tx
  let x0 := tx * (i % ntx)
  let y0 := ty * (i / ntx)
  w64 (x0 * 2 ^ 48 + y0 * 2 ^ 32 + (min tx (nx - x0) - 1) * 2 ^ 16 + (min ty (ny - y0) - 1))

/-- The number of sub-tiles of a grid; none for a grid of zero (R53). -/
def subTiles (grid : Word) : Nat :=
  if grid = 0 then 0
  else ceilDiv (bitsOf grid 63 48 + 1) (bitsOf grid 31 16 + 1) * ceilDiv (bitsOf grid 47 32 + 1) (bitsOf grid 15 0 + 1)

/-- FTILE (R337). -/
def execFtile (h : Hdr) (d : Fin 16) (c : Fin 32) (s : State) : Outcome State Fault Refusal :=
  issueC (.ftile h d c) h s fun s => withRoom s fun s =>
    let s1 := closeCur s
    let t := curT s1
    let x := ctxD s1 t.ctx
    let k := ((getCC s1 t.ctx t.lcore).map (·.cluster)).getD 0
    let n := mgetD x.ftile k 0
    let i := k + x.nclus * n
    if i < subTiles x.pkt.grid then
      resultIn h 8 [.g d (subTile x.pkt.grid i), .c c true] (setCtx s1 t.ctx { x with ftile := mset x.ftile k (n + 1) })
    else resultIn h 8 [.c c false] s1

/-! ### The work deque (R338 to R340) -/

/-- The deque of a core context: the location of its header and its capacity, or the reason of a DQERR (R340). -/
def dequeOf (s : State) (key : Nat) (cc : CoreCtx) : Except Nat (Nat × Nat) :=
  let base := cc.dqBase.toNat
  let lim := cc.dqLim.toNat
  if lim < base + 32 ∨ cc.shSize < lim ∨ cc.shSize < base + 16 ∨ cc.dqBad then .error 2
  else
    let loc := sramLoc key base
    let n := (memN s (loc + 8) 4 + 2 ^ 32 - memN s loc 4) % 2 ^ 32
    let cap := (lim - base - 16) / 16
    if cap < n then .error 3 else .ok (loc, cap)

/-- TOP and BOT of a deque. -/
def dequeTop (s : State) (loc : Nat) : Nat := memN s loc 4
def dequeBot (s : State) (loc : Nat) : Nat := memN s (loc + 8) 4

/-- The location of entry k. -/
def dequeEntry (loc cap k : Nat) : Nat := loc + 16 + 16 * (k % cap)

/-- Append a dword to co(x) at a location, the thread's view raised. -/
def storeWord (s : State) (tk loc n : Nat) : State :=
  let (ts, s1) := append s ((locsFrom loc 8).zip (bytesLE 8 n)) none
  modT s1 tk fun t => { t with view := t.view.raises (locsFrom loc 8) ts }

/-- DQERR (R340). -/
def dequeErr (s : State) (reason : Nat) : State := trapHere s cDQERR (w64 (reason * 256))

/-- Run DPUSH or DPOP on the issuer's deque (R340). -/
def withDeque (s : State) (eff : Nat → Nat → State → State) : State :=
  match getCC s (curT s).ctx (curT s).lcore with
  | none => dequeErr s 1
  | some cc =>
    if !cc.dqEn then dequeErr s 1
    else match dequeOf s (ccKey (curT s).ctx (curT s).lcore) cc with
      | .error r => dequeErr s r
      | .ok (loc, cap) => withRoom s fun s => eff loc cap s

/-- DPUSH's step (R339): the buffer drains; with room, the entry and BOT are written and the header is released. -/
def dpushStep (s : State) (loc cap : Nat) (a b : Word) : State × Bool :=
  let s1 := drainAll s s.cur
  let bot := dequeBot s1 loc
  if (bot + 2 ^ 32 - dequeTop s1 loc) % 2 ^ 32 = cap then (s1, false)
  else
    let e := dequeEntry loc cap bot
    let s2 := storeWord (storeWord s1 s1.cur e a.toNat) s1.cur (e + 8) b.toNat
    let s3 := storeWord s2 s2.cur (loc + 8) ((bot + 1) % 2 ^ 32)
    ({ s3 with
      rels := mset s3.rels loc ((mgetD s3.rels loc {}).join (curT s3).view)
      vers := mset s3.vers loc (mgetD s3.vers loc 0 + 1) }, true)

/-- DPUSH (R339). -/
def execDpush (h : Hdr) (c : Fin 32) (a b : GI) (s : State) : Outcome State Fault Refusal :=
  issueC (.dpush h c a b) h s fun s => withDeque s fun loc cap s => withDrain s fun s =>
    let (s1, ok) := dpushStep (closeCur s) loc cap (giVal s a) (giVal s b)
    resultIn h 4 [.c c ok] s1

/-- A result whose view is joined when it returns in d clocks (R147). -/
def resultJoin (h : Hdr) (d : Nat) (vals : List RegW) (v : View) (s : State) : State :=
  let (id, s1) := resultWait (vals.map RegW.reg) .none s
  retire h (later (putT s1 (modRes (curT s1) id fun r => { r with vals := vals, join := some v })) d (.resultReturn s1.cur id))

/-- DPOP (R339): the newest entry, if there is one, with an acquire of the header. -/
def execDpop (h : Hdr) (a b : Fin 16) (c : Fin 32) (s : State) : Outcome State Fault Refusal :=
  issueC (.dpop h a b c) h s fun s => withDeque s fun loc cap s => withOrder s true fun s =>
    let s1 := closeCur s
    let bot := dequeBot s1 loc
    if bot = dequeTop s1 loc then resultIn h 4 [.c c false] s1
    else
      let k := (bot + 2 ^ 32 - 1) % 2 ^ 32
      let s2 := storeWord s1 s1.cur (loc + 8) k
      let e := dequeEntry loc cap k
      resultJoin h 4 [.g a (w64 (memN s2 e 8)), .g b (w64 (memN s2 (e + 8) 8)), .c c true] (acquired s2 loc) s2

/-- DSTEAL's step at the deque's core (R339): the two dwords taken and the view to join, or none. -/
def dstealStep (s : State) (tk : Nat) (cc : CoreCtx) (loc cap : Nat) : State × Option (Word × Word × View) :=
  let top := dequeTop s loc
  if !cc.dqEn ∨ dequeBot s loc = top then (s, none)
  else
    let s1 := storeWord s tk loc ((top + 1) % 2 ^ 32)
    let e := dequeEntry loc cap top
    (s1, some (w64 (memN s1 e 8), w64 (memN s1 (e + 8) 8), acquired s1 loc))

/-- DSTEAL (R339): the request travels to the named core's deque; registers other than the predicate are written only
if an entry is taken. -/
def execDsteal (h : Hdr) (a b : Fin 16) (c : Fin 32) (l : Fin 16) (s : State) : Outcome State Fault Refusal :=
  issueC (.dsteal h a b c l) h s fun s =>
    let L := gVal s l
    match namedCore s L with
    | none => trapHere s cPROT L
    | some cc => withRoom s fun s => withOrder s true fun s =>
      let d := if L.toNat = (curT s).lcore then 0 else coreLat s (coreOf s.cur) cc.phys
      let (id, s1) := resultWait [.c c] (.request (.dsteal L.toNat a b c false)) (markCloser s)
      let s2 := putT s1 (modRes (curT s1) id fun r => { r with dst := [.g a, .g b, .c c], sentTo := some cc.phys })
      retire h (later s2 d (.remoteRequest s.cur id))

/-- A DSTEAL request is performed (R339, R340): the region closes with the step (R158); an entry taken gives its dwords to the
registers that no later instruction has written, which earlier results no longer write (R65). -/
def dstealRequest (s : State) (tk rid lcore : Nat) (a b : Fin 16) (c : Fin 32) : State :=
  let t := getT s tk
  match getCC s t.ctx lcore, findRes t rid with
  | some cc, some r =>
      let back := if lcore = t.lcore then 4 else coreLat s cc.phys (coreOf tk) + 1
      let give := fun (s : State) (vals : List RegW) (v : Option View) =>
        later (modT s tk fun t => modRes t rid fun r => { r with vals := vals, wait := .none, join := v }) back (.resultReturn tk rid)
      (match (if cc.dqEn then dequeOf s (ccKey t.ctx lcore) cc else .ok (0, 1)) with
        | .error n =>
          takeTrap (modT s tk fun t => { t with res := t.res.filter fun x => x.id != rid }) tk
            { cause := cDQERR, tval := w64 (n * 256), epc := r.pc }
        | .ok (loc, cap) =>
          let (s1, got) := dstealStep (closeRegion s tk) tk cc loc cap
          match got with
          | some (x, y, v) =>
            let keep := fun (z : RegId) => !((z == .g a || z == .g b) && r.dst.contains z)
            let older := fun (q : Res) => if q.id < rid then { q with dst := q.dst.filter keep } else q
            give (modT s1 tk fun t => { t with res := t.res.map older }) [.g a x, .g b y, .c c true] (some v)
          | none => give s1 [.c c false] none)
  | _, _ => s

/-! ### Stream routes (R341 to R344) -/

/-- A stream port of a core. -/
def portAt (s : State) (core : Nat) (p : Fin 4) : Port := (coreAt s core).ports[p]

/-- The bytes a word of a kind takes in a port's buffer. -/
def wordBytes (vec : Bool) : Nat := if vec then 256 else 8

/-- The routes of a port. -/
def portRoutes (p : Port) : List Route := p.held.toList ++ p.waits ++ p.coming

/-- Change the route of a name in a port. -/
def mapRoute (p : Port) (id : Nat) (f : Route → Route) : Port :=
  let g := fun r : Route => if r.id = id then f r else r
  { p with held := p.held.map g, waits := p.waits.map g, coming := p.coming.map g }

/-- Threads held at a stream send of a context try again. -/
def wakeSenders (s : State) (c : Nat) : State :=
  { s with threads := s.threads.map fun e =>
      if e.2.ctx = c ∧ e.2.block = .port then (e.1, { e.2 with block := .free }) else e }

/-- STRMERR (R344). -/
def strmErr (s : State) (reason p : Nat) : State := trapHere s cSTRMERR (w64 (reason * 256 + p))

/-- The core and port where a route stands: where it was sent, or where its core context has moved. -/
def findRoute (s : State) (core id : Nat) : Option (Nat × Fin 4 × Route) :=
  let at_ := fun (c : Nat) => (List.finRange 4).findSome? fun p =>
    ((portRoutes (portAt s c p)).find? fun r => r.id == id).map fun r => (c, p, r)
  match at_ core with
  | some x => some x
  | none => s.cores.findSome? fun e => at_ e.1

/-- The waits of a context's threads for a word at a port of their core, oldest first. -/
def srecvWaits (s : State) (c core : Nat) (p : Fin 4) : List (Nat × Res) :=
  let ws := (threadsOf s c).flatMap fun tk =>
    if coreOf tk = core then (getT s tk).res.filterMap fun r => match r.wait with
      | .srecv q _ => if q = p.val then some (tk, r) else none
      | _ => none
    else []
  ws.foldr (fun w acc => (acc.takeWhile fun z => z.2.id < w.2.id) ++ [w] ++ (acc.dropWhile fun z => z.2.id < w.2.id)) []

/-- Take the next word of a port's held route (R341, R343): the word and its last mark. The last frees the port. -/
def takeWord (s : State) (core : Nat) (p : Fin 4) : Option (Vec × Bool) × State :=
  match (portAt s core p).held with
  | some r =>
    (match r.words with
      | (x, last) :: rest =>
        let s1 := wakeSenders s r.ctx
        if last then
          (some (x, last), later (modPort s1 core p.val fun q => { q with held := none }) 0 (.streamRouteAdmit core p.val))
        else (some (x, last), modPort s1 core p.val fun q => { q with held := some { r with words := rest } })
      | [] => (none, s))
  | none => (none, s)

/-- The values of SRECV's result. -/
def srecvVals (dst : List RegId) (x : Vec) (last : Bool) : List RegW :=
  dst.filterMap fun r => match r with
    | .g d => some (.g d (x.setWidth 64))
    | .v d => some (.v d x)
    | .c d => some (.c d !last)

/-- The word at the head of a port goes to the oldest wait for it (R343), whose thread's region closes as it takes it (R158); a
wait of the other class traps (R344). None: no word, or no wait. -/
def feedOne (s : State) (core : Nat) (p : Fin 4) : Option State :=
  (portAt s core p).held.bind fun r =>
    if r.words = [] then none
    else (srecvWaits s r.ctx core p).head?.bind fun w =>
      match w.2.wait with
      | .srecv _ toV =>
        if toV ≠ r.vec then
          some (takeTrap (modT s w.1 fun t => { t with res := t.res.filter fun x => x.id != w.2.id }) w.1
            { cause := cSTRMERR, tval := w64 (4 * 256 + p.val), epc := w.2.pc })
        else
          (match takeWord s core p with
            | (some (x, last), s1) => some (finishWait (closeRegion s1 w.1) w.1 w.2.id (srecvVals w.2.dst x last) evSTRM none 1)
            | (none, _) => none)
      | _ => none

/-- At most n waits fed, the oldest first. -/
def feedN : Nat → State → Nat → Fin 4 → State
  | 0, s, _, _ => s
  | n + 1, s, core, p =>
    match feedOne s core p with
    | some s1 => feedN n s1 core p
    | none => s

/-- The words at a port go to the waits for them (R343). -/
def feedPort (s : State) (core : Nat) (p : Fin 4) : State :=
  match (portAt s core p).held with
  | some r => feedN (srecvWaits s r.ctx core p).length s core p
  | none => s

/-- A word that arrives at a core latches STRM for the receiving context's threads there, and what the port's route has ends
waits (R343). -/
def wordsIn (s : State) (core : Nat) (p : Fin 4) (c : Nat) : State :=
  feedPort (((threadsOf s c).filter fun tk => coreOf tk == core).foldl (fun s tk => latch s tk evSTRM) s) core p

/-- Whether a port takes an opening word. -/
def portFree (p : Port) : Bool := p.held.isNone && !p.chain && p.waits == []

/-- A word of a route to a saved core context is held with it, and STRM latches in its threads' saved EVT (R363). -/
def savedWord (s : State) (id : Nat) : State :=
  let land := fun (r : Nat × Route) =>
    if r.2.id = id then (r.1, { r.2 with arrived := true, words := r.2.words ++ r.2.flying.take 1, flying := r.2.flying.drop 1 })
    else r
  let mine := fun (x : Saved) => x.routes.any fun r => r.2.id == id
  let take := fun (x : Saved) => if mine x then { x with routes := x.routes.map land } else x
  let s1 := { s with cctxs := mmap (fun _ cc => { cc with saved := cc.saved.map take }) s.cctxs }
  latchSaved s1 (fun key _ _ => ((mget s1.cctxs key).bind (·.saved)).any mine) evSTRM

/-- STREAM_WORD_ARRIVE (R341): the next word of a route reaches its port; an opening word takes the port or waits. A
core context that is not resident holds its words. -/
def execStreamWordArrive (core _port route : Nat) (s : State) : Outcome State Fault Refusal :=
  .next <|
    match findRoute s core route with
    | none => savedWord s route
    | some (c, p, r) =>
      match r.flying with
      | [] => s
      | w :: fl =>
        let r1 := { r with arrived := true, words := r.words ++ [w], flying := fl }
        if r.arrived then
          wordsIn (modPort s c p.val fun q => mapRoute q route fun _ => r1) c p r.ctx
        else
          let q := portAt s c p
          let q1 := { q with coming := q.coming.filter fun x => x.id != route }
          let q2 : Port := if portFree q then { q1 with held := some r1 } else { q1 with waits := q1.waits ++ [r1] }
          wordsIn (modPort s c p.val fun _ => q2) c p r.ctx

/-- STREAM_ROUTE_ADMIT (R341): the opening word that arrived first takes a free port. -/
def execStreamRouteAdmit (core port : Nat) (s : State) : Outcome State Fault Refusal :=
  .next <|
    let p : Fin 4 := ⟨port % 4, Nat.mod_lt _ (by decide)⟩
    let q := portAt s core p
    match q.waits with
    | r :: rest =>
      if q.held.isSome ∨ q.chain then s
      else feedPort (modPort s core p.val fun _ => { q with held := some r, waits := rest }) core p
    | [] => s

/-- Whether the operand of a stream send is a vector. -/
def GIV.isVec : GIV → Bool
  | .v _ => true
  | _ => false

/-- SSEND (R342): opens or continues the core context's route to a port; without room it is held. -/
def execSsend (h : Hdr) (cl : Bool) (l : Fin 16) (p : Fin 4) (a : GIV) (s : State) : Outcome State Fault Refusal :=
  issueC (.ssend h cl l p a) h s fun s => withVRegs (.ssend h cl l p a) (givRegs a) s fun s =>
    let L := gVal s l
    let t := curT s
    match namedCore s L with
    | none => trapHere s cPROT L
    | some cc =>
      let q := portAt s cc.phys p
      if cc.cst = .saving ∨ cc.cst = .saved then retry s
      else if unitState s.cmap clsCore cc.phys = 3 then
        (let (cause, ver) := lostTrap (ctxD s t.ctx).ackv (sinceOf s.cmap clsCore cc.phys)
         trapHere s cause ver)
      else if q.chain then strmErr s 2 p.val
      else
        let vec := GIV.isVec a
        let w := (putVal s a, cl)
        let d := coreLat s (coreOf s.cur) cc.phys
        match (portRoutes q).find? fun r => r.ctx == t.ctx && r.lcore == t.lcore && !r.closed with
        | some r =>
          if r.vec ≠ vec then strmErr s 3 p.val
          else if 512 < (r.words.length + r.flying.length + 1) * wordBytes vec then
            putT s { t with block := .port }
          else
            let s1 := modPort (closeCur s) cc.phys p.val fun q => mapRoute q r.id fun r =>
              { r with flying := r.flying ++ [w], closed := cl }
            retire h (later s1 d (.streamWordArrive cc.phys p.val r.id))
        | none =>
          let (id, s1) := newId (closeCur s)
          let r : Route := { id := id, ctx := t.ctx, lcore := t.lcore, vec := vec, closed := cl, flying := [w] }
          let s2 := modPort s1 cc.phys p.val fun q => { q with coming := q.coming ++ [r] }
          retire h (later s2 d (.streamWordArrive cc.phys p.val id))

/-- The register of a scalar or vector destination. -/
def GV.reg : GV → RegId
  | .g r => .g r
  | .v r => .v r

/-- SRECV (R343): the next word of the own core's port, or a wait for it. -/
def execSrecv (h : Hdr) (d : GV) (c : Fin 32) (p : Fin 4) (s : State) : Outcome State Fault Refusal :=
  issueC (.srecv h d c p) h s fun s => withVRegs (.srecv h d c p) (gvRegs d) s fun s => withRoom s fun s =>
    let core := coreOf s.cur
    let q := portAt s core p
    let dst : List RegId := [GV.reg d, .c c]
    let toV := match d with
      | .v _ => true
      | .g _ => false
    if q.chain then strmErr s 2 p.val
    else
      let wait := fun (s : State) => retire h (resultWait dst (.srecv p.val toV) (markCloser s)).2
      match q.held with
      | none => wait s
      | some r =>
        if r.ctx ≠ (curT s).ctx then strmErr s 1 p.val
        else if r.vec ≠ toV then strmErr s 4 p.val
        else if r.words = [] ∨ srecvWaits s r.ctx core p ≠ [] then wait s
        else
          match takeWord (closeCur s) core p with
          | (some (x, last), s1) => waitNow h (srecvVals dst x last) evSTRM none s1
          | (none, s1) => wait s1

end Sys2Proof.Machine
end

