-- ==== Sys2Proof/Machine/Paging.lean ====
section
/-!
DEFINITION. Translation system work: the end of a walk (R300 to R304), the prefetcher (R306, R307), shootdowns (R311),
TLBI (R370) and PGREF (R309 to R311).
-/

namespace Sys2Proof.Machine

open Host

/-! ### Waking (R305, R311) -/

/-- Wake the threads and jobs that wait on a fault of a context whose page and cause satisfy a test. -/
def wakeFaults (s : State) (c : Nat) (p : Nat → Nat → Bool) : State :=
  let ths := s.threads.map fun e => match e.2.block with
    | .fault c' page cause => if c' = c ∧ p page cause then (e.1, { e.2 with block := .free }) else e
    | _ => e
  let qs := s.queues.map fun e => match e.2.stalled with
    | some (c', page, cause) => if c' = c ∧ p page cause then (e.1, { e.2 with stalled := none }) else e
    | none => e
  pumpQueues { s with threads := ths, queues := qs }

/-! ### The end of a walk (R300, R301) -/

/-- The entries of a kind that a cluster's TLB holds (R301): 2,048 page translations and 64 ranges. -/
def tlbSize (range : Bool) : Nat := if range then 64 else 2048

/-- Fill a cluster's TLB; where no entry of the kind is free, one of the tape's choice goes (R301, log 11). -/
def tlbFill (s : State) (cl : Nat) (e : TlbE) : State :=
  let t := (clusterAt s cl).tlb.filter fun x => !(x.ctx == e.ctx && x.page == e.page && x.range == e.range)
  let kind := t.filter fun x => x.range == e.range
  if kind.length < tlbSize e.range then setCluster s cl { clusterAt s cl with tlb := t ++ [e] }
  else
    let (k, s1) := takeDelay s (tlbSize e.range)
    setCluster s1 cl { clusterAt s1 cl with tlb := t.filter (fun x => some x != kind[k]?) ++ [e] }

/-- The TLB entry that a walk's result makes (R301): a contiguous range takes a range entry, a page of a page array a page
entry. -/
def entryOf (s : State) (c va pa : Nat) (w x cow : Bool) : TlbE :=
  let page : TlbE := { ctx := c, page := pageOf va, pa := pa - va % 65536, w := w, x := x, cow := cow }
  match findLeaf s va 8 (nbits (ctxD s c).troot.toNat 43 0 * 256) with
  | .ok e =>
    if nbits e 124 124 = 1 then page
    else { ctx := c, page := nbits e 119 80, pa := nbits e 35 0 * 65536, w := w, x := x, cow := cow, range := true,
           pages := nbits e 79 40 + 1 }
  | .error _ => page

/-- A thread's walk has ended (R300 to R304): it tries again, or it faults. -/
def endWalk (s : State) (tk : Nat) : State :=
  let t := getT s tk
  match t.block with
  | .walk va write fetch =>
    let s1 := setT s tk { t with block := .walked }
    let fault := fun (cause reason : Nat) =>
      raiseFault (if fetch then modT s1 tk entryAtTarget else s1) tk va cause reason write fetch
    (match walk s t.ctx va with
      | .ok _ _ _ _ => s1
      | .fault r => fault 0x30 r
      | .second => fault 0x30 2
      | .poison _ => fault 0x33 0)
  | _ => s

/-- A walker is free (R301): it takes the miss that has waited longest. -/
def freeWalker (s : State) (cl : Nat) (w : Nat × Nat × Nat) : State :=
  let c := clusterAt s cl
  let s1 := setCluster s cl { c with walks := c.walks.erase w }
  match c.missQ with
  | [] => s1
  | k :: r => beginWalk (setCluster s1 cl { clusterAt s1 cl with missQ := r }) cl k

/-- The translation that a walk's end puts into a cluster's TLB, and the corrected errors of its reads (R300, R295). -/
def fillFrom (s : State) (cl c va : Nat) : State :=
  let s1 := countCorrected s (walkReads s c va)
  match walk s1 c va with
  | .ok pa w x cow => tlbFill s1 cl (entryOf s1 c va pa w x cow)
  | _ => s1

/-- TLB_WALK (R300 to R304): the translation enters the TLB, and every thread of the cluster that waits for the walk of the
page tries again, or faults; the walk goes on although the thread whose miss began it has been discarded since. -/
def execTlbWalk (tk : Nat) (s : State) : Outcome State Fault Refusal :=
  .next <|
    let cl := coreOf tk / 8
    match (clusterAt s cl).walks.find? fun w => w.1 == tk with
    | none => s
    | some w => freeWalker ((walkers s cl w.2.1 (pageOf w.2.2)).foldl endWalk (fillFrom s cl w.2.1 w.2.2)) cl w

/-! ### Shootdown (R311, R370) -/

/-- Whether an entry of a store buffer was issued on a page that satisfies a test. -/
def onPage (p : Nat → Bool) : BufItem → Bool
  | .write _ sec _ _ => p (sec * 32 / 65536)
  | .mark _ _ => false

/-- Close a region for the device, without discard: the run is not marked. -/
def closeQuiet (s : State) (tk : Nat) : State :=
  let r := (getT s tk).run
  modT (closeRegion s tk) tk fun t => { t with run := r }

/-- Whether an instruction held for buffer room has writes on pages. -/
def heldOn (p : Nat → Bool) (t : Thread) : Bool := t.held.any fun e => e.ws.any fun w => p (w.1 * 32 / 65536)

/-- Let every write of a held instruction into the buffer. -/
def enterHeld (s : State) (tk : Nat) : State :=
  match (getT s tk).held with
  | some e => modT (e.ws.foldl (fun s w => issueStore s tk w.1 w.2) s) tk fun t => { t with held := some { e with ws := [] } }
  | none => s

/-- Perform the writes of a thread that pages translate (R311, step 2), a held instruction's with them. -/
def drainPages (s : State) (tk : Nat) (p : Nat → Bool) : State :=
  let s0 := if heldOn p (getT s tk) then enterHeld s tk else s
  let s1 := if (getT s0 tk).buf.any fun b => b.opened && onPage p b then closeQuiet s0 tk else s0
  drainWhere s1 tk (onPage p)

/-- Perform every buffered write of the records in an inbox that satisfy a test. -/
def drainInbox (s : State) (core : Nat) (q : Mig → Bool) : State :=
  (coreAt s core).inbox.foldl (fun s m =>
    if q m then
      m.th.buf.foldl (fun s b => match b.id? with
        | some id => drainInInbox s core id
        | none => s) s
    else s) s

/-- Whether a page lies in one of the runs of pages (first, count). -/
def inRuns (ps : List (Nat × Nat)) (page : Nat) : Bool := ps.any fun r => decide (r.1 ≤ page ∧ page < r.1 + r.2)

/-- Whether a TLB entry translates a page of one of the runs. -/
def TlbE.meets (e : TlbE) (ps : List (Nat × Nat)) : Bool :=
  ps.any fun r => decide (max r.1 e.page < min (r.1 + r.2) (e.page + e.pages))

/-- Every cluster drops the translations of runs of pages of the contexts that satisfy a test (R311, step 1). -/
def dropTlbs (s : State) (cOk : Nat → Bool) (ps : List (Nat × Nat)) : State :=
  { s with clusters := mmap (fun _ c => { c with tlb := c.tlb.filter fun e => !(cOk e.ctx && e.meets ps) }) s.clusters }

/-- Steps 1 and 2 of R311 for runs of pages of the contexts that satisfy a test. -/
def shootdown (s : State) (cOk : Nat → Bool) (ps : List (Nat × Nat)) : State :=
  let p := inRuns ps
  let s1 := dropTlbs s cOk ps
  let s2 := (s1.threads.filter fun e => cOk e.2.ctx && (e.2.buf.any (onPage p) || heldOn p e.2)).foldl (fun s e => drainPages s e.1 p) s1
  let s3 := s2.ctxs.foldl (fun s e =>
    if cOk e.1 then e.2.drain.foldl (fun s d => (d.2.filter (onPage p)).foldl (fun s b => match b.id? with
      | some id => drainLeft s e.1 d.1 id
      | none => s) s) s
    else s) s2
  (s3.cores.map (·.1)).foldl (fun s c => drainInbox s c fun m => cOk m.th.ctx && m.th.buf.any (onPage p)) s3

/-- Shoot down runs of pages of a context, or of every one; PGREF wakes the waiters too (R311, R370). -/
def shootPages (s : State) (c : Option Nat) (ps : List (Nat × Nat)) (wake : Bool) : State :=
  let s1 := shootdown s (fun x => match c with
    | some y => x == y
    | none => true) ps
  match c, wake with
  | some y, true => wakeFaults s1 y fun page _ => inRuns ps page
  | _, _ => s1

/-! ### The prefetcher (R306, R307) -/

/-- The leaf slot of a paged range that holds an address in a context (R310). -/
def pagedRange (s : State) (c va : Nat) : Option Nat :=
  let x := ctxD s c
  if x.troot = 0 ∨ windowOf va ≠ .translated then none
  else match findLeaf s va 8 (nbits x.troot.toNat 43 0 * 256) with
    | .ok e => if nbits e 124 124 = 1 then some e else none
    | .error _ => none

/-- The address of the page entry of an address, in a paged range. -/
def pteOf (s : State) (c va : Nat) : Option Nat := (pagedRange s c va).map fun e => pteAddr e va

/-- The page entry k of a range. -/
def pteAt (s : State) (e k : Nat) : Nat := memN s (nbits e 39 0 * 4096 + 8 * k) 8

/-- Resident pages of the aligned span of n pages that holds page p, in a range of m pages. -/
def residentIn (s : State) (e m p n : Nat) : Nat :=
  (natsWhere n fun k => decide (p / n * n + k < m) && nbits (pteAt s e (p / n * n + k)) 63 63 == 1).length

/-- The span of R306: doubled while the resident fraction allows it. -/
def prefetchSpan (s : State) (e m p thr : Nat) : Nat → Nat → Nat
  | 0, sp => sp
  | fuel + 1, sp =>
    if thr * (2 * sp) ≤ residentIn s e m p (2 * sp) * 16 then prefetchSpan s e m p thr fuel (2 * sp) else sp

/-- Copy a frame of 64 KiB, sector by sector (R307). -/
def copyFrame (s : State) (src dst : Nat) : State :=
  (List.range 2048).foldl (fun s k =>
    (append s ((locsFrom (dst * 65536 + 32 * k) 32).zip (Memory.readN s.mem (src * 65536 + 32 * k) 32)) none).2) s

/-- Write a dword by the device in one step at its home (R307, R310). -/
def putDword (s : State) (pa : Nat) (x : Word) : State := (append s ((locsFrom pa 8).zip (bytesLE 8 x.toNat)) none).2

/-! ### TLBI (R370) -/

/-- Whether a context is live: accepted, not ended and not being killed. -/
def liveCtx (s : State) (c : Nat) : Bool := match getCtx s c with
  | some x => x.run != .dying
  | none => false

/-- The context a register names, which must be live (R368). -/
def withCtx (s : State) (gc : Fin 16) (eff : Nat → State → State) : State :=
  let c := (gVal s gc).toNat % 65536
  if liveCtx s c then eff c s else trapHere s cPROT (gVal s gc)

/-- Delay of a shootdown (R311): within 1,024 clocks. -/
def shootDelay (s : State) : Nat × State :=
  let (d, s1) := takeDelay s 1023
  (d + 1, s1)

/-- A TLBI of pages: the thread is held until it is done. -/
def tlbi (h : Hdr) (c : Option Nat) (ps : List (Nat × Nat)) (s : State) : State :=
  withRoom s fun s =>
    let (d, s1) := shootDelay (closeCur s)
    let (id, s2) := resultWait [] (.request (.shoot c ps false)) s1
    let s3 := retire h s2
    later (putT s3 { curT s3 with block := .device }) d (.remoteRequest s3.cur id)

/-- Every page of a context. -/
def allPages : List (Nat × Nat) := [(0, 2 ^ 48)]

/-- TLBI.CTX (R370). -/
def execTlbiCtx (h : Hdr) (c : Fin 16) (s : State) : Outcome State Fault Refusal :=
  issueL 1 (.tlbiCtx h c) h s fun s => withCtx s c fun c s => tlbi h (some c) allPages s

/-- TLBI.PG (R370). -/
def execTlbiPg (h : Hdr) (c v : Fin 16) (s : State) : Outcome State Fault Refusal :=
  issueL 1 (.tlbiPg h c v) h s fun s => withCtx s c fun c s => tlbi h (some c) [(pageOf (gVal s v).toNat, 1)] s

/-- TLBI.RNG (R370). -/
def execTlbiRng (h : Hdr) (c v n : Fin 16) (s : State) : Outcome State Fault Refusal :=
  issueL 1 (.tlbiRng h c v n) h s fun s => withCtx s c fun c s =>
    tlbi h (some c) [(pageOf (gVal s v).toNat, bitsOf (gVal s n) 31 0)] s

/-- TLBI.ALL (R370). -/
def execTlbiAll (h : Hdr) (s : State) : Outcome State Fault Refusal :=
  issueL 1 (.tlbiAll h) h s (tlbi h none allPages)

/-! ### PGREF (R309 to R311) -/

/-- The poisoned line that R300's steps meet on the way to the page entry of an address. -/
def poisonOnWay (s : State) (c va : Nat) : Option Nat :=
  let x := ctxD s c
  if x.troot = 0 ∨ windowOf va ≠ .translated then none
  else match findLeaf s va 8 (nbits x.troot.toNat 43 0 * 256) with
    | .ok e => if nbits e 124 124 = 1 ∧ linePoison s (pteAddr e va) then some (pteAddr e va / 256) else none
    | .error (.poison line) => some line
    | .error _ => none

/-- The page entry's address of a register's virtual address, in a paged range (R310). A walk that meets poison fails with
PTPOISON for the context walked, which is purged (R308), and finds no entry (log 45). -/
def withPte (s : State) (c : Nat) (v : Word) (eff : Nat → State → State) : State :=
  match poisonOnWay s c v.toNat with
  | some line => trapHere (poisonFault s (dieOf (routerOf (coreOf s.cur))) c (coreOf s.cur % 4096) line 0) cPROT v
  | none => match pteOf s c v.toNat with
    | some a => eff a s
    | none => trapHere s cPROT v

/-- The rest of a PGREF after its entry writes (R311): the shootdown and wake-up, and then the result. -/
def pgrefRest (h : Hdr) (vals : List RegW) (c : Nat) (vs : List Word) (s : State) : State :=
  let (d, s1) := shootDelay s
  let (id, s2) := resultWait (vals.map RegW.reg) (.request (.shoot (some c) (vs.map fun v => (pageOf v.toNat, 1)) true)) s1
  let s3 := putT s2 (modRes (curT s2) id fun r => { r with vals := vals })
  retire h (later s3 d (.remoteRequest s3.cur id))

/-- A page entry as a word. -/
def pteWord (s : State) (a : Nat) : Word := w64 (memN s a 8)

/-- PGREF.Q (R310): the entry, without a shootdown. -/
def execPgrefQ (h : Hdr) (d c v : Fin 16) (s : State) : Outcome State Fault Refusal :=
  issueL 1 (.pgrefQ h d c v) h s fun s => withRoom s fun s => withCtx s c fun c s => withPte s c (gVal s v) fun a s => withOrder s false fun s =>
    let (n, s1) := memDelay (closeCur s)
    resultIn h n [.g d (pteWord s1 a)] s1

/-- Write a page entry by the executing thread in one ATOM-like step at the entry's home (R310, R150), its own stores there
having drained. -/
def writePte (s : State) (a : Nat) (x : Word) : State :=
  let locs := locsFrom a 8
  let (ts, s1) := append s (locs.zip (bytesLE 8 x.toNat)) none
  noteWriter (putT s1 { curT s1 with view := (curT s1).view.raises locs ts }) (curT s).ctx (coreOf s.cur) locs

/-- What an ATOM-like step on a page entry does first: the region closes, and the thread's stores over the entry drain. -/
def ptePrep (s : State) (a : Nat) : State := drainCovering (closeCur s) s.cur (locsFrom a 8)

/-- PGREF.RM (R310): replaces the entry. -/
def execPgrefRm (h : Hdr) (d c v e : Fin 16) (s : State) : Outcome State Fault Refusal :=
  issueL 1 (.pgrefRm h d c v e) h s fun s => withRoom s fun s => withCtx s c fun c s => withPte s c (gVal s v) fun a s => withOrder s false fun s =>
    let s1 := ptePrep s a
    pgrefRest h [.g d (pteWord s1 a)] c [gVal s v] (writePte s1 a (gVal s e))

/-- An entry marked copy-on-write with a reference count. -/
def sharedPte (x : Word) (m : Nat) : Word := putBits (putBits x 60 60 1) 59 52 m

/-- PGREF.SH (R310): maps a source's frame, both entries COW with REFS m. -/
def execPgrefSh (h : Hdr) (d c v sv : Fin 16) (n : GI) (s : State) : Outcome State Fault Refusal :=
  issueL 1 (.pgrefSh h d c v sv n) h s fun s => withRoom s fun s => withCtx s c fun c s => withPte s c (gVal s v) fun a s =>
      let m := bitsOf (giVal s n) 7 0
      if m = 0 then trapHere s cPROT (giVal s n)
      else withPte s c (gVal s sv) fun b s => withOrder s false fun s =>
        let s1 := ptePrep (ptePrep s a) b
        let old := pteWord s1 a
        let s2 := writePte s1 a (sharedPte (pteWord s1 b) m)
        pgrefRest h [.g d old] c [gVal s v, gVal s sv] (writePte s2 b (sharedPte (pteWord s2 b) m))

/-- PGREF.DR (R310): the entry becomes invalid. -/
def execPgrefDr (h : Hdr) (d c v : Fin 16) (s : State) : Outcome State Fault Refusal :=
  issueL 1 (.pgrefDr h d c v) h s fun s => withRoom s fun s => withCtx s c fun c s => withPte s c (gVal s v) fun a s => withOrder s false fun s =>
    let s1 := ptePrep s a
    pgrefRest h [.g d (pteWord s1 a)] c [gVal s v] (writePte s1 a (putBits (pteWord s1 a) 63 63 0))

/-- PGREF.ADJ (R310): REFS changes by a delta that keeps it in 0..255. -/
def execPgrefAdj (h : Hdr) (d c v : Fin 16) (delta : GI) (s : State) : Outcome State Fault Refusal :=
  issueL 1 (.pgrefAdj h d c v delta) h s fun s => withRoom s fun s => withCtx s c fun c s => withPte s c (gVal s v) fun a s => withOrder s false fun s =>
    let s1 := ptePrep s a
    let old := pteWord s1 a
    let k : Int := (bitsOf old 59 52 : Int) + (giVal s delta).toInt
    if k < 0 ∨ 255 < k then trapHere s cPROT (gVal s v)
    else pgrefRest h [.g d old] c [gVal s v] (writePte s1 a (putBits old 59 52 k.toNat))

/-- PGREF.WK (R310): no entry changes. -/
def execPgrefWk (h : Hdr) (c v : Fin 16) (s : State) : Outcome State Fault Refusal :=
  issueL 1 (.pgrefWk h c v) h s fun s => withRoom s fun s => withCtx s c fun c s =>
    pgrefRest h [] c [gVal s v] (closeCur s)

/-- PGREF.CLR (R310): removes a line from every poison list. -/
def execPgrefClr (h : Hdr) (d p : Fin 16) (s : State) : Outcome State Fault Refusal :=
  issueL 1 (.pgrefClr h d p) h s fun s => withRoom s fun s =>
    let line := bitsOf (gVal s p) 51 8
    let on_ := s.ptPoison.any fun e => e.2 == line
    let (n, s1) := memDelay (closeCur { s with ptPoison := s.ptPoison.filter fun e => e.2 != line })
    resultIn h n [.g d (if on_ then 1 else 0)] s1

end Sys2Proof.Machine
end

