-- ==== Sys2Proof/Machine/Room.lean ====
section
/-!
DEFINITION. What a launch reserves on a core and what room a core has (R50, R55, R289, R356): slots, scratchpad shares,
tracks and tiles; taking and releasing them, with SPSPLIT and VGROUP (R288, R290).
-/

namespace Sys2Proof.Machine

/-! ### The amounts of a launch (R49 to R51) -/

/-- Slots per core. -/
def pktSlots (p : Packet) : Nat := bitsOf p.place 38 36 + 1

/-- Tile registers per core. -/
def pktTiles (p : Packet) : Nat := bitsOf p.res 41 37

/-- Tracks per core. -/
def pktTracks (p : Packet) : Nat := bitsOf p.res 36 30

/-- Vector registers per slot. -/
def pktVregs (p : Packet) : Nat := [0, 8, 16, 32].getD (bitsOf p.res 29 28) 0

/-- Scratchpad bytes per core. -/
def pktSpad (p : Packet) : Nat := bitsOf p.res 24 16 * 1024

/-- Priority. -/
def pktPrio (p : Packet) : Nat := bitsOf p.ctl 17 16

/-- Deterministic mode. -/
def pktDet (p : Packet) : Bool := bitsOf p.ctl 0 0 == 1

/-- Lane count. -/
def pktLanes (p : Packet) : Nat := bitsOf p.ctl 34 20 + 1

/-! ### What a core holds -/

/-- The core contexts that hold reservations on a core, a move's target among them. -/
def ccsOn (s : State) (core : Nat) : List (Nat × CoreCtx) :=
  s.cctxs.filter fun e => (e.2.phys == core && e.2.cst != .saved) || e.2.target.any fun t => t.phys == core

/-- The scratchpad shares placed on a core: offset and size. -/
def sharesOn (s : State) (core : Nat) : List (Nat × Nat) :=
  s.cctxs.flatMap fun e =>
    (if e.2.phys = core ∧ e.2.cst ≠ .saved then [(e.2.shOff, e.2.shSize)] else []) ++
    (match e.2.target with
      | some t => if t.phys = core then [(t.shOff, e.2.shSize)] else []
      | none => [])

/-- Whether a share of a size fits at an offset beside others (R289). -/
def shareFits (shares : List (Nat × Nat)) (size off : Nat) : Bool :=
  decide (0x4000 ≤ off ∧ off + size ≤ 0x40000) && shares.all fun x => decide (off + size ≤ x.1 ∨ x.1 + x.2 ≤ off)

/-- The lowest free offset for a share (R289). -/
def placeShare (shares : List (Nat × Nat)) (size : Nat) : Option Nat :=
  ((0x4000 :: shares.map fun x => x.1 + x.2).filter (shareFits shares size)).min?

/-- The slots of a core that no core context reserves, and that take a placement in this clock (R68). -/
def freeSlotsOn (s : State) (core : Nat) : List Nat :=
  natsWhere 8 fun k =>
    let x := slotAt s (tkOf core k)
    x.ctx == 0 && x.occ == .free && x.lastPlaced.all fun p => decide (p + 16 ≤ s.clock)

/-- The tracks of a core that some core context names. -/
def namedTracks (s : State) (core : Nat) : List Nat :=
  s.cctxs.flatMap fun e => (if e.2.phys = core then e.2.tmap else []) ++ (match e.2.target with
    | some t => if t.phys = core then t.tmap else []
    | none => [])

/-- Whether a retirement of a resource is in progress (R39). -/
def retiring (s : State) (cls res : Nat) : Bool := s.retires.any fun r => r.cls == cls && r.res == res

/-- The unreserved live tracks of a core, ascending. -/
def freeTracks (s : State) (core : Nat) : List Nat :=
  let used := namedTracks s core
  natsWhere 64 fun t => inService s.cmap clsTrack (64 * core + t) && !retiring s clsTrack (64 * core + t) && !used.contains t

/-- The tile registers assigned in a cluster. -/
def tilesUsed (s : State) (cl : Nat) : Nat :=
  s.cctxs.foldl (fun a e =>
    if (e.2.phys / 8 = cl ∧ e.2.cst ≠ .saved) ∨ e.2.target.any (fun t => t.phys / 8 == cl) then
      a + pktTiles (ctxD s (e.1 / 4096)).pkt
    else a) 0

/-- Whether a core's issue mode permits a launch (R55). -/
def modeOk (s : State) (core : Nat) (det : Bool) : Bool :=
  (List.range 8).all fun k =>
    let c := (slotAt s (tkOf core k)).ctx
    c == 0 || pktDet (ctxD s c).pkt == det

/-- Whether a core takes new work: it is live and is not being retired. -/
def coreOpen (s : State) (core : Nat) : Bool := isCompute core && inService s.cmap clsCore core && !coreRetiring s core

/-- Whether a cluster's engine can serve a context's tiles (R238): it is in service, and free or its own. -/
def engineOpen (s : State) (cl c tiles : Nat) : Bool :=
  tiles == 0 || (inService s.cmap clsEngine cl && !retiring s clsEngine cl &&
    ((clusterAt s cl).holder.isNone || (clusterAt s cl).holder == some c) && decide (tilesUsed s cl + tiles ≤ 16))

/-! ### Taking and releasing -/

/-- Set SCRATCH of a core to the smallest value that holds the system area and its shares (R288). -/
def fixScratch (s : State) (core : Nat) : State :=
  let top := (sharesOn s core).foldl (fun a x => max a (x.1 + x.2)) 0x4000
  setCore s core { coreAt s core with scratch := max 1 (ceilDiv top 0x8000) }

/-- Set VGROUP of a cluster (R290). -/
def fixPool (s : State) (cl : Nat) : State :=
  let idle := natsWhere 8 fun k => (ccsOn s (8 * cl + k)) == []
  let d := idle.foldl (fun a k => a + 2 ^ k) 0
  setCluster s cl { clusterAt s cl with donors := BitVec.ofNat 8 d, users := BitVec.ofNat 8 (255 - d) }

/-- Settle a core's registers after a placement or a release. -/
def fixCore (s : State) (core : Nat) : State := fixPool (fixScratch s core) (core / 8)

/-- Reserve slots of a core for a core context (R55). -/
def takeSlots (s : State) (core c l : Nat) (slots : List Nat) : State :=
  slots.foldl (fun s k => setSlot s (tkOf core k)
    { slotAt s (tkOf core k) with ctx := c, lcore := l, vregs := pktVregs (ctxD s c).pkt }) s

/-- A slot that nothing reserves any more. One whose thread has left it for another core stays occupied until its acceptance
arrives (R85), and one that is being scrubbed until the scrub ends (R352); any other is free from this clock on (R84). -/
def unreserve (s : State) (tk : Nat) : State :=
  let x := slotAt s tk
  let left := (mget s.threads tk).any fun t => t.ctx == 0
  let x1 := { x with ctx := 0, lcore := 0, vregs := 0, home := 0 }
  if x.occ = .scrub ∨ left then setSlot s tk x1
  else setSlot { s with threads := mdel s.threads tk } tk { x1 with occ := .free, freed := some s.clock }

/-- Release the slots of a core that a core context reserves. -/
def dropSlots (s : State) (core c l : Nat) : State :=
  (List.range 8).foldl (fun s k =>
    let x := slotAt s (tkOf core k)
    if x.ctx = c ∧ x.lcore = l then unreserve s (tkOf core k) else s) s

/-- The slots of a core that a core context reserves, ascending. -/
def slotsOf (s : State) (core c l : Nat) : List Nat :=
  natsWhere 8 fun k => (slotAt s (tkOf core k)).ctx == c && (slotAt s (tkOf core k)).lcore == l

/-- A slot mask. -/
def maskOf (slots : List Nat) : BitVec 8 := BitVec.ofNat 8 (slots.foldl (fun a k => a + 2 ^ k) 0)

/-- The slots of a mask, ascending. -/
def slotsIn (m : BitVec 8) : List Nat := natsWhere 8 fun k => m.getLsbD k

/-- Whether a context still has core contexts with tiles in a cluster. -/
def holdsEngine (s : State) (c cl : Nat) : Bool := (ccsOf s c).any fun e => e.2.phys / 8 == cl

/-- Free a cluster's engine once its launch is gone from the cluster (R238). -/
def dropEngine (s : State) (c cl : Nat) : State :=
  if (clusterAt s cl).holder = some c ∧ !holdsEngine s c cl then
    setCluster s cl { clusterAt s cl with holder := none }
  else s

/-! ### Groups and room (R39, R265, R356) -/

/-- A member of a group: context, logical core, core context. -/
abbrev Member := Nat × Nat × CoreCtx

/-- The core contexts of a core, as members. -/
def membersOn (s : State) (core : Nat) : List Member :=
  (s.cctxs.filter fun e => e.2.phys == core).map fun e => (e.1 / 4096, e.1 % 4096, e.2)

/-- Whether two members name a common track. -/
def sharesTrack (a b : Member) : Bool := a.2.2.tmap.any fun t => b.2.2.tmap.contains t

/-- The shared-track set of CTL (R51). -/
def pktShCtx (p : Packet) : Nat := bitsOf p.ctl 63 48
def pktShBase (p : Packet) : Nat := bitsOf p.ctl 47 42
def pktShCnt (p : Packet) : Nat := bitsOf p.ctl 41 35

/-- Whether a launch names a shared-track set: SHCTX 0 is none (R51), and so is a set of no tracks (log 39). -/
def pktShares (p : Packet) : Bool := pktShCtx p != 0 && pktShCnt p != 0

/-- Whether a packet names a core by its rectangle and CMASK, or lets the device choose (R49). -/
def pktNames (p : Packet) (core : Nat) : Bool :=
  let r := core / 8
  let x := bitsOf p.place 3 0
  let y := bitsOf p.place 7 4
  bitsOf p.place 35 35 == 1 || (bitN p.place.toNat (40 + core % 8) &&
    decide (x ≤ rx r ∧ rx r ≤ x + bitsOf p.place 11 8 ∧ y ≤ ry r ∧ ry r ≤ y + bitsOf p.place 15 12))

/-- Whether a launch that names a core context's tracks as its shared set waits for that core (R265). -/
def sharerWaits (s : State) (m : Member) : Bool :=
  s.ctxs.any fun e => e.2.run == .waiting && pktShares e.2.pkt && pktShCtx e.2.pkt == m.1 && pktNames e.2.pkt m.2.2.phys

/-- Whether a core context is covered by R265: a track of its is named by another of its core, or by a launch that
waits for the core. -/
def coveredBy265 (s : State) (m : Member) : Bool :=
  ((membersOn s m.2.2.phys).any fun o => (o.1 != m.1 || o.2.1 != m.2.1) && sharesTrack m o) || sharerWaits s m

/-- The group of a member (R39): those linked to it by common tracks, on its core. -/
def groupOf (s : State) (m : Member) : List Member :=
  (List.range 8).foldl (fun g _ => (membersOn s m.2.2.phys).filter fun o => g.any fun x => (x.1 == o.1 && x.2.1 == o.2.1) || sharesTrack x o) [m]

/-- The distinct tracks of a group, in order. -/
def groupTracks (g : List Member) : List Nat := g.foldl (fun a m => m.2.2.tmap.foldl (fun a t => addNew t a) a) []

/-- The slots a member takes: none while it is saved. -/
def memberSlots (m : Member) : Nat := if m.2.2.cst = .saved then 0 else (slotsIn m.2.2.slots).length

/-- The tile registers a member reserves (R50); those of a saved one count for the core that a retirement names to it (R364). -/
def memberTiles (s : State) (m : Member) : Nat := pktTiles (ctxD s m.1).pkt

/-- Seats of a group on a core, member by member: from free slots, shares and the track map. -/
def seatMembers (core : Nat) (tmap : List (Nat × Nat)) : List Member → List Nat → List (Nat × Nat) → Option (List Seat)
  | [], _, _ => some []
  | m :: r, free, shares =>
    let n := memberSlots m
    if free.length < n then none
    else match (if m.2.2.cst = .saved then some 0 else placeShare shares m.2.2.shSize) with
      | none => none
      | some off =>
        let seat : Seat := { phys := core, shOff := off, slots := free.take n,
                             tmap := m.2.2.tmap.map fun t => ((tmap.find? fun e => e.1 == t).map (·.2)).getD t }
        (seatMembers core tmap r (free.drop n) ((off, m.2.2.shSize) :: shares)).map fun l => seat :: l

/-- Whether a core has room for a group (R356): the seats its members take there. -/
def roomFor (s : State) (core : Nat) (g : List Member) : Option (List Seat) :=
  let ts := groupTracks g
  let free := freeTracks s core
  let cl := core / 8
  let sumTiles := g.foldl (fun a m => a + memberTiles s m) 0
  if coreOpen s core && g.all (fun m => modeOk s core (pktDet (ctxD s m.1).pkt)) &&
      decide (ts.length ≤ free.length) &&
      g.all (fun m => memberTiles s m == 0 || ((clusterAt s cl).holder == some m.1 && inService s.cmap clsEngine cl)) &&
      (sumTiles == 0 || decide (tilesUsed s cl + sumTiles ≤ 16)) then
    seatMembers core (ts.zip free) g (freeSlotsOn s core) (sharesOn s core)
  else none

/-- The cores to try for a core context's move: its launch's cluster, then its polder, then the package (R356). -/
def moveOrder (core : Nat) : List Nat :=
  let cl := core / 8
  let near := natsWhere 2048 fun k => k / 8 == cl && k != core
  let pol := natsWhere 2048 fun k => k / 8 != cl && polderOf (routerOf k) == polderOf (routerOf core)
  let far := natsWhere 2048 fun k => polderOf (routerOf k) != polderOf (routerOf core)
  near ++ pol ++ far

/-- The first core with room for a group, in that order. -/
def findRoom (s : State) (g : List Member) : Option (Nat × List Seat) :=
  match g with
  | [] => none
  | m :: _ => (moveOrder m.2.2.phys).findSome? fun k => (roomFor s k g).map fun x => (k, x)

end Sys2Proof.Machine
end

