-- ==== Sys2Proof/Machine/Publish.lean ====
section
/-!
DEFINITION. The Construction Map: its image (R28 to R31), publication and delivery (R26, R32 to R36), acknowledgement
(R37), the grace window (R38), retirement's publication (R39, R43), loss (R40, R41), links, clock steps and capacity.
-/

namespace Sys2Proof.Machine

open Host

/-! ### Interrupts (R354, R407) -/

/-- Raise an interrupt of a service core or the Reeve: its bit latches, and a thread that can take it does (R407). -/
def raiseInt (s : State) (core n : Nat) : State := later (latchInt s core n) 0 (.interruptTake (tkOf core 0))

/-! ### Units and their dies -/

/-- The die of a resource, for the classes that lie on one. -/
def unitDie (cls res : Nat) : Option Nat :=
  if cls = clsCore then some (dieOf (routerOf res))
  else if cls = clsTrack then some (dieOf (routerOf (res / 64)))
  else if cls = clsEngine ∨ cls = clsCopy ∨ cls = clsSlice then some (dieOf res)
  else if cls = clsLink then some (dieOf (res / 4))
  else if cls = clsStack then some (res / 2)
  else if cls = clsDie then some res
  else none

/-- Whether a state code of a class is out of service (R29, R30). -/
def outOfService (cls st : Nat) : Bool := if cls = clsLink then st / 4 == 2 else decide (2 ≤ st)

/-- Whether some resource on a die is out of service. -/
def dieHurt (m : CMap) (d : Nat) : Bool := m.units.any fun e =>
  outOfService (e.1 / 2 ^ 32) e.2 && unitDie (e.1 / 2 ^ 32) (e.1 % 2 ^ 32) == some d

/-- STATE of a die (R30). -/
def dieState (m : CMap) (d : Nat) : Nat := if unitState m clsDie d = 3 then 3 else if dieHurt m d then 1 else 0

/-- Whether a track is out of service, its die's loss included. -/
def trackDead (m : CMap) (core t : Nat) : Bool :=
  !inService m clsTrack (64 * core + t) || unitState m clsDie (dieOf (routerOf core)) == 3

/-! ### The image (R28 to R31) -/

/-- The live compute cores below a test. -/
def liveCores (m : CMap) (p : Nat → Bool) : Nat := (natsWhere 2048 fun k => p k && inService m clsCore k).length

/-- A die entry. -/
def dieEntry (m : CMap) (d : Nat) : Nat := liveCores m (fun k => dieOf (routerOf k) == d) * 2 ^ 16 + dieState m d

/-- A polder entry. -/
def polderEntry (m : CMap) (p : Nat) : Nat :=
  capOf m p * 2 ^ 32 + mgetD m.stepN p 0 * 2 ^ 8 + unitState m clsStack p

/-- Whether a link of a router is on the package edge (R30). -/
def edgeLink (router dir : Nat) : Bool :=
  decide ((dir = 0 ∧ ry router = 15) ∨ (dir = 1 ∧ rx router = 15) ∨ (dir = 2 ∧ ry router = 0) ∨ (dir = 3 ∧ rx router = 0))

/-- The code of a mesh link, an edge link reading 0b1011 (R30). -/
def linkCode (m : CMap) (router dir : Nat) : Nat :=
  if edgeLink router dir then 0xB else unitState m clsLink (4 * router + dir)

/-- A cluster entry. -/
def clusterEntry (m : CMap) (r : Nat) : Nat :=
  linkCode m r 0 * 2 ^ 28 + linkCode m r 1 * 2 ^ 24 + linkCode m r 2 * 2 ^ 20 + linkCode m r 3 * 2 ^ 16 +
  unitState m clsSlice r * 2 ^ 12 + unitState m clsCopy r * 2 ^ 10 + unitState m clsEngine r * 2 ^ 8 +
  (natsWhere 8 fun k => inService m clsCore (8 * r + k)).foldl (fun a k => a + 2 ^ k) 0

/-- Byte n of the live-core map. -/
def liveByte (m : CMap) (n : Nat) : Nat :=
  (natsWhere 8 fun k => inService m clsCore (8 * n + k)).foldl (fun a k => a + 2 ^ k) 0

/-- A dead-track mask. -/
def trackMask (m : CMap) (core : Nat) : Nat := (natsWhere 64 (trackDead m core)).foldl (fun a t => a + 2 ^ t) 0

/-- A Strelmin or CXL entry. -/
def portEntry (m : CMap) (cls n : Nat) : Nat :=
  mgetD m.rate (unitKey cls n) 0 * 2 ^ 16 + mgetD m.aux (unitKey cls n) 0 * 2 ^ 8 + unitState m cls n

/-- A change record's bytes (R31). -/
def recBytes (r : ChangeRec) : List Byte :=
  bytesLE 8 r.version.toNat ++ bytesLE 4 (r.kind + r.cls * 2 ^ 8 + r.cause * 2 ^ 16) ++ bytesLE 4 r.res ++
  bytesLE 8 r.time.toNat ++ bytesLE 8 (r.old + r.new * 2 ^ 8)

/-- The record at an index, if one has been written. -/
def recAt (m : CMap) (i : Nat) : List Byte :=
  match m.recs.find? fun r => r.version.toNat % 32 == i with
  | some r => recBytes r
  | none => List.replicate 32 0

/-- Zero bytes. -/
def zeros (n : Nat) : List Byte := List.replicate n 0

/-- The map as its present version shows it (R32). -/
def CMap.shown (m : CMap) : CMap :=
  { m with units := m.imgUnits, cap := m.imgCap, stepN := m.imgStepN, rate := m.imgRate, aux := m.imgAux }

/-- The image of a map (R28). -/
def mapImage (m : CMap) : List Byte :=
  bytesLE 8 m.version.toNat ++ bytesLE 8 1 ++ bytesLE 8 m.sliceGen.toNat ++ bytesLE 8 m.time.toNat ++
  bytesLE 4 (liveCores m fun _ => true) ++ bytesLE 4 ((natsWhere 256 fun k => inService m clsSlice k).length) ++ zeros 24 ++
  (List.range 4).flatMap (fun d => bytesLE 4 (dieEntry m d)) ++ zeros 48 ++
  (List.range 8).flatMap (fun p => bytesLE 16 (polderEntry m p)) ++
  (List.range 256).flatMap (fun r => bytesLE 8 (clusterEntry m r)) ++
  (List.range 256).flatMap (fun n => bytesLE 1 (liveByte m n)) ++
  (List.range 2048).flatMap (fun k => bytesLE 8 (trackMask m k)) ++
  (List.range 16).flatMap (fun l => bytesLE 4 (portEntry m clsStrelmin l)) ++
  (List.range 3).flatMap (fun l => bytesLE 4 (portEntry m clsCxl l)) ++ zeros 52 ++
  (List.range 32).flatMap (recAt m) ++ zeros (32768 - 0x4E80)

/-! ### Publication (R26, R32) -/

/-- The base of the bank of a version (R25). -/
def bankBase (s : State) (v : Nat) : Nat := s.reeve.mapBase.toNat + 0x1000 + v % 2 * 0x8000

/-- Write the bank and release VERSION (R26): the release covers the bank. -/
def releaseMap (s : State) : State :=
  let v := s.cmap.version
  let base := bankBase s v.toNat
  let img := mapImage s.cmap.shown
  let s1 := (List.range 1024).foldl (fun s k =>
    (append s ((locsFrom (base + 32 * k) 32).zip ((img.drop (32 * k)).take 32)) none).2) s
  let o := s1.reeve.mapBase.toNat
  let w : View := { rng := [(base, base + 32768, s1.tsCtr)] }
  (append { s1 with rels := mset s1.rels o ((mgetD s1.rels o {}).join w), vers := mset s1.vers o (mgetD s1.vers o 0 + 1) }
    ((locsFrom o 8).zip (bytesLE 8 v.toNat)) none).2

/-- Whether a resource lies within a loss of another (a die's loss takes its units along). -/
def within (cls res : Nat) (lossCls lossRes : Nat) : Bool :=
  (cls == lossCls && res == lossRes) || (lossCls == clsDie && cls != clsStack && cls != clsLink && unitDie cls res == some lossRes)

/-- The units that a loss takes along. The service core of a lost die is not among them and goes on (log 48). -/
def lostUnits (cls res : Nat) : List (Nat × Nat) :=
  if cls = clsDie then
    (clsDie, res) :: ((natsWhere 256 fun r => dieOf r == res).flatMap fun r =>
      [(clsEngine, r), (clsCopy, r), (clsSlice, r)] ++ (List.range 8).map fun k => (clsCore, 8 * r + k))
  else [(cls, res)]

/-- Whether a change goes before another that fell due in the same clock (R32): ascending class, then resource. -/
def Due.before (a b : Due) : Bool := a.clock == b.clock && decide (a.cls < b.cls ∨ (a.cls = b.cls ∧ a.res < b.res))

/-- Put a change in its place among those still to be published. -/
def insertDue (d : Due) (l : List Due) : List Due := (l.takeWhile fun e => !d.before e) ++ [d] ++ l.dropWhile fun e => !d.before e

/-- The losses still to be published have the versions of their places (R32, R41). -/
def numbered (m : CMap) : CMap :=
  let v := m.version.toNat
  let losses := ((List.range m.pending.length).zip m.pending).filter fun e => e.2.kind == 2
  { m with since := losses.reverse.foldl (fun a e => (lostUnits e.2.cls e.2.res).foldl (fun a u =>
      if mgetD a (unitKey u.1 u.2) 0 ≤ v then a else mset a (unitKey u.1 u.2) (v + 1 + e.1)) a) m.since }

/-- A change falls due: it takes its place, and is published in its turn. -/
def announce (s : State) (kind cls cause res old new : Nat) : State :=
  let d : Due := { kind := kind, cls := cls, res := res, clock := s.clock }
  later { s with cmap := numbered { s.cmap with pending := insertDue d s.cmap.pending } } 0 (.mapPublish kind cls cause res old new)

/-- The slices of a resource. -/
def slicesOf (cls res : Nat) : List Nat :=
  if cls = clsSlice then [res] else if cls = clsDie then natsWhere 256 fun r => dieOf r == res else []

/-- Whether a change affects a context (R34): it holds the resource, or held it when its retirement began, or the resource
is shared package-wide. -/
def affects (s : State) (cls res : Nat) (held : List Nat) (c : Nat) : Bool :=
  decide (4 < cls) || held.contains c || (ccsOf s c).any fun e =>
    if cls = clsCore then e.2.phys == res
    else if cls = clsTrack then e.2.phys == res / 64 && e.2.tmap.contains (res % 64)
    else e.2.phys / 8 == res

/-- The highest slice-map generation among the losses that a version covers (R44). -/
def genOf (m : CMap) (w : Nat) : Nat := m.dead.foldl (fun a e => if sinceOf m clsSlice e.2 ≤ w then max a e.1 else a) 0

/-! ### Delivery (R35, R36) -/

/-- Where a thread of a context may stand: in a slot, in an inbox, in a save, or as a folded frame. -/
inductive Stand where
  | slot (tk : Nat)
  | inbox (core i : Nat)
  | saved (lcore k : Nat)
  | frame (chain : Nat)
  deriving DecidableEq, Repr

/-- The threads of a context, each with its lane. -/
def stands (s : State) (c : Nat) : List (Nat × Stand) :=
  ((threadsOf s c).map fun tk => ((getT s tk).lane.toNat, Stand.slot tk)) ++
  (s.cores.flatMap fun e => (e.2.inbox.zip (List.range e.2.inbox.length)).filterMap fun m =>
    if m.1.th.ctx = c then some (m.1.th.lane.toNat, Stand.inbox e.1 m.2) else none) ++
  ((ccsOf s c).flatMap fun e => match e.2.saved with
    | some x => x.threads.map fun t => (t.2.lane.toNat, Stand.saved e.1 t.1)
    | none => []) ++
  ((ctxD s c).chains.flatMap fun ch => ch.reps.filterMap fun r => r.frame.map fun t => (t.lane.toNat, Stand.frame ch.id))

/-- The stand with the lowest lane. -/
def lowestStand (l : List (Nat × Stand)) : Option (Nat × Stand) :=
  l.foldl (fun a x => match a with
    | some b => if x.1 < b.1 then some x else some b
    | none => some x) none

/-- Give a MAPEVT to a thread in a slot. One that has not been taken yet is the same MAPEVT (log 48). -/
def giveMapevt (s : State) (tk : Nat) : State := later (modT s tk fun t => { t with mapevt := true }) 0 (.mapevtTake tk)

/-- Deliver MAPEVT to a context (R36, R328): to its lowest lane, wherever that stands; a folded chain's frame through the
thread that runs. -/
def deliverMapevt (s : State) (c : Nat) : State :=
  match lowestStand (stands s c) with
  | none => s
  | some (_, .slot tk) => giveMapevt s tk
  | some (_, .inbox core i) =>
    let x := coreAt s core
    setCore s core { x with inbox := (x.inbox.zip (List.range x.inbox.length)).map fun m =>
      if m.2 = i then { m.1 with th := { m.1.th with mapevt := true } } else m.1 }
  | some (_, .saved l k) => modCC s c l fun cc => { cc with saved := cc.saved.map fun x =>
      { x with threads := mmap (fun k' t => if k' = k then { t with mapevt := true } else t) x.threads } }
  | some (_, .frame id) =>
    match (chainOf s c id).bind fun ch => ch.reps.findSome? (·.tk) with
    | some tk => giveMapevt s tk
    | none => s

/-- Hand map-changed tasks to the quadrants a context occupies (R35, R38). -/
def mapTasks (s : State) (c : Nat) (v : Word) (suspended : Nat) : State :=
  (quadsOf s c).foldl (fun s d => pushTask s d { code := 0x21, g1 := w64 c, g2 := v, g3 := w64 suspended }) s

/-- Start a context's grace window now (R33). -/
def startGrace (s : State) (c : Nat) : State :=
  let x := ctxD s c
  laterAt (setCtx s c { x with graceAt := some s.clock }) (s.clock + x.limit.toNat + 1) (.graceExpiry c)

/-- MAP_DELIVER (R34, R35): what a publication does for one context. -/
def mapDeliver (s : State) (c : Nat) (x : Ctx) (v : Word) (hit : Bool) : State :=
  if x.run = .waiting ∨ x.run = .dying then s
  else if !hit then
    setCtx s c { x with ackv := v, mapvec := v, graceAt := none, gen := max x.gen (genOf s.cmap v.toNat) }
  else
    let s1 := setCtx s c { x with mapvec := v }
    let s2 := if x.ackv = x.mapvec then startGrace s1 c else s1
    mapTasks (deliverMapevt s2 c) c v 0

/-! ### Routes of the domain (R389) -/

/-- The Strelmin links in service, ascending. -/
def liveStrelmin (m : CMap) : List Nat := natsWhere 16 fun l => inService m clsStrelmin l

/-- The packages one link on from some packages, over the other packages' links, and those packages. -/
def linked (mesh : List (Nat × Nat)) (ps : List Nat) : List Nat :=
  mesh.foldl (fun a e => if ps.contains e.1 then addNew e.2 a else if ps.contains e.2 then addNew e.1 a else a) ps

/-- The packages within n links of a package. -/
def within_ (mesh : List (Nat × Nat)) (p : Nat) : Nat → List Nat
  | 0 => [p]
  | n + 1 => linked mesh (within_ mesh p n)

/-- The links between two packages on the shortest path over the other packages' live links (log 20). -/
def linksTo (mesh : List (Nat × Nat)) (a b : Nat) : Option Nat := (List.range 64).find? fun n => (within_ mesh a n).contains b

/-- The first link of the route to a peer (R389): of the shortest paths over live links, the one by the lowest link; none where
no path reaches the peer. -/
def routeTo (m : CMap) (mesh : List (Nat × Nat)) (peer : Nat) : Option Nat :=
  ((liveStrelmin m).foldl (fun (a : Option (Nat × Nat)) l =>
    match linksTo mesh (mgetD m.aux (unitKey clsStrelmin l) 0) peer with
    | none => a
    | some n => match a with
      | some b => if n < b.1 then some (n, l) else a
      | none => some (n, l)) none).map (·.2)

/-- The route table of a domain. -/
def routeTable (m : CMap) (mesh : List (Nat × Nat)) (pkg : Nat) (members : List Nat) : Map Nat :=
  members.foldl (fun t p => if p = pkg then t else match routeTo m mesh p with
    | some l => mset t p l
    | none => t) []

/-- The route table follows the links. -/
def reroute (s : State) : State := { s with routes := routeTable s.cmap s.mesh s.pkg s.domain }

/-- The same link seen from its other end: router and direction. -/
def otherEnd (link : Nat) : Nat :=
  let r := link / 4
  match link % 4 with
  | 0 => 4 * (r + 16) + 2
  | 1 => 4 * (r + 1) + 3
  | 2 => 4 * (r - 16) + 0
  | _ => 4 * (r - 1) + 1

/-- Whether a location is a line homed at one of some slices, for a context's requests from a core (R42, R44). -/
def homedAt (s : State) (c core loc : Nat) (slices : List Nat) : Bool :=
  !isSram loc && regionOf loc != 4 && slices.contains (homeSlice s.cmap (genFor s c core) loc)

/-- The locations of a request that memory serves. -/
def Req.locs : Req → List Nat
  | .load _ loc _ _ => [loc]
  | .vload _ _ _ locs _ _ => locs
  | .acq _ loc => [loc]
  | .rel _ loc _ _ => [loc]
  | .atom _ loc _ _ _ _ _ => [loc]
  | _ => []

/-- The request to memory of a result that has left its core and is not answered: one still to be performed, or a read that has
been. -/
def Res.asks (r : Res) : Option Req :=
  match r.wait with
  | .none => r.again
  | .request q => if r.port then none else some q
  | _ => none

/-- The clock in which such a request gets to its line's home. -/
def reaches (s : State) (tk : Nat) (r : Res) (leg : Nat) : Nat :=
  if r.wait = .none then r.sent + leg
  else ((s.agenda.find? fun e => e.2 == .remoteRequest tk r.id).map (·.1)).getD 0

/-- A request gets to its line's home when that has gone (R45, R348): it is answered in the next clock without being
performed, and in the clock after the reply is back the requester goes on. -/
def sendBack (s : State) (tk : Nat) (r : Res) (q : Req) (slice : Option Nat) (due : Nat) : State :=
  let s1 := modT s tk fun t => modRes t r.id fun r => { r with vals := [], wait := .request q, rehash := slice }
  laterAt { s1 with agenda := s1.agenda.filter fun e => e.2 != .resultReturn tk r.id && e.2 != .remoteRequest tk r.id } due (.rehashReply tk r.id)

/-- The requests of threads that are still on their way to a target which satisfies a test, when it goes (R45, R348). -/
def overtake (s : State) (p : Nat → Thread → Nat → Bool) : State :=
  s.threads.foldl (fun s e => e.2.res.foldl (fun s r => match r.asks with
    | none => s
    | some q => match q.locs.find? (p e.1 e.2) with
      | none => s
      | some loc =>
        let home := homeRouter s (genFor s e.2.ctx (coreOf e.1)) loc
        let due := reaches s e.1 r (latency s.cmap (routerOf (coreOf e.1)) home)
        let slice := if isSram loc then none else some home
        if due ≤ s.clock then s
        else sendBack s e.1 r q slice (due + latency s.cmap home (routerOf (coreOf e.1)) + 2)) s) s

/-- A map entry carried over to the image, absent where it is absent. -/
def carry (key : Nat) (src dst : Map Nat) : Map Nat := match mget src key with
  | some x => mset dst key x
  | none => mdel dst key

/-- The units that a change of a resource alters: a loss of a die takes its units along, a mesh link has two ends. -/
def changedUnits (kind cls res : Nat) : List (Nat × Nat) :=
  if kind = 2 then lostUnits cls res else if cls = clsLink then [(cls, res), (cls, otherEnd res)] else [(cls, res)]

/-- The image takes a change with its version and no other change with it (R32): its units' new state, a stack's capacity or
step, a port's rate and peer. -/
def showChange (m : CMap) (kind cls res new : Nat) : CMap :=
  let k := unitKey cls res
  { m with
    imgUnits := (changedUnits kind cls res).foldl (fun u x => mset u (unitKey x.1 x.2) new) m.imgUnits
    imgCap := if kind = 5 then carry res m.cap m.imgCap else m.imgCap
    imgStepN := if kind = 6 then carry res m.stepN m.imgStepN else m.imgStepN
    imgRate := carry k m.rate m.imgRate
    imgAux := carry k m.aux m.imgAux }

/-- Publish a change (R26, R32): the next version, its record and image, and the notices after the release. A slice that
goes out of service leaves the slice map under a new generation; a line's requests in flight to a retired slice are rehashed
(R43 to R45). -/
def publish (s : State) (kind cls cause res old new : Nat) (held : List Nat) : State :=
  let m := s.cmap
  let v := m.version + 1
  let t := timerNow s
  let r : ChangeRec := { version := v, kind := kind, cls := cls, cause := cause, res := res, time := t, old := old, new := new }
  let gone := if kind = 1 ∨ kind = 2 then (slicesOf cls res).filter fun x => !m.dead.any fun e => e.2 == x else []
  let g := if gone = [] then m.sliceGen else m.sliceGen + 1
  let m1 : CMap := { m with
    version := v
    time := t
    sliceGen := g
    units := if kind = 1 then mset m.units (unitKey cls res) new else m.units
    since := if kind = 1 then mset m.since (unitKey cls res) v.toNat else m.since
    pending := m.pending.eraseP fun d => d.kind == kind && d.cls == cls && d.res == res
    recs := (m.recs.filter fun x => x.version.toNat % 32 != v.toNat % 32) ++ [r]
    dead := m.dead ++ gone.map fun x => (g.toNat, x) }
  let s0 := if kind = 1 then overtake s fun tk t loc => homedAt s t.ctx (coreOf tk) loc gone else s
  let s1 := releaseMap (reroute { s0 with cmap := showChange m1 kind cls res new })
  let s2 := if kind = 1 ∧ gone ≠ [] then { s1 with ctxs := mmap (fun _ x => { x with gen := g.toNat }) s1.ctxs } else s1
  let s3 := s2.ctxs.foldl (fun s e => mapDeliver s e.1 (ctxD s e.1) v (affects s cls res held e.1)) s2
  (List.range 4).foldl (fun s d => raiseInt s (0x800 + d) 3) s3

/-- The change whose turn it is, if it is another one: whether its step is due in this clock (R32). -/
def othersTurn (s : State) (kind cls res : Nat) : Option Bool :=
  match s.cmap.pending with
  | [] => none
  | d :: _ =>
    if d.kind = kind ∧ d.cls = cls ∧ d.res = res then none
    else some (s.agenda.any fun e => decide (e.1 ≤ s.clock) && (match e.2 with
      | .mapPublish k c _ r _ _ => k == d.kind && c == d.cls && r == d.res
      | _ => false))

/-- MAP_PUBLISH (R26, R32): a change is published in its turn; a loss after its purges (R40), and those that fell due later
after it (log 40). -/
def execMapPublish (kind class_ cause res old new : Nat) (s : State) : Outcome State Fault Refusal :=
  .next <|
    if !s.booted then s
    else match othersTurn s kind class_ res with
    | some soon_ => later s (if soon_ then 0 else 1) (.mapPublish kind class_ cause res old new)
    | none =>
      if kind = 2 && s.kills.any (fun k => k.status == 0x82) then later s 1 (.mapPublish kind class_ cause res old new)
      else match s.retires.find? fun r => r.cls == class_ && r.res == res with
      | some op => publish { s with retires := s.retires.filter (· != op) } kind class_ cause res old new op.held
      | none => if kind = 1 then s else publish s kind class_ cause res old new []

/-! ### Acknowledgement and the grace window (R37, R38) -/

/-- Acknowledge a version for a context (R37): the generation is adopted and ELAPSED restarts or stops. -/
def ackTo (s : State) (c : Nat) (w : Word) : State :=
  let x := ctxD s c
  let s1 := setCtx s c { x with ackv := w, graceAt := none, gen := max x.gen (genOf s.cmap w.toNat) }
  if w.toNat < x.mapvec.toNat then startGrace s1 c else s1

/-- The clocks that re-resolution takes (R369): 1 within one cluster, else the latency to the farthest core. -/
def resolveTime (s : State) (c core : Nat) : Nat :=
  let ps := (ccsOf s c).map fun e => e.2.phys
  if ps.all fun p => p / 8 == ps.headD 0 / 8 then 1
  else ps.foldl (fun a p => max a (coreLat s core p)) 0

/-- Whether a context to be suspended is still: no result but a wait is outstanding, and no job is in flight. -/
def ctxStill (s : State) (c : Nat) : Bool :=
  (s.threads.all fun e => e.2.ctx != c || e.2.res.all fun r => r.wait.isWait) &&
  (ccsOf s c).all fun e => inFlight s c e.1 == 0

/-- GRACE_EXPIRY (R38): the context is suspended; once it is still, its completion word reads suspended and the tasks are
handed. A context resumed since has its word restored (R374). -/
def execGraceExpiry (ctx : Nat) (s : State) : Outcome State Fault Refusal :=
  .next <|
    match getCtx s ctx with
    | none => s
    | some x =>
      if x.run = .running then
        (if x.told then
          (let (s1, ok) := postCompletion s ctx 0x00 {}
           if ok then modCtx s1 ctx fun x => { x with told := false } else later s1 1 (.graceExpiry ctx))
         else match x.graceAt with
          | some t0 =>
            if t0 + x.limit.toNat < s.clock then later (setCtx s ctx { x with run := .suspended }) 0 (.graceExpiry ctx) else s
          | none => s)
      else if x.run = .suspended ∧ !x.told then
        (if ctxStill s ctx then
          (let (s1, ok) := postCompletion s ctx 0x83 {}
           if ok then mapTasks (modCtx s1 ctx fun x => { x with told := true }) ctx x.mapvec 1
           else later s1 1 (.graceExpiry ctx))
         else later s 1 (.graceExpiry ctx))
      else s

/-- CTX.RES's effect (R374): acknowledge MAPVEC, and let a suspended context issue again. -/
def resumeCtx (s : State) (c : Nat) : State :=
  let s1 := ackTo s c (ctxD s c).mapvec
  if (ctxD s1 c).run = .suspended then
    later (modCtx s1 c fun x => { x with run := .running }) 0 (.graceExpiry c)
  else s1

/-- A live service core's die for the notices that name no queue: the lowest (log 40). -/
def noticeDie (s : State) : Nat := ((List.range 4).find? fun d => unitState s.cmap clsDie d != 3).getD 0

/-! ### Retirement of a slice (R43) -/

/-- SLICE_FLUSH (R43): the dirty lines are back in memory; the version follows. -/
def execSliceFlush (slice : Nat) (s : State) : Outcome State Fault Refusal :=
  .next <|
    match s.retires.find? fun r => r.cls == clsSlice && r.res == slice with
    | none => s
    | some r =>
      announce s 1 clsSlice r.cause slice r.old 2

/-! ### Links, clock steps, capacity (R30, R31, R41, R294) -/

/-- Hand a link-retrained task (R353). -/
def retrained (s : State) (cls res new : Nat) : State :=
  pushTask s (noticeDie s) { code := 0x22, g1 := w64 cls, g2 := w64 res, g3 := w64 new }

/-- MESH_LINK_CHANGE (R30, R41): a mesh link takes a code; both its ends read it. -/
def execMeshLinkChange (link code : Nat) (s : State) : Outcome State Fault Refusal :=
  .next <|
    let old := unitState s.cmap clsLink link
    if !s.booted || decide (1024 ≤ link ∨ 12 ≤ code) || edgeLink (link / 4) (link % 4) || old == code then s
    else
      let m := s.cmap
      let s1 := { s with cmap := { m with
        units := mset (mset m.units (unitKey clsLink (otherEnd link)) code) (unitKey clsLink link) code } }
      let kind := if old < code then 3 else 4
      announce (retrained s1 clsLink link code) kind clsLink (if kind = 3 then 6 else 8) link old code

/-- CLOCK_STEP (R31): a stack runs at a step; its record's cause is thermal (log 43). -/
def execClockStep (p step_ : Nat) (s : State) : Outcome State Fault Refusal :=
  .next <|
    let old := unitState s.cmap clsStack p
    if !s.booted || decide (8 ≤ p ∨ 4 ≤ step_ ∨ 2 ≤ old) || mgetD s.cmap.stepN p 0 == step_ then s
    else
      let m := s.cmap
      let new := if step_ = 0 ∧ capOf m p = Config.stackCap then 0 else 1
      announce { s with cmap := { m with stepN := mset m.stepN p step_, units := mset m.units (unitKey clsStack p) new } } 6 clsStack 4 p old new

/-- CAPACITY_WITHDRAWAL (R294, R30): a stack's usable capacity falls; its record's cause is the correctable-error rate
(log 43). -/
def execCapacityWithdrawal (p cap : Nat) (s : State) : Outcome State Fault Refusal :=
  .next <|
    let old := unitState s.cmap clsStack p
    if !s.booted || decide (8 ≤ p ∨ 2 ≤ old ∨ capOf s.cmap p ≤ cap) then s
    else
      let m := s.cmap
      announce { s with cmap := { m with cap := mset m.cap p cap, units := mset m.units (unitKey clsStack p) 1 } } 5 clsStack 2 p old 1

end Sys2Proof.Machine
end

