-- ==== Sys2Proof/Machine/Save.lean ====
section
/-!
DEFINITION. Moving and saving core contexts: stopping (R360), live migration (R357, R375, R272), berms (R358), the save
area and its writes (R359 to R361, R285), and resuming (R363, R364, R271).
-/

namespace Sys2Proof.Machine

open Host

/-! ### Stopping (R360, R375) -/

/-- Whether a result is a wait that a stop ends: not that of a synchronous job, which completes. -/
def breakable (r : Res) : Bool := r.wait.isWait && (match r.wait with
  | .job _ 0 _ => false
  | _ => true)

/-- A stopped thread's waits end without results, and a fault it waits on is met again when it resumes (R360). -/
def stopThread (t : Thread) : Thread :=
  let t1 := match t.block with
    | .fault _ _ _ => { t with block := .free }
    | _ => t
  match t1.res.find? breakable with
  | none => t1
  | some r => { t1 with
      res := t1.res.filter fun r => !breakable r
      broken := t1.broken ++ (t1.res.filter breakable).map (·.id)
      pc := r.pc
      ended := false
      entry := .none
      trapP := none }

/-- The thread of a slot, if one stands there; what a migrant has left behind is none (R85). -/
def standing (s : State) (tk : Nat) : Option Thread := (mget s.threads tk).filter fun t => t.ctx != 0

/-- The thread keys of a core context's reserved slots that hold threads. -/
def ccThreads (s : State) (c l : Nat) : List Nat :=
  match getCC s c l with
  | none => []
  | some cc => ((slotsOf s cc.phys c l).map (tkOf cc.phys)).filter fun tk => (standing s tk).isSome

/-- The run of a thread that is moved or saved inside it: a new one starts where the thread resumes (R64), and takes at its end
the deferred trap that the thread has met (R349, R350); instructions after a shadow disagreement stay suppressed. -/
def Run.movesOn (r : Run) : Run := if r.sdc.isSome then r else { r with live := false, closer := false }

/-- Stop a core context's slots (R360, step 1; R357, step 1). -/
def stopCC (s : State) (c l : Nat) (st : CSt) : State :=
  let s1 := modCC s c l fun cc => { cc with cst := st }
  (ccThreads s1 c l).foldl (fun s tk => modT (unhold s tk) tk stopThread) s1

/-- Whether a stopped core context is still (R360, R256, R271): no result, walk, job, filling tile or track access of its
is under way. -/
def quietCC (s : State) (c l : Nat) (cc : CoreCtx) : Bool :=
  (ccThreads s c l).all (fun tk => (getT s tk).res == [] && (getT s tk).block == .free) &&
  (slotsOf s cc.phys c l).all (fun k => (slotAt s (tkOf cc.phys k)).occ != .scrub) &&
  inFlight s c l == 0 &&
  (List.range 16).all (fun t => (tileAt s (16 * cc.phys + t)).st != .filling || (clusterAt s (cc.phys / 8)).holder != some c) &&
  s.tileOps.all (fun e => e.2.ctx != c || e.2.tile / 16 != cc.phys) &&
  (List.range 64).all fun t => (trackAt s (64 * cc.phys + t)).acc.all fun a => a.ctx != c

/-! ### Events and berms (R358, R363, R375) -/

/-- What a berm forwards: EVT bits for a context's thread of a slot generation. -/
def bermEv (bits : BitVec 7) (c : Nat) (gen : BitVec 8) : Nat := bits.toNat + 128 * (c + 65536 * gen.toNat)

/-- A thread that changes its place: its old and new slots, with the generations there. -/
structure Moved where
  old    : Nat
  new    : Nat
  oldGen : BitVec 8
  newGen : BitVec 8
  deriving DecidableEq, Repr

/-- An event on its way to a thread that has changed its place, of a context that left a core: forwarded to its new slot and
generation (R358), or none of theirs. -/
def redirectOne (core c : Nat) (ms : List Moved) : Instr → Option Instr
  | .jobComplete c' 0 ev =>
    if c' = c then (ms.find? fun m => ev == 1 + 256 * m.old + m.oldGen.toNat).map fun m => .bermForward core m.new (bermEv evJOB c m.newGen)
    else none
  | .monitorNotice dest _ => (ms.find? fun m => m.old == msgSlot dest && msgStamp dest == 256 * c + m.oldGen.toNat).map fun m =>
      .bermForward core m.new (bermEv evMWR c m.newGen)
  | .mapevtTake tk => (ms.find? fun m => m.old == tk).map fun m => .mapevtTake m.new
  | .putAccept c' ch tk => if c' = c then (ms.find? fun m => m.old == tk).map fun m => .putAccept c' ch m.new else none
  | .bermForward core' tk ev =>
    if ev / 128 % 65536 = c then (ms.find? fun m => m.old == tk && m.oldGen.toNat == ev / (128 * 65536)).map fun m =>
      .bermForward core' m.new (bermEv (BitVec.ofNat 7 (ev % 128)) c m.newGen)
    else none
  | _ => none

/-- The clocks that a redirected event takes further at once: none for one that the vacated core forwards when it gets there. -/
def redirectLeg (leg : Nat) : Instr → Nat
  | .bermForward _ _ _ => 0
  | _ => leg

/-- Redirect the events for threads that have changed their places. -/
def redirect (s : State) (core c : Nat) (ms : List Moved) (leg : Nat) : State :=
  { s with agenda := s.agenda.foldl (fun a e => match redirectOne core c ms e.2 with
      | some i => insertTimed (e.1 + redirectLeg leg i) i a
      | none => insertTimed e.1 e.2 a) [] }

/-- The registered arrivals of threads under their new names (R376). -/
def renameArrivals (s : State) (c : Nat) (names : List (Nat × Nat)) : State :=
  let name := fun (k : Nat) => ((names.find? fun e => e.1 == k).map (·.2)).getD k
  modCtx s c fun x => { x with bars := mmap (fun _ b => { b with arrived := b.arrived.map name }) x.bars }

/-- BERM_FORWARD (R358, R363): the core that a thread has left forwards an event to its new core, as long as its berm entry
stands; there it reaches the thread, or is ORed into its saved EVT, or is dropped. -/
def execBermForward (core tk ev : Nat) (s : State) : Outcome State Fault Refusal :=
  .next <|
    let bits : BitVec 7 := BitVec.ofNat 7 (ev % 128)
    let c := ev / 128 % 65536
    let x := slotAt s tk
    if core ≠ coreOf tk then
      (if forwards s core c x.lcore then later s (coreLat s core (coreOf tk)) (.bermForward (coreOf tk) tk ev) else countDrop s c)
    else if x.occ = .used ∧ (getT s tk).ctx = c ∧ x.gen.toNat = ev / (128 * 65536) then latch s tk bits
    else match (ccsOf s c).find? fun e => e.2.saved.any fun y => y.core == core && y.gens.getD (slotOf tk) 256 == ev / (128 * 65536) with
      | some (l, cc) =>
        (match findIdx? (· == slotOf tk) (slotsIn cc.slots) with
          | some r => orSaved s c l r bits
          | none => countDrop s c)
      | none => countDrop s c

/-- Set a berm entry (R358): of 64, the oldest migration's ends early. -/
def addBerm (s : State) (core : Nat) (b : Berm) : State :=
  let x := coreAt s core
  let keep := x.berm.filter fun e => e.ctx != b.ctx || e.lcore != b.lcore
  let room := if keep.length < 64 then keep else keep.eraseIdx ((findIdx? (fun e => e.dest.isSome) keep).getD 0)
  let s1 := setCore s core { x with berm := room ++ [b] }
  match b.until_ with
  | some t => laterAt s1 t (.bermExpire core b.ctx b.lcore)
  | none => s1

/-- BERM_EXPIRE (R358). -/
def execBermExpire (core ctx lcore : Nat) (s : State) : Outcome State Fault Refusal :=
  .next <|
    let x := coreAt s core
    setCore s core { x with berm := x.berm.filter fun e =>
      !(e.ctx == ctx && e.lcore == lcore && e.until_.any fun t => decide (t ≤ s.clock)) }

/-! ### Streams, tiles, tracks, inbox records -/

/-- Take the routes of a context from a core's ports, held ones first; ports freed admit others. -/
def takeRoutes (s : State) (c core : Nat) : List (Nat × Route) × State :=
  (List.finRange 4).foldl (fun (a : List (Nat × Route) × State) p =>
    let q := portAt a.2 core p
    let mine := (portRoutes q).filter fun r => r.ctx == c
    let q1 := { q with held := q.held.filter fun r => r.ctx != c, waits := q.waits.filter fun r => r.ctx != c,
                       coming := q.coming.filter fun r => r.ctx != c }
    let s1 := modPort a.2 core p.val fun _ => q1
    (a.1 ++ mine.map fun r => (p.val, r), if q.held.isSome ∧ q1.held.isNone then later s1 0 (.streamRouteAdmit core p.val) else s1))
    ([], s)

/-- Give routes to a core's ports (R341): a route finds its port free, or waits. -/
def giveRoutes (s : State) (core : Nat) (rs : List (Nat × Route)) : State :=
  rs.foldl (fun s e => modPort s core e.1 fun q =>
    if !e.2.arrived then { q with coming := q.coming ++ [e.2] }
    else if portFree q then { q with held := some e.2 }
    else { q with waits := q.waits ++ [e.2] }) s

/-- A chain's ports on a core move to another (R329). -/
def movePorts (s : State) (c old new : Nat) : State :=
  (ctxD s c).chains.foldl (fun s ch => ch.ports.foldl (fun s e =>
    if e.1 = old then
      let s1 := later (modPort s old e.2 fun p => { p with chain := false }) 0 (.streamRouteAdmit old e.2)
      let rest := ((chainOf s1 c ch.id).map (·.ports)).getD [] |>.filter (· != e)
      match freePort s1 new, chainOf s1 c ch.id with
      | some p, some ch1 => setChain (modPort s1 new p fun q => { q with chain := true }) c { ch1 with ports := rest ++ [(new, p)] }
      | none, some ch1 => setChain s1 c { ch1 with ports := rest }
      | _, none => s1
    else s) s) s

/-- Move tiles of a core context to another core (R256). -/
def moveTiles (s : State) (old new n : Nat) : State :=
  (List.range n).foldl (fun s t => setTile (setTile s (16 * new + t) (tileAt s (16 * old + t))) (16 * old + t) {}) s

/-- Copy tracks, contents and head state, to another place (R272). -/
def copyTracks (s : State) (pairs : List (Nat × Nat)) : State :=
  pairs.foldl (fun s p => carryTrack s p.1 p.2) s

/-- Records in a core's inbox for a core context move with it. -/
def moveInbox (s : State) (c l old new : Nat) : State :=
  let x := coreAt s old
  let mine := x.inbox.filter fun m => m.th.ctx == c && m.th.lcore == l
  if mine = [] then s
  else
    let s1 := setCore s old { x with inbox := x.inbox.filter fun m => !(m.th.ctx == c && m.th.lcore == l) }
    let y := coreAt s1 new
    later (setCore s1 new { y with inbox := y.inbox ++ mine }) 0 (.inboxAdmit new)

/-! ### Live migration (R357, R375) -/

/-- The bytes a core context streams (R357). -/
def ccBytes (s : State) (c : Nat) (cc : CoreCtx) : Nat :=
  let p := (ctxD s c).pkt
  let n := (slotsIn cc.slots).length
  let v := pktVregs p
  n * 192 + (if v = 0 then 0 else n * (v * 256 + 224)) + 128 +
  (List.range (pktTiles p)).foldl (fun a t => a + (tileAt s (16 * cc.phys + t)).data.length) 0 +
  cc.shSize + cc.tmap.length * 65544

/-- The clocks a group's stream takes: 256 bytes a clock, and the message latency. -/
def streamClocks (s : State) (g : List Member) (phys : Nat) : Nat :=
  let live := g.filter fun m => m.2.2.cst != .saved
  ceilDiv (live.foldl (fun a m => a + ccBytes s m.1 m.2.2) 0) 256 +
    (match g with
      | m :: _ => coreLat s m.2.2.phys phys
      | [] => 0)

/-- Start a group's move (R357, step 1): its seats are taken, and its slots stop. -/
def startMoves (s : State) (g : List Member) (seats : List Seat) : State :=
  (g.zip seats).foldl (fun s e =>
    let (c, l, cc) := e.1
    let s1 := modCC s c l fun cc => { cc with target := some e.2 }
    if cc.cst = .saved then s1
    else fixCore (takeSlots (stopCC s1 c l .migrating) e.2.phys c l e.2.slots) e.2.phys) s

/-- Place a thread that has moved, with a fresh generation. -/
def reseat (s : State) (new home : Nat) (t : Thread) : State :=
  placeThread (setSlot s new { slotAt s new with home := home }) new { t with hold := s.clock + 1, run := t.run.movesOn }

/-- Land one member of a group on its seat (R357, steps 2 to 4). Regions close and monitors are displaced as a thread
leaves (log 38); TSCR is undefined after a migration (R131). What waited for the core context goes on (R375). -/
def landMember (s : State) (c l : Nat) : State :=
  match getCC s c l with
  | none => s
  | some cc =>
    match cc.target with
    | none => s
    | some seat =>
      if cc.cst = .saved then setCC s c l { cc with phys := seat.phys, tmap := seat.tmap, target := none }
      else
        let old := cc.phys
        let leg := coreLat s old seat.phys
        let s0 := (ccThreads s c l).foldl (fun s tk => displaceMons (closeQuiet s tk) tk) s
        let pairs := ((slotsIn cc.slots).zip seat.slots).map fun e => (tkOf old e.1, tkOf seat.phys e.2)
        let s1 := pairs.foldl (fun s e =>
          let x := slotAt s e.1
          match standing s e.1 with
          | some t => reseat { s with threads := mdel s.threads e.1 } e.2 x.home
              { t with tscr := Config.freeWord s.freeCtr (3000 + slotOf e.1) }
          | none => setSlot s e.2 { slotAt s e.2 with home := x.home }) s0
        let ms : List Moved := (pairs.filter fun e => (standing s0 e.1).isSome).map fun e =>
          { old := e.1, new := e.2, oldGen := (slotAt s0 e.1).gen, newGen := (slotAt s1 e.2).gen }
        let s2 := dropSlots (renameArrivals (redirect s1 old c ms leg) c (ms.map fun m => (m.old, m.new))) old c l
        let s3 := setCC s2 c l { cc with phys := seat.phys, shOff := seat.shOff, slots := maskOf seat.slots,
                                         tmap := seat.tmap, cst := .resident, target := none, claim := 0 }
        let n := if (clusterAt s3 (old / 8)).holder = some c then pktTiles (ctxD s3 c).pkt else 0
        let (rs, s4) := takeRoutes (moveTiles s3 old seat.phys n) c old
        let s5 := movePorts (giveRoutes s4 seat.phys rs) c old seat.phys
        let s6 := moveInbox s5 c l old seat.phys
        let s7 := addBerm s6 old { ctx := c, lcore := l, dest := some seat.phys, until_ := some (s.clock + 65536) }
        releaseHeld (wakeLinks (dropEngine (fixCore (fixCore s7 old) seat.phys) c (old / 8)) c l) c l

/-- The physical tracks a group moves, each with its new place. -/
def trackPairs (g : List Member) : List (Nat × Nat) :=
  g.foldl (fun a m => match m.2.2.target with
    | some seat => (m.2.2.tmap.zip seat.tmap).foldl (fun a e => addNew (64 * m.2.2.phys + e.1, 64 * seat.phys + e.2) a) a
    | none => a) []

/-- Land a group: the tracks are copied once, and every member names them there (R39, R265). -/
def landGroup (s : State) (g : List Member) : State :=
  g.foldl (fun s m => landMember s m.1 m.2.1) (copyTracks s (trackPairs g))

/-- Whether every moving member of a group is still. -/
def groupQuiet (s : State) (g : List Member) : Bool := g.all fun m => m.2.2.cst == .saved || quietCC s m.1 m.2.1 m.2.2

/-- LIVE_MIGRATION (R357): a core context, with its group, moves to a core that has room: it stops, waits to be still,
streams (phys + 4,096 marks the stream's end) and lands. -/
def execLiveMigration (ctx lcore phys : Nat) (s : State) : Outcome State Fault Refusal :=
  .next <|
    match getCC s ctx lcore with
    | none => s
    | some cc =>
      let g := groupOf s (ctx, lcore, cc)
      if dying s ctx then s
      else if 4096 ≤ phys then
        (if cc.target.any fun t => t.phys + 4096 == phys then landGroup s g else s)
      else match cc.target with
        | none =>
          if g.all fun m => m.2.2.cst == .resident || m.2.2.cst == .saved then
            (match roomFor s phys g with
              | some seats => later (startMoves s g seats) 0 (.liveMigration ctx lcore phys)
              | none => s)
          else s
        | some t =>
          if t.phys ≠ phys then s
          else if groupQuiet s g then later s (streamClocks s g phys) (.liveMigration ctx lcore (phys + 4096))
          else later s 1 (.liveMigration ctx lcore phys)

/-! ### The save area (R359, R285, R47) -/

/-- The scalar record of a thread (R47). -/
def scalarRecord (t : Thread) : List Byte :=
  t.g.toList.flatMap (fun x => bytesLE 8 x.toNat) ++ bytesLE 8 t.pc.toNat ++ bytesLE 4 t.pw.toNat ++
  bytesLE 4 (t.lane.toNat * 65536 + t.priv.toNat) ++ bytesLE 8 t.tvec.toNat ++
  bytesLE 8 (t.rng.toNat * 2 ^ 32 + t.fxe.toNat * 2 ^ 16 + t.fxf.toNat * 2 ^ 8 + t.evt.toNat)

/-- The trap registers of a thread. -/
def trapRecord (t : Thread) : List Byte :=
  bytesLE 8 t.cause.toNat ++ bytesLE 8 t.tval.toNat ++ bytesLE 8 t.epc.toNat ++
  bytesLE 8 ((if t.mheld then 2 else 0) + (if t.inh then 1 else 0))

/-- A head-state record, with its head's corrected errors (R285). -/
def headRecord (r : Nat × Nat × Bool × Bool × BitVec 16) (herr : Nat) : List Byte :=
  bytesLE 8 (r.2.2.2.2.toNat * 2 ^ 48 + r.1 * 2 ^ 24 + herr * 2 ^ 16 + (if r.2.2.2.1 then 2 ^ 15 else 0) +
    (if r.2.2.1 then 2 ^ 14 else 0) + r.2.1)

/-- A code for a tile's state (log 15). -/
def tileCode : TileSt → Nat
  | .empty => 0
  | .filling => 1
  | .ready n => 2 + n

/-- Pad bytes with zeros. -/
def padTo (n : Nat) (bs : List Byte) : List Byte := (bs ++ zeros (n - bs.length)).take n

/-- Undefined bytes (R359): the records of a reserved slot that holds no thread (log 15). -/
def openBytes (ctr tag n : Nat) : List Byte := (List.range n).map fun i => Config.freeByte ctr (tag + i)

/-- The records of the reserved slots in slot order (R359): offset, stride and size, and a thread's record. -/
def slotRecords (s : State) (cc : CoreCtx) (x : Saved) (off stride n : Nat) (rec_ : Thread → List Byte) : List (Nat × List Byte) :=
  (List.range (slotsIn cc.slots).length).map fun r => (off + stride * r, match mget x.threads r with
    | some t => rec_ t
    | none => openBytes s.freeCtr (off + stride * r) n)

/-- The segments of a save, each an offset and its bytes, in the order of R359. -/
def saveSegs (s : State) (c l : Nat) (cc : CoreCtx) (x : Saved) (total : Nat) : List (Nat × List Byte) :=
  let v := pktVregs (ctxD s c).pkt
  let gens := (List.range 8).flatMap fun k => bytesLE 1 (x.gens.getD k 0)
  let hdr := bytesLE 8 total ++ bytesLE 8 cc.slots.toNat ++ gens ++ bytesLE 8 cc.jobCtr ++ zeros 32
  let buffers := (List.range 4).flatMap fun p => padTo 512 (x.routes.flatMap fun r =>
    if r.1 = p then r.2.words.flatMap fun w => bytesLE (wordBytes r.2.vec) w.1.toNat else [])
  [(0, hdr)] ++ slotRecords s cc x 0x40 160 160 scalarRecord ++ slotRecords s cc x 0x540 32 32 trapRecord ++
  (if cc.tmap = [] then [] else [(0x640, padTo 512 ((x.recs.zip x.herrs).flatMap fun r => headRecord r.1 r.2))]) ++
  [(0x840, padTo 32 (cc.west.flatMap fun w => bytesLE 8 w.toNat) ++ padTo 32 (cc.east.flatMap fun w => bytesLE 8 w.toNat)),
   (0x880, padTo 64 (bytesLE 8 (dqBaseVal cc).toNat ++ bytesLE 8 cc.dqLim.toNat ++ x.routes.flatMap fun r => bytesLE 4 r.2.id))] ++
  (if x.tiles = [] then [] else
    [(0x8C0, x.tiles.flatMap fun t => bytesLE 4 t.2.shape.toNat ++ bytesLE 4 (tileCode t.2.st))]) ++
  (if x.routes = [] then [] else [(0xA00, buffers)]) ++
  (if v = 0 then [] else
    slotRecords s cc x 0x2000 8192 (256 * v) (fun t => (t.v.toList.take v).flatMap fun y => bytesLE 256 y.toNat) ++
    slotRecords s cc x 0x12000 256 224 (fun t => (t.p.toList.drop 1).flatMap fun y => bytesLE 32 y.toNat)) ++
  (x.tiles.filter fun t => t.2.data != []).map (fun t => (0x20000 + 16384 * t.1, t.2.data)) ++
  (if cc.shSize = 0 then [] else [(0x60000, Memory.readN s.mem (sramLoc (ccKey c l) 0) cc.shSize)])

/-- Cut a segment at 256-byte boundaries of its address; the fuel is its length. -/
def cut256 : Nat → Nat → List Byte → List (Nat × List Byte)
  | 0, _, _ => []
  | fuel + 1, off, bs =>
    if bs = [] then []
    else
      let n := 256 - off % 256
      (off, bs.take n) :: cut256 fuel (off + n) (bs.drop n)

/-- The writes of a save, at most 256 bytes each. -/
def saveWrites (s : State) (c l : Nat) (cc : CoreCtx) (x : Saved) : List (Nat × List Byte) :=
  let size := fun (l : List (Nat × List Byte)) => l.foldl (fun a e => a + e.2.length) 0
  let segs := saveSegs s c l cc x (size (saveSegs s c l cc x 0))
  segs.flatMap fun e => cut256 (e.2.length + 1) e.1 e.2

/-- The base of a logical core's save area (R359), under the SAVEBASE with which its save began: a later one is for its next
save (R373). -/
def saveArea (s : State) (c l : Nat) : Nat := ((getCC s c l).map fun cc => cc.saveAt.toNat).getD 0 + l * 0x100000

/-- Make the writes past the cursor, in order: the state, the cursor, and the address and cause of a fault. -/
def makeWrites (c l core area : Nat) : List (Nat × List Byte) → State → Nat → Nat → State × Nat × Option (Nat × Nat)
  | [], s, _, done => (s, done, none)
  | (off, bs) :: r, s, cursor, done =>
    if done + bs.length ≤ cursor then makeWrites c l core area r s cursor (done + bs.length)
    else match devAccess s core c l (area + off) true with
      | .ok loc =>
        let s1 := (sectorCells ((locsFrom loc bs.length).zip bs)).foldl (fun s w => (append s w none).2) s
        makeWrites c l core area r (noteWriter s1 c core [loc]) cursor (done + bs.length)
      | .fault cause _ => (s, done, some (area + off, cause))
      | _ => (s, done, some (area + off, 0x30))

/-! ### Saving (R360 to R362) -/

/-- The lease records of a core context: held, then owed (R271). -/
def leaseRecs (s : State) (c : Nat) (cc : CoreCtx) : List (Nat × Nat × Bool × Bool × BitVec 16) :=
  ((cc.tmap.zip (List.range cc.tmap.length)).filterMap fun e =>
    let t := trackAt s (64 * cc.phys + e.1)
    if t.owner = some c then some (e.2, t.cursor, t.back, t.gang, t.lgen) else none) ++ cc.owed

/-- Abandon the shifts of the tracks whose leases a core context holds (R271, step 2). -/
def haltMoves (s : State) (c : Nat) (cc : CoreCtx) : State :=
  cc.tmap.foldl (fun s t =>
    let k := 64 * cc.phys + t
    if (trackAt s k).owner = some c then haltMove s k else s) s

/-- Release the leases of a core context (R271, step 4). -/
def releaseLeases (s : State) (c : Nat) (cc : CoreCtx) : State :=
  cc.tmap.foldl (fun s t =>
    let k := 64 * cc.phys + t
    if (trackAt s k).owner = some c then releaseTrack s c k else s) s

/-- Steps 1 and 2 of R360 are done: the threads are taken from their slots, drained, and with the rest stand ready to be
written. -/
def takeOut (s : State) (c l : Nat) (cc : CoreCtx) : State :=
  let ks := slotsIn cc.slots
  let s1 := (ccThreads s c l).foldl (fun s tk => displaceMons (drainAll (closeQuiet s tk) tk) tk) (haltMoves s c cc)
  let here := (ks.zip (List.range ks.length)).filterMap fun e =>
    (standing s1 (tkOf cc.phys e.1)).map fun t => (tkOf cc.phys e.1, e.2, t)
  let ths := here.map fun e => (e.2.1, { e.2.2 with run := e.2.2.run.movesOn })
  let gens := (List.range 8).map fun k => (slotAt s (tkOf cc.phys k)).gen.toNat
  let ms : List Moved := here.map fun e => { old := e.1, new := e.1, oldGen := (slotAt s e.1).gen, newGen := (slotAt s e.1).gen }
  let sT := here.foldl (fun s e => setSlot { s with threads := mdel s.threads e.1 } e.1 { slotAt s e.1 with occ := .free, freed := some s.clock }) s1
  let s2 := renameArrivals (redirect sT cc.phys c ms 0) c (here.map fun e => (e.1, savedKey c l e.2.1))
  let s3 := modCtx s2 c fun x => { x with chains := x.chains.map fun ch => { ch with reps := ch.reps.map fun r =>
    match r.tk with
    | some tk => if coreOf tk = cc.phys then { r with tk := none } else r
    | none => r } }
  let n := if (clusterAt s3 (cc.phys / 8)).holder = some c then pktTiles (ctxD s3 c).pkt else 0
  let (rs, s4) := takeRoutes s3 c cc.phys
  let recs := leaseRecs s4 c cc
  let x : Saved := { cursor := 0, done := false, threads := ths, recs := recs,
                     herrs := recs.map fun r => (trackAt s4 (64 * cc.phys + cc.tmap.getD r.1 0)).herr,
                     tiles := (List.range n).map fun t => (t, tileAt s4 (16 * cc.phys + t)), routes := rs,
                     core := cc.phys, gens := gens }
  modCC s4 c l fun cc => { cc with saved := some x }

/-- A save write faults (R361): the records go to the core's emergency area, slots and leases are freed, and a SAVEFAULT
task is handed; another save's area is waited for. -/
def saveFault (s : State) (c l : Nat) (cc : CoreCtx) (x : Saved) (va cause : Nat) : State :=
  let k := coreAt s cc.phys
  let task := fun (s : State) => pushTask s (dieOf (routerOf cc.phys))
    { code := 0x34, g1 := w64 (c + cc.phys * 65536), g2 := w64 va, g3 := w64 l }
  let s0 := match (if cause = 0x33 then walk s c va else .second) with
    | .poison line => listPoison s line
    | _ => s
  if k.emerg = some (c, l) then task (setCC s0 c l { cc with saved := some x })
  else if k.emerg.isSome then later (setCC s0 c l { cc with saved := some x }) 1 (.contextSave c l)
  else
    let s1 := setCore (setCC s0 c l { cc with saved := some x }) cc.phys { coreAt s0 cc.phys with emerg := some (c, l) }
    task (dropSlots (releaseLeases s1 c cc) cc.phys c l)

/-- The save is written (R360, step 4): the berm entry is set and the reservations are released. -/
def finishSave (s : State) (c l : Nat) (cc : CoreCtx) (x : Saved) : State :=
  let s1 := dropSlots (releaseLeases s c cc) cc.phys c l
  let s2 := setCC s1 c l { cc with cst := .saved, saved := some { x with done := true }, owed := [], claim := 0 }
  let k := coreAt s2 cc.phys
  let s3 := setCore s2 cc.phys { k with emerg := if k.emerg = some (c, l) then none else k.emerg }
  let s4 := addBerm s3 cc.phys { ctx := c, lcore := l, dest := none, until_ := none }
  later (fixCore s4 cc.phys) 1 (.contextResume c l)

/-- Write the save area on from the cursor (R360, R361). -/
def writeArea (s : State) (c l : Nat) : State :=
  match getCC s c l with
  | none => s
  | some cc =>
    match cc.saved with
    | none => s
    | some x =>
      if cc.cst ≠ .saving ∨ x.done then s
      else
        let (s1, cur, bad) := makeWrites c l cc.phys (saveArea s c l) (saveWrites s c l cc x) s x.cursor 0
        let x1 := { x with cursor := cur }
        match bad with
        | some (va, cause) => saveFault s1 c l cc x1 va cause
        | none => finishSave s1 c l cc x1

/-- The clocks of a save's writes: 64 bytes a clock (R360). -/
def saveClocks (s : State) (c l : Nat) : Nat :=
  match getCC s c l with
  | some cc => (match cc.saved with
    | some x => ceilDiv ((saveWrites s c l cc x).foldl (fun a e => a + e.2.length) 0) 64
    | none => 0)
  | none => 0

/-- CONTEXT_SAVE (R360): the core context stops, waits to be still, drains, and is written. Without SAVEBASE nothing is
saved. -/
def execContextSave (ctx lcore : Nat) (s : State) : Outcome State Fault Refusal :=
  .next <|
    match getCC s ctx lcore with
    | none => s
    | some cc =>
      if dying s ctx then s
      else match cc.cst with
        | .resident =>
          if (ctxD s ctx).saveBase = 0 then s
          else
            let s1 := modCC (stopCC s ctx lcore .saving) ctx lcore fun cc => { cc with saveAt := (ctxD s ctx).saveBase }
            later s1 0 (.contextSave ctx lcore)
        | .saving =>
          if cc.saved.isSome then writeArea s ctx lcore
          else if quietCC s ctx lcore cc then
            let s1 := takeOut s ctx lcore cc
            later s1 (saveClocks s1 ctx lcore) (.contextSave ctx lcore)
          else later s 1 (.contextSave ctx lcore)
        | _ => s

/-- SAVE_RESUME (R361): the SAVEFAULT task has ended; the writes go on from the cursor. -/
def execSaveResume (ctx lcore : Nat) (s : State) : Outcome State Fault Refusal :=
  .next (if dying s ctx then s else writeArea s ctx lcore)

/-! ### The run queues (R55, R364) -/

/-- The clusters of a packet's rectangle (R49). -/
def rectClusters (p : Packet) : List Nat :=
  let x0 := bitsOf p.place 3 0
  let y0 := bitsOf p.place 7 4
  natsWhere 256 fun r => decide (x0 ≤ rx r ∧ rx r ≤ x0 + bitsOf p.place 11 8 ∧ y0 ≤ ry r ∧ ry r ≤ y0 + bitsOf p.place 15 12)

/-- The cores a packet's CMASK names in clusters, live ones alone, ascending. -/
def coresIn (m : CMap) (p : Packet) (cls : List Nat) : List Nat :=
  cls.flatMap fun r => (natsWhere 8 fun k => bitN p.place.toNat (40 + k) && inService m clsCore (8 * r + k)).map (8 * r + ·)

/-- Whether a packet lets the device choose its clusters. -/
def pktAny (p : Packet) : Bool := bitsOf p.place 35 35 == 1

/-- The place of a context in the run queues: PRIO, then age (R55). -/
def queuePos (x : Ctx) : Nat × Nat := (pktPrio x.pkt, x.age)

/-- Whether one place comes before another. -/
def posBefore (a b : Nat × Nat) : Bool := decide (a.1 < b.1 ∨ (a.1 = b.1 ∧ a.2 < b.2))

/-- Whether a waiting launch stands in the run queue of a core (R55): one that names it, or one that lets the device choose and
could use it (R49). -/
def queuesFor (m : CMap) (p : Packet) (core : Nat) : Bool :=
  if pktAny p then bitN p.place.toNat (40 + core % 8) &&
    (List.range 8).all fun k => !bitN p.place.toNat (40 + k) || inService m clsCore (core / 8 * 8 + k)
  else (coresIn m p (rectClusters p)).contains core

/-- Whether a launch that waits, or a saved core context, stands before a context in the run queue of a core. -/
def queuedBefore (s : State) (core c : Nat) : Bool :=
  let me := queuePos (ctxD s c)
  (s.ctxs.any fun e => e.1 != c && e.2.run == .waiting && posBefore (queuePos e.2) me && queuesFor s.cmap e.2.pkt core) ||
  s.cctxs.any fun e => e.1 / 4096 != c && e.2.cst == .saved && posBefore (queuePos (ctxD s (e.1 / 4096))) me &&
    (if e.2.tmap = [] then e.2.phys / 8 == core / 8 else e.2.phys == core)

/-! ### Resuming (R364, R363, R271) -/

/-- The cores a saved core context may resume on (R364). -/
def resumeCores (cc : CoreCtx) : List Nat :=
  if cc.tmap = [] then cc.phys :: (natsWhere 8 fun k => 8 * (cc.phys / 8) + k != cc.phys).map (8 * (cc.phys / 8) + ·) else [cc.phys]

/-- The seat a core has for a saved core context (R356): its tracks are still its own. -/
def seatBack (s : State) (c : Nat) (cc : CoreCtx) (core : Nat) : Option Seat :=
  let n := (slotsIn cc.slots).length
  let free := freeSlotsOn s core
  let t := pktTiles (ctxD s c).pkt
  let cl := core / 8
  if coreOpen s core && modeOk s core (pktDet (ctxD s c).pkt) && decide (n ≤ free.length) &&
      (t == 0 || ((clusterAt s cl).holder == some c && inService s.cmap clsEngine cl && decide (tilesUsed s cl + t ≤ 16))) then
    (placeShare (sharesOn s core) cc.shSize).map fun off => { phys := core, shOff := off, slots := free.take n, tmap := cc.tmap }
  else none

/-- The first read of a save area that does not translate: address, cause and reason. -/
def areaFault (s : State) (c l core area : Nat) (ws : List (Nat × List Byte)) : Option (Nat × Nat × Nat) :=
  ws.findSome? fun w => match devAccess s core c l (area + w.1) false with
    | .ok _ => none
    | .fault cause reason => some (area + w.1, cause, reason)
    | _ => some (area + w.1, 0x30, 0)

/-- n bytes of a save area. -/
def areaRead (s : State) (c l core va n : Nat) : List Byte :=
  (cut256 (n + 1) va (zeros n)).flatMap fun e => match devAccess s core c l e.1 false with
    | .ok loc => Memory.readN s.mem loc e.2.length
    | _ => e.2

/-- A thread as its records in the save area give it (R47, R359); TSCR is undefined (R131). -/
def restoreThread (s : State) (c l core area rank vregs : Nat) (t : Thread) : Thread :=
  let r := areaRead s c l core (area + 0x40 + 160 * rank) 160
  let q := areaRead s c l core (area + 0x540 + 32 * rank) 32
  let t1 := { t with
    g := Vector.ofFn fun i => w64 (fieldAt r (8 * i.val) 8)
    pc := w64 (fieldAt r 0x80 8)
    pw := BitVec.ofNat 32 (fieldAt r 0x88 4) ||| 1
    lane := BitVec.ofNat 16 (fieldAt r 0x8E 2)
    priv := BitVec.ofNat 2 (fieldAt r 0x8C 1)
    tvec := w64 (fieldAt r 0x90 8)
    rng := BitVec.ofNat 32 (fieldAt r 0x9C 4)
    fxe := BitVec.ofNat 5 (fieldAt r 0x9A 1)
    fxf := BitVec.ofNat 6 (fieldAt r 0x99 1)
    evt := t.evt ||| BitVec.ofNat 7 (fieldAt r 0x98 1)
    cause := BitVec.ofNat 8 (fieldAt q 0 1)
    tval := w64 (fieldAt q 8 8)
    epc := w64 (fieldAt q 16 8)
    inh := bitN (fieldAt q 24 1) 0
    mheld := bitN (fieldAt q 24 1) 1
    tscr := Config.freeWord s.freeCtr (4000 + rank)
    idemPc := w64 (fieldAt r 0x80 8) }
  if vregs = 0 then t1
  else { t1 with
    v := Vector.ofFn fun i =>
      if i.val < vregs then BitVec.ofNat 2048 (ofBytesLE (areaRead s c l core (area + 0x2000 + 8192 * rank + 256 * i.val) 256)) else t.v[i]
    p := Vector.ofFn fun i =>
      if i.val = 0 then BitVec.allOnes 256
      else BitVec.ofNat 256 (ofBytesLE (areaRead s c l core (area + 0x12000 + 256 * rank + 32 * (i.val - 1)) 32)) }

/-- A lease record read back (R285). -/
def restoreRec (w : Nat) : Nat × Nat × Bool × Bool × BitVec 16 :=
  (nbits w 31 24, nbits w 13 0, bitN w 14, bitN w 15, BitVec.ofNat 16 (nbits w 63 48))

/-- The share as the save area holds it: bytes that differ are written (R364). -/
def restoreShare (s : State) (c l core area size : Nat) : State :=
  let bs := areaRead s c l core (area + 0x60000) size
  let cells := ((locsFrom (sramLoc (ccKey c l) 0) size).zip bs).filter fun e => Memory.read s.mem e.1 != e.2
  (sectorCells cells).foldl (fun s w => (append s w none).2) s

/-- Seat a saved core context: threads with fresh generations, owed leases, tiles and streams (R364, R271); what waited for it
goes on (R363). -/
def seatSaved (s : State) (c l : Nat) (cc : CoreCtx) (x : Saved) (seat : Seat) : State :=
  let area := saveArea s c l
  let old := cc.phys
  let was := fun (r : Nat) => tkOf x.core ((slotsIn cc.slots).getD r 0)
  let now_ := fun (r : Nat) => tkOf seat.phys (seat.slots.getD r 0)
  let v := pktVregs (ctxD s c).pkt
  let s0 := restoreShare s c l old area cc.shSize
  let recs := (List.range x.recs.length).map fun i => restoreRec (fieldAt (areaRead s c l old (area + 0x640 + 8 * i) 8) 0 8)
  let s1 := takeSlots s0 seat.phys c l seat.slots
  let homes := (seat.slots.zip (List.range seat.slots.length)).foldl (fun s e =>
    setSlot s (tkOf seat.phys e.1) { slotAt s (tkOf seat.phys e.1) with home := l + (ctxD s c).ncores * e.2 }) s1
  let s2 := setCC homes c l { cc with phys := seat.phys, shOff := seat.shOff, slots := maskOf seat.slots, cst := .resident,
                                      saved := none, owed := recs }
  let sT := x.threads.foldl (fun s e =>
    reseat s (now_ e.1) (slotAt s (now_ e.1)).home { restoreThread s0 c l old area e.1 v e.2 with lcore := l, ctx := c }) s2
  let ms : List Moved := x.threads.map fun e =>
    { old := was e.1, new := now_ e.1, oldGen := BitVec.ofNat 8 (x.gens.getD (slotOf (was e.1)) 0), newGen := (slotAt sT (now_ e.1)).gen }
  let s3 := renameArrivals (redirect sT x.core c ms 0) c (x.threads.map fun e => (savedKey c l e.1, now_ e.1))
  let s4 := x.tiles.foldl (fun s e =>
    let d := areaRead s c l old (area + 0x20000 + 16384 * e.1) e.2.data.length
    setTile s (16 * seat.phys + e.1) { e.2 with data := d }) s3
  let s5 := giveRoutes s4 seat.phys x.routes
  let s6 := addBerm s5 x.core { ctx := c, lcore := l, dest := some seat.phys, until_ := some (s.clock + 65536) }
  releaseHeld (wakeLinks (fixCore s6 seat.phys) c l) c l

/-- Resume a saved core context where a core has room; `first` skips the run queues' order (R364, R372). -/
def tryResume (s : State) (c l : Nat) (first : Bool) : Option State :=
  match getCC s c l with
  | none => none
  | some cc =>
    match cc.saved with
    | none => none
    | some x =>
      if cc.cst ≠ .saved ∨ cc.target.isSome then none
      else match (resumeCores cc).findSome? fun k =>
          if !first && queuedBefore s k c then none else (seatBack s c cc k) with
        | none => none
        | some seat => match areaFault s c l cc.phys (saveArea s c l) (saveWrites s c l cc x) with
          | some (va, cause, reason) => some (handFault s (dieOf (routerOf cc.phys)) c 0xFFF va cause (reason + 1024))
          | none => some (seatSaved s c l cc x seat)

/-- CONTEXT_RESUME (R364): in the first clock in which a core has room, in the order of the run queues. -/
def execContextResume (ctx lcore : Nat) (s : State) : Outcome State Fault Refusal :=
  .next <|
    match getCC s ctx lcore with
    | none => s
    | some cc =>
      if cc.cst ≠ .saved ∨ dying s ctx then s
      else
        let s1 := (tryResume s ctx lcore false).getD s
        match getCC s1 ctx lcore with
        | some cc1 => if cc1.cst = .saved then later s1 1 (.contextResume ctx lcore) else s1
        | none => s1

end Sys2Proof.Machine
end

