-- ==== Sys2Proof/Machine/Kill.lean ====
section
/-!
DEFINITION. Kills and the sluice (R366, R371, R377), dropped messages (R68 to R70), and a queue's teardown (R367, R385).
-/

namespace Sys2Proof.Machine

open Host

/-! ### At each router (R366, R377) -/

/-- Drop a context's jobs from a queue (R366): one that runs stops after a sector that the tape decides, and what it has
appended stays (log 35). -/
def dropJobs (s : State) (q c : Nat) : State :=
  let s1 := match runningJob s q with
    | some j =>
      if j.ctx ≠ c then s
      else
        let (k, s1) := takeDelay s (jobSectors j + 1)
        let s2 := match performJob s1 q { j with stop := some k } j.view with
          | .done s' _ _ _ => s'
          | .stall _ _ _ _ => s1
        let s3 := setQueue s2 q { queueAt s2 q with running := false }
        if q < qclKey then setCopies s3 (q / 5) (copiesNow s3 (q / 5)) else s3
    | none => s
  let x := queueAt s1 q
  let mine := fun (e : QEnt) => match e with
    | .job j => j.ctx == c
    | .mark _ _ => false
  if x.ents.any mine then
    setQueue s1 q { x with ents := x.ents.filter (fun e => !mine e), stalled := if x.stalled.any (fun e => e.1 == c) then none else x.stalled }
  else s1

/-- Free what a context holds of a core's tracks (R366): head states stay, with no owner. -/
def freeHeads (s : State) (c core : Nat) : State :=
  (List.range 64).foldl (fun s t =>
    let k := 64 * core + t
    let x := trackAt s k
    if x.owner = some c ∨ x.acc.any (fun a => a.ctx == c) ∨ x.wait.any (fun r => r.ctx == c) then
      later (later (setTrack s k { x with
        owner := if x.owner = some c then none else x.owner
        acc := x.acc.filter fun a => a.ctx != c
        wait := x.wait.filter fun r => r.ctx != c }) 1 (.leaseGrant k)) 1 (.cursorStep k)
    else s) s

/-- Free the ports that a context's routes and chains hold on a core. -/
def freePorts (s : State) (c core : Nat) : State :=
  let s1 := (takeRoutes s c core).2
  (ctxD s1 c).chains.foldl (fun s ch => ch.ports.foldl (fun s e =>
    if e.1 = core then later (modPort s core e.2 fun p => { p with chain := false }) 0 (.streamRouteAdmit core e.2) else s) s) s1

/-- Remove the threads of a context from a core's slots. -/
def clearSlots (s : State) (c core : Nat) : State :=
  (List.range 8).foldl (fun s k =>
    let tk := tkOf core k
    let x := slotAt s tk
    if x.ctx = c then
      setSlot { s with threads := mdel s.threads tk } tk
        { x with ctx := 0, lcore := 0, vregs := 0, home := 0, occ := if x.occ = .scrub then .scrub else .free,
                 freed := if x.occ = .used then some s.clock else x.freed }
    else s) s

/-- A core forgets a context: its inbox records, its berm entries and its place in the emergency area (R366, step 2). -/
def forget (s : State) (c core : Nat) : State :=
  let x := coreAt s core
  setCore s core { x with
    inbox := x.inbox.filter fun m => m.th.ctx != c
    berm := x.berm.filter fun b => b.ctx != c
    emerg := if x.emerg.any (fun e => e.1 == c) then none else x.emerg }

/-- Reset one core for a context (R366, step 2). -/
def resetCore (s : State) (c core : Nat) : State :=
  let s2 := forget (freePorts (freeHeads (clearSlots s c core) c core) c core) c core
  if (clusterAt s2 (core / 8)).holder = some c then (List.range 16).foldl (fun s t => setTile s (16 * core + t) {}) s2 else s2

/-- Remove the fault tasks of a context that are still queued (R366). The PTPOISON task of a purge for a poisoned walk is
handed all the same (R308). -/
def dropFaultTasks (s : State) (c : Nat) : State :=
  { s with
    faults := s.faults.filter fun f => f.ctx != c || f.cause == 0x33
    fetches := s.fetches.filter fun f => f.ctx != c
    quads := mmap (fun _ q => { q with tasks := q.tasks.filter fun k =>
      !(decide (0x30 ≤ k.code ∧ k.code ≠ 0x33) && k.g1.toNat % 65536 == c) }) s.quads }

/-- What becomes of a core context whose kill's wave reaches a router: the reservation there goes, and the place of a move that
it has elsewhere stays for the wave; none where it has no other. -/
def waveAt (router : Nat) (cc : CoreCtx) : Option CoreCtx :=
  match cc.target with
  | none => if routerOf cc.phys = router then none else some cc
  | some t =>
    if routerOf cc.phys = router then
      (if routerOf t.phys = router then none
       else some { cc with phys := t.phys, shOff := t.shOff, slots := maskOf t.slots, tmap := t.tmap, target := none, saved := none })
    else if routerOf t.phys = router then some { cc with target := none }
    else some cc

/-- The messages that a core context which is gone has held are dropped; a request's sender has a dead-target reply (R363). -/
def dropHeld (s : State) (c : Nat) (held : List Instr) : State :=
  held.foldl (fun s i => match i with
    | .remoteRequest tk rid => later s 0 (.messageDrop tk rid c)
    | .spawnRequest tk rid => later s 0 (.messageDrop tk rid c)
    | _ => s) s

/-- SLUICE_ARRIVE (R366, R377): the wave reaches a router: its cores reset for the context, its queues lose the context's
jobs, and the router discards the context's packets for 256 clocks. -/
def execSluiceArrive (ctx router : Nat) (s : State) : Outcome State Fault Refusal :=
  .next <|
    if !dying s ctx then s
    else
      let held := (ccsOf s ctx).flatMap fun e => if routerOf e.2.phys = router then e.2.waiting else []
      let cores := natsWhere 8 fun k => (ccsOf s ctx).any fun e =>
        e.2.phys == 8 * router + k || e.2.target.any fun t => t.phys == 8 * router + k
      let s1 := dropFaultTasks s ctx
      let s2 := cores.foldl (fun s k => resetCore s ctx (8 * router + k)) ((List.range 8).foldl (fun s k => forget s ctx (8 * router + k)) s1)
      let s3 := (List.range 5).foldl (fun s i => dropJobs s (queueKey router i) ctx) s2
      let s4 := if router = 0 then dropJobs s3 qclKey ctx else s3
      let s5 := { s4 with
        cctxs := s4.cctxs.filterMap fun e =>
          if e.1 / 4096 = ctx then (waveAt router e.2).map fun cc => (e.1, { cc with waiting := if routerOf e.2.phys = router then [] else cc.waiting })
          else some e
        tileOps := s4.tileOps.filter fun e => !(e.2.ctx == ctx && routerOf (e.2.tile / 16) == router)
        discards := s4.discards ++ [(ctx, router)] }
      let s6 := cores.foldl (fun s k => fixCore s (8 * router + k)) (dropEngine (dropHeld s5 ctx held) ctx router)
      later (pumpQueues s6) 256 (.sluiceDiscardEnd ctx router)

/-- SLUICE_DISCARD_END (R366). -/
def execSluiceDiscardEnd (ctx router : Nat) (s : State) : Outcome State Fault Refusal :=
  .next { s with discards := s.discards.filter (· != (ctx, router)) }

/-! ### Teardown (R367, R385) -/

/-- Whether a launch of a queue is dispatched and not complete (R380, BUSY). -/
def queueBusy (s : State) (q : Nat) : Bool := s.ctxs.any fun e => e.2.queue == q

/-- A teardown is complete once every packet is settled (R385), its status written. -/
def tdCheck (s : State) (q : Nat) : State :=
  let b := mgetD s.qblks q {}
  if b.td ≠ 0 ∧ !queueBusy s q ∧ b.head = b.tail ∧ b.owed = [] then
    { s with qblks := mset s.qblks q { b with tdone := true, tdoneAt := some s.clock, en := false, td := 0 } }
  else s

/-- A context ends: it leaves the tables. -/
def removeCtx (s : State) (c : Nat) : State :=
  let q := (ctxD s c).queue
  tdCheck { s with
    ctxs := mdel s.ctxs c
    cctxs := s.cctxs.filter fun e => e.1 / 4096 != c
    clusters := mmap (fun _ x => { x with tlb := x.tlb.filter fun e => e.ctx != c }) s.clusters
    faults := s.faults.filter fun f => f.ctx != c } q

/-! ### Confirmation (R366, R371) -/

/-- Write a kill's status into the completion words of the context's chains, one by one, and then its own. -/
def killStatus (s : State) (c status : Nat) : State × Bool :=
  let r := (ctxD s c).chains.foldl (fun (a : State × Bool) (ch : Chain) =>
    if !a.2 then a
    else
      let (s1, ok) := if ch.cmpl = 0 then (a.1, true) else postChain a.1 c ch.cmpl status {}
      if ok then (modCtx s1 c fun x => { x with chains := x.chains.filter fun e => e.id != ch.id }, true) else (s1, false)) (s, true)
  if r.2 then postCompletion r.1 c status {} else r

/-- A KILL's result (R371). -/
def killReply (s : State) (w : Nat × Nat × Bool) : State :=
  later (modT s w.1 fun t => modRes t w.2.1 fun r =>
    { r with vals := valsOf r.dst (if w.2.2 then 0 else 1) true, wait := .none }) 0 (.resultReturn w.1 w.2.1)

/-- KILL_CONFIRM (R366, R371): the killers are answered, the statuses are written, and the context ends. A status that cannot be
written at once (R410) is tried again. -/
def execKillConfirm (ctx : Nat) (s : State) : Outcome State Fault Refusal :=
  .next <|
    match s.kills.find? fun k => k.ctx == ctx with
    | none => s
    | some k =>
      let s0 := k.waiters.foldl killReply { s with kills := s.kills.map fun x => if x.ctx = ctx then { x with waiters := [] } else x }
      let (s1, ok) := killStatus s0 ctx k.status
      if !ok then later s1 1 (.killConfirm ctx)
      else removeCtx { s1 with kills := s1.kills.filter fun x => x.ctx != ctx } ctx

/-- KILL (R371): a result of 0 at the confirmation, 1 at once for no live context, 1 after a kill in progress. -/
def execKill (h : Hdr) (f : Bool) (d c : Fin 16) (s : State) : Outcome State Fault Refusal :=
  issueL 1 (.kill h f d c) h s fun s => withRoom s fun s =>
    let n := (gVal s c).toNat % 65536
    let s0 := closeCur s
    if (getCtx s0 n).isNone then resultIn h 1 [.g d 1] s0
    else
      let first := !dying s0 n
      let (id, s1) := resultWait [.g d] (.kill n) s0
      retire h (startKill s1 n (if f then 0x82 else 0x80) (routerOf (coreOf s.cur)) [(s.cur, id, first)])

/-! ### Dropped messages (R68 to R70) -/

/-- A request that was dropped answers its sender as from a dead target: registers 0, predicates clear. -/
def deadReply (s : State) (tk rid : Nat) : State :=
  match findRes (getT s tk) rid with
  | some r => (match r.wait with
    | .request _ =>
      later { modT s tk (fun t => modRes t rid fun r => { r with vals := valsOf r.dst 0 false, wait := .none }) with
        spawns := mdel s.spawns rid } 0 (.resultReturn tk rid)
    | _ => s)
  | none => s

/-- MESSAGE_DROP (R69): the message is dropped and counted; a request's sender has a dead-target reply. -/
def execMessageDrop (tk rid ctx : Nat) (s : State) : Outcome State Fault Refusal :=
  .next (deadReply (countDrop s ctx) tk rid)

/-- MESSAGE_STALE_DROP (R68): a message that has travelled 2,048 clocks is dropped, counted as stale. -/
def execMessageStaleDrop (tk rid ctx : Nat) (s : State) : Outcome State Fault Refusal :=
  .next (deadReply (countDrop s ctx) tk rid)

end Sys2Proof.Machine
end

