-- ==== Sys2Proof/Machine/Log.lean ====
section
/-!
DEFINITION. The log (R402 to R404): the ring in the Reeve's SRAM, its records and their spill to the flash, and the records
that the device writes itself (R353).
-/

namespace Sys2Proof.Machine

open Host

/-- The log ring's first SRAM byte and its size in bytes (R402). -/
def ringBase (s : State) : Nat := 2 ^ 50 + 32 * s.reeve.logBase.toNat
def ringSize (s : State) : Nat := 32 * 2 ^ s.reeve.logLog2.toNat

/-- The SRAM byte of record SEQ in the log ring. -/
def recordLoc (s : State) (seq : Nat) : Nat := ringBase s + 32 * (seq % 2 ^ s.reeve.logLog2.toNat)

/-- A log record. -/
def logRecord (count : Word) (code source : Nat) (seq : W32) (arg : Word) : List Byte :=
  bytesLE 8 count.toNat ++ bytesLE 2 code ++ bytesLE 2 source ++ bytesLE 4 seq.toNat ++ bytesLE 8 arg.toNat ++ zeros 8

/-- The flash offset of record SEQ in the log spill area (R404). -/
def spillOff (seq : Nat) : Nat := 0x820000 + seq / 512 % 504 * 16384 + 32 * (seq % 512)

/-- The 512 records before SEQ go to their spill segment (R403). -/
def spillLog (s : State) (seq : Nat) : State :=
  let first := (seq + 2 ^ 32 - 512) % 2 ^ 32
  (List.range 512).foldl (fun s k =>
    let bs := Memory.readN s.mem (recordLoc s (first + k)) 32
    { s with reeve := { s.reeve with flash := Memory.writes s.reeve.flash ((locsFrom (spillOff (first + k)) 32).zip bs) } }) s

/-- Write a record at LOGHEAD (R402); at each multiple of 512 the records just completed are spilled (R403). -/
def writeLog (s : State) (code source : Nat) (arg : Word) : State :=
  let q := s.reeve.logHead
  let bs := logRecord (timerNow s) code source q arg
  let (_, s1) := append s ((locsFrom (recordLoc s q.toNat) 32).zip bs) none
  let s2 := { s1 with reeve := { s1.reeve with logHead := q + 1 } }
  if (q + 1).toNat % 512 = 0 then spillLog s2 (q + 1).toNat else s2

/-- The record of a task that a trap has ended, or of one whose code has no entry (R353): at its service core, with a code
and an argument that the spec does not give (log 51). -/
def logTask (s : State) (d : Nat) : State :=
  writeLog s ((Config.freeWord s.freeCtr (7000 + d)).toNat % 65536) (0x800 + d) (Config.freeWord s.freeCtr (7100 + d))

end Sys2Proof.Machine
end

