-- ==== Sys2Proof/Machine/Quit.lean ====
section
/-!
DEFINITION. How threads, launches and tasks end: QUIT (R72, R120, R346), the launch's completion (R58), and the end and
start of a service core's tasks (R304, R305, R353, R384).
-/

namespace Sys2Proof.Machine

open Host

/-! ### The end of a launch (R58) -/

/-- Whether the last thread of a launch has quit: none stands in a slot, an inbox, a save or a frame, no slot is being
scrubbed, and no chain is left. -/
def lastGone (s : State) (c : Nat) : Bool :=
  stands s c == [] && (ctxD s c).chains == [] && s.slots.all fun e => e.2.ctx != c || e.2.occ != .scrub

/-- Whether a launch's work is still under way: jobs (R58, step 1), tile stores and track accesses. -/
def workLeft (s : State) (c : Nat) : Bool :=
  ((ccsOf s c).any fun e => inFlight s c e.1 != 0) || (s.tileOps.any fun e => e.2.ctx == c) ||
    s.tracks.any fun e => e.2.acc.any fun a => a.ctx == c

/-- Whether a step on the agenda concerns a context's own affairs, which end with it. -/
def ctxStep (c : Nat) : Instr → Bool
  | .barRelease c' _ => c' == c
  | .itemArrive c' _ _ _ => c' == c
  | .putAccept c' _ _ => c' == c
  | .chainFold c' _ => c' == c
  | .chainSpread c' _ => c' == c
  | .autoSpreadRequest c' _ => c' == c
  | .chainComplete c' _ => c' == c
  | .graceExpiry c' => c' == c
  | .launchComplete c' => c' == c
  | .preempt c' _ => c' == c
  | .liveMigration c' _ _ => c' == c
  | .contextSave c' _ => c' == c
  | .saveResume c' _ => c' == c
  | .contextResume c' _ => c' == c
  | .prefetch c' _ => c' == c
  | _ => false

/-- Release every reservation of a context (R58, step 4), and let it leave the tables. A source slot whose acceptance is
still on its way stays occupied until it arrives (R85). -/
def releaseCtx (s : State) (c : Nat) : State :=
  let cores := (ccsOf s c).foldl (fun a e =>
    let a1 := addNew e.2.phys a
    match e.2.target with
    | some t => addNew t.phys a1
    | none => a1) []
  let left := (s.threads.filter fun e => e.2.ctx == 0 && (slotAt s e.1).ctx == c).map (·.1)
  let s1 := cores.foldl (fun s k => resetCore s c k) (left.foldl unreserve s)
  let s2 := { s1 with
    cctxs := s1.cctxs.filter fun e => e.1 / 4096 != c
    agenda := s1.agenda.filter fun e => !ctxStep c e.2 }
  removeCtx (cores.foldl (fun s k => fixCore (dropEngine s c (k / 8)) k) s2) c

/-- LAUNCH_COMPLETE (R58): its work done and its stores drained, the completion word reads 0x01 (0x82 where a thread was
discarded: R352), and the reservations are released. -/
def execLaunchComplete (ctx : Nat) (s : State) : Outcome State Fault Refusal :=
  .next <|
    match getCtx s ctx with
    | none => s
    | some x =>
      if x.run = .waiting ∨ x.run = .dying ∨ !lastGone s ctx then s
      else if workLeft s ctx then later s 1 (.launchComplete ctx)
      else
        let s1 := drainPending s ctx
        let (s2, ok) := postCompletion s1 ctx (if x.lost then 0x82 else 0x01) (ctxD s1 ctx).all
        if ok then releaseCtx s2 ctx else later s2 1 (.launchComplete ctx)

/-- A launch whose last thread may have gone. -/
def checkLast (s : State) (c : Nat) : State := if lastGone s c then later s 0 (.launchComplete c) else s

/-! ### QUIT (R72, R120, R346) -/

/-- Leave a thread's buffered stores and its view to its launch (R72, step 2). -/
def leaveStores (s : State) (tk : Nat) : State :=
  let t := getT s tk
  modCtx s t.ctx fun x => { x with
    drain := if t.buf = [] then x.drain else x.drain ++ [(tk, t.buf)]
    all := x.all.join t.view }

/-- A frame of a folded chain quits (R346): the next frame runs in its slot. A QUIT in a handler leaves the folded thread no
handler state, and a MAPEVT held is taken in the next frame, as R36 has it after a TRET. -/
def quitFrame (s : State) (c id tk : Nat) (t : Thread) : State :=
  let s1 := if t.inh then modT s tk fun t => { t with cause := 0, tval := 0, epc := 0, inh := false } else s
  resumeNext s1 c id tk false

/-- A launch's thread ends. -/
def quitThread (s : State) (tk : Nat) : State :=
  let t := getT s tk
  let c := t.ctx
  let s1 := replicaQuits (leaveStores (modT s tk fun t => { t with mons := [], region := none }) tk) tk
  let more := match t.chain with
    | some p => (match chainOf s1 c p.chain with
      | some ch => if ch.folded && !ch.reps.all (·.quit) then some ch.id else none
      | none => none)
    | none => none
  match more with
  | some id => quitFrame (modT s1 tk fun t => { t with buf := [], res := [], run := {}, ended := false }) c id tk t
  | none => checkLast (checkBars (freeSlot s1 tk) c) c

/-- The end of a task or of firmware on a service core or the Reeve (R353). -/
def quitPriv (s : State) (tk : Nat) : State :=
  let d := coreOf tk - 0x800
  let s1 := freeSlot s tk
  if 4 ≤ d then s1
  else
    let q := quadAt s1 d
    later (setQuad s1 d { q with task := q.task.map fun k => if k.ended.isNone then { k with ended := some 0x01 } else k }) 1
      (.taskStart d)

/-- QUIT (R72): once its results are back the thread ends, its stores with its launch. -/
def execQuit (h : Hdr) (s : State) : Outcome State Fault Refusal :=
  issue h s fun s =>
    if (curT s).res ≠ [] then retry s
    else if isCompute (coreOf s.cur) then quitThread (closeCur s) s.cur
    else quitPriv (drainAll (closeCur s) s.cur) s.cur

/-! ### Tasks (R304, R305, R353, R384) -/

/-- Whether a task is a fault task (R351), and the context it serves. -/
def faultCtx (k : Task) : Option Nat := if 0x30 ≤ k.code then some (k.g1.toNat % 65536) else none

/-- Whether a task may start (R304): no fault task of its context runs, and none of its context arrived before it. -/
def mayStart (s : State) (k : Task) : Bool :=
  match faultCtx k with
  | none => true
  | some c => s.quads.all fun e =>
    (match e.2.task with
      | some r => faultCtx r != some c
      | none => true) && e.2.tasks.all fun o => faultCtx o != some c || decide (k.seq ≤ o.seq)

/-- Where a task starts: a host task's entry, or that of its code in the quadrant's table (R374); 0 for none, as before
CTX.TV has set the table (log 51). -/
def taskEntry (s : State) (q : Quad) (k : Task) : Word :=
  match k.entry with
  | some e => e
  | none => match q.tv with
    | some a => w64 (memN s (a.toNat + 8 * k.code) 8)
    | none => 0

/-- A task's thread (R353). It starts with the empty view (log 47). -/
def taskThread (k : Task) (pc : Word) : Thread :=
  { Thread.blank with
    g := ((((Vector.replicate 16 (0 : Word)).set 0 (w64 k.code)).set 1 k.g1).set 2 k.g2).set 3 k.g3
    pc := pc
    priv := 1
    entry := .start }

/-- A fault task is no longer outstanding (R304). -/
def dropKey (s : State) (k : Task) : State :=
  match faultCtx k with
  | some c =>
    let key : FaultKey := { ctx := c, page := pageOf k.g2.toNat, cause := k.code }
    { s with faults := s.faults.filter (· != key) }
  | none => s

/-- What the end of a task by QUIT does: its waiters wake (R305), or the save it stood for goes on (R361). -/
def taskWakes (s : State) (k : Task) : State :=
  match faultCtx k with
  | none => s
  | some c =>
    if k.code = 0x34 then later s 0 (.saveResume c (k.g3.toNat % 4096))
    else wakeFaults s c fun page cause => cause == k.code && (k.code == 0x33 || page == pageOf k.g2.toNat)

/-- Write a host task's status (R384): its completion word lies in the service core's untranslated space (log 39). -/
def taskStatus (s : State) (d : Nat) (cmpl : Nat × Word) (st : Nat) : State :=
  match physAccess s (0x800 + d) cmpl.2.toNat with
  | .ok loc => completionIrq (writeStatus s loc st (viewNow s)) cmpl.1
  | _ => completionIrq (pushTask s d { code := 0x25, g1 := 0, g2 := cmpl.2, g3 := w64 st }) cmpl.1

/-- A task has ended with a status: by QUIT its waiters wake; one that a trap has ended is logged (R353). -/
def endTask (s : State) (d : Nat) (k : Task) (st : Nat) : State :=
  let s1 := dropKey (setQuad s d { quadAt s d with task := none }) k
  let s2 := if st = 0x01 then taskWakes s1 k else logTask s1 d
  match k.cmpl with
  | some x => taskStatus s2 d x st
  | none => s2

/-- Start the first task that may start, in order of arrival; a task without an entry is logged and dropped (R353). -/
def startTask (s : State) (d : Nat) : State :=
  let q := quadAt s d
  match q.tasks.find? (mayStart s) with
  | none => if q.tasks = [] ∨ (s.agenda.any fun e => e.2 == .taskStart d) then s else later s 1 (.taskStart d)
  | some k =>
    let tk := tkOf (0x800 + d) 0
    let rest := q.tasks.filter fun o => o.seq != k.seq
    let pc := taskEntry s q k
    if pc = 0 ∧ k.entry.isNone then later (logTask (dropKey (setQuad s d { q with tasks := rest }) k) d) 1 (.taskStart d)
    else if s.clock < placeableAt (slotAt s tk) then laterAt s (placeableAt (slotAt s tk)) (.taskStart d)
    else placeThread (setQuad s d { q with tasks := rest, task := some k }) tk (taskThread k pc)

/-- TASK_START (R353): a task that has ended is settled; a service core without a thread starts its next task. -/
def execTaskStart (d : Nat) (s : State) : Outcome State Fault Refusal :=
  .next <|
    let s1 := match (quadAt s d).task with
      | some k => (match k.ended with
        | some st => endTask s d k st
        | none => s)
      | none => s
    if (quadAt s1 d).task.isNone ∧ (mget s1.threads (tkOf (0x800 + d) 0)).isNone then startTask s1 d else s1

end Sys2Proof.Machine
end

