-- ==== Sys2Proof/Machine/Port.lean ====
section
/-!
DEFINITION. The host port (R378 to R381, R387, R397, R404): the registers of BAR0, queue and gang blocks, doorbells, and
the host's reads and writes on their paths (R154).
-/

namespace Sys2Proof.Machine

open Host

/-! ### Queue blocks (R380) -/

/-- A queue block; SC resets to q mod 4. -/
def qblkAt (s : State) (q : Nat) : QBlk := mgetD s.qblks q { sc := q % 4 }

/-- Replace a queue block. -/
def setQblk (s : State) (q : Nat) (b : QBlk) : State := { s with qblks := mset s.qblks q b }

/-- Packets pending in a queue. -/
def pendingIn (b : QBlk) : Bool := b.en && b.td == 0 && !b.err && b.head != b.tail

/-- Whether the host function is open (R397). -/
def hostOpen (s : State) : Bool := s.booted && !s.romHalted

/-- Flag bits as a number. -/
def flagN (b : Bool) (n : Nat) : Nat := if b then n else 0

/-- The register at an offset of a queue block, as read. -/
def qblkWord (s : State) (q off : Nat) : Word :=
  let b := qblkAt s q
  match off with
  | 0x00 => b.base &&& 0xFFFFFFFFFFFFFF80
  | 0x08 => w64 b.log2
  | 0x10 => w64 (b.gang * 256 + flagN b.irq 128 + b.sc * 4 + flagN b.priv 2 + flagN b.en 1)
  | 0x18 => b.head.setWidth 64
  | 0x20 => w64 (flagN b.err 4 + flagN b.tdone 2 + flagN (queueBusy s q) 1)
  | 0x28 => w64 (b.qctxI.toNat * 2 ^ 32 + b.qctxC.toNat)
  | 0x30 => b.qctxa &&& 0xFFFFFFFFFFFFFFFE
  | 0x38 => b.qtmpl &&& 0xFFFFFFFFFFFFFFE0
  | _ => 0

/-- A gang block. -/
def gangAt (s : State) (n : Nat) : Gang := mgetD s.gangs n {}

/-- Replace a gang block. -/
def setGang (s : State) (n : Nat) (g : Gang) : State := { s with gangs := mset s.gangs n g }

/-- The register at an offset of a gang block, as read; gang 0 is unused. -/
def gangWord (s : State) (n off : Nat) : Word :=
  let g := gangAt s n
  if n = 0 then 0
  else match off with
    | 0x00 => g.start
    | 0x08 => g.period
    | 0x10 => g.grace.setWidth 64
    | _ => 0

/-! ### BAR0 (R379, R397, R404) -/

/-- ID (R379): in the minimal state its revision is what the boot left. -/
def idWord (s : State) : Word := w64 (0x4820 * 2 ^ 32 + s.reeve.revision.toNat)

/-- The 8-byte register at an offset of BAR0 in the open state. -/
def bar0Word (s : State) (o : Nat) : Word :=
  if o = 0x0 then idWord s
  else if o = 0x8 then s.reeve.mapBase
  else if o = 0x10 then s.reeve.logHead.setWidth 64
  else if 0x100000 ≤ o ∧ o < 0x180000 then qblkWord s ((o - 0x100000) / 64) (o % 64)
  else if 0x300000 ≤ o ∧ o < 0x302000 then gangWord s ((o - 0x300000) / 32) (o % 32)
  else 0

/-- A byte of BAR0 (R379, R397, R404). -/
def bar0Byte (s : State) (o : Nat) : Byte :=
  if !hostOpen s then (if o < 8 then BitVec.ofNat 8 ((idWord s).toNat / 256 ^ o) else 0)
  else if 0x2000000 ≤ o ∧ o < 0x2080000 then
    (if o - 0x2000000 < ringSize s then Memory.read s.mem (ringBase s + (o - 0x2000000)) else 0)
  else if 0x3000000 ≤ o ∧ o < 0x37E0000 then Memory.read s.reeve.flash (0x820000 + (o - 0x3000000))
  else BitVec.ofNat 8 ((bar0Word s (o / 8 * 8)).toNat / 256 ^ (o % 8))

/-! ### Gang boundaries' clocks (R365, R387) -/

/-- The clock of a TIMER value that is not past. -/
def clockOfTimer (s : State) (v : Nat) : Nat := s.clock + (v - (timerNow s).toNat)

/-- The first boundary at or after a TIMER value. -/
def nextBoundary (g : Gang) (t : Nat) : Nat :=
  let st := g.start.toNat
  if t ≤ st then st else st + ceilDiv (t - st) g.period.toNat * g.period.toNat

/-- Schedule a gang's next boundary, not before a TIMER value; an earlier schedule is void. -/
def schedGang (s : State) (n t : Nat) : State :=
  let g := gangAt s n
  let s1 := { s with agenda := s.agenda.filter fun e => e.2 != .gangBoundary n }
  if g.period = 0 ∨ n = 0 then s1 else laterAt s1 (clockOfTimer s1 (nextBoundary g t)) (.gangBoundary n)

/-- Schedule a gang's start for the clock in which TIMER reaches its start value; an earlier schedule is void (R365). -/
def schedStart (s : State) (n : Nat) : State :=
  match (gangAt s n).startAt with
  | some v => laterAt { s with agenda := s.agenda.filter fun e => e.2 != .gangStart n } (clockOfTimer s v.toNat) (.gangStart n)
  | none => s

/-- TIMER has been set: what waits for a TIMER value is scheduled again (R365, R401, R406). -/
def retime (s : State) : State :=
  let s1 := (s.gangs.map (·.1)).foldl (fun s n => schedStart (schedGang s n (timerNow s).toNat) n) s
  if s1.reeve.alarm.isSome then later s1 1 .alarmExpiry else s1

/-! ### Register writes (R7, R380, R387) -/

/-- A write of QCTL (R380): EN rising and TD act through their own steps; EN stays 0 if the device clears it in this clock
(R7). -/
def writeQctl (s : State) (q : Nat) (v : Word) : State :=
  let b := qblkAt s q
  let b1 := { b with gang := bitsOf v 15 8, irq := bitsOf v 7 7 == 1 }
  let b2 := if b.en then b1 else { b1 with sc := bitsOf v 3 2, priv := bitsOf v 1 1 == 1 }
  let b3 := if bitsOf v 0 0 = 0 then { b2 with en := false } else b2
  let s1 := setQblk s q b3
  let s2 := if bitsOf v 0 0 = 1 ∧ !b.en ∧ b.tdoneAt ≠ some s.clock then later s1 0 (.queueEnable q) else s1
  match bitsOf v 5 4 with
  | 1 => later s2 0 (.queueDrain q)
  | 2 => later s2 0 (.queueAbort q)
  | _ => s2

/-- A write of a queue block's register; a bit of QSTAT that the device sets in this clock stays (R7). -/
def writeQblk (s : State) (q off : Nat) (v : Word) : State :=
  let b := qblkAt s q
  match off with
  | 0x00 => if b.en then s else setQblk s q { b with base := v &&& 0xFFFFFFFFFFFFFF80 }
  | 0x08 => if b.en then s else setQblk s q { b with log2 := bitsOf v 4 0 }
  | 0x10 => writeQctl s q v
  | 0x20 =>
    let b1 := { b with
      err := b.err && (bitsOf v 2 2 == 0 || b.errAt == some s.clock)
      tdone := b.tdone && (bitsOf v 1 1 == 0 || b.tdoneAt == some s.clock) }
    let s1 := setQblk s q b1
    if b.err && pendingIn b1 then later s1 0 (.packetTake q) else s1
  | 0x30 => if b.en then s else setQblk s q { b with qctxa := v &&& 0xFFFFFFFFFFFFFFFE }
  | 0x38 => if b.en then s else setQblk s q { b with qtmpl := v &&& 0xFFFFFFFFFFFFFFE0 }
  | _ => s

/-- A write of a gang block's register (R387): the next boundary follows. -/
def writeGang (s : State) (n off : Nat) (v : Word) : State :=
  let g := gangAt s n
  if n = 0 then s
  else match off with
    | 0x00 => schedGang (setGang s n { g with start := v }) n (timerNow s).toNat
    | 0x08 => schedGang (setGang s n { g with period := v }) n (timerNow s).toNat
    | 0x10 => setGang s n { g with grace := v.setWidth 32 }
    | _ => s

/-- Whether a host request is a doorbell. -/
def HostReq.isBell : HostReq → Bool
  | .bell _ _ => true
  | _ => false

/-- What is left of a request, or a request whose line has found another home, enters the path that carries it, behind the
earlier ones and before the doorbells that came after it (R154, R381). -/
def pushHost (s : State) (path : Nat) (r : HostReq) : State :=
  let l := mgetD s.hpaths path []
  { s with hpaths := mset s.hpaths path ((l.takeWhile fun x => !x.isBell) ++ [r] ++ l.dropWhile fun x => !x.isBell) }

/-- A doorbell stands on every path behind the requests before it: what the host wrote before a doorbell is visible before it
(R381). -/
def pushBell (s : State) (q val : Nat) : State :=
  (List.range 4).foldl (fun s p => { s with hpaths := mset s.hpaths p (mgetD s.hpaths p [] ++ [.bell q val]) }) s

/-- REGISTER_WRITE (R7, R379): a host write of 8 bytes to a register of BAR0. Bytes not listed, and in the minimal state
all, ignore writes. -/
def execRegisterWrite (addr val : Nat) (s : State) : Outcome State Fault Refusal :=
  .next <|
    if !hostOpen s then s
    else if 0x100000 ≤ addr ∧ addr < 0x180000 then writeQblk s ((addr - 0x100000) / 64) (addr % 64) (w64 val)
    else if 0x200000 ≤ addr ∧ addr < 0x210000 then
      let q := (addr - 0x200000) / 8
      later (pushBell s q val) 0 (.doorbell q val)
    else if 0x300000 ≤ addr ∧ addr < 0x302000 then writeGang s ((addr - 0x300000) / 32) (addr % 32) (w64 val)
    else s

/-- QUEUE_ENABLE (R380): EN := 1 sets HEAD and the tail to 0. -/
def execQueueEnable (q : Nat) (s : State) : Outcome State Fault Refusal :=
  .next <|
    let b := qblkAt s q
    if !hostOpen s || b.en || decide (8192 ≤ q) then s
    else setQblk s q { b with en := true, head := 0, tail := 0, marks := [], td := 0 }

/-- The effect of a doorbell (R381). -/
def ring (s : State) (q val : Nat) : State :=
    let b := qblkAt s q
    let tail : W32 := BitVec.ofNat 32 val
    let step := (tail - b.tail).toNat
    if !hostOpen s || !b.en || b.td != 0 || b.err || decide (8192 ≤ q) then s
    else if step = 0 ∨ 2 ^ 31 ≤ step then s
    else if 2 ^ b.log2 < (tail - b.head).toNat then setQblk s q { b with err := true, errAt := some s.clock }
    else
      let s1 := setQblk s q { b with tail := tail, marks := b.marks ++ [(tail.toNat, s.clock)] }
      let (d, s2) := takeDelay (raiseInt s1 (0x800 + b.sc) 2) 65536
      later s2 d (.packetTake q)

/-- DOORBELL (R381, R154): it acts once every host request before it has been performed; until then it waits. -/
def execDoorbell (q val : Nat) (s : State) : Outcome State Fault Refusal :=
  .next <|
    let ls := (List.range 4).map fun p => mgetD s.hpaths p []
    if ls.all (· == []) then ring s q val
    else if ls.all fun l => l.head? == some (.bell q val) then
      ring ((List.range 4).foldl (fun s p => { s with hpaths := mset s.hpaths p ((mgetD s.hpaths p []).drop 1) }) s) q val
    else if ls.all fun l => l.contains (.bell q val) then later s 1 (.doorbell q val)
    else later (pushBell s q val) 1 (.doorbell q val)

/-! ### Host requests (R154, R378) -/

/-- The path that carries a host access to a byte of BAR2 (R154): the die of its line's home slice under the current
generation. -/
def hostPath (s : State) (off : Nat) : Nat := dieOf (homeSlice s.cmap s.cmap.sliceGen.toNat off)

/-- The bytes of a host access that lie in its first line, of 256 bytes. -/
def lineHead (off n : Nat) : Nat := min n (256 - off % 256)

/-- Put the rest of a host access, if any is left, on the path of its next line: at the head of the same path, else behind
what the other path holds (R154). -/
def restHost (s : State) (path off : Nat) (left : Nat) (r : HostReq) : State :=
  if left = 0 then s
  else if hostPath s off = path then { s with hpaths := mset s.hpaths path (r :: mgetD s.hpaths path []) }
  else pushHost s (hostPath s off) r

/-- HOST_WRITE (R154): the write at the head of a path appends at every location it covers, line by line, each on the path of
its line's die; bytes beyond the stacks' capacity, and in the minimal state all, are dropped. -/
def execHostWrite (path : Nat) (s : State) : Outcome State Fault Refusal :=
  .next <|
    match mgetD s.hpaths path [] with
    | .write off data :: rest =>
      let s1 := { s with hpaths := mset s.hpaths path rest }
      if !hostOpen s then s1
      else if hostPath s off ≠ path then pushHost s1 (hostPath s off) (.write off data)
      else
        let n := lineHead off data.length
        let cells := ((locsFrom off n).zip data).filter fun c => decide (c.1 < hbmBytes s.cmap)
        let s2 := (sectorCells cells).foldl (fun s w => (append s w none).2) s1
        let s3 := restHost s2 path (off + n) (data.length - n) (.write (off + n) (data.drop n))
        if n < data.length then later s3 0 (.hostWrite (hostPath s (off + n))) else s3
    | _ => s

/-- A byte that a host read of BAR2 takes (R378). -/
def bar2Byte (s : State) (o : Nat) : Byte :=
  if hostOpen s && decide (o < hbmBytes s.cmap) then Memory.read s.mem o else 0xFF

/-- HOST_READ (R154, R378, R379): the read at the head of a path takes the last write of every location, line by line, each
on the path of its line's die; or the registers of BAR0. -/
def execHostRead (path : Nat) (s : State) : Outcome State Fault Refusal :=
  .next <|
    match mgetD s.hpaths path [] with
    | .read off len :: rest =>
      let s1 := { s with hpaths := mset s.hpaths path rest }
      if hostOpen s && hostPath s off != path then pushHost s1 (hostPath s off) (.read off len)
      else
        let n := lineHead off len
        let s2 := { s1 with hreads := s.hreads ++ [(locsFrom off n).map (bar2Byte s)] }
        let s3 := restHost s2 path (off + n) (len - n) (.read (off + n) (len - n))
        if n < len then later s3 0 (.hostRead (hostPath s (off + n))) else s3
    | .reg off len :: rest =>
      { s with hpaths := mset s.hpaths path rest, hreads := s.hreads ++ [(locsFrom off len).map (bar0Byte s)] }
    | _ => s

end Sys2Proof.Machine
end

