-- ==== Sys2Proof/Machine/Launch.lean ====
section
/-!
DEFINITION. Launches: packets and context templates (R48 to R54, R409), taking a packet (R381 to R384), placing a launch
(R49, R55 to R57, R264 to R266, R313), pre-emption (R356, R362), teardown of a queue (R367, R385) and gangs (R365,
R387).
-/

namespace Sys2Proof.Machine

open Host

/-! ### Packets and templates (R48, R409) -/

/-- The location of a bus address of host memory. -/
def hostLoc (a : Nat) : Nat := 2 ^ 49 + a % 2 ^ 48

/-- The packet at the head of a queue. -/
def packetAt (s : State) (b : QBlk) : Packet :=
  let a := hostLoc (b.base.toNat + 128 * (b.head.toNat % 2 ^ b.log2))
  let f := fun (o : Nat) => w64 (memN s (a + o) 8)
  { entry := f 0x00, arg0 := f 0x08, arg1 := f 0x10, arg2 := f 0x18, arg3 := f 0x20, cmpl := f 0x28, place := f 0x30,
    res := f 0x38, grid := f 0x40, ctl := f 0x48,
    deps := (List.range 4).map fun k => (w64 (memN s (a + 0x50 + 12 * k) 8), BitVec.ofNat 32 (memN s (a + 0x58 + 12 * k) 4)) }

/-- A context template. -/
structure Tmpl where
  troot    : Word
  tpref    : Word
  saveBase : Word
  limit    : Nat
  pad      : Nat
  deriving DecidableEq, Repr

/-- The template of a queue; without one, zeros. -/
def tmplAt (s : State) (b : QBlk) : Tmpl :=
  if b.qtmpl = 0 then { troot := 0, tpref := 0, saveBase := 0, limit := 0, pad := 0 }
  else
    let a := hostLoc b.qtmpl.toNat
    { troot := w64 (memN s a 8), tpref := w64 (memN s (a + 8) 8), saveBase := w64 (memN s (a + 16) 8),
      limit := memN s (a + 24) 4, pad := memN s (a + 28) 4 }

/-- A must-be-zero bit of a template is set (R297, R373, R409). -/
def tmplBad (t : Tmpl) : Bool :=
  bitsOf t.troot 63 44 != 0 || bitsOf t.tpref 11 8 != 0 || bitsOf t.saveBase 63 56 != 0 || bitsOf t.saveBase 19 0 != 0 ||
    t.pad != 0

/-- GRACE.LIMIT that a template gives (R33, R409). -/
def tmplLimit (t : Tmpl) : W32 := if t.limit = 0 then 0x00400000 else BitVec.ofNat 32 (max t.limit 0x10000)

/-- Rectangle width and height (R49). -/
def pktW (p : Packet) : Nat := bitsOf p.place 11 8 + 1
def pktH (p : Packet) : Nat := bitsOf p.place 15 12 + 1

/-- Cores that CMASK names in a cluster. -/
def pktCores (p : Packet) : List Nat := natsWhere 8 fun k => bitN p.place.toNat (40 + k)

/-- CHAIN and the shared-track set (R51). -/
def pktChain (p : Packet) : Bool := bitsOf p.ctl 1 1 == 1

/-! ### Dependences (R52) -/

/-- How a dependence stands. -/
inductive DepSt where
  | met | waits | aborted | unreadable
  deriving DecidableEq, Repr

/-- A dependence as its word reads now; one whose address has a bit that must be zero names no word (log 39). -/
def depState (s : State) (troot : Word) (d : Word × W32) : DepSt :=
  if d.1 = 0 then .met
  else if bitsOf d.1 63 56 ≠ 0 ∨ bitsOf d.1 2 0 ≠ 0 then .unreadable
  else match wordAccess s 0 troot d.1.toNat false with
    | .ok loc =>
      let st := statusAt s loc
      if st = 0x01 ∧ memN s loc 4 = d.2.toNat then .met
      else if 0x80 ≤ st ∧ st ≤ 0x82 then .aborted
      else .waits
    | _ => .unreadable

/-! ### Rejection (R54) -/

/-- A must-be-zero field, ENTRY or CMPL that no packet may hold (R48 to R52, R54). -/
def fieldsBad (p : Packet) : Bool :=
  bitsOf p.place 63 48 != 0 || bitsOf p.place 39 39 != 0 || bitsOf p.place 34 16 != 0 || bitsOf p.place 47 40 == 0 ||
  bitsOf p.res 63 42 != 0 || bitsOf p.res 27 25 != 0 || bitsOf p.res 15 0 != 0 ||
  bitsOf p.ctl 19 18 != 0 || bitsOf p.ctl 15 2 != 0 ||
  p.deps.any (fun d => bitsOf d.1 63 56 != 0 || bitsOf d.1 2 0 != 0) ||
  (!pktChain p && (decide (4 < bitsOf p.entry 2 0) || bitsOf p.entry 5 3 != 0)) || bitsOf p.cmpl 2 0 != 0

/-- The live tracks of a core in the map. -/
def liveTracks (s : State) (core : Nat) : Nat := (natsWhere 64 fun t => !trackDead s.cmap core t).length

/-- Whether a cluster could ever hold a launch with ANY (R49). -/
def clusterCould (s : State) (p : Packet) (r : Nat) : Bool :=
  (pktCores p).all (fun k => inService s.cmap clsCore (8 * r + k) && decide (pktTracks p ≤ liveTracks s (8 * r + k))) &&
    (pktTiles p == 0 || inService s.cmap clsEngine r)

/-- The cores a launch with a rectangle uses (R49). -/
def rectCores (s : State) (p : Packet) : List Nat := coresIn s.cmap p (rectClusters p)

/-- The request exceeds what the live package holds (R54, R265, R289). -/
def exceeds (s : State) (p : Packet) : Bool :=
  decide (240 < bitsOf p.res 24 16 ∨ 64 < pktTracks p) ||
  (if pktAny p then
    decide (pktW p * pktH p * (pktCores p).length * pktSlots p < pktLanes p) ||
      decide ((natsWhere 256 (clusterCould s p)).length < pktW p * pktH p)
   else
    decide (16 < bitsOf p.place 3 0 + pktW p ∨ 16 < bitsOf p.place 7 4 + pktH p) ||
      decide ((rectCores s p).length * pktSlots p < pktLanes p) ||
      (rectCores s p).any fun k => decide (liveTracks s k < pktTracks p) || (pktTiles p != 0 && !inService s.cmap clsEngine (k / 8)))

/-- Whether the owner of a shared-track set reserves enough tracks on a core (R265). -/
def sharedOn (s : State) (p : Packet) (core : Nat) : Bool :=
  !pktShares p || (membersOn s core).any fun m => m.1 == pktShCtx p && decide (pktShBase p + pktShCnt p ≤ m.2.2.nTracks)

/-- The shared-track set cannot be had (R265). -/
def sharedBad (s : State) (p : Packet) : Bool :=
  pktShares p && (decide (64 < pktTracks p + pktShCnt p ∨ 64 < pktShBase p + pktShCnt p) ||
    !liveCtx s (pktShCtx p) || (!pktAny p && !(rectCores s p).all (sharedOn s p)))

/-- The descriptor of a chain launch under a root: none where its bytes cannot be read now, or its form is bad. -/
def chainDescAt (s : State) (c : Nat) (troot : Word) (p : Packet) : Option ChainDesc :=
  match wordAccess s c troot p.entry.toNat false with
  | .ok loc => parseDesc p.entry (Memory.readN s.mem loc 64)
  | _ => none

/-- The lanes of a chain's replicas (R313). -/
def descLanes (d : ChainDesc) : Nat := d.stages.foldl (fun a e => a + e.2.1) 0

/-- A chain launch whose lane count is not that of its descriptor (R313). -/
def chainLanesBad (s : State) (troot : Word) (p : Packet) : Bool :=
  pktChain p && bitsOf p.entry 5 0 == 0 && (chainDescAt s 0 troot p).any fun d => descLanes d != pktLanes p

/-- The packet is rejected (R54), its dependences aside. -/
def packetBad (s : State) (p : Packet) (t : Tmpl) : Bool :=
  fieldsBad p || decide (16 < pktTiles p * (pktCores p).length) || tmplBad t || exceeds s p || sharedBad s p ||
    chainLanesBad s t.troot p

/-- What becomes of the head packet of a queue. -/
inductive PktVerdict where
  | waits
  | task (ok : Bool)
  | status (st : Nat)
  | accept
  deriving DecidableEq, Repr

/-- A task packet's form (R384): every field but ENTRY, ARG0 to ARG2 and CMPL is zero. -/
def taskPacketOk (p : Packet) : Bool :=
  p.arg3 == 0 && p.place == 0 && p.res == 0 && p.grid == 0 && p.ctl == 0 && p.deps.all (fun d => d.1 == 0 && d.2 == 0) &&
    bitsOf p.cmpl 2 0 == 0

/-- The verdict on the head packet of a queue (R52, R54, R382, R384): one whose dependences are not yet met is passed over,
and is checked when it is taken. -/
def pktVerdict (s : State) (b : QBlk) : PktVerdict :=
  let p := packetAt s b
  if b.priv then .task (taskPacketOk p)
  else
    let t := tmplAt s b
    let ds := p.deps.map (depState s t.troot)
    if ds.contains .unreadable then .status 0x80
    else if ds.contains .aborted then .status (if packetBad s p t then 0x80 else 0x81)
    else if ds.contains .waits then .waits
    else if packetBad s p t then .status 0x80
    else .accept

/-! ### Taking a packet (R382, R383) -/

/-- Whether an index is ahead of another, modulo 2^32. -/
def ahead (a b : W32) : Bool := decide (0 < (a - b).toNat ∧ (a - b).toNat < 2 ^ 31)

/-- The place of a queue's head packet among those of its service core: PRIO, doorbell clock, queue (R382). -/
def takeKey (s : State) (q : Nat) (b : QBlk) : Nat × Nat × Nat :=
  let since := ((b.marks.find? fun m => ahead (BitVec.ofNat 32 m.1) b.head).map (·.2)).getD 0
  (if b.priv then 0 else pktPrio (packetAt s b), since, q)

/-- Order of places. -/
def keyBefore (a b : Nat × Nat × Nat) : Bool :=
  decide (a.1 < b.1 ∨ (a.1 = b.1 ∧ (a.2.1 < b.2.1 ∨ (a.2.1 = b.2.1 ∧ a.2.2 < b.2.2))))

/-- Whether the service core prefers another queue's head packet (R382). -/
def outbid (s : State) (q : Nat) (b : QBlk) : Bool := s.qblks.any fun e =>
  e.1 != q && e.2.sc == b.sc && pendingIn e.2 && keyBefore (takeKey s e.1 e.2) (takeKey s q b) && pktVerdict s e.2 != .waits

/-- Put one step on the agenda in d clocks, in place of any there of the same name. -/
def soon (s : State) (d : Nat) (i : Instr) : State := later { s with agenda := s.agenda.filter fun e => e.2 != i } d i

/-- The head packet of a queue is taken: HEAD rises and the CTXID is reported (R382, R383). -/
def takeHead (s : State) (q c : Nat) : State :=
  let b := qblkAt s q
  let h := b.head + 1
  let s1 := setQblk s q { b with
    head := h, marks := b.marks.filter (fun m => ahead (BitVec.ofNat 32 m.1) h), qctxI := b.head, qctxC := BitVec.ofNat 16 c }
  let s2 :=
    if b.qctxa = 0 then s1
    else (append s1 ((locsFrom (hostLoc (b.qctxa.toNat + 2 * (b.head.toNat % 2 ^ b.log2))) 2).zip (bytesLE 2 c)) none).2
  if pendingIn (qblkAt s2 q) then soon s2 0 (.packetTake q) else s2

/-- Write the statuses that a queue's settled packets are owed, in order, as far as they can be written (R410). -/
def payOwed (s : State) (q : Nat) : State :=
  (qblkAt s q).owed.foldl (fun s o =>
    let (s1, ok) := postStatus s o.die 0 o.troot o.cmpl.toNat o.status {}
    if ok then completionIrq (setQblk s1 q { qblkAt s1 q with owed := (qblkAt s1 q).owed.erase o }) q else s1) s

/-- Write the status of a packet that has been taken and has no context (R54, R410): under its queue's template, at once or when
it can be, or, for a task packet, in the service core's space. -/
def packetStatus (s : State) (q : Nat) (b : QBlk) (st : Nat) : State :=
  let p := packetAt s b
  if b.priv then taskStatus s b.sc (q, p.cmpl) st
  else
    let o : Owed := { cmpl := p.cmpl, troot := (tmplAt s b).troot, die := b.sc, status := st }
    payOwed (setQblk s q { qblkAt s q with owed := (qblkAt s q).owed ++ [o] }) q

/-- The next free CTXID from a number on (R355). -/
def freeCtxId (s : State) (k : Nat) : Option Nat :=
  (List.range 65535).findSome? fun i =>
    let c := 1 + (k + i) % 65535
    if (getCtx s c).isNone then some c else none

/-- Accept a packet (R55, R355, R409): its context waits in the run queues. -/
def acceptPacket (s : State) (q : Nat) (b : QBlk) : State :=
  let (k, s1) := takeDelay s 65535
  match freeCtxId s1 k with
  | none => soon s 1 (.packetTake q)
  | some c =>
    let t := tmplAt s b
    let (n, s2) := newId s1
    let x : Ctx := { pkt := packetAt s b, queue := q, die := b.sc, index := b.head.toNat, age := n, run := .waiting, limit := tmplLimit t,
                     troot := t.troot, tpref := t.tpref, saveBase := t.saveBase }
    later (takeHead (setCtx s2 c x) q c) 0 (.launchStart c)

/-- The task of a task packet (R384). -/
def packetTask (q : Nat) (p : Packet) : Task :=
  { code := 0x28, g1 := p.arg0, g2 := p.arg1, g3 := p.arg2, entry := some p.entry, cmpl := some (q, p.cmpl) }

/-- The statuses that a queue's packets are owed are tried again in the next clock. -/
def oweNext (s : State) (q : Nat) (again : Instr) : State := if (qblkAt s q).owed = [] then s else soon s 1 again

/-- The head packet of a queue is considered (R382): it is taken when the service core prefers it, and then checked; one whose
dependences are not met is passed over. -/
def considerHead (s : State) (q : Nat) : State :=
  let b := qblkAt s q
  if !pendingIn b then s
  else if outbid s q b then soon s 1 (.packetTake q)
  else match pktVerdict s b with
    | .waits => soon s 1 (.packetTake q)
    | .task true => pushTask (takeHead s q 0) b.sc (packetTask q (packetAt s b))
    | .task false => packetStatus (takeHead s q 0) q b 0x80
    | .status st => packetStatus (takeHead s q 0) q b st
    | .accept => acceptPacket s q b

/-- PACKET_TAKE (R382, R410): statuses still owed are written, and the head packet of the queue is considered. -/
def execPacketTake (q : Nat) (s : State) : Outcome State Fault Refusal :=
  .next <|
    if !hostOpen s then s
    else
      let s1 := considerHead (payOwed s q) q
      if s1.agenda.any (fun e => e.2 == .packetTake q) then s1 else oweNext s1 q (.packetTake q)

/-! ### Placing a launch (R49, R55, R56) -/

/-- Whether a core can meet a launch's reservation now (R55, R289), its engine aside. -/
def coreFits (s : State) (p : Packet) (core : Nat) : Bool :=
  coreOpen s core && modeOk s core (pktDet p) && decide (pktSlots p ≤ (freeSlotsOn s core).length) &&
    (placeShare (sharesOn s core) (pktSpad p)).isSome && decide (pktTracks p ≤ (freeTracks s core).length)

/-- Whether a core can meet a launch's reservation now (R55, R356), the engine of its cluster included: for all the cores
that the launch uses there. -/
def coreServes (s : State) (c : Nat) (p : Packet) (core : Nat) : Bool :=
  coreFits s p core && engineOpen s (core / 8) c (pktTiles p * (coresIn s.cmap p [core / 8]).length)

/-- The clusters of cores, ascending. -/
def clustersOf (cores : List Nat) : List Nat := natsWhere 256 fun r => cores.any fun k => k / 8 == r

/-- Whether the engines of the cores' clusters can serve a launch (R238). -/
def enginesFit (s : State) (c : Nat) (p : Packet) (cores : List Nat) : Bool :=
  (clustersOf cores).all fun r => engineOpen s r c (pktTiles p * (cores.filter fun k => k / 8 == r).length)

/-- Whether a launch can be placed on cores now, none ahead of it in their run queues. -/
def launchFits (s : State) (c : Nat) (p : Packet) (cores : List Nat) : Bool :=
  cores.all (fun k => coreFits s p k && !queuedBefore s k c) && enginesFit s c p cores

/-- The cores of a cluster that CMASK names. -/
def maskCores (p : Packet) (r : Nat) : List Nat := (pktCores p).map (8 * r + ·)

/-- The used cores of a launch (R49); with ANY, none until enough clusters can take it. -/
def chosenCores (s : State) (c : Nat) (p : Packet) : Option (List Nat) :=
  if pktAny p then
    let cls := (natsWhere 256 fun r => (maskCores p r).all (fun k => inService s.cmap clsCore k) && launchFits s c p (maskCores p r)).take
      (pktW p * pktH p)
    if cls.length < pktW p * pktH p then none else some (cls.flatMap (maskCores p))
  else some (rectCores s p)

/-- A launch that cannot start on its used cores: cores have been lost, or its shared set does not stand on each of them
(R265; log 39). -/
def launchVoid (s : State) (p : Packet) (cores : List Nat) : Bool :=
  decide (cores.length * pktSlots p < pktLanes p) || (pktShares p && !cores.all (sharedOn s p))

/-- A track as a launch finds it (R266): its contents undefined. -/
def freshTrack (ctr k : Nat) (t : Track) : Track :=
  { t with words := [], bad := [], fill := ctr * 2 ^ 17 + k, cursor := 0, back := false, herr := 0, owner := none, gang := false,
           lost := false, head := 0, move := none, settled := 0, acc := [], wait := [] }

/-- The tracks of a shared set on a core (R265). -/
def sharedTracks (s : State) (p : Packet) (core : Nat) : List Nat :=
  if !pktShares p then []
  else match (membersOn s core).find? fun m => m.1 == pktShCtx p with
    | some m => (m.2.2.tmap.drop (pktShBase p)).take (pktShCnt p)
    | none => []

/-- Reserve on one used core for logical core l of m (R55, R56, R264). -/
def reserveCore (s : State) (c : Nat) (p : Packet) (m l core cluster : Nat) : State :=
  let slots := (freeSlotsOn s core).take (pktSlots p)
  let own := (freeTracks s core).take (pktTracks p)
  let cc : CoreCtx := {
    phys := core, cluster := cluster, slots := maskOf slots, nTracks := own.length,
    shOff := (placeShare (sharesOn s core) (pktSpad p)).getD 0, shSize := pktSpad p, tmap := own ++ sharedTracks s p core }
  let s1 := takeSlots s core c l slots
  let s2 := (slots.zip (List.range slots.length)).foldl (fun s e =>
    setSlot s (tkOf core e.1) { slotAt s (tkOf core e.1) with home := l + m * e.2 }) s1
  let s3 := own.foldl (fun s t => setTrack s (64 * core + t) (freshTrack s.freeCtr (64 * core + t) (trackAt s (64 * core + t)))) s2
  fixCore (setCC s3 c l cc) core

/-- ROWMAP with every row skipped (R238). -/
def rowsSkipped : BitVec 768 := BitVec.ofNat 768 ((List.range 64).foldl (fun a k => a + 8 * 16 ^ k) 0)

/-- A launch takes the engine of a cluster (R238): banks +0, tiles empty, every row skipped. -/
def takeEngine (s : State) (c cl : Nat) : State :=
  let s1 := setCluster s cl { clusterAt s cl with holder := some c, banks := [], rowmap := rowsSkipped }
  (List.range 128).foldl (fun s t => setTile s (128 * cl + t) {}) s1

/-- The first thread of a lane (R57, R155). -/
def launchThread (s : State) (c : Nat) (p : Packet) (l lane : Nat) : Thread :=
  let ln := BitVec.ofNat 16 lane
  { Thread.blank with
    ctx := c
    lcore := l
    g := ((((Vector.replicate 16 (0 : Word)).set 0 p.arg0).set 1 p.arg1).set 2 p.arg2).set 3 p.arg3
    pc := p.entry
    lane := ln
    rng := seedGen 1 ln
    entry := .start
    view := viewNow s }

/-- Place the lanes of a launch (R56). -/
def placeLanes (s : State) (c : Nat) (p : Packet) (m : Nat) : State :=
  (List.range (pktLanes p)).foldl (fun s lane =>
    match getCC s c (lane % m) with
    | none => s
    | some cc => match (slotsIn cc.slots)[lane / m]? with
      | some k => placeThread s (tkOf cc.phys k) (launchThread s c p (lane % m) lane)
      | none => s) s

/-- Write a `.track` image into the tracks of a launch's cores (R94): for each virtual track its first address and its words. -/
def applyLoad (s : State) (c : Nat) (im : List (Nat × Nat × List W32)) : State :=
  (ccsOf s c).foldl (fun s e => im.foldl (fun s w => match e.2.tmap[w.1]? with
    | none => s
    | some t =>
      let k := 64 * e.2.phys + t
      setTrack s k (((List.range w.2.2.length).zip w.2.2).foldl (fun x y => if w.2.1 + y.1 < 16384 then putWord x (w.2.1 + y.1) y.2 else x)
        (trackAt s k))) s) s

/-- The loader writes the launch's `.track` image before its first instruction (R94): the next of the images that the
environment has given, in the order in which launches start (log 16). -/
def loadTracks (s : State) (c : Nat) : State :=
  match s.loads with
  | [] => s
  | im :: r => applyLoad { s with loads := r } c im

/-- Reserve for a launch on its used cores, and start its context (R33, R44, R55). -/
def reserveLaunch (s : State) (c : Nat) (p : Packet) (cores : List Nat) : State :=
  let cls := clustersOf cores
  let s1 := (cores.zip (List.range cores.length)).foldl (fun s e =>
    reserveCore s c p cores.length e.2 e.1 ((findIdx? (· == e.1 / 8) cls).getD 0)) s
  let s2 := if pktTiles p = 0 then s1 else cls.foldl (fun s r => takeEngine s c r) s1
  modCtx (loadTracks s2 c) c fun x => { x with
    run := .running, ncores := cores.length, nclus := cls.length, ackv := s.cmap.version, mapvec := s.cmap.version,
    gen := s.cmap.sliceGen.toNat }

/-- A launch that does not start receives 0x80 and ends (R54, R317). -/
def voidLaunch (s : State) (c : Nat) : State :=
  let (s1, ok) := postCompletion s c 0x80 {}
  if ok then releaseCtx s1 c else soon s1 1 (.launchStart c)

/-- Start a chain launch on its cores (R313, R317): a descriptor that is bad, or a chain that does not start, ends it. -/
def startChainLaunch (s : State) (c : Nat) (p : Packet) (cores : List Nat) : State :=
  let troot := (ctxD s c).troot
  if bitsOf p.entry 5 0 ≠ 0 then voidLaunch s c
  else match wordAccess s c troot p.entry.toNat false with
    | .bad => voidLaunch s c
    | .fault cause reason => soon (handFault s (ctxD s c).die c 0xFFF p.entry.toNat cause (reason + 1024)) 1 (.launchStart c)
    | .ok _ =>
      match chainDescAt s c troot p with
      | none => voidLaunch s c
      | some d =>
        if descLanes d ≠ pktLanes p ∨ pktSpad p < d.qoff + areaSize d then voidLaunch s c
        else
          let s1 := reserveLaunch s c p cores
          match startChain s1 c (launchThread s1 c p 0 0) true d with
          | (0, _) => voidLaunch s c
          | (_, s2) => s2

/-- Start a launch on its cores. -/
def startLaunch (s : State) (c : Nat) (p : Packet) (cores : List Nat) : State :=
  if pktChain p then startChainLaunch s c p cores
  else placeLanes (reserveLaunch s c p cores) c p cores.length

/-- Ask for room on the cores that cannot take a launch, where it is the first to want it (R356). -/
def askRoom (s : State) (c : Nat) (p : Packet) (cores : List Nat) : State :=
  (cores.filter fun k => !coreServes s c p k && !queuedBefore s k c).foldl (fun s k => soon s 0 (.preempt c k)) s

/-- Whether the gang of a launch's queue lets it start (R365): the start covers the launches accepted before it. -/
def gangMay (s : State) (x : Ctx) : Bool :=
  let g := gangAt s (qblkAt s x.queue).gang
  (qblkAt s x.queue).gang == 0 || g.period == 0 || g.due.any fun n => decide (x.age ≤ n.toNat)

/-- LAUNCH_START (R49, R55): a waiting launch is placed in the first clock in which its reservation is met. -/
def execLaunchStart (ctx : Nat) (s : State) : Outcome State Fault Refusal :=
  .next <|
    match getCtx s ctx with
    | none => s
    | some x =>
      if x.run ≠ .waiting then s
      else if !gangMay s x then soon s 1 (.launchStart ctx)
      else match chosenCores s ctx x.pkt with
        | none => soon s 1 (.launchStart ctx)
        | some cores =>
          if launchVoid s x.pkt cores then voidLaunch s ctx
          else if launchFits s ctx x.pkt cores then startLaunch s ctx x.pkt cores
          else soon (askRoom s ctx x.pkt cores) 1 (.launchStart ctx)

/-! ### Pre-emption (R356, R362) -/

/-- Whether a move or a save of a core context is about to begin. -/
def moveComing (s : State) (c l : Nat) : Bool := s.agenda.any fun e => match e.2 with
  | .liveMigration c' l' _ => c' == c && l' == l
  | .contextSave c' l' => c' == c && l' == l
  | _ => false

/-- The course R356 takes with a victim, if one is open: a live migration, or a save. -/
def victimCourse (s : State) (m : Member) : Option Instr :=
  let room := if coveredBy265 s m then none else findRoom s [m]
  match room with
  | some (k, _) => some (.liveMigration m.1 m.2.1 k)
  | none => if (ctxD s m.1).saveBase = 0 then none else some (.contextSave m.1 m.2.1)

/-- The victim of R356 on a core for a priority: the greatest PRIO, then the youngest, with its course. -/
def victimOn (s : State) (core prio : Nat) : Option (Member × Instr) :=
  let open_ := (membersOn s core).filterMap fun m =>
    if m.2.2.cst = .resident ∧ prio < pktPrio (ctxD s m.1).pkt ∧ !dying s m.1 ∧ !moveComing s m.1 m.2.1 then
      (victimCourse s m).map fun i => (m, i)
    else none
  open_.foldl (fun a e => match a with
    | some b => if posBefore (queuePos (ctxD s b.1.1)) (queuePos (ctxD s e.1.1)) then some e else some b
    | none => some e) none

/-- PREEMPT (R356, R362): one victim of a core at a time moves away or is saved for a launch that waits. -/
def execPreempt (ctx core : Nat) (s : State) : Outcome State Fault Refusal :=
  .next <|
    match getCtx s ctx with
    | none => s
    | some x =>
      if x.run ≠ .waiting ∨ coreServes s ctx x.pkt core then s
      else if (membersOn s core).any fun m => m.2.2.claim == ctx && (m.2.2.cst != .resident || moveComing s m.1 m.2.1) && m.2.2.cst != .saved then s
      else match victimOn s core (pktPrio x.pkt) with
        | none => s
        | some (m, i) => later (modCC s m.1 m.2.1 fun cc => { cc with claim := ctx }) 0 i

/-! ### Teardown (R367, R385) -/

/-- Settle the packets of a queue under teardown, one at a time: each receives 0x80. -/
def settlePackets (s : State) (q : Nat) (again : Instr) : State :=
  let s1 := payOwed s q
  let b := qblkAt s1 q
  if b.head = b.tail then tdCheck (oweNext s1 q again) q
  else soon (packetStatus (setQblk s1 q { b with head := b.head + 1 }) q b 0x80) 0 again

/-- QUEUE_DRAIN (R367): launches dispatched run on; packets not yet dispatched receive 0x80. -/
def execQueueDrain (q : Nat) (s : State) : Outcome State Fault Refusal :=
  .next <|
    let b := qblkAt s q
    if !hostOpen s || b.td == 2 || decide (8192 ≤ q) then s
    else settlePackets (setQblk s q { b with td := 1 }) q (.queueDrain q)

/-- QUEUE_ABORT (R367): the contexts of launches dispatched are killed with 0x80 as well. -/
def execQueueAbort (q : Nat) (s : State) : Outcome State Fault Refusal :=
  .next <|
    let b := qblkAt s q
    if !hostOpen s || b.td == 1 || decide (8192 ≤ q) then s
    else if b.td = 2 then settlePackets s q (.queueAbort q)
    else
      let mine := (s.ctxs.filter fun e => e.2.queue == q && e.2.run != .dying).map (·.1)
      settlePackets (mine.foldl (fun s c => startKill s c 0x80 (routerOf (0x800 + b.sc)) []) (setQblk s q { b with td := 2 })) q (.queueAbort q)

/-! ### Gangs (R365, R387; log 20) -/

/-- The packages of a gang. -/
def gangMembers (s : State) (g : Gang) : List Nat := if g.members = [] then [s.pkg] else g.members

/-- The launches that wait for a gang. -/
def gangWaiting (s : State) (n : Nat) : List (Nat × Ctx) :=
  s.ctxs.filter fun e => (qblkAt s e.2.queue).gang == n && e.2.run == .waiting && !gangMay s e.2

/-- GANG_BOUNDARY (R365, R387): the attempt begins: reports are due within the grace time. -/
def execGangBoundary (n : Nat) (s : State) : Outcome State Fault Refusal :=
  .next <|
    let g := gangAt s n
    let t := (timerNow s).toNat
    if n = 0 ∨ g.period = 0 then s
    else if nextBoundary g t ≠ t then schedGang s n t
    else
      let s1 := setGang s n { g with bound := w64 t, reports := [], late := false, due := none, startAt := none }
      later (later (schedGang s1 n (t + 1)) g.grace.toNat (.gangGraceExpiry n)) 0 (.gangReport n s.pkg)

/-- A package's report is in; the coordinator with the last one sends the start value (R365). -/
def gangIn (s : State) (n pkg : Nat) : State :=
  let g := gangAt s n
  let reps := addNew pkg g.reports
  let s1 := setGang s n { g with reports := reps }
  let ms := gangMembers s g
  if (ms.all fun m => reps.contains m) ∧ ms.all fun m => decide (s.pkg ≤ m) then
    let (lat, s2) := if ms.length ≤ 1 then (0, s1) else takeDelay s1 65536
    schedStart (setGang s2 n { gangAt s2 n with startAt := some (timerNow s2 + w64 (2 * lat + 64)) }) n
  else s1

/-- GANG_REPORT (R365): another package's report arrives, or this package reports once its gang's cores have room. -/
def execGangReport (n pkg : Nat) (s : State) : Outcome State Fault Refusal :=
  .next <|
    let g := gangAt s n
    if n = 0 ∨ g.period = 0 ∨ g.late ∨ g.reports.contains pkg then s
    else if pkg ≠ s.pkg then gangIn s n pkg
    else
      let lack := (gangWaiting s n).filter fun e => match chosenCores s e.1 e.2.pkt with
        | some cores => !launchFits s e.1 e.2.pkt cores
        | none => true
      if lack = [] then gangIn s n pkg
      else
        let ask := fun (s : State) (e : Nat × Ctx) => match chosenCores s e.1 e.2.pkt with
          | some cores => askRoom s e.1 e.2.pkt cores
          | none => s
        soon (lack.foldl ask s) 1 (.gangReport n pkg)

/-- GANG_START (R365): in the clock in which TIMER reaches the start value, the gang's launches start; where another package
is the coordinator, the step itself is that clock (log 20). -/
def execGangStart (n : Nat) (s : State) : Outcome State Fault Refusal :=
  .next <|
    let g := gangAt s n
    if n = 0 ∨ g.period = 0 ∨ g.late then s
    else if g.startAt.any fun v => decide ((timerNow s).toNat < v.toNat) then schedStart s n
    else
      let ws := gangWaiting s n
      ws.foldl (fun s e => soon s 0 (.launchStart e.1)) (setGang s n { g with due := some (w64 s.idCtr), startAt := none })

/-- GANG_GRACE_EXPIRY (R365): a package whose report is missing makes the attempt late; a gang-late task is handed. -/
def execGangGraceExpiry (n : Nat) (s : State) : Outcome State Fault Refusal :=
  .next <|
    let g := gangAt s n
    if n = 0 ∨ g.period = 0 ∨ g.late ∨ (timerNow s).toNat < g.bound.toNat + g.grace.toNat then s
    else match (gangMembers s g).find? fun m => !g.reports.contains m with
      | none => s
      | some m => pushTask (setGang s n { g with late := true }) (noticeDie s) { code := 0x24, g1 := w64 n, g2 := w64 m, g3 := g.bound }

end Sys2Proof.Machine
end

