-- ==== Sys2Proof/Machine/Device.lean ====
section
/-!
DEFINITION. What the package does of itself beside its threads: interrupts taken (R354, R407), the alarm (R406), the
sensors (R398, R399), throttle levels (R400), uncorrectable errors consumed and the
scrub (R352), and the work of a retirement (R39).
-/

namespace Sys2Proof.Machine

open Host

/-! ### Interrupts (R354, R407) -/

/-- The lowest pending interrupt of a core. -/
def lowestPend (s : State) (core : Nat) : Option Nat := (List.range 4).find? fun n => (coreAt s core).pend.getLsbD n

/-- Clear a pending bit. -/
def clearPend (s : State) (core n : Nat) : State :=
  let c := coreAt s core
  setCore s core { c with pend := c.pend &&& ~~~(BitVec.ofNat 4 (2 ^ n)) }

/-- TVAL of an interrupt (R407). -/
def intTval (s : State) (core n : Nat) : Word :=
  match n with
  | 0 => (coreAt s core).talrtM
  | 1 => (coreAt s core).timerA
  | _ => 0

/-- A thread parked in PARK leaves it for an interrupt: its wait ends without a result and the PARK runs again. One that runs on
past an unmarked PARK is not parked (R64). -/
def breakPark (t : Thread) : Thread :=
  if !t.ended then t else
  match t.res.find? fun r => r.wait == .park with
  | none => t
  | some r => { t with res := t.res.filter (fun r => r.wait != .park), pc := r.pc, ended := false, entry := .none }

/-- Whether a thread stands at an instruction boundary, or parked in PARK. -/
def atBoundary (t : Thread) : Bool :=
  t.block == .free && t.trapP.isNone && t.held.isNone && (!t.ended || t.res.any fun r => r.wait == .park)

/-- INTERRUPT_TAKE (R407): the lowest pending code is taken while INH = 0 and TVEC ≠ 0; its bit is cleared. -/
def execInterruptTake (tk : Nat) (s : State) : Outcome State Fault Refusal :=
  .next <|
    let core := coreOf tk
    match mget s.threads tk, lowestPend s core with
    | some t, some n =>
      if isCompute core ∨ t.inh ∨ t.tvec = 0 ∨ !atBoundary t ∨ checkDue (breakPark t) then s
      else
        let t1 := breakPark t
        takeTrap (setT (clearPend s core n) tk t1) tk { cause := BitVec.ofNat 8 (0x40 + n), tval := intTval s core n, epc := t1.pc }
    | _, _ => s

/-! ### The alarm (R406) -/

/-- ALARM_EXPIRY (R406): TIMER latches in the first clock with COUNT at or above ALARM, and ALARM is none. -/
def execAlarmExpiry (s : State) : Outcome State Fault Refusal :=
  .next <|
    match s.reeve.alarm with
    | none => s
    | some a =>
      if (timerNow s).toNat < a.toNat then soon s (a.toNat - (timerNow s).toNat) .alarmExpiry
      else
        let s1 := { s with reeve := { s.reeve with alarm := none } }
        raiseInt (setCore s1 0x804 { coreAt s1 0x804 with timerA := a }) 0x804 1

/-! ### Sensors (R398, R399) -/

/-- Sensor i of a sample. -/
def sensorOf (vals i : Nat) : BitVec 16 := BitVec.ofNat 16 (vals / 2 ^ (16 * i))

/-- The maximum of a sample. -/
def sensorMax (vals : Nat) : Int := (List.range 16).foldl (fun a i => max a (sensorOf vals i).toInt) (sensorOf vals 0).toInt

/-- The values of the next sample: free, unless the environment supplies them (log 18). -/
def freeSample (s : State) : Nat :=
  (List.range 4).foldl (fun a k => a + (Config.freeWord s.freeCtr (5000 + k)).toNat * 2 ^ (64 * k)) 0

/-- Whether a step is a sample. -/
def isSample : Instr → Bool
  | .sensorSample _ => true
  | _ => false

/-- SENSOR_SAMPLE (R398, R399): all sixteen values change; TALRT latches while the alert is armed. The next sample is due
1,100 clocks on. -/
def execSensorSample (vals : Nat) (s : State) : Outcome State Fault Refusal :=
  .next <|
    let m := sensorMax vals
    let r := s.reeve
    let hit := r.armed && decide (r.talert.toInt ≤ m)
    let armed := if m < r.tclear.toInt then true else (r.armed && !hit)
    let s1 := { s with
      reeve := { r with tsens := Vector.ofFn fun i => sensorOf vals i.val, armed := armed }
      agenda := s.agenda.filter fun e => !isSample e.2 }
    let s2 := if hit then raiseInt (setCore s1 0x804 { coreAt s1 0x804 with talrtM := w64i m }) 0x804 0 else s1
    later s2 1100 (.sensorSample (freeSample s))

/-! ### Throttle (R400) -/

/-- THRL_WRITE (R400): the level written takes effect on the polder's cores, engines and copy units. -/
def execThrlWrite (p : Nat) (s : State) : Outcome State Fault Refusal :=
  .next (throttle s p (s.reeve.thrl.toList.getD p 0))

/-! ### Uncorrectable errors (R352) -/

/-- The replicas that a discarded thread stands for quit (log 41): its own, and every frame of a folded chain. -/
def loseReplicas (s : State) (tk : Nat) : State :=
  let t := getT s tk
  match t.chain with
  | none => s
  | some p => match chainOf s t.ctx p.chain with
    | none => s
    | some ch =>
      let mine := ch.reps.filter fun r => !r.quit && (ch.folded || (r.stage == p.stage && r.rep == p.rep))
      mine.foldl (fun s r =>
        replicaQuits (modT s tk fun t => { t with chain := some { chain := p.chain, stage := r.stage, rep := r.rep } }) tk) s

/-- Park the slot, discard the thread and begin the scrub (R352, steps 1 to 3). What the thread has drained stays among its
launch's writes (R155). -/
def discardThread (s : State) (tk : Nat) : State :=
  let c := (getT s tk).ctx
  let s1 := loseReplicas (modT s tk fun t => { t with mons := [], region := none, buf := [], res := [], run := {}, ended := false }) tk
  let s2 := modCtx s1 c fun x => { x with
    lost := true
    all := x.all.join (getT s tk).view
    bars := mmap (fun _ b => { b with arrived := b.arrived.filter (· != tk) }) x.bars }
  later (setSlot { s2 with threads := mdel s2.threads tk } tk { slotAt s2 tk with occ := .scrub }) 64 (.slotScrubComplete tk)

/-- UNCORRECTABLE_CONSUMED (R352): the thread is discarded and a MEMERR task is handed; a service core's task ends. -/
def execUncorrectableConsumed (tk addr bank : Nat) (s : State) : Outcome State Fault Refusal :=
  .next <|
    match mget s.threads tk with
    | none => s
    | some t =>
      let core := coreOf tk
      if (slotAt s tk).occ ≠ .used ∨ dying s t.ctx then s
      else
        let d := core - 0x800
        let s1 := discardThread s tk
        let s2 := pushTask s1 (dieOf (routerOf core)) { code := 0x32, g1 := w64 (t.ctx + core % 4096 * 65536), g2 := w64 addr, g3 := w64 bank }
        if isCompute core ∨ 4 ≤ d then s2
        else later (setQuad s2 d { quadAt s2 d with task := (quadAt s2 d).task.map fun k => { k with ended := some 0x80 } }) 1 (.taskStart d)

/-- SLOT_SCRUB_COMPLETE (R352, R72): the slot is freed; migrants, barriers and the end of the launch follow. The Reeve
starts its firmware again. -/
def execSlotScrubComplete (tk : Nat) (s : State) : Outcome State Fault Refusal :=
  .next <|
    let x := slotAt s tk
    if x.occ ≠ .scrub then s
    else
      let core := coreOf tk
      let s1 := freeSlot s tk
      if core = 0x804 then placeThread s1 tk (firmwareThread s1 core)
      else if !isCompute core then later s1 1 (.taskStart (core - 0x800))
      else if x.ctx = 0 then s1
      else checkLast (checkBars s1 x.ctx) x.ctx

/-! ### Retirement (R39, R43) -/

/-- Whether a core context keeps something on a core that must move: it stands there, or its tracks do. -/
def mustMove (cc : CoreCtx) (core : Nat) : Bool :=
  (cc.phys == core && !(cc.cst == .saved && cc.tmap == [])) || cc.target.any fun t => t.phys == core

/-- Whether the work of a retiring resource has been moved (R39, step 2). -/
def retireDone (s : State) (cls res : Nat) : Bool :=
  if cls = clsCore then s.cctxs.all fun e => !mustMove e.2 res
  else if cls = clsTrack then s.cctxs.all fun e => !(e.2.phys == res / 64 && e.2.tmap.contains (res % 64)) &&
    !(e.2.target.any fun t => t.phys == res / 64 && t.tmap.contains (res % 64))
  else if cls = clsEngine then (queueAt s (queueKey res 0)).ents == []
  else if cls = clsCopy then (List.range 4).all fun k => (queueAt s (queueKey res (1 + k))).ents == []
  else true

/-- Start the move of a member's group to a core with room, unless one of it moves or is being saved (R39). -/
def moveGroup (s : State) (m : Member) : State :=
  let g := groupOf s m
  if dying s m.1 ∨ moveComing s m.1 m.2.1 ∨ !(g.all fun x => (x.2.2.cst == .resident || x.2.2.cst == .saved) && x.2.2.target.isNone) then s
  else match findRoom s g with
    | some (k, _) => later s 0 (.liveMigration m.1 m.2.1 k)
    | none => s

/-- The first members of the groups of a core that must move. -/
def groupLeaders (s : State) (core : Nat) : List Member :=
  (membersOn s core).filter fun m => mustMove m.2.2 core && (match (groupOf s m).head? with
    | some x => x.1 == m.1 && x.2.1 == m.2.1
    | none => false)

/-- Chains with a stage on a core are asked to fold for its retirement (R39, R324). -/
def foldFor (s : State) (core : Nat) : State :=
  s.ctxs.foldl (fun s e => e.2.chains.foldl (fun s ch =>
    if stageOn ch core && !ch.folded && !(ch.foldP && ch.foldR) then requestFold s e.1 ch true else s) s) s

/-- Name a track by its new place in a list of keys. -/
def renameIn (a b : Nat) (l : List Nat) : List Nat := l.map fun k => if k = a then b else k

/-- Move a track to another place of its core (R39, R272): every holder and request names it there. -/
def moveTrack (s : State) (core a b : Nat) : State :=
  let ka := 64 * core + a
  let kb := 64 * core + b
  let s1 := carryTrack s ka kb
  let s2 := { s1 with
    tracks := mmap (fun _ (x : Track) => { x with wait := x.wait.map fun r => { r with
      gang := renameIn ka kb r.gang
      named := renameIn ka kb r.named
      next := r.next.map fun e => (renameIn ka kb e.1, e.2)
      rels := r.rels.map fun a => { a with gang := renameIn ka kb a.gang } } }) s1.tracks
    cctxs := mmap (fun _ (cc : CoreCtx) => if cc.phys = core then { cc with tmap := renameIn a b cc.tmap } else cc) s1.cctxs }
  later s2 1 (.leaseGrant kb)

/-- Whether no access of its core is in progress with a track. -/
def trackStill (s : State) (core t : Nat) : Bool :=
  let k := 64 * core + t
  (trackAt s k).acc == [] &&
    (List.range 64).all fun u => (trackAt s (64 * core + u)).acc.all fun a => !a.gang.contains k

/-- A holder of a track on its core. -/
def trackHolder (s : State) (core t : Nat) : Option Member := (membersOn s core).find? fun m => m.2.2.tmap.contains t

/-- Whether a chain of a group's contexts has still to fold for a core's retirement (R39, R324). -/
def foldAwaits (s : State) (core : Nat) (g : List Member) : Bool :=
  g.any fun m => (ctxD s m.1).chains.any fun ch => stageOn ch core && !ch.folded

/-- The work of a retirement in this clock (R39, step 2): chains with a stage on the core fold before its core contexts
move. -/
def retireStep (s : State) (cls res : Nat) : State :=
  if cls = clsCore then
    let s1 := foldFor s res
    ((groupLeaders s1 res).filter fun m => !foldAwaits s1 res (groupOf s1 m)).foldl moveGroup s1
  else if cls = clsTrack then
    let core := res / 64
    (match freeTracks s core with
      | b :: _ => if trackStill s core (res % 64) then moveTrack s core (res % 64) b else s
      | [] => match trackHolder s core (res % 64) with
        | some m => moveGroup s m
        | none => s)
  else s

/-- RETIREMENT_MOVE (R39): the resource's work moves; once it has, a slice flushes, and the version is published. -/
def execRetirementMove (class_ res : Nat) (s : State) : Outcome State Fault Refusal :=
  .next <|
    match s.retires.find? fun r => r.cls == class_ && r.res == res with
    | none => s
    | some op =>
      if !retireDone s class_ res then soon (retireStep s class_ res) 1 (.retirementMove class_ res)
      else if class_ = clsSlice then
        let (d, s1) := takeDelay s 65536
        soon s1 d (.sliceFlush res)
      else announce s 1 class_ op.cause res op.old 2

end Sys2Proof.Machine
end

