-- ==== Sys2Proof/Machine/Hash.lean ====
section
/-!
DEFINITION. SHA-256 and RSASSA-PKCS1-v1_5 with a 3,072-bit modulus, which the boot (R396, R397) and MGMT.QUOTE (R406)
use. The spec names the algorithms; their definitions are those of FIPS 180-4 and RFC 8017 (log 36).
-/

namespace Sys2Proof.Machine

/-- The integer k-th root of x with at most n bits, found from its highest bit down. -/
def rootBits (k x : Nat) : Nat → Nat → Nat
  | 0, r => r
  | n + 1, r => rootBits k x n (if (r + 2 ^ n) ^ k ≤ x then r + 2 ^ n else r)

/-- The first 32 bits of the fraction of a k-th root of a small number: what FIPS 180-4 takes its constants from. -/
def rootFraction (k p : Nat) : W32 := BitVec.ofNat 32 (rootBits k (p * 2 ^ (32 * k)) 37 0)

/-- Whether no number from 2 on, up to a bound, divides n. -/
def noDivisor (n b : Nat) : Bool := (List.range b).all fun d => d < 2 || n % d != 0

/-- The first 64 primes: those up to 311. -/
def primes64 : List Nat := (List.range 312).filter fun n => decide (2 ≤ n) && noDivisor n (min n 18)

/-- The constants added in the 64 rounds: from the cube roots of the first 64 primes. -/
def shaConsts : List W32 := primes64.map (rootFraction 3)

/-- A big-endian number of bytes. -/
def ofBytesBE (bs : List Byte) : Nat := bs.foldl (fun a b => 256 * a + b.toNat) 0

/-- The n bytes of a number, most significant first. -/
def bytesBE (n x : Nat) : List Byte := (bytesLE n x).reverse

/-- A sum modulo 2 of three turns of a word, the last of which may be a shift: a mixing function of FIPS 180-4. -/
def mix (i j k : Nat) (shift : Bool) (x : W32) : W32 :=
  let turned := x.rotateRight i ^^^ x.rotateRight j
  if shift then turned ^^^ (x >>> k) else turned ^^^ x.rotateRight k

/-- The message schedule, newest word first: n more words, each from the ones 2, 7, 15 and 16 before it. -/
def schedule : Nat → List W32 → List W32
  | 0, ws => ws
  | n + 1, ws =>
    let back := fun k => ws.getD (k - 1) 0
    schedule n ((mix 17 19 10 true (back 2) + back 7 + mix 7 18 3 true (back 15) + back 16) :: ws)

/-- The working variables as two sequences, newest first: the first variable's last four values and the fifth's. -/
structure ShaVars where
  hi : List W32
  lo : List W32
  deriving DecidableEq, Repr

/-- One round: each sequence grows by one value. -/
def ShaVars.advance (v : ShaVars) (input : W32) : ShaVars :=
  let a := fun k => v.hi.getD k 0
  let e := fun k => v.lo.getD k 0
  let choice := (e 2) ^^^ (e 0 &&& (e 1 ^^^ e 2))
  let most := (a 0 &&& a 1) ||| (a 2 &&& (a 0 ||| a 1))
  let t := input + mix 6 11 25 false (e 0) + choice + e 3
  { hi := (t + mix 2 13 22 false (a 0) + most) :: v.hi.take 3, lo := (a 3 + t) :: v.lo.take 3 }

/-- Add the variables of two moments, place by place. -/
def ShaVars.plus (v w : ShaVars) : ShaVars :=
  { hi := List.zipWith (· + ·) v.hi w.hi, lo := List.zipWith (· + ·) v.lo w.lo }

/-- The initial variables: from the square roots of the first eight primes. -/
def ShaVars.start : ShaVars :=
  let root := rootFraction 2
  { hi := [2, 3, 5, 7].map root, lo := [11, 13, 17, 19].map root }

/-- Compress one block of 64 bytes. -/
def shaBlock (v : ShaVars) (blk : List Byte) : ShaVars :=
  let first := (List.range 16).map fun k => BitVec.ofNat 32 (ofBytesBE ((blk.drop (4 * k)).take 4))
  let words := (schedule 48 first.reverse).reverse
  v.plus ((List.zipWith (· + ·) shaConsts words).foldl ShaVars.advance v)

/-- Compress n blocks. -/
def shaBlocks : Nat → List Byte → ShaVars → ShaVars
  | 0, _, v => v
  | n + 1, bs, v => shaBlocks n (bs.drop 64) (shaBlock v (bs.take 64))

/-- A message padded to whole blocks: a 1 bit, zeros, and its length in bits. -/
def shaPad (bs : List Byte) : List Byte :=
  bs ++ 0x80#8 :: List.replicate ((119 - bs.length % 64) % 64) 0 ++ bytesBE 8 (8 * bs.length)

/-- SHA-256 of bytes. -/
def sha256 (bs : List Byte) : List Byte :=
  let m := shaPad bs
  let v := shaBlocks (m.length / 64) m ShaVars.start
  (v.hi ++ v.lo).flatMap fun w => bytesBE 4 w.toNat

/-- A power modulo n, bit by bit of the exponent. -/
def powMod (n : Nat) : Nat → Nat → Nat → Nat → Nat
  | 0, _, _, acc => acc
  | fuel + 1, b, e, acc => powMod n fuel (b * b % n) (e / 2) (if e % 2 = 1 then acc * b % n else acc)

/-- The encoded message of RSASSA-PKCS1-v1_5 over SHA-256, for a modulus of 384 bytes. -/
def pkcs1 (digest : List Byte) : List Byte :=
  [0x00, 0x01] ++ List.replicate 330 0xFF ++
  [0x00, 0x30, 0x31, 0x30, 0x0D, 0x06, 0x09, 0x60, 0x86, 0x48, 0x01, 0x65, 0x03, 0x04, 0x02, 0x01, 0x05, 0x00, 0x04, 0x20] ++
  digest

/-- Whether a signature of 384 bytes over a digest verifies with a public key. -/
def rsaVerify (n e : Nat) (sig digest : List Byte) : Bool :=
  let x := ofBytesBE sig
  decide (x < n) && powMod n 3072 x e 1 == ofBytesBE (pkcs1 digest)

end Sys2Proof.Machine
end

