-- ==== Sys2Proof/Machine/Boot.lean ====
section
/-!
DEFINITION. The boot of the Reeve (R395 to R397) and map version 1 (R32).
-/

namespace Sys2Proof.Machine

open Host

/-- A flash byte range. -/
def flashBytes (s : State) (off n : Nat) : List Byte := Memory.readN s.reeve.flash off n

/-- The flash offset of a firmware bank (false: A). -/
def bankOff (b : Bool) : Nat := if b then 0x410000 else 0x10000

/-- Body length and rollback number of a bank's image (R396). -/
def bodyLen (s : State) (b : Bool) : Nat := ofBytesLE (flashBytes s (bankOff b + 0x10) 8)
def rollbackOf (s : State) (b : Bool) : Nat := ofBytesLE (flashBytes s (bankOff b + 0x0C) 4)

/-- Whether a bank's header signature and body digest verify (R396, R397). -/
def imageOk (s : State) (b : Bool) : Bool :=
  let o := bankOff b
  rsaVerify Config.romKeyN Config.romKeyE (flashBytes s (o + 0x80) 384) (sha256 (flashBytes s o 0x80)) &&
    decide (bodyLen s b ≤ 0x400000 - 512) && sha256 (flashBytes s (o + 512) (bodyLen s b)) == flashBytes s (o + 0x18) 32

/-- Whether a bank is valid (R397): both checks pass, and RBN is at least the rollback counter. -/
def bankValid (s : State) (b : Bool) : Bool := imageOk s b && decide (s.reeve.counter.toNat ≤ rollbackOf s b)

/-- The preferred bank of the boot record (R395, R406). -/
def preferred (s : State) : Bool := bitN (Memory.read s.reeve.flash 0x810000).toNat 0

/-- The bank that the ROM starts, if one is valid (R397). -/
def bootBank (s : State) : Option Bool :=
  if bankValid s (preferred s) then some (preferred s)
  else if bankValid s (!preferred s) then some (!preferred s)
  else none

/-- The map region's base that firmware chooses (R25, log 13): 17 units of 4 KiB within the stacks. -/
def chooseBase (m : CMap) : Nat := Config.mapPlace 0 % (hbmBytes m / 4096 - 16) * 4096

/-- Firmware's bring-up (R397, steps 4 and 5): map version 1 is built and released, MAPBASE written, the host function
opened, and the sensors sampled from here on. The record of version 1 names no class, cause, resource or states: they read
0 (log 43). -/
def bringUp (s : State) : State :=
  let t := timerNow s
  let r : ChangeRec := { version := 1, kind := 0, cls := 0, cause := 0, res := 0, time := t, old := 0, new := 0 }
  let s1 := { s with
    cmap := { s.cmap with
      version := 1, sliceGen := 0, time := t, recs := [r]
      imgUnits := s.cmap.units, imgCap := s.cmap.cap, imgStepN := s.cmap.stepN, imgRate := s.cmap.rate, imgAux := s.cmap.aux }
    reeve := { s.reeve with mapBase := w64 (chooseBase s.cmap) } }
  let s2 := releaseMap s1
  let s3 := { s2 with booted := true, reeve := { s2.reeve with revision := Config.revision } }
  let s4 := placeThread s3 (tkOf 0x804 0) (firmwareThread s3 0x804)
  later s4 0 (.sensorSample (freeSample s4))

/-- BOOT (R397): the banks are verified; the ROM starts one, or halts with revision 0xFFFF_FFFF. -/
def execBoot (s : State) : Outcome State Fault Refusal :=
  .next <|
    if s.booted ∨ s.romHalted then s
    else match bootBank s with
      | some b => bringUp { s with reeve := { s.reeve with bank := some b } }
      | none => { s with romHalted := true, reeve := { s.reeve with revision := 0xFFFFFFFF } }

end Sys2Proof.Machine
end

