-- ==== Sys2Proof/Machine/System.lean ====
section
/-!
DEFINITION. System registers (R127 to R131, R204, R206, R207, R239, R33, R70, R77, R398 to R402), and the map's
instructions MAPV, MAPV.A and MAPACK (R37, R369).
-/

namespace Sys2Proof.Machine

open Host

/-! ### SYSR (R128) -/

/-- The tile whose shape a register number names (R239). -/
def tsTile (n : Nat) : Option (Fin 16) := if 0x210 ≤ n ∧ n < 0x220 then some (Fin.ofNat 16 (n - 0x210)) else none

/-- SYSR (R128): thread and core registers are fixed results, the others variable (R408). -/
def execSysr (h : Hdr) (d : Fin 16) (n : BitVec 24) (s : State) : Outcome State Fault Refusal :=
  if sysAbsent (coreOf s.cur) n.toNat then .next (illop (.sysr h d n) s)
  else issueL (sysReadLevel n.toNat) (.sysr h d n) h s fun s =>
    let ask := fun (s : State) => startRequest h [.g d] (.sysr n.toNat) (sysHolder s n.toNat) s
    if n.toNat < 0x200 then resultG h d (sysFixed s s.cur n.toNat) s
    else match tsTile n.toNat with
      | some t => withTile s t ask
      | none => ask s

/-! ### SYSW (R128) -/

/-- The level of a system register for writing (R129). -/
def sysWriteLevel (n : Nat) : Nat := if 0x400 ≤ n then 0 else if n = 0x302 then 1 else 2

/-- The writable bits of a pc field (R131). -/
def pcMask : Word := 0x00FFFFFFFFFFFFC7

/-- A write of PW: every predicate takes its bit, and results outstanding no longer write them (R65, R130). -/
def writePw (t : Thread) (v : Word) : Thread :=
  (List.finRange 32).foldl (fun t c => writeC t c (v.getLsbD c.val)) t

/-- A write of a thread register (R130, R131, R203 to R207, R80): a bit of EVT or FXF that the device sets in this clock stays
(R7). -/
def writeThreadReg (clock : Nat) (t : Thread) (n : Nat) (v : Word) : Thread :=
  match n with
  | 0x001 => writePw t v
  | 0x005 => { t with cause := v.setWidth 8 }
  | 0x006 => { t with tval := v }
  | 0x007 => { t with epc := v &&& pcMask }
  | 0x008 => { t with tvec := v &&& pcMask }
  | 0x009 => { t with inh := v.getLsbD 0 }
  | 0x00A => { t with fxf := w1c t.fxf (v.setWidth 6 &&& ~~~fxfFresh t clock) }
  | 0x00B => { t with fxe := v.setWidth 5 }
  | 0x00C => { t with seed := v.setWidth 32, rng := seedGen (v.setWidth 32) t.lane }
  | 0x00D => { t with evt := w1c t.evt (v.setWidth 7 &&& ~~~evtFresh t clock) }
  | 0x010 => { t with tscr := v }
  | _ => t

/-- The bits of DQBASE.BASE and DQLIM.LIM that can be set (R77). -/
def dqField (v : Word) : BitVec 18 := v.setWidth 18 &&& 0x3FFF8

/-- A write of DQBASE (R77, R338): EN from 0 to 1 writes TOP and BOT where the header lies within the share; where it
does not, the deque stays unusable until EN changes from 0 to 1 with bounds that fit. -/
def writeDqBase (s : State) (v : Word) : State :=
  let t := curT s
  let en := v.getLsbD 63
  match getCC s t.ctx t.lcore with
  | none => s
  | some cc =>
    let fits := decide ((dqField v).toNat + 16 ≤ cc.shSize)
    let opens := en && !cc.dqEn
    let s1 := setCC s t.ctx t.lcore
      { cc with dqBase := dqField v, dqEn := en, dqBad := if opens then !fits else cc.dqBad }
    if opens && fits then
      (append s1 ((locsFrom (sramLoc (ccKey t.ctx t.lcore) (dqField v).toNat) 16).zip (zeros 16)) none).2
    else s1

/-- Set GRACE.LIMIT of a context (R33): a window under way expires by the new limit. A thread of a service core or the Reeve
is of no context: its write of GRACE or DROPS changes nothing, and it reads them as 0 (log 48). -/
def setGrace (s : State) (c : Nat) (v : Word) : State :=
  let lim : W32 := if (v.setWidth 32).toNat < 0x10000 then 0x10000 else v.setWidth 32
  let s1 := modCtx s c fun x => { x with limit := lim }
  match (ctxD s1 c).graceAt with
  | some t0 => laterAt s1 (t0 + lim.toNat + 1) (.graceExpiry c)
  | none => s1

/-- Clear bits of DROPS of a context (R70): a count that the device sets in this clock stays (R7). -/
def clearDrops (s : State) (c : Nat) (v : Word) : State :=
  modCtx s c fun x => if x.dropsAt = some s.clock then x else { x with drops := w1c x.drops (v.setWidth 32) }

/-- A throttle level is written (R400): it takes effect in the next clock with CLOCKS mod 8 = 0. -/
def writeThrl (s : State) (p : Nat) (v : Word) : State :=
  if h : p < 8 then
    laterAt { s with reeve := { s.reeve with thrl := s.reeve.thrl.set p (v.setWidth 3) } } ((s.clock / 8 + 1) * 8) (.thrlWrite p)
  else s

/-- A write of LOGBASE (R402): a value out of range leaves it unchanged. -/
def writeLogBase (s : State) (v : Word) : State :=
  let lg := bitsOf v 23 20
  let b := bitsOf v 18 5
  if lg < 9 ∨ 14 < lg ∨ 2 ^ 19 < 32 * b + 32 * 2 ^ lg then s
  else { s with reeve := { s.reeve with logLog2 := BitVec.ofNat 4 lg, logBase := BitVec.ofNat 14 b } }

/-- A write of a register of the Reeve (R399 to R402); a count that the device sets in this clock stays (R7, R390). -/
def writeReeve (s : State) (n : Nat) (v : Word) : State :=
  match n with
  | 0x420 => { s with reeve := { s.reeve with talert := v.setWidth 16 } }
  | 0x421 => { s with reeve := { s.reeve with tclear := v.setWidth 16 } }
  | 0x430 => writeLogBase s v
  | 0x431 => { s with reeve := { s.reeve with logHead := v.setWidth 32 } }
  | 0x440 => if s.reeve.timerAt = some s.clock then s else retime { s with reeve := { s.reeve with timerOff := v - w64 s.clock } }
  | _ => writeThrl s (n - 0x400) v

/-- A write of a register that holds no tile shape (R128). -/
def writeSys (s : State) (n : Nat) (v : Word) : State :=
  if n < 0x100 then putT s (writeThreadReg s.clock (curT s) n v)
  else if 0x400 ≤ n then writeReeve s n v
  else match n with
    | 0x102 => writeDqBase s v
    | 0x103 => modCC s (curT s).ctx (curT s).lcore fun cc => { cc with dqLim := dqField v }
    | 0x302 => setGrace s (curT s).ctx v
    | 0x304 => clearDrops s (curT s).ctx v
    | _ => s

/-- SYSW (R128): the write is in effect for the thread's next instruction. -/
def execSysw (h : Hdr) (r : Fin 16) (n : BitVec 24) (s : State) : Outcome State Fault Refusal :=
  if sysAbsent (coreOf s.cur) n.toNat then .next (illop (.sysw h r n) s)
  else issueL (sysWriteLevel n.toNat) (.sysw h r n) h s fun s =>
    match tsTile n.toNat with
    | some t => withUnit s clsEngine fun s => setShape s t (gVal s r) (retire h)
    | none => retire h (writeSys s n.toNat (gVal s r))

/-! ### MAPV and MAPACK (R37, R369) -/

/-- Read MAPVEC or ACKV at logical core 0 (R408). -/
def mapRead (h : Hdr) (d : Fin 16) (acked : Bool) (s : State) : State :=
  startRequest h [.g d] (.mapv acked) (core0 s (curT s).ctx (coreOf s.cur)) (closeCur s)

/-- MAPV (R369). -/
def execMapv (h : Hdr) (d : Fin 16) (s : State) : Outcome State Fault Refusal := issue h s (mapRead h d false)

/-- MAPV.A (R369). -/
def execMapvA (h : Hdr) (d : Fin 16) (s : State) : Outcome State Fault Refusal := issue h s (mapRead h d true)

/-- Acknowledge a version for a context from a core, holding its threads while numbers are resolved again (R37, R369):
the clocks it takes and the state after. -/
def acknowledge (s : State) (c core : Nat) (w : Word) : Nat × State :=
  let n := resolveTime s c core
  (n, modCtx (ackTo s c w) c fun x => { x with ackHold := s.clock + n })

/-- MAPACK (R37, R369). -/
def execMapack (h : Hdr) (w : Fin 16) (s : State) : Outcome State Fault Refusal :=
  issue h s fun s =>
    let c := (curT s).ctx
    let x := ctxD s c
    let v := gVal s w
    if v.toNat ≤ x.ackv.toNat then retire h (closeCur s)
    else if x.mapvec.toNat < v.toNat then trapHere s cPROT v
    else
      let (n, s1) := acknowledge (closeCur s) c (coreOf s.cur) v
      holdFor n (retire h s1)

end Sys2Proof.Machine
end

