-- ==== Sys2Proof/Machine/Context.lean ====
section
/-!
DEFINITION. The CTX instructions (R372 to R374): saves, loads and moves of core contexts, context words, resumption, task
vector tables and slot entries.
-/

namespace Sys2Proof.Machine

open Host

/-! ### CTX.SAVE, CTX.LOAD, CTX.MIG (R372) -/

/-- Operations that hold a thread: 0 save, 1 load, 16 + core a migration to it. -/
def opSave : Nat := 0
def opLoad : Nat := 1
def opMig (core : Nat) : Nat := 16 + core

/-- Start an operation for which the thread is held. -/
def holdCtxOp (h : Hdr) (d : Fin 16) (op c l : Nat) (s : State) : State :=
  let (id, s1) := resultWait [.g d] (.request (.ctxOp op c l)) s
  let s2 := retire h s1
  later (putT s2 { curT s2 with block := .device }) 1 (.remoteRequest s2.cur id)

/-- The core context a CTX form names, the region closed; none: gD := 3. -/
def withNamed (h : Hdr) (d c l : Fin 16) (s : State) (eff : Nat → Nat → CoreCtx → State → State) : State :=
  withRoom s fun s => withCtx s c fun c s =>
    let L := (gVal s l).toNat
    match (if L < 4096 then getCC s c L else none) with
    | none => resultIn h 1 [.g d 3] (closeCur s)
    | some cc => eff c L cc (closeCur s)

/-- CTX.SAVE (R372). -/
def execCtxSave (h : Hdr) (d c l : Fin 16) (s : State) : Outcome State Fault Refusal :=
  issueL 1 (.ctxSave h d c l) h s fun s => withNamed h d c l s fun c l cc s =>
    if cc.cst = .saved then resultIn h 1 [.g d 1] s
    else if (ctxD s c).saveBase = 0 then resultIn h 1 [.g d 2] s
    else holdCtxOp h d opSave c l s

/-- CTX.LOAD (R372). -/
def execCtxLoad (h : Hdr) (d c l : Fin 16) (s : State) : Outcome State Fault Refusal :=
  issueL 1 (.ctxLoad h d c l) h s fun s => withNamed h d c l s fun c l cc s =>
    if cc.cst = .resident then resultIn h 1 [.g d 1] s else holdCtxOp h d opLoad c l s

/-- The core that CTX.MIG moves a core context to, or none where it is refused (R356, R372). -/
def migCore (s : State) (m : Member) (p : Nat) : Option Nat :=
  if m.2.2.cst ≠ .resident ∨ coveredBy265 s m then none
  else if p = 0xFFF then (findRoom s [m]).map (·.1)
  else if (roomFor s p [m]).isSome then some p
  else none

/-- CTX.MIG (R372). -/
def execCtxMig (h : Hdr) (d c l p : Fin 16) (s : State) : Outcome State Fault Refusal :=
  issueL 1 (.ctxMig h d c l p) h s fun s =>
    let k := bitsOf (gVal s p) 11 0
    withNamed h d c l s fun c l cc s =>
      if cc.phys = k then resultIn h 1 [.g d 1] s
      else match migCore s (c, l, cc) k with
        | none => resultIn h 1 [.g d 2] s
        | some k => later (holdCtxOp h d (opMig k) c l s) 0 (.liveMigration c l k)

/-- What an operation's poll finds: its code, or none while it goes on, with the state after. -/
def ctxOpStep (s : State) (op c l : Nat) : Option Nat × State :=
  match getCC s c l with
  | none => (some 3, s)
  | some cc =>
    if op = opSave then
      (if cc.cst = .saved then (some 0, s)
       else if cc.cst = .resident ∧ !moveComing s c l then
        (if (ctxD s c).saveBase = 0 then (some 2, s) else (none, later s 0 (.contextSave c l)))
       else (none, s))
    else if op = opLoad then
      (if cc.cst = .resident then (some 0, s)
       else if cc.cst = .saved then match tryResume s c l true with
        | none => (some 2, s)
        | some s1 => if (getCC s1 c l).any fun x => x.cst == .resident then (some 0, s1) else (none, s1)
       else (none, s))
    else if cc.cst = .resident ∧ !moveComing s c l then (some (if opMig cc.phys = op then 0 else 2), s)
    else (none, s)

/-! ### Context words (R373) -/

/-- RUN of STATE. -/
def runCode (s : State) (c : Nat) (x : Ctx) : Nat :=
  if x.run = .dying then 4
  else if x.run = .suspended then 1
  else if (ccsOf s c).any fun e => e.2.cst == .saving || e.2.cst == .saved then 2
  else if (ccsOf s c).any fun e => e.2.cst == .migrating then 3
  else 0

/-- STATE. -/
def stateWord (s : State) (c : Nat) (x : Ctx) : Word :=
  w64 (c * 2 ^ 48 + x.ncores * 2 ^ 16 + flagN (pktDet x.pkt) (2 ^ 15) + flagN (pktChain x.pkt) (2 ^ 14) + flagN x.lost (2 ^ 13) +
    pktPrio x.pkt * 16 + runCode s c x)

/-- CST's code. -/
def cstCode : CSt → Nat
  | .resident => 0
  | .saving => 1
  | .saved => 2
  | .migrating => 3

/-- A core-table entry. -/
def coreEntryWord (s : State) (c l : Nat) : Word :=
  match getCC s c l with
  | none => 0
  | some cc => w64 (cstCode cc.cst * 2 ^ 61 + cc.phys * 2 ^ 16 + cc.slots.toNat * 2 ^ 8 + cc.nTracks)

/-- A virtual track's head state (R283). -/
def trackEntryWord (s : State) (c l t : Nat) : Word :=
  match getCC s c l with
  | none => 0
  | some cc => match cc.tmap[t]? with
    | none => 0
    | some p =>
      hposWord s c (64 * cc.phys + p) t

/-- The jobs of a context in the queues of a cluster. -/
def jobsWord (s : State) (c n : Nat) : Word :=
  w64 ((List.range 5).foldl (fun a q => a + ((queueAt s (queueKey n q)).ents.countP fun e => match e with
    | .job j => j.ctx == c
    | .mark _ _ => false) * 256 ^ q) 0)

/-- A context word (R373); any other index reads 0. -/
def ctxWord (s : State) (c idx : Nat) : Word :=
  match getCtx s c with
  | none => 0
  | some x =>
    if idx < 0x100 then
      (match idx with
        | 0 => stateWord s c x
        | 1 => x.troot
        | 2 => x.tpref
        | 3 => x.saveBase
        | 4 => x.pkt.cmpl
        | 5 => x.ackv
        | 6 => x.mapvec
        | 7 => graceVal s x
        | 8 => x.drops.setWidth 64
        | _ => 0)
    else if idx < 0x10000 then (if idx - 0x100 < 4096 then coreEntryWord s c (idx - 0x100) else 0)
    else if idx < 0x30000 then trackEntryWord s c ((idx - 0x10000) / 64) (idx % 64)
    else if idx < 0x30010 then (match x.chains[idx - 0x30000]? with
      | some ch => chmodeWord s c ch.id 0xF 0
      | none => 0)
    else if 0x40000 ≤ idx ∧ idx < 0x40100 then jobsWord s c (idx - 0x40000)
    else 0

/-- CTX.RD (R373): a context that is not live reads 0. -/
def execCtxRd (h : Hdr) (d c ix : Fin 16) (s : State) : Outcome State Fault Refusal :=
  issueL 1 (.ctxRd h d c ix) h s fun s =>
    let n := bitsOf (gVal s c) 15 0
    startRequest h [.g d] (.ctxRd n (gVal s ix)) (core0 s n (coreOf s.cur)) (closeCur s)

/-- CTX.WR (R373): the words that are RW take the value g(O3) at the index g(O4) (log 23); any other index traps PROT. -/
def execCtxWr (h : Hdr) (c v ix : Fin 16) (s : State) : Outcome State Fault Refusal :=
  issueL 1 (.ctxWr h c v ix) h s fun s => withCtx s c fun c s =>
    let x := gVal s v
    let go := fun (f : State → State) => retire h (f (closeCur s))
    match (gVal s ix).toNat with
    | 1 => go fun s => modCtx s c fun y => { y with troot := x &&& 0x00000FFFFFFFFFFF }
    | 2 => go fun s => modCtx s c fun y => { y with tpref := x &&& 0xFFFFFFFFFFFFF0FF }
    | 3 => go fun s => modCtx s c fun y => { y with saveBase := x &&& 0x00FFFFFFFFF00000 }
    | 7 => go fun s => setGrace s c x
    | 8 => go fun s => clearDrops s c x
    | _ => trapHere s cPROT (gVal s ix)

/-! ### CTX.RES, CTX.TV, CTX.SLOT (R374) -/

/-- CTX.RES (R374): acknowledges MAPVEC with its re-resolution, and lets a suspended context issue again. -/
def execCtxRes (h : Hdr) (c : Fin 16) (s : State) : Outcome State Fault Refusal :=
  issueL 1 (.ctxRes h c) h s fun s => withCtx s c fun c s =>
    let s1 := closeCur s
    let n := resolveTime s1 c (core0 s1 c (coreOf s.cur))
    retire h (modCtx (resumeCtx s1 c) c fun x => { x with ackHold := s.clock + n })

/-- CTX.TV (R374): on the Reeve, the tables of all four quadrants. -/
def execCtxTv (h : Hdr) (a : Fin 16) (s : State) : Outcome State Fault Refusal :=
  issueL 1 (.ctxTv h a) h s fun s =>
    let v := gVal s a
    if v.toNat % 512 ≠ 0 then trapHere s cALIGN v
    else
      let ds := if coreOf s.cur = 0x804 then List.range 4 else [coreOf s.cur - 0x800]
      retire h (ds.foldl (fun s d => setQuad s d { quadAt s d with tv := some v }) (closeCur s))

/-- ST of a slot entry. -/
def slotCode (s : State) (tk : Nat) : Nat :=
  let x := slotAt s tk
  let t := getT s tk
  if x.occ = .scrub then 6
  else if x.occ = .free then 0
  else if t.ended ∧ t.res.any (fun r => r.wait.isWait) then 2
  else if t.ended ∧ t.res ≠ [] then 3
  else if t.block ≠ .free ∨ s.clock < t.hold ∨ t.trapP.isSome then 4
  else if t.inh then 5
  else 1

/-- A slot entry: the owner of a free slot reads 0. -/
def slotWord (s : State) (tk : Nat) : Word :=
  let x := slotAt s tk
  w64 (flagN (x.occ != .free) (x.ctx * 2 ^ 48) + x.gen.toNat * 2 ^ 40 + slotCode s tk * 2 ^ 36 +
    flagN (x.occ == .used) (getT s tk).lane.toNat)

/-- CTX.SLOT (R374): a core number above 2047 traps PROT. -/
def execCtxSlot (h : Hdr) (d a : Fin 16) (s : State) : Outcome State Fault Refusal :=
  issueL 1 (.ctxSlot h d a) h s fun s =>
    let core := bitsOf (gVal s a) 14 3
    if 2047 < core then trapHere s cPROT (gVal s a)
    else startRequest h [.g d] (.ctxSlot (tkOf core (bitsOf (gVal s a) 2 0))) core (closeCur s)

end Sys2Proof.Machine
end

