-- ==== Sys2Proof/Machine/Manage.lean ====
section
/-!
DEFINITION. Collectives (R391, R392), and the management of the package: the log, the alarm, retirement, firmware banks
and quotes (R402, R403, R405, R406).
-/

namespace Sys2Proof.Machine

open Host

/-! ### COLL (R391, R392) -/

/-- The packages that a collective may name: the domain, or the package alone before one is formed. -/
def reachable (s : State) : List Nat := if s.domain = [] then [s.pkg] else s.domain

/-- Whether gN is well formed (R391). -/
def collWord (gn : Word) : Bool :=
  let ty := bitsOf gn 34 32
  bitsOf gn 39 38 == 0 && bitsOf gn 35 35 == 0 && bitsOf gn 37 36 != 3 && [2, 4, 5, 6].contains ty &&
    bitsOf gn 31 0 % collSize ty == 0 && decide (bitsOf gn 31 0 ≤ 2 ^ 24)

/-- Whether gM names the issuing package, and no package outside the domain (R391). -/
def collMask (s : State) (gm : Word) : Bool :=
  gm.getLsbD s.pkg && (maskPkgs gm).all fun p => (reachable s).contains p

/-- Whether a broadcast's root takes part (R391). -/
def collRoot (form : Nat) (gn gm : Word) : Bool := form != 1 || (maskPkgs gm).contains (bitsOf gn 47 40)

/-- Bytes a participant writes (R392). -/
def collBytes (form : Nat) (gn gm : Word) : Nat :=
  if form = 2 then bitsOf gn 31 0 * (maskPkgs gm).length else bitsOf gn 31 0

/-- The value COLL traps PROT with, if a check fails (R391). -/
def collTrap (s : State) (form dst src : Nat) (gn gm : Word) : Option Word :=
  if !collWord gn then some gn
  else if !collMask s gm then some gm
  else if !collRoot form gn gm then some gn
  else match edgeError s (curT s) src (bitsOf gn 31 0) false with
    | some a => some (w64 a)
    | none => (edgeError s (curT s) dst (collBytes form gn gm) true).map w64

/-- COLL in a form: 0 reduction, 1 broadcast, 2 gather (R392). -/
def collForm (h : Hdr) (form : Nat) (j dst src n m : Fin 16) (s : State) : Outcome State Fault Refusal :=
  issue h s fun s =>
    let gn := gVal s n
    let gm := gVal s m
    let d := (gVal s dst).toNat
    let a := (gVal s src).toNat
    match collTrap s form d a gn gm with
    | some x => trapHere s cPROT x
    | none => withQueue qclKey s fun s => enqueueId h qclKey (.coll form d a gn gm none) false j s

/-- COLL.AR (R391, R392). -/
def execCollAr (h : Hdr) (j dst src n mk : Fin 16) (s : State) : Outcome State Fault Refusal := collForm h 0 j dst src n mk s

/-- COLL.BC (R391, R392). -/
def execCollBc (h : Hdr) (j dst src n mk : Fin 16) (s : State) : Outcome State Fault Refusal := collForm h 1 j dst src n mk s

/-- COLL.AG (R391, R392). -/
def execCollAg (h : Hdr) (j dst src n mk : Fin 16) (s : State) : Outcome State Fault Refusal := collForm h 2 j dst src n mk s

/-! ### MGMT.LOG (R402, R403) -/

/-- MGMT.LOG (R406). -/
def execMgmtLog (h : Hdr) (c a : Fin 16) (s : State) : Outcome State Fault Refusal :=
  issueL 1 (.mgmtLog h c a) h s fun s =>
    retire h (writeLog (closeCur s) (bitsOf (gVal s c) 15 0) (coreOf s.cur) (gVal s a))

/-! ### MGMT.TMR (R406, R407) -/

/-- Set ALARM to a TIMER value: a latched TIMER bit not yet taken is cleared (R407); one not above COUNT latches in the
next clock (R406). -/
def setAlarm (s : State) (v : Word) : State :=
  let s1 := clearPend { s with reeve := { s.reeve with alarm := some v } } 0x804 1
  soon s1 (max 1 (v.toNat - (timerNow s1).toNat)) .alarmExpiry

/-- MGMT.TMR (R406). -/
def execMgmtTmr (h : Hdr) (tm : Fin 16) (s : State) : Outcome State Fault Refusal :=
  issueL 0 (.mgmtTmr h tm) h s fun s => retire h (setAlarm (closeCur s) (gVal s tm))

/-! ### MGMT.RETIRE (R406) -/

/-- MGMT.RETIRE (R406): the request travels to the Reeve. -/
def execMgmtRetire (h : Hdr) (d k r : Fin 16) (s : State) : Outcome State Fault Refusal :=
  issueL 1 (.mgmtRetire h d k r) h s fun s =>
    startRequest h [.g d] (.retire (bitsOf (gVal s k) 7 0) (bitsOf (gVal s k) 15 8) (bitsOf (gVal s r) 31 0)) 0x804 (closeCur s)

/-- How many resources of a class there are; none of a class that cannot be retired. -/
def classSize (cls : Nat) : Nat :=
  if cls = clsCore then 2048
  else if cls = clsTrack then 131072
  else if cls = clsEngine ∨ cls = clsCopy ∨ cls = clsSlice then 256
  else 0

/-- A retirement asked of the Reeve (R406): its code, and the state in which an accepted one begins in d clocks, once the
code has returned. -/
def retireRequest (s : State) (cls cause res d : Nat) : Nat × State :=
  if classSize cls ≤ res then (2, s)
  else if !inService s.cmap cls res || (cls == clsTrack && trackDead s.cmap (res / 64) (res % 64)) then (1, s)
  else if retiring s cls res then (3, s)
  else
    let op : RetireOp := { cls := cls, res := res, cause := cause, old := unitState s.cmap cls res
                           held := (s.ctxs.filter fun e => affects s cls res [] e.1).map (·.1) }
    (0, later { s with retires := s.retires ++ [op] } d (.retirementMove cls res))

/-! ### Firmware banks and quotes (R395, R397, R406) -/

/-- MGMT.FWSEL (R406): the boot record names the preferred bank. -/
def execMgmtFwsel (h : Hdr) (b : Fin 16) (s : State) : Outcome State Fault Refusal :=
  issueL 0 (.mgmtFwsel h b) h s fun s =>
    let x : Byte := BitVec.ofNat 8 (bitsOf (gVal s b) 0 0)
    let s1 := closeCur s
    retire h { s1 with reeve := { s1.reeve with flash := Memory.write s1.reeve.flash 0x810000 x } }

/-- The rollback counter after the running image commits (R397, R406). -/
def committed (s : State) : Word :=
  match s.reeve.bank with
  | some b => w64 (max s.reeve.counter.toNat (rollbackOf s b))
  | none => s.reeve.counter

/-- MGMT.FWCOMMIT (R406). -/
def execMgmtFwcommit (h : Hdr) (s : State) : Outcome State Fault Refusal :=
  issueL 0 (.mgmtFwcommit h) h s fun s =>
    let s1 := closeCur s
    retire h { s1 with reeve := { s1.reeve with counter := committed s1 } }

/-- The bytes of a quote that precede its signature. -/
def quoteBody (s : State) (nonce : List Byte) : List Byte :=
  sha256 (flashBytes s (bankOff false) 512) ++ sha256 (flashBytes s (bankOff true) 512) ++ bytesLE 8 s.reeve.counter.toNat ++
    bytesLE 8 s.cmap.version.toNat ++ nonce

/-- A quote (R406; its layout: log 42). -/
def quoteBytes (s : State) (nonce : List Byte) : List Byte :=
  let b := quoteBody s nonce
  b ++ padTo 384 (Config.identitySign b)

/-- Bytes of a quote. -/
def quoteLen : Nat := 528

/-- The SRAM location of a nonce. -/
def sramAt (off : Nat) : Nat := 2 ^ 50 + off

/-- Make a quote at the Reeve for a thread of it (R406): the nonce is read and the quote written. -/
def makeQuote (s : State) (tk off : Nat) : State :=
  let s1 := drainCovering s tk (locsFrom (sramAt off) (64 + quoteLen))
  let out := quoteBytes s1 (Memory.readN s1.mem (sramAt off) 64)
  let cells := (locsFrom (sramAt (off + 64)) quoteLen).zip out
  let (s2, v) := appendAll s1 (getT s1 tk).view (sectorCells cells)
  modT s2 tk fun t => { t with view := v }

/-- MGMT.QUOTE (R406): ranges that leave the SRAM trap PROT. -/
def execMgmtQuote (h : Hdr) (d n : Fin 16) (s : State) : Outcome State Fault Refusal :=
  issueL 0 (.mgmtQuote h d n) h s fun s =>
    let o := (gVal s n).toNat
    if 2 ^ 19 < o + 64 + quoteLen then trapHere s cPROT (gVal s n)
    else startRequest h [.g d] (.quote o) 0x804 (closeCur s)

end Sys2Proof.Machine
end

