-- ==== Sys2Proof/Machine/Requests.lean ====
section
/-!
DEFINITION. REMOTE_REQUEST (R408, R191, R311, R339, R372): a request that another unit performs in the clock it arrives,
and its reply.
-/

namespace Sys2Proof.Machine

open Host

/-- The request of a thread's outstanding result. -/
def requestOf (s : State) (tk rid : Nat) : Option (Res × Req) :=
  (mget s.threads tk).bind fun t => (findRes t rid).bind fun r => match r.wait with
    | .request q => some (r, q)
    | _ => none

/-- Reply with one value for the request's register. -/
def answer (s : State) (tk rid holder : Nat) (r : Res) (x : Word) : State := reply s tk rid holder (valsOf r.dst x true)

/-- A request that logical core 0 of a context performs. -/
def atCore0 (s : State) (c tk rid : Nat) (eff : Nat → State → State) : State :=
  match getCC s c 0 with
  | some cc => atCC s c 0 cc tk rid (.remoteRequest tk rid) (eff cc.phys)
  | none => eff (coreOf tk) s

/-- A request for a location's core; while earlier tile stores of the thread cover it, it follows them (R245). -/
def atShare (s : State) (tk rid loc : Nat) (eff : State → State) : State :=
  if discarded s (getT s tk).ctx (coreOf tk) loc then s
  else if tstCovers s tk (locsFrom loc 8) then later s 1 (.remoteRequest tk rid)
  else match (if isSram loc then mget s.cctxs (sramKey loc) else none) with
    | some cc => atCC s (sramKey loc / 4096) (sramKey loc % 4096) cc tk rid (.remoteRequest tk rid) eff
    | none => eff s

/-- End a request with values already given, after d clocks. -/
def ended (s : State) (tk rid d : Nat) (vals : List RegW) : State :=
  later (modT s tk fun t => modRes t rid fun r => { r with vals := vals, wait := .none }) d (.resultReturn tk rid)

/-- Let a thread go on that an operation held. -/
def unblock (s : State) (tk : Nat) : State := modT s tk fun t => if t.block = .device then { t with block := .free } else t

/-- Whether an access of a thread's open region has not completed translation (R312): a walk is under way, or has ended and its
instruction is still to be tried again. -/
def regionWalks (t : Thread) : Bool := t.region.isSome && ((walkPage t).isSome || t.block == .walked)

/-- A closing step waits until every access of its thread's open region has completed translation (R312). -/
def afterWalks (s : State) (tk rid : Nat) (eff : State → State) : State :=
  if regionWalks (getT s tk) then later s 1 (.remoteRequest tk rid) else eff s

/-- Whether a result's request may close its thread's region where it is performed (R158). -/
def Wait.closes : Wait → Bool
  | .request (.acq _ _) => true
  | .request (.rel _ _ _ _) => true
  | .request (.atom _ _ _ _ _ _ _) => true
  | .request (.bara _ _) => true
  | .request (.dsteal _ _ _ _ _) => true
  | _ => false

/-- The acquire of R149 at the object (R174, R191); a poisoned object is an uncorrectable error consumed (R295). -/
def acqRequest (s : State) (tk rid va loc : Nat) (r : Res) : State :=
  unlessLost s tk rid loc fun s => atShare s tk rid loc fun s => afterWalks s tk rid fun s =>
    let bad := poisoned s (locsFrom loc 8)
    let (x, s1) := acqStep (countCorrected s (locsFrom loc 8)) tk loc
    if bad then later (modT s1 tk fun t => { t with block := .device }) 0 (.uncorrectableConsumed tk va 0)
    else ended s1 tk rid (acqLegs { s1 with cur := tk } loc).2 (valsOf r.dst x true)

/-- The release of R148 at the object (R175, R191). -/
def relRequest (s : State) (tk rid loc : Nat) (add : Bool) (val : Word) : State :=
  unlessLost s tk rid loc fun s => atShare s tk rid loc fun s => afterWalks s tk rid fun s =>
    let s1 := relStep s tk rid loc add val
    ended s1 tk rid (relBack { s1 with cur := tk } loc) []

/-- The step of R150 at the location, of an ATOM that the port has held (R171, R162). -/
def atomRequest (s : State) (tk rid va loc n : Nat) (op : AtomOp) (u : Bool) (b c : Nat) (r : Res) : State :=
  unlessLost s tk rid loc fun s => atShare s tk rid loc fun s => afterWalks s tk rid fun s =>
    let bad := poisoned s (locsFrom loc n)
    let (old, s1) := atomBy (countCorrected s (locsFrom loc n)) tk (·.before rid) op u n loc b c
    let (d, s2) := memDelay s1
    if bad then later (modT s2 tk fun t => { modRes t rid (fun r => { r with wait := .none }) with block := .device }) d (.uncorrectableConsumed tk va 0)
    else ended s2 tk rid d (valsOf r.dst (w64 old) true)

/-- An operation that holds its thread is polled until it is done (R372). -/
def ctxOpRequest (s : State) (tk rid op c l : Nat) (r : Res) : State :=
  match ctxOpStep s op c l with
  | (some x, s1) => ended (unblock s1 tk) tk rid 0 (valsOf r.dst (w64 x) true)
  | (none, s1) => later s1 1 (.remoteRequest tk rid)

/-- Whether the core's port still holds a request behind a FENCE (R162, effect 3). -/
def inPort (s : State) (tk : Nat) (r : Res) : Bool := r.port && fenced s tk (slotAt s tk).gen r.fence

/-- Whether a request is an access to a page that a shootdown names. -/
def onShot (cx : Option Nat) (ps : List (Nat × Nat)) (c : Nat) : Req → Bool
  | .load va _ _ _ => cx.all (· == c) && inRuns ps (pageOf va)
  | .acq va _ => cx.all (· == c) && inRuns ps (pageOf va)
  | .atom va _ _ _ _ _ _ => cx.all (· == c) && inRuns ps (pageOf va)
  | .vload va _ _ _ _ _ => cx.all (· == c) && inRuns ps (pageOf va)
  | .rel va _ _ _ => cx.all (· == c) && inRuns ps (pageOf va)
  | _ => false

/-- The accesses under way, by thread and result, that old translations of a shootdown's pages made (R311, step 2). -/
def shotAccesses (s : State) (cx : Option Nat) (ps : List (Nat × Nat)) : List (Nat × Res) :=
  s.threads.flatMap fun e => (e.2.res.filter fun r => match r.wait with
    | .request q => onShot cx ps e.2.ctx q
    | _ => false).map fun r => (e.1, r)

/-- An access by an old translation is performed now (R311, step 2). -/
def performShot (s : State) (e : Nat × Res) : State :=
  match e.2.wait with
  | .request (.load va loc n sx) => loadRequest s e.1 e.2.id va loc n sx e.2
  | .request (.acq va loc) => acqRequest s e.1 e.2.id va loc e.2
  | .request (.rel _ loc add val) => relRequest s e.1 e.2.id loc add val
  | .request (.atom va loc n op u b c) => atomRequest s e.1 e.2.id va loc n op u b c e.2
  | .request (.vload va z js locs bySector old) => vecRequest s e.1 e.2.id va z js locs bySector old e.2
  | _ => s

/-- Whether an access has to wait although a shootdown would perform it: the request port holds it behind a FENCE (R162), or it
closes a region of which an access has not completed translation (R312). -/
def mustWait (s : State) (tk : Nat) (r : Res) : Bool := inPort s tk r || (r.wait.closes && regionWalks (getT s tk))

/-- The translations of a shootdown's pages go, and the accesses under way by an old one are performed (R311, steps 1 and 2). -/
def shootAccesses (s : State) (cx : Option Nat) (ps : List (Nat × Nat)) : State :=
  ((shotAccesses s cx ps).filter fun e => !mustWait s e.1 e.2).foldl performShot (dropTlbs s (fun c => cx.all (· == c)) ps)

/-- Whether a shootdown has to wait (R311, R162): an access under way is put off, or a FENCE holds a store of one of the
pages in a thread's buffer. -/
def shotWaits (s : State) (cx : Option Nat) (ps : List (Nat × Nat)) : Bool :=
  ((shotAccesses s cx ps).any fun e => mustWait s e.1 e.2) ||
    s.threads.any fun e => cx.all (· == e.2.ctx) && e.2.buf.any fun b =>
      onPage (inRuns ps) b && e.2.hostSt.any fun h => b.id? == some h.1 && fenced s e.1 (slotAt s e.1).gen h.2

/-- A shootdown (R311, R370): the translations go, the accesses under way by an old one are performed, its waiters wake; then
the thread that asked goes on. -/
def shootRequest (s : State) (tk rid : Nat) (cx : Option Nat) (ps : List (Nat × Nat)) (wake : Bool) (r : Res) : State :=
  let s1 := shootAccesses s cx ps
  if shotWaits s cx ps then later s1 1 (.remoteRequest tk rid)
  else ended (unblock (shootPages s1 cx ps wake) tk) tk rid 0 r.vals

/-- A DSTEAL at its deque's core (R339): performed at the end of the clock it arrives in, after the owner's DPOPs of that clock
(R78), as a closing step (R158, R312). -/
def dstealAt (s : State) (tk rid l : Nat) (a b : Fin 16) (cp : Fin 32) (late : Bool) : State :=
  match getCC s (getT s tk).ctx l with
  | none => s
  | some cc => atCC s (getT s tk).ctx l cc tk rid (.remoteRequest tk rid) fun s =>
    if late then afterWalks s tk rid fun s => dstealRequest s tk rid l a b cp
    else atClockEnd (modT s tk fun t => modRes t rid fun r => { r with wait := .request (.dsteal l a b cp true) }) (.remoteRequest tk rid)

/-- Perform a request where it arrives. -/
def performRequest (s : State) (tk rid : Nat) (r : Res) (q : Req) : State :=
  let c := (getT s tk).ctx
  match q with
  | .sysr n =>
    if 0x300 ≤ n ∧ n < 0x400 then atCore0 s c tk rid fun k s => answer s tk rid k r (sysVariable s tk n)
    else answer s tk rid (if 0x400 ≤ n then 0x804 else coreOf tk) r (sysVariable s tk n)
  | .load va loc n sx => loadRequest s tk rid va loc n sx r
  | .acq va loc => acqRequest s tk rid va loc r
  | .rel _ loc add val => relRequest s tk rid loc add val
  | .mapv acked => atCore0 s c tk rid fun k s =>
      answer s tk rid k r (if acked then (ctxD s c).ackv else (ctxD s c).mapvec)
  | .ctxRd n idx => atCore0 s n tk rid fun k s => answer s tk rid k r (ctxWord s n idx.toNat)
  | .ctxSlot k => answer s tk rid (coreOf k) r (slotWord s k)
  | .retire cls cause res =>
    let (x, s1) := retireRequest s cls cause res (legTo s 0x804 (coreOf tk) + 1)
    answer s1 tk rid 0x804 r (w64 x)
  | .chainId desc bytes => atCore0 s c tk rid fun k s =>
      let (id, s1) := chainRequest s rid desc bytes
      answer s1 tk rid k r (w64 id)
  | .chmodeQ id st rep => atCore0 s c tk rid fun k s => answer s tk rid k r (chmodeWord s c id st rep)
  | .chmodeOcc id n => atCore0 s c tk rid fun k s => answer s tk rid k r (occWord s c id n)
  | .spawn _ => s
  | .dsteal l a b cp late => dstealAt s tk rid l a b cp late
  | .atom va loc n op u b cc => atomRequest s tk rid va loc n op u b cc r
  | .bara loc n => afterWalks s tk rid fun s => baraRequest s tk rid loc n
  | .vload va z js locs bySector old => vecRequest s tk rid va z js locs bySector old r
  | .quote off => answer (makeQuote s tk off) tk rid 0x804 r (w64 quoteLen)
  | .shoot cx ps wake => shootRequest s tk rid cx ps wake r
  | .ctxOp op cx l => ctxOpRequest s tk rid op cx l r

/-- REMOTE_REQUEST (R408, R162): a request is performed where it arrives, unless the port still holds it. -/
def execRemoteRequest (tk rid : Nat) (s : State) : Outcome State Fault Refusal :=
  .next <|
    match requestOf s tk rid with
    | some (r, q) => if inPort s tk r then later s 1 (.remoteRequest tk rid) else performRequest s tk rid r q
    | none => s

/-! ### The prefetcher (R306, R307) -/

/-- Fetch a page (R307), its shootdown as R311 says, or none where the pool is empty. -/
def fetchPage (s : State) (c e base k : Nat) : Option State :=
  let pool := nbits (ctxD s c).tpref.toNat 63 12 * 4096
  let n := memN s pool 8
  if n = 0 then none
  else
    let frame := nbits (memN s (pool + 8 * n) 8) 35 0
    let s1 := putDword s pool (w64 (n - 1))
    let ent := w64 (pteAt s1 e k)
    let s2 := copyFrame s1 (bitsOf ent 51 16) frame
    let ent' := putBits (putBits (putBits ent 51 16 frame) 2 2 0) 63 63 1
    let s3 := putDword s2 (nbits e 39 0 * 4096 + 8 * k) ent'
    some (shootPages (shootAccesses s3 (some c) [(base + k, 1)]) (some c) [(base + k, 1)] false)

/-- Fetch pages in order until the pool is empty: the state and the number fetched. -/
def fetchPages (c e base : Nat) : List Nat → State → Nat → State × Nat
  | [], s, n => (s, n)
  | k :: r, s, n => match fetchPage s c e base k with
    | some s1 => fetchPages c e base r s1 (n + 1)
    | none => (s, n)

/-- PREFETCH (R306, R307): the span's pages are fetched, p first; the waiters wake and a notice is posted to the queue of the
faulting core's die. An empty pool at p hands the fault's task with reason 4 (R303). -/
def execPrefetch (ctx va : Nat) (s0 : State) : Outcome State Fault Refusal :=
  .next <|
    let s := s0
    let req : Fetching := (s.fetches.find? fun f => f.ctx == ctx && f.page == pageOf va).getD
      { ctx := ctx, page := pageOf va, die := (quadsOf s ctx).headD 0, core := 0xFFF, flags := 0 }
    let s := { s with fetches := s.fetches.filter fun f => !(f.ctx == ctx && f.page == pageOf va) }
    match walk s ctx va with
    | .second =>
      (match pagedRange s ctx va with
        | none => s
        | some e =>
          let base := nbits e 119 80
          let m := nbits e 79 40 + 1
          let p := pageOf va - base
          let tp := (ctxD s ctx).tpref.toNat
          let sp := prefetchSpan s e m p (nbits tp 3 0) (nbits tp 7 4) 1
          let wants := fun k => decide (k < m) && nbits (pteAt s e k) 63 63 == 0 && nbits (pteAt s e k) 2 2 == 1
          let ks := p :: ((List.range sp).map (p / sp * sp + ·)).filter fun k => k != p && wants k
          if shotWaits s (some ctx) (ks.map fun k => (base + k, 1)) then later s0 1 (.prefetch ctx va)
          else
          let (s1, n) := fetchPages ctx e base ks s 0
          if n = 0 then taskFor s req.die ctx req.core va 0x30 (req.flags / 16 * 16 + 4)
          else
            let s2 := ks.foldl (fun s k => wakeFaults s ctx fun page cause => page == base + k && cause == 0x30) s1
            pushTask s2 req.die { code := 0x20, g1 := w64 ctx, g2 := w64 (pageOf va * 65536), g3 := w64 n })
    | _ => wakeFaults s ctx fun page cause => page == pageOf va && cause == 0x30

end Sys2Proof.Machine
end

