-- ==== Sys2Proof/Machine/Fold.lean ====
section
/-!
DEFINITION. The fold of a stage chain (R324, R326, R345) and the device step CHAIN_FOLD. It stands behind the requests, since
those that the stage threads have outstanding are performed as it takes place.
-/

namespace Sys2Proof.Machine

open Host

/-- Perform the requests that stage threads still have on their way (log 10): a record holds none (R323). -/
def requestsNow (s : State) (ts : List Nat) : State :=
  ts.foldl (fun s tk => (getT s tk).res.foldl (fun s r => match r.wait with
    | .request (.dsteal l a b c _) => performRequest s tk r.id r (.dsteal l a b c true)
    | .request q => performRequest s tk r.id r q
    | _ => s) s) s

/-- Whether a request of a stage thread is held where it arrives, and the fold with it. -/
def requestLeft (s : State) (ts : List Nat) : Bool := ts.any fun tk => (getT s tk).res.any fun r => match r.wait with
  | .request _ => true
  | _ => false

/-- The results of the stage threads whose values are known return, and their messages with them. -/
def returnKnown (s : State) (ts : List Nat) : State :=
  let ids := ts.flatMap fun tk => ((getT s tk).res.filter fun r => resKnown r || isGetWait r).map (·.id)
  let s1 := ts.foldl (fun s tk => modT s tk fun t =>
    let t1 := (t.res.filter resKnown).foldl returnRes t
    { t1 with res := t1.res.filter fun r => !isGetWait r }) s
  { s1 with agenda := s1.agenda.filter fun e => match e.2 with
      | .resultReturn _ rid => !ids.contains rid
      | _ => true }

/-- The fold of R324: buffers drain, records become frames, every view is the join of all (R326), one slot stays. A result whose
value is not known yet stays with its frame (log 10). -/
def foldNow (s : State) (c : Nat) (ch : Chain) : State :=
  match foldSlot s ch with
  | none => s
  | some tk =>
    let ts := ch.reps.filterMap (·.tk)
    let s0 := returnKnown s ts
    let s1 := ts.foldl (fun s t => displaceMons (drainAll s t) t) s0
    let v := ts.foldl (fun (v : View) t => v.join (getT s1 t).view) {}
    let far := ts.foldl (fun d t => if t = tk then d else max d (recLatency s.cmap (routerOf (coreOf t)) (routerOf (coreOf tk)))) 0
    let ev := ts.any fun t => (getT s1 t).mapevt
    let ch1 : Chain := { ch with
      folded := true
      foldP := false
      queues := ch.queues.map landItems
      reps := ch.reps.map fun r => match r.tk with
        | some t => { r with tk := none, frame := some { clobberVec s.freeCtr 3000 (getT s1 t) with
                        view := v, block := .free, mapevt := false } }
        | none => r }
    let s2 := (ts.filter (· != tk)).foldl freeSlot (setChain s1 c ch1)
    let s3 := resumeNext (modT s2 tk fun t => { t with res := [], buf := [], run := {}, ended := false, mapevt := false }) c ch.id tk ev
    let s4 := checkBars (modT s3 tk fun t => { t with hold := s.clock + 4 + far }) c
    if ch.auto ∧ !ch.foldR then later s4 1 (.autoSpreadRequest c ch.id) else s4

/-- CHAIN_FOLD (R324): a pending fold takes place; a chain number of 65,536 + core instead says that a launch lacked a
slot on that core, for which its chains in auto form request a fold (R327). -/
def execChainFold (ctx chain : Nat) (s : State) : Outcome State Fault Refusal :=
  .next <|
    if 65536 ≤ chain then
      (ctxD s ctx).chains.foldl (fun s ch =>
        if ch.auto ∧ !ch.folded ∧ stageOn ch (chain - 65536) then requestFold s ctx ch false else s) s
    else match chainOf s ctx chain with
      | some ch =>
        if !foldReady s ch then s
        else
          let ts := ch.reps.filterMap (·.tk)
          let s1 := requestsNow s ts
          if requestLeft s1 ts then later s1 1 (.chainFold ctx chain)
          else match chainOf s1 ctx chain with
            | some ch1 => foldNow s1 ctx ch1
            | none => s1
      | none => s

end Sys2Proof.Machine
end

