-- ==== Sys2Proof/Machine/Loss.lean ====
section
/-!
DEFINITION. The loss of resources (R40, R41, R45, R348): what it discards and purges, and the requests that it meets on their way;
links of the package edge (R30, R389), and the domain's routes and time (R389, R390).
-/

namespace Sys2Proof.Machine

open Host

/-! ### Loss (R40, R41, R348) -/

/-- The contexts that have a job on a copy unit's queues. -/
def copyUsers (s : State) (cl : Nat) : List Nat :=
  (List.range 4).foldl (fun a k => (queueAt s (queueKey cl (1 + k))).ents.foldl (fun a e => match e with
    | .job j => addNew j.ctx a
    | .mark _ _ => a) a) []

/-- Whether a context holds a resource in the sense of a loss (R40). -/
def holdsLost (s : State) (cls res c : Nat) : Bool :=
  if cls = clsCore then (ccsOf s c).any fun e => e.2.phys == res
  else if cls = clsTrack then (ccsOf s c).any fun e => e.2.phys == res / 64 && e.2.tmap.contains (res % 64)
  else if cls = clsEngine then (clusterAt s res).holder == some c
  else if cls = clsCopy then (copyUsers s res).contains c
  else if cls = clsDie then
    ((ccsOf s c).any fun e => dieOf (routerOf e.2.phys) == res) ||
    (List.range 256).any fun r => dieOf r == res && ((clusterAt s r).holder == some c || (copyUsers s r).contains c)
  else false

/-- The contexts that a lost slice's router filter purges (R40): those that wrote since it last held no dirty line, a run
of the latest writers whose length the tape gives; all on overflow. -/
def filterPurge (s : State) (slice : Nat) : List Nat × State :=
  let l := mgetD s.filters slice []
  let (k, s1) := takeDelay s (l.length + 1)
  let named := l.drop k
  if 64 < named.length then (s.ctxs.map (·.1), s1) else (named, s1)

/-- Mark the units of a loss; its version is still to come (R41). -/
def markLost (s : State) (cls res : Nat) : State :=
  let v := s.cmap.version.toNat + 1 + s.cmap.pending.length
  (lostUnits cls res).foldl (fun s u =>
    if unitState s.cmap u.1 u.2 = 3 then s
    else
      let m := s.cmap
      { s with cmap := { m with units := mset m.units (unitKey u.1 u.2) 3, since := mset m.since (unitKey u.1 u.2) v } }) s

/-- Whether a location is a line of one of the lost units' memory for a thread (R41). -/
def meetsLoss (s : State) (cls res tk : Nat) (t : Thread) (loc : Nat) : Bool :=
  if cls = clsSlice ∨ cls = clsDie then homedAt s t.ctx (coreOf tk) loc (slicesOf cls res)
  else (lostTarget s t.ctx (coreOf tk) loc).isSome

/-- A cluster adopts the current slice-map generation for a context (R44, R45). -/
def adoptGen (s : State) (c core : Nat) : State :=
  if isCompute core then
    let cl := clusterAt s (core / 8)
    setCluster s (core / 8) { cl with gens := mset cl.gens c s.cmap.sliceGen.toNat }
  else s

/-- The lost reply that the answer of a target that has gone makes (R45, R348), if it makes one: a lost slice's, whose loss the
context has not acknowledged, or that of another lost target. -/
def lostAnswer (s : State) (c core : Nat) (r : Res) (q : Req) : Option (BitVec 8 × Word) :=
  match r.rehash with
  | some sl =>
    let ver := sinceOf s.cmap clsSlice sl
    if unitState s.cmap clsSlice sl = 3 ∧ (ctxD s c).ackv.toNat < ver then some (cMAPSTALE, w64 ver) else none
  | none => q.locs.findSome? (lostTarget s c core)

/-- REHASH_REPLY (R45, R348): the answer of a target that has gone is back. It makes a lost reply, which returns now; or the
cluster adopts the current generation for the context and sends the request again, to the line's home under it, where it is
performed. -/
def execRehashReply (tk rid : Nat) (s : State) : Outcome State Fault Refusal :=
  .next <|
    match requestOf s tk rid with
    | none => s
    | some (r, q) =>
      let c := (getT s tk).ctx
      let core := coreOf tk
      match lostAnswer s c core r q with
      | some (cause, ver) =>
        later (modT s tk fun t => modRes t rid fun r => { r with vals := [], wait := .none, lost := some (cause == cMAPSTALE, ver) }) 0
          (.resultReturn tk rid)
      | none =>
        let s1 := adoptGen s c core
        later s1 (latency s1.cmap (routerOf core) (homeRouter s1 (genFor s1 c core) (q.locs.headD 0))) (.remoteRequest tk rid)

/-- Whether a seat is still in service. -/
def seatLives (s : State) (x : Seat) : Bool :=
  inService s.cmap clsCore x.phys && x.tmap.all fun t => inService s.cmap clsTrack (64 * x.phys + t)

/-- Whether a step is a move of a core context. -/
def isMoveOf (c l : Nat) : Instr → Bool
  | .liveMigration c' l' _ => c' == c && l' == l
  | _ => false

/-- Moves toward a resource that is lost are abandoned (R14, R40): the core contexts stay where they stand, and go on. -/
def abandonMoves (s : State) : State :=
  let gone := s.cctxs.filterMap fun e => e.2.target.bind fun x => if seatLives s x then none else some (e.2.phys, x.phys)
  s.cctxs.foldl (fun s e =>
    match e.2.target with
    | none => s
    | some x =>
      if gone.contains (e.2.phys, x.phys) then
        let c := e.1 / 4096
        let l := e.1 % 4096
        let s1 := { dropSlots s x.phys c l with agenda := s.agenda.filter fun a => !isMoveOf c l a.2 }
        let s2 := modCC s1 c l fun cc => { cc with target := none, cst := if cc.cst = .migrating then .resident else cc.cst }
        releaseHeld (fixCore s2 x.phys) c l
      else s) s

/-- Work under way on a lost unit is discarded at once (R40): a core's threads and what else it holds of contexts, an
engine's or a copy unit's jobs, a track's accesses. -/
def dropWork (s : State) (cls res : Nat) : State :=
  let jobs := fun (s : State) (q : Nat) => s.ctxs.foldl (fun s e => dropJobs s q e.1) s
  if cls = clsCore then s.ctxs.foldl (fun s e =>
    if (ccsOf s e.1).any fun x => x.2.phys == res || x.2.target.any fun t => t.phys == res then resetCore s e.1 res else s) s
  else if cls = clsEngine then jobs s (queueKey res 0)
  else if cls = clsCopy then (List.range 4).foldl (fun s k => jobs s (queueKey res (1 + k))) s
  else if cls = clsTrack then
    { s with tracks := mmap (fun k (x : Track) => { x with
        acc := x.acc.filter fun a => !a.gang.contains res
        wait := x.wait.filter fun r => !r.gang.contains res
        move := if k = res then none else x.move }) s.tracks }
  else s

/-- A resource is lost (R40): at once it is out of service, a retirement of it is abandoned, work under way on it is
discarded, and the contexts that hold it are purged; the version is published after the purges. A die's loss hands a
die-reset task (R353). -/
def loseResource (s : State) (cls res cause : Nat) : State :=
  let old := (s.retires.find? fun r => r.cls == cls && r.res == res).map (·.old)
  let was := if cls = clsDie then dieState s.cmap res else unitState s.cmap cls res
  let s0 := { s with
    retires := s.retires.filter fun r => !(within r.cls r.res cls res)
    cmap := { s.cmap with pending := s.cmap.pending.filter fun d => !(d.kind == 1 && within d.cls d.res cls res) }
    agenda := s.agenda.filter fun e => match e.2 with
      | .mapPublish 1 c _ r _ _ => !within c r cls res
      | _ => true }
  let s1 := abandonMoves (reroute (markLost s0 cls res))
  let (named, s2) := (slicesOf cls res).foldl (fun (a : List Nat × State) sl =>
    let (l, s') := filterPurge a.2 sl
    (a.1 ++ l, s')) ([], s1)
  let holders := s2.ctxs.filterMap fun e => if holdsLost s2 cls res e.1 ∨ named.contains e.1 then some e.1 else none
  let s3 := holders.foldl (fun s c => startKill s c 0x82 0 []) s2
  let s4 := (lostUnits cls res).foldl (fun s u => dropWork s u.1 u.2) (overtake s3 (meetsLoss s3 cls res))
  let s5 := announce s4 2 cls cause res (old.getD was) 3
  if cls = clsDie then
    pushTask s5 (noticeDie s5) { code := 0x23, g1 := 0, g2 := w64 res, g3 := w64 (sinceOf s5.cmap clsDie res) }
  else s5

/-- RESOURCE_LOSS (R40). -/
def execResourceLoss (class_ res cause : Nat) (s : State) : Outcome State Fault Refusal :=
  .next <|
    if !s.booted || decide (class_ = 0 ∨ 10 < class_ ∨ class_ = clsLink) || decide (2 ≤ unitState s.cmap class_ res) then s
    else loseResource s class_ res cause

/-! ### Links of the package edge (R30, R41, R389) -/

/-- LINK_CHANGE (R30, R41, R389): a Strelmin link or CXL port takes a state, a rate and, above 65,536 in the rate's
argument, its AUX; a loss is one of R40. -/
def execLinkChange (class_ link state rate : Nat) (s : State) : Outcome State Fault Refusal :=
  .next <|
    let key := unitKey class_ link
    let old := unitState s.cmap class_ link
    if !s.booted || decide (class_ ≠ clsStrelmin ∧ class_ ≠ clsCxl) || decide (16 ≤ link ∨ (class_ = clsCxl ∧ 3 ≤ link) ∨ 3 < state) ||
        decide (state = 2 ∨ old = 2) || (old == state && mgetD s.cmap.rate key 0 == rate % 65536) then s
    else
      let m := s.cmap
      let s1 := retrained { s with cmap := { m with rate := mset m.rate key (rate % 65536), aux := mset m.aux key (rate / 65536) } } class_ link state
      if state = 3 then loseResource s1 class_ link 6
      else
        let kind := if state < old then 4 else 3
        let s2 := { s1 with cmap := { s1.cmap with units := mset s1.cmap.units key state } }
        announce (reroute s2) kind class_ (if kind = 3 then 6 else 8) link old state

/-! ### The domain (R389, R390) -/

/-- The Reeve exchanges time-stamped flits with package 0 in d clocks (R390): a round trip later COUNT is set to within 8
clocks of package 0's, as the tape has it. -/
def exchange (s : State) (d : Nat) : State :=
  let (lat, s1) := takeDelay s 65536
  let (e, s2) := takeDelay s1 17
  let t := d + 2 * lat
  let err : Word := if e ≤ 8 then w64 e else 0 - w64 (e - 8)
  later s2 t (.timerSync (s2.reeve.timer0 + w64 (s2.clock + t) + err).toNat)

/-- DOMAIN_FORM (R389, R390): the package takes its number among the members of a bit mask, and its route table; another than
package 0 agrees its TIMER with package 0's, whose count the tape gives (log 20). -/
def execDomainForm (pkg members : Nat) (s : State) : Outcome State Fault Refusal :=
  .next <|
    if !s.booted || decide (64 ≤ pkg) || !bitN members pkg then s
    else
      let s1 := reroute { s with pkg := pkg, domain := natsWhere 64 fun p => bitN members p }
      if pkg = 0 then s1
      else
        let (t0, s2) := takeDelay s1 (2 ^ 64)
        exchange { s2 with reeve := { s2.reeve with timer0 := w64 t0 } } 0

/-- TIMER_SYNC (R390): COUNT is set to package 0's and the latency of its flits; the next exchange is 2^20 clocks on. -/
def execTimerSync (val : Nat) (s : State) : Outcome State Fault Refusal :=
  .next <|
    if s.domain = [] ∨ s.pkg = 0 then s
    else
      let s1 := retime { s with reeve := { s.reeve with timerOff := w64 val - w64 s.clock, timerAt := some s.clock } }
      let due := s1.agenda.any fun e => match e.2 with
        | .timerSync _ => true
        | _ => false
      if due then s1 else exchange s1 (2 ^ 20)

end Sys2Proof.Machine
end

