-- ==== Sys2Proof/Machine/Dispatch.lean ====
section
/-!
DEFINITION. The dispatch: one arm for each constructor of Instr, in the order of spec/opcode_table.json.
-/

namespace Sys2Proof.Machine

open Host

/-- The meaning of an instruction or device step, at a state. -/
def exec (i : Instr) (s : State) : Host.Outcome State Fault Refusal :=
  match i with
  | .nop h => Sys2Proof.Machine.execNop h s
  | .br h d => Sys2Proof.Machine.execBr h d s
  | .bri h r => Sys2Proof.Machine.execBri h r s
  | .call h d => Sys2Proof.Machine.execCall h d s
  | .ret h r => Sys2Proof.Machine.execRet h r s
  | .loop h n d => Sys2Proof.Machine.execLoop h n d s
  | .quit h => Sys2Proof.Machine.execQuit h s
  | .spawn h l c d => Sys2Proof.Machine.execSpawn h l c d s
  | .migr h l => Sys2Proof.Machine.execMigr h l s
  | .park h d tmo => Sys2Proof.Machine.execPark h d tmo s
  | .trap h code => Sys2Proof.Machine.execTrap h code s
  | .tret h => Sys2Proof.Machine.execTret h s
  | .sysr h d n => Sys2Proof.Machine.execSysr h d n s
  | .sysw h r n => Sys2Proof.Machine.execSysw h r n s
  | .add h u sat d a b => Sys2Proof.Machine.execAdd h u sat d a b s
  | .sub h u sat d a b => Sys2Proof.Machine.execSub h u sat d a b s
  | .mul h k sat d a b => Sys2Proof.Machine.execMul h k sat d a b s
  | .div h k d a b => Sys2Proof.Machine.execDiv h k d a b s
  | .and h d a b => Sys2Proof.Machine.execAnd h d a b s
  | .or h d a b => Sys2Proof.Machine.execOr h d a b s
  | .xor h d a b => Sys2Proof.Machine.execXor h d a b s
  | .shl h u sat d a b => Sys2Proof.Machine.execShl h u sat d a b s
  | .shr h ar d a b => Sys2Proof.Machine.execShr h ar d a b s
  | .min h u d a b => Sys2Proof.Machine.execMin h u d a b s
  | .max h u d a b => Sys2Proof.Machine.execMax h u d a b s
  | .cmp h cd c a b => Sys2Proof.Machine.execCmp h cd c a b s
  | .sel h d c a b => Sys2Proof.Machine.execSel h d c a b s
  | .mov h d a => Sys2Proof.Machine.execMov h d a s
  | .movi h k d imm => Sys2Proof.Machine.execMovi h k d imm s
  | .lea h x d b x_ disp => Sys2Proof.Machine.execLea h x d b x_ disp s
  | .bfx h sx d a pos len => Sys2Proof.Machine.execBfx h sx d a pos len s
  | .bfi h d a pos len => Sys2Proof.Machine.execBfi h d a pos len s
  | .bitc h k d a => Sys2Proof.Machine.execBitc h k d a s
  | .ld h w sx x mig ch d b x_ disp => Sys2Proof.Machine.execLd h w sx x mig ch d b x_ disp s
  | .st h w x mig ch a b x_ disp => Sys2Proof.Machine.execSt h w x mig ch a b x_ disp s
  | .atom h op u dw d a b n => Sys2Proof.Machine.execAtom h op u dw d a b n s
  | .bind h u b len o => Sys2Proof.Machine.execBind h u b len o s
  | .acq h x d b x_ disp => Sys2Proof.Machine.execAcq h x d b x_ disp s
  | .rel h acc x v b x_ disp => Sys2Proof.Machine.execRel h acc x v b x_ disp s
  | .fence h sc => Sys2Proof.Machine.execFence h sc s
  | .idem h => Sys2Proof.Machine.execIdem h s
  | .mon h x b x_ disp => Sys2Proof.Machine.execMon h x b x_ disp s
  | .mwait h c a tmo => Sys2Proof.Machine.execMwait h c a tmo s
  | .bar h k c sense tmo => Sys2Proof.Machine.execBar h k c sense tmo s
  | .bara h a n => Sys2Proof.Machine.execBara h a n s
  | .bwait h a ph => Sys2Proof.Machine.execBwait h a ph s
  | .bwaitT h c a ph tmo => Sys2Proof.Machine.execBwaitT h c a ph tmo s
  | .qfence h mask => Sys2Proof.Machine.execQfence h mask s
  | .vwidth h w d => Sys2Proof.Machine.execVwidth h w d s
  | .whileP h w cd d c a lim => Sys2Proof.Machine.execWhileP h w cd d c a lim s
  | .vadd h t u f sat d a b pg => Sys2Proof.Machine.execVadd h t u f sat d a b pg s
  | .vsub h t u f sat d a b pg => Sys2Proof.Machine.execVsub h t u f sat d a b pg s
  | .vmul h t u hi f sat d a b pg => Sys2Proof.Machine.execVmul h t u hi f sat d a b pg s
  | .vfma h t np nc f sat d a b c pg => Sys2Proof.Machine.execVfma h t np nc f sat d a b c pg s
  | .vmin h t u z d a b pg => Sys2Proof.Machine.execVmin h t u z d a b pg s
  | .vmax h t u z d a b pg => Sys2Proof.Machine.execVmax h t u z d a b pg s
  | .vun h t k z d a pg => Sys2Proof.Machine.execVun h t k z d a pg s
  | .vcmp h t cd z d a b pg => Sys2Proof.Machine.execVcmp h t cd z d a b pg s
  | .vsel h t d ps a b => Sys2Proof.Machine.execVsel h t d ps a b s
  | .vlog h t k d a b pg => Sys2Proof.Machine.execVlog h t k d a b pg s
  | .vshf h t u k sat d a b pg => Sys2Proof.Machine.execVshf h t u k sat d a b pg s
  | .vcvt h t s2 f sat d a part pg => Sys2Proof.Machine.execVcvt h t s2 f sat d a part pg s
  | .vqnt h fm s2 f sat d a blk cnt => Sys2Proof.Machine.execVqnt h fm s2 f sat d a blk cnt s
  | .vdqn h t f d a blk first pg => Sys2Proof.Machine.execVdqn h t f d a blk first pg s
  | .vsfu h t fn f d a pg => Sys2Proof.Machine.execVsfu h t fn f d a pg s
  | .vdiv h t f d a b pg => Sys2Proof.Machine.execVdiv h t f d a b pg s
  | .vdivSqrt h t f d a pg => Sys2Proof.Machine.execVdivSqrt h t f d a pg s
  | .vred h t op ord f d a pg => Sys2Proof.Machine.execVred h t op ord f d a pg s
  | .vperm h t d a ix pg => Sys2Proof.Machine.execVperm h t d a ix pg s
  | .vpermRot h t dup d a k pg => Sys2Proof.Machine.execVpermRot h t dup d a k pg s
  | .vsplat h t d a pg => Sys2Proof.Machine.execVsplat h t d a pg s
  | .vmovsX h t d a ix => Sys2Proof.Machine.execVmovsX h t d a ix s
  | .vmovsI h t d a ix => Sys2Proof.Machine.execVmovsI h t d a ix s
  | .vld h w mig ch d b pg disp => Sys2Proof.Machine.execVld h w mig ch d b pg disp s
  | .vst h w mig ch src b pg disp => Sys2Proof.Machine.execVst h w mig ch src b pg disp s
  | .vgath h w x ch d b ix pg => Sys2Proof.Machine.execVgath h w x ch d b ix pg s
  | .vscat h w x ch src b ix pg => Sys2Proof.Machine.execVscat h w x ch src b ix pg s
  | .plog h t k d a b pg => Sys2Proof.Machine.execPlog h t k d a b pg s
  | .plogNot h t d a pg => Sys2Proof.Machine.execPlogNot h t d a pg s
  | .plogCount h t first d a pg => Sys2Proof.Machine.execPlogCount h t first d a pg s
  | .plogAny h t c a pg => Sys2Proof.Machine.execPlogAny h t c a pg s
  | .vdot h k f sat d a b pg => Sys2Proof.Machine.execVdot h k f sat d a b pg s
  | .vsmul h t f sat d a c off pg => Sys2Proof.Machine.execVsmul h t f sat d a c off pg s
  | .tshape h tl v => Sys2Proof.Machine.execTshape h tl v s
  | .tld h tl b st disp => Sys2Proof.Machine.execTld h tl b st disp s
  | .tst h tl b st disp => Sys2Proof.Machine.execTst h tl b st disp s
  | .mma h bt r64 c64 set z ac ta tb => Sys2Proof.Machine.execMma h bt r64 c64 set z ac ta tb s
  | .mmaA h bt r64 c64 set z j ac ta tb => Sys2Proof.Machine.execMmaA h bt r64 c64 set z j ac ta tb s
  | .mmag h bt c64 set z j ac ta tb l => Sys2Proof.Machine.execMmag h bt c64 set z j ac ta tb l s
  | .accf h z c nf f sat j ac => Sys2Proof.Machine.execAccf h z c nf f sat j ac s
  | .tmap h a => Sys2Proof.Machine.execTmap h a s
  | .tmapR h a => Sys2Proof.Machine.execTmapR h a s
  | .copy h d2 wb ch j q dst src n => Sys2Proof.Machine.execCopy h d2 wb ch j q dst src n s
  | .jwait h j gt => Sys2Proof.Machine.execJwait h j gt s
  | .jwaitP h c j gt => Sys2Proof.Machine.execJwaitP h c j gt s
  | .holdW h k l => Sys2Proof.Machine.execHoldW h k l s
  | .holdT h c k l => Sys2Proof.Machine.execHoldT h c k l s
  | .hrel h k l => Sys2Proof.Machine.execHrel h k l s
  | .seek h dir k a l disp => Sys2Proof.Machine.execSeek h dir k a l disp s
  | .rds h sx d k l => Sys2Proof.Machine.execRds h sx d k l s
  | .wrs h k a l => Sys2Proof.Machine.execWrs h k a l s
  | .vrds h d kg l => Sys2Proof.Machine.execVrds h d kg l s
  | .vwrs h kg src pg => Sys2Proof.Machine.execVwrs h kg src pg s
  | .rwnd h e k l => Sys2Proof.Machine.execRwnd h e k l s
  | .hpos h d k l => Sys2Proof.Machine.execHpos h d k l s
  | .chain h d a => Sys2Proof.Machine.execChain h d a s
  | .get h d c => Sys2Proof.Machine.execGet h d c s
  | .put h a => Sys2Proof.Machine.execPut h a s
  | .putE h => Sys2Proof.Machine.execPutE h s
  | .chmodeQ h d id => Sys2Proof.Machine.execChmodeQ h d id s
  | .chmodeOcc h d q id => Sys2Proof.Machine.execChmodeOcc h d q id s
  | .chmodeFold h id => Sys2Proof.Machine.execChmodeFold h id s
  | .chmodeSpread h id => Sys2Proof.Machine.execChmodeSpread h id s
  | .chmodeAuto h id => Sys2Proof.Machine.execChmodeAuto h id s
  | .ftile h d c => Sys2Proof.Machine.execFtile h d c s
  | .dpush h c a b => Sys2Proof.Machine.execDpush h c a b s
  | .dpop h a b c => Sys2Proof.Machine.execDpop h a b c s
  | .dsteal h a b c l => Sys2Proof.Machine.execDsteal h a b c l s
  | .ssend h cl l p a => Sys2Proof.Machine.execSsend h cl l p a s
  | .srecv h d c p => Sys2Proof.Machine.execSrecv h d c p s
  | .mapv h d => Sys2Proof.Machine.execMapv h d s
  | .mapvA h d => Sys2Proof.Machine.execMapvA h d s
  | .mapack h w => Sys2Proof.Machine.execMapack h w s
  | .collAr h j dst src n mk => Sys2Proof.Machine.execCollAr h j dst src n mk s
  | .collBc h j dst src n mk => Sys2Proof.Machine.execCollBc h j dst src n mk s
  | .collAg h j dst src n mk => Sys2Proof.Machine.execCollAg h j dst src n mk s
  | .tlbiCtx h c => Sys2Proof.Machine.execTlbiCtx h c s
  | .tlbiPg h c v => Sys2Proof.Machine.execTlbiPg h c v s
  | .tlbiRng h c v n => Sys2Proof.Machine.execTlbiRng h c v n s
  | .tlbiAll h => Sys2Proof.Machine.execTlbiAll h s
  | .kill h f d c => Sys2Proof.Machine.execKill h f d c s
  | .ctxSave h d c l => Sys2Proof.Machine.execCtxSave h d c l s
  | .ctxLoad h d c l => Sys2Proof.Machine.execCtxLoad h d c l s
  | .ctxMig h d c l p => Sys2Proof.Machine.execCtxMig h d c l p s
  | .ctxRd h d c ix => Sys2Proof.Machine.execCtxRd h d c ix s
  | .ctxWr h c v ix => Sys2Proof.Machine.execCtxWr h c v ix s
  | .ctxRes h c => Sys2Proof.Machine.execCtxRes h c s
  | .ctxTv h a => Sys2Proof.Machine.execCtxTv h a s
  | .ctxSlot h d a => Sys2Proof.Machine.execCtxSlot h d a s
  | .pgrefQ h d c v => Sys2Proof.Machine.execPgrefQ h d c v s
  | .pgrefRm h d c v e => Sys2Proof.Machine.execPgrefRm h d c v e s
  | .pgrefSh h d c v sv n => Sys2Proof.Machine.execPgrefSh h d c v sv n s
  | .pgrefDr h d c v => Sys2Proof.Machine.execPgrefDr h d c v s
  | .pgrefAdj h d c v delta => Sys2Proof.Machine.execPgrefAdj h d c v delta s
  | .pgrefWk h c v => Sys2Proof.Machine.execPgrefWk h c v s
  | .pgrefClr h d p => Sys2Proof.Machine.execPgrefClr h d p s
  | .mgmtLog h c a => Sys2Proof.Machine.execMgmtLog h c a s
  | .mgmtTmr h tm => Sys2Proof.Machine.execMgmtTmr h tm s
  | .mgmtRetire h d k r => Sys2Proof.Machine.execMgmtRetire h d k r s
  | .mgmtFwsel h b => Sys2Proof.Machine.execMgmtFwsel h b s
  | .mgmtFwcommit h => Sys2Proof.Machine.execMgmtFwcommit h s
  | .mgmtQuote h d n => Sys2Proof.Machine.execMgmtQuote h d n s
  | .mapevtTake tk => Sys2Proof.Machine.execMapevtTake tk s
  | .interruptTake tk => Sys2Proof.Machine.execInterruptTake tk s
  | .resultReturn tk rid => Sys2Proof.Machine.execResultReturn tk rid s
  | .remoteRequest tk rid => Sys2Proof.Machine.execRemoteRequest tk rid s
  | .fetchRefetch tk => Sys2Proof.Machine.execFetchRefetch tk s
  | .messageDrop tk rid ctx => Sys2Proof.Machine.execMessageDrop tk rid ctx s
  | .messageStaleDrop tk rid ctx => Sys2Proof.Machine.execMessageStaleDrop tk rid ctx s
  | .spawnRequest tk rid => Sys2Proof.Machine.execSpawnRequest tk rid s
  | .migrantArrive tk => Sys2Proof.Machine.execMigrantArrive tk s
  | .migrantRetry tk => Sys2Proof.Machine.execMigrantRetry tk s
  | .migrantAccepted dest => Sys2Proof.Machine.execMigrantAccepted dest s
  | .inboxAdmit core => Sys2Proof.Machine.execInboxAdmit core s
  | .storeDrain tk bid => Sys2Proof.Machine.execStoreDrain tk bid s
  | .hostWrite path => Sys2Proof.Machine.execHostWrite path s
  | .hostRead path => Sys2Proof.Machine.execHostRead path s
  | .monitorNotice dest line => Sys2Proof.Machine.execMonitorNotice dest line s
  | .waitTimeout tk rid last => Sys2Proof.Machine.execWaitTimeout tk rid last s
  | .barRelease ctx set => Sys2Proof.Machine.execBarRelease ctx set s
  | .barrierArrival loc bytes aid => Sys2Proof.Machine.execBarrierArrival loc bytes aid s
  | .linkValueArrive ctx lcore east val => Sys2Proof.Machine.execLinkValueArrive ctx lcore east val s
  | .jobStart q => Sys2Proof.Machine.execJobStart q s
  | .jobComplete q jid ev => Sys2Proof.Machine.execJobComplete q jid ev s
  | .jobFault q err => Sys2Proof.Machine.execJobFault q err s
  | .tileLoadComplete tl op => Sys2Proof.Machine.execTileLoadComplete tl op s
  | .tileStoreComplete tl op => Sys2Proof.Machine.execTileStoreComplete tl op s
  | .collectiveStart peers => Sys2Proof.Machine.execCollectiveStart peers s
  | .leaseGrant track => Sys2Proof.Machine.execLeaseGrant track s
  | .seekComplete track => Sys2Proof.Machine.execSeekComplete track s
  | .headSettle track => Sys2Proof.Machine.execHeadSettle track s
  | .cursorStep track => Sys2Proof.Machine.execCursorStep track s
  | .itemArrive ctx chain stage rep => Sys2Proof.Machine.execItemArrive ctx chain stage rep s
  | .putAccept ctx chain tk => Sys2Proof.Machine.execPutAccept ctx chain tk s
  | .chainFold ctx chain => Sys2Proof.Machine.execChainFold ctx chain s
  | .chainSpread ctx chain => Sys2Proof.Machine.execChainSpread ctx chain s
  | .autoSpreadRequest ctx chain => Sys2Proof.Machine.execAutoSpreadRequest ctx chain s
  | .chainComplete ctx chain => Sys2Proof.Machine.execChainComplete ctx chain s
  | .streamWordArrive core port route => Sys2Proof.Machine.execStreamWordArrive core port route s
  | .streamRouteAdmit core port => Sys2Proof.Machine.execStreamRouteAdmit core port s
  | .tlbWalk tk => Sys2Proof.Machine.execTlbWalk tk s
  | .prefetch ctx va => Sys2Proof.Machine.execPrefetch ctx va s
  | .taskStart d => Sys2Proof.Machine.execTaskStart d s
  | .doorbell q val => Sys2Proof.Machine.execDoorbell q val s
  | .queueEnable q => Sys2Proof.Machine.execQueueEnable q s
  | .queueDrain q => Sys2Proof.Machine.execQueueDrain q s
  | .queueAbort q => Sys2Proof.Machine.execQueueAbort q s
  | .registerWrite addr val => Sys2Proof.Machine.execRegisterWrite addr val s
  | .packetTake q => Sys2Proof.Machine.execPacketTake q s
  | .launchStart ctx => Sys2Proof.Machine.execLaunchStart ctx s
  | .launchComplete ctx => Sys2Proof.Machine.execLaunchComplete ctx s
  | .retirementMove class_ res => Sys2Proof.Machine.execRetirementMove class_ res s
  | .sliceFlush slice => Sys2Proof.Machine.execSliceFlush slice s
  | .mapPublish kind class_ cause res old new => Sys2Proof.Machine.execMapPublish kind class_ cause res old new s
  | .resourceLoss class_ res cause => Sys2Proof.Machine.execResourceLoss class_ res cause s
  | .graceExpiry ctx => Sys2Proof.Machine.execGraceExpiry ctx s
  | .rehashReply tk rid => Sys2Proof.Machine.execRehashReply tk rid s
  | .preempt ctx core => Sys2Proof.Machine.execPreempt ctx core s
  | .liveMigration ctx lcore phys => Sys2Proof.Machine.execLiveMigration ctx lcore phys s
  | .contextSave ctx lcore => Sys2Proof.Machine.execContextSave ctx lcore s
  | .saveResume ctx lcore => Sys2Proof.Machine.execSaveResume ctx lcore s
  | .contextResume ctx lcore => Sys2Proof.Machine.execContextResume ctx lcore s
  | .bermForward core tk ev => Sys2Proof.Machine.execBermForward core tk ev s
  | .bermExpire core ctx lcore => Sys2Proof.Machine.execBermExpire core ctx lcore s
  | .sluiceArrive ctx router => Sys2Proof.Machine.execSluiceArrive ctx router s
  | .sluiceDiscardEnd ctx router => Sys2Proof.Machine.execSluiceDiscardEnd ctx router s
  | .killConfirm ctx => Sys2Proof.Machine.execKillConfirm ctx s
  | .uncorrectableConsumed tk addr bank => Sys2Proof.Machine.execUncorrectableConsumed tk addr bank s
  | .slotScrubComplete tk => Sys2Proof.Machine.execSlotScrubComplete tk s
  | .gangBoundary n => Sys2Proof.Machine.execGangBoundary n s
  | .gangReport n pkg => Sys2Proof.Machine.execGangReport n pkg s
  | .gangStart n => Sys2Proof.Machine.execGangStart n s
  | .gangGraceExpiry n => Sys2Proof.Machine.execGangGraceExpiry n s
  | .sensorSample vals => Sys2Proof.Machine.execSensorSample vals s
  | .alarmExpiry => Sys2Proof.Machine.execAlarmExpiry s
  | .thrlWrite p => Sys2Proof.Machine.execThrlWrite p s
  | .timerSync val => Sys2Proof.Machine.execTimerSync val s
  | .domainForm pkg members => Sys2Proof.Machine.execDomainForm pkg members s
  | .linkChange class_ link state rate => Sys2Proof.Machine.execLinkChange class_ link state rate s
  | .boot => Sys2Proof.Machine.execBoot s
  | .meshLinkChange link code => Sys2Proof.Machine.execMeshLinkChange link code s
  | .clockStep p step_ => Sys2Proof.Machine.execClockStep p step_ s
  | .capacityWithdrawal p cap => Sys2Proof.Machine.execCapacityWithdrawal p cap s

end Sys2Proof.Machine
end

