-- ==== Sys2Proof/Machine/Step.lean ====
section
/-!
DEFINITION. One step of the machine (log 5): a device step or outside input that is due, else the next issue turn of
the clock, else the passing of the clock.
-/

namespace Sys2Proof.Machine

open Host

/-- The turn of a slot: the event due at its boundary, or the instruction it fetches. -/
def stepSlot (s : State) (tk : Nat) : Outcome State Fault Refusal :=
  match boundary s tk with
  | some e => exec e s
  | none =>
    match fetchDecode s with
    | .stop s' => .next s'
    | .run i s' => exec i s'

/-- The issue turns of the clock, then what was put at its end, or the passing of the clock. -/
def stepIssue (s : State) : Outcome State Fault Refusal :=
  match nextSlot s with
  | some tk => stepSlot (takeTurn s tk) tk
  | none => match s.ends with
    | i :: r => exec i { s with ends := r, turn := 4096, freeCtr := s.freeCtr + 1 }
    | [] => .next (tick s)

/-- The step. -/
def step (s : State) : Outcome State Fault Refusal :=
  match s.agenda with
  | (t, i) :: r =>
    if t ≤ s.clock then exec i { s with agenda := r, freeCtr := s.freeCtr + 1 } else stepIssue s
  | [] => if s.romHalted then .fault .romHalted else stepIssue s

/-- The state in which the next step fetches and runs the instruction of a word (log 12). -/
def State.withFetchWord (s : State) (nbits w : Nat) : State := placeWord s (w % 2 ^ nbits)

end Sys2Proof.Machine
end

