-- ==== Sys2Proof/Safety.lean ====
section
/-!
DEFINITION. What a safe run is: the machine's structural invariant, and the outcomes a step may have.
-/

namespace Sys2Proof.Machine

/-- A state's memory is in canonical form. -/
def MemOk (s : State) : Prop := Memory.wf s.mem = true

/-- The step at a state neither faults nor refuses. -/
def Goes (s : State) : Prop := ∃ t, step s = .next t

end Sys2Proof.Machine
end

