-- ==== Sys2Proof/Certificates/Slice0/Obligations.lean ====
section
/-!
DEFINITION. The statements for the provers. First the words they are stated in: when an instruction takes its effect,
and what a step leaves alone; then one definition for each statement, with the rule of the spec it follows.
-/

namespace Sys2Proof.Slice0

open Sys2Proof.Machine

/-- Both guards hold (R108) and no shadow disagreement suppresses the rest of the run (R349). -/
abbrev Issues (h : Hdr) (s : State) : Prop := guardsHold h s = true ∧ (curT s).run.sdc = none

/-- The executing thread stands on a compute core, not on a service core or the Reeve (R117). -/
abbrev OnCore (s : State) : Prop := isCompute (coreOf s.cur) = true

/-- The executing thread's level is lvl or a more privileged one (R115). -/
abbrev Level (lvl : Nat) (s : State) : Prop := (curT s).priv.toNat ≤ lvl

/-- There is room among the sixteen outstanding results (R66). -/
abbrev HasRoom (s : State) : Prop := (curT s).res.length < 16

/-- Every check of a memory access passes, at a location whose share is resident (R167, R363). -/
abbrev Reaches (s : State) (va size align : Nat) (write : Bool) (loc : Nat) : Prop :=
  access s va size align write = .ok loc ∧ heldShare s loc = false

/-- No FENCE holds a request of the thread to the location in the port (R162). -/
abbrev NoFence (s : State) (loc : Nat) : Prop := portHeld s loc = false

/-- No earlier step of the thread holds up a step of this one. -/
abbrev InOrder (s : State) (read : Bool) : Prop := (stepDue (curT s) || (read && armDue s (curT s))) = false

/-- No tile store of the thread is incomplete over its buffered stores (R245). -/
abbrev StoresFree (s : State) : Prop := tstCovers s s.cur ((curT s).buf.flatMap BufItem.locs) = false

/-- The vector registers named are all below VREGS.COUNT (R110). -/
abbrev VRegs (rs : List (Fin 32)) (s : State) : Prop := (rs.all fun r => decide (r.val < (slotAt s s.cur).vregs)) = true

/-- No error strikes a result of the core's vector unit that an instruction rounds (R214, R217). -/
abbrev Agrees (s : State) (rounds : Nat → Bool) : Prop :=
  (s.corrupt.any fun u => u.unit == (0, coreOf s.cur) && rounds u.nth) = false

/-- The active lanes of a predicate, which an instruction on lanes of z bytes computes. -/
abbrev active (s : State) (z : Nat) (pg : Fin 8) (j : Nat) : Bool := decide (j < lanesOf z) && laneOn z (pVal s pg) j

/-- A request for registers has left for its holder; its result is outstanding (R408, R66). -/
abbrev asked (h : Hdr) (dst : List RegId) (q : Req) (holder : Nat) (s : State) : State :=
  let r := resultWait dst (.request q) s
  retire h (later (sendTo r.2 r.1 (some holder)) (legTo r.2 (coreOf s.cur) holder) (.remoteRequest s.cur r.1))

/-- A branch to a target, whose line is checked when it is fetched (R102). -/
abbrev branchTo (h : Hdr) (t : Word) (s : State) : State :=
  retireTo h t (putT s { curT s with entry := .branch (curT s).pc })

/-- Nothing outside the executing thread has changed, and every byte of memory reads as before. -/
def RestSame (s t : State) : Prop :=
  t = { s with threads := t.threads } ∧ (∀ k, k ≠ s.cur → mget t.threads k = mget s.threads k) ∧
    ∀ a, Memory.read t.mem a = Memory.read s.mem a

/-- The status, exception and special registers of a thread, its identity, its store buffer, its view, its monitors and
its region are those of another. -/
def SpecialSame (a b : Thread) : Prop :=
  b.ctx = a.ctx ∧ b.lcore = a.lcore ∧ b.lane = a.lane ∧ b.priv = a.priv ∧ b.cause = a.cause ∧ b.tval = a.tval ∧
  b.epc = a.epc ∧ b.tvec = a.tvec ∧ b.inh = a.inh ∧ b.mheld = a.mheld ∧ b.tscr = a.tscr ∧ b.fxf = a.fxf ∧
  b.fxe = a.fxe ∧ b.seed = a.seed ∧ b.rng = a.rng ∧ b.evt = a.evt ∧ b.region = a.region ∧ b.idemPc = a.idemPc ∧
  b.mons = a.mons ∧ b.buf = a.buf ∧ b.view = a.view ∧ b.chain = a.chain ∧ b.mapevt = a.mapevt ∧ b.entry = a.entry

/-- An exact integer as ADD, SUB, MUL and SHL give it (R134): its low 64 bits, or under SAT the clamp to the signed or
unsigned range. -/
def given (u sat : Bool) (x : Int) : Word :=
  BitVec.ofInt 64 (if sat then (if u then max 0 (min x (2 ^ 64 - 1)) else max (-2 ^ 63) (min x (2 ^ 63 - 1))) else x)

/-- An operand as the integer it stands for. -/
def int (u : Bool) (x : Word) : Int := if u then (x.toNat : Int) else x.toInt

end Sys2Proof.Slice0

open Sys2Proof Sys2Proof.Machine Sys2Proof.Slice0

/-! ### Scalar results -/

/-- R134, as the rule gives it: ADD, SUB, MUL and SHL write the exact result, narrowed, into gD and complete; MUL holds
its thread three clocks more (R133; log 27). -/
def Obligations.AddSubMulShl : Prop :=
  ∀ (h : Hdr) (u sat : Bool) (d : Fin 16) (a b : GI) (s : State), Issues h s →
    exec (.add h u sat d a b) s = .next (retire h (setG s d (given u sat (int u (giVal s a) + int u (giVal s b))))) ∧
    exec (.sub h u sat d a b) s = .next (retire h (setG s d (given u sat (int u (giVal s a) - int u (giVal s b))))) ∧
    exec (.mul h .lo sat d a b) s =
      .next (holdFor 3 (retire h (setG s d (given false sat (int false (giVal s a) * int false (giVal s b)))))) ∧
    exec (.mul h .lou sat d a b) s =
      .next (holdFor 3 (retire h (setG s d (given true sat (int true (giVal s a) * int true (giVal s b)))))) ∧
    exec (.mul h .hi sat d a b) s =
      .next (holdFor 3 (retire h (setG s d
        (((giVal s a).signExtend 128 * (giVal s b).signExtend 128).extractLsb' 64 64)))) ∧
    exec (.mul h .hiu sat d a b) s =
      .next (holdFor 3 (retire h (setG s d
        (((giVal s a).setWidth 128 * (giVal s b).setWidth 128).extractLsb' 64 64)))) ∧
    ((giVal s b).toNat < 64 → exec (.shl h u sat d a b) s =
      .next (retire h (setG s d (given u sat (int u (giVal s a) * 2 ^ (giVal s b).toNat))))) ∧
    (64 ≤ (giVal s b).toNat → exec (.shl h u sat d a b) s = .next (retire h (setG s d
      (if sat = false ∨ giVal s a = 0 then 0
       else if u then 0xFFFFFFFFFFFFFFFF
       else if (giVal s a).msb then 0x8000000000000000 else 0x7FFFFFFFFFFFFFFF))))

/-- R135: with a divisor that is not zero DIV writes the quotient or the remainder of the division truncated toward zero,
and completes; the thread is held twenty clocks more (R133).
The model's choices it rests on: log 27. -/
def Obligations.DivResult : Prop :=
  ∀ (h : Hdr) (d : Fin 16) (a b : GI) (s : State), Issues h s → giVal s b ≠ 0 →
    exec (.div h .q d a b) s = .next (holdFor 20 (retire h (setG s d ((giVal s a).sdiv (giVal s b))))) ∧
    exec (.div h .r d a b) s = .next (holdFor 20 (retire h (setG s d ((giVal s a).srem (giVal s b))))) ∧
    exec (.div h .qu d a b) s = .next (holdFor 20 (retire h (setG s d (giVal s a / giVal s b)))) ∧
    exec (.div h .ru d a b) s = .next (holdFor 20 (retire h (setG s d (giVal s a % giVal s b))))

/-- R135: a zero divisor traps DIVZ with the dividend in TVAL and the instruction's pc in EPC. -/
def Obligations.DivByZero : Prop :=
  ∀ (h : Hdr) (k : DivK) (d : Fin 16) (a b : GI) (s : State), Issues h s → giVal s b = 0 → (curT s).res = [] →
    (curT s).tvec ≠ 0 → (curT s).inh = false →
    ∃ t, exec (.div h k d a b) s = .next t ∧ RestSame s t ∧ (curT t).cause = 0x07 ∧ (curT t).tval = giVal s a ∧
      (curT t).epc = (curT s).pc &&& 0x00FFFFFFFFFFFFC7 ∧ (curT t).pc = (curT s).tvec ∧ (curT t).inh = true ∧
      (curT t).g = (curT s).g ∧ (curT t).pw = (curT s).pw

/-- R136: AND, OR, XOR, SHR, MIN, MAX, SEL and MOV write gD; CMP writes a predicate. -/
def Obligations.LogicShiftCompare : Prop :=
  ∀ (h : Hdr) (d : Fin 16) (c : Fin 32) (a b : GI) (s : State), Issues h s →
    exec (.and h d a b) s = .next (retire h (setG s d (giVal s a &&& giVal s b))) ∧
    exec (.or h d a b) s = .next (retire h (setG s d (giVal s a ||| giVal s b))) ∧
    exec (.xor h d a b) s = .next (retire h (setG s d (giVal s a ^^^ giVal s b))) ∧
    exec (.shr h false d a b) s = .next (retire h (setG s d (giVal s a >>> (giVal s b).toNat))) ∧
    exec (.shr h true d a b) s = .next (retire h (setG s d ((giVal s a).sshiftRight (giVal s b).toNat))) ∧
    (∀ u, exec (.min h u d a b) s =
      .next (retire h (setG s d (if int u (giVal s a) ≤ int u (giVal s b) then giVal s a else giVal s b)))) ∧
    (∀ u, exec (.max h u d a b) s =
      .next (retire h (setG s d (if int u (giVal s b) ≤ int u (giVal s a) then giVal s a else giVal s b)))) ∧
    exec (.sel h d c a b) s = .next (retire h (setG s d (if readC s (curT s) c then giVal s a else giVal s b))) ∧
    exec (.mov h d a) s = .next (retire h (setG s d (giVal s a))) ∧
    (∀ v, exec (.cmp h ⟨.eq, v⟩ c a b) s = .next (retire h (setC s c (giVal s a == giVal s b)))) ∧
    (∀ v, exec (.cmp h ⟨.ne, v⟩ c a b) s = .next (retire h (setC s c (giVal s a != giVal s b)))) ∧
    (∀ v, exec (.cmp h ⟨.lt, v⟩ c a b) s = .next (retire h (setC s c (decide (int v (giVal s a) < int v (giVal s b)))))) ∧
    (∀ v, exec (.cmp h ⟨.le, v⟩ c a b) s = .next (retire h (setC s c (decide (int v (giVal s a) ≤ int v (giVal s b)))))) ∧
    (∀ v, exec (.cmp h ⟨.gt, v⟩ c a b) s = .next (retire h (setC s c (decide (int v (giVal s a) > int v (giVal s b)))))) ∧
    (∀ v, exec (.cmp h ⟨.ge, v⟩ c a b) s = .next (retire h (setC s c (decide (int v (giVal s a) ≥ int v (giVal s b))))))

/-- R137: MOVI and its forms, and LEA, which adds base, scaled index and displacement. -/
def Obligations.MoviLea : Prop :=
  ∀ (h : Hdr) (d b r : Fin 16) (x : Fin 4) (imm : BitVec 48) (disp : BitVec 24) (s : State), Issues h s →
    exec (.movi h .sx d imm) s = .next (retire h (setG s d (imm.signExtend 64))) ∧
    exec (.movi h .z d imm) s = .next (retire h (setG s d (imm.setWidth 64))) ∧
    exec (.movi h .hi d imm) s =
      .next (retire h (setG s d ((imm.setWidth 64 <<< 16) ||| (gVal s d &&& 0xFFFF)))) ∧
    exec (.lea h x d b none disp) s = .next (retire h (setG s d (gVal s b + disp.signExtend 64))) ∧
    exec (.lea h x d b (some r) disp) s =
      .next (retire h (setG s d (gVal s b + (gVal s r <<< x.val) + disp.signExtend 64)))

/-- R138, bit by bit: BFX moves the field down and extends it, BFI writes it and keeps the other bits of gD. With a
position of 64 or more, or length 0, BFX gives 0 and BFI keeps gD. -/
def Obligations.BitFields : Prop :=
  ∀ (h : Hdr) (d : Fin 16) (a pos len : GI) (s : State), Issues h s →
    (64 ≤ (giVal s pos).toNat ∨ giVal s len = 0 →
      (∀ sx, exec (.bfx h sx d a pos len) s = .next (retire h (setG s d 0))) ∧
      exec (.bfi h d a pos len) s = .next (retire h (setG s d (gVal s d)))) ∧
    ((giVal s pos).toNat < 64 → giVal s len ≠ 0 → ∀ m, m = min (giVal s len).toNat (64 - (giVal s pos).toNat) →
      (∀ sx, ∃ x : Word, exec (.bfx h sx d a pos len) s = .next (retire h (setG s d x)) ∧
        ∀ i, i < 64 → x.getLsbD i =
          if i < m then (giVal s a).getLsbD ((giVal s pos).toNat + i)
          else sx && (giVal s a).getLsbD ((giVal s pos).toNat + m - 1)) ∧
      ∃ x : Word, exec (.bfi h d a pos len) s = .next (retire h (setG s d x)) ∧
        ∀ i, i < 64 → x.getLsbD i =
          if (giVal s pos).toNat ≤ i ∧ i < (giVal s pos).toNat + m then (giVal s a).getLsbD (i - (giVal s pos).toNat)
          else (gVal s d).getLsbD i)

/-- R139: BITC's four results, each said by the bits of its operand. -/
def Obligations.BitCounts : Prop :=
  ∀ (h : Hdr) (d : Fin 16) (a : GI) (s : State), Issues h s →
    (∃ n, n ≤ 64 ∧ exec (.bitc h .clz d a) s = .next (retire h (setG s d (BitVec.ofNat 64 n))) ∧
      (∀ i, i < n → (giVal s a).getLsbD (63 - i) = false) ∧ (n < 64 → (giVal s a).getLsbD (63 - n) = true)) ∧
    (∃ n, n ≤ 64 ∧ exec (.bitc h .ctz d a) s = .next (retire h (setG s d (BitVec.ofNat 64 n))) ∧
      (∀ i, i < n → (giVal s a).getLsbD i = false) ∧ (n < 64 → (giVal s a).getLsbD n = true)) ∧
    exec (.bitc h .popc d a) s =
      .next (retire h (setG s d (BitVec.ofNat 64 ((List.range 64).filter fun i => (giVal s a).getLsbD i).length))) ∧
    exec (.bitc h .brev d a) s = .next (retire h (setG s d (giVal s a).reverse))

/-- The scalar instructions that write one scalar register, with their header and that register. -/
def Sys2Proof.Slice0.scalarDst : Instr → Option (Hdr × Fin 16)
  | .add h _ _ d _ _ => some (h, d)
  | .sub h _ _ d _ _ => some (h, d)
  | .mul h _ _ d _ _ => some (h, d)
  | .and h d _ _ => some (h, d)
  | .or h d _ _ => some (h, d)
  | .xor h d _ _ => some (h, d)
  | .shl h _ _ d _ _ => some (h, d)
  | .shr h _ d _ _ => some (h, d)
  | .min h _ d _ _ => some (h, d)
  | .max h _ d _ _ => some (h, d)
  | .sel h d _ _ _ => some (h, d)
  | .mov h d _ => some (h, d)
  | .movi h _ d _ => some (h, d)
  | .lea h _ d _ _ _ => some (h, d)
  | .bfx h _ d _ _ _ => some (h, d)
  | .bfi h d _ _ _ => some (h, d)
  | .bitc h _ d _ => some (h, d)
  | _ => none

/-- The frame of ADD, SUB, MUL, AND, OR, XOR, SHL, SHR, MIN, MAX, SEL, MOV, MOVI, LEA, BFX, BFI and BITC without a
switch marker, guards holding or not: every other scalar register, the predicates, the vector registers, every status,
exception and special register, the rest of the machine and every byte of memory are unchanged; the pc is the next
one. CMP's frame: every scalar and vector register, every other predicate and the rest are unchanged; c0 takes no write
(R110, R136). -/
def Obligations.ScalarFrame : Prop :=
  (∀ (i : Instr) (h : Hdr) (d : Fin 16) (s t : State), scalarDst i = some (h, d) → h.sw = false →
    exec i s = .next t →
    RestSame s t ∧ SpecialSame (curT s) (curT t) ∧ (∀ r : Fin 16, r ≠ d → (curT t).g[r] = (curT s).g[r]) ∧
    (curT t).pw = (curT s).pw ∧ (curT t).v = (curT s).v ∧ (curT t).p = (curT s).p ∧
    (curT t).pc = nextPc (curT s).pc) ∧
  (∀ (h : Hdr) (cd : Cond) (c : Fin 32) (a b : GI) (s t : State), h.sw = false → exec (.cmp h cd c a b) s = .next t →
    RestSame s t ∧ SpecialSame (curT s) (curT t) ∧ (curT t).g = (curT s).g ∧ (curT t).v = (curT s).v ∧
    (curT t).p = (curT s).p ∧ (curT t).pc = nextPc (curT s).pc ∧
    (∀ k : Fin 32, k ≠ c ∨ k = 0 → (curT t).pw.getLsbD k.val = (curT s).pw.getLsbD k.val))

/-- What completing with a fixed scalar result does (R63, R101, R107, R62): gD takes the value and any older result
outstanding no longer writes it (R65); without a switch marker the thread goes on at the next pc, after the clocks of
PACE; nothing else changes. -/
def Obligations.ScalarResult : Prop :=
  ∀ (h : Hdr) (d : Fin 16) (x : Word) (s : State), h.sw = false →
    RestSame s (retire h (setG s d x)) ∧
    curT (retire h (setG s d x)) = { cancelReg (curT s) (.g d) with
      g := (curT s).g.set d x
      pc := nextPc (curT s).pc
      run := runAt (curT s)
      hold := s.clock + 1 + h.pace.val }

/-- R64, the end of a run: a marked instruction parks its thread until every variable result of the run has returned; with
none outstanding the thread is ready at the next pc and a new run begins. -/
def Obligations.RunEnds : Prop :=
  ∀ (h : Hdr) (s : State), h.sw = true →
    ((curT s).res ≠ [] → curT (retire h s) = { curT s with
      run := runAt (curT s), pc := nextPc (curT s).pc, hold := s.clock + 1 + h.pace.val, ended := true }) ∧
    ((curT s).res = [] → deferred { curT s with run := runAt (curT s), pc := nextPc (curT s).pc } = none →
      curT (retire h s) = { curT s with
        run := {}, pc := nextPc (curT s).pc, hold := s.clock + 1 + h.pace.val, ended := false }) ∧
    ((curT s).res ≠ [] ∨ deferred { curT s with run := runAt (curT s), pc := nextPc (curT s).pc } = none →
      RestSame s (retire h s))


/-! ### Which instruction may run where -/

/-- The header of an instruction form; a device step has none. -/
def Sys2Proof.Slice0.hdrOf : Instr → Option Hdr
  | .nop h => some h
  | .br h _ => some h
  | .bri h _ => some h
  | .call h _ => some h
  | .ret h _ => some h
  | .loop h _ _ => some h
  | .quit h => some h
  | .spawn h _ _ _ => some h
  | .migr h _ => some h
  | .park h _ _ => some h
  | .trap h _ => some h
  | .tret h => some h
  | .sysr h _ _ => some h
  | .sysw h _ _ => some h
  | .add h _ _ _ _ _ => some h
  | .sub h _ _ _ _ _ => some h
  | .mul h _ _ _ _ _ => some h
  | .div h _ _ _ _ => some h
  | .and h _ _ _ => some h
  | .or h _ _ _ => some h
  | .xor h _ _ _ => some h
  | .shl h _ _ _ _ _ => some h
  | .shr h _ _ _ _ => some h
  | .min h _ _ _ _ => some h
  | .max h _ _ _ _ => some h
  | .cmp h _ _ _ _ => some h
  | .sel h _ _ _ _ => some h
  | .mov h _ _ => some h
  | .movi h _ _ _ => some h
  | .lea h _ _ _ _ _ => some h
  | .bfx h _ _ _ _ _ => some h
  | .bfi h _ _ _ _ => some h
  | .bitc h _ _ _ => some h
  | .ld h _ _ _ _ _ _ _ _ _ => some h
  | .st h _ _ _ _ _ _ _ _ => some h
  | .atom h _ _ _ _ _ _ _ => some h
  | .bind h _ _ _ _ => some h
  | .acq h _ _ _ _ _ => some h
  | .rel h _ _ _ _ _ _ => some h
  | .fence h _ => some h
  | .idem h => some h
  | .mon h _ _ _ _ => some h
  | .mwait h _ _ _ => some h
  | .bar h _ _ _ _ => some h
  | .bara h _ _ => some h
  | .bwait h _ _ => some h
  | .bwaitT h _ _ _ _ => some h
  | .qfence h _ => some h
  | .vwidth h _ _ => some h
  | .whileP h _ _ _ _ _ _ => some h
  | .vadd h _ _ _ _ _ _ _ _ => some h
  | .vsub h _ _ _ _ _ _ _ _ => some h
  | .vmul h _ _ _ _ _ _ _ _ _ => some h
  | .vfma h _ _ _ _ _ _ _ _ _ _ => some h
  | .vmin h _ _ _ _ _ _ _ => some h
  | .vmax h _ _ _ _ _ _ _ => some h
  | .vun h _ _ _ _ _ _ => some h
  | .vcmp h _ _ _ _ _ _ _ => some h
  | .vsel h _ _ _ _ _ => some h
  | .vlog h _ _ _ _ _ _ => some h
  | .vshf h _ _ _ _ _ _ _ _ => some h
  | .vcvt h _ _ _ _ _ _ _ _ => some h
  | .vqnt h _ _ _ _ _ _ _ _ => some h
  | .vdqn h _ _ _ _ _ _ _ => some h
  | .vsfu h _ _ _ _ _ _ => some h
  | .vdiv h _ _ _ _ _ _ => some h
  | .vdivSqrt h _ _ _ _ _ => some h
  | .vred h _ _ _ _ _ _ _ => some h
  | .vperm h _ _ _ _ _ => some h
  | .vpermRot h _ _ _ _ _ _ => some h
  | .vsplat h _ _ _ _ => some h
  | .vmovsX h _ _ _ _ => some h
  | .vmovsI h _ _ _ _ => some h
  | .vld h _ _ _ _ _ _ _ => some h
  | .vst h _ _ _ _ _ _ _ => some h
  | .vgath h _ _ _ _ _ _ _ => some h
  | .vscat h _ _ _ _ _ _ _ => some h
  | .plog h _ _ _ _ _ _ => some h
  | .plogNot h _ _ _ _ => some h
  | .plogCount h _ _ _ _ _ => some h
  | .plogAny h _ _ _ _ => some h
  | .vdot h _ _ _ _ _ _ _ => some h
  | .vsmul h _ _ _ _ _ _ _ _ => some h
  | .tshape h _ _ => some h
  | .tld h _ _ _ _ => some h
  | .tst h _ _ _ _ => some h
  | .mma h _ _ _ _ _ _ _ _ => some h
  | .mmaA h _ _ _ _ _ _ _ _ _ => some h
  | .mmag h _ _ _ _ _ _ _ _ _ => some h
  | .accf h _ _ _ _ _ _ _ => some h
  | .tmap h _ => some h
  | .tmapR h _ => some h
  | .copy h _ _ _ _ _ _ _ _ => some h
  | .jwait h _ _ => some h
  | .jwaitP h _ _ _ => some h
  | .holdW h _ _ => some h
  | .holdT h _ _ _ => some h
  | .hrel h _ _ => some h
  | .seek h _ _ _ _ _ => some h
  | .rds h _ _ _ _ => some h
  | .wrs h _ _ _ => some h
  | .vrds h _ _ _ => some h
  | .vwrs h _ _ _ => some h
  | .rwnd h _ _ _ => some h
  | .hpos h _ _ _ => some h
  | .chain h _ _ => some h
  | .get h _ _ => some h
  | .put h _ => some h
  | .putE h => some h
  | .chmodeQ h _ _ => some h
  | .chmodeOcc h _ _ _ => some h
  | .chmodeFold h _ => some h
  | .chmodeSpread h _ => some h
  | .chmodeAuto h _ => some h
  | .ftile h _ _ => some h
  | .dpush h _ _ _ => some h
  | .dpop h _ _ _ => some h
  | .dsteal h _ _ _ _ => some h
  | .ssend h _ _ _ _ => some h
  | .srecv h _ _ _ => some h
  | .mapv h _ => some h
  | .mapvA h _ => some h
  | .mapack h _ => some h
  | .collAr h _ _ _ _ _ => some h
  | .collBc h _ _ _ _ _ => some h
  | .collAg h _ _ _ _ _ => some h
  | .tlbiCtx h _ => some h
  | .tlbiPg h _ _ => some h
  | .tlbiRng h _ _ _ => some h
  | .tlbiAll h => some h
  | .kill h _ _ _ => some h
  | .ctxSave h _ _ _ => some h
  | .ctxLoad h _ _ _ => some h
  | .ctxMig h _ _ _ _ => some h
  | .ctxRd h _ _ _ => some h
  | .ctxWr h _ _ _ => some h
  | .ctxRes h _ => some h
  | .ctxTv h _ => some h
  | .ctxSlot h _ _ => some h
  | .pgrefQ h _ _ _ => some h
  | .pgrefRm h _ _ _ _ => some h
  | .pgrefSh h _ _ _ _ _ => some h
  | .pgrefDr h _ _ _ => some h
  | .pgrefAdj h _ _ _ _ => some h
  | .pgrefWk h _ _ => some h
  | .pgrefClr h _ _ => some h
  | .mgmtLog h _ _ => some h
  | .mgmtTmr h _ => some h
  | .mgmtRetire h _ _ _ => some h
  | .mgmtFwsel h _ => some h
  | .mgmtFwcommit h => some h
  | .mgmtQuote h _ _ => some h
  | _ => none

/-- The instruction forms that only compute cores have (R117). -/
def Sys2Proof.Slice0.coreOnly : Instr → Bool
  | .spawn _ _ _ _ => true
  | .migr _ _ => true
  | .vwidth _ _ _ => true
  | .whileP _ _ _ _ _ _ _ => true
  | .vadd _ _ _ _ _ _ _ _ _ => true
  | .vsub _ _ _ _ _ _ _ _ _ => true
  | .vmul _ _ _ _ _ _ _ _ _ _ => true
  | .vfma _ _ _ _ _ _ _ _ _ _ _ => true
  | .vmin _ _ _ _ _ _ _ _ => true
  | .vmax _ _ _ _ _ _ _ _ => true
  | .vun _ _ _ _ _ _ _ => true
  | .vcmp _ _ _ _ _ _ _ _ => true
  | .vsel _ _ _ _ _ _ => true
  | .vlog _ _ _ _ _ _ _ => true
  | .vshf _ _ _ _ _ _ _ _ _ => true
  | .vcvt _ _ _ _ _ _ _ _ _ => true
  | .vqnt _ _ _ _ _ _ _ _ _ => true
  | .vdqn _ _ _ _ _ _ _ _ => true
  | .vsfu _ _ _ _ _ _ _ => true
  | .vdiv _ _ _ _ _ _ _ => true
  | .vdivSqrt _ _ _ _ _ _ => true
  | .vred _ _ _ _ _ _ _ _ => true
  | .vperm _ _ _ _ _ _ => true
  | .vpermRot _ _ _ _ _ _ _ => true
  | .vsplat _ _ _ _ _ => true
  | .vmovsX _ _ _ _ _ => true
  | .vmovsI _ _ _ _ _ => true
  | .vld _ _ _ _ _ _ _ _ => true
  | .vst _ _ _ _ _ _ _ _ => true
  | .vgath _ _ _ _ _ _ _ _ => true
  | .vscat _ _ _ _ _ _ _ _ => true
  | .plog _ _ _ _ _ _ _ => true
  | .plogNot _ _ _ _ _ => true
  | .plogCount _ _ _ _ _ _ => true
  | .plogAny _ _ _ _ _ => true
  | .vdot _ _ _ _ _ _ _ _ => true
  | .vsmul _ _ _ _ _ _ _ _ _ => true
  | .tshape _ _ _ => true
  | .tld _ _ _ _ _ => true
  | .tst _ _ _ _ _ => true
  | .mma _ _ _ _ _ _ _ _ _ => true
  | .mmaA _ _ _ _ _ _ _ _ _ _ => true
  | .mmag _ _ _ _ _ _ _ _ _ _ => true
  | .accf _ _ _ _ _ _ _ _ => true
  | .tmap _ _ => true
  | .tmapR _ _ => true
  | .copy _ _ _ _ _ _ _ _ _ => true
  | .jwait _ _ _ => true
  | .jwaitP _ _ _ _ => true
  | .holdW _ _ _ => true
  | .holdT _ _ _ _ => true
  | .hrel _ _ _ => true
  | .seek _ _ _ _ _ _ => true
  | .rds _ _ _ _ _ => true
  | .wrs _ _ _ _ => true
  | .vrds _ _ _ _ => true
  | .vwrs _ _ _ _ => true
  | .rwnd _ _ _ _ => true
  | .hpos _ _ _ _ => true
  | .chain _ _ _ => true
  | .get _ _ _ => true
  | .put _ _ => true
  | .putE _ => true
  | .chmodeQ _ _ _ => true
  | .chmodeOcc _ _ _ _ => true
  | .chmodeFold _ _ => true
  | .chmodeSpread _ _ => true
  | .chmodeAuto _ _ => true
  | .ftile _ _ _ => true
  | .dpush _ _ _ _ => true
  | .dpop _ _ _ _ => true
  | .dsteal _ _ _ _ _ => true
  | .ssend _ _ _ _ _ => true
  | .srecv _ _ _ _ => true
  | _ => false

/-- The level an instruction form needs (R115): 2 any thread, 1 a service core or the Reeve, 0 the Reeve; SYSR and SYSW
take it from the register (R129). -/
def Sys2Proof.Slice0.levelOf : Instr → Nat
  | .sysr _ _ n => if 0x400 ≤ n.toNat then 1 else 2
  | .sysw _ _ n => if 0x400 ≤ n.toNat then 0 else if n.toNat = 0x302 then 1 else 2
  | .tlbiCtx _ _ => 1
  | .tlbiPg _ _ _ => 1
  | .tlbiRng _ _ _ _ => 1
  | .tlbiAll _ => 1
  | .kill _ _ _ _ => 1
  | .ctxSave _ _ _ _ => 1
  | .ctxLoad _ _ _ _ => 1
  | .ctxMig _ _ _ _ _ => 1
  | .ctxRd _ _ _ _ => 1
  | .ctxWr _ _ _ _ => 1
  | .ctxRes _ _ => 1
  | .ctxTv _ _ => 1
  | .ctxSlot _ _ _ => 1
  | .pgrefQ _ _ _ _ => 1
  | .pgrefRm _ _ _ _ _ => 1
  | .pgrefSh _ _ _ _ _ _ => 1
  | .pgrefDr _ _ _ _ => 1
  | .pgrefAdj _ _ _ _ _ => 1
  | .pgrefWk _ _ _ => 1
  | .pgrefClr _ _ _ => 1
  | .mgmtLog _ _ _ => 1
  | .mgmtTmr _ _ => 0
  | .mgmtRetire _ _ _ _ => 1
  | .mgmtFwsel _ _ => 0
  | .mgmtFwcommit _ => 0
  | .mgmtQuote _ _ _ => 0
  | _ => 2

/-- The executing thread may run the instruction: its core has it (R117, R128) and its level suffices (R115). -/
abbrev Sys2Proof.Slice0.MayRun (i : Instr) (s : State) : Prop :=
  (coreOnly i = true → OnCore s) ∧ (curT s).priv.toNat ≤ levelOf i ∧
    (match i with
      | .sysr _ _ n => sysAbsent (coreOf s.cur) n.toNat = false
      | .sysw _ _ n => sysAbsent (coreOf s.cur) n.toNat = false
      | _ => True)

/-- R108: an instruction form whose guards do not both hold changes nothing; only its marker acts and its turn passes. -/
def Obligations.GuardFalse : Prop :=
  ∀ (i : Instr) (h : Hdr) (s : State), hdrOf i = some h → MayRun i s →
    ((readC s (curT s) h.ga != h.gan) && (readC s (curT s) h.gb != h.gbn)) = false → exec i s = .next (retire h s)

/-- R116 (order 6): an instruction above the executing thread's level traps PRIV, whatever its guards. R117, R128: on a
service core or the Reeve an instruction or system register that only compute cores have traps ILLOP. -/
def Obligations.MayNotRun : Prop :=
  (∀ (i : Instr) (h : Hdr) (s : State), hdrOf i = some h → coreOnly i = false → levelOf i ≤ 1 → levelOf i < (curT s).priv.toNat →
    (match i with
      | .sysr _ _ n => sysAbsent (coreOf s.cur) n.toNat = false
      | .sysw _ _ n => sysAbsent (coreOf s.cur) n.toNat = false
      | _ => True) →
    exec i s = .next (trapHere s 0x02 (tvalOf i))) ∧
  (∀ (i : Instr) (h : Hdr) (s : State), hdrOf i = some h → ¬ OnCore s →
    (coreOnly i = true → exec i s = .next (trapHere s 0x01 (tvalOf i))) ∧
    (∀ d n, i = .sysr h d n ∨ i = .sysw h d n →
      (0x101 ≤ n.toNat ∧ n.toNat ≤ 0x103) ∨ (0x200 ≤ n.toNat ∧ n.toNat ≤ 0x220) →
      exec i s = .next (trapHere s 0x01 (tvalOf i))))

/-! ### Exceptions -/

/-- R125: with no result outstanding and a handler set, a trap saves cause, value and pc, sets INH and goes to TVEC; the
run ends, and nothing outside the thread, no register and no byte of memory changes. A trap waits for the thread's
outstanding variable results: until then it is pending, and nothing else changes. -/
def Obligations.TrapEntry : Prop :=
  (∀ (s : State) (cause : BitVec 8) (tval epc : Word), (curT s).res = [] → (curT s).tvec ≠ 0 → (curT s).inh = false →
    RestSame s (trap s cause tval epc) ∧
    curT (trap s cause tval epc) = { curT s with
      cause := cause, tval := tval, epc := epc &&& 0x00FFFFFFFFFFFFC7, inh := true, pc := (curT s).tvec,
      entry := .handler, run := {}, ended := false, trapP := none, held := none }) ∧
  (∀ (s : State) (cause : BitVec 8) (tval epc : Word), (curT s).res ≠ [] →
    RestSame s (trap s cause tval epc) ∧
    curT (trap s cause tval epc) = { curT s with trapP := some { cause := cause, tval := tval, epc := epc } })

/-- R125: a trap of a launch's thread with TVEC 0, or inside a handler, kills the launch with status 0x82.
The model's choice it rests on: log 37 (the kill's wave begins at the router of the trapping core). -/
def Obligations.TrapKills : Prop :=
  ∀ (s : State) (cause : BitVec 8) (tval epc : Word), (curT s).res = [] → OnCore s →
    (curT s).tvec = 0 ∨ (curT s).inh = true →
    trap s cause tval epc = startKill s (curT s).ctx 0x82 (routerOf (coreOf s.cur)) []

/-- R124: TRAPI raises TRAP (0x12) with its code as TVAL and the address of the instruction after it as EPC; with the entry of
R125 written out. -/
def Obligations.TrapInstr : Prop :=
  ∀ (h : Hdr) (code : BitVec 24) (s : State), Issues h s →
    exec (.trap h code) s = .next (trap s 0x12 (code.setWidth 64) (nextPc (curT s).pc)) ∧
    ((curT s).res = [] → (curT s).tvec ≠ 0 → (curT s).inh = false →
      ∃ t, exec (.trap h code) s = .next t ∧ RestSame s t ∧ (curT t).cause = 0x12 ∧
        (curT t).tval = code.setWidth 64 ∧ (curT t).epc = nextPc (curT s).pc &&& 0x00FFFFFFFFFFFFC7 ∧
        (curT t).inh = true ∧ (curT t).pc = (curT s).tvec ∧ (curT t).g = (curT s).g ∧ (curT t).pw = (curT s).pw ∧
        (curT t).tvec = (curT s).tvec ∧ (curT t).priv = (curT s).priv)

/-- R126: TRET inside a handler clears INH and resumes at EPC, once no result is outstanding; a held MAPEVT that the
context's versions still call for is taken then, with EPC the resumption pc (R36); outside a handler TRET traps ILLOP; an
EPC slot above 4 kills the launch.
The model's choice it rests on: log 37 (the kill's wave begins at the router of the thread's core). -/
def Obligations.TretReturns : Prop :=
  ∀ (h : Hdr) (s : State), Issues h s →
    ((curT s).inh = true → (curT s).res = [] → (curT s).epc.toNat % 8 ≤ 4 →
      ((curT s).mheld = false ∨ (ctxD s (curT s).ctx).mapvec.toNat ≤ (ctxD s (curT s).ctx).ackv.toNat →
        exec (.tret h) s = .next (retireTo h (curT s).epc (putT s { curT s with inh := false, mheld := false })) ∧
        (h.sw = false → ∃ t, exec (.tret h) s = .next t ∧ RestSame s t ∧ (curT t).pc = (curT s).epc ∧
          (curT t).inh = false ∧ (curT t).mheld = false ∧ (curT t).g = (curT s).g ∧ (curT t).pw = (curT s).pw ∧
          (curT t).cause = (curT s).cause ∧ (curT t).tval = (curT s).tval ∧ (curT t).epc = (curT s).epc ∧
          (curT t).tvec = (curT s).tvec ∧ (curT t).priv = (curT s).priv)) ∧
      ((curT s).mheld = true → (ctxD s (curT s).ctx).ackv.toNat < (ctxD s (curT s).ctx).mapvec.toNat →
        (curT s).tvec ≠ 0 → ∃ t, exec (.tret h) s = .next t ∧ RestSame s t ∧ (curT t).cause = 0x11 ∧
          (curT t).tval = (ctxD s (curT s).ctx).mapvec ∧ (curT t).epc = (curT s).epc &&& 0x00FFFFFFFFFFFFC7 ∧
          (curT t).inh = true ∧ (curT t).mheld = false ∧ (curT t).pc = (curT s).tvec ∧ (curT t).g = (curT s).g ∧
          (curT t).pw = (curT s).pw)) ∧
    ((curT s).inh = true → (curT s).res ≠ [] → exec (.tret h) s = .next (retry s)) ∧
    ((curT s).inh = true → (curT s).res = [] → 4 < (curT s).epc.toNat % 8 → OnCore s →
      exec (.tret h) s = .next (startKill s (curT s).ctx 0x82 (routerOf (coreOf s.cur)) [])) ∧
    ((curT s).inh = false → exec (.tret h) s = .next (trapHere s 0x01 (tvalOf (.tret h))))

/-! ### Control and threads -/

/-- R118, R119: NOP goes on; BR, CALL and LOOP by an offset and BRI and RET by a register go to their target, which R102
checks when its line is fetched; CALL writes the next pc into g15 and LOOP counts its register down, branching while it is
not zero. The pc of the branch is kept as the EPC of a failing check. R101, R102: a target outside the address space traps
BADTGT with the slot index or the register's value, and one that no slot can have traps BADTGT with the target; the
count of LOOP and the g15 of CALL are written before. -/
def Obligations.Branches : Prop :=
  (∀ (h : Hdr) (s : State), Issues h s → exec (.nop h) s = .next (retire h s)) ∧
  (∀ (h : Hdr) (d : BitVec 24) (s : State) (t : Word), Issues h s → slotTarget (curT s).pc d = .ok t →
    t.toNat / 8 % 8 = 0 → t.toNat % 8 ≤ 4 →
    exec (.br h d) s = .next (branchTo h t s) ∧
    exec (.call h d) s = .next (branchTo h t (setG s 15 (nextPc (curT s).pc))) ∧
    (∀ n, gVal s n ≠ 1 → exec (.loop h n d) s = .next (branchTo h t (setG s n (gVal s n - 1))))) ∧
  (∀ (h : Hdr) (d : BitVec 24) (n : Fin 16) (s : State), Issues h s → gVal s n = 1 →
    exec (.loop h n d) s = .next (retire h (setG s n 0))) ∧
  (∀ (h : Hdr) (d : BitVec 24) (s : State) (x : Word), Issues h s → slotTarget (curT s).pc d = .error x →
    exec (.br h d) s = .next (trapHere s 0x03 x) ∧
    exec (.call h d) s = .next (trapHere (setG s 15 (nextPc (curT s).pc)) 0x03 x) ∧
    (∀ n, gVal s n ≠ 1 → exec (.loop h n d) s = .next (trapHere (setG s n (gVal s n - 1)) 0x03 x))) ∧
  (∀ (h : Hdr) (r : Fin 16) (s : State), Issues h s →
    ((gVal s r).toNat < 2 ^ 56 → (gVal s r).toNat / 8 % 8 = 0 → (gVal s r).toNat % 8 ≤ 4 →
      exec (.bri h r) s = .next (branchTo h (gVal s r) s) ∧ exec (.ret h r) s = .next (branchTo h (gVal s r) s)) ∧
    (2 ^ 56 ≤ (gVal s r).toNat ∨ (gVal s r).toNat / 8 % 8 ≠ 0 ∨ 4 < (gVal s r).toNat % 8 →
      exec (.bri h r) s = .next (trapHere s 0x03 (gVal s r)) ∧ exec (.ret h r) s = .next (trapHere s 0x03 (gVal s r))))

/-- R121 to R123 and R72: SPAWN sends its request with the child's registers; a logical core that the context lacks traps
PROT, and an offset that leaves the address space BADTGT. MIGR to the own logical core goes on and to another departs at
the next instruction. PARK ends at once on a latched event or a timeout of 0, else waits. QUIT closes the region and ends
the thread. MIGR and QUIT wait for outstanding results.
The model's choices it rests on: log 26 (PARK with 0), log 37 (SPAWN's BADTGT is taken in the parent, after the check of
its logical core). -/
def Obligations.ThreadOps : Prop :=
  (∀ (h : Hdr) (l : Fin 16) (c : Fin 32) (o : BitVec 24) (s : State) (cc : CoreCtx) (t : Word), Issues h s → OnCore s →
    HasRoom s → InOrder s false → namedCore s (gVal s l) = some cc → slotTarget (curT s).pc o = .ok t →
    exec (.spawn h l c o) s = .next (
      let r := resultWait [.c c] (.request (.spawn (gVal s l).toNat)) (closeCur s)
      let s1 := sendTo r.2 r.1 (some cc.phys)
      retire h (later { s1 with spawns := mset s1.spawns r.1 (spawnChild s (gVal s l).toNat t) }
        (coreLat s1 (coreOf s.cur) cc.phys) (.spawnRequest s.cur r.1)))) ∧
  (∀ (h : Hdr) (l : Fin 16) (c : Fin 32) (o : BitVec 24) (s : State), Issues h s → OnCore s →
    (namedCore s (gVal s l) = none → exec (.spawn h l c o) s = .next (trapHere s 0x06 (gVal s l)) ∧
      exec (.migr h l) s = .next (trapHere s 0x06 (gVal s l))) ∧
    (∀ x, (namedCore s (gVal s l)).isSome = true → slotTarget (curT s).pc o = .error x →
      exec (.spawn h l c o) s = .next (trapHere s 0x03 x))) ∧
  (∀ (h : Hdr) (l : Fin 16) (s : State) (cc : CoreCtx), Issues h s → OnCore s → namedCore s (gVal s l) = some cc →
    ((curT s).res = [] → (gVal s l).toNat = (curT s).lcore → exec (.migr h l) s = .next (retire h s)) ∧
    ((curT s).res = [] → (gVal s l).toNat ≠ (curT s).lcore →
      exec (.migr h l) s = .next (depart (retire h s) s.cur (gVal s l).toNat cc.phys)) ∧
    ((curT s).res ≠ [] → exec (.migr h l) s = .next (retry s))) ∧
  (∀ (h : Hdr) (d : Fin 16) (tmo : GI) (s : State), Issues h s → HasRoom s →
    ((curT s).evt ≠ 0 ∨ tmoOf (giVal s tmo) = 0 →
      exec (.park h d tmo) s = .next (waitNow h [.g d ((curT s).evt.setWidth 64)] (curT s).evt none s)) ∧
    ((curT s).evt = 0 → tmoOf (giVal s tmo) ≠ 0 →
      exec (.park h d tmo) s = .next (
        let r := resultWait [.g d] .park s
        retire h (schedTimeout r.2 s.cur r.1 (tmoOf (giVal s tmo)))))) ∧
  (∀ (h : Hdr) (s : State), Issues h s →
    ((curT s).res = [] → OnCore s → exec (.quit h) s = .next (quitThread (closeCur s) s.cur)) ∧
    ((curT s).res = [] → ¬ OnCore s → exec (.quit h) s = .next (quitPriv (drainAll (closeCur s) s.cur) s.cur)) ∧
    ((curT s).res ≠ [] → exec (.quit h) s = .next (retry s)))

/-! ### System registers -/

namespace Sys2Proof.Slice0

/-- The thread and core registers whose value is one field of the state or a sum of its fields, as R129 lists them, with
the values that R82, R130, R131, R80, R20 and R77 give them; PW and IDEMPC stand by themselves. -/
def fixedRegs (s : State) : List (Nat × Word) :=
  let t := curT s
  [(0x000, t.pc), (0x002, t.priv.setWidth 64), (0x003, t.lane.setWidth 64),
   (0x004, BitVec.ofNat 64 ((slotAt s s.cur).gen.toNat * 256 + slotOf s.cur)), (0x005, t.cause.setWidth 64),
   (0x006, t.tval), (0x007, t.epc), (0x008, t.tvec),
   (0x009, BitVec.ofNat 64 ((if t.mheld then 2 else 0) + (if t.inh then 1 else 0))), (0x00A, t.fxf.setWidth 64),
   (0x00B, t.fxe.setWidth 64), (0x00C, t.seed.setWidth 64), (0x00D, t.evt.setWidth 64),
   (0x00F, BitVec.ofNat 64 (slotAt s s.cur).vregs), (0x010, t.tscr),
   (0x100, BitVec.ofNat 64 (coreOf s.cur * 2 ^ 16 + t.lcore)), (0x104, BitVec.ofNat 64 s.clock)]

/-- The registers that a SYSW writes in its thread alone, but for PW, with the thread after the write of v (R130, R131, R80,
R204, R206, R207): of EVT and FXF it clears the bits written as 1, but those that the device sets in this clock (R7). -/
def threadWrites (s : State) (v : Word) : List (Nat × Thread) :=
  let t := curT s
  [(0x005, { t with cause := v.setWidth 8 }), (0x006, { t with tval := v }),
   (0x007, { t with epc := v &&& 0x00FFFFFFFFFFFFC7 }), (0x008, { t with tvec := v &&& 0x00FFFFFFFFFFFFC7 }),
   (0x009, { t with inh := v.getLsbD 0 }), (0x00A, { t with fxf := t.fxf &&& ~~~(v.setWidth 6 &&& ~~~(if t.fxfAt = s.clock then t.fxfNew else 0)) }),
   (0x00B, { t with fxe := v.setWidth 5 }),
   (0x00C, { t with seed := v.setWidth 32, rng := seedGen (v.setWidth 32) t.lane }),
   (0x00D, { t with evt := t.evt &&& ~~~(v.setWidth 7 &&& ~~~(if t.evtAt = s.clock then t.evtNew else 0)) }),
   (0x010, { t with tscr := v })]

/-- The Reeve's registers but the throttles, with the state after a SYSW of v (R399, R401, R402): a LOGBASE out of range
changes nothing, nor does a TIMER whose count an exchange sets in this clock (R7, R390). -/
def reeveWrites (s : State) (v : Word) : List (Nat × State) :=
  [(0x420, { s with reeve := { s.reeve with talert := v.setWidth 16 } }),
   (0x421, { s with reeve := { s.reeve with tclear := v.setWidth 16 } }),
   (0x430, if bitsOf v 23 20 < 9 ∨ 14 < bitsOf v 23 20 ∨ 2 ^ 19 < 32 * bitsOf v 18 5 + 32 * 2 ^ bitsOf v 23 20 then s
     else { s with reeve := { s.reeve with
       logLog2 := BitVec.ofNat 4 (bitsOf v 23 20), logBase := BitVec.ofNat 14 (bitsOf v 18 5) } }),
   (0x431, { s with reeve := { s.reeve with logHead := v.setWidth 32 } }),
   (0x440, if s.reeve.timerAt = some s.clock then s else retime { s with reeve := { s.reeve with timerOff := v - BitVec.ofNat 64 s.clock } })]

end Sys2Proof.Slice0

/-- R128 to R131, R19, R77, R402, R408: SYSR. Every thread and core register is a fixed result; every cluster, context and
management register is asked for at its holder and answered there with its value; a tile register beyond the share traps
TILEERR. -/
def Sys2Proof.Slice0.SystemReads : Prop :=
  (∀ (h : Hdr) (d : Fin 16) (s : State), Issues h s → Level 2 s →
    (∀ e ∈ fixedRegs s, exec (.sysr h d (BitVec.ofNat 24 e.1)) s = .next (retire h (setG s d e.2))) ∧
    (∃ w : Word, exec (.sysr h d 0x001) s = .next (retire h (setG s d w)) ∧
      (∀ c : Fin 32, w.getLsbD c.val = readC s (curT s) c) ∧ ∀ i, 32 ≤ i → w.getLsbD i = false) ∧
    exec (.sysr h d 0x00E) s = .next (retire h (setG s d (match (curT s).region with
      | some c => (c.pc &&& 0x00FFFFFFFFFFFFC7) ||| 0x8000000000000000
      | none => (curT s).idemPc &&& 0x00FFFFFFFFFFFFC7))) ∧
    (OnCore s → ∀ cc, getCC s (curT s).ctx (curT s).lcore = some cc →
      exec (.sysr h d 0x101) s = .next (retire h (setG s d (BitVec.ofNat 64 (coreAt s (coreOf s.cur)).scratch))) ∧
      exec (.sysr h d 0x102) s =
        .next (retire h (setG s d (BitVec.ofNat 64 ((if cc.dqEn then 2 ^ 63 else 0) + cc.dqBase.toNat)))) ∧
      exec (.sysr h d 0x103) s = .next (retire h (setG s d (cc.dqLim.setWidth 64))))) ∧
  (∀ (h : Hdr) (d tl : Fin 16) (n : BitVec 24) (s : State), Issues h s → HasRoom s →
    (Level 2 s → OnCore s → n.toNat = 0x200 ∨ n.toNat = 0x201 →
      exec (.sysr h d n) s = .next (asked h [.g d] (.sysr n.toNat) (coreOf s.cur) s)) ∧
    (Level 2 s → OnCore s → n.toNat = 0x210 + tl.val → tl.val < tileShare s →
      exec (.sysr h d n) s = .next (asked h [.g d] (.sysr n.toNat) (coreOf s.cur) s)) ∧
    (Level 2 s → OnCore s → n.toNat = 0x210 + tl.val → tileShare s ≤ tl.val →
      exec (.sysr h d n) s = .next (tileErr s 6 tl.val)) ∧
    (Level 2 s → 0x300 ≤ n.toNat → n.toNat ≤ 0x304 →
      exec (.sysr h d n) s =
        .next (asked h [.g d] (.sysr n.toNat) (core0 s (curT s).ctx (coreOf s.cur)) s)) ∧
    (Level 1 s → 0x400 ≤ n.toNat → exec (.sysr h d n) s = .next (asked h [.g d] (.sysr n.toNat) 0x804 s))) ∧
  (∀ (tk rid n : Nat) (r : Res) (s : State), requestOf s tk rid = some (r, .sysr n) → r.port = false →
    (n < 0x300 → exec (.remoteRequest tk rid) s =
      .next (reply s tk rid (coreOf tk) (valsOf r.dst (sysVariable s tk n) true))) ∧
    (0x400 ≤ n → exec (.remoteRequest tk rid) s =
      .next (reply s tk rid 0x804 (valsOf r.dst (sysVariable s tk n) true))) ∧
    (∀ cc, 0x300 ≤ n → n < 0x400 → getCC s (getT s tk).ctx 0 = some cc → cc.cst = .resident →
      r.sentTo = none ∨ r.sentTo = some cc.phys → exec (.remoteRequest tk rid) s = .next (reply s tk rid cc.phys (valsOf r.dst (sysVariable s tk n) true)))) ∧
  (∀ (tk : Nat) (s : State), let x := ctxD s (getT s tk).ctx
    (isCompute (coreOf tk) = true → sysVariable s tk 0x200 = BitVec.ofNat 64 (s.pkg * 2 ^ 16 +
      polderOf (coreOf tk / 8) * 2 ^ 13 + dieOf (coreOf tk / 8) * 2 ^ 11 + coreOf tk / 8)) ∧
    sysVariable s tk 0x201 = BitVec.ofNat 64 ((clusterAt s (coreOf tk / 8)).users.toNat * 256 +
      (clusterAt s (coreOf tk / 8)).donors.toNat) ∧
    sysVariable s tk 0x300 = BitVec.ofNat 64 (getT s tk).ctx ∧ sysVariable s tk 0x301 = x.ackv ∧
    ((getCtx s (getT s tk).ctx).isSome = true → sysVariable s tk 0x302 = BitVec.ofNat 64 ((match x.graceAt with
      | some t0 => min (s.clock - t0) 0xFFFFFFFF
      | none => 0) * 2 ^ 32 + x.limit.toNat)) ∧
    sysVariable s tk 0x303 = x.mapvec ∧ sysVariable s tk 0x304 = x.drops.setWidth 64 ∧
    (∀ tl : Fin 16, sysVariable s tk (0x210 + tl.val) = (tileAt s (16 * coreOf tk + tl.val)).shape.setWidth 64) ∧
    (∀ p : Fin 8, sysVariable s tk (0x400 + p.val) = s.reeve.thrl[p].setWidth 64) ∧
    (∀ p : Fin 16, sysVariable s tk (0x410 + p.val) = s.reeve.tsens[p].signExtend 64) ∧
    sysVariable s tk 0x420 = s.reeve.talert.setWidth 64 ∧ sysVariable s tk 0x421 = s.reeve.tclear.setWidth 64 ∧
    sysVariable s tk 0x430 = BitVec.ofNat 64 (s.reeve.logLog2.toNat * 2 ^ 20 + s.reeve.logBase.toNat * 2 ^ 5) ∧
    sysVariable s tk 0x431 = s.reeve.logHead.setWidth 64 ∧
    sysVariable s tk 0x440 = s.reeve.timerOff + BitVec.ofNat 64 s.clock)

/-- R128, R129: SYSW of every writable register. A thread register takes the writable bits of g(O1), EVT and FXF by writing
1 (R7); PW takes every predicate but c0; SEED restarts the generator (R204). DQBASE and DQLIM write their core context, and
EN from 0 to 1 writes the header (R77, R338); GRACE.LIMIT and DROPS their context (R33, R70); TSn acts as TSHAPE (R239);
the Reeve's registers take their values (R399 to R402), a throttle level in effect at the next clock with CLOCKS mod 8 = 0
(R400). -/
def Sys2Proof.Slice0.SystemWrites : Prop :=
  (∀ (h : Hdr) (r : Fin 16) (s : State), Issues h s → Level 2 s →
    (∀ e ∈ threadWrites s (gVal s r),
      exec (.sysw h r (BitVec.ofNat 24 e.1)) s = .next (retire h (putT s e.2))) ∧
    (∃ u : Thread, exec (.sysw h r 0x001) s = .next (retire h (putT s u)) ∧
      u = { curT s with pw := u.pw, res := u.res } ∧
      ∀ c : Fin 32, pwBit u c = (c == 0 || (gVal s r).getLsbD c.val) ∧ pendingReg u (.c c) = false) ∧
    exec (.sysw h r 0x304) s = .next (retire h (modCtx s (curT s).ctx fun x =>
      if x.dropsAt = some s.clock then x else { x with drops := x.drops &&& ~~~((gVal s r).setWidth 32) }))) ∧
  (∀ (h : Hdr) (r : Fin 16) (s : State) (cc : CoreCtx), Issues h s → Level 2 s → OnCore s →
    getCC s (curT s).ctx (curT s).lcore = some cc →
    let base : BitVec 18 := (gVal s r).setWidth 18 &&& 0x3FFF8
    let en := (gVal s r).getLsbD 63
    let put := fun bad => setCC s (curT s).ctx (curT s).lcore { cc with dqBase := base, dqEn := en, dqBad := bad }
    (en = false ∨ cc.dqEn = true → exec (.sysw h r 0x102) s = .next (retire h (put cc.dqBad))) ∧
    (en = true → cc.dqEn = false → cc.shSize < base.toNat + 16 →
      exec (.sysw h r 0x102) s = .next (retire h (put true))) ∧
    (en = true → cc.dqEn = false → base.toNat + 16 ≤ cc.shSize →
      exec (.sysw h r 0x102) s = .next (retire h (append (put false)
        ((locsFrom (sramLoc (ccKey (curT s).ctx (curT s).lcore) base.toNat) 16).zip (List.replicate 16 0)) none).2)) ∧
    exec (.sysw h r 0x103) s =
      .next (retire h (setCC s (curT s).ctx (curT s).lcore { cc with dqLim := base }))) ∧
  (∀ (h : Hdr) (r : Fin 16) (s : State) (x : Ctx), Issues h s → Level 1 s → getCtx s (curT s).ctx = some x →
    let lim : W32 := if ((gVal s r).setWidth 32 : W32).toNat < 0x10000 then 0x10000 else (gVal s r).setWidth 32
    (x.graceAt = none →
      exec (.sysw h r 0x302) s = .next (retire h (setCtx s (curT s).ctx { x with limit := lim }))) ∧
    (∀ t0, x.graceAt = some t0 → exec (.sysw h r 0x302) s = .next (retire h (laterAt
      (setCtx s (curT s).ctx { x with limit := lim }) (t0 + lim.toNat + 1) (.graceExpiry (curT s).ctx))))) ∧
  (∀ (h : Hdr) (r tl : Fin 16) (n : BitVec 24) (s : State), Issues h s → Level 2 s → OnCore s →
    n.toNat = 0x210 + tl.val → inService s.cmap clsEngine (coreOf s.cur / 8) = true → tl.val < tileShare s →
    tileIdle (tileAt s (tileKey s tl.val)) = true →
    (shapeOk (gVal s r) = true → exec (.sysw h r n) s = .next (retire h (setTile s (tileKey s tl.val)
      { tileAt s (tileKey s tl.val) with shape := (gVal s r).setWidth 32, st := .empty, data := [] }))) ∧
    (shapeOk (gVal s r) = false → exec (.sysw h r n) s = .next (tileErr s 1 tl.val))) ∧
  (∀ (h : Hdr) (r : Fin 16) (s : State), Issues h s → Level 0 s →
    (∀ e ∈ reeveWrites s (gVal s r), exec (.sysw h r (BitVec.ofNat 24 e.1)) s = .next (retire h e.2)) ∧
    (∀ p : Fin 8, exec (.sysw h r (BitVec.ofNat 24 (0x400 + p.val))) s = .next (retire h (laterAt
      { s with reeve := { s.reeve with thrl := s.reeve.thrl.set p ((gVal s r).setWidth 3) } }
      ((s.clock / 8 + 1) * 8) (.thrlWrite p.val)))))

/-- R128 to R131, with R19 (CLID), R33, R77, R239, R338, R400 and R402 for the registers that those rules describe: SYSR of
every register gives it, and SYSW of every writable one writes it: `SystemReads` and `SystemWrites`.
The model's choices it rests on: log 38 and log 48 (context registers of a thread without a context). -/
def Obligations.SystemRegisters : Prop := SystemReads ∧ SystemWrites


/-! ### Memory and synchronisation -/

namespace Sys2Proof.Slice0

/-- The thread after a request has left for its home, where it will be performed. -/
abbrev sentHome (h : Hdr) (dst : List RegId) (q : Req) (d : Nat) (s : State) : State :=
  let r := resultWait dst (.request q) s
  retire h (later (sendTo r.2 r.1 (reqCore r.2 q)) d (.remoteRequest s.cur r.1))

/-- The thread after a request behind a FENCE has entered the core's port (R162, effect 3): it will be performed there. -/
abbrev inPortNow (h : Hdr) (dst : List RegId) (q : Req) (d : Nat) (s : State) : State :=
  let r := resultWait dst (.request q) s
  let s1 := putT r.2 (modRes (curT r.2) r.1 fun x => { x with port := true })
  retire h (later (sendTo s1 r.1 (reqCore s1 q)) d (.remoteRequest s.cur r.1))

/-- A request that is performed at a location where it arrives meets no lost target, no kill's discarding, no tile store of its
thread over the object and no share that is away or has moved (R41, R366, R245, R363, R358). -/
abbrev Lands (s : State) (tk loc : Nat) (r : Res) : Prop :=
  lostTarget s (getT s tk).ctx (coreOf tk) loc = none ∧ dying s (getT s tk).ctx = false ∧
    tstCovers s tk (locsFrom loc 8) = false ∧ heldShare s loc = false ∧
    (r.sentTo = none ∨ r.sentTo = (if isSram loc then (mget s.cctxs (sramKey loc)).map (·.phys) else none))

/-- A poisoned sector has been read: instead of its value, the uncorrectable error will be consumed (R295). -/
abbrev consumed (h : Hdr) (dst : List RegId) (va : Nat) (s : State) : State :=
  let m := memDelay s
  let r := resultWait dst .none m.2
  retire h (later r.2 m.1 (.uncorrectableConsumed r.2.cur va 0))

/-- Bindings of the executing thread's context that have not ended (R173). -/
abbrev liveBinds (s : State) : List Binding := (ctxD s (curT s).ctx).binds.filter fun b => match b.until_ with
  | some u => decide (s.clock < u)
  | none => true

/-- The monitors of a thread with one line armed anew, its flag clear (R181). -/
abbrev armed (s : State) (t : Thread) (loc : Nat) : Thread :=
  { disarm t (loc / 32) with
    mons := (disarm t (loc / 32)).mons ++
      [{ line := loc / 32, written := false, armed := s.clock + armDelay s loc }] }

end Sys2Proof.Slice0

/-- R168, R169, R162, R170: with every check passed, LD reads its bytes as one step, forwarded from the thread's own stores
where they cover, and returns them extended as a variable result; ST puts one write of its bytes into the store buffer.
Behind a FENCE that holds the location's requests, the load waits in the port and the store is noted to drain later. A
poisoned sector is consumed (R295). With .MIG an address in another core's share first moves the thread there (R73), and a
core that the context lacks traps PROT. A failing check traps, with nothing read or stored.
The model's choices it rests on: log 8 (the step is taken at issue) and log 33 (what waits behind a FENCE). -/
def Obligations.LoadStore : Prop :=
  (∀ (h : Hdr) (w : Fin 4) (sx mig : Bool) (x : Fin 4) (ch : CH) (d b : Fin 16) (ix : Option (Fin 16))
    (disp : BitVec 24) (s : State) (va loc : Nat), Issues h s → HasRoom s → effAddr s b ix x disp = va →
    (mig = true → migTarget s va = none) → Reaches s va (2 ^ w.val) (2 ^ w.val) false loc → InOrder s true →
    (NoFence s loc → readsPoison s (curT s) (locsFrom loc (2 ^ w.val)) = false →
      exec (.ld h w sx x mig ch d b ix disp) s = .next (
        let r := readThread s 0 (curT s) (locsFrom loc (2 ^ w.val))
        let m := memDelay (countCorrected (putT s { curT s with view := r.2 }) (locsFrom loc (2 ^ w.val)))
        resultFrom h m.1 (some (.load va loc (2 ^ w.val) sx)) [.g d (ldVal (2 ^ w.val) sx r.1)] m.2)) ∧
    (NoFence s loc → readsPoison s (curT s) (locsFrom loc (2 ^ w.val)) = true →
      exec (.ld h w sx x mig ch d b ix disp) s = .next (consumed h [.g d] va (countCorrected
        (putT s { curT s with view := (readThread s 0 (curT s) (locsFrom loc (2 ^ w.val))).2 })
        (locsFrom loc (2 ^ w.val))))) ∧
    (¬ NoFence s loc →
      exec (.ld h w sx x mig ch d b ix disp) s = .next (inPortNow h [.g d] (.load va loc (2 ^ w.val) sx) 1 s))) ∧
  (∀ (h : Hdr) (w : Fin 4) (mig : Bool) (x : Fin 4) (ch : CH) (b : Fin 16) (a : GI) (ix : Option (Fin 16))
    (disp : BitVec 24) (s : State) (va loc : Nat), Issues h s → effAddr s b ix x disp = va →
    (mig = true → migTarget s va = none) → access s va (2 ^ w.val) (2 ^ w.val) true = .ok loc →
    bufWrites (curT s) < 64 →
    let cells := (locsFrom loc (2 ^ w.val)).zip (bytesLE (2 ^ w.val) (giVal s a).toNat)
    (NoFence s loc →
      exec (.st h w x mig ch a b ix disp) s = .next (retire h (issueStore s s.cur (va / 32) cells))) ∧
    (¬ NoFence s loc →
      exec (.st h w x mig ch a b ix disp) s = .next (retire h (issueStore
        (putT s { curT s with hostSt := (curT s).hostSt ++ [(s.idCtr + 1, (curT s).fence)] }) s.cur (va / 32) cells)))) ∧
  (∀ (h : Hdr) (w : Fin 4) (sx : Bool) (x : Fin 4) (ch : CH) (d b : Fin 16) (a : GI) (ix : Option (Fin 16))
    (disp : BitVec 24) (s : State) (va : Nat), Issues h s → effAddr s b ix x disp = va →
    (∀ l k, migTarget s va = some (.ok (l, k)) → (curT s).res = [] →
      exec (.ld h w sx x true ch d b ix disp) s = .next (depart s s.cur l k) ∧
      exec (.st h w x true ch a b ix disp) s = .next (depart s s.cur l k)) ∧
    (∀ l, migTarget s va = some (.error l) → HasRoom s →
      exec (.ld h w sx x true ch d b ix disp) s = .next (trapHere s 0x06 (BitVec.ofNat 64 l)) ∧
      exec (.st h w x true ch a b ix disp) s = .next (trapHere s 0x06 (BitVec.ofNat 64 l))) ∧
    (∀ c v, access s va (2 ^ w.val) (2 ^ w.val) false = .trap c v → HasRoom s →
      exec (.ld h w sx x false ch d b ix disp) s = .next (trapHere s c v)) ∧
    (∀ c v, access s va (2 ^ w.val) (2 ^ w.val) true = .trap c v →
      exec (.st h w x false ch a b ix disp) s = .next (trapHere s c v)))

/-- R145, R169: ST's frame. A store enters the store buffer as its youngest entry, with exactly the stored bytes at the
locations from the one its address names; no byte of memory and no other thread changes, and of its own thread only the
buffer, the run, the pc and the hold of PACE. R147, R168: a load's frame: no byte of memory, no register and no other
thread changes by issuing it; the result is outstanding on gD alone. -/
def Obligations.LoadStoreFrame : Prop :=
  (∀ (h : Hdr) (w : Fin 4) (mig : Bool) (x : Fin 4) (ch : CH) (a : GI) (b : Fin 16) (ix : Option (Fin 16))
    (disp : BitVec 24) (s t : State) (loc : Nat), Issues h s → h.sw = false →
    (mig = true → migTarget s (effAddr s b ix x disp) = none) →
    access s (effAddr s b ix x disp) (2 ^ w.val) (2 ^ w.val) true = .ok loc → bufWrites (curT s) < 64 →
    exec (.st h w x mig ch a b ix disp) s = .next t →
    (∀ l, Memory.read t.mem l = Memory.read s.mem l) ∧ (∀ k, k ≠ s.cur → mget t.threads k = mget s.threads k) ∧
    t = { s with threads := t.threads, idCtr := t.idCtr, agenda := t.agenda, sched := t.sched } ∧
    curT t = { curT s with buf := (curT t).buf, hostSt := (curT t).hostSt, run := (curT t).run
                           pc := nextPc (curT s).pc, hold := (curT t).hold } ∧
    ∃ id opn, (curT t).buf = (curT s).buf ++ [.write id (effAddr s b ix x disp / 32)
      ((locsFrom loc (2 ^ w.val)).zip (bytesLE (2 ^ w.val) (giVal s a).toNat)) opn]) ∧
  (∀ (h : Hdr) (w : Fin 4) (sx mig : Bool) (x : Fin 4) (ch : CH) (d b : Fin 16) (ix : Option (Fin 16))
    (disp : BitVec 24) (s t : State) (loc : Nat), Issues h s → h.sw = false → HasRoom s →
    (mig = true → migTarget s (effAddr s b ix x disp) = none) →
    Reaches s (effAddr s b ix x disp) (2 ^ w.val) (2 ^ w.val) false loc → InOrder s true → NoFence s loc →
    exec (.ld h w sx x mig ch d b ix disp) s = .next t →
    (∀ l, Memory.read t.mem l = Memory.read s.mem l) ∧ (∀ k, k ≠ s.cur → mget t.threads k = mget s.threads k) ∧
    t = { s with threads := t.threads, idCtr := t.idCtr, agenda := t.agenda, sched := t.sched, reeve := t.reeve } ∧
    curT t = { curT s with res := (curT t).res, view := (curT t).view, run := (curT t).run
                           pc := nextPc (curT s).pc, hold := (curT t).hold } ∧
    ∃ r, (curT t).res = (cancelReg (curT s) (.g d)).res ++ [r] ∧ r.dst = [.g d])

/-- R150, R171, R172, R162: ATOM takes one step at its location: it reads the last write there, writes what the operation
makes of it, and returns the old value; the step is taken at issue, or at the line's home where the request arrives, or,
behind a FENCE that holds it, once the port lets it go. On host memory it traps PROT, and a poisoned object is consumed
(R295). Then the step
itself, from an empty store buffer: the old value is the one in memory, and memory takes the new value there and nothing
else. Then what each operation of ATOM writes for the old value x and the operand b of n bytes.
The model's choices it rests on: log 3 (where the step is taken) and log 33 (behind a FENCE). -/
def Obligations.Atoms : Prop :=
  (∀ (h : Hdr) (op : AtomOp) (u dw : Bool) (d a : Fin 16) (b : GI) (n : Option GI) (s : State) (loc : Nat),
    Issues h s → HasRoom s → Reaches s (gVal s a).toNat (if dw then 8 else 4) (if dw then 8 else 4) true loc →
    let w := if dw then 8 else 4
    let c := match n with
      | some x => (giVal s x).toNat % 2 ^ (8 * w)
      | none => 0
    let q := Req.atom (gVal s a).toNat loc w op u ((giVal s b).toNat % 2 ^ (8 * w)) c
    let e := atomTravels s loc
    let r := atomStep (countCorrected e.2 (locsFrom loc w)) op u w loc ((giVal s b).toNat % 2 ^ (8 * w)) c
    (regionOf loc = 2 → isSram loc = false →
      exec (.atom h op u dw d a b n) s = .next (trapHere s 0x06 (BitVec.ofNat 64 (gVal s a).toNat))) ∧
    ((regionOf loc = 2 → isSram loc = true) → StoresFree s → InOrder s true →
      (atomHeld s loc = true → exec (.atom h op u dw d a b n) s = .next (inPortNow h [.g d] q 1 (markCloser s))) ∧
      (atomHeld s loc = false →
        exec (.atom h op u dw d a b n) s = .next (
          if e.1 then sentHome h [.g d] q
            (latency e.2.cmap (routerOf (coreOf s.cur)) (homeRouter e.2 (curGen e.2) loc)) (markCloser e.2)
          else if poisoned e.2 (locsFrom loc w) then consumed h [.g d] (gVal s a).toNat r.2
          else
            let m := memDelay r.2
            resultFrom h m.1 none [.g d (BitVec.ofNat 64 r.1)] m.2)) ∧
      (isSram loc = true → e = (false, s)))) ∧
  (∀ (s : State) (op : AtomOp) (u : Bool) (n loc b c : Nat), (curT s).buf = [] → (curT s).region = none → MemOk s →
    (atomStep s op u n loc b c).1 = memN s loc n ∧
    (∀ y, atomVal op u n (memN s loc n) b c = some y → ∀ a,
      Memory.read (atomStep s op u n loc b c).2.mem a =
        if loc ≤ a ∧ a < loc + n then (bytesLE n y).getD (a - loc) 0 else Memory.read s.mem a) ∧
    (atomVal op u n (memN s loc n) b c = none → ∀ a,
      Memory.read (atomStep s op u n loc b c).2.mem a = Memory.read s.mem a)) ∧
  (∀ (u : Bool) (n x b c : Nat), x < 2 ^ (8 * n) → b < 2 ^ (8 * n) →
    atomVal .add u n x b c = some ((x + b) % 2 ^ (8 * n)) ∧ atomVal .and u n x b c = some (x &&& b) ∧
    atomVal .or u n x b c = some (x ||| b) ∧ atomVal .xor u n x b c = some (x ^^^ b) ∧
    atomVal .swap u n x b c = some b ∧ atomVal .min true n x b c = some (min x b) ∧
    atomVal .max true n x b c = some (max x b) ∧ (x = b → atomVal .cas u n x b c = some c) ∧
    (x ≠ b → atomVal .cas u n x b c = none) ∧
    (0 < n → ∃ y, atomVal .min false n x b c = some y ∧
      signedN (8 * n) y = min (signedN (8 * n) x) (signedN (8 * n) b)) ∧
    (0 < n → ∃ y, atomVal .max false n x b c = some y ∧
      signedN (8 * n) y = max (signedN (8 * n) x) (signedN (8 * n) b)))

/-- R174, R175: ACQ asks the home of its object for the acquire and REL for the release of its value; each is a variable
result, REL's without a register. On a bound range they trap PROT. At the home the acquire reads the object's value, and
the release makes the object hold its value or, with .ADD, the sum with the old one.
The model's choices it rests on: log 8, log 33 (what waits behind a FENCE), and log 44 (an ACQ of an object in the own
scratchpad behind a REL). -/
def Obligations.AcquireRelease : Prop :=
  (∀ (h : Hdr) (x : Fin 4) (d b : Fin 16) (ix : Option (Fin 16)) (disp : BitVec 24) (s : State) (va loc : Nat),
    Issues h s → HasRoom s → effAddr s b ix x disp = va → Reaches s va 8 8 false loc →
    (isBound s (curT s).ctx va = true →
      exec (.acq h x d b ix disp) s = .next (trapHere s 0x06 (BitVec.ofNat 64 va))) ∧
    (isBound s (curT s).ctx va = false → InOrder s false ∨ acqGoes s loc = true → StoresFree s →
      (objHeld s loc = false →
        exec (.acq h x d b ix disp) s = .next (sentHome h [.g d] (.acq va loc) (acqLegs s loc).1 s)) ∧
      (objHeld s loc = true →
        exec (.acq h x d b ix disp) s = .next (inPortNow h [.g d] (.acq va loc) (acqLegs s loc).1 s)))) ∧
  (∀ (h : Hdr) (acc : Bool) (x : Fin 4) (b : Fin 16) (v : GI) (ix : Option (Fin 16)) (disp : BitVec 24) (s : State)
    (va loc : Nat), Issues h s → HasRoom s → effAddr s b ix x disp = va → Reaches s va 8 8 true loc →
    (isBound s (curT s).ctx va = true →
      exec (.rel h acc x v b ix disp) s = .next (trapHere s 0x06 (BitVec.ofNat 64 va))) ∧
    (isBound s (curT s).ctx va = false → InOrder s false → StoresFree s →
      (objHeld s loc = false → exec (.rel h acc x v b ix disp) s =
        .next (sentHome h [] (.rel va loc acc (giVal s v)) (relLeg s loc) (markCloser s))) ∧
      (objHeld s loc = true → exec (.rel h acc x v b ix disp) s =
        .next (inPortNow h [] (.rel va loc acc (giVal s v)) (relLeg s loc) (markCloser s))))) ∧
  (∀ (tk rid va loc : Nat) (acc : Bool) (val : Word) (r : Res) (s : State), findRes (getT s tk) rid = some r → Lands s tk loc r →
    (getT s tk).region = none → r.port = false →
    (requestOf s tk rid = some (r, .acq va loc) → poisoned s (locsFrom loc 8) = false →
      exec (.remoteRequest tk rid) s = .next (
        let x := acqStep (countCorrected s (locsFrom loc 8)) tk loc
        ended x.2 tk rid (acqLegs { x.2 with cur := tk } loc).2 (valsOf r.dst x.1 true))) ∧
    (requestOf s tk rid = some (r, .rel va loc acc val) →
      exec (.remoteRequest tk rid) s = .next (ended (relStep s tk rid loc acc val) tk rid
        (relBack { relStep s tk rid loc acc val with cur := tk } loc) [])) ∧
    ((getT s tk).buf = [] → MemOk s →
      (acqStep s tk loc).1 = BitVec.ofNat 64 (memN s loc 8) ∧
      ∀ a, Memory.read (relStep s tk rid loc acc val).mem a =
        if loc ≤ a ∧ a < loc + 8 then
          (bytesLE 8 (if acc then BitVec.ofNat 64 (memN s loc 8) + val else val).toNat).getD (a - loc) 0
        else Memory.read s.mem a))

/-- R173: BIND adds its binding to its context's set and BIND.U ends its own, in effect 8 clocks on, for which the thread is
held; an identical binding changes nothing. Operands off 32 or 8 bytes trap ALIGN, and a range that meets another binding or
an object traps PROT. R162, R176, R178: FENCE waits for the thread's reads, then marks its store buffer at its scope and
orders later requests behind the track instructions still incomplete; at thread scope it only goes on. IDEM waits for every
result, then closes the region and opens one here.
The model's choices it rests on: log 30 (what BIND.U leaves unchecked), log 47 (the order of BIND's traps) and log 33 (what
waits behind a FENCE). -/
def Obligations.BindFenceIdem : Prop :=
  (∀ (h : Hdr) (u : Bool) (b o : Fin 16) (len : GI) (s : State), Issues h s →
    let base := (gVal s b).toNat
    let n := (giVal s len).toNat
    let obj := (gVal s o).toNat
    let same := fun (x : Binding) => x.base == base && x.len == n && x.obj == obj && x.stands
    let set := fun (bs : List Binding) => holdFor 8 (retire h (modCtx s (curT s).ctx fun x => { x with binds := bs }))
    (base % 32 ≠ 0 ∨ n % 32 ≠ 0 ∨ n = 0 → exec (.bind h u b len o) s = .next (trapHere s 0x05 (BitVec.ofNat 64 base))) ∧
    (base % 32 = 0 → n % 32 = 0 → n ≠ 0 → obj % 8 ≠ 0 →
      exec (.bind h u b len o) s = .next (trapHere s 0x05 (BitVec.ofNat 64 obj))) ∧
    (∀ c v, bindTrap u ((liveBinds s).filter Binding.stands) base n obj = some (c, v) →
      exec (.bind h u b len o) s = .next (trapHere s c (BitVec.ofNat 64 v))) ∧
    (bindTrap u ((liveBinds s).filter Binding.stands) base n obj = none →
      (u = false → (liveBinds s).any same = false → exec (.bind h u b len o) s = .next (set (liveBinds s ++
        [{ base := base, len := n, obj := obj, from_ := s.clock + 8, until_ := none }]))) ∧
      (u = false → (liveBinds s).any same = true → exec (.bind h u b len o) s = .next (set (liveBinds s))) ∧
      (u = true → exec (.bind h u b len o) s = .next (set ((liveBinds s).map fun x =>
        if same x then { x with until_ := some (s.clock + 8) } else x))))) ∧
  (∀ (bs : List Binding) (base n obj : Nat) (x : Binding), x ∈ bs → windowOf base = .translated →
    windowOf (base + n - 1) = .translated → windowOf obj = .translated → base % 32 = 0 → n % 32 = 0 → n ≠ 0 →
    obj % 8 = 0 →
    (x.base < base + n → base < x.base + x.len → x.base ≠ base →
      bindTrap false bs base n obj = some (0x06, base)) ∧
    ((∀ y ∈ bs, (y.base == base && y.len == n && y.obj == obj) = true ∨ overlaps base n y.base y.len = false) →
      x.base ≤ obj → obj < x.base + x.len → bindTrap false bs base n obj = some (0x06, obj))) ∧
  (∀ (h : Hdr) (sc : Scope) (s : State), Issues h s →
    (readDue (curT s) = true → exec (.fence h sc) s = .next (retry s)) ∧
    (readDue (curT s) = false → sc = .thread → exec (.fence h sc) s = .next (retire h s)) ∧
    (readDue (curT s) = false → sc ≠ .thread → exec (.fence h sc) s = .next (retire h (putT s { curT s with
      buf := if (curT s).buf = [] then [] else (curT s).buf ++ [.mark sc (curT s).region.isSome]
      fence := if trackBusy s s.cur then (curT s).fence + 1 else (curT s).fence }))) ∧
    ((curT s).res = [] → exec (.idem h) s = .next (retire h (openRegion (closeCur s) s.cur (curT s).pc))) ∧
    ((curT s).res ≠ [] → exec (.idem h) s = .next (retry s)))

/-- R180 to R184, R191: MON arms a monitor on its 32-byte line: again where the line has one, else in a free entry, else
displacing the one armed longest ago. MWAIT on a line without a monitor ends at once with its predicate clear; on a written
line with it set, at once or with the notice still on its way; with timeout 0 it ends at once with it clear; else it waits.
The model's choices it rests on: log 44 (when MWAIT on a written line returns), log 30 (MWAIT's line by the translation
without its traps) and log 49 (the one armed longest ago is the one whose MON issued first). -/
def Obligations.Monitors : Prop :=
  (∀ (h : Hdr) (x : Fin 4) (b : Fin 16) (ix : Option (Fin 16)) (disp : BitVec 24) (s : State) (loc : Nat), Issues h s →
    Reaches s (effAddr s b ix x disp) 1 1 false loc →
    ((monOf (curT s) (loc / 32)).isSome = true ∨ (curT s).mons.length < 4 →
      exec (.mon h x b ix disp) s = .next (retire h (putT s (armed s (curT s) loc)))) ∧
    (∀ m rest, monOf (curT s) (loc / 32) = none → 4 ≤ (curT s).mons.length → (curT s).mons = m :: rest →
      exec (.mon h x b ix disp) s = .next (retire h (
        let s1 := displaceOne s s.cur m
        putT s1 (armed s (curT s1) loc))))) ∧
  (∀ (h : Hdr) (a : Fin 16) (c : Fin 32) (tmo : GI) (s : State), Issues h s → HasRoom s →
    ((lineOf s (gVal s a).toNat).bind (fun l => monOf (curT s) l) = none →
      exec (.mwait h c a tmo) s = .next (waitNow h [.c c false] evMDSP none s)) ∧
    (∀ m, (lineOf s (gVal s a).toNat).bind (fun l => monOf (curT s) l) = some m →
      let s1 := putT s (disarm (curT s) m.line)
      (m.written = true → noticeIn s s.cur m = 0 →
        exec (.mwait h c a tmo) s = .next (waitNow h [.c c true] evMWR none s1)) ∧
      (m.written = true → noticeIn s s.cur m ≠ 0 →
        exec (.mwait h c a tmo) s = .next (waitOver h (noticeIn s s.cur m) [.c c true] evMWR none s1)) ∧
      (m.written = false → tmoOf (giVal s tmo) = 0 →
        exec (.mwait h c a tmo) s = .next (waitNow h [.c c false] evTMO none s1)) ∧
      (m.written = false → tmoOf (giVal s tmo) ≠ 0 → exec (.mwait h c a tmo) s = .next (
        let r := resultWait [.c c] (.mwait m.line) s
        retire h (schedTimeout r.2 s.cur r.1 (tmoOf (giVal s tmo)))))))

/-- R185 to R190: BAR with a sense other than its set's phase goes on at once; with timeout 0 and members still missing it
ends at once with its predicate clear; else it arrives and waits. BARA drains the thread's stores and sends its bytes to
the barrier, behind a FENCE that holds one of them once the port lets it go. BWAIT and BWAIT.T acquire and end at once where
the phase differs; BWAIT.T with timeout 0 ends at once with
its predicate clear; else they wait for the flip. A barrier outside the shares traps PROT.
The model's choices it rests on: log 8, log 33 (behind a FENCE) and log 49 (BARA follows a pending arm). -/
def Obligations.Barriers : Prop :=
  (∀ (h : Hdr) (k : BarK) (c : Fin 32) (sense tmo : GI) (s : State), Issues h s → HasRoom s →
    let x := (curT s).ctx
    let set := barSetOf k (routerOf (coreOf s.cur))
    let b := barAt s x set
    let s1 := checkBar (setBar s x set { b with arrived := addNew s.cur b.arrived }) x set
    ((giVal s sense).getLsbD 0 ≠ b.phase →
      exec (.bar h k c sense tmo) s = .next (waitNow h [.c c true] evBPH none s)) ∧
    ((giVal s sense).getLsbD 0 = b.phase → tmoOf (giVal s tmo) = 0 → (barAt s1 x set).full = none →
      exec (.bar h k c sense tmo) s = .next (waitNow h [.c c false] evTMO none s)) ∧
    ((giVal s sense).getLsbD 0 = b.phase → tmoOf (giVal s tmo) ≠ 0 ∨ (barAt s1 x set).full.isSome = true →
      exec (.bar h k c sense tmo) s = .next (
        let r := resultWait [.c c] (.bar set) s1
        retire h (schedTimeout r.2 s.cur r.1 (tmoOf (giVal s tmo)))))) ∧
  (∀ (h : Hdr) (c : Fin 32) (a : Fin 16) (tmo n ph : GI) (s : State) (loc : Nat), Issues h s → HasRoom s →
    windowOf (gVal s a).toNat = .local_ ∨ windowOf (gVal s a).toNat = .global →
    Reaches s (gVal s a).toNat 8 8 false loc → InOrder s true →
    (StoresFree s → hostHeld s = true → exec (.bara h a n) s =
      .next (inPortNow h [] (.bara loc ((giVal s n).toNat % 2 ^ 32)) 1 (markCloser s))) ∧
    (StoresFree s → hostHeld s = false → exec (.bara h a n) s = .next (
      let s1 := drainAll (closeCur s) s.cur
      let r := resultWait [] .none s1
      retire h (sendArrival r.2 (relLeg s loc) loc ((giVal s n).toNat % 2 ^ 32) (curT s1).view (10000 + s.cur) s.cur
        r.1))) ∧
    (barWord s loc / 2 ^ 63 % 2 ≠ (giVal s ph).toNat % 2 →
      let s1 := acqDrain s s.cur loc
      exec (.bwait h a ph) s = .next (waitNow h [] evBPH (some (acquired s1 loc)) s1) ∧
      exec (.bwaitT h c a ph tmo) s = .next (waitNow h [.c c true] evBPH (some (acquired s1 loc)) s1)) ∧
    (barWord s loc / 2 ^ 63 % 2 = (giVal s ph).toNat % 2 →
      exec (.bwait h a ph) s = .next (
        let r := resultWait [] (.bwait loc) s
        retire h { r.2 with bwaits := r.2.bwaits ++ [(loc, s.cur, r.1)] }) ∧
      (tmoOf (giVal s tmo) = 0 →
        exec (.bwaitT h c a ph tmo) s = .next (waitNow h [.c c false] evTMO none s)) ∧
      (tmoOf (giVal s tmo) ≠ 0 → exec (.bwaitT h c a ph tmo) s = .next (
        let r := resultWait [.c c] (.bwait loc) s
        retire h (schedTimeout { r.2 with bwaits := r.2.bwaits ++ [(loc, s.cur, r.1)] } s.cur r.1
          (tmoOf (giVal s tmo))))))) ∧
  (∀ (h : Hdr) (c : Fin 32) (a : Fin 16) (tmo n ph : GI) (s : State), Issues h s → HasRoom s →
    windowOf (gVal s a).toNat ≠ .local_ → windowOf (gVal s a).toNat ≠ .global →
    exec (.bara h a n) s = .next (trapHere s 0x06 (BitVec.ofNat 64 (gVal s a).toNat)) ∧
    exec (.bwait h a ph) s = .next (trapHere s 0x06 (BitVec.ofNat 64 (gVal s a).toNat)) ∧
    exec (.bwaitT h c a ph tmo) s = .next (trapHere s 0x06 (BitVec.ofNat 64 (gVal s a).toNat)))

/-- R146, R156: with nothing that holds it back (a tile store over it, a share that is away, a REL or FENCE before it), the
drain of the oldest closed entry of a store buffer writes exactly its bytes to memory, raises the thread's
view over them and removes the entry; every other byte of memory reads as before. -/
def Obligations.StoreDrains : Prop :=
  ∀ (s : State) (tk bid va : Nat) (cells : List (Nat × Byte)) (rest : List BufItem) (t : Thread),
    MemOk s → mget s.threads tk = some t → t.buf = .write bid va cells false :: rest →
    (s.threads.find? fun e => hasEntry e.2.buf bid) = some (tk, t) →
    drainHeld s tk t (.write bid va cells false) bid = false → dying s t.ctx = false →
    (rest.all fun b => b.id? != some bid) = true → (cells.map (·.1)).Nodup →
    ∃ s', exec (.storeDrain tk bid) s = .next s' ∧
      (∀ a, Memory.read s'.mem a = (match cells.find? fun c => c.1 == a with
        | some c => c.2
        | none => Memory.read s.mem a)) ∧
      (∃ u, mget s'.threads tk = some u ∧ u.buf = rest.dropWhile (fun b => !b.isWrite) ∧ u.g = t.g ∧ u.pw = t.pw ∧
        u.pc = t.pc)

/-! ### Vectors -/

namespace Sys2Proof.Slice0

/-- The state in which an instruction that computes vD lane by lane completes (R217, R219, R203): the active lanes computed
in ascending order by g, each with its draw, the others kept, the flags added and the generator moved on. -/
abbrev lanes (h : Hdr) (z : Nat) (d : Fin 32) (pg : Fin 8) (rm : RM) (s : State) (g : Nat → Nat → Nat × Flags) : State :=
  resultV h d (laneLoop z (pVal s pg) (vVal s d) rm (curT s).rng g) s

/-- Lane j of a vector register, lanes of type t. -/
abbrev lane (s : State) (t : VTy) (a : Fin 32) (j : Nat) : Nat := laneN t.size (vVal s a).toNat j

/-- The rounding lanes of an instruction on lanes of z bytes. -/
abbrev rounding (s : State) (on : Bool) (z : Nat) (pg : Fin 8) (j : Nat) : Bool :=
  on && decide (j < lanesOf z) && laneOn z (pVal s pg) j

end Sys2Proof.Slice0

/-- R217, R219, R225 to R229, R231, R236, R237: each instruction that computes lane by lane completes with its active lanes
computed in ascending order, the others kept, and the register, the flags and the generator written at once. Each names the
value of its lane; those that round need their unit's shadow to agree on the lanes (R214). Last, without stochastic draws
(RSR), the register that such a computation gives, lane by lane, and that its generator does not move.
The model's choices it rests on: log 22 (VSFU, VDIV and VDIV.SQRT round the exact result once), log 34 (an exact result that is
subnormal is flushed too) and log 50 (a block of a reserved format and scale). -/
def Obligations.VectorLanes : Prop :=
  (∀ (h : Hdr) (t : VTy) (u hi : Bool) (f : Fp) (sat : Bool) (d a : Fin 32) (b : VB) (pg : Fin 8) (s : State),
    Issues h s → OnCore s → VRegs (d :: a :: vbRegs b) s → Agrees s (rounding s t.isFloat t.size pg) →
    exec (.vadd h t u f sat d a b pg) s = .next (lanes h t.size d pg f.rm s fun j r =>
      if t.isFloat then addF (fmtOf t) f sat r (lane s t a j) (vbLane s t b j)
      else (narrowLane u sat t.size (laneInt u t.size (lane s t a j) + laneInt u t.size (vbLane s t b j)), 0)) ∧
    exec (.vsub h t u f sat d a b pg) s = .next (lanes h t.size d pg f.rm s fun j r =>
      if t.isFloat then subF (fmtOf t) f sat r (lane s t a j) (vbLane s t b j)
      else (narrowLane u sat t.size (laneInt u t.size (lane s t a j) - laneInt u t.size (vbLane s t b j)), 0)) ∧
    exec (.vmul h t u hi f sat d a b pg) s = .next (lanes h t.size d pg f.rm s fun j r =>
      if t.isFloat then mulF (fmtOf t) f sat r (lane s t a j) (vbLane s t b j)
      else (narrowLane u sat t.size
        (if hi then laneInt u t.size (lane s t a j) * laneInt u t.size (vbLane s t b j) / 2 ^ (8 * t.size)
         else laneInt u t.size (lane s t a j) * laneInt u t.size (vbLane s t b j)), 0))) ∧
  (∀ (h : Hdr) (t : VTy) (np nc : Bool) (f : Fp) (sat : Bool) (d a : Fin 32) (b c : VB) (pg : Fin 8) (s : State),
    Issues h s → OnCore s → VRegs (d :: a :: (vbRegs b ++ vbRegs c)) s → Agrees s (rounding s t.isFloat t.size pg) →
    exec (.vfma h t np nc f sat d a b c pg) s = .next (lanes h t.size d pg f.rm s fun j r =>
      if t.isFloat then fmaF (fmtOf t) f sat np nc r (lane s t a j) (vbLane s t b j) (vbLane s t c j)
      else
        let p := laneInt false t.size (lane s t a j) * laneInt false t.size (vbLane s t b j)
        let z := laneInt false t.size (vbLane s t c j)
        (narrowLane false sat t.size ((if np then -p else p) + (if nc then -z else z)), 0))) ∧
  (∀ (h : Hdr) (t : VTy) (k : UnK) (z : Fz) (d a : Fin 32) (pg : Fin 8) (s : State), Issues h s → OnCore s →
    VRegs [d, a] s →
    exec (.vun h t k z d a pg) s = .next (lanes h t.size d pg .rne s fun j _ => unVal t k z (lane s t a j))) ∧
  (∀ (h : Hdr) (t : VTy) (u sat : Bool) (lk : LogK) (sk : ShfK) (d a : Fin 32) (b : VB) (pg : Fin 8) (s : State),
    Issues h s → OnCore s → VRegs (d :: a :: vbRegs b) s →
    exec (.vlog h t lk d a b pg) s = .next (lanes h t.size d pg .rne s fun j _ =>
      (match lk with
        | .and => lane s t a j &&& vbLane s t b j
        | .or => lane s t a j ||| vbLane s t b j
        | .xor => lane s t a j ^^^ vbLane s t b j
        | .andn => lane s t a j - (lane s t a j &&& vbLane s t b j), 0)) ∧
    exec (.vshf h t u sk sat d a b pg) s = .next (lanes h t.size d pg .rne s fun j _ =>
      (shfVal t.size u sat sk (lane s t a j) (vbLane s t b j), 0))) ∧
  (∀ (h : Hdr) (t : VTy) (f : Fp) (d a : Fin 32) (blk : Fin 4) (k : GI) (pg : Fin 8) (s : State), Issues h s →
    OnCore s → VRegs [d, a] s → Agrees s (rounding s true t.size pg) →
    exec (.vdqn h t f d a blk k pg) s = .next (lanes h t.size d pg f.rm s fun j r =>
      dequant t f (laneN 64 (vVal s a).toNat blk.val) ((giVal s k).toNat + j) r)) ∧
  (∀ (h : Hdr) (t : VTy) (fn : SfuK) (f : Fp) (d a : Fin 32) (pg : Fin 8) (s : State), Issues h s → OnCore s →
    VRegs [d, a] s → Agrees s (rounding s true t.size pg) →
    exec (.vsfu h t fn f d a pg) s =
      .next (lanes h t.size d pg f.rm s fun j r => sfuElem (fmtOf t) f fn r (lane s t a j)) ∧
    exec (.vdivSqrt h t f d a pg) s =
      .next (lanes h t.size d pg f.rm s fun j r => sqrtElem (fmtOf t) f r (lane s t a j))) ∧
  (∀ (h : Hdr) (t : VTy) (f : Fp) (d a : Fin 32) (b : VB) (pg : Fin 8) (s : State), Issues h s → OnCore s →
    VRegs (d :: a :: vbRegs b) s → Agrees s (rounding s true t.size pg) →
    exec (.vdiv h t f d a b pg) s =
      .next (lanes h t.size d pg f.rm s fun j r => divElem (fmtOf t) f r (lane s t a j) (vbLane s t b j))) ∧
  (∀ (h : Hdr) (t : VTy) (d a ix : Fin 32) (pg : Fin 8) (s : State), Issues h s → OnCore s → VRegs [d, a, ix] s →
    exec (.vperm h t d a ix pg) s = .next (lanes h t.size d pg .rne s fun j _ =>
      (if lane s t ix j < 256 / t.size then lane s t a (lane s t ix j) else 0, 0))) ∧
  (∀ (h : Hdr) (t : VTy) (d a : Fin 32) (k : GI) (pg : Fin 8) (s : State), Issues h s → OnCore s → VRegs [d, a] s →
    exec (.vpermRot h t false d a k pg) s = .next (lanes h t.size d pg .rne s fun j _ =>
      (lane s t a ((j + (giVal s k).toNat % (256 / t.size)) % (256 / t.size)), 0)) ∧
    exec (.vpermRot h t true d a k pg) s = .next (lanes h t.size d pg .rne s fun _ _ =>
      (lane s t a ((giVal s k).toNat % (256 / t.size)), 0))) ∧
  (∀ (h : Hdr) (t : VTy) (f : Fp) (sat : Bool) (d a c : Fin 32) (k : GI) (pg : Fin 8) (s : State), Issues h s →
    OnCore s → VRegs [d, a, c] s →
    exec (.vsmul h t f sat d a c k pg) s = .next (lanes h t.size d pg f.rm s fun j r => smulVal t f sat r (lane s t a j)
      (if (giVal s k).toNat + j < 256 then laneN 1 (vVal s c).toNat ((giVal s k).toNat + j) else 0x77))) ∧
  (∀ (h : Hdr) (f : Fp) (sat : Bool) (d a b : Fin 32) (pg : Fin 8) (s : State), Issues h s → OnCore s →
    VRegs [d, a, b] s →
    let byte := fun (r : Fin 32) k => signedN 8 (laneN 1 (vVal s r).toNat k)
    let half := fun (r : Fin 32) k => laneN 2 (vVal s r).toNat k
    let acc := fun j => laneN 4 (vVal s d).toNat j
    exec (.vdot h .i8 f sat d a b pg) s = .next (lanes h 4 d pg f.rm s fun j _ =>
      (narrowLane false sat 4 (signedN 32 (acc j) + byte a (4 * j) * byte b (4 * j) +
        byte a (4 * j + 1) * byte b (4 * j + 1) + byte a (4 * j + 2) * byte b (4 * j + 2) +
        byte a (4 * j + 3) * byte b (4 * j + 3)), 0)) ∧
    (Agrees s (rounding s true 4 pg) →
      exec (.vdot h .f16 f sat d a b pg) s = .next (lanes h 4 d pg f.rm s fun j r =>
        dotF F16 f sat r (acc j) (half a (2 * j)) (half b (2 * j)) (half a (2 * j + 1)) (half b (2 * j + 1))) ∧
      exec (.vdot h .bf16 f sat d a b pg) s = .next (lanes h 4 d pg f.rm s fun j r =>
        dotF BF16 f sat r (acc j) (half a (2 * j)) (half b (2 * j)) (half a (2 * j + 1)) (half b (2 * j + 1))))) ∧
  (∀ (t : VTy) (p : VPred) (old : Vec) (rm : RM) (rng : W32) (g : Nat → Nat → Nat × Flags), rm ≠ .rsr →
    (laneLoop t.size p old rm rng g).2.2 = rng ∧
    ∀ j, j < 256 / t.size → laneN t.size (laneLoop t.size p old rm rng g).1.toNat j =
      if laneOn t.size p j then (g j 0).1 % 2 ^ (8 * t.size) else laneN t.size old.toNat j)

/-- R225, integers: without SAT an active lane of VADD, VSUB or VMUL is the sum, difference or product of the lanes modulo
2^w, with SAT it is clamped to the lane's signed or unsigned range; an inactive lane keeps its value, and no flag is
raised. -/
def Obligations.IntegerLanes : Prop :=
  ∀ (h : Hdr) (t : VTy) (u sat : Bool) (f : Fp) (d a b : Fin 32) (pg : Fin 8) (s : State),
    Issues h s → OnCore s → VRegs [d, a, b] s → t.isFloat = false → f.rm ≠ .rsr →
    let x := fun j => laneInt u t.size (laneN t.size (vVal s a).toNat j)
    let y := fun j => laneInt u t.size (laneN t.size (vVal s b).toNat j)
    let clamp := fun (e : Int) => if sat then
        (if u then max 0 (min e (2 ^ (8 * t.size) - 1)) else max (-2 ^ (8 * t.size - 1)) (min e (2 ^ (8 * t.size - 1) - 1)))
      else e
    let gives := fun (i : Instr) (e : Nat → Int) => ∃ v : Vec, exec i s = .next (retire h (putT s (writeV (curT s) d v))) ∧
      ∀ j, j < lanesOf t.size → laneN t.size v.toNat j =
        if laneOn t.size (pVal s pg) j then (clamp (e j) % 2 ^ (8 * t.size)).toNat else laneN t.size (vVal s d).toNat j
    gives (.vadd h t u f sat d a (.v b) pg) (fun j => x j + y j) ∧
    gives (.vsub h t u f sat d a (.v b) pg) (fun j => x j - y j) ∧
    gives (.vmul h t u false f sat d a (.v b) pg) (fun j => x j * y j)

/-- The reduction of the active lanes of va (R230): integers exactly, wrapped to 64 bits; floats in lane order or by the
pairwise tree, a NaN made canonical (R202). -/
def Sys2Proof.Slice0.redVal (s : State) (t : VTy) (op : RedK) (ord : Bool) (f : Fp) (a : Fin 32) (pg : Fin 8) : RedAcc :=
  let all := List.range (lanesOf t.size)
  let on := all.filter fun j => laneOn t.size (pVal s pg) j
  let fx := fun j => (fmtOf t).flush f.fzi (lane s t a j)
  if t.isFloat = false then (wrapN 64 (redInt op (on.map fun j => laneInt false t.size (lane s t a j))), 0, (curT s).rng)
  else redNaN (fmtOf t) (if ord then redOrd (fmtOf t) op f (curT s).rng (on.map fx)
    else redTree (fmtOf t) op f (Nat.log2 (lanesOf t.size))
      (all.map fun j => if laneOn t.size (pVal s pg) j then some (fx j) else none) (0, (curT s).rng))

/-- The elements that VQNT takes of va and, past its lanes, of the register after it (R235). -/
def Sys2Proof.Slice0.qntElems (s : State) (t : VTy) (f : Fp) (a : Fin 32) (n : Nat) : List Machine.Num :=
  (List.range n).map fun k => (fmtOf t).value ((fmtOf t).flush f.fzi
    (if k < lanesOf t.size then lane s t a k else lane s t (a + 1) (k - lanesOf t.size)))

/-- R113, R217, R219, R224, R226, R227, R228, R230, R234, R235: VMIN and VMAX, comparison, selection, conversion,
quantisation, reduction, the predicate instructions, WHILE and VWIDTH; each writes its register as a fixed result, where it
rounds if its unit's shadow agrees (R214). A VQNT whose second source register is missing traps ILLOP. -/
def Obligations.VectorOthers : Prop :=
  (∀ (h : Hdr) (t : VTy) (u : Bool) (z : Fz) (d a : Fin 32) (b : VB) (pg : Fin 8) (s : State), Issues h s → OnCore s →
    VRegs (d :: a :: vbRegs b) s →
    exec (.vmin h t u z d a b pg) s = .next (lanes h t.size d pg .rne s fun j _ =>
      if t.isFloat then minmaxF (fmtOf t) z false (lane s t a j) (vbLane s t b j)
      else (if laneInt u t.size (lane s t a j) ≤ laneInt u t.size (vbLane s t b j) then lane s t a j
        else vbLane s t b j, 0)) ∧
    exec (.vmax h t u z d a b pg) s = .next (lanes h t.size d pg .rne s fun j _ =>
      if t.isFloat then minmaxF (fmtOf t) z true (lane s t a j) (vbLane s t b j)
      else (if laneInt u t.size (lane s t a j) ≤ laneInt u t.size (vbLane s t b j) then vbLane s t b j
        else lane s t a j, 0)) ∧
    exec (.vsel h t d pg a b) s = .next (resultV h d (ofLanes t.size ((List.range (lanesOf t.size)).map fun j =>
      if laneOn t.size (pVal s pg) j then lane s t a j else vbLane s t b j), 0, (curT s).rng) s)) ∧
  (∀ (h : Hdr) (t : VTy) (cd : Cond) (z : Fz) (pd : Fin 8) (a : Fin 32) (b : VB) (pg : Fin 8) (s : State), Issues h s →
    OnCore s → VRegs (a :: vbRegs b) s →
    exec (.vcmp h t cd z pd a b pg) s = .next (resultP h pd
      (predOf t.size fun j => laneOn t.size (pVal s pg) j && (condVal t cd z.fzi (lane s t a j) (vbLane s t b j)).1)
      ((List.range (lanesOf t.size)).foldl (fun fl j => if laneOn t.size (pVal s pg) j then
        fl ||| (condVal t cd z.fzi (lane s t a j) (vbLane s t b j)).2 else fl) 0) s)) ∧
  (∀ (h : Hdr) (t s2 : VTy) (f : Fp) (sat : Bool) (d a : Fin 32) (part : Fin 4) (pg : Fin 8) (s : State), Issues h s →
    OnCore s → VRegs [d, a] s → Agrees s (rounding s t.isFloat (max t.size s2.size) pg) →
    exec (.vcvt h t s2 f sat d a part pg) s =
      .next (resultV h d (cvtLoop t s2 f sat part.val (pVal s pg) (vVal s d) (vVal s a) (curT s).rng) s)) ∧
  (∀ (h : Hdr) (fm : BFmt) (t : VTy) (f : Fp) (sat : Bool) (d a : Fin 32) (blk : Fin 4) (x : GI) (s : State),
    Issues h s → OnCore s → VRegs [d, a] s →
    let n := min (giVal s x).toNat (fmtCount (blockCode fm))
    let q := quantise fm f sat (qntElems s t f a n) (curT s).rng
    (n ≤ lanesOf t.size ∨ (a.val ≠ 31 ∧ a.val + 1 < (slotAt s s.cur).vregs) →
      Agrees s (fun j => fm != .shp8 && fm != .int8 && decide (j < n)) →
      exec (.vqnt h fm t f sat d a blk x) s = .next (resultV h d
        (ofLanes 64 ((List.range 4).map fun k => if k = blk.val then q.1 else laneN 64 (vVal s d).toNat k),
          q.2.1, q.2.2) s)) ∧
    (lanesOf t.size < n → a.val = 31 ∨ (slotAt s s.cur).vregs ≤ a.val + 1 →
      exec (.vqnt h fm t f sat d a blk x) s =
        .next (trapHere s 0x01 (tvalOf (.vqnt h fm t f sat d a blk x))))) ∧
  (∀ (h : Hdr) (t : VTy) (op : RedK) (ord : Bool) (f : Fp) (g : Fin 16) (d a : Fin 32) (pg : Fin 8) (s : State),
    Issues h s → OnCore s → Agrees s (fun j => t.isFloat && op == .add &&
      decide (j + 1 < ((List.range (lanesOf t.size)).filter fun k => laneOn t.size (pVal s pg) k).length)) →
    (VRegs [a] s → exec (.vred h t op ord f (.g g) a pg) s = .next (retire h (putT s
      { writeG (raiseFlags (curT s) (redVal s t op ord f a pg).2.1) g (BitVec.ofNat 64 (redVal s t op ord f a pg).1) with
        rng := (redVal s t op ord f a pg).2.2 }))) ∧
    (VRegs [d, a] s → exec (.vred h t op ord f (.v d) a pg) s = .next (resultV h d
      (ofLanes t.size ((List.range (lanesOf t.size)).map fun j =>
        if j = 0 then (redVal s t op ord f a pg).1 else lane s t d j),
        (redVal s t op ord f a pg).2.1, (redVal s t op ord f a pg).2.2) s))) ∧
  (∀ (h : Hdr) (w : Fin 4) (cd : Cond) (pd : Fin 8) (g : Fin 16) (c : Fin 32) (x y : GI) (s : State), Issues h s →
    OnCore s →
    exec (.vwidth h w g) s = .next (retire h (setG s g (BitVec.ofNat 64 (256 / 2 ^ w.val)))) ∧
    exec (.whileP h w cd pd c x y) s = .next (retire h (putT s (writeC
      (writeP (curT s) pd (predOf (2 ^ w.val) fun j => relInt cd.rel (int cd.var (giVal s x) + j) (int cd.var (giVal s y))))
      c ((List.range (lanesOf (2 ^ w.val))).any fun j =>
        relInt cd.rel (int cd.var (giVal s x) + j) (int cd.var (giVal s y))))))) ∧
  (∀ (h : Hdr) (t : VTy) (first : Bool) (lk : LogK) (g : Fin 16) (c : Fin 32) (pd pa pb pg : Fin 8) (s : State),
    Issues h s → OnCore s →
    let both := (List.range (lanesOf t.size)).filter fun j => laneOn t.size (pVal s pa) j && laneOn t.size (pVal s pg) j
    exec (.plog h t lk pd pa pb pg) s = .next (resultP h pd (predOf t.size fun j => laneOn t.size (pVal s pg) j &&
      (match lk with
        | .and => laneOn t.size (pVal s pa) j && laneOn t.size (pVal s pb) j
        | .or => laneOn t.size (pVal s pa) j || laneOn t.size (pVal s pb) j
        | .xor => laneOn t.size (pVal s pa) j != laneOn t.size (pVal s pb) j
        | .andn => laneOn t.size (pVal s pa) j && !laneOn t.size (pVal s pb) j)) 0 s) ∧
    exec (.plogNot h t pd pa pg) s = .next (resultP h pd (predOf t.size fun j =>
      laneOn t.size (pVal s pg) j && !laneOn t.size (pVal s pa) j) 0 s) ∧
    exec (.plogCount h t first g pa pg) s = .next (retire h (setG s g (BitVec.ofNat 64
      (if first then both.head?.getD (lanesOf t.size) else both.length)))) ∧
    exec (.plogAny h t c pa pg) s = .next (retire h (setC s c (both != []))))

/-- R217, R219: the frame of completing with a vector result without a switch marker: its register, the flags, the
generator, the pc and the run are all that changes; completing with a vector predicate changes that predicate, p0 taking
no write. -/
def Obligations.VectorResultFrame : Prop :=
  ∀ (h : Hdr) (d : Fin 32) (q : Fin 8) (x : Vec) (v : VPred) (fl : Flags) (g : W32) (s : State), h.sw = false →
    (let t := curT (resultV h d (x, fl, g) s)
     RestSame s (resultV h d (x, fl, g) s) ∧ t.v = (curT s).v.set d x ∧ t.g = (curT s).g ∧ t.pw = (curT s).pw ∧
     t.p = (curT s).p ∧ t.fxf = (curT s).fxf ||| fl ∧ t.rng = g ∧ t.pc = nextPc (curT s).pc ∧ t.buf = (curT s).buf ∧
     t.cause = (curT s).cause ∧ t.epc = (curT s).epc ∧ t.fxe = (curT s).fxe ∧ t.seed = (curT s).seed ∧
     t.evt = (curT s).evt) ∧
    (let t := curT (resultP h q v fl s)
     RestSame s (resultP h q v fl s) ∧ t.p = (if q = 0 then (curT s).p else (curT s).p.set q v) ∧ t.g = (curT s).g ∧
     t.pw = (curT s).pw ∧ t.v = (curT s).v ∧ t.fxf = (curT s).fxf ||| fl ∧ t.rng = (curT s).rng ∧
     t.pc = nextPc (curT s).pc ∧ t.buf = (curT s).buf ∧ t.cause = (curT s).cause ∧ t.epc = (curT s).epc)

/-- The instructions that round active lanes of vD, each with its header, its register, its lanes' size and predicate, and
the vector registers it names (R214). -/
def Sys2Proof.Slice0.rounds : Instr → Option (Hdr × Nat × Fin 32 × Fin 8 × List (Fin 32))
  | .vadd h t _ _ _ d a b pg => if t.isFloat then some (h, t.size, d, pg, d :: a :: vbRegs b) else none
  | .vsub h t _ _ _ d a b pg => if t.isFloat then some (h, t.size, d, pg, d :: a :: vbRegs b) else none
  | .vmul h t _ _ _ _ d a b pg => if t.isFloat then some (h, t.size, d, pg, d :: a :: vbRegs b) else none
  | .vfma h t _ _ _ _ d a b c pg => if t.isFloat then some (h, t.size, d, pg, d :: a :: (vbRegs b ++ vbRegs c)) else none
  | .vdqn h t _ d a _ _ pg => some (h, t.size, d, pg, [d, a])
  | .vsfu h t _ _ d a pg => some (h, t.size, d, pg, [d, a])
  | .vdiv h t _ d a b pg => some (h, t.size, d, pg, d :: a :: vbRegs b)
  | .vdivSqrt h t _ d a pg => some (h, t.size, d, pg, [d, a])
  | .vdot h k _ _ d a b pg => if k = .i8 then none else some (h, 4, d, pg, [d, a, b])
  | _ => none

/-- R214, R217, R349: an error that strikes an active lane of VADD, VSUB, VMUL or VFMA on floats, VDQN, VSFU, VDIV,
VDIV.SQRT or a floating VDOT. Where the shadow's comparison catches it (class, sign, exponent, or more than 1 in the 8-bit
fraction), no result is written: the disagreement is noted with the instruction's pc and what follows in the run is
suppressed. Where it does not, without a switch marker, the instruction completes and only that lane is a free value (log
17). Of a zero or an infinity the sign and the exponent are not compared. -/
def Obligations.ShadowDisagreement : Prop :=
  ∀ (i : Instr) (h : Hdr) (z : Nat) (d : Fin 32) (pg : Fin 8) (rs : List (Fin 32)) (s : State) (u : Upset),
    rounds i = some (h, z, d, pg, rs) → Issues h s → OnCore s → VRegs rs s →
    (s.corrupt.find? fun u => u.unit == (0, coreOf s.cur) && rounding s true z pg u.nth) = some u →
    (u.cls = true ∨ (u.fin = true ∧ (u.sign = true ∨ u.exp ≠ 0)) ∨ 1 < u.frac.natAbs →
      exec i s = .next (retire h (putT { s with corrupt := s.corrupt.erase u } { curT s with
        run := { runAt (curT s) with sdc := some ((curT s).pc, (runAt (curT s)).closer) } }))) ∧
    (u.cls = false → u.fin = false ∨ (u.sign = false ∧ u.exp = 0) → u.frac.natAbs ≤ 1 → h.sw = false →
      ∃ s1 t, exec i { s with corrupt := [] } = .next s1 ∧ exec i s = .next t ∧
        t.corrupt = s.corrupt.erase u ∧ (curT t).fxf = (curT s1).fxf ∧ (curT t).rng = (curT s1).rng ∧
        (curT t).pc = (curT s1).pc ∧ (∀ r : Fin 32, r ≠ d → (curT t).v[r] = (curT s1).v[r]) ∧
        ∀ j, j < lanesOf z → j ≠ u.nth → laneN z (curT t).v[d].toNat j = laneN z (curT s1).v[d].toNat j)

/-- R232, R233: VLD and VGATH read the active lanes' bytes once every lane's checks pass, or enter the port behind a FENCE
that holds them (R162), and VST and VSCAT put the active lanes into the store buffer sector by sector or lane by lane; the
lowest failing lane's trap is taken with nothing read or stored.
The model's choices it rests on: log 8 (the steps are taken at issue), log 33 (what waits behind a FENCE) and log 49 (the
address that decides .MIG). -/
def Obligations.VectorMemory : Prop :=
  (∀ (h : Hdr) (w : Fin 4) (mig : Bool) (ch : CH) (d : Fin 32) (b : Fin 16) (pg : Fin 8) (disp : BitVec 24) (s : State),
    Issues h s → OnCore s → VRegs [d] s →
    let z := 2 ^ w.val
    let js := activeLanes z (pVal s pg)
    let a := effAddr s b none 0 disp
    let vas := js.map fun j => (a + z * j) % 2 ^ 64
    ((mig && js != []) = true → migTarget s a = none) →
    (∀ locs, HasRoom s → lanesAccess s z false vas = .ok locs → locs.any (heldShare s) = false → InOrder s true →
      exec (.vld h w mig ch d b pg disp) s = .next (vecRead h z d js vas locs true s)) ∧
    (∀ va c v, HasRoom s → lanesAccess s z false vas = .error (va, .trap c v) →
      exec (.vld h w mig ch d b pg disp) s = .next (trapHere s c v)) ∧
    (∀ locs, lanesAccess s z true vas = .ok locs → locs.any (heldShare s) = false → InOrder s false →
      exec (.vst h w mig ch d b pg disp) s =
        .next (issueWrites h (sectorWrites (laneCells z (vVal s d).toNat js vas locs).flatten) s)) ∧
    (∀ va c v, lanesAccess s z true vas = .error (va, .trap c v) →
      exec (.vst h w mig ch d b pg disp) s = .next (trapHere s c v))) ∧
  (∀ (h : Hdr) (w x : Fin 4) (ch : CH) (d ix : Fin 32) (b : Fin 16) (pg : Fin 8) (s : State), Issues h s → OnCore s →
    VRegs [d, ix] s →
    let z := 2 ^ w.val
    let js := activeLanes z (pVal s pg)
    let vas := js.map fun j => ((gVal s b).toNat + laneN z (vVal s ix).toNat j * 2 ^ x.val) % 2 ^ 64
    (∀ locs, HasRoom s → lanesAccess s z false vas = .ok locs → locs.any (heldShare s) = false → InOrder s true →
      exec (.vgath h w x ch d b ix pg) s = .next (vecRead h z d js vas locs false s)) ∧
    (∀ va c v, HasRoom s → lanesAccess s z false vas = .error (va, .trap c v) →
      exec (.vgath h w x ch d b ix pg) s = .next (trapHere s c v)) ∧
    (∀ locs, lanesAccess s z true vas = .ok locs → locs.any (heldShare s) = false → InOrder s false →
      exec (.vscat h w x ch d b ix pg) s =
        .next (issueWrites h ((laneCells z (vVal s d).toNat js vas locs).filterMap fun c => match c with
          | [] => none
          | e :: r => some (e.1, (e :: r).map (·.2))) s)) ∧
    (∀ va c v, lanesAccess s z true vas = .error (va, .trap c v) →
      exec (.vscat h w x ch d b ix pg) s = .next (trapHere s c v)))

/-- R221, R231: VSPLAT, VMOVS.X and VMOVS.I with a scalar register or an immediate; a link source of VSPLAT or VMOVS.I is
read from its queue, once there, and an absent link traps; VMOVS.X to a link sends the element to the neighbour whose queue
has room and else holds the thread. -/
def Obligations.VectorMoves : Prop :=
  (∀ (h : Hdr) (t : VTy) (d : Fin 32) (ix : GI) (pg : Fin 8) (l : LSrc) (s : State), Issues h s → OnCore s → VRegs [d] s →
    (∀ x, (∃ r, l = .g r ∧ x = (gVal s r).toNat % 2 ^ (8 * t.size)) ∨ (∃ v, l = .im v ∧ x = immLane t v) →
      exec (.vsplat h t d l pg) s = .next (lanes h t.size d pg .rne s fun _ _ => (x, 0)) ∧
      exec (.vmovsI h t d l ix) s = .next (resultV h d (mergeLanes t.size (predOf t.size fun j => j == (giVal s ix).toNat)
        (vVal s d) (fun _ => x), 0, (curT s).rng) s)) ∧
    (l = .le ∨ l = .lw ∨ l = .lwf →
      let put := fun (mask : VPred) =>
        let r := resultWait [.v d] (.link (l == .le) (l == .lwf) t.size mask) s
        retire h (serveLink 4 64 (curT s).ctx (curT s).lcore (l == .le) r.2)
      let absent := fun e => linkEnd s (curT s).ctx (coreOf s.cur) e = none
      (HasRoom s → ¬ absent (l == .le) → (l = .lwf → ¬ absent true) →
        exec (.vsplat h t d l pg) s = .next (put (pVal s pg)) ∧
        exec (.vmovsI h t d l ix) s = .next (put (predOf t.size fun j => j == (giVal s ix).toNat))) ∧
      (absent (l == .le) →
        let tr := linkTrap s (l == .le) (if l = .lwf then 18 else if l = .le then 17 else 16)
        exec (.vsplat h t d l pg) s = .next (trapHere s tr.1 tr.2) ∧
        exec (.vmovsI h t d l ix) s = .next (trapHere s tr.1 tr.2)))) ∧
  (∀ (h : Hdr) (t : VTy) (a : Fin 32) (ix : GI) (r : Fin 16) (s : State), Issues h s → OnCore s → VRegs [a] s →
    let k := (giVal s ix).toNat
    let x : Word := if 256 / t.size ≤ k then 0 else if t.isFloat then BitVec.ofNat 64 (lane s t a k)
      else BitVec.ofInt 64 (signedN (8 * t.size) (lane s t a k))
    exec (.vmovsX h t (.g r) a ix) s = .next (retire h (setG s r x)) ∧
    (∀ (e : Bool) (n : Nat), linkEnd s (curT s).ctx (coreOf s.cur) e = some n →
      (linkRoom s (curT s).ctx n (!e) = true →
        exec (.vmovsX h t (if e then .le else .lw) a ix) s =
          .next (retire h (sendLink s (curT s).ctx (coreOf s.cur) n e x))) ∧
      (linkRoom s (curT s).ctx n (!e) = false →
        exec (.vmovsX h t (if e then .le else .lw) a ix) s = .next (retry s))) ∧
    (∀ e : Bool, linkEnd s (curT s).ctx (coreOf s.cur) e = none →
      let tr := linkTrap s e (if e then 17 else 16)
      exec (.vmovsX h t (if e then .le else .lw) a ix) s = .next (trapHere s tr.1 tr.2)))

/-! ### Tiles, engine and jobs -/

namespace Sys2Proof.Slice0

/-- The cluster's engine is in service (R255). -/
abbrev Engine (s : State) : Prop := inService s.cmap clsEngine (coreOf s.cur / 8) = true

/-- The queue and the core context's jobs in flight have room, and the order of the thread's steps is met (R252). -/
abbrev QueueRoom (q : Nat) (s : State) : Prop :=
  (queueAt s q).ents.length < 64 ∧ inFlight s (curT s).ctx (curT s).lcore < 32 ∧ unitRetiring s q = false ∧
    InOrder s false ∧ StoresFree s

/-- Every check of a tile's rows passes (R243): tile x, the locations of its rows. -/
abbrev Rows (s : State) (tl b : Fin 16) (st : Option (Fin 16)) (disp : BitVec 24) (x : Tile) (locs : List Nat) : Prop :=
  Engine s ∧ tl.val < tileShare s ∧ x = tileAt s (tileKey s tl.val) ∧ shRowB x.shape ≠ 0 ∧
    rowLocs s (effAddr s b none 0 disp) ((st.map fun r => (gVal s r).toInt).getD (shRowB x.shape)) (shRowB x.shape)
      (shRows x.shape) = .ok locs ∧
    effAddr s b none 0 disp % shSize x.shape = 0 ∧
    ((st.map fun r => (gVal s r).toInt).getD (shRowB x.shape)) % (shSize x.shape : Int) = 0 ∧
    locs.any (heldShare s) = false

/-- A pair of tiles and an accumulator bank lie within the share, and neither tile is filling (R238, R241). -/
abbrev Pair (s : State) (ta tb : Fin 16) : Prop :=
  Engine s ∧ tileShare s ≠ 0 ∧ ta.val < tileShare s ∧ tb.val < tileShare s ∧
    (tileAt s (tileKey s ta.val)).st ≠ .filling ∧ (tileAt s (tileKey s tb.val)).st ≠ .filling

/-- The first static check that a pair of tiles fails (R240, R261): none, or the reason and the tile of TILEERR. -/
abbrev pairFails (s : State) (ta tb : Fin 16) (bt : Bool) : Option (Nat × Nat) :=
  pairError (tileAt s (tileKey s ta.val)) (tileAt s (tileKey s tb.val)) ta.val tb.val bt

/-- A poll of a job has answered (R254): its predicate and, if named, its register. -/
abbrev polled (h : Hdr) (c : Fin 32) (gt : Option (Fin 16)) (b : Bool) (x : Word) (s : State) : State :=
  retire h (match gt with
    | some g => setG (setC s c b) g x
    | none => setC s c b)

end Sys2Proof.Slice0

/-- R239, R241, R243 to R245: TSHAPE gives an idle tile its shape and empties it, and a shape that no tile has traps
TILEERR 1; TLD closes the region, reads the rows as the thread sees them and fills the tile; TST reads the tile's data and
appends its rows one a clock from the fourth; an empty tile traps TILEERR 2, a tile beyond the share TILEERR 6.
The model's choices it rests on: log 8. -/
def Obligations.TileMoves : Prop :=
  (∀ (h : Hdr) (tl : Fin 16) (v : GI) (s : State), Issues h s → OnCore s → Engine s →
    (tl.val < tileShare s → tileIdle (tileAt s (tileKey s tl.val)) = true → shapeOk (giVal s v) = true →
      exec (.tshape h tl v) s = .next (retire h (setTile s (tileKey s tl.val)
        { tileAt s (tileKey s tl.val) with shape := (giVal s v).setWidth 32, st := .empty, data := [] }))) ∧
    (tl.val < tileShare s → tileIdle (tileAt s (tileKey s tl.val)) = true → shapeOk (giVal s v) = false →
      exec (.tshape h tl v) s = .next (tileErr s 1 tl.val)) ∧
    (tileShare s ≤ tl.val → exec (.tshape h tl v) s = .next (tileErr s 6 tl.val))) ∧
  (∀ (h : Hdr) (tl b : Fin 16) (st : Option (Fin 16)) (disp : BitVec 24) (s : State) (x : Tile) (locs : List Nat),
    Issues h s → OnCore s → Rows s tl b st disp x locs →
    (InOrder s true → StoresFree s → tileIdle x = true →
      exec (.tld h tl b st disp) s = .next (
        let bytes := locs.flatMap fun r => locsFrom r (shRowB x.shape)
        let s1 := drainCovering (closeCur s) s.cur bytes
        let r := readThreadMany s1 0 (curT s1) (sectors bytes)
        let n := newId (putT s1 { curT s1 with view := r.2 })
        let s2 := setTile (countCorrected n.2 bytes) (tileKey s tl.val) { x with st := .filling, data := r.1, load := n.1 }
        retire h (later s2 (3 + locs.length + tileFar s locs) (.tileLoadComplete (tileKey s tl.val) n.1)))) ∧
    (HasRoom s → InOrder s false → StoresFree s → (∃ r, x.st = .ready r) →
      exec (.tst h tl b st disp) s = .next (
        let w := shRowB x.shape
        let s1 := drainCovering (closeCur s) s.cur (locs.flatMap fun r => locsFrom r w)
        let n := newId s1
        let r := resultWait [] (.tst n.1) n.2
        let o : TileOp :=
          { ctx := (curT s).ctx, tk := s.cur, rid := r.1, tile := tileKey s tl.val, view := {}
            fin := s.clock + 3 + locs.length + tileFar s locs
            rows := (List.range locs.length).map fun i =>
              (s.clock + 3 + i + tileFar s locs, (locsFrom (locs.getD i 0) w).zip ((x.data.drop (i * w)).take w))
            covers := locs, rowb := w }
        retire h (later (addReader { r.2 with tileOps := mset r.2.tileOps n.1 o } (tileKey s tl.val))
          (3 + tileFar s locs) (.tileStoreComplete (tileKey s tl.val) n.1)))) ∧
    (HasRoom s → x.st = .empty → exec (.tst h tl b st disp) s = .next (tileErr s 2 tl.val)))

/-- R240, R249, R251, R252, R260: MMA, MMA.A, MMAG and ACCF enter the cluster's qm as jobs; those of tiles read them; with
an id register the id is a fixed result, without one the thread waits. A pair of tiles that fails a static check traps
TILEERR with its reason; an index list off the cluster traps PROT and one not 8-aligned ALIGN; a row of ACCF whose place
does not exist traps PROT.
The model's choices it rests on: log 29 (the order of the static checks). -/
def Obligations.EngineJobs : Prop :=
  (∀ (h : Hdr) (bt r64 c64 set : Bool) (fz : Fz) (j ta tb : Fin 16) (ac : Fin 4) (s : State), Issues h s → OnCore s →
    Pair s ta tb →
    (pairFails s ta tb bt = none → QueueRoom (qmOf s) s →
      let kind := JobKind.mma ac.val (tileKey s ta.val) (tileKey s tb.val) bt r64 c64 set fz.fzi fz.fzo none
      exec (.mmaA h bt r64 c64 set fz j ac ta tb) s =
        .next (enqueueId h (qmOf s) kind false j (readPair ta tb s)) ∧
      (HasRoom s → exec (.mma h bt r64 c64 set fz ac ta tb) s =
        .next (enqueueSync h (qmOf s) kind false (readPair ta tb s)))) ∧
    (∀ r tl, pairFails s ta tb bt = some (r, tl) →
      exec (.mmaA h bt r64 c64 set fz j ac ta tb) s = .next (tileErr s r tl) ∧
      (HasRoom s → exec (.mma h bt r64 c64 set fz ac ta tb) s = .next (tileErr s r tl)))) ∧
  (∀ (h : Hdr) (bt c64 set : Bool) (fz : Fz) (j ta tb l : Fin 16) (ac : Fin 4) (s : State), Issues h s → OnCore s →
    Pair s ta tb → pairFails s ta tb bt = none →
    (∀ loc, clusterLoc s (gVal s l).toNat 128 = .ok loc → (gVal s l).toNat % 8 = 0 → QueueRoom (qmOf s) s →
      let kind := JobKind.mma ac.val (tileKey s ta.val) (tileKey s tb.val) bt false c64 set fz.fzi fz.fzo (some loc)
      exec (.mmag h bt c64 set fz (some j) ac ta tb l) s =
        .next (enqueueId h (qmOf s) kind false j (readPair ta tb s)) ∧
      (HasRoom s → exec (.mmag h bt c64 set fz none ac ta tb l) s =
        .next (enqueueSync h (qmOf s) kind false (readPair ta tb s)))) ∧
    (∀ e, clusterLoc s (gVal s l).toNat 128 = .error e →
      exec (.mmag h bt c64 set fz (some j) ac ta tb l) s = .next (trapHere s 0x06 (BitVec.ofNat 64 e))) ∧
    (∀ loc, clusterLoc s (gVal s l).toNat 128 = .ok loc → (gVal s l).toNat % 8 ≠ 0 →
      exec (.mmag h bt c64 set fz (some j) ac ta tb l) s =
        .next (trapHere s 0x05 (BitVec.ofNat 64 (gVal s l).toNat)))) ∧
  (∀ (h : Hdr) (z c nf sat : Bool) (f : Fp) (j : Fin 16) (ac : Fin 4) (s : State), Issues h s → OnCore s → Engine s →
    tileShare s ≠ 0 →
    let m := (clusterAt s (coreOf s.cur / 8)).rowmap
    let kind := JobKind.accf ac.val z c nf f.fzo f.rm sat m
    (rowError s (curT s).ctx (coreOf s.cur / 8) m (if c then 128 else 256) = none → QueueRoom (qmOf s) s →
      exec (.accf h z c nf f sat (some j) ac) s = .next (enqueueId h (qmOf s) kind (f.rm == .rsr && c) j s) ∧
      (HasRoom s → exec (.accf h z c nf f sat none ac) s =
        .next (enqueueSync h (qmOf s) kind (f.rm == .rsr && c) s))) ∧
    (∀ off, rowError s (curT s).ctx (coreOf s.cur / 8) m (if c then 128 else 256) = some off →
      exec (.accf h z c nf f sat (some j) ac) s = .next (trapHere s 0x06 (BitVec.ofNat 64 off)) ∧
      (HasRoom s → exec (.accf h z c nf f sat none ac) s = .next (trapHere s 0x06 (BitVec.ofNat 64 off)))))

/-- R239, R257 to R259, R391, R392: TMAP reads the 96-byte image into ROWMAP, whose core entries keep bits 62 to 54 clear,
and TMAP.R stores ROWMAP's image; COPY enters its queue with its rows, lengths and strides, and COLL the package's queue; an
address that their checks refuse traps PROT.
The model's choices it rests on: log 8 (TMAP reads at issue), log 33 (TMAP behind a FENCE) and log 41 (the job id of a COLL of
a service core). -/
def Obligations.MapsAndCopies : Prop :=
  (∀ (h : Hdr) (a : Fin 16) (s : State) (locs : List Nat), Issues h s → OnCore s → Engine s → tileShare s ≠ 0 →
    let cl := coreOf s.cur / 8
    let vas := (List.range 12).map fun k => ((gVal s a).toNat + 8 * k) % 2 ^ 64
    let all := locs.flatMap fun x => locsFrom x 8
    (lanesAccess s 8 false vas = .ok locs → locs.any (heldShare s) = false → InOrder s true →
      (all.any (portHeld s) = true → exec (.tmap h a) s = .next (retry s)) ∧
      (all.any (portHeld s) = false → readsPoison s (curT s) all = false → exec (.tmap h a) s = .next (
        let s1 := countCorrected (closeCur s) all
        let r := readThreadMany s1 0 (curT s1) (sectors all)
        let m := memDelay (setCluster (putT s1 { curT s1 with view := r.2 }) cl
          { clusterAt s1 cl with rowmap := rowmapOf (ofBytesLE r.1) })
        holdFor m.1 (retire h m.2))) ∧
      (all.any (portHeld s) = false → readsPoison s (curT s) all = true → exec (.tmap h a) s =
        .next (later (putT s { curT s with block := .device }) 0 (.uncorrectableConsumed s.cur (gVal s a).toNat 0)))) ∧
    (lanesAccess s 8 true vas = .ok locs → locs.any (heldShare s) = false → InOrder s false →
      exec (.tmapR h a) s = .next (
        let img := bytesLE 96 (clusterAt s cl).rowmap.toNat
        let cells := ((vas.zip locs).zip (List.range 12)).map fun e =>
          (List.range 8).map fun k => ((e.1.1 + k) / 32, e.1.2 + k, img.getD (8 * e.2 + k) 0)
        issueWrites h (sectorWrites cells.flatten) (closeCur s)))) ∧
  (∀ (x c i : Nat), c < 8 → i < 9 → (rowmapOf x).getLsbD (256 + 64 * c + 54 + i) = false) ∧
  (∀ (h : Hdr) (j dst src : Fin 16) (q : Fin 4) (ch : CH) (x : GI) (d2 : Bool) (s : State), Issues h s → OnCore s →
    inService s.cmap clsCopy (coreOf s.cur / 8) = true →
    let qk := queueKey (coreOf s.cur / 8) (1 + q.val)
    let rows := if d2 then bitsOf (giVal s x) 47 32 + 1 else 1
    let st := if d2 then gVal s (regAfter x 1) else 0
    let job := JobKind.copy (gVal s dst).toNat (gVal s src).toNat rows (bitsOf (giVal s x) 31 0) (strideOf st true)
      (strideOf st false)
    let bad := copyEdges s (gVal s dst).toNat (gVal s src).toNat rows (bitsOf (giVal s x) 31 0) (strideOf st true)
      (strideOf st false)
    (∀ va wb, bad = some va →
      exec (.copy h d2 wb ch j q dst src x) s = .next (trapHere s 0x06 (BitVec.ofNat 64 va))) ∧
    (bad = none → QueueRoom qk s →
      exec (.copy h d2 false ch j q dst src x) s = .next (enqueueId h qk (job none) false j s) ∧
      (∀ loc, let va := (gVal s (regAfter x (if d2 then 2 else 1))).toNat
        windowOf va = .local_ ∨ windowOf va = .global → Reaches s va 8 8 false loc → InOrder s true →
        exec (.copy h d2 true ch j q dst src x) s = .next (enqueueId h qk (job (some loc)) false j s)))) ∧
  (∀ (h : Hdr) (j dst src n mk : Fin 16) (s : State), Issues h s →
    let job := fun form => JobKind.coll form (gVal s dst).toNat (gVal s src).toNat (gVal s n) (gVal s mk) none
    let bad := fun form => collTrap s form (gVal s dst).toNat (gVal s src).toNat (gVal s n) (gVal s mk)
    (bad 0 = none → QueueRoom qclKey s →
      exec (.collAr h j dst src n mk) s = .next (enqueueId h qclKey (job 0) false j s)) ∧
    (bad 1 = none → QueueRoom qclKey s →
      exec (.collBc h j dst src n mk) s = .next (enqueueId h qclKey (job 1) false j s)) ∧
    (bad 2 = none → QueueRoom qclKey s →
      exec (.collAg h j dst src n mk) s = .next (enqueueId h qclKey (job 2) false j s)) ∧
    (∀ x, bad 0 = some x → exec (.collAr h j dst src n mk) s = .next (trapHere s 0x06 x)) ∧
    (∀ x, bad 1 = some x → exec (.collBc h j dst src n mk) s = .next (trapHere s 0x06 x)) ∧
    (∀ x, bad 2 = some x → exec (.collAg h j dst src n mk) s = .next (trapHere s 0x06 x)))

/-- R254, R257: JWAIT on a completed or an unknown job returns its status at once, and on one in flight waits for it;
JWAIT.P answers whether the job is complete, with its status, as a fixed result. R153, R177: QFENCE passes at once where
nothing is ahead in the queues it names, and else puts one marker in each.
The model's choices it rests on: log 8, log 41 (JWAIT on a completed job reports JOB), and log 47 (a marker takes one of a
queue's 64 entries). -/
def Obligations.JobWaits : Prop :=
  (∀ (h : Hdr) (j : GI) (gt : Option (Fin 16)) (c : Fin 32) (s : State) (r : JobRec), Issues h s → OnCore s →
    (giVal s j).toNat % 65536 ≠ 0 →
    jobRec s (curT s).ctx (curT s).lcore ((giVal s j).toNat % 65536) = some r →
    (HasRoom s → isPending r.status = true →
      exec (.jwait h j gt) s = .next (retire h
        (resultWait (jwaitDst gt) (.job (curT s).lcore ((giVal s j).toNat % 65536) gt) s).2)) ∧
    (HasRoom s → isPending r.status = false →
      exec (.jwait h j gt) s = .next (
        let w := resultWait (jwaitDst gt) .none s
        let t := modRes (latchEvt w.2.clock (curT w.2) evJOB) w.1 fun x =>
          { x with vals := valsOf (jwaitDst gt) r.status true, join := some r.view, evt := evJOB }
        retire h (later (putT w.2 t) 2 (.resultReturn w.2.cur w.1)))) ∧
    (isPending r.status = true → exec (.jwaitP h c j gt) s = .next (polled h c gt false r.status s)) ∧
    (isPending r.status = false → exec (.jwaitP h c j gt) s =
      .next (polled h c gt true r.status (putT s { curT s with view := (curT s).view.join r.view })))) ∧
  (∀ (h : Hdr) (j : GI) (gt : Option (Fin 16)) (c : Fin 32) (s : State), Issues h s → OnCore s →
    (giVal s j).toNat % 65536 = 0 ∨
      jobRec s (curT s).ctx (curT s).lcore ((giVal s j).toNat % 65536) = none →
    (HasRoom s → exec (.jwait h j gt) s = .next (resultIn h 2 (valsOf (jwaitDst gt) 0 true) s)) ∧
    exec (.jwaitP h c j gt) s = .next (polled h c gt true 0 s)) ∧
  (∀ (h : Hdr) (m : GI) (s : State), Issues h s → InOrder s false →
    let qs := fenceQueues (coreOf s.cur) (giVal s m).toNat
    (qs.all (fun q => (queueAt s q).ents.isEmpty) = true →
      exec (.qfence h m) s = .next (retire h (passMark s qs))) ∧
    (qs.all (fun q => decide ((queueAt s q).ents.length < 64)) = true →
      qs.all (fun q => (queueAt s q).ents.isEmpty) = false →
      exec (.qfence h m) s = .next (
        let n := newId s
        retire h (pumpQueues (qs.foldl (fun s q =>
          setQueue s q { queueAt s q with ents := (queueAt s q).ents ++ [.mark n.1 qs] }) n.2)))) ∧
    (qs.any (fun q => decide (64 ≤ (queueAt s q).ents.length)) = true → exec (.qfence h m) s = .next (retry s)))

/-! ### Tracks -/

namespace Sys2Proof.Slice0

/-- The track operand names tracks of the thread's own logical core (R264, R278): the physical tracks. -/
abbrev Tracks (s : State) (l : Option (Fin 16)) (k : KK) (ks : List Nat) : Prop :=
  (match l with
    | none => true
    | some r => (namedCore s (gVal s r)).isSome && (gVal s r).toNat == (curT s).lcore) = true ∧
  ((vtracks k).any fun v => decide ((curCC s).tmap.length ≤ v)) = false ∧
  ks = (vtracks k).map fun v => 64 * (curCC s).phys + (curCC s).tmap.getD v 0

/-- The context holds the lease of every track, past what is queued on it, and is owed none (R269, R271, R284). -/
abbrev Leased (s : State) (ks : List Nat) : Prop :=
  (ks.all fun k => leaseAfter s (curT s).ctx k == some true && !owedAfter s (curT s).ctx k) = true

/-- The track instructions: header, track operand, logical core, the vector registers named, and whether a lease is
needed. -/
def trackForm : Instr → Option (Hdr × KK × Option (Fin 16) × List (Fin 32) × Bool)
  | .holdW h k l => some (h, k, l, [], false)
  | .holdT h _ k l => some (h, k, l, [], false)
  | .hrel h k l => some (h, k, l, [], false)
  | .hpos h _ k l => some (h, .k k, l, [], false)
  | .seek h _ k _ l _ => some (h, k, l, [], true)
  | .rwnd h _ k l => some (h, k, l, [], true)
  | .rds h _ _ k l => some (h, .k k, l, [], true)
  | .wrs h k _ l => some (h, .k k, l, [], true)
  | .vrds h d k l => some (h, .kg k, l, [d], true)
  | .vwrs h k d _ => some (h, .kg k, none, [d], true)
  | _ => none

/-- What the track instructions that need a lease do on their tracks: the tracks and the operation of each access. -/
def trackOps (s : State) (ks : List Nat) : Instr → List (List Nat × TrkOp)
  | .seek _ dir _ a _ disp => seekOps ((match a with
      | some r => gVal s r
      | none => 0) + disp.signExtend 64).toNat (match dir with
      | .keep => none
      | .fwd => some false
      | .rev => some true) ks
  | .rwnd _ e _ _ => seekOps (if e then 16383 else 0) (some e) ks
  | .rds _ sx d _ _ => [(ks, .rds 0 d sx)]
  | .wrs _ _ x _ => [(ks, .wrs ((giVal s x).setWidth 32))]
  | .vrds _ d _ _ => [(ks, .vrds 0 d)]
  | .vwrs _ _ d pg => [(ks, .vwrs (vVal s d) (pVal s pg))]
  | _ => []

/-- A seek's target lies on the track (R280). -/
def onTrack : TrkOp → Prop
  | .seek target _ => target ≤ 16383
  | _ => True

end Sys2Proof.Slice0

/-- R269, R270, R279, R283, R284: HOLD.W on tracks whose leases the context holds, what is queued on them counted, goes on,
and else waits for them; HOLD.T is performed in its tracks' order and answers whether the leases are the context's; HREL
enters a release behind the accesses before it; HPOS gives the head state as a fixed result, and with nothing queued on the
track that is its state now.
The model's choices it rests on: log 25 (HPOS, its region and its order), log 33 (HOLD.W behind a FENCE) and log 41 (the gang
that a hold of an owed lease requests). -/
def Obligations.Leases : Prop :=
  (∀ (h : Hdr) (c : Fin 32) (k : KK) (l : Option (Fin 16)) (s : State) (ks : List Nat), Issues h s → OnCore s →
    Tracks s l k ks →
    ((ks.all fun k => leaseAfter s (curT s).ctx k == some true) = true → fencedNow s = false →
      exec (.holdW h k l) s = .next (retire h (closeCur s))) ∧
    ((ks.all fun k => leaseAfter s (curT s).ctx k == some true) = false ∨ fencedNow s = true →
      exec (.holdW h k l) s = .next (holdForLease s (holdSet s ks) (some h) ks [])) ∧
    (HasRoom s → exec (.holdT h c k l) s = .next (
      let r := resultWait [.c c] .none (closeCur s)
      retire h (pushAcc r.2 (holdSet s ks) (.holdT r.1 c)))) ∧
    exec (.hrel h k l) s = .next (retire h (pushAcc (closeCur s) ks .hrel))) ∧
  (∀ (a : Acc) (rid : Nat) (c : Fin 32) (s : State), a.op = .holdT rid c → awaits rid (getT s a.tk) = true →
    let answers := fun (b : Bool) => later (modT s a.tk fun t => modRes t rid fun r => { r with vals := [.c c b] }) 4
      (.resultReturn a.tk rid)
    (ownsAll s a.ctx a.gang = true → performHoldT s a rid c = answers true) ∧
    (ownsAll s a.ctx a.gang = false → (a.gang.any fun k => (trackAt s k).owner.isSome) = true →
      performHoldT s a rid c = answers false)) ∧
  (∀ (h : Hdr) (d : Fin 16) (k : Fin 64) (l : Option (Fin 16)) (s : State) (ks : List Nat), Issues h s → OnCore s →
    Tracks s l (.k k) ks →
    exec (.hpos h d k l) s =
      .next (retire h (setG (closeCur s) d (hposWord s (curT s).ctx (ks.headD 0) k.val))) ∧
    ((trackAt s (ks.headD 0)).acc = [] → hposWord s (curT s).ctx (ks.headD 0) k.val =
      headState (trackAt s (ks.headD 0)) k.val
        ((if lostAt (trackAt s (ks.headD 0)) s.clock then 8 else 0) +
          (if (owedOf s (curT s).ctx (ks.headD 0)).isSome then 4 else 0) +
          (if (trackAt s (ks.headD 0)).owner = some (curT s).ctx then 2 else 0) +
          (if (trackAt s (ks.headD 0)).move.isSome then 1 else 0))
        ((trackAt s (ks.headD 0)).owner == some (curT s).ctx && (trackAt s (ks.headD 0)).gang)))

/-- R276, R278, R280 to R282: under their leases SEEK moves the cursor to its target, RWND to an end of the track, and RDS,
WRS, VRDS and VWRS enter their accesses in the tracks' queues; a target past the track traps PROT. Without the lease they
trap TRKOWN 2, and with one owed they first wait for it, their accesses to follow its grant (R271). Every track instruction
traps TRKOWN 1 on a track its core context lacks, moves its thread to another logical core that it names, and traps PROT where
the context has no such core.
The model's choice it rests on: log 41 (the gang that an owed lease is requested with). -/
def Obligations.TrackAccess : Prop :=
  (∀ (h : Hdr) (dir : SeekK) (e : Bool) (k : KK) (a l : Option (Fin 16)) (disp : BitVec 24) (s : State) (ks : List Nat),
    Issues h s → OnCore s → Tracks s l k ks → Leased s ks →
    let T : Word := (match a with
      | some r => gVal s r
      | none => 0) + disp.signExtend 64
    (T.toNat ≤ 16383 → exec (.seek h dir k a l disp) s = .next (enterOps h (seekOps T.toNat (match dir with
      | .keep => none
      | .fwd => some false
      | .rev => some true) ks) s)) ∧
    (16383 < T.toNat → exec (.seek h dir k a l disp) s = .next (trapHere s 0x06 T)) ∧
    exec (.rwnd h e k l) s = .next (enterOps h (seekOps (if e then 16383 else 0) (some e) ks) s)) ∧
  (∀ (h : Hdr) (sx : Bool) (d : Fin 16) (k : Fin 64) (x : GI) (l : Option (Fin 16)) (s : State) (ks : List Nat),
    Issues h s → OnCore s → Tracks s l (.k k) ks → Leased s ks →
    (HasRoom s → exec (.rds h sx d k l) s = .next (
      let r := resultWait [.g d] .none (closeCur s)
      retire h (pushAcc r.2 ks (.rds r.1 d sx)))) ∧
    exec (.wrs h k x l) s = .next (retire h (pushAcc (closeCur s) ks (.wrs ((giVal s x).setWidth 32))))) ∧
  (∀ (h : Hdr) (v : Fin 32) (kg : Fin 4) (pg : Fin 8) (l : Option (Fin 16)) (s : State) (ks : List Nat), Issues h s →
    OnCore s → VRegs [v] s → Tracks s l (.kg kg) ks → Leased s ks →
    (HasRoom s → exec (.vrds h v kg l) s = .next (
      let r := resultWait [.v v] .none (closeCur s)
      retire h (pushAcc r.2 ks (.vrds r.1 v)))) ∧
    (l = none → exec (.vwrs h kg v pg) s = .next (retire h (pushAcc (closeCur s) ks (.vwrs (vVal s v) (pVal s pg)))))) ∧
  (∀ (i : Instr) (h : Hdr) (k : KK) (l : Option (Fin 16)) (rs : List (Fin 32)) (need : Bool) (s : State),
    trackForm i = some (h, k, l, rs, need) → Issues h s → OnCore s → HasRoom s → VRegs rs s →
    (∀ ks, need = true → Tracks s l k ks →
      ((ks.any fun k => leaseAfter s (curT s).ctx k == some false && !owedAfter s (curT s).ctx k) = true →
        exec i s = .next (trkOwn s 2 k)) ∧
      (∀ g, (ks.all fun k => leaseAfter s (curT s).ctx k == some true || owedAfter s (curT s).ctx k) = true →
        owedGang s ks = some g → (∀ n ∈ trackOps s ks i, onTrack n.2) →
        exec i s = .next (holdForLease s g (some h) g (trackOps s ks i)))) ∧
    (l = none → ((vtracks k).any fun v => decide ((curCC s).tmap.length ≤ v)) = true →
      exec i s = .next (trkOwn s 1 k)) ∧
    (∀ r, l = some r → namedCore s (gVal s r) = none → exec i s = .next (trapHere s 0x06 (gVal s r))) ∧
    (∀ r cc, l = some r → namedCore s (gVal s r) = some cc → (gVal s r).toNat ≠ (curT s).lcore → (curT s).res = [] →
      exec i s = .next (depart s s.cur (gVal s r).toNat cc.phys)))


/-! ### Chains, deques, streams -/

namespace Sys2Proof.Slice0

/-- The chain a CHMODE names: its register's, or the issuer's own (R335). -/
abbrev chainNamed (s : State) (id : Option (Fin 16)) : Option Nat :=
  match id with
  | some r => some ((gVal s r).toNat % 65536)
  | none => (curT s).chain.map fun p => p.chain

/-- Nothing holds a drain of the thread's buffered stores: no FENCE, no earlier step and no tile store (R162, R175, R245). -/
abbrev Drains (s : State) : Prop := hostHeld s = false ∧ InOrder s false ∧ StoresFree s

/-- The executing thread's stage and chain, the thread past the checks of room and of its buffered stores. -/
abbrev AtStage (s : State) (ch : Chain) (r : Replica) : Prop :=
  curReplica s = some (ch, r) ∧ HasRoom s ∧ Drains s

/-- A stage can pass an item on: it is not the last, and its stream has not ended (R334). -/
abbrev Passes (ch : Chain) (r : Replica) : Prop := r.stage + 1 ≠ chStages ch ∧ r.done = false

/-- A GET or a PUT that the folded form does not let wait (R346): no trap handler runs, and no result is outstanding. -/
abbrev CanSwitch (s : State) : Prop := (curT s).inh = false ∧ (curT s).res = []

end Sys2Proof.Slice0

/-- R314 to R317, R332: CHAIN reads its descriptor as one step and asks for the chain; a descriptor out of range traps
CHAINERR 7, an area past a share PROT, an address not 64-aligned ALIGN. R318 to R322, R333, R334, R345, R346: a GET of a
spread stage parks its thread until its result returns, a folded one takes its item, or switches to another frame; a PUT
passes its item in its turn with room and else parks or switches; PUT.E ends the stage's stream; each traps CHAINERR
outside a chain, at the wrong end, for the wrong kind, or past the end of its stream. R337: FTILE takes the next sub-tile of
its core context's cluster. R335: CHMODE.Q and .OCC ask the chain's holder; .FOLD, .SPREAD and .AUTO change its mode at once.
The model's choices it rests on: log 10 (how GET and PUT park). -/
def Obligations.Chains : Prop :=
  (∀ (h : Hdr) (d a : Fin 16) (s : State), Issues h s → OnCore s → HasRoom s →
    let va := (gVal s a).toNat
    (va % 64 ≠ 0 → windowOf va ≠ .reserved → exec (.chain h d a) s = .next (trapHere s 0x05 (BitVec.ofNat 64 va))) ∧
    (∀ locs, va % 64 = 0 → locs.any (heldShare s) = false → InOrder s true →
      lanesAccess s 8 false ((List.range 8).map fun k => va + 8 * k) = .ok locs →
      let all := locs.flatMap fun x => locsFrom x 8
      (all.any (portHeld s) = true → exec (.chain h d a) s = .next (retry s)) ∧
      (all.any (portHeld s) = false → readsPoison s (curT s) all = true → exec (.chain h d a) s =
        .next (later (putT s { curT s with block := .device }) 0 (.uncorrectableConsumed s.cur va 0))) ∧
      (all.any (portHeld s) = false → readsPoison s (curT s) all = false →
        let s1 := countCorrected (closeCur s) all
        let rd := readThreadMany s1 0 (curT s1) (sectors all)
        (parseDesc (BitVec.ofNat 64 va) rd.1 = none → exec (.chain h d a) s = .next (chainErr s 7 0)) ∧
        (∀ ds, parseDesc (BitVec.ofNat 64 va) rd.1 = some ds →
          (areaFits s (curT s).ctx ds = false →
            exec (.chain h d a) s = .next (trapHere s 0x06 (BitVec.ofNat 64 ds.qoff))) ∧
          (areaFits s (curT s).ctx ds = true → exec (.chain h d a) s = .next (
            let s2 := putT s1 { curT s1 with view := rd.2 }
            let m := memDelay s2
            let w := resultWait [.g d] (.request (.chainId (BitVec.ofNat 64 va) (ofBytesLE rd.1))) m.2
            retire h (later { w.2 with spawns := mset w.2.spawns w.1 (chainTemplate s2) }
              (m.1 + legTo w.2 (coreOf s.cur) (core0 w.2 (curT s).ctx (coreOf s.cur))) (.remoteRequest s.cur w.1)))))))) ∧
  (∀ (h : Hdr) (gd : GV) (c : Fin 32) (s : State), Issues h s → OnCore s → VRegs (gvRegs gd) s →
    (curReplica s = none → exec (.get h gd c) s = .next (chainErr s 3 0)) ∧
    (∀ ch r, curReplica s = some (ch, r) →
      (r.stage = 0 → exec (.get h gd c) s = .next (chainErr s 1 0)) ∧
      (r.stage ≠ 0 → kindOk ch gd = false → exec (.get h gd c) s = .next (chainErr s 6 r.stage))) ∧
    (∀ ch r, AtStage s ch r → r.stage ≠ 0 → kindOk ch gd = true →
      let ready := getReady s (curT s).ctx ch r.stage r.rep
      (ch.folded = false → exec (.get h gd c) s = .next (waitGet (closeCur s) h gd c ch r ready)) ∧
      (ch.folded = true → ready = true →
        (r.at_ = .atGet → exec (.get h gd c) s = .next (finishGet h gd c (closeCur s) ch r)) ∧
        (r.at_ ≠ .atGet → exec (.get h gd c) s = .next (waitGet (closeCur s) h gd c ch r true))) ∧
      (ch.folded = true → ready = false →
        ((curT s).inh = true → exec (.get h gd c) s = .next (chainErr s 5 r.stage)) ∧
        (CanSwitch s → exec (.get h gd c) s = .next (switchFrame (closeCur s) (closeCur s).cur .atGet))))) ∧
  (∀ (h : Hdr) (pa : GIV) (s : State), Issues h s → OnCore s →
    (curReplica s = none →
      (VRegs (givRegs pa) s → exec (.put h pa) s = .next (chainErr s 3 0)) ∧
      exec (.putE h) s = .next (chainErr s 3 0)) ∧
    (∀ ch r, curReplica s = some (ch, r) →
      (r.stage + 1 = chStages ch →
        (VRegs (givRegs pa) s → exec (.put h pa) s = .next (chainErr s 2 r.stage)) ∧
        exec (.putE h) s = .next (chainErr s 2 r.stage)) ∧
      (r.stage + 1 ≠ chStages ch → r.done = true →
        (VRegs (givRegs pa) s → exec (.put h pa) s = .next (chainErr s 4 r.stage)) ∧
        exec (.putE h) s = .next (chainErr s 4 r.stage)) ∧
      (Passes ch r → VRegs (givRegs pa) s → putKindOk ch pa = false →
        exec (.put h pa) s = .next (chainErr s 6 r.stage))) ∧
    (∀ ch r, AtStage s ch r → Passes ch r → VRegs (givRegs pa) s → putKindOk ch pa = true →
      let x := putVal s pa
      let s0 := closeCur s
      let passed := chainDone (acceptPut s0 ch r x)
      (ch.folded = false →
        (canAccept ch r.stage r.rep = true → exec (.put h pa) s = .next (checkFold (resultIn h (acceptLat s ch r) []
          (wakePut passed (curT passed).ctx ch.id r.stage)) (curT passed).ctx ch.id)) ∧
        (canAccept ch r.stage r.rep = false →
          exec (.put h pa) s = .next (parkAt s0 ch r .atPut true (s.clock + 1)))) ∧
      (ch.folded = true →
        let gone := (chQueue ch r.stage).p == r.rep && consumersQuit ch r.stage
        (gone = true → exec (.put h pa) s = .next (retire h passed)) ∧
        (gone = false → (curT s).inh = true → exec (.put h pa) s = .next (chainErr s 5 r.stage)) ∧
        (gone = false → CanSwitch s →
          (canAccept ch r.stage r.rep = true →
            exec (.put h pa) s = .next (switchFrame (leaveRun h passed) (leaveRun h passed).cur .ready)) ∧
          (canAccept ch r.stage r.rep = false → exec (.put h pa) s = .next (switchFrame s0 s0.cur .atPut))))) ∧
    (∀ ch r, AtStage s ch r → Passes ch r →
      ((chQueue ch r.stage).p = r.rep →
        let s2 := chainDone (endStream (drainAll (closeCur s) s.cur) (curT s).ctx
          (modRep ch r.stage r.rep fun r => { r with at_ := .run }) r.stage r.rep (coreOf s.cur) false)
        (ch.folded = true → exec (.putE h) s = .next (retire h s2)) ∧
        (ch.folded = false → exec (.putE h) s = .next (checkFold (resultIn h (acceptLat s ch r) [] s2) (curT s).ctx ch.id))) ∧
      ((chQueue ch r.stage).p ≠ r.rep →
        (ch.folded = false → exec (.putE h) s = .next (parkAt (closeCur s) ch r .atPut true (s.clock + 1))) ∧
        (ch.folded = true → (curT s).inh = true → exec (.putE h) s = .next (chainErr s 5 r.stage)) ∧
        (ch.folded = true → CanSwitch s → exec (.putE h) s = .next (switchFrame (closeCur s) s.cur .atPut))))) ∧
  (∀ (h : Hdr) (d : Fin 16) (c : Fin 32) (s : State), Issues h s → OnCore s → HasRoom s →
    let s1 := closeCur s
    let x := ctxD s1 (curT s1).ctx
    let k := ((getCC s1 (curT s1).ctx (curT s1).lcore).map (·.cluster)).getD 0
    let i := k + x.nclus * mgetD x.ftile k 0
    (i < subTiles x.pkt.grid → exec (.ftile h d c) s = .next (resultIn h 8 [.g d (subTile x.pkt.grid i), .c c true]
      (setCtx s1 (curT s1).ctx { x with ftile := mset x.ftile k (mgetD x.ftile k 0 + 1) }))) ∧
    (subTiles x.pkt.grid ≤ i → exec (.ftile h d c) s = .next (resultIn h 8 [.c c false] s1))) ∧
  (∀ (h : Hdr) (d : Fin 16) (q : GI) (id : Option (Fin 16)) (s : State), Issues h s → OnCore s →
    let s1 := closeCur s
    let c := (curT s1).ctx
    (∀ n, chainNamed s id = some n →
      (HasRoom s →
        exec (.chmodeQ h d id) s =
          .next (asked h [.g d] (.chmodeQ n (ownPlace s1 n).1 (ownPlace s1 n).2) (chainHolder s1) s1) ∧
        exec (.chmodeOcc h d q id) s = .next (asked h [.g d] (.chmodeOcc n (giVal s1 q).toNat) (chainHolder s1) s1)) ∧
      (chainOf s1 c n = none →
        exec (.chmodeFold h id) s = .next (retire h s1) ∧
        exec (.chmodeSpread h id) s = .next (retire h s1) ∧
        exec (.chmodeAuto h id) s = .next (retire h s1)) ∧
      (∀ ch, chainOf s1 c n = some ch →
        exec (.chmodeFold h id) s = .next (retire h (requestFold s1 c { ch with auto := false } false)) ∧
        exec (.chmodeSpread h id) s = .next (
          let folding := ch.foldP && ch.foldR
          let s2 := setChain s1 c
            { ch with auto := false, foldP := folding, foldR := folding, spreadP := ch.folded || folding }
          retire h (later (if ch.foldP && !folding then
              (List.range ch.queues.length).foldl (fun s q => wakePut s c ch.id q) s2
            else s2) 0 (.chainSpread c ch.id))) ∧
        exec (.chmodeAuto h id) s = .next (retire h (later
          (setChain s1 c { ch with auto := true, foldR := ch.foldP && ch.foldR }) 1 (.autoSpreadRequest c ch.id))))) ∧
    (chainNamed s id = none →
      exec (.chmodeQ h d id) s = .next (chainErr s 3 0) ∧ exec (.chmodeOcc h d q id) s = .next (chainErr s 3 0) ∧
      exec (.chmodeFold h id) s = .next (chainErr s 3 0) ∧ exec (.chmodeSpread h id) s = .next (chainErr s 3 0) ∧
      exec (.chmodeAuto h id) s = .next (chainErr s 3 0)))

namespace Sys2Proof.Slice0

/-- The issuer's deque: the location of its header and its capacity (R338). -/
abbrev Deque (s : State) (loc cap : Nat) : Prop :=
  ∃ cc, getCC s (curT s).ctx (curT s).lcore = some cc ∧ cc.dqEn = true ∧
    dequeOf s (ccKey (curT s).ctx (curT s).lcore) cc = .ok (loc, cap)

/-- The sender's open route to a port, if there is one (R341). -/
abbrev routeTo? (s : State) (cc : CoreCtx) (p : Fin 4) : Option Route :=
  (portRoutes (portAt s cc.phys p)).find? fun r => r.ctx == (curT s).ctx && r.lcore == (curT s).lcore && !r.closed

/-- A stream can be sent to a port: its core context is not saved, its core is not lost, and no chain holds the port. -/
abbrev PortOpen (s : State) (cc : CoreCtx) (p : Fin 4) : Prop :=
  cc.cst ≠ .saving ∧ cc.cst ≠ .saved ∧ unitState s.cmap clsCore cc.phys ≠ 3 ∧ (portAt s cc.phys p).chain = false

end Sys2Proof.Slice0

/-- R338 to R340: DPUSH writes an entry and BOT and releases the header if there is room, DPOP takes the youngest entry or
answers that there is none, DSTEAL asks the named core's deque; without a deque the first two trap DQERR. R341 to R344: the
first SSEND to a port opens a route and a later one continues it, or waits for room; SRECV takes the word that has come, or
waits for it; each traps STRMERR for a port of a chain, a route of the other class, and SRECV for another context's route. -/
def Obligations.DequesStreams : Prop :=
  (∀ (h : Hdr) (a b : Fin 16) (c : Fin 32) (x y : GI) (s : State), Issues h s → OnCore s →
    (∀ loc cap, Deque s loc cap → HasRoom s →
      let s1 := closeCur s
      (Drains s →
        let s2 := drainAll s1 s1.cur
        let n := (dequeBot s2 loc + 2 ^ 32 - dequeTop s2 loc) % 2 ^ 32
        (n = cap → exec (.dpush h c x y) s = .next (resultIn h 4 [.c c false] s2)) ∧
        (n ≠ cap → exec (.dpush h c x y) s = .next (
          let e := dequeEntry loc cap (dequeBot s2 loc)
          let s3 := storeWord s2 s2.cur e (giVal s x).toNat
          let s4 := storeWord s3 s2.cur (e + 8) (giVal s y).toNat
          let s5 := storeWord s4 s4.cur (loc + 8) ((dequeBot s2 loc + 1) % 2 ^ 32)
          resultIn h 4 [.c c true] { s5 with
            rels := mset s5.rels loc ((mgetD s5.rels loc {}).join (curT s5).view)
            vers := mset s5.vers loc (mgetD s5.vers loc 0 + 1) }))) ∧
      (InOrder s true → dequeBot s1 loc = dequeTop s1 loc → exec (.dpop h a b c) s = .next (resultIn h 4 [.c c false] s1)) ∧
      (InOrder s true → dequeBot s1 loc ≠ dequeTop s1 loc → exec (.dpop h a b c) s = .next (
        let k := (dequeBot s1 loc + 2 ^ 32 - 1) % 2 ^ 32
        let s2 := storeWord s1 s1.cur (loc + 8) k
        let e := dequeEntry loc cap k
        resultJoin h 4 [.g a (BitVec.ofNat 64 (memN s2 e 8)), .g b (BitVec.ofNat 64 (memN s2 (e + 8) 8)), .c c true]
          (acquired s2 loc) s2))) ∧
    (∀ n, (match getCC s (curT s).ctx (curT s).lcore with
        | none => some 1
        | some cc => if !cc.dqEn then some 1 else match dequeOf s (ccKey (curT s).ctx (curT s).lcore) cc with
          | .error n => some n
          | .ok _ => none) = some n →
      exec (.dpush h c x y) s = .next (dequeErr s n) ∧ exec (.dpop h a b c) s = .next (dequeErr s n))) ∧
  (∀ (h : Hdr) (a b l : Fin 16) (c : Fin 32) (s : State), Issues h s → OnCore s →
    (∀ cc, namedCore s (gVal s l) = some cc → HasRoom s → InOrder s true →
      exec (.dsteal h a b c l) s = .next (
        let r := resultWait [.c c] (.request (.dsteal (gVal s l).toNat a b c false)) (markCloser s)
        let s2 := putT r.2 (modRes (curT r.2) r.1 fun x => { x with dst := [.g a, .g b, .c c], sentTo := some cc.phys })
        retire h (later s2 (if (gVal s l).toNat = (curT s).lcore then 0 else coreLat s (coreOf s.cur) cc.phys)
          (.remoteRequest s.cur r.1)))) ∧
    (namedCore s (gVal s l) = none → exec (.dsteal h a b c l) s = .next (trapHere s 0x06 (gVal s l)))) ∧
  (∀ (h : Hdr) (cl : Bool) (l : Fin 16) (p : Fin 4) (a : GIV) (s : State), Issues h s → OnCore s →
    VRegs (givRegs a) s →
    (namedCore s (gVal s l) = none → exec (.ssend h cl l p a) s = .next (trapHere s 0x06 (gVal s l))) ∧
    (∀ cc, namedCore s (gVal s l) = some cc →
      (cc.cst = .saving ∨ cc.cst = .saved → exec (.ssend h cl l p a) s = .next (retry s)) ∧
      (cc.cst ≠ .saving → cc.cst ≠ .saved → unitState s.cmap clsCore cc.phys = 3 →
        let x := lostTrap (ctxD s (curT s).ctx).ackv (sinceOf s.cmap clsCore cc.phys)
        exec (.ssend h cl l p a) s = .next (trapHere s x.1 x.2)) ∧
      (cc.cst ≠ .saving → cc.cst ≠ .saved → unitState s.cmap clsCore cc.phys ≠ 3 →
        (portAt s cc.phys p).chain = true → exec (.ssend h cl l p a) s = .next (strmErr s 2 p.val)) ∧
      (PortOpen s cc p →
        (routeTo? s cc p = none → exec (.ssend h cl l p a) s = .next (
          let n := newId (closeCur s)
          let r : Route := { id := n.1, ctx := (curT s).ctx, lcore := (curT s).lcore, vec := GIV.isVec a, closed := cl,
                             flying := [(putVal s a, cl)] }
          retire h (later (modPort n.2 cc.phys p.val fun q => { q with coming := q.coming ++ [r] })
            (coreLat s (coreOf s.cur) cc.phys) (.streamWordArrive cc.phys p.val n.1)))) ∧
        (∀ r, routeTo? s cc p = some r →
          let full := decide (512 < (r.words.length + r.flying.length + 1) * wordBytes (GIV.isVec a))
          (r.vec ≠ GIV.isVec a → exec (.ssend h cl l p a) s = .next (strmErr s 3 p.val)) ∧
          (r.vec = GIV.isVec a → full = true →
            exec (.ssend h cl l p a) s = .next (putT s { curT s with block := .port })) ∧
          (r.vec = GIV.isVec a → full = false → exec (.ssend h cl l p a) s = .next (retire h (later
            (modPort (closeCur s) cc.phys p.val fun q => mapRoute q r.id fun r =>
              { r with flying := r.flying ++ [(putVal s a, cl)], closed := cl })
            (coreLat s (coreOf s.cur) cc.phys) (.streamWordArrive cc.phys p.val r.id)))))))) ∧
  (∀ (h : Hdr) (d : GV) (p : Fin 4) (c : Fin 32) (s : State), Issues h s → OnCore s → HasRoom s → VRegs (gvRegs d) s →
    let core := coreOf s.cur
    let toV := match d with
      | .v _ => true
      | .g _ => false
    let waits := retire h (resultWait [GV.reg d, .c c] (.srecv p.val toV) (markCloser s)).2
    ((portAt s core p).chain = true → exec (.srecv h d c p) s = .next (strmErr s 2 p.val)) ∧
    ((portAt s core p).chain = false →
      ((portAt s core p).held = none → exec (.srecv h d c p) s = .next waits) ∧
      (∀ r, (portAt s core p).held = some r →
        (r.ctx ≠ (curT s).ctx → exec (.srecv h d c p) s = .next (strmErr s 1 p.val)) ∧
        (r.ctx = (curT s).ctx → r.vec ≠ toV → exec (.srecv h d c p) s = .next (strmErr s 4 p.val)) ∧
        (r.ctx = (curT s).ctx → r.vec = toV →
          (r.words = [] ∨ srecvWaits s r.ctx core p ≠ [] → exec (.srecv h d c p) s = .next waits) ∧
          (∀ x last s1, r.words ≠ [] → srecvWaits s r.ctx core p = [] →
            takeWord (closeCur s) core p = (some (x, last), s1) →
            exec (.srecv h d c p) s = .next (waitNow h (srecvVals [GV.reg d, .c c] x last) evSTRM none s1))))))

/-! ### The map, management and the privileged instructions -/

/-- R369: MAPV and MAPV.A ask logical core 0; MAPACK of a version not above ACKV goes on, of a newer published one
acknowledges it, holding the thread while numbers are resolved, and of one above MAPVEC traps PROT. R366, R371: KILL of
a live context begins its kill with the status of its form, and of no context answers 1.
The model's choices it rests on: log 27 (how long a hold is). -/
def Obligations.MapAndKill : Prop :=
  (∀ (h : Hdr) (d w : Fin 16) (s : State), Issues h s →
    (HasRoom s →
      exec (.mapv h d) s = .next (asked h [.g d] (.mapv false) (core0 s (curT s).ctx (coreOf s.cur)) (closeCur s)) ∧
      exec (.mapvA h d) s = .next (asked h [.g d] (.mapv true) (core0 s (curT s).ctx (coreOf s.cur)) (closeCur s))) ∧
    ((gVal s w).toNat ≤ (ctxD s (curT s).ctx).ackv.toNat → exec (.mapack h w) s = .next (retire h (closeCur s))) ∧
    ((ctxD s (curT s).ctx).ackv.toNat < (gVal s w).toNat →
      ((ctxD s (curT s).ctx).mapvec.toNat < (gVal s w).toNat →
        exec (.mapack h w) s = .next (trapHere s 0x06 (gVal s w))) ∧
      ((gVal s w).toNat ≤ (ctxD s (curT s).ctx).mapvec.toNat →
        exec (.mapack h w) s = .next (
          let s1 := closeCur s
          let c := (curT s).ctx
          let n := resolveTime s1 c (coreOf s.cur)
          holdFor n (retire h (modCtx (ackTo s1 c (gVal s w)) c fun x => { x with ackHold := s1.clock + n })))))) ∧
  (∀ (h : Hdr) (f : Bool) (d c : Fin 16) (s : State), Issues h s → Level 1 s → HasRoom s →
    let n := (gVal s c).toNat % 65536
    (getCtx (closeCur s) n = none → exec (.kill h f d c) s = .next (resultIn h 1 [.g d 1] (closeCur s))) ∧
    ((getCtx (closeCur s) n).isSome = true →
      exec (.kill h f d c) s = .next (
        let r := resultWait [.g d] (.kill n) (closeCur s)
        retire h (startKill r.2 n (if f then 0x82 else 0x80) (routerOf (coreOf s.cur))
          [(s.cur, r.1, !dying (closeCur s) n)]))))

/-- R372, R373, R374: the CTX instructions: SAVE, LOAD and MIG hold for the operation, or answer that there is nothing to
do, that it cannot be done, or that there is no such core; RD asks for a context word; WR writes the words that are RW and
traps PROT at any other; RES acknowledges the map and lets the context go on; TV sets the quadrant's table, all four on the
Reeve; SLOT asks for a slot entry. What they name must exist: a context that is not live traps PROT.
The model's choices it rests on: log 23 (CTX.WR's operands) and log 38. -/
def Obligations.ContextInstructions : Prop :=
  (∀ (h : Hdr) (d c l p : Fin 16) (s : State), Issues h s → Level 1 s → HasRoom s →
    let n := (gVal s c).toNat % 65536
    let L := (gVal s l).toNat
    let k := bitsOf (gVal s p) 11 0
    let s1 := closeCur s
    (liveCtx s n = false →
      exec (.ctxSave h d c l) s = .next (trapHere s 0x06 (gVal s c)) ∧
      exec (.ctxLoad h d c l) s = .next (trapHere s 0x06 (gVal s c)) ∧
      exec (.ctxMig h d c l p) s = .next (trapHere s 0x06 (gVal s c))) ∧
    (liveCtx s n = true → (if L < 4096 then getCC s n L else none) = none →
      exec (.ctxSave h d c l) s = .next (resultIn h 1 [.g d 3] s1) ∧
      exec (.ctxLoad h d c l) s = .next (resultIn h 1 [.g d 3] s1) ∧
      exec (.ctxMig h d c l p) s = .next (resultIn h 1 [.g d 3] s1)) ∧
    (∀ cc, liveCtx s n = true → L < 4096 → getCC s n L = some cc →
      (cc.cst = .saved → exec (.ctxSave h d c l) s = .next (resultIn h 1 [.g d 1] s1)) ∧
      (cc.cst ≠ .saved → (ctxD s1 n).saveBase = 0 → exec (.ctxSave h d c l) s = .next (resultIn h 1 [.g d 2] s1)) ∧
      (cc.cst ≠ .saved → (ctxD s1 n).saveBase ≠ 0 →
        exec (.ctxSave h d c l) s = .next (holdCtxOp h d opSave n L s1)) ∧
      (cc.cst = .resident → exec (.ctxLoad h d c l) s = .next (resultIn h 1 [.g d 1] s1)) ∧
      (cc.cst ≠ .resident → exec (.ctxLoad h d c l) s = .next (holdCtxOp h d opLoad n L s1)) ∧
      (cc.phys = k → exec (.ctxMig h d c l p) s = .next (resultIn h 1 [.g d 1] s1)) ∧
      (cc.phys ≠ k → migCore s1 (n, L, cc) k = none →
        exec (.ctxMig h d c l p) s = .next (resultIn h 1 [.g d 2] s1)) ∧
      (∀ q, cc.phys ≠ k → migCore s1 (n, L, cc) k = some q →
        exec (.ctxMig h d c l p) s = .next (later (holdCtxOp h d (opMig q) n L s1) 0 (.liveMigration n L q))))) ∧
  (∀ (h : Hdr) (d c ix v : Fin 16) (s : State), Issues h s → Level 1 s →
    let n := (gVal s c).toNat % 65536
    let i := (gVal s ix).toNat
    let s1 := closeCur s
    (HasRoom s → exec (.ctxRd h d c ix) s = .next (asked h [.g d] (.ctxRd n (gVal s ix)) (core0 s n (coreOf s.cur)) s1)) ∧
    (liveCtx s n = true →
      (i = 1 → exec (.ctxWr h c v ix) s =
        .next (retire h (modCtx s1 n fun y => { y with troot := gVal s v &&& 0x00000FFFFFFFFFFF }))) ∧
      (i = 2 → exec (.ctxWr h c v ix) s =
        .next (retire h (modCtx s1 n fun y => { y with tpref := gVal s v &&& 0xFFFFFFFFFFFFF0FF }))) ∧
      (i = 3 → exec (.ctxWr h c v ix) s =
        .next (retire h (modCtx s1 n fun y => { y with saveBase := gVal s v &&& 0x00FFFFFFFFF00000 }))) ∧
      (i = 7 → exec (.ctxWr h c v ix) s = .next (retire h (setGrace s1 n (gVal s v)))) ∧
      (i = 8 → exec (.ctxWr h c v ix) s = .next (retire h (clearDrops s1 n (gVal s v)))) ∧
      (i ∉ [1, 2, 3, 7, 8] → exec (.ctxWr h c v ix) s = .next (trapHere s 0x06 (gVal s ix))) ∧
      exec (.ctxRes h c) s = .next (retire h (modCtx (resumeCtx s1 n) n fun x => { x with
        ackHold := s.clock + resolveTime s1 n (core0 s1 n (coreOf s.cur)) }))) ∧
    (liveCtx s n = false →
      exec (.ctxWr h c v ix) s = .next (trapHere s 0x06 (gVal s c)) ∧
      exec (.ctxRes h c) s = .next (trapHere s 0x06 (gVal s c)))) ∧
  (∀ (h : Hdr) (d l v : Fin 16) (s : State), Issues h s → Level 1 s →
    ((gVal s v).toNat % 512 ≠ 0 → exec (.ctxTv h v) s = .next (trapHere s 0x05 (gVal s v))) ∧
    ((gVal s v).toNat % 512 = 0 → exec (.ctxTv h v) s = .next (retire h
      ((if coreOf s.cur = 0x804 then List.range 4 else [coreOf s.cur - 0x800]).foldl
        (fun x d => setQuad x d { quadAt x d with tv := some (gVal s v) }) (closeCur s)))) ∧
    (bitsOf (gVal s l) 14 3 ≤ 2047 → HasRoom s → exec (.ctxSlot h d l) s = .next (asked h [.g d]
      (.ctxSlot (tkOf (bitsOf (gVal s l) 14 3) (bitsOf (gVal s l) 2 0))) (bitsOf (gVal s l) 14 3) (closeCur s))) ∧
    (2047 < bitsOf (gVal s l) 14 3 → exec (.ctxSlot h d l) s = .next (trapHere s 0x06 (gVal s l))))

namespace Sys2Proof.Slice0

/-- A shootdown has been sent, for which the thread is held (R311, R370). -/
abbrev shot (h : Hdr) (c : Option Nat) (ps : List (Nat × Nat)) (s : State) : State :=
  let m := shootDelay s
  let r := resultWait [] (.request (.shoot c ps false)) m.2
  let t := retire h r.2
  later (putT t { curT t with block := .device }) m.1 (.remoteRequest t.cur r.1)

/-- The page entry of a register's address, found with no poison on the way (R300, R310). -/
abbrev Pte (s : State) (c : Nat) (v : Word) (a : Nat) : Prop :=
  poisonOnWay s c v.toNat = none ∧ pteOf s c v.toNat = some a

end Sys2Proof.Slice0

/-- R310, R311, R370: the TLBI instructions send their shootdown and are held until it is done; PGREF on a page entry reads
it and, but for .Q, writes what the form asks and sends the shootdown that wakes its waiters; .CLR takes a line off the
poison lists. An address without a page entry, a context not live, a source count of 0 and a count out of its range trap
PROT; poison on the way fails the walk with PTPOISON.
The model's choices it rests on: log 3 (when the shootdown is over), log 45 (PGREF at a poisoned walk). -/
def Obligations.PagingInstructions : Prop :=
  (∀ (h : Hdr) (c v n : Fin 16) (s : State), Issues h s → Level 1 s →
    let k := (gVal s c).toNat % 65536
    (HasRoom s → exec (.tlbiAll h) s = .next (shot h none [(0, 2 ^ 48)] (closeCur s))) ∧
    (liveCtx s k = true → HasRoom s →
      exec (.tlbiCtx h c) s = .next (shot h (some k) [(0, 2 ^ 48)] (closeCur s)) ∧
      exec (.tlbiPg h c v) s = .next (shot h (some k) [(pageOf (gVal s v).toNat, 1)] (closeCur s)) ∧
      exec (.tlbiRng h c v n) s =
        .next (shot h (some k) [(pageOf (gVal s v).toNat, bitsOf (gVal s n) 31 0)] (closeCur s))) ∧
    (liveCtx s k = false →
      exec (.tlbiCtx h c) s = .next (trapHere s 0x06 (gVal s c)) ∧
      exec (.tlbiPg h c v) s = .next (trapHere s 0x06 (gVal s c)) ∧
      exec (.tlbiRng h c v n) s = .next (trapHere s 0x06 (gVal s c)))) ∧
  (∀ (h : Hdr) (d c v e : Fin 16) (x : GI) (s : State), Issues h s → Level 1 s → HasRoom s →
    let k := (gVal s c).toNat % 65536
    let s1 := closeCur s
    (liveCtx s k = true →
      (∀ a, Pte s k (gVal s v) a →
        (bitsOf (giVal s x) 7 0 = 0 → exec (.pgrefSh h d c v e x) s = .next (trapHere s 0x06 (giVal s x))) ∧
        (InOrder s false →
          let p := ptePrep s a
          let old := pteWord p a
          let refs := (bitsOf old 59 52 : Int) + (giVal s x).toInt
          exec (.pgrefQ h d c v) s = .next (
            let m := memDelay s1
            resultIn h m.1 [.g d (pteWord m.2 a)] m.2) ∧
          exec (.pgrefRm h d c v e) s = .next (pgrefRest h [.g d old] k [gVal s v] (writePte p a (gVal s e))) ∧
          (∀ b, Pte s k (gVal s e) b → bitsOf (giVal s x) 7 0 ≠ 0 →
            exec (.pgrefSh h d c v e x) s = .next (
              let q := ptePrep p b
              let s2 := writePte q a (sharedPte (pteWord q b) (bitsOf (giVal s x) 7 0))
              pgrefRest h [.g d (pteWord q a)] k [gVal s v, gVal s e]
                (writePte s2 b (sharedPte (pteWord s2 b) (bitsOf (giVal s x) 7 0))))) ∧
          exec (.pgrefDr h d c v) s = .next (pgrefRest h [.g d old] k [gVal s v] (writePte p a (putBits old 63 63 0))) ∧
          (∀ m : Nat, m ≤ 255 → refs = m → exec (.pgrefAdj h d c v x) s =
            .next (pgrefRest h [.g d old] k [gVal s v] (writePte p a (putBits old 59 52 m)))) ∧
          (refs < 0 ∨ 255 < refs → exec (.pgrefAdj h d c v x) s = .next (trapHere s 0x06 (gVal s v))))) ∧
      (poisonOnWay s k (gVal s v).toNat = none → pteOf s k (gVal s v).toNat = none →
        exec (.pgrefQ h d c v) s = .next (trapHere s 0x06 (gVal s v)) ∧
        exec (.pgrefRm h d c v e) s = .next (trapHere s 0x06 (gVal s v)) ∧
        exec (.pgrefSh h d c v e x) s = .next (trapHere s 0x06 (gVal s v)) ∧
        exec (.pgrefDr h d c v) s = .next (trapHere s 0x06 (gVal s v)) ∧
        exec (.pgrefAdj h d c v x) s = .next (trapHere s 0x06 (gVal s v))) ∧
      (∀ line, poisonOnWay s k (gVal s v).toNat = some line → exec (.pgrefQ h d c v) s = .next (trapHere
        (poisonFault s (dieOf (routerOf (coreOf s.cur))) k (coreOf s.cur % 4096) line 0) 0x06 (gVal s v))) ∧
      exec (.pgrefWk h c v) s = .next (pgrefRest h [] k [gVal s v] s1)) ∧
    (liveCtx s k = false →
      exec (.pgrefQ h d c v) s = .next (trapHere s 0x06 (gVal s c)) ∧
      exec (.pgrefRm h d c v e) s = .next (trapHere s 0x06 (gVal s c)) ∧
      exec (.pgrefSh h d c v e x) s = .next (trapHere s 0x06 (gVal s c)) ∧
      exec (.pgrefDr h d c v) s = .next (trapHere s 0x06 (gVal s c)) ∧
      exec (.pgrefAdj h d c v x) s = .next (trapHere s 0x06 (gVal s c)) ∧
      exec (.pgrefWk h c v) s = .next (trapHere s 0x06 (gVal s c))) ∧
    exec (.pgrefClr h d v) s = .next (
      let line := bitsOf (gVal s v) 51 8
      let m := memDelay (closeCur { s with ptPoison := s.ptPoison.filter fun e => e.2 != line })
      resultIn h m.1 [.g d (if s.ptPoison.any fun e => e.2 == line then 1 else 0)] m.2))

/-- R396, R402, R403, R405, R406: the management instructions: LOG writes a record at LOGHEAD, and the 512 records before a
multiple of 512 are spilled; TMR sets the alarm, RETIRE asks the Reeve, FWSEL sets the boot record, FWCOMMIT raises the
counter to the running image's, QUOTE asks for a quote that fits in SRAM and else traps PROT.
The model's choices it rests on: log 42 (the layout of a quote). -/
def Obligations.ManagementInstructions : Prop :=
  ∀ (h : Hdr) (d a b : Fin 16) (s : State), Issues h s →
    let s1 := closeCur s
    (Level 1 s →
      exec (.mgmtLog h a b) s = .next (
        let q := s1.reeve.logHead
        let s2 := (append s1 ((locsFrom (2 ^ 50 + 32 * s1.reeve.logBase.toNat + 32 * (q.toNat % 2 ^ s1.reeve.logLog2.toNat)) 32).zip
          (logRecord (timerNow s1) (bitsOf (gVal s a) 15 0) (coreOf s.cur) q (gVal s b))) none).2
        let s3 := { s2 with reeve := { s2.reeve with logHead := q + 1 } }
        retire h (if (q + 1).toNat % 512 = 0 then spillLog s3 (q + 1).toNat else s3)) ∧
      (HasRoom s → exec (.mgmtRetire h d a b) s = .next (asked h [.g d]
        (.retire (bitsOf (gVal s a) 7 0) (bitsOf (gVal s a) 15 8) (bitsOf (gVal s b) 31 0)) 0x804 s1))) ∧
    (Level 0 s →
      exec (.mgmtTmr h a) s = .next (retire h (setAlarm s1 (gVal s a))) ∧
      exec (.mgmtFwsel h a) s = .next (retire h { s1 with reeve := { s1.reeve with
        flash := Memory.write s1.reeve.flash 0x810000 (BitVec.ofNat 8 (bitsOf (gVal s a) 0 0)) } }) ∧
      exec (.mgmtFwcommit h) s = .next (retire h { s1 with reeve := { s1.reeve with counter := committed s1 } }) ∧
      ((gVal s a).toNat + 64 + quoteLen ≤ 2 ^ 19 → HasRoom s →
        exec (.mgmtQuote h d a) s = .next (asked h [.g d] (.quote (gVal s a).toNat) 0x804 s1)) ∧
      (2 ^ 19 < (gVal s a).toNat + 64 + quoteLen →
        exec (.mgmtQuote h d a) s = .next (trapHere s 0x06 (gVal s a))))

/-! ### The device's own steps -/

/-- R63 to R66, R69: a result that returns writes the registers it still owes, joins its view, clears the EVT bits it reports
and settles its thread, that of a GET completes the GET; a message for a thread that is gone is dropped and counted by its
own context. R408, R162, R358: a request is performed by its holder, unless the port still holds it, and follows a holder that
has moved. R182 to R184, R187, R190, R123: a notice of the arm that stands latches MWR and ends the waits on its line, a
timeout and a PARK's events end a wait at the end of their clock. R103, R36, R407: a repaired line lets its thread go on, a
MAPEVT and an interrupt are taken at the next boundary. R45: the answer of a target that is gone is a lost reply, or the
request goes to its line's home under the current generation.
The model's choices it rests on: log 3, log 5, log 7, log 10 (results a fold leaves outstanding), log 30, log 37, log 38,
log 44 and log 48. -/
def Obligations.ThreadEvents : Prop :=
  (∀ (tk rid : Nat) (s : State),
    (∀ k r, holderOf s tk rid = some k → findRes (getT s k) rid = some r →
      let t := getT s k
      (∀ h d c, r.wait = .get h d c → exec (.resultReturn tk rid) s = .next (returnGet s k rid h d c)) ∧
      ((∀ h d c, r.wait ≠ .get h d c) →
        let s1 := settle (setT s k (returnRes t r)) k
        (t.chain = none → exec (.resultReturn tk rid) s = .next s1) ∧
        (∀ p, t.chain = some p → exec (.resultReturn tk rid) s = .next (checkFold s1 t.ctx p.chain)))) ∧
    (holderOf s tk rid = none →
      (frameAwaits s rid = true → exec (.resultReturn tk rid) s = .next (modFrame s rid fun t => match findRes t rid with
        | some r => returnRes t r
        | none => t)) ∧
      (frameAwaits s rid = false →
        let placed := (((slotAt s tk).past.head?).map (·.1)).getD 0
        (mget s.threads tk = none ∨ rid ≤ placed →
          exec (.resultReturn tk rid) s = .next (countDrop s (messageCtx s tk rid))) ∧
        ((mget s.threads tk).isSome = true → placed < rid → exec (.resultReturn tk rid) s = .next s)))) ∧
  (∀ (t : Thread) (r : Res) (d : Fin 16) (x : Word), r.vals = [.g d x] →
    let u := returnRes t r
    u.g = (if r.dst.contains (.g d) then t.g.set d x else t.g) ∧ u.res = t.res.filter (fun q => q.id != r.id) ∧
    u.evt = t.evt &&& ~~~r.evt ∧ u.view = (r.join.map t.view.join).getD t.view) ∧
  (∀ (tk rid : Nat) (s : State),
    (requestOf s tk rid = none → exec (.remoteRequest tk rid) s = .next s) ∧
    (∀ r q, requestOf s tk rid = some (r, q) →
      (inPort s tk r = true → exec (.remoteRequest tk rid) s = .next (later s 1 (.remoteRequest tk rid))) ∧
      (inPort s tk r = false → exec (.remoteRequest tk rid) s = .next (performRequest s tk rid r q))) ∧
    (∀ r cc, inPort s tk r = false → getCC s (getT s tk).ctx 0 = some cc →
      let c := (getT s tk).ctx
      let go := fun (x : Word) => Host.Outcome.next (reply s tk rid cc.phys (valsOf r.dst x true))
      let here := fun (q : Req) => requestOf s tk rid = some (r, q) ∧ cc.cst = .resident ∧ r.sentTo.getD cc.phys = cc.phys
      (∀ acked, requestOf s tk rid = some (r, .mapv acked) →
        (cc.cst ≠ .resident → exec (.remoteRequest tk rid) s = .next (holdAt s c 0 (.remoteRequest tk rid))) ∧
        (∀ k, cc.cst = .resident → r.sentTo = some k → k ≠ cc.phys → isCompute k = true →
          (forwards s k c 0 = true → exec (.remoteRequest tk rid) s = .next (later (modT s tk fun t => modRes t rid fun r =>
            { r with sentTo := some cc.phys }) (coreLat s k cc.phys) (.remoteRequest tk rid))) ∧
          (forwards s k c 0 = false → exec (.remoteRequest tk rid) s = .next (later (modT s tk fun t => modRes t rid fun r =>
            { r with sentTo := none }) 0 (.messageDrop tk rid c)))) ∧
        (here (.mapv acked) → exec (.remoteRequest tk rid) s =
          go (if acked then (ctxD s c).ackv else (ctxD s c).mapvec))) ∧
      (∀ n st rp, here (.chmodeQ n st rp) → exec (.remoteRequest tk rid) s = go (chmodeWord s c n st rp)))) ∧
  (∀ (tk rid c : Nat) (s : State),
    exec (.messageDrop tk rid c) s = .next (deadReply (countDrop s c) tk rid) ∧
    exec (.messageStaleDrop tk rid c) s = .next (deadReply (countDrop s c) tk rid)) ∧
  (∀ (dest line : Nat) (s : State),
    let tk := msgSlot dest
    let stmp := msgStamp dest
    (hereFor s tk stmp = false → exec (.monitorNotice dest line) s = .next (countDrop s (stmp / 256))) ∧
    (hereFor s tk stmp = true →
      let s1 := latch s tk 2
      let mine := (monOf (getT s1 tk) line).all fun m => m.written && m.armed == msgArm dest
      (mine = true → exec (.monitorNotice dest line) s = .next
        ((waitsWhere (getT s1 tk) (· == .mwait line)).foldl
          (fun s r => endWait (modT s tk fun t => disarm t line) tk r.id (valsOf r.dst 0 true) 2 none 0) s1)) ∧
      (mine = false → exec (.monitorNotice dest line) s = .next s1))) ∧
  (∀ (tk rid : Nat) (s : State),
    (findRes (getT s tk) rid = none → ∀ last, exec (.waitTimeout tk rid last) s = .next s) ∧
    (∀ r, findRes (getT s tk) rid = some r →
      let t := getT s tk
      let misses := fun (s1 : State) => Host.Outcome.next (finishWait s1 tk r.id (valsOf r.dst 0 false) evTMO none 1)
      exec (.waitTimeout tk rid 0) s = .next { s with ends := s.ends ++ [.waitTimeout tk rid 1] } ∧
      (r.wait = .park →
        (t.evt = 0 → exec (.waitTimeout tk rid 1) s = .next (latch s tk evTMO) ∧ exec (.waitTimeout tk rid 2) s = .next s) ∧
        (t.evt ≠ 0 → exec (.waitTimeout tk rid 1) s = .next s ∧ exec (.waitTimeout tk rid 2) s =
          .next (endWait s tk r.id (valsOf r.dst (t.evt.setWidth 64) true) t.evt none 1))) ∧
      (∀ line, r.wait = .mwait line →
        (∀ m, monOf t line = some m →
          (m.written = true → exec (.waitTimeout tk rid 1) s = .next s) ∧
          (m.written = false → exec (.waitTimeout tk rid 1) s = misses (modT s tk fun t => disarm t line))) ∧
        (let s1 := modT s tk fun t => { t with ghosts := t.ghosts.filter fun m => m.line != line }
         let caught := t.ghosts.any fun m => m.line == line && m.written
         (caught = true → exec (.waitTimeout tk rid 2) s = .next s1) ∧
         (caught = false → exec (.waitTimeout tk rid 2) s =
           .next (endWait s1 tk r.id (valsOf r.dst 0 false) evMDSP none 1)))) ∧
      (∀ set, r.wait = .bar set →
        let b := barAt s t.ctx set
        (b.full.isSome = true → exec (.waitTimeout tk rid 1) s = .next s) ∧
        (b.full.isSome = false → exec (.waitTimeout tk rid 1) s =
          misses (setBar s t.ctx set { b with arrived := b.arrived.filter (· != tk) }))) ∧
      (∀ loc, r.wait = .bwait loc → exec (.waitTimeout tk rid 1) s =
        misses { s with bwaits := s.bwaits.filter fun e => e != (loc, tk, r.id) }))) ∧
  (∀ (tk : Nat) (s : State),
    let t := getT s tk
    let s1 := setT s tk { t with block := .free }
    (t.block ≠ .refetch → exec (.fetchRefetch tk) s = .next s) ∧
    (t.block = .refetch →
      (∀ loc, fetchAccess s tk (lineAddr t.pc) = .ok loc →
        (parityOk (readLine s 1 t.view (locsFrom loc 64)) = true → exec (.fetchRefetch tk) s = .next s1) ∧
        (parityOk (readLine s 1 t.view (locsFrom loc 64)) = false → exec (.fetchRefetch tk) s =
          .next (takeTrap s1 tk { cause := 0x04, tval := BitVec.ofNat 64 (lineAddr t.pc), epc := t.pc }))) ∧
      ((∀ loc, fetchAccess s tk (lineAddr t.pc) ≠ .ok loc) → exec (.fetchRefetch tk) s = .next s1))) ∧
  (∀ (tk : Nat) (s : State),
    let t := getT s tk
    (t.mapevt = false → (t.mheld = false ∨ t.inh = true) → exec (.mapevtTake tk) s = .next s) ∧
    (t.mapevt = false → t.mheld = true → t.inh = false → (ctxD s t.ctx).mapvec.toNat ≤ (ctxD s t.ctx).ackv.toNat →
      exec (.mapevtTake tk) s = .next (setT s tk { t with mheld := false })) ∧
    (t.mapevt = true → t.inh = true →
      exec (.mapevtTake tk) s = .next (setT s tk { t with mapevt := false, mheld := true })) ∧
    (t.mapevt = true → t.inh = false → t.held.isSome = true ∨ frameless s t = true →
      exec (.mapevtTake tk) s = .next s) ∧
    (t.mapevt = true → t.inh = false → t.held = none → frameless s t = false →
      let s1 := unhold s tk
      let u := if parked t then breakWaits (getT s1 tk) else getT s1 tk
      (u.block = .free → u.trapP = none → checkDue u = false →
        exec (.mapevtTake tk) s = .next (takeMapevt (setT s1 tk u) tk)) ∧
      (u.block ≠ .free ∨ u.trapP.isSome = true ∨ checkDue u = true → exec (.mapevtTake tk) s = .next s1))) ∧
  (∀ (tk n : Nat) (s : State) (t : Thread), mget s.threads tk = some t → lowestPend s (coreOf tk) = some n →
    (isCompute (coreOf tk) = false → t.inh = false → t.tvec ≠ 0 → atBoundary t = true → checkDue (breakPark t) = false →
      exec (.interruptTake tk) s = .next (takeTrap (setT (clearPend s (coreOf tk) n) tk (breakPark t)) tk
        { cause := BitVec.ofNat 8 (0x40 + n), tval := intTval s (coreOf tk) n, epc := (breakPark t).pc })) ∧
    (isCompute (coreOf tk) = true ∨ t.inh = true ∨ t.tvec = 0 ∨ atBoundary t = false ∨ checkDue (breakPark t) = true →
      exec (.interruptTake tk) s = .next s)) ∧
  (∀ (tk rid : Nat) (s : State),
    (requestOf s tk rid = none → exec (.rehashReply tk rid) s = .next s) ∧
    (∀ r q, requestOf s tk rid = some (r, q) →
      let c := (getT s tk).ctx
      let core := coreOf tk
      (∀ cause ver, lostAnswer s c core r q = some (cause, ver) → exec (.rehashReply tk rid) s = .next (later
        (modT s tk fun t => modRes t rid fun r =>
          { r with vals := [], wait := .none, lost := some (cause == 0x10, ver) }) 0 (.resultReturn tk rid))) ∧
      (lostAnswer s c core r q = none → exec (.rehashReply tk rid) s = .next (
        let s1 := adoptGen s c core
        later s1 (latency s1.cmap (routerOf core) (homeRouter s1 (genFor s1 c core) (q.locs.headD 0)))
          (.remoteRequest tk rid)))))

/-- R71, R84, R363: a SPAWN request places its child in an open slot of its resident core and answers 1, with none or behind a
waiting migrant answers 0, and waits while its core context is away; R74, R75, R85, R358: a migrant's record is taken by the
inbox of the core that holds its core context, or refused and sent again, and the acceptance frees the source slot; a migrant
is admitted to an open slot, and with no slot its launch's chains are asked to fold. R300 to R304: a walk that ends fills the
TLB and every thread that waits for the page goes on or faults. R352: a consumed error discards the thread; a slot whose
scrub ends is open again, and the Reeve and a service core start again; R353: a service core settles an ended task and starts
its next one. R306, R307: the prefetcher fetches the span of a second-tier page and hands a notice, or with an empty pool the
fault's task.
The model's choices it rests on: log 3, log 5, log 7, log 11, log 35, log 37, log 38, log 47 and log 51. -/
def Obligations.SlotEvents : Prop :=
  (∀ (tk rid : Nat) (s : State),
    (mget s.spawns rid = none → exec (.spawnRequest tk rid) s = .next s) ∧
    (∀ ch, mget s.spawns rid = some ch →
      let s0 := { s with spawns := mdel s.spawns rid }
      (getCC s ch.ctx ch.lcore = none → exec (.spawnRequest tk rid) s = .next s0) ∧
      (∀ cc, getCC s ch.ctx ch.lcore = some cc →
        (cc.cst ≠ .resident → exec (.spawnRequest tk rid) s =
          .next (holdAt s ch.ctx ch.lcore (.spawnRequest tk rid))) ∧
        (cc.cst = .resident → (((findRes (getT s tk) rid).bind (·.sentTo)).getD cc.phys) = cc.phys →
          let back := fun (s : State) (ok : Bool) => later (modT s tk fun t =>
            modRes t rid fun r => { r with vals := valsOf r.dst 0 ok, wait := .none })
            (coreLat s cc.phys (coreOf tk)) (.resultReturn tk rid)
          (∀ k, migrantWaits s cc.phys ch.ctx = false → openSlot s cc.phys ch.ctx ch.lcore = some k →
            exec (.spawnRequest tk rid) s = .next (back (placeThread s0 k ch) true)) ∧
          (migrantWaits s cc.phys ch.ctx = true ∨ openSlot s cc.phys ch.ctx ch.lcore = none →
            exec (.spawnRequest tk rid) s =
              .next (back (later s0 0 (.chainFold ch.ctx (65536 + cc.phys))) false)))))) ∧
  (∀ (tk a b : Nat) (s : State) (t : Thread), mget s.threads tk = some t →
    ((slotAt s tk).occ ≠ .used ∨ dying s t.ctx = true → exec (.uncorrectableConsumed tk a b) s = .next s) ∧
    ((slotAt s tk).occ = .used → dying s t.ctx = false →
      let core := coreOf tk
      let s2 := pushTask (discardThread s tk) (dieOf (routerOf core))
        { code := 0x32, g1 := BitVec.ofNat 64 (t.ctx + core % 4096 * 65536), g2 := BitVec.ofNat 64 a, g3 := BitVec.ofNat 64 b }
      (isCompute core = true → exec (.uncorrectableConsumed tk a b) s = .next s2) ∧
      (∀ d, isCompute core = false → core = 0x800 + d → d < 4 → exec (.uncorrectableConsumed tk a b) s = .next (later
        (setQuad s2 d { quadAt s2 d with task := (quadAt s2 d).task.map fun k => { k with ended := some 0x80 } }) 1
        (.taskStart d))))) ∧
  (∀ (tk : Nat) (s : State),
    let cl := coreOf tk / 8
    let mine := (clusterAt s cl).walks.find? fun w => w.1 == tk
    (mine = none → exec (.tlbWalk tk) s = .next s) ∧
    (∀ k c va, mine = some (k, c, va) →
      let all := walkers s cl c (pageOf va)
      let s1 := countCorrected s (walkReads s c va)
      (∀ pa w x cow, walk s1 c va = .ok pa w x cow → exec (.tlbWalk tk) s =
        .next (freeWalker (all.foldl endWalk (tlbFill s1 cl (entryOf s1 c va pa w x cow))) cl (k, c, va))) ∧
      ((∀ pa w x cow, walk s1 c va ≠ .ok pa w x cow) →
        exec (.tlbWalk tk) s = .next (freeWalker (all.foldl endWalk s1) cl (k, c, va))))) ∧
  (∀ (tk l k : Nat) (s : State) (cc : CoreCtx), (getT s tk).block = .leaving l k →
    (getCC s (getT s tk).ctx l = some cc →
      (cc.cst ≠ .resident →
        exec (.migrantArrive tk) s = .next (holdAt s (getT s tk).ctx l (.migrantArrive tk))) ∧
      (cc.cst = .resident → k ≠ cc.phys → exec (.migrantArrive tk) s = .next (later
        (setT s tk { getT s tk with block := .leaving l cc.phys }) (recLatency s.cmap (routerOf k) (routerOf cc.phys))
        (.migrantArrive tk))) ∧
      (cc.cst = .resident → k = cc.phys → (coreAt s cc.phys).inbox.length < 16 →
        exec (.migrantArrive tk) s = .next (
          let t := getT s tk
          let s1 := setCore s cc.phys { coreAt s cc.phys with
            inbox := (coreAt s cc.phys).inbox ++ [{ src := tk, th := { t with block := .free, lcore := l }, acc := true }] }
          later (later (checkBars (setT s1 tk (ghost l k)) t.ctx) (coreLat s cc.phys (coreOf tk))
            (.migrantAccepted (addressOf s tk))) 0 (.inboxAdmit cc.phys))) ∧
      (cc.cst = .resident → k = cc.phys → 16 ≤ (coreAt s cc.phys).inbox.length →
        let n := recLatency s.cmap (routerOf (coreOf tk)) (routerOf cc.phys)
        exec (.migrantArrive tk) s =
          .next (later s (64 * ceilDiv (n + coreLat s cc.phys (coreOf tk)) 64 - n) (.migrantRetry tk)))) ∧
    exec (.migrantRetry tk) s =
      .next (later s (recLatency s.cmap (routerOf (coreOf tk)) (routerOf k)) (.migrantArrive tk))) ∧
  (∀ (dest l k : Nat) (s : State) (t : Thread),
    let tk := msgSlot dest
    let stmp := msgStamp dest
    mget s.threads tk = some t → t.block = .leaving l k →
    let mine := (slotAt s tk).past.head?.any fun e => e.2 == stmp / 256
    (t.ctx = 0 → mine = true → (slotAt s tk).gen.toNat = stmp % 256 →
      exec (.migrantAccepted dest) s = .next (freeSlot s tk)) ∧
    (t.ctx ≠ 0 ∨ mine = false ∨ (slotAt s tk).gen.toNat ≠ stmp % 256 →
      exec (.migrantAccepted dest) s = .next s)) ∧
  (∀ (core : Nat) (s : State),
    let fits := fun (m : Mig) => (openSlot s core m.th.ctx m.th.lcore).isSome
    (∀ m rest k, takeFirst fits (coreAt s core).inbox = some (m, rest) → openSlot s core m.th.ctx m.th.lcore = some k →
      let s1 := placeThread (setCore s core { coreAt s core with inbox := rest }) k { m.th with idemPc := m.th.pc }
      (rest = [] → exec (.inboxAdmit core) s = .next s1) ∧
      (rest ≠ [] → exec (.inboxAdmit core) s = .next (later s1 0 (.inboxAdmit core)))) ∧
    (takeFirst fits (coreAt s core).inbox = none → exec (.inboxAdmit core) s =
      .next ((coreAt s core).inbox.foldl (fun s m => askFolds s m.th.ctx core) s))) ∧
  (∀ (tk : Nat) (s : State),
    let c := (slotAt s tk).ctx
    let s1 := freeSlot s tk
    ((slotAt s tk).occ ≠ .scrub → exec (.slotScrubComplete tk) s = .next s) ∧
    ((slotAt s tk).occ = .scrub →
      (coreOf tk = 0x804 → exec (.slotScrubComplete tk) s = .next (placeThread s1 tk (firmwareThread s1 0x804))) ∧
      (coreOf tk ≠ 0x804 → isCompute (coreOf tk) = false →
        exec (.slotScrubComplete tk) s = .next (later s1 1 (.taskStart (coreOf tk - 0x800)))) ∧
      (isCompute (coreOf tk) = true → coreOf tk ≠ 0x804 →
        (c = 0 → exec (.slotScrubComplete tk) s = .next s1) ∧
        (c ≠ 0 → exec (.slotScrubComplete tk) s = .next (checkLast (checkBars s1 c) c))))) ∧
  (∀ (d : Nat) (s : State),
    (∀ k st, (quadAt s d).task = some k → k.ended = some st →
      let s1 := endTask s d k st
      ((quadAt s1 d).task = none → mget s1.threads (tkOf (0x800 + d) 0) = none →
        exec (.taskStart d) s = .next (startTask s1 d)) ∧
      (((quadAt s1 d).task.isSome || (mget s1.threads (tkOf (0x800 + d) 0)).isSome) = true →
        exec (.taskStart d) s = .next s1)) ∧
    ((quadAt s d).task = none →
      (mget s.threads (tkOf (0x800 + d) 0) = none → exec (.taskStart d) s = .next (startTask s d)) ∧
      ((mget s.threads (tkOf (0x800 + d) 0)).isSome = true → exec (.taskStart d) s = .next s)) ∧
    (∀ k, (quadAt s d).task = some k → k.ended = none → exec (.taskStart d) s = .next s)) ∧
  (∀ (c va : Nat) (s : State) (q : Fetching),
    s.fetches.find? (fun f => f.ctx == c && f.page == pageOf va) = some q →
    let s0 := { s with fetches := s.fetches.filter fun f => !(f.ctx == c && f.page == pageOf va) }
    (walk s0 c va ≠ .second →
      exec (.prefetch c va) s = .next (wakeFaults s0 c fun page cause => page == pageOf va && cause == 0x30)) ∧
    (∀ e, walk s0 c va = .second → pagedRange s0 c va = some e →
      let base := nbits e 119 80
      let p := pageOf va - base
      let m := nbits e 79 40 + 1
      let sp := prefetchSpan s0 e m p (nbits (ctxD s0 c).tpref.toNat 3 0) (nbits (ctxD s0 c).tpref.toNat 7 4) 1
      let ks := p :: ((List.range sp).map (p / sp * sp + ·)).filter fun k =>
        k != p && (decide (k < m) && nbits (pteAt s0 e k) 63 63 == 0 && nbits (pteAt s0 e k) 2 2 == 1)
      let got := fetchPages c e base ks s0 0
      let waits := shotWaits s0 (some c) (ks.map fun k => (base + k, 1))
      (waits = true → exec (.prefetch c va) s = .next (later s 1 (.prefetch c va))) ∧
      (waits = false → got.2 = 0 → exec (.prefetch c va) s = .next (taskFor s0 q.die c q.core va 0x30 (q.flags / 16 * 16 + 4))) ∧
      (waits = false → got.2 ≠ 0 → exec (.prefetch c va) s = .next (pushTask
        (ks.foldl (fun s k => wakeFaults s c fun page cause => page == base + k && cause == 0x30) got.1) q.die
        { code := 0x20, g1 := BitVec.ofNat 64 c, g2 := BitVec.ofNat 64 (pageOf va * 65536), g3 := BitVec.ofNat 64 got.2 }))))

/-- R154, R378: a host write takes its bytes line by line in the order of its path, and a host read is answered with the bytes
it reads; R186: a full barrier releases its waits; R189, R190, R262, R358, R375: an arrival waits for a core context that is
away, follows one that has moved, and is added to its barrier word at its clock's end in the order of the clock's arrivals,
releases its view and wakes the waiters of a flip; R221: a link value joins its queue, and one for a
core context that is away waits; R381: a doorbell acts once it heads every path, moves its queue's TAIL or sets ERR; R380: EN
resets its queue's block; R7, R379: a write of a host register has the effect of that register, any other none.
The model's choices it rests on: log 3, log 5, log 7, log 37, log 38, log 39, log 44 and log 47. -/
def Obligations.MemoryAndHostEvents : Prop :=
  (∀ (path off : Nat) (data : List Byte) (rest : List HostReq) (s : State),
    mgetD s.hpaths path [] = .write off data :: rest →
    let s1 := { s with hpaths := mset s.hpaths path rest }
    (hostOpen s = false → exec (.hostWrite path) s = .next s1) ∧
    (hostOpen s = true → hostPath s off ≠ path →
      exec (.hostWrite path) s = .next (pushHost s1 (hostPath s off) (.write off data))) ∧
    (hostOpen s = true → hostPath s off = path →
      let n := min data.length (256 - off % 256)
      let s2 := (sectorCells (((locsFrom off n).zip data).filter fun c => decide (c.1 < hbmBytes s.cmap))).foldl
        (fun s w => (append s w none).2) s1
      (data.length ≤ n → exec (.hostWrite path) s = .next s2) ∧
      (n < data.length → exec (.hostWrite path) s = .next (later
        (restHost s2 path (off + n) (data.length - n) (.write (off + n) (data.drop n))) 0
        (.hostWrite (hostPath s (off + n))))))) ∧
  (∀ (path off len : Nat) (rest : List HostReq) (s : State),
    let s1 := { s with hpaths := mset s.hpaths path rest }
    (mgetD s.hpaths path [] = .read off len :: rest →
      (hostOpen s = true → hostPath s off ≠ path →
        exec (.hostRead path) s = .next (pushHost s1 (hostPath s off) (.read off len))) ∧
      (hostOpen s = false ∨ hostPath s off = path →
        let n := min len (256 - off % 256)
        let s2 := { s1 with hreads := s.hreads ++ [(locsFrom off n).map (bar2Byte s)] }
        (len ≤ n → exec (.hostRead path) s = .next s2) ∧
        (n < len → exec (.hostRead path) s = .next (later (restHost s2 path (off + n) (len - n) (.read (off + n) (len - n))) 0
          (.hostRead (hostPath s (off + n))))))) ∧
    (mgetD s.hpaths path [] = .reg off len :: rest → exec (.hostRead path) s =
      .next { s1 with hreads := s.hreads ++ [(locsFrom off len).map (bar0Byte s)] })) ∧
  (∀ (c set : Nat) (s : State),
    let b := barAt s c set
    (b.full.isSome = false → exec (.barRelease c set) s = .next s) ∧
    (b.full.isSome = true → exec (.barRelease c set) s = .next (
      let s1 := setBar s c set { phase := !b.phase, arrived := [], full := none }
      let s2 := b.arrived.foldl (fun s tk =>
        if (getT s tk).ctx = c then
          (waitsWhere (getT s tk) (· == .bar set)).foldl
            (fun s r => finishWait s tk r.id (valsOf r.dst 0 true) evBPH none 0) (latch s tk evBPH)
        else s) s1
      latchSaved s2 (fun key k _ => b.arrived.contains (savedKey (key / 4096) (key % 4096) k)) evBPH))) ∧
  (∀ (loc n aid : Nat) (s : State),
    (mget s.arrivals aid = none → exec (.barrierArrival loc n aid) s = .next s) ∧
    (∀ a, mget s.arrivals aid = some a →
      (lostShare s loc = true → exec (.barrierArrival loc n aid) s = .next { s with arrivals := mdel s.arrivals aid }) ∧
      (lostShare s loc = false → heldShare s loc = true → exec (.barrierArrival loc n aid) s =
        .next (holdAt s (sramKey loc / 4096) (sramKey loc % 4096) (.barrierArrival loc n aid))) ∧
      let home := sramCore s loc
      (lostShare s loc = false → heldShare s loc = false → a.sentTo ≠ home → exec (.barrierArrival loc n aid) s =
        .next (later { s with arrivals := mset s.arrivals aid { a with sentTo := home } } (coreLat s a.sentTo home)
          (.barrierArrival loc n aid))) ∧
      let come := lostShare s loc = false ∧ heldShare s loc = false ∧ a.sentTo = home
      (come → a.late = false → exec (.barrierArrival loc n aid) s = .next { s with
        arrivals := mset s.arrivals aid { a with late := true }, ends := s.ends ++ [.barrierArrival loc n aid] }) ∧
      (come → a.late = true → arrivalWaits s loc a = true →
        exec (.barrierArrival loc n aid) s = .next { s with ends := s.ends ++ [.barrierArrival loc n aid] }) ∧
      (come → a.late = true → arrivalWaits s loc a = false →
        let w := arriveVal (barWord s loc) a.bytes
        let p := append { s with arrivals := mdel s.arrivals aid } ((locsFrom loc 8).zip (bytesLE 8 w.1)) none
        let s2 := { p.2 with
          rels := mset p.2.rels loc ((mgetD p.2.rels loc {}).join a.view)
          vers := mset p.2.vers loc (mgetD p.2.vers loc 0 + 1) }
        let s3 := if w.2 then flipWake s2 loc else s2
        (findRes (getT s3 a.tk) a.rid = none → exec (.barrierArrival loc n aid) s = .next s3) ∧
        ((findRes (getT s3 a.tk) a.rid).isSome = true → exec (.barrierArrival loc n aid) s = .next (
          let s4 := modT s3 a.tk fun t => { t with view := t.view.raises (locsFrom loc 8) p.1 }
          later s4 (if sramCore s loc = coreOf a.tk then 3 else awayLat s4 a.tk loc) (.resultReturn a.tk a.rid)))))) ∧
  (∀ (c l e v : Nat) (s : State),
    (getCC s c l = none → exec (.linkValueArrive c l e v) s = .next s) ∧
    (∀ cc, getCC s c l = some cc →
      (cc.cst = .resident → exec (.linkValueArrive c l e v) s = .next (serveLink 1 64 c l (e == 1)
        (setCC s c l (setLinkQ cc (e == 1) (linkQ cc (e == 1) ++ [BitVec.ofNat 64 v]))))) ∧
      (cc.cst ≠ .resident → exec (.linkValueArrive c l e v) s = .next (holdLink s c l e v)))) ∧
  (∀ (q v : Nat) (s s1 : State),
    let b := qblkAt s1 q
    let tail : W32 := BitVec.ofNat 32 v
    let step := (tail - b.tail).toNat
    let ls := (List.range 4).map fun p => mgetD s.hpaths p []
    let heads := ls.all fun l => l.head? == some (.bell q v)
    (ls.all (· == []) = true ∧ s1 = s ∨ ls.all (· == []) = false ∧ heads = true ∧ s1 = (List.range 4).foldl (fun s p =>
        { s with hpaths := mset s.hpaths p ((mgetD s.hpaths p []).drop 1) }) s →
      (hostOpen s1 = false ∨ b.en = false ∨ b.td ≠ 0 ∨ b.err = true ∨ 8192 ≤ q ∨ step = 0 ∨ 2 ^ 31 ≤ step →
        exec (.doorbell q v) s = .next s1) ∧
      (hostOpen s1 = true → b.en = true → b.td = 0 → b.err = false → q < 8192 → step ≠ 0 → step < 2 ^ 31 →
        (2 ^ b.log2 < (tail - b.head).toNat →
          exec (.doorbell q v) s = .next (setQblk s1 q { b with err := true, errAt := some s1.clock })) ∧
        ((tail - b.head).toNat ≤ 2 ^ b.log2 → exec (.doorbell q v) s = .next (
          let d := takeDelay (raiseInt (setQblk s1 q { b with
            tail := tail, marks := b.marks ++ [(tail.toNat, s1.clock)] }) (0x800 + b.sc) 2) 65536
          later d.2 d.1 (.packetTake q))))) ∧
    (ls.all (· == []) = false → heads = false →
      let stands := ls.all fun l => l.contains (.bell q v)
      (stands = true → exec (.doorbell q v) s = .next (later s 1 (.doorbell q v))) ∧
      (stands = false → exec (.doorbell q v) s = .next (later (pushBell s q v) 1 (.doorbell q v))))) ∧
  (∀ (q : Nat) (s : State),
    (hostOpen s = true → (qblkAt s q).en = false → q < 8192 → exec (.queueEnable q) s =
      .next (setQblk s q { qblkAt s q with en := true, head := 0, tail := 0, marks := [], td := 0 })) ∧
    (hostOpen s = false ∨ (qblkAt s q).en = true ∨ 8192 ≤ q → exec (.queueEnable q) s = .next s)) ∧
  (∀ (a v : Nat) (s : State),
    (hostOpen s = false → exec (.registerWrite a v) s = .next s) ∧
    (hostOpen s = true →
      (0x100000 ≤ a → a < 0x180000 → exec (.registerWrite a v) s =
        .next (writeQblk s ((a - 0x100000) / 64) (a % 64) (BitVec.ofNat 64 v))) ∧
      (0x200000 ≤ a → a < 0x210000 → exec (.registerWrite a v) s = .next (later
        (pushBell s ((a - 0x200000) / 8) v) 0 (.doorbell ((a - 0x200000) / 8) v))) ∧
      (0x300000 ≤ a → a < 0x302000 → exec (.registerWrite a v) s =
        .next (writeGang s ((a - 0x300000) / 32) (a % 32) (BitVec.ofNat 64 v))) ∧
      (a < 0x100000 ∨ 0x180000 ≤ a ∧ a < 0x200000 ∨ 0x210000 ≤ a ∧ a < 0x300000 ∨ 0x302000 ≤ a →
        exec (.registerWrite a v) s = .next s)))

/-- R152, R258, R392: the job at a queue's head starts, alone or with a collective's peers, a copy sharing the cluster's copy
unit; one behind a FENCE first settles the drains it owes (R162); R152, R253: a running job takes its steps and completes,
its event reaches its slot or is dropped (R83), and an error ends it with its cause and the flags raised; R255: a page fault
hands its task and stalls the queue; R244: the load that a tile fills by makes it ready; R245: a tile store's rows that are
due are appended, but for those a kill discards (R366), and with none left it ends.
The model's choices it rests on: log 3, log 5, log 7, log 20, log 33, log 35, log 41 and log 47 (an event whose slot no
longer holds a thread of the context). -/
def Obligations.JobEvents : Prop :=
  (∀ (q : Nat) (s : State) (j : Job) (rest : List QEnt),
    headWaits s (queueAt s q) = true → (queueAt s q).ents = .job j :: rest →
    (startsAlone j = false → exec (.jobStart q) s = .next s) ∧
    (startsAlone j = true → settleOwed s j = none → exec (.jobStart q) s = .next (later s 1 (.jobStart q))) ∧
    (j.owes = [] → settleOwed s j = some (s, j)) ∧
    (∀ s1 j1, settleOwed s j = some (s1, j1) →
      let run := fun (s2 : State) (j2 : Job) => setQueue s2 q { queueAt s1 q with
        ents := .job { j2 with view := j2.view.join (queueAt s1 q).last } :: rest, running := true }
      (∀ dst src rows rb ds ss w, startsAlone j = true → j1.kind = .copy dst src rows rb ds ss w →
        let n := copySectors dst rows rb ds
        (n = 0 → exec (.jobStart q) s = .next (later (run s1 j1) 0 (.jobComplete q j1.id 0))) ∧
        (n ≠ 0 → exec (.jobStart q) s = .next (
          let d := takeDelay s1 4096
          let s2 := run d.2 { j1 with lat := 20 + d.1 }
          setCopies s2 (q / 5) ((copiesNow s2 (q / 5)).filter (fun e => e.1 != q) ++ [(q, n)])))) ∧
      (startsAlone j = true → (∀ dst src rows rb ds ss w, j1.kind ≠ .copy dst src rows rb ds ss w) →
        (∀ f dst src gn gm p, j1.kind ≠ .coll f dst src gn gm p) →
        let n := jobClocks s1 q j1
        exec (.jobStart q) s = .next (later (run s1 { j1 with left := n, since := s1.clock }) (stretch s1 (q / 5) n)
          (.jobComplete q j1.id 0))) ∧
      (∀ f dst src gn gm p, j1.kind = .coll f dst src gn gm p →
        (startsAlone j = true → exec (.jobStart q) s = .next (
          let d := takeDelay s1 4096
          later (run d.2 j1) (jobClocks s1 q j1 + d.1) (.jobComplete q j1.id 0))) ∧
        (∀ peers, q = qclKey → j.kind = .coll f dst src gn gm p →
          let j2 := { j1 with kind := JobKind.coll f dst src gn gm (some peers) }
          exec (.collectiveStart peers) s = .next (
            let d := takeDelay s1 4096
            later (run d.2 j2) (jobClocks s1 q j2 + d.1) (.jobComplete q j1.id 0)))))) ∧
  (∀ (q : Nat) (s : State), headWaits s (queueAt s q) = false →
    exec (.jobStart q) s = .next s ∧ ∀ peers, q = qclKey → exec (.collectiveStart peers) s = .next s) ∧
  (∀ (q jid : Nat) (s : State) (j : Job), runningJob s q = some j →
    (j.id ≠ jid → exec (.jobComplete q jid 0) s = .next s) ∧
    (j.id = jid →
      (∀ s1 v fl, performJob s q j j.view = .done s1 v fl none →
        exec (.jobComplete q jid 0) s = .next (finishJob s1 q j v fl none)) ∧
      (∀ s1 v fl c a, performJob s q j j.view = .done s1 v fl (some (c, a)) →
        exec (.jobComplete q jid 0) s = .next (later (setQueue s1 q { queueAt s1 q with
          ents := .job { j with view := v, fl := fl } :: (queueAt s1 q).ents.drop 1 }) 0 (.jobFault q (c + 256 * a)))) ∧
      (∀ a b c d, performJob s q j j.view = .stall a b c d →
        exec (.jobComplete q jid 0) s = .next (later s 0 (.jobFault q 0)))) ∧
    (∀ err, err ≠ 0 →
      exec (.jobFault q err) s = .next (finishJob s q j j.view j.fl (some (err % 256, err / 256)))) ∧
    (∀ va cause reason w, performJob s q j j.view = .stall va cause reason w →
      exec (.jobFault q 0) s = .next (
        let s1 := handFault s (dieOf (if q = qclKey then 0 else q / 5)) j.ctx 0xFFF va cause
          (reason + 1024 + (if w then 256 else 0))
        setQueue s1 q { queueAt s1 q with running := false, stalled := some (j.ctx, pageOf va, cause) })) ∧
    (∀ s1 v fl e, performJob s q j j.view = .done s1 v fl e →
      exec (.jobFault q 0) s = .next (later s 0 (.jobComplete q j.id 0)))) ∧
  (∀ (q jid err : Nat) (s : State), runningJob s q = none →
    exec (.jobComplete q jid 0) s = .next s ∧ exec (.jobFault q err) s = .next s) ∧
  (∀ (c jid tk : Nat) (gen : Nat) (s : State), gen < 256 →
    ((slotAt s tk).gen.toNat = gen → (getT s tk).ctx = c → (slotAt s tk).occ = .used →
      exec (.jobComplete c jid (1 + 256 * tk + gen)) s = .next (latch s tk evJOB)) ∧
    ((slotAt s tk).gen.toNat ≠ gen ∨ (getT s tk).ctx ≠ c ∨ (slotAt s tk).occ ≠ .used →
      exec (.jobComplete c jid (1 + 256 * tk + gen)) s = .next (countDrop s c))) ∧
  (∀ (tl op : Nat) (s : State),
    ((tileAt s tl).st = .filling → (tileAt s tl).load = op →
      exec (.tileLoadComplete tl op) s = .next (setTile s tl { tileAt s tl with st := .ready 0 })) ∧
    ((tileAt s tl).st ≠ .filling ∨ (tileAt s tl).load ≠ op → exec (.tileLoadComplete tl op) s = .next s)) ∧
  (∀ (tl op : Nat) (s : State),
    (mget s.tileOps op = none → exec (.tileStoreComplete tl op) s = .next s) ∧
    (∀ o, mget s.tileOps op = some o →
      let rest := o.rows.filter fun r => decide (s.clock < r.1)
      let due := (o.rows.filter fun r => decide (r.1 ≤ s.clock)).flatMap fun r => sectorCells r.2
      let w := appendAll s o.view (due.filter fun w => !discardedCells s o.ctx (o.tile / 16) w)
      (rest = [] → o.fin ≤ s.clock → exec (.tileStoreComplete tl op) s = .next (later
        (modHolder (dropReader { w.1 with tileOps := mdel w.1.tileOps op } o.tile) o.tk o.rid fun t =>
          modRes t o.rid fun r => { r with wait := .none, join := some w.2 }) 0 (.resultReturn o.tk o.rid))) ∧
      (rest ≠ [] ∨ s.clock < o.fin → exec (.tileStoreComplete tl op) s = .next (laterAt
        { w.1 with tileOps := mset w.1.tileOps op { o with rows := rest, view := w.2 } }
        ((rest.head?.map (·.1)).getD o.fin) (.tileStoreComplete tl op)))))

/-- R268, R273, R274: a head that arrives settles three clocks later and then serves its track's queue; R270, R271, R279, R286:
the oldest request is granted when its tracks are free, and a HOLD.W of it completes; R282, R284, R287: the access at the head
of its tracks' queues is performed when due. R333, R319: an item joins its consumer's queue one message latency after its
acceptance, and a waiting GET returns four clocks later; R318: a PUT whose turn comes goes on; R324, R325, R327: folds, once
their threads' held requests are performed, and spreads take place when they may; R329: a chain whose replicas have all quit
writes its completion word and is removed. R341, R343: a stream word opens its route at a free port or joins it, latching STRM
for its context, and a port that is freed takes the oldest waiting route.
The model's choices it rests on: log 3, log 5, log 7, log 10, log 16, log 33, log 39 and log 41. -/
def Obligations.TrackAndChainEvents : Prop :=
  (∀ (k : Nat) (s : State),
    ((trackAt s k).wait = [] → exec (.leaseGrant k) s = .next s) ∧
    (∀ r rest, (trackAt s k).wait = r :: rest →
      (grantable s r = true →
        let s1 := r.gang.foldl (fun s k => grantTrack s r k) s
        (r.held = true → exec (.leaseGrant k) s =
          .next (meetOthers (endHold s1 r) r.ctx r.gang)) ∧
        (r.held = false → exec (.leaseGrant k) s = .next (meetOthers s1 r.ctx r.gang))) ∧
      (grantable s r = false →
        (r.gang.any (trackRetiring s) = true → exec (.leaseGrant k) s = .next (later s 1 (.leaseGrant k))) ∧
        (r.gang.any (trackRetiring s) = false → exec (.leaseGrant k) s = .next s)))) ∧
  (∀ (k : Nat) (s : State),
    ((trackAt s k).move = none → exec (.seekComplete k) s = .next s) ∧
    (∀ m, (trackAt s k).move = some m →
      (moveEnd m ≤ s.clock → exec (.seekComplete k) s = .next (later (setTrack s k { trackAt s k with
        head := m.dest, move := none, lost := false, settled := s.clock + 3 }) 3 (.headSettle k))) ∧
      (s.clock < moveEnd m → exec (.seekComplete k) s = .next s))) ∧
  (∀ (k : Nat) (s : State),
    let t := trackAt s k
    (t.move = none → t.lost = false → t.settled = s.clock →
      (verdict t = .fine → exec (.headSettle k) s =
        .next (serveTrack 64 (setTrack s k { t with settled := s.clock, reread := false }) k)) ∧
      (∀ sl, verdict t = .corrected sl →
        let s1 := { s with reeve := { s.reeve with shifts := s.reeve.shifts + 1 } }
        let t1 := { t with settled := s.clock + 3, misfix := false, reread := t.misfix, herr := min 255 (t.herr + 1) }
        (t.misfix = false → exec (.headSettle k) s = .next (serveTrack 64 (setTrack s1 k { t1 with slip := sl }) k)) ∧
        (t.misfix = true → exec (.headSettle k) s =
          .next (serveTrack 64 (later (setTrack s1 k t1) 3 (.headSettle k)) k))) ∧
      (verdict t = .lost → exec (.headSettle k) s = .next (serveTrack 64 (trkErr s k) k))) ∧
    (t.move.isSome = true ∨ t.lost = true ∨ t.settled ≠ s.clock → exec (.headSettle k) s = .next s)) ∧
  (∀ (k : Nat) (s : State),
    ((trackAt s k).acc = [] → exec (.cursorStep k) s = .next s) ∧
    (∀ a rest, (trackAt s k).acc = a :: rest →
      let settling := (a.gang.any fun k => unsettled (trackAt s k) || (trackAt s k).head != accHead s a) ||
        decide (s.clock < accDue s a)
      (accFirst s a = false → exec (.cursorStep k) s = .next s) ∧
      (accFirst s a = true → needsHead a = false ∨ settling = true →
        exec (.cursorStep k) s = .next (serveTrack 64 s k)) ∧
      (accFirst s a = true → needsHead a = true → settling = false → exec (.cursorStep k) s =
        .next (a.gang.foldl (fun s k => serveTrack 64 s k) (performAcc (dropAcc s a) a))))) ∧
  (∀ (c n st rp : Nat) (s : State),
    (chainOf s c n = none → exec (.itemArrive c n st rp) s = .next s) ∧
    (∀ ch, chainOf s c n = some ch →
      let q := chQueue ch (st - 1)
      let d := landDue s.clock (mgetD q.items rp []) (mgetD q.flying rp [])
      let s1 := setChain s c (setChQueue ch (st - 1) { q with
        flying := mset q.flying rp d.2, items := mset q.items rp d.1 })
      ((repOf ch st rp).bind (·.tk) = none ∨ ch.folded = true → exec (.itemArrive c n st rp) s = .next s1) ∧
      (∀ tk, (repOf ch st rp).bind (·.tk) = some tk → ch.folded = false →
        let s2 := latch s1 tk evCHQ
        let ready := ((chainOf s2 c n).map fun ch' => getReady s2 c ch' st rp).getD false
        (∀ g, (getT s2 tk).res.find? isGetWait = some g → ready = true →
          exec (.itemArrive c n st rp) s = .next (later s2 4 (.resultReturn tk g.id))) ∧
        ((getT s2 tk).res.find? isGetWait = none ∨ ready = false →
          exec (.itemArrive c n st rp) s = .next s2)))) ∧
  (∀ (now : Nat) (here fl : List Item) (it : Item),
    landDue now here [] = (here, []) ∧
    (it.due ≤ now → landDue now here (it :: fl) = landDue now (here ++ [it]) fl) ∧
    (now < it.due → landDue now here (it :: fl) = (here, it :: fl))) ∧
  (∀ (c n tk : Nat) (s : State) (ch : Chain) (r : Replica), chainOf s c n = some ch →
    ch.reps.find? (fun r => r.tk == some tk) = some r →
    (r.at_ = .atPut → (getT s tk).block = .inChain → (chQueue ch r.stage).p = r.rep → exec (.putAccept c n tk) s =
      .next (latch (modT s tk fun t => { t with block := .free }) tk evCHQ)) ∧
    (r.at_ ≠ .atPut ∨ (getT s tk).block ≠ .inChain ∨ (chQueue ch r.stage).p ≠ r.rep →
      exec (.putAccept c n tk) s = .next s)) ∧
  (∀ (c n : Nat) (s : State),
    (65536 ≤ n → exec (.chainFold c n) s = .next ((ctxD s c).chains.foldl (fun s ch =>
      if ch.auto ∧ !ch.folded ∧ stageOn ch (n - 65536) then requestFold s c ch false else s) s)) ∧
    (n < 65536 →
      (∀ ch, chainOf s c n = some ch → foldReady s ch = true →
        let ts := ch.reps.filterMap (·.tk)
        let s1 := requestsNow s ts
        (requestLeft s1 ts = true → exec (.chainFold c n) s = .next (later s1 1 (.chainFold c n))) ∧
        (∀ ch1, requestLeft s1 ts = false → chainOf s1 c n = some ch1 →
          exec (.chainFold c n) s = .next (foldNow s1 c ch1))) ∧
      (chainOf s c n = none ∨ (∃ ch, chainOf s c n = some ch ∧ foldReady s ch = false) →
        exec (.chainFold c n) s = .next s))) ∧
  (∀ (c n tk : Nat) (s : State) (ch : Chain), chainOf s c n = some ch → ch.folded = true → ch.spreadP = true →
    ch.reps.findSome? (·.tk) = some tk →
    let may := decide ((getT s tk).block = .inChain ∧ (getT s tk).res = [] ∧
      (waitingFrames ch).length ≤ freeSlots s c)
    (∀ s1, may = true → doSpread s c ch tk = some s1 → exec (.chainSpread c n) s =
      .next (modT s1 tk fun t => { t with block := .free })) ∧
    (may = false ∨ doSpread s c ch tk = none → exec (.chainSpread c n) s = .next s)) ∧
  (∀ (c n : Nat) (s : State) (ch : Chain), chainOf s c n = some ch →
    let free := decide ((ch.reps.filter fun r => !r.quit).length ≤ freeSlots s c)
    (ch.auto = false ∨ ch.folded = false ∨ ch.foldR = true → exec (.autoSpreadRequest c n) s = .next s) ∧
    (ch.auto = true → ch.folded = true → ch.foldR = false →
      (free = false → exec (.autoSpreadRequest c n) s =
        .next (later (setChain s c { ch with freeFrom := none }) 1 (.autoSpreadRequest c n))) ∧
      (free = true → s.clock < ch.freeFrom.getD s.clock + 65535 → exec (.autoSpreadRequest c n) s = .next (later
        (setChain s c { ch with freeFrom := some (ch.freeFrom.getD s.clock) }) 1 (.autoSpreadRequest c n))) ∧
      (free = true → ch.freeFrom.getD s.clock + 65535 ≤ s.clock → exec (.autoSpreadRequest c n) s =
        .next (later (setChain s c { ch with spreadP := true, freeFrom := none }) 0 (.chainSpread c n))))) ∧
  (∀ (c n : Nat) (s : State) (ch : Chain), chainOf s c n = some ch →
    (ch.reps.all (·.quit) = false → exec (.chainComplete c n) s = .next s) ∧
    (ch.reps.all (·.quit) = true →
      let s1 := drainPending s c
      let x := ctxD s1 c
      let gone := fun (s2 : State) => later (modCtx
        (ch.ports.foldl (fun s e => later (modPort s e.1 e.2 fun p => { p with chain := false }) 0
          (.streamRouteAdmit e.1 e.2)) s2) c
        fun x => { x with chains := x.chains.filter fun e => e.id != n }) 0 (.launchComplete c)
      (ch.cmpl = 0 → exec (.chainComplete c n) s = .next (gone s1)) ∧
      (∀ s2, ch.cmpl ≠ 0 → postChain s1 c ch.cmpl 0x01 (ch.view.join x.all) = (s2, true) → exec (.chainComplete c n) s = .next (gone s2)) ∧
      (∀ s2, ch.cmpl ≠ 0 → postChain s1 c ch.cmpl 0x01 (ch.view.join x.all) = (s2, false) → exec (.chainComplete c n) s = .next (later s2 1 (.chainComplete c n))))) ∧
  (∀ (core p rt k : Nat) (q : Fin 4) (r : Route) (w : Vec × Bool) (fl : List (Vec × Bool)) (s : State),
    findRoute s core rt = some (k, q, r) → r.flying = w :: fl →
    let r1 := { r with arrived := true, words := r.words ++ [w], flying := fl }
    let x := portAt s k q
    let x1 := { x with coming := x.coming.filter fun x => x.id != rt }
    (r.arrived = true → exec (.streamWordArrive core p rt) s =
      .next (wordsIn (modPort s k q.val fun x => mapRoute x rt fun _ => r1) k q r.ctx)) ∧
    (r.arrived = false →
      (portFree x = true → exec (.streamWordArrive core p rt) s =
        .next (wordsIn (modPort s k q.val fun _ => { x1 with held := some r1 }) k q r.ctx)) ∧
      (portFree x = false → exec (.streamWordArrive core p rt) s =
        .next (wordsIn (modPort s k q.val fun _ => { x1 with waits := x1.waits ++ [r1] }) k q r.ctx)))) ∧
  (∀ (core p rt : Nat) (s : State), findRoute s core rt = none →
    exec (.streamWordArrive core p rt) s = .next (savedWord s rt)) ∧
  (∀ (core : Nat) (q : Fin 4) (s : State),
    let x := portAt s core q
    (∀ r more, x.waits = r :: more → x.held = none → x.chain = false → exec (.streamRouteAdmit core q.val) s =
      .next (feedPort (modPort s core q.val fun _ => { x with held := some r, waits := more }) core q)) ∧
    (x.waits = [] ∨ x.held.isSome = true ∨ x.chain = true → exec (.streamRouteAdmit core q.val) s = .next s))


/-- R49, R54 to R58, R355, R362, R365 to R367, R382, R387, R410: a packet that is taken is accepted, refused with its
status, handed as a task, or passed over, once the statuses its queue still owes are written as far as they can be; a waiting
launch starts where its room, its gang and its reservation allow, and
is voided where they never can; a launch whose last thread is gone completes with 0x01, or 0x82 where a thread was lost; a
victim is claimed, one of a core at a time; the packets of a queue under teardown settle with 0x80; a gang's boundary opens
an attempt, its reports come in, its members start when TIMER reaches the start value, and a missing report makes it late; a
kill's wave resets a router's cores, takes the context's jobs off its queues and what waits for it there, and discards its
packets for 256 clocks; its confirmation answers the killers at once, and the context ends once its statuses are written.
R357 to R364: a core context moves, is saved once it is still, and resumes in the first clock with room; a vacated core
forwards events until its entry ends, and an event that finds its thread saved is ORed into the saved EVT.
The model's choices it rests on: log 3, log 5, log 7, log 15, log 20, log 21, log 35, log 37, log 38, log 39 and log 47. -/
def Obligations.LaunchEvents : Prop :=
  (∀ (q : Nat) (s : State),
    let s1 := payOwed s q
    let b := qblkAt s1 q
    let takes := fun (t : State) => exec (.packetTake q) s =
      .next (if t.agenda.any (fun e => e.2 == .packetTake q) then t else oweNext t q (.packetTake q))
    (hostOpen s = false → exec (.packetTake q) s = .next s) ∧
    (hostOpen s = true →
      (pendingIn b = false → takes s1) ∧
      (pendingIn b = true → outbid s1 q b = true → takes (soon s1 1 (.packetTake q))) ∧
      (pendingIn b = true → outbid s1 q b = false →
        (pktVerdict s1 b = .waits → takes (soon s1 1 (.packetTake q))) ∧
        (pktVerdict s1 b = .accept → takes (acceptPacket s1 q b)) ∧
        (pktVerdict s1 b = .task true → takes (pushTask (takeHead s1 q 0) b.sc (packetTask q (packetAt s1 b)))) ∧
        (pktVerdict s1 b = .task false → takes (packetStatus (takeHead s1 q 0) q b 0x80)) ∧
        (∀ st, pktVerdict s1 b = .status st → takes (packetStatus (takeHead s1 q 0) q b st))))) ∧
  (∀ (c : Nat) (s : State) (x : Ctx), getCtx s c = some x →
    (x.run ≠ .waiting → exec (.launchStart c) s = .next s) ∧
    (x.run = .waiting → gangMay s x = false ∨ chosenCores s c x.pkt = none →
      exec (.launchStart c) s = .next (soon s 1 (.launchStart c))) ∧
    (∀ cores, x.run = .waiting → gangMay s x = true → chosenCores s c x.pkt = some cores →
      (launchVoid s x.pkt cores = true → exec (.launchStart c) s = .next (voidLaunch s c)) ∧
      (launchVoid s x.pkt cores = false → launchFits s c x.pkt cores = true →
        exec (.launchStart c) s = .next (startLaunch s c x.pkt cores)) ∧
      (launchVoid s x.pkt cores = false → launchFits s c x.pkt cores = false →
        exec (.launchStart c) s = .next (soon (askRoom s c x.pkt cores) 1 (.launchStart c))))) ∧
  (∀ (c : Nat) (s : State) (x : Ctx), getCtx s c = some x →
    (x.run = .waiting ∨ x.run = .dying ∨ lastGone s c = false → exec (.launchComplete c) s = .next s) ∧
    (x.run ≠ .waiting → x.run ≠ .dying → lastGone s c = true →
      (workLeft s c = true → exec (.launchComplete c) s = .next (later s 1 (.launchComplete c))) ∧
      (workLeft s c = false →
        let s1 := drainPending s c
        let word := if x.lost then 0x82 else 0x01
        (∀ s2, postCompletion s1 c word (ctxD s1 c).all = (s2, true) →
          exec (.launchComplete c) s = .next (releaseCtx s2 c)) ∧
        (∀ s2, postCompletion s1 c word (ctxD s1 c).all = (s2, false) →
          exec (.launchComplete c) s = .next (later s2 1 (.launchComplete c)))))) ∧
  (∀ (c core : Nat) (s : State) (x : Ctx), getCtx s c = some x →
    let claimed := (membersOn s core).any fun m =>
      m.2.2.claim == c && (m.2.2.cst != .resident || moveComing s m.1 m.2.1) && m.2.2.cst != .saved
    (x.run ≠ .waiting ∨ coreServes s c x.pkt core = true ∨ claimed = true ∨ victimOn s core (pktPrio x.pkt) = none →
      exec (.preempt c core) s = .next s) ∧
    (∀ m i, x.run = .waiting → coreServes s c x.pkt core = false → claimed = false →
      victimOn s core (pktPrio x.pkt) = some (m, i) →
      exec (.preempt c core) s = .next (later (modCC s m.1 m.2.1 fun cc => { cc with claim := c }) 0 i))) ∧
  (∀ (q : Nat) (s : State),
    let b := qblkAt s q
    let mine := (s.ctxs.filter fun e => e.2.queue == q && e.2.run != .dying).map (·.1)
    (hostOpen s = false ∨ 8192 ≤ q → exec (.queueDrain q) s = .next s ∧ exec (.queueAbort q) s = .next s) ∧
    (hostOpen s = true → q < 8192 →
      (b.td = 2 → exec (.queueDrain q) s = .next s ∧
        exec (.queueAbort q) s = .next (settlePackets s q (.queueAbort q))) ∧
      (b.td = 1 → exec (.queueAbort q) s = .next s) ∧
      (b.td ≠ 2 → exec (.queueDrain q) s =
        .next (settlePackets (setQblk s q { b with td := 1 }) q (.queueDrain q))) ∧
      (b.td ≠ 1 → b.td ≠ 2 → exec (.queueAbort q) s = .next (settlePackets (mine.foldl
        (fun s c => startKill s c 0x80 (routerOf (0x800 + b.sc)) []) (setQblk s q { b with td := 2 })) q (.queueAbort q))))) ∧
  (∀ (n p : Nat) (s : State),
    let g := gangAt s n
    let t := (timerNow s).toNat
    (n = 0 ∨ g.period = 0 → exec (.gangBoundary n) s = .next s ∧ exec (.gangReport n p) s = .next s ∧
      exec (.gangStart n) s = .next s ∧ exec (.gangGraceExpiry n) s = .next s) ∧
    (g.late = true → exec (.gangReport n p) s = .next s ∧ exec (.gangStart n) s = .next s ∧
      exec (.gangGraceExpiry n) s = .next s) ∧
    (n ≠ 0 → g.period ≠ 0 →
      (nextBoundary g t ≠ t → exec (.gangBoundary n) s = .next (schedGang s n t)) ∧
      (nextBoundary g t = t → exec (.gangBoundary n) s = .next (later (later (schedGang (setGang s n
        { g with bound := timerNow s, reports := [], late := false, due := none, startAt := none }) n (t + 1)) g.grace.toNat
          (.gangGraceExpiry n)) 0 (.gangReport n s.pkg))) ∧
      (g.late = false →
        let lack := (gangWaiting s n).filter fun e => match chosenCores s e.1 e.2.pkt with
          | some cores => !launchFits s e.1 e.2.pkt cores
          | none => true
        (g.reports.contains p = true → exec (.gangReport n p) s = .next s) ∧
        (g.reports.contains p = false → p ≠ s.pkg ∨ lack = [] → exec (.gangReport n p) s = .next (gangIn s n p)) ∧
        (g.reports.contains p = false → p = s.pkg → lack ≠ [] → exec (.gangReport n p) s =
          .next (soon (lack.foldl (fun s e => match chosenCores s e.1 e.2.pkt with
            | some cores => askRoom s e.1 e.2.pkt cores
            | none => s) s) 1 (.gangReport n p))) ∧
        (let early := g.startAt.any fun v => decide (t < v.toNat)
         (early = true → exec (.gangStart n) s = .next (schedStart s n)) ∧
         (early = false → exec (.gangStart n) s = .next ((gangWaiting s n).foldl (fun s e => soon s 0 (.launchStart e.1))
           (setGang s n { g with due := some (BitVec.ofNat 64 s.idCtr), startAt := none })))) ∧
        (t < g.bound.toNat + g.grace.toNat → exec (.gangGraceExpiry n) s = .next s) ∧
        (g.bound.toNat + g.grace.toNat ≤ t →
          ((gangMembers s g).find? (fun m => !(g.reports.contains m)) = none →
            exec (.gangGraceExpiry n) s = .next s) ∧
          (∀ m, (gangMembers s g).find? (fun m => !(g.reports.contains m)) = some m →
            exec (.gangGraceExpiry n) s = .next (pushTask (setGang s n { g with late := true }) (noticeDie s)
              { code := 0x24, g1 := BitVec.ofNat 64 n, g2 := BitVec.ofNat 64 m, g3 := g.bound })))))) ∧
  (∀ (c l p : Nat) (s : State) (cc : CoreCtx), getCC s c l = some cc → dying s c = false →
    (cc.cst = .resident →
      ((ctxD s c).saveBase = 0 → exec (.contextSave c l) s = .next s) ∧
      ((ctxD s c).saveBase ≠ 0 → exec (.contextSave c l) s =
        .next (later (modCC (stopCC s c l .saving) c l fun cc => { cc with saveAt := (ctxD s c).saveBase }) 0
          (.contextSave c l)))) ∧
    (cc.cst = .saving →
      (cc.saved.isSome = true → exec (.contextSave c l) s = .next (writeArea s c l)) ∧
      (cc.saved = none → quietCC s c l cc = true → exec (.contextSave c l) s =
        .next (later (takeOut s c l cc) (saveClocks (takeOut s c l cc) c l) (.contextSave c l))) ∧
      (cc.saved = none → quietCC s c l cc = false → exec (.contextSave c l) s =
        .next (later s 1 (.contextSave c l)))) ∧
    exec (.saveResume c l) s = .next (writeArea s c l) ∧
    (cc.cst ≠ .saved → exec (.contextResume c l) s = .next s) ∧
    (cc.cst = .saved → tryResume s c l false = none →
      exec (.contextResume c l) s = .next (later s 1 (.contextResume c l))) ∧
    (∀ s1 c1, cc.cst = .saved → tryResume s c l false = some s1 → getCC s1 c l = some c1 →
      (c1.cst ≠ .saved → exec (.contextResume c l) s = .next s1) ∧
      (c1.cst = .saved → exec (.contextResume c l) s = .next (later s1 1 (.contextResume c l)))) ∧
    let g := groupOf s (c, l, cc)
    (∀ seats, cc.target = none → p < 4096 →
      g.all (fun m => m.2.2.cst == .resident || m.2.2.cst == .saved) = true → roomFor s p g = some seats →
      exec (.liveMigration c l p) s = .next (later (startMoves s g seats) 0 (.liveMigration c l p))) ∧
    (cc.target = none → p < 4096 → roomFor s p g = none → exec (.liveMigration c l p) s = .next s) ∧
    (∀ t, cc.target = some t → p < 4096 → t.phys = p →
      (groupQuiet s g = true → exec (.liveMigration c l p) s =
        .next (later s (streamClocks s g p) (.liveMigration c l (p + 4096)))) ∧
      (groupQuiet s g = false → exec (.liveMigration c l p) s = .next (later s 1 (.liveMigration c l p))) ∧
      exec (.liveMigration c l (p + 4096)) s = .next (landGroup s g))) ∧
  (∀ (k c l tk p ev : Nat) (s : State),
    exec (.bermExpire k c l) s = .next (setCore s k { coreAt s k with berm := (coreAt s k).berm.filter fun e =>
      !(e.ctx == c && e.lcore == l && e.until_.any fun t => decide (t ≤ s.clock)) }) ∧
    let c1 := ev / 128 % 65536
    let gen := ev / (128 * 65536)
    let here := decide ((slotAt s tk).occ = .used ∧ (getT s tk).ctx = c1 ∧ (slotAt s tk).gen.toNat = gen)
    let kept := (ccsOf s c1).find? fun e => e.2.saved.any fun y => y.core == p && y.gens.getD (slotOf tk) 256 == gen
    (p ≠ coreOf tk →
      (forwards s p c1 (slotAt s tk).lcore = true → exec (.bermForward p tk ev) s =
        .next (later s (coreLat s p (coreOf tk)) (.bermForward (coreOf tk) tk ev))) ∧
      (forwards s p c1 (slotAt s tk).lcore = false → exec (.bermForward p tk ev) s = .next (countDrop s c1))) ∧
    (p = coreOf tk → here = true → exec (.bermForward p tk ev) s = .next (latch s tk (BitVec.ofNat 7 (ev % 128)))) ∧
    (p = coreOf tk → here = false →
      (kept = none → exec (.bermForward p tk ev) s = .next (countDrop s c1)) ∧
      (∀ l1 cc r, kept = some (l1, cc) → findIdx? (· == slotOf tk) (slotsIn cc.slots) = some r →
        exec (.bermForward p tk ev) s = .next (orSaved s c1 l1 r (BitVec.ofNat 7 (ev % 128)))))) ∧
  (∀ (c router : Nat) (s : State),
    (dying s c = false → exec (.sluiceArrive c router) s = .next s) ∧
    (dying s c = true →
      let held := (ccsOf s c).flatMap fun e => if routerOf e.2.phys = router then e.2.waiting else []
      let cores := (List.range 8).filter fun k => (ccsOf s c).any fun e =>
        e.2.phys == 8 * router + k || e.2.target.any fun t => t.phys == 8 * router + k
      let s1 := cores.foldl (fun s k => resetCore s c (8 * router + k))
        ((List.range 8).foldl (fun s k => forget s c (8 * router + k)) (dropFaultTasks s c))
      let s2 := (List.range 5).foldl (fun s i => dropJobs s (queueKey router i) c) s1
      let s3 := if router = 0 then dropJobs s2 qclKey c else s2
      let s4 := { s3 with
        cctxs := s3.cctxs.filterMap fun e =>
          if e.1 / 4096 = c then (waveAt router e.2).map fun cc =>
            (e.1, { cc with waiting := if routerOf e.2.phys = router then [] else cc.waiting })
          else some e
        tileOps := s3.tileOps.filter fun e => !(e.2.ctx == c && routerOf (e.2.tile / 16) == router)
        discards := s3.discards ++ [(c, router)] }
      exec (.sluiceArrive c router) s = .next (later (pumpQueues (cores.foldl
        (fun s k => fixCore s (8 * router + k)) (dropEngine (dropHeld s4 c held) c router))) 256
        (.sluiceDiscardEnd c router))) ∧
    exec (.sluiceDiscardEnd c router) s = .next { s with discards := s.discards.filter (· != (c, router)) } ∧
    (∀ k, s.kills.find? (fun k => k.ctx == c) = some k →
      let s1 := k.waiters.foldl killReply { s with kills := s.kills.map fun x =>
        if x.ctx = c then { x with waiters := [] } else x }
      (∀ s2, killStatus s1 c k.status = (s2, true) → exec (.killConfirm c) s =
        .next (removeCtx { s2 with kills := s2.kills.filter fun x => x.ctx != c } c)) ∧
      (∀ s2, killStatus s1 c k.status = (s2, false) →
        exec (.killConfirm c) s = .next (later s2 1 (.killConfirm c)))))

/-- R26, R32, R38 to R43, R30, R31, R294, R389: a retirement moves its work clock by clock, flushes a slice, and then
publishes; a change of the map takes its place when it falls due and is published in its turn, a loss after its purges; a
loss marks its resource; a context past its grace is suspended and told; links, clocks and capacities change and are
published; a domain is formed. R390, R397 to R403: the Reeve's sensors, throttles, alarm, timer and boot.
The model's choices it rests on: log 3, log 5, log 7, log 18, log 20, log 37, log 40 and log 43. -/
def Obligations.MapAndManagementEvents : Prop :=
  (∀ (cl res : Nat) (s : State) (op : RetireOp), s.retires.find? (fun r => r.cls == cl && r.res == res) = some op →
    (retireDone s cl res = false →
      exec (.retirementMove cl res) s = .next (soon (retireStep s cl res) 1 (.retirementMove cl res))) ∧
    (retireDone s cl res = true → cl ≠ 5 →
      exec (.retirementMove cl res) s = .next (announce s 1 cl op.cause res op.old 2)) ∧
    (retireDone s cl res = true → cl = 5 → exec (.retirementMove cl res) s =
      .next (soon (takeDelay s 65536).2 (takeDelay s 65536).1 (.sliceFlush res))) ∧
    (cl = 5 → exec (.sliceFlush res) s = .next (announce s 1 5 op.cause res op.old 2))) ∧
  (∀ (kind cl cause res old new : Nat) (s : State),
    (s.booted = false → exec (.mapPublish kind cl cause res old new) s = .next s) ∧
    (s.booted = true →
      (∀ due, othersTurn s kind cl res = some due → exec (.mapPublish kind cl cause res old new) s =
        .next (later s (if due then 0 else 1) (.mapPublish kind cl cause res old new))) ∧
      (othersTurn s kind cl res = none →
        (kind = 2 → s.kills.any (fun k => k.status == 0x82) = true → exec (.mapPublish kind cl cause res old new) s =
          .next (later s 1 (.mapPublish kind cl cause res old new))) ∧
        (kind ≠ 2 ∨ s.kills.any (fun k => k.status == 0x82) = false →
          (∀ op, s.retires.find? (fun r => r.cls == cl && r.res == res) = some op →
            exec (.mapPublish kind cl cause res old new) s = .next (publish
              { s with retires := s.retires.filter (· != op) } kind cl cause res old new op.held)) ∧
          (s.retires.find? (fun r => r.cls == cl && r.res == res) = none →
            (kind = 1 → exec (.mapPublish kind cl cause res old new) s = .next s) ∧
            (kind ≠ 1 → exec (.mapPublish kind cl cause res old new) s =
              .next (publish s kind cl cause res old new []))))))) ∧
  (∀ (cl res cause : Nat) (s : State), s.booted = true → cl ≠ 0 → cl ≤ 10 → cl ≠ clsLink → unitState s.cmap cl res < 2 →
    exec (.resourceLoss cl res cause) s = .next (loseResource s cl res cause)) ∧
  (∀ (c : Nat) (s : State) (x : Ctx), getCtx s c = some x →
    (∀ t0, x.run = .running → x.told = false → x.graceAt = some t0 →
      (t0 + x.limit.toNat < s.clock → exec (.graceExpiry c) s =
        .next (later (setCtx s c { x with run := .suspended }) 0 (.graceExpiry c))) ∧
      (s.clock ≤ t0 + x.limit.toNat → exec (.graceExpiry c) s = .next s)) ∧
    (∀ s1, x.run = .running → x.told = true → postCompletion s c 0x00 {} = (s1, true) →
      exec (.graceExpiry c) s = .next (modCtx s1 c fun x => { x with told := false })) ∧
    (x.run = .suspended → x.told = false →
      (ctxStill s c = false → exec (.graceExpiry c) s = .next (later s 1 (.graceExpiry c))) ∧
      (∀ s1, ctxStill s c = true → postCompletion s c 0x83 {} = (s1, true) → exec (.graceExpiry c) s =
        .next (mapTasks (modCtx s1 c fun x => { x with told := true }) c x.mapvec 1)))) ∧
  (∀ (link code : Nat) (s : State), s.booted = true → link < 1024 → code < 12 → edgeLink (link / 4) (link % 4) = false →
    let old := unitState s.cmap clsLink link
    let s1 := { s with cmap := { s.cmap with
      units := mset (mset s.cmap.units (unitKey clsLink (otherEnd link)) code) (unitKey clsLink link) code } }
    (old = code → exec (.meshLinkChange link code) s = .next s) ∧
    (old < code → exec (.meshLinkChange link code) s =
      .next (announce (retrained s1 clsLink link code) 3 clsLink 6 link old code)) ∧
    (code < old → exec (.meshLinkChange link code) s =
      .next (announce (retrained s1 clsLink link code) 4 clsLink 8 link old code))) ∧
  (∀ (cl link st rate : Nat) (s : State), s.booted = true → cl = clsStrelmin ∧ link < 16 ∨ cl = clsCxl ∧ link < 3 →
    st < 4 → st ≠ 2 → unitState s.cmap cl link ≠ 2 →
    unitState s.cmap cl link ≠ st ∨ mgetD s.cmap.rate (unitKey cl link) 0 ≠ rate % 65536 →
    let key := unitKey cl link
    let old := unitState s.cmap cl link
    let s1 := retrained { s with cmap := { s.cmap with
      rate := mset s.cmap.rate key (rate % 65536), aux := mset s.cmap.aux key (rate / 65536) } } cl link st
    let s2 := reroute { s1 with cmap := { s1.cmap with units := mset s1.cmap.units key st } }
    (st = 3 → exec (.linkChange cl link st rate) s = .next (loseResource s1 cl link 6)) ∧
    (st ≠ 3 → st < old → exec (.linkChange cl link st rate) s = .next (announce s2 4 cl 8 link old st)) ∧
    (st ≠ 3 → old ≤ st → exec (.linkChange cl link st rate) s = .next (announce s2 3 cl 6 link old st))) ∧
  (∀ (p v : Nat) (s : State),
    (s.booted = true → p < 64 → bitN v p = true →
      let s1 := reroute { s with pkg := p, domain := (List.range 64).filter fun p => bitN v p }
      (p = 0 → exec (.domainForm p v) s = .next s1) ∧
      (p ≠ 0 → exec (.domainForm p v) s = .next (
        let d := takeDelay s1 (2 ^ 64)
        exchange { d.2 with reeve := { d.2.reeve with timer0 := BitVec.ofNat 64 d.1 } } 0))) ∧
    (s.booted = false ∨ 64 ≤ p ∨ bitN v p = false → exec (.domainForm p v) s = .next s)) ∧
  (∀ (p code v : Nat) (s : State), s.booted = true → p < 8 → unitState s.cmap clsStack p < 2 →
    let old := unitState s.cmap clsStack p
    let shown := fun (m : CMap) (st : Nat) => { s with cmap := { m with units := mset m.units (unitKey clsStack p) st } }
    (code < 4 → mgetD s.cmap.stepN p 0 ≠ code → exec (.clockStep p code) s = .next (
      let st := if code = 0 ∧ capOf s.cmap p = Config.stackCap then 0 else 1
      announce (shown { s.cmap with stepN := mset s.cmap.stepN p code } st) 6 clsStack 4 p old st)) ∧
    (v < capOf s.cmap p → exec (.capacityWithdrawal p v) s =
      .next (announce (shown { s.cmap with cap := mset s.cmap.cap p v } 1) 5 clsStack 2 p old 1))) ∧
  (∀ (v : Nat) (s : State),
    let hit := s.reeve.armed && decide (s.reeve.talert.toInt ≤ sensorMax v)
    let s1 := { s with
      reeve := { s.reeve with
        tsens := Vector.ofFn fun i => sensorOf v i.val
        armed := if sensorMax v < s.reeve.tclear.toInt then true else (s.reeve.armed && !hit) }
      agenda := s.agenda.filter fun e => !isSample e.2 }
    (hit = false → exec (.sensorSample v) s = .next (later s1 1100 (.sensorSample (freeSample s)))) ∧
    (hit = true → exec (.sensorSample v) s = .next (later (raiseInt (setCore s1 0x804
      { coreAt s1 0x804 with talrtM := BitVec.ofInt 64 (sensorMax v) }) 0x804 0) 1100 (.sensorSample (freeSample s))))) ∧
  (∀ (s : State) (a : Word), s.reeve.alarm = some a →
    (a.toNat ≤ (timerNow s).toNat → exec .alarmExpiry s = .next (
      let s1 := { s with reeve := { s.reeve with alarm := none } }
      raiseInt (setCore s1 0x804 { coreAt s1 0x804 with timerA := a }) 0x804 1)) ∧
    ((timerNow s).toNat < a.toNat → exec .alarmExpiry s =
      .next (soon s (a.toNat - (timerNow s).toNat) .alarmExpiry))) ∧
  (∀ (p v : Nat) (s : State),
    (∀ h : p < 8, exec (.thrlWrite p) s = .next (((List.range 256).filter fun cl => polderOf cl == p).foldl
      (fun t cl => setCopies (retimeEngine s.reeve.thrlEff[p].toNat t cl) cl (copiesNow s cl))
      { s with reeve := { s.reeve with thrlEff := s.reeve.thrlEff.set p s.reeve.thrl[p] } })) ∧
    (s.domain ≠ [] → s.pkg ≠ 0 →
      let s1 := retime { s with reeve := { s.reeve with
        timerOff := BitVec.ofNat 64 v - BitVec.ofNat 64 s.clock, timerAt := some s.clock } }
      let due := s1.agenda.any fun e => match e.2 with
        | .timerSync _ => true
        | _ => false
      (due = true → exec (.timerSync v) s = .next s1) ∧
      (due = false → exec (.timerSync v) s = .next (exchange s1 (2 ^ 20)))) ∧
    (s.domain = [] ∨ s.pkg = 0 → exec (.timerSync v) s = .next s) ∧
    (s.booted = true ∨ s.romHalted = true → exec .boot s = .next s) ∧
    (s.booted = false → s.romHalted = false →
      (∀ b, bootBank s = some b →
        exec .boot s = .next (bringUp { s with reeve := { s.reeve with bank := some b } })) ∧
      (bootBank s = none → exec .boot s =
        .next { s with romHalted := true, reeve := { s.reeve with revision := 0xFFFFFFFF } })))


/-! ### Encoding, the step, reset and memory -/

/-- R107, R110 and the encoding tables of the chapters: words that the spec writes out bit by bit decode to the
instructions they stand for, one of a family each; all zeros, all ones and a word with an operand that its row leaves out
are no instruction. -/
def Obligations.SampleWords : Prop :=
  decode 0x0A0000000003E00E00FFFFED#96 = some (.loop {} 3 (-19)) ∧
  decode 0x43B000000006000004000000#96 = some (.ld {} 3 false 3 false .normal 6 0 (some 4) 0) ∧
  decode 0x4A040000000500AE00000000#96 = some (.acq { sw := true } 0 5 10 none 0) ∧
  decode 0x638000000201201200401E00#96 = some (.vadd {} .f32 false {} false 1 1 (.v 0) 1) ∧
  decode 0x9E0800000005610600601E00#96 = some (.mmaA {} false false false false {} 5 0 0 1) ∧
  decode 0xA61000000005A0900C00000D#96 = some (.copy {} false true .normal 5 0 12 0 (.g 13)) ∧
  decode 0xAE0800000803002E00000000#96 = some (.seek {} .fwd (.k 3) (some 2) none 0) ∧
  decode 0xBE0400000005422E00E00E00#96 = some (.get { sw := true } (.g 5) 2) ∧
  decode 0xCA0400000004005423006E00#96 = some (.dsteal { sw := true } 4 5 3 6) ∧
  decode 0xD2000000000CE00E00E00E00#96 = some (.mapack {} 12) ∧
  decode 0xDC240000000C001009DFFE00#96 = some (.pgrefAdj { sw := true } 12 1 9 (.im (-1))) ∧
  decode 0x1A000000000DE00E00000403#96 = some (.sysw {} 13 0x403) ∧
  decode 0xDE080000000FE00E00E00E01#96 = none ∧ decode 0#96 = none ∧ decode (BitVec.allOnes 96) = none

/-- Decoding and encoding agree, first way: every well-formed instruction form, with every operand and field at every
value, has a word, and that word decodes to it. -/
def Obligations.DecodeEncode : Prop :=
  ∀ i : Instr, i.isForm = true → i.wf = true → ∃ w, encode i = some w ∧ decode w = some i

/-- Decoding and encoding agree, second way: a word that decodes gives a well-formed instruction form, which encodes to
that very word, so that no two words stand for one instruction and no bit of a word is ignored (R116, orders 2 to 5). -/
def Obligations.EncodeDecode : Prop :=
  ∀ (w : IWord) (i : Instr), decode w = some i → i.isForm = true ∧ i.wf = true ∧ encode i = some w

/-- A step runs the decoded instruction. A device step that is due is run first, drawing a free value. With none due, the
next ready slot takes its turn: the step is exec of the event due at its boundary; an instruction held within its writes
goes on with them; else the line of the pc is fetched, the entry check of R102 is made, what waited for that check is taken,
and the step is exec of the instruction that the line decodes to at its slot (ILLOP with the word's high bits where it
decodes to none, or with the line's where its reserved bits are set). With no slot ready, what was put at the clock's end is
run, and with nothing left there the clock moves on.
The model's choices it rests on: log 5 (how steps and turns are ordered). -/
def Obligations.StepRunsDecoded : Prop :=
  ∀ (s : State),
    (∀ c i rest, s.agenda = (c, i) :: rest → c ≤ s.clock →
      step s = exec i { s with agenda := rest, freeCtr := s.freeCtr + 1 }) ∧
    (s.agenda = [] → s.romHalted = true → step s = .fault .romHalted) ∧
    ((s.agenda = [] ∧ s.romHalted = false) ∨ (∃ c i rest, s.agenda = (c, i) :: rest ∧ s.clock < c) →
      (nextSlot s = none → s.ends = [] → step s = .next { s with clock := s.clock + 1, turn := 0 }) ∧
      (∀ i rest, nextSlot s = none → s.ends = i :: rest →
        step s = exec i { s with ends := rest, turn := 4096, freeCtr := s.freeCtr + 1 }) ∧
      (∀ tk, nextSlot s = some tk →
        let s1 := takeTurn s tk
        let t := curT s1
        (∀ e, boundary s1 tk = some e → step s = exec e s1) ∧
        (∀ p, boundary s1 tk = none → t.held = some p → step s = .next (issueWrites p.hdr p.ws s1)) ∧
        (boundary s1 tk = none → t.held = none → slotOkPc t.pc = false → step s = .next (entryTrap s1)) ∧
        (boundary s1 tk = none → t.held = none → slotOkPc t.pc = true →
          (∀ s3, fetchLine s1 = .stop s3 → step s = .next s3) ∧
          (∀ bs s0, fetchLine s1 = .line bs s0 →
            let s2 := putT s0 { t with entry := .none }
            (entryOk t (lineWord bs) = false → step s = .next (entryTrap s0)) ∧
            (entryOk t (lineWord bs) = true → checkDue t = true → t.ended = true → step s = .next (finishRun s2 tk)) ∧
            (∀ e, entryOk t (lineWord bs) = true → checkDue t = true → t.ended = false → boundary s2 tk = some e →
              step s = exec e s2) ∧
            (entryOk t (lineWord bs) = true → checkDue t = false ∨ (t.ended = false ∧ boundary s2 tk = none) →
              let w := lineInstr bs (bitsOf t.pc 2 0)
              (nbits (lineWord bs) 14 0 = 0 → ∀ i, decode w = some i → step s = exec i s2) ∧
              (nbits (lineWord bs) 14 0 = 0 → decode w = none → step s = .next (trapHere s2 0x01 (wordHigh w))) ∧
              (nbits (lineWord bs) 14 0 ≠ 0 →
                step s = .next (trapHere s2 0x01 (BitVec.ofNat 64 (2 ^ 63 + lineWord bs)))))))))

/-- R399, R400, R402, R397, R32, R379: the state after reset. The alert is armed with its thresholds, the throttles and
the log head are zero, the log ring is at its place, no map is published, no queue is enabled, no thread runs, the boot is
due, and memory lists nothing and is in its canonical form. The zero values of what the spec gives no reset are the
model's choice (log 1, log 2). -/
def Obligations.ResetValues : Prop :=
  State.reset.reeve.armed = true ∧ State.reset.reeve.talert = 0x05F0 ∧ State.reset.reeve.tclear = 0x0580 ∧
  State.reset.reeve.thrl = Vector.replicate 8 0 ∧ State.reset.reeve.logLog2 = 9 ∧ State.reset.reeve.logBase = 0x3C00 ∧
  State.reset.reeve.logHead = 0 ∧ State.reset.reeve.timerOff = 0 ∧ State.reset.reeve.alarm = none ∧
  State.reset.reeve.revision = 0 ∧ State.reset.cmap.version = 0 ∧ State.reset.qblks = [] ∧ State.reset.threads = [] ∧
  State.reset.ctxs = [] ∧ State.reset.agenda = [(0, .boot)] ∧ State.reset.mem = [] ∧ MemOk State.reset

/-- R57: the state in which a launch's thread starts, register by register. That CAUSE, TVAL and EPC start as 0 is R131's
(trap registers, whose reset values the table there gives); the rest is R57's table. -/
def Obligations.ThreadStart : Prop :=
  ∀ (s : State) (c : Nat) (p : Packet) (l lane : Nat), lane < 65536 →
    let t := launchThread s c p l lane
    (∀ i : Fin 16, t.g[i] = if i = 0 then p.arg0 else if i = 1 then p.arg1 else if i = 2 then p.arg2
      else if i = 3 then p.arg3 else 0) ∧
    t.pw = 1 ∧ t.pc = p.entry ∧ t.lane.toNat = lane ∧ t.priv = 2 ∧ t.tvec = 0 ∧ t.fxf = 0 ∧ t.fxe = 0 ∧ t.evt = 0 ∧
    t.rng = seedGen t.seed t.lane ∧ (∀ i : Fin 32, t.v[i] = 0) ∧
    (∀ i : Fin 8, t.p[i] = if i = 0 then BitVec.allOnes 256 else 0) ∧
    t.cause = 0 ∧ t.tval = 0 ∧ t.epc = 0 ∧ t.inh = false ∧ t.mheld = false

/-- R141, R144: memory as the machine keeps it. A write leaves the canonical form, reads back where it wrote and leaves
every other location; memories in that form that read alike everywhere are the same; and the operation through which
every write of the device takes its place in the one order of writes does the same for a list of bytes.
The model's choices it rests on: log 1 (what an unlisted byte reads as). -/
def Obligations.MemoryReadsBack : Prop :=
  (∀ (m : Memory) (a b : Nat) (x : Byte), Memory.wf m = true →
    Memory.wf (Memory.write m a x) = true ∧
    Memory.read (Memory.write m a x) b = if b = a then x else Memory.read m b) ∧
  (∀ m n : Memory, Memory.wf m = true → Memory.wf n = true → (∀ a, Memory.read m a = Memory.read n a) → m = n) ∧
  (∀ (s : State) (cells : List (Nat × Byte)) (who : Option Nat), MemOk s → MemOk (append s cells who).2 ∧
    (append s cells who).1 = s.tsCtr + 1 ∧ ((cells.map (·.1)).Nodup →
      ∀ a, Memory.read (append s cells who).2.mem a = match cells.find? fun c => c.1 == a with
        | some c => c.2
        | none => Memory.read s.mem a))
end

