-- ==== Sys2Proof/Laws/Maps.lean ====
section
/-!
SUPPORT. What the finite maps do: setting and removing a key, seen through the value at a key.
-/

namespace Sys2Proof.Laws

open Sys2Proof.Machine

variable {α : Type}

/-- A key set holds its value. -/
@[simp] theorem mget_mset_same (m : Map α) (k : Nat) (v : α) : mget (mset m k v) k = some v := by
  induction m with
  | nil => simp [mset, mget]
  | cons e t ih =>
    simp only [mset]
    split
    · simp [mget]
    · split
      · simp [mget]
      · simp [mget, *]

/-- Setting a key leaves every other. -/
theorem mget_mset_ne (m : Map α) {k j : Nat} (v : α) (h : j ≠ k) : mget (mset m k v) j = mget m j := by
  induction m with
  | nil => simp [mset, mget, h]
  | cons e t ih =>
    simp only [mset]
    split
    · subst_vars; simp [mget, h]
    · split
      · simp [mget, h]
      · simp only [mget, ih]

/-- A key set or left alone. -/
theorem mget_mset (m : Map α) (k j : Nat) (v : α) : mget (mset m k v) j = if j = k then some v else mget m j := by
  split
  · subst j; exact mget_mset_same m k v
  · exact mget_mset_ne m v ‹_›

/-- The value with a default, after setting a key. -/
theorem mgetD_mset (m : Map α) (k j : Nat) (v d : α) : mgetD (mset m k v) j d = if j = k then v else mgetD m j d := by
  unfold mgetD
  rw [mget_mset]
  split <;> rfl

/-- Of two values set at a key the later stands. -/
@[simp] theorem mset_mset (m : Map α) (k : Nat) (v w : α) : mset (mset m k v) k w = mset m k w := by
  induction m with
  | nil => simp [mset]
  | cons e t ih =>
    simp only [mset]
    split
    · simp [mset]
    · split
      · simp [mset]
      · simp_all [mset]

/-- A key removed holds nothing. -/
@[simp] theorem mget_mdel_same (m : Map α) (k : Nat) : mget (mdel m k) k = none := by
  induction m with
  | nil => rfl
  | cons e t ih =>
    simp only [mdel, List.filter_cons] at ih ⊢
    split
    · next h => rw [mget, if_neg (by simpa using Ne.symm (by simpa using h)), ih]
    · exact ih

/-- Removing a key leaves every other. -/
theorem mget_mdel_ne (m : Map α) {k j : Nat} (h : j ≠ k) : mget (mdel m k) j = mget m j := by
  induction m with
  | nil => rfl
  | cons e t ih =>
    simp only [mdel, List.filter_cons] at ih ⊢
    split
    · simp only [mget, ih]
    · next hk =>
      have : e.1 = k := by simpa using hk
      rw [ih, mget, if_neg (by omega)]

end Sys2Proof.Laws
end

