-- ==== Sys2Proof/Laws/Memory.lean ====
section
/-!
SUPPORT. What the memory operations do: every one keeps the canonical form, and a write reads back where it wrote and
leaves every other location.
-/

namespace Sys2Proof.Laws

open Sys2Proof.Machine

/-- A memory in form from an address on is in form from any lower one. -/
theorem wfFrom_mono {lo lo' : Nat} {m : Memory} (h : Memory.wfFrom lo m = true) (hl : lo' ≤ lo) :
    Memory.wfFrom lo' m = true := by
  cases m with
  | nil => rfl
  | cons c t =>
    simp only [Memory.wfFrom, Bool.and_eq_true, decide_eq_true_eq] at h ⊢
    exact ⟨⟨Nat.le_trans hl h.1.1, h.1.2⟩, h.2⟩

/-- A write at or above the lower bound keeps the form from that bound. -/
theorem wfFrom_write {lo a : Nat} {m : Memory} (b : Byte) (h : Memory.wfFrom lo m = true) (hl : lo ≤ a) :
    Memory.wfFrom lo (Memory.write m a b) = true := by
  induction m generalizing lo with
  | nil =>
    simp only [Memory.write]
    split <;> simp_all [Memory.wfFrom]
  | cons c t ih =>
    obtain ⟨a', b'⟩ := c
    simp only [Memory.wfFrom, Bool.and_eq_true, decide_eq_true_eq] at h
    simp only [Memory.write]
    split
    · subst a'
      split
      · exact wfFrom_mono h.2 (by omega)
      · simp_all [Memory.wfFrom]
    · split
      · split
        · simp_all [Memory.wfFrom]
        · simp only [Memory.wfFrom, Bool.and_eq_true, decide_eq_true_eq, bne_iff_ne]
          exact ⟨⟨hl, ‹_›⟩, ⟨by omega, by simpa using h.1.2⟩, h.2⟩
      · simp only [Memory.wfFrom, Bool.and_eq_true, decide_eq_true_eq]
        exact ⟨h.1, ih h.2 (by omega)⟩

/-- A write keeps the canonical form. -/
theorem write_wf {m : Memory} (a : Nat) (b : Byte) (h : Memory.wf m = true) : Memory.wf (Memory.write m a b) = true :=
  wfFrom_write b h (Nat.zero_le a)

/-- So does a list of writes. -/
theorem writes_wf {m : Memory} (cs : List (Nat × Byte)) (h : Memory.wf m = true) : Memory.wf (Memory.writes m cs) = true := by
  induction cs generalizing m with
  | nil => exact h
  | cons c t ih => exact ih (write_wf c.1 c.2 h)

/-- Below its lower bound a memory in form reads as unlisted. -/
theorem read_below {lo a : Nat} {m : Memory} (h : Memory.wfFrom lo m = true) (hl : a < lo) :
    Memory.read m a = Memory.unlisted := by
  induction m generalizing lo with
  | nil => rfl
  | cons c t ih =>
    obtain ⟨a', b'⟩ := c
    simp only [Memory.wfFrom, Bool.and_eq_true, decide_eq_true_eq] at h
    rw [Memory.read, if_neg (by omega)]
    exact ih h.2 (by omega)

/-- A write reads back. -/
theorem read_write_same {m : Memory} (a : Nat) (b : Byte) (h : Memory.wf m = true) :
    Memory.read (Memory.write m a b) a = b := by
  unfold Memory.wf at h
  generalize 0 = lo at h
  induction m generalizing lo with
  | nil =>
    simp only [Memory.write]
    split <;> simp_all [Memory.read]
  | cons c t ih =>
    obtain ⟨a', b'⟩ := c
    simp only [Memory.wfFrom, Bool.and_eq_true, decide_eq_true_eq] at h
    simp only [Memory.write]
    split
    · subst a'
      split
      · exact (read_below h.2 (by omega)).trans (Eq.symm ‹_›)
      · simp [Memory.read]
    · split
      · split
        · rw [Memory.read, if_neg ‹_›]
          exact (read_below h.2 (by omega)).trans (Eq.symm ‹_›)
        · simp [Memory.read]
      · rw [Memory.read, if_neg ‹_›]
        exact ih _ h.2

/-- A write leaves every other location. -/
theorem read_write_ne {m : Memory} {a c : Nat} (b : Byte) (hne : c ≠ a) :
    Memory.read (Memory.write m a b) c = Memory.read m c := by
  induction m with
  | nil =>
    simp only [Memory.write]
    split <;> simp_all [Memory.read]
  | cons e t ih =>
    obtain ⟨a', b'⟩ := e
    simp only [Memory.write]
    split
    · subst a'
      split <;> simp [Memory.read, hne]
    · split
      · split <;> simp [Memory.read, hne]
      · simp only [Memory.read, ih]

/-- A write reads back where it wrote and leaves every other location. -/
theorem read_write {m : Memory} (a c : Nat) (b : Byte) (h : Memory.wf m = true) :
    Memory.read (Memory.write m a b) c = if c = a then b else Memory.read m c := by
  split
  · subst c; exact read_write_same a b h
  · exact read_write_ne b ‹_›

/-- A location that a list of writes does not name keeps its byte. -/
theorem read_writes_other {m : Memory} {cs : List (Nat × Byte)} {c : Nat} (hc : ∀ e ∈ cs, e.1 ≠ c) :
    Memory.read (Memory.writes m cs) c = Memory.read m c := by
  induction cs generalizing m with
  | nil => rfl
  | cons e t ih =>
    simp only [Memory.writes, List.foldl_cons] at ih ⊢
    rw [ih fun x hx => hc x (List.mem_cons_of_mem _ hx), read_write_ne _ (Ne.symm (hc e (List.mem_cons_self ..)))]

end Sys2Proof.Laws
end

