-- ==== Sys2Proof/Laws/Ops.lean ====
section
/-!
SUPPORT. What the shared operations do: issuing an instruction under its guards, its core and its level; the checks an
instruction passes before its effect; completing it. Each lemma says when the operation goes on to the effect, so that no
later proof unfolds it.
-/

namespace Sys2Proof.Laws

open Host Sys2Proof.Machine

/-! ### Issuing -/

/-- With both guards true and no suppression the effect happens. -/
theorem issue_runs {h : Hdr} {s : State} {eff : State → State} (hg : guardsHold h s = true)
    (hr : (curT s).run.sdc = none) : issue h s eff = .next (eff s) := by
  simp [issue, hg, hr]

/-- With a guard false only the marker acts. -/
theorem issue_skips {h : Hdr} {s : State} {eff : State → State} (hg : guardsHold h s = false) :
    issue h s eff = .next (retire h s) := by
  simp [issue, hg]

/-- Issuing always answers a next state: the effect, or the marker alone. -/
theorem issue_cases {h : Hdr} {s t : State} {eff : State → State} (ht : issue h s eff = .next t) :
    t = eff s ∨ t = retire h s := by
  unfold issue at ht
  split at ht <;> simp_all

/-- A compute core has the instruction. -/
theorem issueC_runs {i : Instr} {h : Hdr} {s : State} {eff : State → State} (hc : isCompute (coreOf s.cur) = true) :
    issueC i h s eff = issue h s eff := by
  simp [issueC, hc]

/-- A service core or the Reeve traps ILLOP. -/
theorem issueC_illop {i : Instr} {h : Hdr} {s : State} {eff : State → State}
    (hc : isCompute (coreOf s.cur) = false) : issueC i h s eff = .next (illop i s) := by
  simp [issueC, hc]

/-- The level suffices. -/
theorem issueL_runs {n : Nat} {i : Instr} {h : Hdr} {s : State} {eff : State → State}
    (hl : (curT s).priv.toNat ≤ n) : issueL n i h s eff = issue h s eff := by
  simp [issueL, hl]

/-- The level does not suffice: PRIV. -/
theorem issueL_traps {n : Nat} {i : Instr} {h : Hdr} {s : State} {eff : State → State}
    (hl : n < (curT s).priv.toNat) : issueL n i h s eff = .next (privTrapI i s) := by
  simp [issueL, Nat.not_le.mpr hl]

/-! ### The checks before an effect -/

/-- There is room for a result. -/
theorem withRoom_runs {s : State} {eff : State → State} (hr : (curT s).res.length < 16) : withRoom s eff = eff s := by
  simp [withRoom, maxRes, hr]

/-- Without room the thread is held at the instruction. -/
theorem withRoom_holds {s : State} {eff : State → State} (hr : 16 ≤ (curT s).res.length) :
    withRoom s eff = retry s := by
  simp [withRoom, maxRes, Nat.not_lt.mpr hr]

/-- No tile store covers the thread's buffered stores. -/
theorem withTstDone_runs {s : State} {eff : State → State}
    (ht : tstCovers s s.cur ((curT s).buf.flatMap BufItem.locs) = false) : withTstDone s eff = eff s := by
  simp [withTstDone, ht]

/-- No earlier step of the thread is due. -/
theorem withOrder_runs {s : State} {r : Bool} {eff : State → State}
    (ho : (stepDue (curT s) || (r && armDue s (curT s))) = false) : withOrder s r eff = eff s := by
  simp only [withOrder, ho, Bool.false_eq_true, if_false]

/-- Every check of R167 passes. -/
theorem withTarget_runs {s : State} {va z a : Nat} {w : Bool} {loc : Nat} {eff : Nat → State → State}
    (hx : access s va z a w = .ok loc) : withTarget s va z a w eff = eff loc s := by
  simp [withTarget, hx]

/-- Every check of an access passes, and its share is resident. -/
theorem withChecks_runs {s : State} {va z a : Nat} {w : Bool} {loc : Nat} {eff : Nat → State → State}
    (hx : access s va z a w = .ok loc) (hh : heldShare s loc = false) :
    withChecks s va z a w eff = eff loc s := by
  simp [withChecks, withTarget_runs hx, hh]

/-- A check of an access that traps. -/
theorem withChecks_traps {s : State} {va z a : Nat} {w : Bool} {c : BitVec 8} {v : Word} {eff : Nat → State → State}
    (hx : access s va z a w = .trap c v) : withChecks s va z a w eff = trapHere s c v := by
  simp [withChecks, withTarget, hx]

/-- An access in order. -/
theorem withAccess_runs {s : State} {va z a : Nat} {w : Bool} {loc : Nat} {eff : Nat → State → State}
    (hx : access s va z a w = .ok loc) (hh : heldShare s loc = false)
    (ho : (stepDue (curT s) || (!w && armDue s (curT s))) = false) :
    withAccess s va z a w eff = eff loc s := by
  rw [withAccess, withChecks_runs hx hh, withOrder_runs ho]

/-- Every lane's check passes. -/
theorem withLanes_runs {s : State} {z : Nat} {w : Bool} {vas locs : List Nat} {eff : List Nat → State → State}
    (hx : lanesAccess s z w vas = .ok locs) (hh : locs.any (heldShare s) = false)
    (ho : (stepDue (curT s) || (!w && armDue s (curT s))) = false) :
    withLanes s z w vas eff = eff locs s := by
  simp only [withLanes, hx, hh, Bool.false_eq_true, if_false, withOrder_runs ho]

/-- The store buffer has room. -/
theorem withBufRoom_runs {n : Nat} {s : State} {eff : State → State} (hb : bufWrites (curT s) + n ≤ 64) :
    withBufRoom n s eff = eff s := by
  simp [withBufRoom, maxBuf, hb]

/-- No migration is asked for. -/
theorem withMig_runs {m : Bool} {s : State} {va : Nat} {eff : State → State}
    (hm : m = true → migTarget s va = none) : withMig m s va eff = eff s := by
  cases m <;> simp_all [withMig]

/-- The unit is in service. -/
theorem withUnit_runs {s : State} {c : Nat} {eff : State → State} (hu : inService s.cmap c (coreOf s.cur / 8) = true) :
    withUnit s c eff = eff s := by
  simp [withUnit, hu]

/-- The tile is one of the share. -/
theorem withTile_runs {s : State} {t : Fin 16} {eff : State → State} (ht : t.val < tileShare s) :
    withTile s t eff = eff s := by
  simp [withTile, Nat.not_le.mpr ht]

/-- The core has a tile share, and with it the accumulators. -/
theorem withBank_runs {s : State} {a : Fin 4} {eff : State → State} (ht : tileShare s ≠ 0) :
    withBank s a eff = eff s := by
  simp [withBank, ht]

/-- The queue and the jobs in flight have room, and the order is met. -/
theorem withQueue_runs {q : Nat} {s : State} {eff : State → State} (h1 : (queueAt s q).ents.length < 64)
    (h2 : inFlight s (curT s).ctx (curT s).lcore < 32) (h3 : unitRetiring s q = false)
    (h4 : (stepDue (curT s) || (false && armDue s (curT s))) = false)
    (h5 : tstCovers s s.cur ((curT s).buf.flatMap BufItem.locs) = false) : withQueue q s eff = eff s := by
  have : ¬ (64 ≤ (queueAt s q).ents.length ∨ 32 ≤ inFlight s (curT s).ctx (curT s).lcore ∨
      unitRetiring s q = true) := by simp [h3]; omega
  simp only [withQueue, this, if_false, withOrder_runs h4, withTstDone_runs h5]

/-- The vector registers exist. -/
theorem withVRegs_runs {i : Instr} {rs : List (Fin 32)} {s : State} {eff : State → State}
    (hv : (rs.all fun r => decide (r.val < (slotAt s s.cur).vregs)) = true) : withVRegs i rs s eff = eff s := by
  simp only [withVRegs, hv, if_true]

/-- The context named is live. -/
theorem withCtx_runs {s : State} {g : Fin 16} {eff : Nat → State → State}
    (hl : liveCtx s ((gVal s g).toNat % 65536) = true) : withCtx s g eff = eff ((gVal s g).toNat % 65536) s := by
  simp [withCtx, hl]

/-- A page has an entry, and no poison on the way to it. -/
theorem withPte_runs {s : State} {c a : Nat} {v : Word} {eff : Nat → State → State} (hp : pteOf s c v.toNat = some a)
    (hq : poisonOnWay s c v.toNat = none) : withPte s c v eff = eff a s := by
  simp [withPte, hp, hq]

/-- A track operand names tracks of the thread's own logical core, all of them in its share. -/
theorem withTracks_runs {s : State} {l : Option (Fin 16)} {k : KK} {eff : List Nat → State → State}
    (hl : (match l with
      | none => true
      | some r => (namedCore s (gVal s r)).isSome && (gVal s r).toNat == (curT s).lcore) = true)
    (hv : ((vtracks k).any fun v => decide ((curCC s).tmap.length ≤ v)) = false) :
    withTracks s l k eff = eff ((vtracks k).map fun v => 64 * (curCC s).phys + (curCC s).tmap.getD v 0) s := by
  cases l with
  | none => simp only [withTracks, hv, Bool.false_eq_true, if_false]
  | some r =>
    simp only [Bool.and_eq_true, Option.isSome_iff_exists, beq_iff_eq] at hl
    obtain ⟨⟨cc, hc⟩, he⟩ := hl
    simp only [withTracks, hc, he, if_true, hv, Bool.false_eq_true, if_false]

/-- The context holds, or is owed, the leases it needs, once what waits on the tracks is performed. -/
theorem withClaim_runs {s : State} {l : Option (Fin 16)} {k : KK} {eff : List Nat → State → State} {ks : List Nat}
    (ht : withTracks s l k = fun eff => eff ks s)
    (h1 : (ks.any fun k => leaseAfter s (curT s).ctx k == some false && !owedAfter s (curT s).ctx k) = false)
    (h2 : (ks.any fun k => leaseAfter s (curT s).ctx k == none && !owedAfter s (curT s).ctx k) = false) :
    withClaim s l k eff = eff ks s := by
  simp only [withClaim, ht, h1, h2, Bool.false_eq_true, if_false]

/-- With no lease owed, the accesses enter the tracks' queues. -/
theorem underLeases_runs {s : State} {h : Hdr} {ks : List Nat} {ops : List Nat → List (List Nat × TrkOp)}
    (h3 : owedGang s ks = none) : underLeases h ops ks s = enterOps h (ops ks) s := by
  simp only [underLeases, h3]

/-- No error strikes a result that the instruction rounds. -/
theorem withShadow_runs {h : Hdr} {sh : State → Shadow} {s : State} {eff : State → State}
    (ha : (s.corrupt.any fun u => u.unit == (0, coreOf s.cur) && (sh s).on u.nth) = false) :
    withShadow h sh s eff = eff s := by
  have : (s.corrupt.find? fun u => u.unit == (0, coreOf s.cur) && (sh s).on u.nth) = none := by
    rw [List.any_eq_false] at ha
    exact List.find?_eq_none.mpr ha
  simp only [withShadow, this]

/-- An instruction without a shadow. -/
theorem noShadow_runs {h : Hdr} {s : State} {eff : State → State} : withShadow h noShadow s eff = eff s := by
  have : (s.corrupt.find? fun u => u.unit == (0, coreOf s.cur) && (noShadow s).on u.nth) = none := by
    simp [noShadow]
  simp only [withShadow, this]

/-- A vector instruction on a compute core, its registers there and no error of its unit due. -/
theorem vecIssue_runs {i : Instr} {h : Hdr} {rs : List (Fin 32)} {sh : State → Shadow} {s : State} {eff : State → State}
    (hc : isCompute (coreOf s.cur) = true) (hv : (rs.all fun r => decide (r.val < (slotAt s s.cur).vregs)) = true)
    (ha : (s.corrupt.any fun u => u.unit == (0, coreOf s.cur) && (sh s).on u.nth) = false) :
    vecIssue i h rs sh s eff = issue h s eff := by
  simp only [vecIssue, issueC_runs hc, issue, withVRegs_runs hv, withShadow_runs ha]

/-- A vector instruction without a shadow. -/
theorem vecIssue_plain {i : Instr} {h : Hdr} {rs : List (Fin 32)} {s : State} {eff : State → State}
    (hc : isCompute (coreOf s.cur) = true) (hv : (rs.all fun r => decide (r.val < (slotAt s s.cur).vregs)) = true) :
    vecIssue i h rs noShadow s eff = issue h s eff := by
  simp only [vecIssue, issueC_runs hc, issue, withVRegs_runs hv, noShadow_runs]

/-! ### Completing -/

/-- Completing without a switch marker writes one thread. -/
theorem retire_plain {h : Hdr} {s : State} (hs : h.sw = false) :
    retire h s = putT s { curT s with
      run := runAt (curT s), pc := nextPc (curT s).pc, hold := s.clock + 1 + h.pace.val } := by
  simp [retire, retireTo, hs]

/-- A trap with nothing outstanding and a handler enters it. -/
theorem trap_enters {s : State} {c : BitVec 8} {v e : Word} (hr : (curT s).res = []) (ht : (curT s).tvec ≠ 0)
    (hi : (curT s).inh = false) :
    trap s c v e = putT s (trapEntry (curT s) { cause := c, tval := v, epc := e }) := by
  simp only [curT] at hr ht hi
  have h : ¬ ((getT s s.cur).tvec = 0 ∨ (getT s s.cur).inh = true) := by simp [hi]; exact ht
  simp only [trap, takeTrap, enterTrap, putT, curT, hr, if_true, if_neg h]

/-- A trap with results outstanding waits for them. -/
theorem trap_waits {s : State} {c : BitVec 8} {v e : Word} (hr : (curT s).res ≠ []) :
    trap s c v e = putT s { curT s with trapP := some { cause := c, tval := v, epc := e } } := by
  simp only [curT] at hr
  simp [trap, takeTrap, putT, curT, hr]

/-! ### Messages -/

/-- A message goes to the slot it is addressed to, under the context and generation it was given. -/
theorem msgSlot_addressOf {s : State} {tk : Nat} (h : tk < 65536) : msgSlot (addressOf s tk) = tk := by
  unfold msgSlot addressOf; omega

theorem msgStamp_addressOf {s : State} {tk : Nat} (h : tk < 65536) (hs : stamp s tk < 2 ^ 48) :
    msgStamp (addressOf s tk) = stamp s tk := by
  unfold msgStamp addressOf; omega

end Sys2Proof.Laws
end

