-- ==== Sys2Proof/Laws/State.lean ====
section
/-!
SUPPORT. The fields of State after each of its named updates, and of a thread after each of its register writes: one
lemma per field and update, so that no later proof unfolds a record update.
-/

namespace Sys2Proof.Laws

open Sys2Proof.Machine

variable (s : State) (t : Thread)

/-! ### setT -/

@[simp] theorem setT_clock (k : Nat) (x : Thread) : (setT s k x).clock = s.clock := rfl
@[simp] theorem setT_agenda (k : Nat) (x : Thread) : (setT s k x).agenda = s.agenda := rfl
@[simp] theorem setT_ends (k : Nat) (x : Thread) : (setT s k x).ends = s.ends := rfl
@[simp] theorem setT_sched (k : Nat) (x : Thread) : (setT s k x).sched = s.sched := rfl
@[simp] theorem setT_freeCtr (k : Nat) (x : Thread) : (setT s k x).freeCtr = s.freeCtr := rfl
@[simp] theorem setT_idCtr (k : Nat) (x : Thread) : (setT s k x).idCtr = s.idCtr := rfl
@[simp] theorem setT_cur (k : Nat) (x : Thread) : (setT s k x).cur = s.cur := rfl
@[simp] theorem setT_turn (k : Nat) (x : Thread) : (setT s k x).turn = s.turn := rfl
@[simp] theorem setT_romHalted (k : Nat) (x : Thread) : (setT s k x).romHalted = s.romHalted := rfl
@[simp] theorem setT_booted (k : Nat) (x : Thread) : (setT s k x).booted = s.booted := rfl
@[simp] theorem setT_mem (k : Nat) (x : Thread) : (setT s k x).mem = s.mem := rfl
@[simp] theorem setT_tsCtr (k : Nat) (x : Thread) : (setT s k x).tsCtr = s.tsCtr := rfl
@[simp] theorem setT_hist (k : Nat) (x : Thread) : (setT s k x).hist = s.hist := rfl
@[simp] theorem setT_poison (k : Nat) (x : Thread) : (setT s k x).poison = s.poison := rfl
@[simp] theorem setT_rels (k : Nat) (x : Thread) : (setT s k x).rels = s.rels := rfl
@[simp] theorem setT_vers (k : Nat) (x : Thread) : (setT s k x).vers = s.vers := rfl
@[simp] theorem setT_bwaits (k : Nat) (x : Thread) : (setT s k x).bwaits = s.bwaits := rfl
@[simp] theorem setT_arrivals (k : Nat) (x : Thread) : (setT s k x).arrivals = s.arrivals := rfl
@[simp] theorem setT_spawns (k : Nat) (x : Thread) : (setT s k x).spawns = s.spawns := rfl
@[simp] theorem setT_threads (k : Nat) (x : Thread) : (setT s k x).threads = mset s.threads k x := rfl
@[simp] theorem setT_slots (k : Nat) (x : Thread) : (setT s k x).slots = s.slots := rfl
@[simp] theorem setT_cores (k : Nat) (x : Thread) : (setT s k x).cores = s.cores := rfl
@[simp] theorem setT_tracks (k : Nat) (x : Thread) : (setT s k x).tracks = s.tracks := rfl
@[simp] theorem setT_tiles (k : Nat) (x : Thread) : (setT s k x).tiles = s.tiles := rfl
@[simp] theorem setT_tileOps (k : Nat) (x : Thread) : (setT s k x).tileOps = s.tileOps := rfl
@[simp] theorem setT_clusters (k : Nat) (x : Thread) : (setT s k x).clusters = s.clusters := rfl
@[simp] theorem setT_queues (k : Nat) (x : Thread) : (setT s k x).queues = s.queues := rfl
@[simp] theorem setT_ctxs (k : Nat) (x : Thread) : (setT s k x).ctxs = s.ctxs := rfl
@[simp] theorem setT_cctxs (k : Nat) (x : Thread) : (setT s k x).cctxs = s.cctxs := rfl
@[simp] theorem setT_cmap (k : Nat) (x : Thread) : (setT s k x).cmap = s.cmap := rfl
@[simp] theorem setT_filters (k : Nat) (x : Thread) : (setT s k x).filters = s.filters := rfl
@[simp] theorem setT_faint (k : Nat) (x : Thread) : (setT s k x).faint = s.faint := rfl
@[simp] theorem setT_ptPoison (k : Nat) (x : Thread) : (setT s k x).ptPoison = s.ptPoison := rfl
@[simp] theorem setT_fetches (k : Nat) (x : Thread) : (setT s k x).fetches = s.fetches := rfl
@[simp] theorem setT_faults (k : Nat) (x : Thread) : (setT s k x).faults = s.faults := rfl
@[simp] theorem setT_discards (k : Nat) (x : Thread) : (setT s k x).discards = s.discards := rfl
@[simp] theorem setT_kills (k : Nat) (x : Thread) : (setT s k x).kills = s.kills := rfl
@[simp] theorem setT_retires (k : Nat) (x : Thread) : (setT s k x).retires = s.retires := rfl
@[simp] theorem setT_quads (k : Nat) (x : Thread) : (setT s k x).quads = s.quads := rfl
@[simp] theorem setT_qblks (k : Nat) (x : Thread) : (setT s k x).qblks = s.qblks := rfl
@[simp] theorem setT_hpaths (k : Nat) (x : Thread) : (setT s k x).hpaths = s.hpaths := rfl
@[simp] theorem setT_hreads (k : Nat) (x : Thread) : (setT s k x).hreads = s.hreads := rfl
@[simp] theorem setT_msix (k : Nat) (x : Thread) : (setT s k x).msix = s.msix := rfl
@[simp] theorem setT_gangs (k : Nat) (x : Thread) : (setT s k x).gangs = s.gangs := rfl
@[simp] theorem setT_pkg (k : Nat) (x : Thread) : (setT s k x).pkg = s.pkg := rfl
@[simp] theorem setT_domain (k : Nat) (x : Thread) : (setT s k x).domain = s.domain := rfl
@[simp] theorem setT_mesh (k : Nat) (x : Thread) : (setT s k x).mesh = s.mesh := rfl
@[simp] theorem setT_routes (k : Nat) (x : Thread) : (setT s k x).routes = s.routes := rfl
@[simp] theorem setT_loads (k : Nat) (x : Thread) : (setT s k x).loads = s.loads := rfl
@[simp] theorem setT_reeve (k : Nat) (x : Thread) : (setT s k x).reeve = s.reeve := rfl
@[simp] theorem setT_corrupt (k : Nat) (x : Thread) : (setT s k x).corrupt = s.corrupt := rfl

/-! ### putT -/

@[simp] theorem putT_clock (x : Thread) : (putT s x).clock = s.clock := rfl
@[simp] theorem putT_agenda (x : Thread) : (putT s x).agenda = s.agenda := rfl
@[simp] theorem putT_ends (x : Thread) : (putT s x).ends = s.ends := rfl
@[simp] theorem putT_sched (x : Thread) : (putT s x).sched = s.sched := rfl
@[simp] theorem putT_freeCtr (x : Thread) : (putT s x).freeCtr = s.freeCtr := rfl
@[simp] theorem putT_idCtr (x : Thread) : (putT s x).idCtr = s.idCtr := rfl
@[simp] theorem putT_cur (x : Thread) : (putT s x).cur = s.cur := rfl
@[simp] theorem putT_turn (x : Thread) : (putT s x).turn = s.turn := rfl
@[simp] theorem putT_romHalted (x : Thread) : (putT s x).romHalted = s.romHalted := rfl
@[simp] theorem putT_booted (x : Thread) : (putT s x).booted = s.booted := rfl
@[simp] theorem putT_mem (x : Thread) : (putT s x).mem = s.mem := rfl
@[simp] theorem putT_tsCtr (x : Thread) : (putT s x).tsCtr = s.tsCtr := rfl
@[simp] theorem putT_hist (x : Thread) : (putT s x).hist = s.hist := rfl
@[simp] theorem putT_poison (x : Thread) : (putT s x).poison = s.poison := rfl
@[simp] theorem putT_rels (x : Thread) : (putT s x).rels = s.rels := rfl
@[simp] theorem putT_vers (x : Thread) : (putT s x).vers = s.vers := rfl
@[simp] theorem putT_bwaits (x : Thread) : (putT s x).bwaits = s.bwaits := rfl
@[simp] theorem putT_arrivals (x : Thread) : (putT s x).arrivals = s.arrivals := rfl
@[simp] theorem putT_spawns (x : Thread) : (putT s x).spawns = s.spawns := rfl
@[simp] theorem putT_threads (x : Thread) : (putT s x).threads = mset s.threads s.cur x := rfl
@[simp] theorem putT_slots (x : Thread) : (putT s x).slots = s.slots := rfl
@[simp] theorem putT_cores (x : Thread) : (putT s x).cores = s.cores := rfl
@[simp] theorem putT_tracks (x : Thread) : (putT s x).tracks = s.tracks := rfl
@[simp] theorem putT_tiles (x : Thread) : (putT s x).tiles = s.tiles := rfl
@[simp] theorem putT_tileOps (x : Thread) : (putT s x).tileOps = s.tileOps := rfl
@[simp] theorem putT_clusters (x : Thread) : (putT s x).clusters = s.clusters := rfl
@[simp] theorem putT_queues (x : Thread) : (putT s x).queues = s.queues := rfl
@[simp] theorem putT_ctxs (x : Thread) : (putT s x).ctxs = s.ctxs := rfl
@[simp] theorem putT_cctxs (x : Thread) : (putT s x).cctxs = s.cctxs := rfl
@[simp] theorem putT_cmap (x : Thread) : (putT s x).cmap = s.cmap := rfl
@[simp] theorem putT_filters (x : Thread) : (putT s x).filters = s.filters := rfl
@[simp] theorem putT_faint (x : Thread) : (putT s x).faint = s.faint := rfl
@[simp] theorem putT_ptPoison (x : Thread) : (putT s x).ptPoison = s.ptPoison := rfl
@[simp] theorem putT_fetches (x : Thread) : (putT s x).fetches = s.fetches := rfl
@[simp] theorem putT_faults (x : Thread) : (putT s x).faults = s.faults := rfl
@[simp] theorem putT_discards (x : Thread) : (putT s x).discards = s.discards := rfl
@[simp] theorem putT_kills (x : Thread) : (putT s x).kills = s.kills := rfl
@[simp] theorem putT_retires (x : Thread) : (putT s x).retires = s.retires := rfl
@[simp] theorem putT_quads (x : Thread) : (putT s x).quads = s.quads := rfl
@[simp] theorem putT_qblks (x : Thread) : (putT s x).qblks = s.qblks := rfl
@[simp] theorem putT_hpaths (x : Thread) : (putT s x).hpaths = s.hpaths := rfl
@[simp] theorem putT_hreads (x : Thread) : (putT s x).hreads = s.hreads := rfl
@[simp] theorem putT_msix (x : Thread) : (putT s x).msix = s.msix := rfl
@[simp] theorem putT_gangs (x : Thread) : (putT s x).gangs = s.gangs := rfl
@[simp] theorem putT_pkg (x : Thread) : (putT s x).pkg = s.pkg := rfl
@[simp] theorem putT_domain (x : Thread) : (putT s x).domain = s.domain := rfl
@[simp] theorem putT_mesh (x : Thread) : (putT s x).mesh = s.mesh := rfl
@[simp] theorem putT_routes (x : Thread) : (putT s x).routes = s.routes := rfl
@[simp] theorem putT_loads (x : Thread) : (putT s x).loads = s.loads := rfl
@[simp] theorem putT_reeve (x : Thread) : (putT s x).reeve = s.reeve := rfl
@[simp] theorem putT_corrupt (x : Thread) : (putT s x).corrupt = s.corrupt := rfl

/-! ### setSlot -/

@[simp] theorem setSlot_clock (k : Nat) (x : Slot) : (setSlot s k x).clock = s.clock := rfl
@[simp] theorem setSlot_agenda (k : Nat) (x : Slot) : (setSlot s k x).agenda = s.agenda := rfl
@[simp] theorem setSlot_ends (k : Nat) (x : Slot) : (setSlot s k x).ends = s.ends := rfl
@[simp] theorem setSlot_sched (k : Nat) (x : Slot) : (setSlot s k x).sched = s.sched := rfl
@[simp] theorem setSlot_freeCtr (k : Nat) (x : Slot) : (setSlot s k x).freeCtr = s.freeCtr := rfl
@[simp] theorem setSlot_idCtr (k : Nat) (x : Slot) : (setSlot s k x).idCtr = s.idCtr := rfl
@[simp] theorem setSlot_cur (k : Nat) (x : Slot) : (setSlot s k x).cur = s.cur := rfl
@[simp] theorem setSlot_turn (k : Nat) (x : Slot) : (setSlot s k x).turn = s.turn := rfl
@[simp] theorem setSlot_romHalted (k : Nat) (x : Slot) : (setSlot s k x).romHalted = s.romHalted := rfl
@[simp] theorem setSlot_booted (k : Nat) (x : Slot) : (setSlot s k x).booted = s.booted := rfl
@[simp] theorem setSlot_mem (k : Nat) (x : Slot) : (setSlot s k x).mem = s.mem := rfl
@[simp] theorem setSlot_tsCtr (k : Nat) (x : Slot) : (setSlot s k x).tsCtr = s.tsCtr := rfl
@[simp] theorem setSlot_hist (k : Nat) (x : Slot) : (setSlot s k x).hist = s.hist := rfl
@[simp] theorem setSlot_poison (k : Nat) (x : Slot) : (setSlot s k x).poison = s.poison := rfl
@[simp] theorem setSlot_rels (k : Nat) (x : Slot) : (setSlot s k x).rels = s.rels := rfl
@[simp] theorem setSlot_vers (k : Nat) (x : Slot) : (setSlot s k x).vers = s.vers := rfl
@[simp] theorem setSlot_bwaits (k : Nat) (x : Slot) : (setSlot s k x).bwaits = s.bwaits := rfl
@[simp] theorem setSlot_arrivals (k : Nat) (x : Slot) : (setSlot s k x).arrivals = s.arrivals := rfl
@[simp] theorem setSlot_spawns (k : Nat) (x : Slot) : (setSlot s k x).spawns = s.spawns := rfl
@[simp] theorem setSlot_threads (k : Nat) (x : Slot) : (setSlot s k x).threads = s.threads := rfl
@[simp] theorem setSlot_slots (k : Nat) (x : Slot) : (setSlot s k x).slots = mset s.slots k x := rfl
@[simp] theorem setSlot_cores (k : Nat) (x : Slot) : (setSlot s k x).cores = s.cores := rfl
@[simp] theorem setSlot_tracks (k : Nat) (x : Slot) : (setSlot s k x).tracks = s.tracks := rfl
@[simp] theorem setSlot_tiles (k : Nat) (x : Slot) : (setSlot s k x).tiles = s.tiles := rfl
@[simp] theorem setSlot_tileOps (k : Nat) (x : Slot) : (setSlot s k x).tileOps = s.tileOps := rfl
@[simp] theorem setSlot_clusters (k : Nat) (x : Slot) : (setSlot s k x).clusters = s.clusters := rfl
@[simp] theorem setSlot_queues (k : Nat) (x : Slot) : (setSlot s k x).queues = s.queues := rfl
@[simp] theorem setSlot_ctxs (k : Nat) (x : Slot) : (setSlot s k x).ctxs = s.ctxs := rfl
@[simp] theorem setSlot_cctxs (k : Nat) (x : Slot) : (setSlot s k x).cctxs = s.cctxs := rfl
@[simp] theorem setSlot_cmap (k : Nat) (x : Slot) : (setSlot s k x).cmap = s.cmap := rfl
@[simp] theorem setSlot_filters (k : Nat) (x : Slot) : (setSlot s k x).filters = s.filters := rfl
@[simp] theorem setSlot_faint (k : Nat) (x : Slot) : (setSlot s k x).faint = s.faint := rfl
@[simp] theorem setSlot_ptPoison (k : Nat) (x : Slot) : (setSlot s k x).ptPoison = s.ptPoison := rfl
@[simp] theorem setSlot_fetches (k : Nat) (x : Slot) : (setSlot s k x).fetches = s.fetches := rfl
@[simp] theorem setSlot_faults (k : Nat) (x : Slot) : (setSlot s k x).faults = s.faults := rfl
@[simp] theorem setSlot_discards (k : Nat) (x : Slot) : (setSlot s k x).discards = s.discards := rfl
@[simp] theorem setSlot_kills (k : Nat) (x : Slot) : (setSlot s k x).kills = s.kills := rfl
@[simp] theorem setSlot_retires (k : Nat) (x : Slot) : (setSlot s k x).retires = s.retires := rfl
@[simp] theorem setSlot_quads (k : Nat) (x : Slot) : (setSlot s k x).quads = s.quads := rfl
@[simp] theorem setSlot_qblks (k : Nat) (x : Slot) : (setSlot s k x).qblks = s.qblks := rfl
@[simp] theorem setSlot_hpaths (k : Nat) (x : Slot) : (setSlot s k x).hpaths = s.hpaths := rfl
@[simp] theorem setSlot_hreads (k : Nat) (x : Slot) : (setSlot s k x).hreads = s.hreads := rfl
@[simp] theorem setSlot_msix (k : Nat) (x : Slot) : (setSlot s k x).msix = s.msix := rfl
@[simp] theorem setSlot_gangs (k : Nat) (x : Slot) : (setSlot s k x).gangs = s.gangs := rfl
@[simp] theorem setSlot_pkg (k : Nat) (x : Slot) : (setSlot s k x).pkg = s.pkg := rfl
@[simp] theorem setSlot_domain (k : Nat) (x : Slot) : (setSlot s k x).domain = s.domain := rfl
@[simp] theorem setSlot_mesh (k : Nat) (x : Slot) : (setSlot s k x).mesh = s.mesh := rfl
@[simp] theorem setSlot_routes (k : Nat) (x : Slot) : (setSlot s k x).routes = s.routes := rfl
@[simp] theorem setSlot_loads (k : Nat) (x : Slot) : (setSlot s k x).loads = s.loads := rfl
@[simp] theorem setSlot_reeve (k : Nat) (x : Slot) : (setSlot s k x).reeve = s.reeve := rfl
@[simp] theorem setSlot_corrupt (k : Nat) (x : Slot) : (setSlot s k x).corrupt = s.corrupt := rfl

/-! ### setCore -/

@[simp] theorem setCore_clock (k : Nat) (x : CoreSt) : (setCore s k x).clock = s.clock := rfl
@[simp] theorem setCore_agenda (k : Nat) (x : CoreSt) : (setCore s k x).agenda = s.agenda := rfl
@[simp] theorem setCore_ends (k : Nat) (x : CoreSt) : (setCore s k x).ends = s.ends := rfl
@[simp] theorem setCore_sched (k : Nat) (x : CoreSt) : (setCore s k x).sched = s.sched := rfl
@[simp] theorem setCore_freeCtr (k : Nat) (x : CoreSt) : (setCore s k x).freeCtr = s.freeCtr := rfl
@[simp] theorem setCore_idCtr (k : Nat) (x : CoreSt) : (setCore s k x).idCtr = s.idCtr := rfl
@[simp] theorem setCore_cur (k : Nat) (x : CoreSt) : (setCore s k x).cur = s.cur := rfl
@[simp] theorem setCore_turn (k : Nat) (x : CoreSt) : (setCore s k x).turn = s.turn := rfl
@[simp] theorem setCore_romHalted (k : Nat) (x : CoreSt) : (setCore s k x).romHalted = s.romHalted := rfl
@[simp] theorem setCore_booted (k : Nat) (x : CoreSt) : (setCore s k x).booted = s.booted := rfl
@[simp] theorem setCore_mem (k : Nat) (x : CoreSt) : (setCore s k x).mem = s.mem := rfl
@[simp] theorem setCore_tsCtr (k : Nat) (x : CoreSt) : (setCore s k x).tsCtr = s.tsCtr := rfl
@[simp] theorem setCore_hist (k : Nat) (x : CoreSt) : (setCore s k x).hist = s.hist := rfl
@[simp] theorem setCore_poison (k : Nat) (x : CoreSt) : (setCore s k x).poison = s.poison := rfl
@[simp] theorem setCore_rels (k : Nat) (x : CoreSt) : (setCore s k x).rels = s.rels := rfl
@[simp] theorem setCore_vers (k : Nat) (x : CoreSt) : (setCore s k x).vers = s.vers := rfl
@[simp] theorem setCore_bwaits (k : Nat) (x : CoreSt) : (setCore s k x).bwaits = s.bwaits := rfl
@[simp] theorem setCore_arrivals (k : Nat) (x : CoreSt) : (setCore s k x).arrivals = s.arrivals := rfl
@[simp] theorem setCore_spawns (k : Nat) (x : CoreSt) : (setCore s k x).spawns = s.spawns := rfl
@[simp] theorem setCore_threads (k : Nat) (x : CoreSt) : (setCore s k x).threads = s.threads := rfl
@[simp] theorem setCore_slots (k : Nat) (x : CoreSt) : (setCore s k x).slots = s.slots := rfl
@[simp] theorem setCore_cores (k : Nat) (x : CoreSt) : (setCore s k x).cores = mset s.cores k x := rfl
@[simp] theorem setCore_tracks (k : Nat) (x : CoreSt) : (setCore s k x).tracks = s.tracks := rfl
@[simp] theorem setCore_tiles (k : Nat) (x : CoreSt) : (setCore s k x).tiles = s.tiles := rfl
@[simp] theorem setCore_tileOps (k : Nat) (x : CoreSt) : (setCore s k x).tileOps = s.tileOps := rfl
@[simp] theorem setCore_clusters (k : Nat) (x : CoreSt) : (setCore s k x).clusters = s.clusters := rfl
@[simp] theorem setCore_queues (k : Nat) (x : CoreSt) : (setCore s k x).queues = s.queues := rfl
@[simp] theorem setCore_ctxs (k : Nat) (x : CoreSt) : (setCore s k x).ctxs = s.ctxs := rfl
@[simp] theorem setCore_cctxs (k : Nat) (x : CoreSt) : (setCore s k x).cctxs = s.cctxs := rfl
@[simp] theorem setCore_cmap (k : Nat) (x : CoreSt) : (setCore s k x).cmap = s.cmap := rfl
@[simp] theorem setCore_filters (k : Nat) (x : CoreSt) : (setCore s k x).filters = s.filters := rfl
@[simp] theorem setCore_faint (k : Nat) (x : CoreSt) : (setCore s k x).faint = s.faint := rfl
@[simp] theorem setCore_ptPoison (k : Nat) (x : CoreSt) : (setCore s k x).ptPoison = s.ptPoison := rfl
@[simp] theorem setCore_fetches (k : Nat) (x : CoreSt) : (setCore s k x).fetches = s.fetches := rfl
@[simp] theorem setCore_faults (k : Nat) (x : CoreSt) : (setCore s k x).faults = s.faults := rfl
@[simp] theorem setCore_discards (k : Nat) (x : CoreSt) : (setCore s k x).discards = s.discards := rfl
@[simp] theorem setCore_kills (k : Nat) (x : CoreSt) : (setCore s k x).kills = s.kills := rfl
@[simp] theorem setCore_retires (k : Nat) (x : CoreSt) : (setCore s k x).retires = s.retires := rfl
@[simp] theorem setCore_quads (k : Nat) (x : CoreSt) : (setCore s k x).quads = s.quads := rfl
@[simp] theorem setCore_qblks (k : Nat) (x : CoreSt) : (setCore s k x).qblks = s.qblks := rfl
@[simp] theorem setCore_hpaths (k : Nat) (x : CoreSt) : (setCore s k x).hpaths = s.hpaths := rfl
@[simp] theorem setCore_hreads (k : Nat) (x : CoreSt) : (setCore s k x).hreads = s.hreads := rfl
@[simp] theorem setCore_msix (k : Nat) (x : CoreSt) : (setCore s k x).msix = s.msix := rfl
@[simp] theorem setCore_gangs (k : Nat) (x : CoreSt) : (setCore s k x).gangs = s.gangs := rfl
@[simp] theorem setCore_pkg (k : Nat) (x : CoreSt) : (setCore s k x).pkg = s.pkg := rfl
@[simp] theorem setCore_domain (k : Nat) (x : CoreSt) : (setCore s k x).domain = s.domain := rfl
@[simp] theorem setCore_mesh (k : Nat) (x : CoreSt) : (setCore s k x).mesh = s.mesh := rfl
@[simp] theorem setCore_routes (k : Nat) (x : CoreSt) : (setCore s k x).routes = s.routes := rfl
@[simp] theorem setCore_loads (k : Nat) (x : CoreSt) : (setCore s k x).loads = s.loads := rfl
@[simp] theorem setCore_reeve (k : Nat) (x : CoreSt) : (setCore s k x).reeve = s.reeve := rfl
@[simp] theorem setCore_corrupt (k : Nat) (x : CoreSt) : (setCore s k x).corrupt = s.corrupt := rfl

/-! ### setCtx -/

@[simp] theorem setCtx_clock (k : Nat) (x : Ctx) : (setCtx s k x).clock = s.clock := rfl
@[simp] theorem setCtx_agenda (k : Nat) (x : Ctx) : (setCtx s k x).agenda = s.agenda := rfl
@[simp] theorem setCtx_ends (k : Nat) (x : Ctx) : (setCtx s k x).ends = s.ends := rfl
@[simp] theorem setCtx_sched (k : Nat) (x : Ctx) : (setCtx s k x).sched = s.sched := rfl
@[simp] theorem setCtx_freeCtr (k : Nat) (x : Ctx) : (setCtx s k x).freeCtr = s.freeCtr := rfl
@[simp] theorem setCtx_idCtr (k : Nat) (x : Ctx) : (setCtx s k x).idCtr = s.idCtr := rfl
@[simp] theorem setCtx_cur (k : Nat) (x : Ctx) : (setCtx s k x).cur = s.cur := rfl
@[simp] theorem setCtx_turn (k : Nat) (x : Ctx) : (setCtx s k x).turn = s.turn := rfl
@[simp] theorem setCtx_romHalted (k : Nat) (x : Ctx) : (setCtx s k x).romHalted = s.romHalted := rfl
@[simp] theorem setCtx_booted (k : Nat) (x : Ctx) : (setCtx s k x).booted = s.booted := rfl
@[simp] theorem setCtx_mem (k : Nat) (x : Ctx) : (setCtx s k x).mem = s.mem := rfl
@[simp] theorem setCtx_tsCtr (k : Nat) (x : Ctx) : (setCtx s k x).tsCtr = s.tsCtr := rfl
@[simp] theorem setCtx_hist (k : Nat) (x : Ctx) : (setCtx s k x).hist = s.hist := rfl
@[simp] theorem setCtx_poison (k : Nat) (x : Ctx) : (setCtx s k x).poison = s.poison := rfl
@[simp] theorem setCtx_rels (k : Nat) (x : Ctx) : (setCtx s k x).rels = s.rels := rfl
@[simp] theorem setCtx_vers (k : Nat) (x : Ctx) : (setCtx s k x).vers = s.vers := rfl
@[simp] theorem setCtx_bwaits (k : Nat) (x : Ctx) : (setCtx s k x).bwaits = s.bwaits := rfl
@[simp] theorem setCtx_arrivals (k : Nat) (x : Ctx) : (setCtx s k x).arrivals = s.arrivals := rfl
@[simp] theorem setCtx_spawns (k : Nat) (x : Ctx) : (setCtx s k x).spawns = s.spawns := rfl
@[simp] theorem setCtx_threads (k : Nat) (x : Ctx) : (setCtx s k x).threads = s.threads := rfl
@[simp] theorem setCtx_slots (k : Nat) (x : Ctx) : (setCtx s k x).slots = s.slots := rfl
@[simp] theorem setCtx_cores (k : Nat) (x : Ctx) : (setCtx s k x).cores = s.cores := rfl
@[simp] theorem setCtx_tracks (k : Nat) (x : Ctx) : (setCtx s k x).tracks = s.tracks := rfl
@[simp] theorem setCtx_tiles (k : Nat) (x : Ctx) : (setCtx s k x).tiles = s.tiles := rfl
@[simp] theorem setCtx_tileOps (k : Nat) (x : Ctx) : (setCtx s k x).tileOps = s.tileOps := rfl
@[simp] theorem setCtx_clusters (k : Nat) (x : Ctx) : (setCtx s k x).clusters = s.clusters := rfl
@[simp] theorem setCtx_queues (k : Nat) (x : Ctx) : (setCtx s k x).queues = s.queues := rfl
@[simp] theorem setCtx_ctxs (k : Nat) (x : Ctx) : (setCtx s k x).ctxs = mset s.ctxs k x := rfl
@[simp] theorem setCtx_cctxs (k : Nat) (x : Ctx) : (setCtx s k x).cctxs = s.cctxs := rfl
@[simp] theorem setCtx_cmap (k : Nat) (x : Ctx) : (setCtx s k x).cmap = s.cmap := rfl
@[simp] theorem setCtx_filters (k : Nat) (x : Ctx) : (setCtx s k x).filters = s.filters := rfl
@[simp] theorem setCtx_faint (k : Nat) (x : Ctx) : (setCtx s k x).faint = s.faint := rfl
@[simp] theorem setCtx_ptPoison (k : Nat) (x : Ctx) : (setCtx s k x).ptPoison = s.ptPoison := rfl
@[simp] theorem setCtx_fetches (k : Nat) (x : Ctx) : (setCtx s k x).fetches = s.fetches := rfl
@[simp] theorem setCtx_faults (k : Nat) (x : Ctx) : (setCtx s k x).faults = s.faults := rfl
@[simp] theorem setCtx_discards (k : Nat) (x : Ctx) : (setCtx s k x).discards = s.discards := rfl
@[simp] theorem setCtx_kills (k : Nat) (x : Ctx) : (setCtx s k x).kills = s.kills := rfl
@[simp] theorem setCtx_retires (k : Nat) (x : Ctx) : (setCtx s k x).retires = s.retires := rfl
@[simp] theorem setCtx_quads (k : Nat) (x : Ctx) : (setCtx s k x).quads = s.quads := rfl
@[simp] theorem setCtx_qblks (k : Nat) (x : Ctx) : (setCtx s k x).qblks = s.qblks := rfl
@[simp] theorem setCtx_hpaths (k : Nat) (x : Ctx) : (setCtx s k x).hpaths = s.hpaths := rfl
@[simp] theorem setCtx_hreads (k : Nat) (x : Ctx) : (setCtx s k x).hreads = s.hreads := rfl
@[simp] theorem setCtx_msix (k : Nat) (x : Ctx) : (setCtx s k x).msix = s.msix := rfl
@[simp] theorem setCtx_gangs (k : Nat) (x : Ctx) : (setCtx s k x).gangs = s.gangs := rfl
@[simp] theorem setCtx_pkg (k : Nat) (x : Ctx) : (setCtx s k x).pkg = s.pkg := rfl
@[simp] theorem setCtx_domain (k : Nat) (x : Ctx) : (setCtx s k x).domain = s.domain := rfl
@[simp] theorem setCtx_mesh (k : Nat) (x : Ctx) : (setCtx s k x).mesh = s.mesh := rfl
@[simp] theorem setCtx_routes (k : Nat) (x : Ctx) : (setCtx s k x).routes = s.routes := rfl
@[simp] theorem setCtx_loads (k : Nat) (x : Ctx) : (setCtx s k x).loads = s.loads := rfl
@[simp] theorem setCtx_reeve (k : Nat) (x : Ctx) : (setCtx s k x).reeve = s.reeve := rfl
@[simp] theorem setCtx_corrupt (k : Nat) (x : Ctx) : (setCtx s k x).corrupt = s.corrupt := rfl

/-! ### setCC -/

@[simp] theorem setCC_clock (c l : Nat) (x : CoreCtx) : (setCC s c l x).clock = s.clock := rfl
@[simp] theorem setCC_agenda (c l : Nat) (x : CoreCtx) : (setCC s c l x).agenda = s.agenda := rfl
@[simp] theorem setCC_ends (c l : Nat) (x : CoreCtx) : (setCC s c l x).ends = s.ends := rfl
@[simp] theorem setCC_sched (c l : Nat) (x : CoreCtx) : (setCC s c l x).sched = s.sched := rfl
@[simp] theorem setCC_freeCtr (c l : Nat) (x : CoreCtx) : (setCC s c l x).freeCtr = s.freeCtr := rfl
@[simp] theorem setCC_idCtr (c l : Nat) (x : CoreCtx) : (setCC s c l x).idCtr = s.idCtr := rfl
@[simp] theorem setCC_cur (c l : Nat) (x : CoreCtx) : (setCC s c l x).cur = s.cur := rfl
@[simp] theorem setCC_turn (c l : Nat) (x : CoreCtx) : (setCC s c l x).turn = s.turn := rfl
@[simp] theorem setCC_romHalted (c l : Nat) (x : CoreCtx) : (setCC s c l x).romHalted = s.romHalted := rfl
@[simp] theorem setCC_booted (c l : Nat) (x : CoreCtx) : (setCC s c l x).booted = s.booted := rfl
@[simp] theorem setCC_mem (c l : Nat) (x : CoreCtx) : (setCC s c l x).mem = s.mem := rfl
@[simp] theorem setCC_tsCtr (c l : Nat) (x : CoreCtx) : (setCC s c l x).tsCtr = s.tsCtr := rfl
@[simp] theorem setCC_hist (c l : Nat) (x : CoreCtx) : (setCC s c l x).hist = s.hist := rfl
@[simp] theorem setCC_poison (c l : Nat) (x : CoreCtx) : (setCC s c l x).poison = s.poison := rfl
@[simp] theorem setCC_rels (c l : Nat) (x : CoreCtx) : (setCC s c l x).rels = s.rels := rfl
@[simp] theorem setCC_vers (c l : Nat) (x : CoreCtx) : (setCC s c l x).vers = s.vers := rfl
@[simp] theorem setCC_bwaits (c l : Nat) (x : CoreCtx) : (setCC s c l x).bwaits = s.bwaits := rfl
@[simp] theorem setCC_arrivals (c l : Nat) (x : CoreCtx) : (setCC s c l x).arrivals = s.arrivals := rfl
@[simp] theorem setCC_spawns (c l : Nat) (x : CoreCtx) : (setCC s c l x).spawns = s.spawns := rfl
@[simp] theorem setCC_threads (c l : Nat) (x : CoreCtx) : (setCC s c l x).threads = s.threads := rfl
@[simp] theorem setCC_slots (c l : Nat) (x : CoreCtx) : (setCC s c l x).slots = s.slots := rfl
@[simp] theorem setCC_cores (c l : Nat) (x : CoreCtx) : (setCC s c l x).cores = s.cores := rfl
@[simp] theorem setCC_tracks (c l : Nat) (x : CoreCtx) : (setCC s c l x).tracks = s.tracks := rfl
@[simp] theorem setCC_tiles (c l : Nat) (x : CoreCtx) : (setCC s c l x).tiles = s.tiles := rfl
@[simp] theorem setCC_tileOps (c l : Nat) (x : CoreCtx) : (setCC s c l x).tileOps = s.tileOps := rfl
@[simp] theorem setCC_clusters (c l : Nat) (x : CoreCtx) : (setCC s c l x).clusters = s.clusters := rfl
@[simp] theorem setCC_queues (c l : Nat) (x : CoreCtx) : (setCC s c l x).queues = s.queues := rfl
@[simp] theorem setCC_ctxs (c l : Nat) (x : CoreCtx) : (setCC s c l x).ctxs = s.ctxs := rfl
@[simp] theorem setCC_cctxs (c l : Nat) (x : CoreCtx) : (setCC s c l x).cctxs = mset s.cctxs (ccKey c l) x := rfl
@[simp] theorem setCC_cmap (c l : Nat) (x : CoreCtx) : (setCC s c l x).cmap = s.cmap := rfl
@[simp] theorem setCC_filters (c l : Nat) (x : CoreCtx) : (setCC s c l x).filters = s.filters := rfl
@[simp] theorem setCC_faint (c l : Nat) (x : CoreCtx) : (setCC s c l x).faint = s.faint := rfl
@[simp] theorem setCC_ptPoison (c l : Nat) (x : CoreCtx) : (setCC s c l x).ptPoison = s.ptPoison := rfl
@[simp] theorem setCC_fetches (c l : Nat) (x : CoreCtx) : (setCC s c l x).fetches = s.fetches := rfl
@[simp] theorem setCC_faults (c l : Nat) (x : CoreCtx) : (setCC s c l x).faults = s.faults := rfl
@[simp] theorem setCC_discards (c l : Nat) (x : CoreCtx) : (setCC s c l x).discards = s.discards := rfl
@[simp] theorem setCC_kills (c l : Nat) (x : CoreCtx) : (setCC s c l x).kills = s.kills := rfl
@[simp] theorem setCC_retires (c l : Nat) (x : CoreCtx) : (setCC s c l x).retires = s.retires := rfl
@[simp] theorem setCC_quads (c l : Nat) (x : CoreCtx) : (setCC s c l x).quads = s.quads := rfl
@[simp] theorem setCC_qblks (c l : Nat) (x : CoreCtx) : (setCC s c l x).qblks = s.qblks := rfl
@[simp] theorem setCC_hpaths (c l : Nat) (x : CoreCtx) : (setCC s c l x).hpaths = s.hpaths := rfl
@[simp] theorem setCC_hreads (c l : Nat) (x : CoreCtx) : (setCC s c l x).hreads = s.hreads := rfl
@[simp] theorem setCC_msix (c l : Nat) (x : CoreCtx) : (setCC s c l x).msix = s.msix := rfl
@[simp] theorem setCC_gangs (c l : Nat) (x : CoreCtx) : (setCC s c l x).gangs = s.gangs := rfl
@[simp] theorem setCC_pkg (c l : Nat) (x : CoreCtx) : (setCC s c l x).pkg = s.pkg := rfl
@[simp] theorem setCC_domain (c l : Nat) (x : CoreCtx) : (setCC s c l x).domain = s.domain := rfl
@[simp] theorem setCC_mesh (c l : Nat) (x : CoreCtx) : (setCC s c l x).mesh = s.mesh := rfl
@[simp] theorem setCC_routes (c l : Nat) (x : CoreCtx) : (setCC s c l x).routes = s.routes := rfl
@[simp] theorem setCC_loads (c l : Nat) (x : CoreCtx) : (setCC s c l x).loads = s.loads := rfl
@[simp] theorem setCC_reeve (c l : Nat) (x : CoreCtx) : (setCC s c l x).reeve = s.reeve := rfl
@[simp] theorem setCC_corrupt (c l : Nat) (x : CoreCtx) : (setCC s c l x).corrupt = s.corrupt := rfl

/-! ### setCluster -/

@[simp] theorem setCluster_clock (k : Nat) (x : Cluster) : (setCluster s k x).clock = s.clock := rfl
@[simp] theorem setCluster_agenda (k : Nat) (x : Cluster) : (setCluster s k x).agenda = s.agenda := rfl
@[simp] theorem setCluster_ends (k : Nat) (x : Cluster) : (setCluster s k x).ends = s.ends := rfl
@[simp] theorem setCluster_sched (k : Nat) (x : Cluster) : (setCluster s k x).sched = s.sched := rfl
@[simp] theorem setCluster_freeCtr (k : Nat) (x : Cluster) : (setCluster s k x).freeCtr = s.freeCtr := rfl
@[simp] theorem setCluster_idCtr (k : Nat) (x : Cluster) : (setCluster s k x).idCtr = s.idCtr := rfl
@[simp] theorem setCluster_cur (k : Nat) (x : Cluster) : (setCluster s k x).cur = s.cur := rfl
@[simp] theorem setCluster_turn (k : Nat) (x : Cluster) : (setCluster s k x).turn = s.turn := rfl
@[simp] theorem setCluster_romHalted (k : Nat) (x : Cluster) : (setCluster s k x).romHalted = s.romHalted := rfl
@[simp] theorem setCluster_booted (k : Nat) (x : Cluster) : (setCluster s k x).booted = s.booted := rfl
@[simp] theorem setCluster_mem (k : Nat) (x : Cluster) : (setCluster s k x).mem = s.mem := rfl
@[simp] theorem setCluster_tsCtr (k : Nat) (x : Cluster) : (setCluster s k x).tsCtr = s.tsCtr := rfl
@[simp] theorem setCluster_hist (k : Nat) (x : Cluster) : (setCluster s k x).hist = s.hist := rfl
@[simp] theorem setCluster_poison (k : Nat) (x : Cluster) : (setCluster s k x).poison = s.poison := rfl
@[simp] theorem setCluster_rels (k : Nat) (x : Cluster) : (setCluster s k x).rels = s.rels := rfl
@[simp] theorem setCluster_vers (k : Nat) (x : Cluster) : (setCluster s k x).vers = s.vers := rfl
@[simp] theorem setCluster_bwaits (k : Nat) (x : Cluster) : (setCluster s k x).bwaits = s.bwaits := rfl
@[simp] theorem setCluster_arrivals (k : Nat) (x : Cluster) : (setCluster s k x).arrivals = s.arrivals := rfl
@[simp] theorem setCluster_spawns (k : Nat) (x : Cluster) : (setCluster s k x).spawns = s.spawns := rfl
@[simp] theorem setCluster_threads (k : Nat) (x : Cluster) : (setCluster s k x).threads = s.threads := rfl
@[simp] theorem setCluster_slots (k : Nat) (x : Cluster) : (setCluster s k x).slots = s.slots := rfl
@[simp] theorem setCluster_cores (k : Nat) (x : Cluster) : (setCluster s k x).cores = s.cores := rfl
@[simp] theorem setCluster_tracks (k : Nat) (x : Cluster) : (setCluster s k x).tracks = s.tracks := rfl
@[simp] theorem setCluster_tiles (k : Nat) (x : Cluster) : (setCluster s k x).tiles = s.tiles := rfl
@[simp] theorem setCluster_tileOps (k : Nat) (x : Cluster) : (setCluster s k x).tileOps = s.tileOps := rfl
@[simp] theorem setCluster_clusters (k : Nat) (x : Cluster) : (setCluster s k x).clusters = mset s.clusters k x := rfl
@[simp] theorem setCluster_queues (k : Nat) (x : Cluster) : (setCluster s k x).queues = s.queues := rfl
@[simp] theorem setCluster_ctxs (k : Nat) (x : Cluster) : (setCluster s k x).ctxs = s.ctxs := rfl
@[simp] theorem setCluster_cctxs (k : Nat) (x : Cluster) : (setCluster s k x).cctxs = s.cctxs := rfl
@[simp] theorem setCluster_cmap (k : Nat) (x : Cluster) : (setCluster s k x).cmap = s.cmap := rfl
@[simp] theorem setCluster_filters (k : Nat) (x : Cluster) : (setCluster s k x).filters = s.filters := rfl
@[simp] theorem setCluster_faint (k : Nat) (x : Cluster) : (setCluster s k x).faint = s.faint := rfl
@[simp] theorem setCluster_ptPoison (k : Nat) (x : Cluster) : (setCluster s k x).ptPoison = s.ptPoison := rfl
@[simp] theorem setCluster_fetches (k : Nat) (x : Cluster) : (setCluster s k x).fetches = s.fetches := rfl
@[simp] theorem setCluster_faults (k : Nat) (x : Cluster) : (setCluster s k x).faults = s.faults := rfl
@[simp] theorem setCluster_discards (k : Nat) (x : Cluster) : (setCluster s k x).discards = s.discards := rfl
@[simp] theorem setCluster_kills (k : Nat) (x : Cluster) : (setCluster s k x).kills = s.kills := rfl
@[simp] theorem setCluster_retires (k : Nat) (x : Cluster) : (setCluster s k x).retires = s.retires := rfl
@[simp] theorem setCluster_quads (k : Nat) (x : Cluster) : (setCluster s k x).quads = s.quads := rfl
@[simp] theorem setCluster_qblks (k : Nat) (x : Cluster) : (setCluster s k x).qblks = s.qblks := rfl
@[simp] theorem setCluster_hpaths (k : Nat) (x : Cluster) : (setCluster s k x).hpaths = s.hpaths := rfl
@[simp] theorem setCluster_hreads (k : Nat) (x : Cluster) : (setCluster s k x).hreads = s.hreads := rfl
@[simp] theorem setCluster_msix (k : Nat) (x : Cluster) : (setCluster s k x).msix = s.msix := rfl
@[simp] theorem setCluster_gangs (k : Nat) (x : Cluster) : (setCluster s k x).gangs = s.gangs := rfl
@[simp] theorem setCluster_pkg (k : Nat) (x : Cluster) : (setCluster s k x).pkg = s.pkg := rfl
@[simp] theorem setCluster_domain (k : Nat) (x : Cluster) : (setCluster s k x).domain = s.domain := rfl
@[simp] theorem setCluster_mesh (k : Nat) (x : Cluster) : (setCluster s k x).mesh = s.mesh := rfl
@[simp] theorem setCluster_routes (k : Nat) (x : Cluster) : (setCluster s k x).routes = s.routes := rfl
@[simp] theorem setCluster_loads (k : Nat) (x : Cluster) : (setCluster s k x).loads = s.loads := rfl
@[simp] theorem setCluster_reeve (k : Nat) (x : Cluster) : (setCluster s k x).reeve = s.reeve := rfl
@[simp] theorem setCluster_corrupt (k : Nat) (x : Cluster) : (setCluster s k x).corrupt = s.corrupt := rfl

/-! ### setQueue -/

@[simp] theorem setQueue_clock (k : Nat) (x : JQueue) : (setQueue s k x).clock = s.clock := rfl
@[simp] theorem setQueue_agenda (k : Nat) (x : JQueue) : (setQueue s k x).agenda = s.agenda := rfl
@[simp] theorem setQueue_ends (k : Nat) (x : JQueue) : (setQueue s k x).ends = s.ends := rfl
@[simp] theorem setQueue_sched (k : Nat) (x : JQueue) : (setQueue s k x).sched = s.sched := rfl
@[simp] theorem setQueue_freeCtr (k : Nat) (x : JQueue) : (setQueue s k x).freeCtr = s.freeCtr := rfl
@[simp] theorem setQueue_idCtr (k : Nat) (x : JQueue) : (setQueue s k x).idCtr = s.idCtr := rfl
@[simp] theorem setQueue_cur (k : Nat) (x : JQueue) : (setQueue s k x).cur = s.cur := rfl
@[simp] theorem setQueue_turn (k : Nat) (x : JQueue) : (setQueue s k x).turn = s.turn := rfl
@[simp] theorem setQueue_romHalted (k : Nat) (x : JQueue) : (setQueue s k x).romHalted = s.romHalted := rfl
@[simp] theorem setQueue_booted (k : Nat) (x : JQueue) : (setQueue s k x).booted = s.booted := rfl
@[simp] theorem setQueue_mem (k : Nat) (x : JQueue) : (setQueue s k x).mem = s.mem := rfl
@[simp] theorem setQueue_tsCtr (k : Nat) (x : JQueue) : (setQueue s k x).tsCtr = s.tsCtr := rfl
@[simp] theorem setQueue_hist (k : Nat) (x : JQueue) : (setQueue s k x).hist = s.hist := rfl
@[simp] theorem setQueue_poison (k : Nat) (x : JQueue) : (setQueue s k x).poison = s.poison := rfl
@[simp] theorem setQueue_rels (k : Nat) (x : JQueue) : (setQueue s k x).rels = s.rels := rfl
@[simp] theorem setQueue_vers (k : Nat) (x : JQueue) : (setQueue s k x).vers = s.vers := rfl
@[simp] theorem setQueue_bwaits (k : Nat) (x : JQueue) : (setQueue s k x).bwaits = s.bwaits := rfl
@[simp] theorem setQueue_arrivals (k : Nat) (x : JQueue) : (setQueue s k x).arrivals = s.arrivals := rfl
@[simp] theorem setQueue_spawns (k : Nat) (x : JQueue) : (setQueue s k x).spawns = s.spawns := rfl
@[simp] theorem setQueue_threads (k : Nat) (x : JQueue) : (setQueue s k x).threads = s.threads := rfl
@[simp] theorem setQueue_slots (k : Nat) (x : JQueue) : (setQueue s k x).slots = s.slots := rfl
@[simp] theorem setQueue_cores (k : Nat) (x : JQueue) : (setQueue s k x).cores = s.cores := rfl
@[simp] theorem setQueue_tracks (k : Nat) (x : JQueue) : (setQueue s k x).tracks = s.tracks := rfl
@[simp] theorem setQueue_tiles (k : Nat) (x : JQueue) : (setQueue s k x).tiles = s.tiles := rfl
@[simp] theorem setQueue_tileOps (k : Nat) (x : JQueue) : (setQueue s k x).tileOps = s.tileOps := rfl
@[simp] theorem setQueue_clusters (k : Nat) (x : JQueue) : (setQueue s k x).clusters = s.clusters := rfl
@[simp] theorem setQueue_queues (k : Nat) (x : JQueue) : (setQueue s k x).queues = mset s.queues k x := rfl
@[simp] theorem setQueue_ctxs (k : Nat) (x : JQueue) : (setQueue s k x).ctxs = s.ctxs := rfl
@[simp] theorem setQueue_cctxs (k : Nat) (x : JQueue) : (setQueue s k x).cctxs = s.cctxs := rfl
@[simp] theorem setQueue_cmap (k : Nat) (x : JQueue) : (setQueue s k x).cmap = s.cmap := rfl
@[simp] theorem setQueue_filters (k : Nat) (x : JQueue) : (setQueue s k x).filters = s.filters := rfl
@[simp] theorem setQueue_faint (k : Nat) (x : JQueue) : (setQueue s k x).faint = s.faint := rfl
@[simp] theorem setQueue_ptPoison (k : Nat) (x : JQueue) : (setQueue s k x).ptPoison = s.ptPoison := rfl
@[simp] theorem setQueue_fetches (k : Nat) (x : JQueue) : (setQueue s k x).fetches = s.fetches := rfl
@[simp] theorem setQueue_faults (k : Nat) (x : JQueue) : (setQueue s k x).faults = s.faults := rfl
@[simp] theorem setQueue_discards (k : Nat) (x : JQueue) : (setQueue s k x).discards = s.discards := rfl
@[simp] theorem setQueue_kills (k : Nat) (x : JQueue) : (setQueue s k x).kills = s.kills := rfl
@[simp] theorem setQueue_retires (k : Nat) (x : JQueue) : (setQueue s k x).retires = s.retires := rfl
@[simp] theorem setQueue_quads (k : Nat) (x : JQueue) : (setQueue s k x).quads = s.quads := rfl
@[simp] theorem setQueue_qblks (k : Nat) (x : JQueue) : (setQueue s k x).qblks = s.qblks := rfl
@[simp] theorem setQueue_hpaths (k : Nat) (x : JQueue) : (setQueue s k x).hpaths = s.hpaths := rfl
@[simp] theorem setQueue_hreads (k : Nat) (x : JQueue) : (setQueue s k x).hreads = s.hreads := rfl
@[simp] theorem setQueue_msix (k : Nat) (x : JQueue) : (setQueue s k x).msix = s.msix := rfl
@[simp] theorem setQueue_gangs (k : Nat) (x : JQueue) : (setQueue s k x).gangs = s.gangs := rfl
@[simp] theorem setQueue_pkg (k : Nat) (x : JQueue) : (setQueue s k x).pkg = s.pkg := rfl
@[simp] theorem setQueue_domain (k : Nat) (x : JQueue) : (setQueue s k x).domain = s.domain := rfl
@[simp] theorem setQueue_mesh (k : Nat) (x : JQueue) : (setQueue s k x).mesh = s.mesh := rfl
@[simp] theorem setQueue_routes (k : Nat) (x : JQueue) : (setQueue s k x).routes = s.routes := rfl
@[simp] theorem setQueue_loads (k : Nat) (x : JQueue) : (setQueue s k x).loads = s.loads := rfl
@[simp] theorem setQueue_reeve (k : Nat) (x : JQueue) : (setQueue s k x).reeve = s.reeve := rfl
@[simp] theorem setQueue_corrupt (k : Nat) (x : JQueue) : (setQueue s k x).corrupt = s.corrupt := rfl

/-! ### setTrack -/

@[simp] theorem setTrack_clock (k : Nat) (x : Track) : (setTrack s k x).clock = s.clock := rfl
@[simp] theorem setTrack_agenda (k : Nat) (x : Track) : (setTrack s k x).agenda = s.agenda := rfl
@[simp] theorem setTrack_ends (k : Nat) (x : Track) : (setTrack s k x).ends = s.ends := rfl
@[simp] theorem setTrack_sched (k : Nat) (x : Track) : (setTrack s k x).sched = s.sched := rfl
@[simp] theorem setTrack_freeCtr (k : Nat) (x : Track) : (setTrack s k x).freeCtr = s.freeCtr := rfl
@[simp] theorem setTrack_idCtr (k : Nat) (x : Track) : (setTrack s k x).idCtr = s.idCtr := rfl
@[simp] theorem setTrack_cur (k : Nat) (x : Track) : (setTrack s k x).cur = s.cur := rfl
@[simp] theorem setTrack_turn (k : Nat) (x : Track) : (setTrack s k x).turn = s.turn := rfl
@[simp] theorem setTrack_romHalted (k : Nat) (x : Track) : (setTrack s k x).romHalted = s.romHalted := rfl
@[simp] theorem setTrack_booted (k : Nat) (x : Track) : (setTrack s k x).booted = s.booted := rfl
@[simp] theorem setTrack_mem (k : Nat) (x : Track) : (setTrack s k x).mem = s.mem := rfl
@[simp] theorem setTrack_tsCtr (k : Nat) (x : Track) : (setTrack s k x).tsCtr = s.tsCtr := rfl
@[simp] theorem setTrack_hist (k : Nat) (x : Track) : (setTrack s k x).hist = s.hist := rfl
@[simp] theorem setTrack_poison (k : Nat) (x : Track) : (setTrack s k x).poison = s.poison := rfl
@[simp] theorem setTrack_rels (k : Nat) (x : Track) : (setTrack s k x).rels = s.rels := rfl
@[simp] theorem setTrack_vers (k : Nat) (x : Track) : (setTrack s k x).vers = s.vers := rfl
@[simp] theorem setTrack_bwaits (k : Nat) (x : Track) : (setTrack s k x).bwaits = s.bwaits := rfl
@[simp] theorem setTrack_arrivals (k : Nat) (x : Track) : (setTrack s k x).arrivals = s.arrivals := rfl
@[simp] theorem setTrack_spawns (k : Nat) (x : Track) : (setTrack s k x).spawns = s.spawns := rfl
@[simp] theorem setTrack_threads (k : Nat) (x : Track) : (setTrack s k x).threads = s.threads := rfl
@[simp] theorem setTrack_slots (k : Nat) (x : Track) : (setTrack s k x).slots = s.slots := rfl
@[simp] theorem setTrack_cores (k : Nat) (x : Track) : (setTrack s k x).cores = s.cores := rfl
@[simp] theorem setTrack_tracks (k : Nat) (x : Track) : (setTrack s k x).tracks = mset s.tracks k x := rfl
@[simp] theorem setTrack_tiles (k : Nat) (x : Track) : (setTrack s k x).tiles = s.tiles := rfl
@[simp] theorem setTrack_tileOps (k : Nat) (x : Track) : (setTrack s k x).tileOps = s.tileOps := rfl
@[simp] theorem setTrack_clusters (k : Nat) (x : Track) : (setTrack s k x).clusters = s.clusters := rfl
@[simp] theorem setTrack_queues (k : Nat) (x : Track) : (setTrack s k x).queues = s.queues := rfl
@[simp] theorem setTrack_ctxs (k : Nat) (x : Track) : (setTrack s k x).ctxs = s.ctxs := rfl
@[simp] theorem setTrack_cctxs (k : Nat) (x : Track) : (setTrack s k x).cctxs = s.cctxs := rfl
@[simp] theorem setTrack_cmap (k : Nat) (x : Track) : (setTrack s k x).cmap = s.cmap := rfl
@[simp] theorem setTrack_filters (k : Nat) (x : Track) : (setTrack s k x).filters = s.filters := rfl
@[simp] theorem setTrack_faint (k : Nat) (x : Track) : (setTrack s k x).faint = s.faint := rfl
@[simp] theorem setTrack_ptPoison (k : Nat) (x : Track) : (setTrack s k x).ptPoison = s.ptPoison := rfl
@[simp] theorem setTrack_fetches (k : Nat) (x : Track) : (setTrack s k x).fetches = s.fetches := rfl
@[simp] theorem setTrack_faults (k : Nat) (x : Track) : (setTrack s k x).faults = s.faults := rfl
@[simp] theorem setTrack_discards (k : Nat) (x : Track) : (setTrack s k x).discards = s.discards := rfl
@[simp] theorem setTrack_kills (k : Nat) (x : Track) : (setTrack s k x).kills = s.kills := rfl
@[simp] theorem setTrack_retires (k : Nat) (x : Track) : (setTrack s k x).retires = s.retires := rfl
@[simp] theorem setTrack_quads (k : Nat) (x : Track) : (setTrack s k x).quads = s.quads := rfl
@[simp] theorem setTrack_qblks (k : Nat) (x : Track) : (setTrack s k x).qblks = s.qblks := rfl
@[simp] theorem setTrack_hpaths (k : Nat) (x : Track) : (setTrack s k x).hpaths = s.hpaths := rfl
@[simp] theorem setTrack_hreads (k : Nat) (x : Track) : (setTrack s k x).hreads = s.hreads := rfl
@[simp] theorem setTrack_msix (k : Nat) (x : Track) : (setTrack s k x).msix = s.msix := rfl
@[simp] theorem setTrack_gangs (k : Nat) (x : Track) : (setTrack s k x).gangs = s.gangs := rfl
@[simp] theorem setTrack_pkg (k : Nat) (x : Track) : (setTrack s k x).pkg = s.pkg := rfl
@[simp] theorem setTrack_domain (k : Nat) (x : Track) : (setTrack s k x).domain = s.domain := rfl
@[simp] theorem setTrack_mesh (k : Nat) (x : Track) : (setTrack s k x).mesh = s.mesh := rfl
@[simp] theorem setTrack_routes (k : Nat) (x : Track) : (setTrack s k x).routes = s.routes := rfl
@[simp] theorem setTrack_loads (k : Nat) (x : Track) : (setTrack s k x).loads = s.loads := rfl
@[simp] theorem setTrack_reeve (k : Nat) (x : Track) : (setTrack s k x).reeve = s.reeve := rfl
@[simp] theorem setTrack_corrupt (k : Nat) (x : Track) : (setTrack s k x).corrupt = s.corrupt := rfl

/-! ### setTile -/

@[simp] theorem setTile_clock (k : Nat) (x : Tile) : (setTile s k x).clock = s.clock := rfl
@[simp] theorem setTile_agenda (k : Nat) (x : Tile) : (setTile s k x).agenda = s.agenda := rfl
@[simp] theorem setTile_ends (k : Nat) (x : Tile) : (setTile s k x).ends = s.ends := rfl
@[simp] theorem setTile_sched (k : Nat) (x : Tile) : (setTile s k x).sched = s.sched := rfl
@[simp] theorem setTile_freeCtr (k : Nat) (x : Tile) : (setTile s k x).freeCtr = s.freeCtr := rfl
@[simp] theorem setTile_idCtr (k : Nat) (x : Tile) : (setTile s k x).idCtr = s.idCtr := rfl
@[simp] theorem setTile_cur (k : Nat) (x : Tile) : (setTile s k x).cur = s.cur := rfl
@[simp] theorem setTile_turn (k : Nat) (x : Tile) : (setTile s k x).turn = s.turn := rfl
@[simp] theorem setTile_romHalted (k : Nat) (x : Tile) : (setTile s k x).romHalted = s.romHalted := rfl
@[simp] theorem setTile_booted (k : Nat) (x : Tile) : (setTile s k x).booted = s.booted := rfl
@[simp] theorem setTile_mem (k : Nat) (x : Tile) : (setTile s k x).mem = s.mem := rfl
@[simp] theorem setTile_tsCtr (k : Nat) (x : Tile) : (setTile s k x).tsCtr = s.tsCtr := rfl
@[simp] theorem setTile_hist (k : Nat) (x : Tile) : (setTile s k x).hist = s.hist := rfl
@[simp] theorem setTile_poison (k : Nat) (x : Tile) : (setTile s k x).poison = s.poison := rfl
@[simp] theorem setTile_rels (k : Nat) (x : Tile) : (setTile s k x).rels = s.rels := rfl
@[simp] theorem setTile_vers (k : Nat) (x : Tile) : (setTile s k x).vers = s.vers := rfl
@[simp] theorem setTile_bwaits (k : Nat) (x : Tile) : (setTile s k x).bwaits = s.bwaits := rfl
@[simp] theorem setTile_arrivals (k : Nat) (x : Tile) : (setTile s k x).arrivals = s.arrivals := rfl
@[simp] theorem setTile_spawns (k : Nat) (x : Tile) : (setTile s k x).spawns = s.spawns := rfl
@[simp] theorem setTile_threads (k : Nat) (x : Tile) : (setTile s k x).threads = s.threads := rfl
@[simp] theorem setTile_slots (k : Nat) (x : Tile) : (setTile s k x).slots = s.slots := rfl
@[simp] theorem setTile_cores (k : Nat) (x : Tile) : (setTile s k x).cores = s.cores := rfl
@[simp] theorem setTile_tracks (k : Nat) (x : Tile) : (setTile s k x).tracks = s.tracks := rfl
@[simp] theorem setTile_tiles (k : Nat) (x : Tile) : (setTile s k x).tiles = mset s.tiles k x := rfl
@[simp] theorem setTile_tileOps (k : Nat) (x : Tile) : (setTile s k x).tileOps = s.tileOps := rfl
@[simp] theorem setTile_clusters (k : Nat) (x : Tile) : (setTile s k x).clusters = s.clusters := rfl
@[simp] theorem setTile_queues (k : Nat) (x : Tile) : (setTile s k x).queues = s.queues := rfl
@[simp] theorem setTile_ctxs (k : Nat) (x : Tile) : (setTile s k x).ctxs = s.ctxs := rfl
@[simp] theorem setTile_cctxs (k : Nat) (x : Tile) : (setTile s k x).cctxs = s.cctxs := rfl
@[simp] theorem setTile_cmap (k : Nat) (x : Tile) : (setTile s k x).cmap = s.cmap := rfl
@[simp] theorem setTile_filters (k : Nat) (x : Tile) : (setTile s k x).filters = s.filters := rfl
@[simp] theorem setTile_faint (k : Nat) (x : Tile) : (setTile s k x).faint = s.faint := rfl
@[simp] theorem setTile_ptPoison (k : Nat) (x : Tile) : (setTile s k x).ptPoison = s.ptPoison := rfl
@[simp] theorem setTile_fetches (k : Nat) (x : Tile) : (setTile s k x).fetches = s.fetches := rfl
@[simp] theorem setTile_faults (k : Nat) (x : Tile) : (setTile s k x).faults = s.faults := rfl
@[simp] theorem setTile_discards (k : Nat) (x : Tile) : (setTile s k x).discards = s.discards := rfl
@[simp] theorem setTile_kills (k : Nat) (x : Tile) : (setTile s k x).kills = s.kills := rfl
@[simp] theorem setTile_retires (k : Nat) (x : Tile) : (setTile s k x).retires = s.retires := rfl
@[simp] theorem setTile_quads (k : Nat) (x : Tile) : (setTile s k x).quads = s.quads := rfl
@[simp] theorem setTile_qblks (k : Nat) (x : Tile) : (setTile s k x).qblks = s.qblks := rfl
@[simp] theorem setTile_hpaths (k : Nat) (x : Tile) : (setTile s k x).hpaths = s.hpaths := rfl
@[simp] theorem setTile_hreads (k : Nat) (x : Tile) : (setTile s k x).hreads = s.hreads := rfl
@[simp] theorem setTile_msix (k : Nat) (x : Tile) : (setTile s k x).msix = s.msix := rfl
@[simp] theorem setTile_gangs (k : Nat) (x : Tile) : (setTile s k x).gangs = s.gangs := rfl
@[simp] theorem setTile_pkg (k : Nat) (x : Tile) : (setTile s k x).pkg = s.pkg := rfl
@[simp] theorem setTile_domain (k : Nat) (x : Tile) : (setTile s k x).domain = s.domain := rfl
@[simp] theorem setTile_mesh (k : Nat) (x : Tile) : (setTile s k x).mesh = s.mesh := rfl
@[simp] theorem setTile_routes (k : Nat) (x : Tile) : (setTile s k x).routes = s.routes := rfl
@[simp] theorem setTile_loads (k : Nat) (x : Tile) : (setTile s k x).loads = s.loads := rfl
@[simp] theorem setTile_reeve (k : Nat) (x : Tile) : (setTile s k x).reeve = s.reeve := rfl
@[simp] theorem setTile_corrupt (k : Nat) (x : Tile) : (setTile s k x).corrupt = s.corrupt := rfl

/-! ### setQuad -/

@[simp] theorem setQuad_clock (k : Nat) (x : Quad) : (setQuad s k x).clock = s.clock := rfl
@[simp] theorem setQuad_agenda (k : Nat) (x : Quad) : (setQuad s k x).agenda = s.agenda := rfl
@[simp] theorem setQuad_ends (k : Nat) (x : Quad) : (setQuad s k x).ends = s.ends := rfl
@[simp] theorem setQuad_sched (k : Nat) (x : Quad) : (setQuad s k x).sched = s.sched := rfl
@[simp] theorem setQuad_freeCtr (k : Nat) (x : Quad) : (setQuad s k x).freeCtr = s.freeCtr := rfl
@[simp] theorem setQuad_idCtr (k : Nat) (x : Quad) : (setQuad s k x).idCtr = s.idCtr := rfl
@[simp] theorem setQuad_cur (k : Nat) (x : Quad) : (setQuad s k x).cur = s.cur := rfl
@[simp] theorem setQuad_turn (k : Nat) (x : Quad) : (setQuad s k x).turn = s.turn := rfl
@[simp] theorem setQuad_romHalted (k : Nat) (x : Quad) : (setQuad s k x).romHalted = s.romHalted := rfl
@[simp] theorem setQuad_booted (k : Nat) (x : Quad) : (setQuad s k x).booted = s.booted := rfl
@[simp] theorem setQuad_mem (k : Nat) (x : Quad) : (setQuad s k x).mem = s.mem := rfl
@[simp] theorem setQuad_tsCtr (k : Nat) (x : Quad) : (setQuad s k x).tsCtr = s.tsCtr := rfl
@[simp] theorem setQuad_hist (k : Nat) (x : Quad) : (setQuad s k x).hist = s.hist := rfl
@[simp] theorem setQuad_poison (k : Nat) (x : Quad) : (setQuad s k x).poison = s.poison := rfl
@[simp] theorem setQuad_rels (k : Nat) (x : Quad) : (setQuad s k x).rels = s.rels := rfl
@[simp] theorem setQuad_vers (k : Nat) (x : Quad) : (setQuad s k x).vers = s.vers := rfl
@[simp] theorem setQuad_bwaits (k : Nat) (x : Quad) : (setQuad s k x).bwaits = s.bwaits := rfl
@[simp] theorem setQuad_arrivals (k : Nat) (x : Quad) : (setQuad s k x).arrivals = s.arrivals := rfl
@[simp] theorem setQuad_spawns (k : Nat) (x : Quad) : (setQuad s k x).spawns = s.spawns := rfl
@[simp] theorem setQuad_threads (k : Nat) (x : Quad) : (setQuad s k x).threads = s.threads := rfl
@[simp] theorem setQuad_slots (k : Nat) (x : Quad) : (setQuad s k x).slots = s.slots := rfl
@[simp] theorem setQuad_cores (k : Nat) (x : Quad) : (setQuad s k x).cores = s.cores := rfl
@[simp] theorem setQuad_tracks (k : Nat) (x : Quad) : (setQuad s k x).tracks = s.tracks := rfl
@[simp] theorem setQuad_tiles (k : Nat) (x : Quad) : (setQuad s k x).tiles = s.tiles := rfl
@[simp] theorem setQuad_tileOps (k : Nat) (x : Quad) : (setQuad s k x).tileOps = s.tileOps := rfl
@[simp] theorem setQuad_clusters (k : Nat) (x : Quad) : (setQuad s k x).clusters = s.clusters := rfl
@[simp] theorem setQuad_queues (k : Nat) (x : Quad) : (setQuad s k x).queues = s.queues := rfl
@[simp] theorem setQuad_ctxs (k : Nat) (x : Quad) : (setQuad s k x).ctxs = s.ctxs := rfl
@[simp] theorem setQuad_cctxs (k : Nat) (x : Quad) : (setQuad s k x).cctxs = s.cctxs := rfl
@[simp] theorem setQuad_cmap (k : Nat) (x : Quad) : (setQuad s k x).cmap = s.cmap := rfl
@[simp] theorem setQuad_filters (k : Nat) (x : Quad) : (setQuad s k x).filters = s.filters := rfl
@[simp] theorem setQuad_faint (k : Nat) (x : Quad) : (setQuad s k x).faint = s.faint := rfl
@[simp] theorem setQuad_ptPoison (k : Nat) (x : Quad) : (setQuad s k x).ptPoison = s.ptPoison := rfl
@[simp] theorem setQuad_fetches (k : Nat) (x : Quad) : (setQuad s k x).fetches = s.fetches := rfl
@[simp] theorem setQuad_faults (k : Nat) (x : Quad) : (setQuad s k x).faults = s.faults := rfl
@[simp] theorem setQuad_discards (k : Nat) (x : Quad) : (setQuad s k x).discards = s.discards := rfl
@[simp] theorem setQuad_kills (k : Nat) (x : Quad) : (setQuad s k x).kills = s.kills := rfl
@[simp] theorem setQuad_retires (k : Nat) (x : Quad) : (setQuad s k x).retires = s.retires := rfl
@[simp] theorem setQuad_quads (k : Nat) (x : Quad) : (setQuad s k x).quads = mset s.quads k x := rfl
@[simp] theorem setQuad_qblks (k : Nat) (x : Quad) : (setQuad s k x).qblks = s.qblks := rfl
@[simp] theorem setQuad_hpaths (k : Nat) (x : Quad) : (setQuad s k x).hpaths = s.hpaths := rfl
@[simp] theorem setQuad_hreads (k : Nat) (x : Quad) : (setQuad s k x).hreads = s.hreads := rfl
@[simp] theorem setQuad_msix (k : Nat) (x : Quad) : (setQuad s k x).msix = s.msix := rfl
@[simp] theorem setQuad_gangs (k : Nat) (x : Quad) : (setQuad s k x).gangs = s.gangs := rfl
@[simp] theorem setQuad_pkg (k : Nat) (x : Quad) : (setQuad s k x).pkg = s.pkg := rfl
@[simp] theorem setQuad_domain (k : Nat) (x : Quad) : (setQuad s k x).domain = s.domain := rfl
@[simp] theorem setQuad_mesh (k : Nat) (x : Quad) : (setQuad s k x).mesh = s.mesh := rfl
@[simp] theorem setQuad_routes (k : Nat) (x : Quad) : (setQuad s k x).routes = s.routes := rfl
@[simp] theorem setQuad_loads (k : Nat) (x : Quad) : (setQuad s k x).loads = s.loads := rfl
@[simp] theorem setQuad_reeve (k : Nat) (x : Quad) : (setQuad s k x).reeve = s.reeve := rfl
@[simp] theorem setQuad_corrupt (k : Nat) (x : Quad) : (setQuad s k x).corrupt = s.corrupt := rfl

/-! ### later -/

@[simp] theorem later_clock (d : Nat) (i : Instr) : (later s d i).clock = s.clock := rfl
@[simp] theorem later_agenda (d : Nat) (i : Instr) : (later s d i).agenda = insertTimed (s.clock + d) i s.agenda := rfl
@[simp] theorem later_ends (d : Nat) (i : Instr) : (later s d i).ends = s.ends := rfl
@[simp] theorem later_sched (d : Nat) (i : Instr) : (later s d i).sched = s.sched := rfl
@[simp] theorem later_freeCtr (d : Nat) (i : Instr) : (later s d i).freeCtr = s.freeCtr := rfl
@[simp] theorem later_idCtr (d : Nat) (i : Instr) : (later s d i).idCtr = s.idCtr := rfl
@[simp] theorem later_cur (d : Nat) (i : Instr) : (later s d i).cur = s.cur := rfl
@[simp] theorem later_turn (d : Nat) (i : Instr) : (later s d i).turn = s.turn := rfl
@[simp] theorem later_romHalted (d : Nat) (i : Instr) : (later s d i).romHalted = s.romHalted := rfl
@[simp] theorem later_booted (d : Nat) (i : Instr) : (later s d i).booted = s.booted := rfl
@[simp] theorem later_mem (d : Nat) (i : Instr) : (later s d i).mem = s.mem := rfl
@[simp] theorem later_tsCtr (d : Nat) (i : Instr) : (later s d i).tsCtr = s.tsCtr := rfl
@[simp] theorem later_hist (d : Nat) (i : Instr) : (later s d i).hist = s.hist := rfl
@[simp] theorem later_poison (d : Nat) (i : Instr) : (later s d i).poison = s.poison := rfl
@[simp] theorem later_rels (d : Nat) (i : Instr) : (later s d i).rels = s.rels := rfl
@[simp] theorem later_vers (d : Nat) (i : Instr) : (later s d i).vers = s.vers := rfl
@[simp] theorem later_bwaits (d : Nat) (i : Instr) : (later s d i).bwaits = s.bwaits := rfl
@[simp] theorem later_arrivals (d : Nat) (i : Instr) : (later s d i).arrivals = s.arrivals := rfl
@[simp] theorem later_spawns (d : Nat) (i : Instr) : (later s d i).spawns = s.spawns := rfl
@[simp] theorem later_threads (d : Nat) (i : Instr) : (later s d i).threads = s.threads := rfl
@[simp] theorem later_slots (d : Nat) (i : Instr) : (later s d i).slots = s.slots := rfl
@[simp] theorem later_cores (d : Nat) (i : Instr) : (later s d i).cores = s.cores := rfl
@[simp] theorem later_tracks (d : Nat) (i : Instr) : (later s d i).tracks = s.tracks := rfl
@[simp] theorem later_tiles (d : Nat) (i : Instr) : (later s d i).tiles = s.tiles := rfl
@[simp] theorem later_tileOps (d : Nat) (i : Instr) : (later s d i).tileOps = s.tileOps := rfl
@[simp] theorem later_clusters (d : Nat) (i : Instr) : (later s d i).clusters = s.clusters := rfl
@[simp] theorem later_queues (d : Nat) (i : Instr) : (later s d i).queues = s.queues := rfl
@[simp] theorem later_ctxs (d : Nat) (i : Instr) : (later s d i).ctxs = s.ctxs := rfl
@[simp] theorem later_cctxs (d : Nat) (i : Instr) : (later s d i).cctxs = s.cctxs := rfl
@[simp] theorem later_cmap (d : Nat) (i : Instr) : (later s d i).cmap = s.cmap := rfl
@[simp] theorem later_filters (d : Nat) (i : Instr) : (later s d i).filters = s.filters := rfl
@[simp] theorem later_faint (d : Nat) (i : Instr) : (later s d i).faint = s.faint := rfl
@[simp] theorem later_ptPoison (d : Nat) (i : Instr) : (later s d i).ptPoison = s.ptPoison := rfl
@[simp] theorem later_fetches (d : Nat) (i : Instr) : (later s d i).fetches = s.fetches := rfl
@[simp] theorem later_faults (d : Nat) (i : Instr) : (later s d i).faults = s.faults := rfl
@[simp] theorem later_discards (d : Nat) (i : Instr) : (later s d i).discards = s.discards := rfl
@[simp] theorem later_kills (d : Nat) (i : Instr) : (later s d i).kills = s.kills := rfl
@[simp] theorem later_retires (d : Nat) (i : Instr) : (later s d i).retires = s.retires := rfl
@[simp] theorem later_quads (d : Nat) (i : Instr) : (later s d i).quads = s.quads := rfl
@[simp] theorem later_qblks (d : Nat) (i : Instr) : (later s d i).qblks = s.qblks := rfl
@[simp] theorem later_hpaths (d : Nat) (i : Instr) : (later s d i).hpaths = s.hpaths := rfl
@[simp] theorem later_hreads (d : Nat) (i : Instr) : (later s d i).hreads = s.hreads := rfl
@[simp] theorem later_msix (d : Nat) (i : Instr) : (later s d i).msix = s.msix := rfl
@[simp] theorem later_gangs (d : Nat) (i : Instr) : (later s d i).gangs = s.gangs := rfl
@[simp] theorem later_pkg (d : Nat) (i : Instr) : (later s d i).pkg = s.pkg := rfl
@[simp] theorem later_domain (d : Nat) (i : Instr) : (later s d i).domain = s.domain := rfl
@[simp] theorem later_mesh (d : Nat) (i : Instr) : (later s d i).mesh = s.mesh := rfl
@[simp] theorem later_routes (d : Nat) (i : Instr) : (later s d i).routes = s.routes := rfl
@[simp] theorem later_loads (d : Nat) (i : Instr) : (later s d i).loads = s.loads := rfl
@[simp] theorem later_reeve (d : Nat) (i : Instr) : (later s d i).reeve = s.reeve := rfl
@[simp] theorem later_corrupt (d : Nat) (i : Instr) : (later s d i).corrupt = s.corrupt := rfl

/-! ### writeG -/

@[simp] theorem writeG_ctx (r : Fin 16) (x : Word) : (writeG t r x).ctx = t.ctx := rfl
@[simp] theorem writeG_lcore (r : Fin 16) (x : Word) : (writeG t r x).lcore = t.lcore := rfl
@[simp] theorem writeG_g (r : Fin 16) (x : Word) : (writeG t r x).g = t.g.set r x := rfl
@[simp] theorem writeG_pw (r : Fin 16) (x : Word) : (writeG t r x).pw = t.pw := rfl
@[simp] theorem writeG_pc (r : Fin 16) (x : Word) : (writeG t r x).pc = t.pc := rfl
@[simp] theorem writeG_lane (r : Fin 16) (x : Word) : (writeG t r x).lane = t.lane := rfl
@[simp] theorem writeG_priv (r : Fin 16) (x : Word) : (writeG t r x).priv = t.priv := rfl
@[simp] theorem writeG_cause (r : Fin 16) (x : Word) : (writeG t r x).cause = t.cause := rfl
@[simp] theorem writeG_tval (r : Fin 16) (x : Word) : (writeG t r x).tval = t.tval := rfl
@[simp] theorem writeG_epc (r : Fin 16) (x : Word) : (writeG t r x).epc = t.epc := rfl
@[simp] theorem writeG_tvec (r : Fin 16) (x : Word) : (writeG t r x).tvec = t.tvec := rfl
@[simp] theorem writeG_inh (r : Fin 16) (x : Word) : (writeG t r x).inh = t.inh := rfl
@[simp] theorem writeG_mheld (r : Fin 16) (x : Word) : (writeG t r x).mheld = t.mheld := rfl
@[simp] theorem writeG_tscr (r : Fin 16) (x : Word) : (writeG t r x).tscr = t.tscr := rfl
@[simp] theorem writeG_fxf (r : Fin 16) (x : Word) : (writeG t r x).fxf = t.fxf := rfl
@[simp] theorem writeG_fxe (r : Fin 16) (x : Word) : (writeG t r x).fxe = t.fxe := rfl
@[simp] theorem writeG_seed (r : Fin 16) (x : Word) : (writeG t r x).seed = t.seed := rfl
@[simp] theorem writeG_rng (r : Fin 16) (x : Word) : (writeG t r x).rng = t.rng := rfl
@[simp] theorem writeG_evt (r : Fin 16) (x : Word) : (writeG t r x).evt = t.evt := rfl
@[simp] theorem writeG_v (r : Fin 16) (x : Word) : (writeG t r x).v = t.v := rfl
@[simp] theorem writeG_p (r : Fin 16) (x : Word) : (writeG t r x).p = t.p := rfl
@[simp] theorem writeG_region (r : Fin 16) (x : Word) : (writeG t r x).region = t.region := rfl
@[simp] theorem writeG_idemPc (r : Fin 16) (x : Word) : (writeG t r x).idemPc = t.idemPc := rfl
@[simp] theorem writeG_run (r : Fin 16) (x : Word) : (writeG t r x).run = t.run := rfl
@[simp] theorem writeG_res (r : Fin 16) (x : Word) : (writeG t r x).res = (cancelReg t (.g r)).res := rfl
@[simp] theorem writeG_ended (r : Fin 16) (x : Word) : (writeG t r x).ended = t.ended := rfl
@[simp] theorem writeG_trapP (r : Fin 16) (x : Word) : (writeG t r x).trapP = t.trapP := rfl
@[simp] theorem writeG_hold (r : Fin 16) (x : Word) : (writeG t r x).hold = t.hold := rfl
@[simp] theorem writeG_block (r : Fin 16) (x : Word) : (writeG t r x).block = t.block := rfl
@[simp] theorem writeG_entry (r : Fin 16) (x : Word) : (writeG t r x).entry = t.entry := rfl
@[simp] theorem writeG_mapevt (r : Fin 16) (x : Word) : (writeG t r x).mapevt = t.mapevt := rfl
@[simp] theorem writeG_held (r : Fin 16) (x : Word) : (writeG t r x).held = t.held := rfl
@[simp] theorem writeG_broken (r : Fin 16) (x : Word) : (writeG t r x).broken = t.broken := rfl
@[simp] theorem writeG_mons (r : Fin 16) (x : Word) : (writeG t r x).mons = t.mons := rfl
@[simp] theorem writeG_ghosts (r : Fin 16) (x : Word) : (writeG t r x).ghosts = t.ghosts := rfl
@[simp] theorem writeG_buf (r : Fin 16) (x : Word) : (writeG t r x).buf = t.buf := rfl
@[simp] theorem writeG_view (r : Fin 16) (x : Word) : (writeG t r x).view = t.view := rfl
@[simp] theorem writeG_chain (r : Fin 16) (x : Word) : (writeG t r x).chain = t.chain := rfl
@[simp] theorem writeG_fence (r : Fin 16) (x : Word) : (writeG t r x).fence = t.fence := rfl
@[simp] theorem writeG_fxfAt (r : Fin 16) (x : Word) : (writeG t r x).fxfAt = t.fxfAt := rfl
@[simp] theorem writeG_fxfNew (r : Fin 16) (x : Word) : (writeG t r x).fxfNew = t.fxfNew := rfl
@[simp] theorem writeG_hostSt (r : Fin 16) (x : Word) : (writeG t r x).hostSt = t.hostSt := rfl
@[simp] theorem writeG_evtAt (r : Fin 16) (x : Word) : (writeG t r x).evtAt = t.evtAt := rfl
@[simp] theorem writeG_evtNew (r : Fin 16) (x : Word) : (writeG t r x).evtNew = t.evtNew := rfl

/-! ### writeC -/

@[simp] theorem writeC_ctx (c : Fin 32) (b : Bool) : (writeC t c b).ctx = t.ctx := rfl
@[simp] theorem writeC_lcore (c : Fin 32) (b : Bool) : (writeC t c b).lcore = t.lcore := rfl
@[simp] theorem writeC_g (c : Fin 32) (b : Bool) : (writeC t c b).g = t.g := rfl
@[simp] theorem writeC_pw (c : Fin 32) (b : Bool) : (writeC t c b).pw = setPw t.pw c b := rfl
@[simp] theorem writeC_pc (c : Fin 32) (b : Bool) : (writeC t c b).pc = t.pc := rfl
@[simp] theorem writeC_lane (c : Fin 32) (b : Bool) : (writeC t c b).lane = t.lane := rfl
@[simp] theorem writeC_priv (c : Fin 32) (b : Bool) : (writeC t c b).priv = t.priv := rfl
@[simp] theorem writeC_cause (c : Fin 32) (b : Bool) : (writeC t c b).cause = t.cause := rfl
@[simp] theorem writeC_tval (c : Fin 32) (b : Bool) : (writeC t c b).tval = t.tval := rfl
@[simp] theorem writeC_epc (c : Fin 32) (b : Bool) : (writeC t c b).epc = t.epc := rfl
@[simp] theorem writeC_tvec (c : Fin 32) (b : Bool) : (writeC t c b).tvec = t.tvec := rfl
@[simp] theorem writeC_inh (c : Fin 32) (b : Bool) : (writeC t c b).inh = t.inh := rfl
@[simp] theorem writeC_mheld (c : Fin 32) (b : Bool) : (writeC t c b).mheld = t.mheld := rfl
@[simp] theorem writeC_tscr (c : Fin 32) (b : Bool) : (writeC t c b).tscr = t.tscr := rfl
@[simp] theorem writeC_fxf (c : Fin 32) (b : Bool) : (writeC t c b).fxf = t.fxf := rfl
@[simp] theorem writeC_fxe (c : Fin 32) (b : Bool) : (writeC t c b).fxe = t.fxe := rfl
@[simp] theorem writeC_seed (c : Fin 32) (b : Bool) : (writeC t c b).seed = t.seed := rfl
@[simp] theorem writeC_rng (c : Fin 32) (b : Bool) : (writeC t c b).rng = t.rng := rfl
@[simp] theorem writeC_evt (c : Fin 32) (b : Bool) : (writeC t c b).evt = t.evt := rfl
@[simp] theorem writeC_v (c : Fin 32) (b : Bool) : (writeC t c b).v = t.v := rfl
@[simp] theorem writeC_p (c : Fin 32) (b : Bool) : (writeC t c b).p = t.p := rfl
@[simp] theorem writeC_region (c : Fin 32) (b : Bool) : (writeC t c b).region = t.region := rfl
@[simp] theorem writeC_idemPc (c : Fin 32) (b : Bool) : (writeC t c b).idemPc = t.idemPc := rfl
@[simp] theorem writeC_run (c : Fin 32) (b : Bool) : (writeC t c b).run = t.run := rfl
@[simp] theorem writeC_res (c : Fin 32) (b : Bool) : (writeC t c b).res = (cancelReg t (.c c)).res := rfl
@[simp] theorem writeC_ended (c : Fin 32) (b : Bool) : (writeC t c b).ended = t.ended := rfl
@[simp] theorem writeC_trapP (c : Fin 32) (b : Bool) : (writeC t c b).trapP = t.trapP := rfl
@[simp] theorem writeC_hold (c : Fin 32) (b : Bool) : (writeC t c b).hold = t.hold := rfl
@[simp] theorem writeC_block (c : Fin 32) (b : Bool) : (writeC t c b).block = t.block := rfl
@[simp] theorem writeC_entry (c : Fin 32) (b : Bool) : (writeC t c b).entry = t.entry := rfl
@[simp] theorem writeC_mapevt (c : Fin 32) (b : Bool) : (writeC t c b).mapevt = t.mapevt := rfl
@[simp] theorem writeC_held (c : Fin 32) (b : Bool) : (writeC t c b).held = t.held := rfl
@[simp] theorem writeC_broken (c : Fin 32) (b : Bool) : (writeC t c b).broken = t.broken := rfl
@[simp] theorem writeC_mons (c : Fin 32) (b : Bool) : (writeC t c b).mons = t.mons := rfl
@[simp] theorem writeC_ghosts (c : Fin 32) (b : Bool) : (writeC t c b).ghosts = t.ghosts := rfl
@[simp] theorem writeC_buf (c : Fin 32) (b : Bool) : (writeC t c b).buf = t.buf := rfl
@[simp] theorem writeC_view (c : Fin 32) (b : Bool) : (writeC t c b).view = t.view := rfl
@[simp] theorem writeC_chain (c : Fin 32) (b : Bool) : (writeC t c b).chain = t.chain := rfl
@[simp] theorem writeC_fence (c : Fin 32) (b : Bool) : (writeC t c b).fence = t.fence := rfl
@[simp] theorem writeC_fxfAt (c : Fin 32) (b : Bool) : (writeC t c b).fxfAt = t.fxfAt := rfl
@[simp] theorem writeC_fxfNew (c : Fin 32) (b : Bool) : (writeC t c b).fxfNew = t.fxfNew := rfl
@[simp] theorem writeC_hostSt (c : Fin 32) (b : Bool) : (writeC t c b).hostSt = t.hostSt := rfl
@[simp] theorem writeC_evtAt (c : Fin 32) (b : Bool) : (writeC t c b).evtAt = t.evtAt := rfl
@[simp] theorem writeC_evtNew (c : Fin 32) (b : Bool) : (writeC t c b).evtNew = t.evtNew := rfl

/-! ### writeV -/

@[simp] theorem writeV_ctx (r : Fin 32) (x : Vec) : (writeV t r x).ctx = t.ctx := rfl
@[simp] theorem writeV_lcore (r : Fin 32) (x : Vec) : (writeV t r x).lcore = t.lcore := rfl
@[simp] theorem writeV_g (r : Fin 32) (x : Vec) : (writeV t r x).g = t.g := rfl
@[simp] theorem writeV_pw (r : Fin 32) (x : Vec) : (writeV t r x).pw = t.pw := rfl
@[simp] theorem writeV_pc (r : Fin 32) (x : Vec) : (writeV t r x).pc = t.pc := rfl
@[simp] theorem writeV_lane (r : Fin 32) (x : Vec) : (writeV t r x).lane = t.lane := rfl
@[simp] theorem writeV_priv (r : Fin 32) (x : Vec) : (writeV t r x).priv = t.priv := rfl
@[simp] theorem writeV_cause (r : Fin 32) (x : Vec) : (writeV t r x).cause = t.cause := rfl
@[simp] theorem writeV_tval (r : Fin 32) (x : Vec) : (writeV t r x).tval = t.tval := rfl
@[simp] theorem writeV_epc (r : Fin 32) (x : Vec) : (writeV t r x).epc = t.epc := rfl
@[simp] theorem writeV_tvec (r : Fin 32) (x : Vec) : (writeV t r x).tvec = t.tvec := rfl
@[simp] theorem writeV_inh (r : Fin 32) (x : Vec) : (writeV t r x).inh = t.inh := rfl
@[simp] theorem writeV_mheld (r : Fin 32) (x : Vec) : (writeV t r x).mheld = t.mheld := rfl
@[simp] theorem writeV_tscr (r : Fin 32) (x : Vec) : (writeV t r x).tscr = t.tscr := rfl
@[simp] theorem writeV_fxf (r : Fin 32) (x : Vec) : (writeV t r x).fxf = t.fxf := rfl
@[simp] theorem writeV_fxe (r : Fin 32) (x : Vec) : (writeV t r x).fxe = t.fxe := rfl
@[simp] theorem writeV_seed (r : Fin 32) (x : Vec) : (writeV t r x).seed = t.seed := rfl
@[simp] theorem writeV_rng (r : Fin 32) (x : Vec) : (writeV t r x).rng = t.rng := rfl
@[simp] theorem writeV_evt (r : Fin 32) (x : Vec) : (writeV t r x).evt = t.evt := rfl
@[simp] theorem writeV_v (r : Fin 32) (x : Vec) : (writeV t r x).v = t.v.set r x := rfl
@[simp] theorem writeV_p (r : Fin 32) (x : Vec) : (writeV t r x).p = t.p := rfl
@[simp] theorem writeV_region (r : Fin 32) (x : Vec) : (writeV t r x).region = t.region := rfl
@[simp] theorem writeV_idemPc (r : Fin 32) (x : Vec) : (writeV t r x).idemPc = t.idemPc := rfl
@[simp] theorem writeV_run (r : Fin 32) (x : Vec) : (writeV t r x).run = t.run := rfl
@[simp] theorem writeV_res (r : Fin 32) (x : Vec) : (writeV t r x).res = (cancelReg t (.v r)).res := rfl
@[simp] theorem writeV_ended (r : Fin 32) (x : Vec) : (writeV t r x).ended = t.ended := rfl
@[simp] theorem writeV_trapP (r : Fin 32) (x : Vec) : (writeV t r x).trapP = t.trapP := rfl
@[simp] theorem writeV_hold (r : Fin 32) (x : Vec) : (writeV t r x).hold = t.hold := rfl
@[simp] theorem writeV_block (r : Fin 32) (x : Vec) : (writeV t r x).block = t.block := rfl
@[simp] theorem writeV_entry (r : Fin 32) (x : Vec) : (writeV t r x).entry = t.entry := rfl
@[simp] theorem writeV_mapevt (r : Fin 32) (x : Vec) : (writeV t r x).mapevt = t.mapevt := rfl
@[simp] theorem writeV_held (r : Fin 32) (x : Vec) : (writeV t r x).held = t.held := rfl
@[simp] theorem writeV_broken (r : Fin 32) (x : Vec) : (writeV t r x).broken = t.broken := rfl
@[simp] theorem writeV_mons (r : Fin 32) (x : Vec) : (writeV t r x).mons = t.mons := rfl
@[simp] theorem writeV_ghosts (r : Fin 32) (x : Vec) : (writeV t r x).ghosts = t.ghosts := rfl
@[simp] theorem writeV_buf (r : Fin 32) (x : Vec) : (writeV t r x).buf = t.buf := rfl
@[simp] theorem writeV_view (r : Fin 32) (x : Vec) : (writeV t r x).view = t.view := rfl
@[simp] theorem writeV_chain (r : Fin 32) (x : Vec) : (writeV t r x).chain = t.chain := rfl
@[simp] theorem writeV_fence (r : Fin 32) (x : Vec) : (writeV t r x).fence = t.fence := rfl
@[simp] theorem writeV_fxfAt (r : Fin 32) (x : Vec) : (writeV t r x).fxfAt = t.fxfAt := rfl
@[simp] theorem writeV_fxfNew (r : Fin 32) (x : Vec) : (writeV t r x).fxfNew = t.fxfNew := rfl
@[simp] theorem writeV_hostSt (r : Fin 32) (x : Vec) : (writeV t r x).hostSt = t.hostSt := rfl
@[simp] theorem writeV_evtAt (r : Fin 32) (x : Vec) : (writeV t r x).evtAt = t.evtAt := rfl
@[simp] theorem writeV_evtNew (r : Fin 32) (x : Vec) : (writeV t r x).evtNew = t.evtNew := rfl

/-! ### latchEvt -/

@[simp] theorem latchEvt_ctx (n : Nat) (b : BitVec 7) : (latchEvt n t b).ctx = t.ctx := rfl
@[simp] theorem latchEvt_lcore (n : Nat) (b : BitVec 7) : (latchEvt n t b).lcore = t.lcore := rfl
@[simp] theorem latchEvt_g (n : Nat) (b : BitVec 7) : (latchEvt n t b).g = t.g := rfl
@[simp] theorem latchEvt_pw (n : Nat) (b : BitVec 7) : (latchEvt n t b).pw = t.pw := rfl
@[simp] theorem latchEvt_pc (n : Nat) (b : BitVec 7) : (latchEvt n t b).pc = t.pc := rfl
@[simp] theorem latchEvt_lane (n : Nat) (b : BitVec 7) : (latchEvt n t b).lane = t.lane := rfl
@[simp] theorem latchEvt_priv (n : Nat) (b : BitVec 7) : (latchEvt n t b).priv = t.priv := rfl
@[simp] theorem latchEvt_cause (n : Nat) (b : BitVec 7) : (latchEvt n t b).cause = t.cause := rfl
@[simp] theorem latchEvt_tval (n : Nat) (b : BitVec 7) : (latchEvt n t b).tval = t.tval := rfl
@[simp] theorem latchEvt_epc (n : Nat) (b : BitVec 7) : (latchEvt n t b).epc = t.epc := rfl
@[simp] theorem latchEvt_tvec (n : Nat) (b : BitVec 7) : (latchEvt n t b).tvec = t.tvec := rfl
@[simp] theorem latchEvt_inh (n : Nat) (b : BitVec 7) : (latchEvt n t b).inh = t.inh := rfl
@[simp] theorem latchEvt_mheld (n : Nat) (b : BitVec 7) : (latchEvt n t b).mheld = t.mheld := rfl
@[simp] theorem latchEvt_tscr (n : Nat) (b : BitVec 7) : (latchEvt n t b).tscr = t.tscr := rfl
@[simp] theorem latchEvt_fxf (n : Nat) (b : BitVec 7) : (latchEvt n t b).fxf = t.fxf := rfl
@[simp] theorem latchEvt_fxe (n : Nat) (b : BitVec 7) : (latchEvt n t b).fxe = t.fxe := rfl
@[simp] theorem latchEvt_seed (n : Nat) (b : BitVec 7) : (latchEvt n t b).seed = t.seed := rfl
@[simp] theorem latchEvt_rng (n : Nat) (b : BitVec 7) : (latchEvt n t b).rng = t.rng := rfl
@[simp] theorem latchEvt_evt (n : Nat) (b : BitVec 7) : (latchEvt n t b).evt = t.evt ||| b := rfl
@[simp] theorem latchEvt_v (n : Nat) (b : BitVec 7) : (latchEvt n t b).v = t.v := rfl
@[simp] theorem latchEvt_p (n : Nat) (b : BitVec 7) : (latchEvt n t b).p = t.p := rfl
@[simp] theorem latchEvt_region (n : Nat) (b : BitVec 7) : (latchEvt n t b).region = t.region := rfl
@[simp] theorem latchEvt_idemPc (n : Nat) (b : BitVec 7) : (latchEvt n t b).idemPc = t.idemPc := rfl
@[simp] theorem latchEvt_run (n : Nat) (b : BitVec 7) : (latchEvt n t b).run = t.run := rfl
@[simp] theorem latchEvt_res (n : Nat) (b : BitVec 7) : (latchEvt n t b).res = t.res := rfl
@[simp] theorem latchEvt_ended (n : Nat) (b : BitVec 7) : (latchEvt n t b).ended = t.ended := rfl
@[simp] theorem latchEvt_trapP (n : Nat) (b : BitVec 7) : (latchEvt n t b).trapP = t.trapP := rfl
@[simp] theorem latchEvt_hold (n : Nat) (b : BitVec 7) : (latchEvt n t b).hold = t.hold := rfl
@[simp] theorem latchEvt_block (n : Nat) (b : BitVec 7) : (latchEvt n t b).block = t.block := rfl
@[simp] theorem latchEvt_entry (n : Nat) (b : BitVec 7) : (latchEvt n t b).entry = t.entry := rfl
@[simp] theorem latchEvt_mapevt (n : Nat) (b : BitVec 7) : (latchEvt n t b).mapevt = t.mapevt := rfl
@[simp] theorem latchEvt_held (n : Nat) (b : BitVec 7) : (latchEvt n t b).held = t.held := rfl
@[simp] theorem latchEvt_broken (n : Nat) (b : BitVec 7) : (latchEvt n t b).broken = t.broken := rfl
@[simp] theorem latchEvt_mons (n : Nat) (b : BitVec 7) : (latchEvt n t b).mons = t.mons := rfl
@[simp] theorem latchEvt_ghosts (n : Nat) (b : BitVec 7) : (latchEvt n t b).ghosts = t.ghosts := rfl
@[simp] theorem latchEvt_buf (n : Nat) (b : BitVec 7) : (latchEvt n t b).buf = t.buf := rfl
@[simp] theorem latchEvt_view (n : Nat) (b : BitVec 7) : (latchEvt n t b).view = t.view := rfl
@[simp] theorem latchEvt_chain (n : Nat) (b : BitVec 7) : (latchEvt n t b).chain = t.chain := rfl
@[simp] theorem latchEvt_fence (n : Nat) (b : BitVec 7) : (latchEvt n t b).fence = t.fence := rfl
@[simp] theorem latchEvt_fxfAt (n : Nat) (b : BitVec 7) : (latchEvt n t b).fxfAt = t.fxfAt := rfl
@[simp] theorem latchEvt_fxfNew (n : Nat) (b : BitVec 7) : (latchEvt n t b).fxfNew = t.fxfNew := rfl
@[simp] theorem latchEvt_hostSt (n : Nat) (b : BitVec 7) : (latchEvt n t b).hostSt = t.hostSt := rfl
@[simp] theorem latchEvt_evtAt (n : Nat) (b : BitVec 7) : (latchEvt n t b).evtAt = n := rfl
@[simp] theorem latchEvt_evtNew (n : Nat) (b : BitVec 7) : (latchEvt n t b).evtNew = evtFresh t n ||| b := rfl

/-! ### Reading what was written -/

@[simp] theorem getT_setT_same (k : Nat) (x : Thread) : getT (setT s k x) k = x := by
  simp [getT, mgetD]

theorem getT_setT_ne {j k : Nat} (x : Thread) (h : j ≠ k) : getT (setT s k x) j = getT s j := by
  simp [getT, mgetD, mget_mset, h]

@[simp] theorem curT_putT (x : Thread) : curT (putT s x) = x := by
  simp [curT, putT]

@[simp] theorem putT_putT (x y : Thread) : curT (putT (putT s x) y) = y := by
  simp [curT, putT]

theorem getT_putT_ne {j : Nat} (x : Thread) (h : j ≠ s.cur) : getT (putT s x) j = getT s j :=
  getT_setT_ne s x h

@[simp] theorem curT_later (d : Nat) (i : Instr) : curT (later s d i) = curT s := rfl

@[simp] theorem slotAt_setSlot (k : Nat) (x : Slot) : slotAt (setSlot s k x) k = x := by
  simp [slotAt, mgetD]

@[simp] theorem coreAt_setCore (k : Nat) (x : CoreSt) : coreAt (setCore s k x) k = x := by
  simp [coreAt, mgetD]

@[simp] theorem getCtx_setCtx (k : Nat) (x : Ctx) : getCtx (setCtx s k x) k = some x := by
  simp [getCtx]

@[simp] theorem getCC_setCC (c l : Nat) (x : CoreCtx) : getCC (setCC s c l x) c l = some x := by
  simp [getCC]

@[simp] theorem queueAt_setQueue (k : Nat) (x : JQueue) : queueAt (setQueue s k x) k = x := by
  simp [queueAt, mgetD]

@[simp] theorem trackAt_setTrack (k : Nat) (x : Track) : trackAt (setTrack s k x) k = x := by
  simp [trackAt, mgetD]

theorem trackAt_setTrack_ne {j k : Nat} (x : Track) (h : j ≠ k) : trackAt (setTrack s k x) j = trackAt s j := by
  simp [trackAt, mgetD, mget_mset, h]

@[simp] theorem tileAt_setTile (k : Nat) (x : Tile) : tileAt (setTile s k x) k = x := by
  simp [tileAt, mgetD]

theorem tileAt_setTile_ne {j k : Nat} (x : Tile) (h : j ≠ k) : tileAt (setTile s k x) j = tileAt s j := by
  simp [tileAt, mgetD, mget_mset, h]

@[simp] theorem clusterAt_setCluster (k : Nat) (x : Cluster) : clusterAt (setCluster s k x) k = x := by
  simp [clusterAt, mgetD]

@[simp] theorem quadAt_setQuad (k : Nat) (x : Quad) : quadAt (setQuad s k x) k = x := by
  simp [quadAt, mgetD]

end Sys2Proof.Laws
end

