-- ==== Sys2Proof/Laws/Ordering.lean ====
section
/-!
SUPPORT. What performing a write does: the notices it sends touch only monitors and the agenda, and the write takes its
place in the order, changes memory at its own bytes and keeps the canonical form.
-/

namespace Sys2Proof.Laws

open Sys2Proof.Machine

/-- A fold whose every step keeps a quantity keeps it. -/
theorem foldl_keeps {α β σ : Type} (q : σ → β) (f : σ → α → σ) (hf : ∀ s a, q (f s a) = q s) (l : List α) (s : σ) :
    q (l.foldl f s) = q s := by
  induction l generalizing s with
  | nil => rfl
  | cons a t ih => rw [List.foldl_cons, ih, hf]

/-- Changing a thread that exists keeps memory. -/
@[simp] theorem modT_mem (s : State) (k : Nat) (f : Thread → Thread) : (modT s k f).mem = s.mem := by
  unfold modT
  split <;> rfl

/-- Changing a thread that exists keeps the count of writes. -/
@[simp] theorem modT_tsCtr (s : State) (k : Nat) (f : Thread → Thread) : (modT s k f).tsCtr = s.tsCtr := by
  unfold modT
  split <;> rfl

/-- Notices leave memory. -/
@[simp] theorem notify_mem (s : State) (locs : List Nat) (by_ : Option Nat) : (notify s locs by_).mem = s.mem := by
  unfold notify
  dsimp only
  refine foldl_keeps State.mem _ (fun s e => ?_) _ _
  split
  · rfl
  · refine foldl_keeps State.mem _ (fun s ln => ?_) _ _
    split
    · rfl
    · rw [later_mem, modT_mem]

/-- What a write does to chains leaves memory. -/
@[simp] theorem spoilAreas_mem (s : State) (locs : List Nat) : (spoilAreas s locs).mem = s.mem := by
  unfold spoilAreas
  dsimp only
  split
  · rfl
  · split <;> rfl

/-- Performing a write is a list of writes of memory. -/
theorem append_mem (s : State) (cells : List (Nat × Byte)) (by_ : Option Nat) :
    (append s cells by_).2.mem = Memory.writes s.mem cells := by
  simp [append]

/-- The time of a write is the next one. -/
theorem append_time (s : State) (cells : List (Nat × Byte)) (by_ : Option Nat) : (append s cells by_).1 = s.tsCtr + 1 :=
  rfl

/-- A location that a write does not cover keeps its byte. -/
theorem append_other {s : State} {cells : List (Nat × Byte)} {by_ : Option Nat} {a : Nat} (ha : ∀ e ∈ cells, e.1 ≠ a) :
    Memory.read (append s cells by_).2.mem a = Memory.read s.mem a := by
  rw [append_mem, read_writes_other ha]

/-! ### Closing a region (R158) -/

/-- Drains are only scheduled. -/
theorem schedDrains_eq (ids : List Nat) (tk : Nat) (s : State) :
    ∃ ag sc, ids.foldl (fun s id => schedDrain s tk id) s = { s with agenda := ag, sched := sc } := by
  induction ids generalizing s with
  | nil => exact ⟨_, _, rfl⟩
  | cons id r ih =>
    obtain ⟨ag, sc, h⟩ := ih (schedDrain s tk id)
    refine ⟨ag, sc, h.trans ?_⟩
    cases hs : s.sched <;> simp only [schedDrain, takeDelay, later, hs]

/-- Closing the executing thread's region schedules drains, and of the thread it changes the run's marks, the region, IDEMPC
and what its buffered writes are tagged. -/
theorem closeCur_eq (s : State) : ∃ r i b ag sc, closeCur s =
    { s with
      threads := mset s.threads s.cur { curT s with run := r, region := none, idemPc := i, buf := b }
      agenda := ag
      sched := sc } := by
  unfold closeCur closeRegion
  cases h : (getT s s.cur).region with
  | none =>
    simp only [h]
    exact ⟨{ (getT s s.cur).run with closer := true }, _, _, _, _, by simp only [setT, curT, ← h]; rfl⟩
  | some c =>
    simp only [h]
    generalize hx : modT _ _ _ = x
    generalize List.filterMap _ _ = ids
    obtain ⟨ag, sc, hs⟩ := schedDrains_eq ids s.cur x
    rw [hs, ← hx]
    exact ⟨{ (getT s s.cur).run with closer := true }, c.pc, _, ag, sc,
      by simp only [modT, setT, mget_mset_same, mset_mset, curT]; rfl⟩

/-- It is still the same thread that executes. -/
@[simp] theorem closeCur_cur (s : State) : (closeCur s).cur = s.cur := by
  obtain ⟨_, _, _, _, _, h⟩ := closeCur_eq s
  rw [h]

/-- In the same clock. -/
@[simp] theorem closeCur_clock (s : State) : (closeCur s).clock = s.clock := by
  obtain ⟨_, _, _, _, _, h⟩ := closeCur_eq s
  rw [h]

/-- Memory is as before. -/
@[simp] theorem closeCur_mem (s : State) : (closeCur s).mem = s.mem := by
  obtain ⟨_, _, _, _, _, h⟩ := closeCur_eq s
  rw [h]

/-- Contexts are as before. -/
@[simp] theorem closeCur_ctxs (s : State) : (closeCur s).ctxs = s.ctxs := by
  obtain ⟨_, _, _, _, _, h⟩ := closeCur_eq s
  rw [h]

/-- Core contexts are as before. -/
@[simp] theorem closeCur_cctxs (s : State) : (closeCur s).cctxs = s.cctxs := by
  obtain ⟨_, _, _, _, _, h⟩ := closeCur_eq s
  rw [h]

/-- Of the thread, what is not its region, its run or its buffer stays. -/
theorem curT_closeCur (s : State) :
    ∃ r i b, curT (closeCur s) = { curT s with run := r, region := none, idemPc := i, buf := b } := by
  obtain ⟨r, i, b, _, _, h⟩ := closeCur_eq s
  exact ⟨r, i, b, by rw [h]; simp only [curT, getT, mgetD, mget_mset_same, Option.getD_some]⟩

/-- Its outstanding results stay. -/
@[simp] theorem closeCur_res (s : State) : (curT (closeCur s)).res = (curT s).res := by
  obtain ⟨_, _, _, h⟩ := curT_closeCur s
  rw [h]

/-- It stays a thread of its context. -/
@[simp] theorem closeCur_ctx (s : State) : (curT (closeCur s)).ctx = (curT s).ctx := by
  obtain ⟨_, _, _, h⟩ := curT_closeCur s
  rw [h]

/-- Its scalar registers stay. -/
@[simp] theorem closeCur_g (s : State) : (curT (closeCur s)).g = (curT s).g := by
  obtain ⟨_, _, _, h⟩ := curT_closeCur s
  rw [h]

end Sys2Proof.Laws
end

