-- ==== Sys2Proof/Laws/PerInstr.lean ====
section
/-!
SUPPORT. Statements made per instruction. HasWord: an instruction form has an instruction word, and a device step has
none.
-/

namespace Sys2Proof.Laws.HasWord

/-- An instruction form has a word, and a device step none. -/
def Statement (i : Instr) : Prop := (encode i).isSome = i.isForm

theorem nop (h : Hdr) : Statement (.nop h) := rfl
theorem br (h : Hdr) (d : BitVec 24) : Statement (.br h d) := rfl
theorem bri (h : Hdr) (r : Fin 16) : Statement (.bri h r) := rfl
theorem call (h : Hdr) (d : BitVec 24) : Statement (.call h d) := rfl
theorem ret (h : Hdr) (r : Fin 16) : Statement (.ret h r) := rfl
theorem loop (h : Hdr) (n : Fin 16) (d : BitVec 24) : Statement (.loop h n d) := rfl
theorem quit (h : Hdr) : Statement (.quit h) := rfl
theorem spawn (h : Hdr) (l : Fin 16) (c : Fin 32) (d : BitVec 24) : Statement (.spawn h l c d) := rfl
theorem migr (h : Hdr) (l : Fin 16) : Statement (.migr h l) := rfl
theorem park (h : Hdr) (d : Fin 16) (tmo : GI) : Statement (.park h d tmo) := rfl
theorem trap (h : Hdr) (code : BitVec 24) : Statement (.trap h code) := rfl
theorem tret (h : Hdr) : Statement (.tret h) := rfl
theorem sysr (h : Hdr) (d : Fin 16) (n : BitVec 24) : Statement (.sysr h d n) := rfl
theorem sysw (h : Hdr) (r : Fin 16) (n : BitVec 24) : Statement (.sysw h r n) := rfl
theorem add (h : Hdr) (u : Bool) (sat : Bool) (d : Fin 16) (a : GI) (b : GI) : Statement (.add h u sat d a b) := rfl
theorem sub (h : Hdr) (u : Bool) (sat : Bool) (d : Fin 16) (a : GI) (b : GI) : Statement (.sub h u sat d a b) := rfl
theorem mul (h : Hdr) (k : MulK) (sat : Bool) (d : Fin 16) (a : GI) (b : GI) : Statement (.mul h k sat d a b) := rfl
theorem div (h : Hdr) (k : DivK) (d : Fin 16) (a : GI) (b : GI) : Statement (.div h k d a b) := rfl
theorem and (h : Hdr) (d : Fin 16) (a : GI) (b : GI) : Statement (.and h d a b) := rfl
theorem or (h : Hdr) (d : Fin 16) (a : GI) (b : GI) : Statement (.or h d a b) := rfl
theorem xor (h : Hdr) (d : Fin 16) (a : GI) (b : GI) : Statement (.xor h d a b) := rfl
theorem shl (h : Hdr) (u : Bool) (sat : Bool) (d : Fin 16) (a : GI) (b : GI) : Statement (.shl h u sat d a b) := rfl
theorem shr (h : Hdr) (ar : Bool) (d : Fin 16) (a : GI) (b : GI) : Statement (.shr h ar d a b) := rfl
theorem min (h : Hdr) (u : Bool) (d : Fin 16) (a : GI) (b : GI) : Statement (.min h u d a b) := rfl
theorem max (h : Hdr) (u : Bool) (d : Fin 16) (a : GI) (b : GI) : Statement (.max h u d a b) := rfl
theorem cmp (h : Hdr) (cd : Cond) (c : Fin 32) (a : GI) (b : GI) : Statement (.cmp h cd c a b) := rfl
theorem sel (h : Hdr) (d : Fin 16) (c : Fin 32) (a : GI) (b : GI) : Statement (.sel h d c a b) := rfl
theorem mov (h : Hdr) (d : Fin 16) (a : GI) : Statement (.mov h d a) := rfl
theorem movi (h : Hdr) (k : MoviK) (d : Fin 16) (imm : BitVec 48) : Statement (.movi h k d imm) := rfl
theorem lea (h : Hdr) (x : Fin 4) (d : Fin 16) (b : Fin 16) (x_ : Option (Fin 16)) (disp : BitVec 24) :
    Statement (.lea h x d b x_ disp) := rfl
theorem bfx (h : Hdr) (sx : Bool) (d : Fin 16) (a : GI) (pos : GI) (len : GI) : Statement (.bfx h sx d a pos len) := rfl
theorem bfi (h : Hdr) (d : Fin 16) (a : GI) (pos : GI) (len : GI) : Statement (.bfi h d a pos len) := rfl
theorem bitc (h : Hdr) (k : BitcK) (d : Fin 16) (a : GI) : Statement (.bitc h k d a) := rfl
theorem ld (h : Hdr) (w : Fin 4) (sx : Bool) (x : Fin 4) (mig : Bool) (ch : CH) (d : Fin 16) (b : Fin 16) (x_ : Option (Fin 16)) (disp : BitVec 24) :
    Statement (.ld h w sx x mig ch d b x_ disp) := rfl
theorem st (h : Hdr) (w : Fin 4) (x : Fin 4) (mig : Bool) (ch : CH) (a : GI) (b : Fin 16) (x_ : Option (Fin 16)) (disp : BitVec 24) :
    Statement (.st h w x mig ch a b x_ disp) := rfl
theorem atom (h : Hdr) (op : AtomOp) (u : Bool) (dw : Bool) (d : Fin 16) (a : Fin 16) (b : GI) (n : Option GI) :
    Statement (.atom h op u dw d a b n) := rfl
theorem bind (h : Hdr) (u : Bool) (b : Fin 16) (len : GI) (o : Fin 16) : Statement (.bind h u b len o) := rfl
theorem acq (h : Hdr) (x : Fin 4) (d : Fin 16) (b : Fin 16) (x_ : Option (Fin 16)) (disp : BitVec 24) :
    Statement (.acq h x d b x_ disp) := rfl
theorem rel (h : Hdr) (acc : Bool) (x : Fin 4) (v : GI) (b : Fin 16) (x_ : Option (Fin 16)) (disp : BitVec 24) :
    Statement (.rel h acc x v b x_ disp) := rfl
theorem fence (h : Hdr) (sc : Scope) : Statement (.fence h sc) := rfl
theorem idem (h : Hdr) : Statement (.idem h) := rfl
theorem mon (h : Hdr) (x : Fin 4) (b : Fin 16) (x_ : Option (Fin 16)) (disp : BitVec 24) :
    Statement (.mon h x b x_ disp) := rfl
theorem mwait (h : Hdr) (c : Fin 32) (a : Fin 16) (tmo : GI) : Statement (.mwait h c a tmo) := rfl
theorem bar (h : Hdr) (k : BarK) (c : Fin 32) (sense : GI) (tmo : GI) : Statement (.bar h k c sense tmo) := rfl
theorem bara (h : Hdr) (a : Fin 16) (n : GI) : Statement (.bara h a n) := rfl
theorem bwait (h : Hdr) (a : Fin 16) (ph : GI) : Statement (.bwait h a ph) := rfl
theorem bwaitT (h : Hdr) (c : Fin 32) (a : Fin 16) (ph : GI) (tmo : GI) : Statement (.bwaitT h c a ph tmo) := rfl
theorem qfence (h : Hdr) (mask : GI) : Statement (.qfence h mask) := rfl
theorem vwidth (h : Hdr) (w : Fin 4) (d : Fin 16) : Statement (.vwidth h w d) := rfl
theorem whileP (h : Hdr) (w : Fin 4) (cd : Cond) (d : Fin 8) (c : Fin 32) (a : GI) (lim : GI) :
    Statement (.whileP h w cd d c a lim) := rfl
theorem vadd (h : Hdr) (t : VTy) (u : Bool) (f : Fp) (sat : Bool) (d : Fin 32) (a : Fin 32) (b : VB) (pg : Fin 8) :
    Statement (.vadd h t u f sat d a b pg) := rfl
theorem vsub (h : Hdr) (t : VTy) (u : Bool) (f : Fp) (sat : Bool) (d : Fin 32) (a : Fin 32) (b : VB) (pg : Fin 8) :
    Statement (.vsub h t u f sat d a b pg) := rfl
theorem vmul (h : Hdr) (t : VTy) (u : Bool) (hi : Bool) (f : Fp) (sat : Bool) (d : Fin 32) (a : Fin 32) (b : VB) (pg : Fin 8) :
    Statement (.vmul h t u hi f sat d a b pg) := rfl
theorem vfma (h : Hdr) (t : VTy) (np : Bool) (nc : Bool) (f : Fp) (sat : Bool) (d : Fin 32) (a : Fin 32) (b : VB) (c : VB) (pg : Fin 8) :
    Statement (.vfma h t np nc f sat d a b c pg) := rfl
theorem vmin (h : Hdr) (t : VTy) (u : Bool) (z : Fz) (d : Fin 32) (a : Fin 32) (b : VB) (pg : Fin 8) :
    Statement (.vmin h t u z d a b pg) := rfl
theorem vmax (h : Hdr) (t : VTy) (u : Bool) (z : Fz) (d : Fin 32) (a : Fin 32) (b : VB) (pg : Fin 8) :
    Statement (.vmax h t u z d a b pg) := rfl
theorem vun (h : Hdr) (t : VTy) (k : UnK) (z : Fz) (d : Fin 32) (a : Fin 32) (pg : Fin 8) :
    Statement (.vun h t k z d a pg) := rfl
theorem vcmp (h : Hdr) (t : VTy) (cd : Cond) (z : Fz) (d : Fin 8) (a : Fin 32) (b : VB) (pg : Fin 8) :
    Statement (.vcmp h t cd z d a b pg) := rfl
theorem vsel (h : Hdr) (t : VTy) (d : Fin 32) (ps : Fin 8) (a : Fin 32) (b : VB) : Statement (.vsel h t d ps a b) := rfl
theorem vlog (h : Hdr) (t : VTy) (k : LogK) (d : Fin 32) (a : Fin 32) (b : VB) (pg : Fin 8) :
    Statement (.vlog h t k d a b pg) := rfl
theorem vshf (h : Hdr) (t : VTy) (u : Bool) (k : ShfK) (sat : Bool) (d : Fin 32) (a : Fin 32) (b : VB) (pg : Fin 8) :
    Statement (.vshf h t u k sat d a b pg) := rfl
theorem vcvt (h : Hdr) (t : VTy) (s2 : VTy) (f : Fp) (sat : Bool) (d : Fin 32) (a : Fin 32) (part : Fin 4) (pg : Fin 8) :
    Statement (.vcvt h t s2 f sat d a part pg) := rfl
theorem vqnt (h : Hdr) (fm : BFmt) (s2 : VTy) (f : Fp) (sat : Bool) (d : Fin 32) (a : Fin 32) (blk : Fin 4) (cnt : GI) :
    Statement (.vqnt h fm s2 f sat d a blk cnt) := rfl
theorem vdqn (h : Hdr) (t : VTy) (f : Fp) (d : Fin 32) (a : Fin 32) (blk : Fin 4) (first : GI) (pg : Fin 8) :
    Statement (.vdqn h t f d a blk first pg) := rfl
theorem vsfu (h : Hdr) (t : VTy) (fn : SfuK) (f : Fp) (d : Fin 32) (a : Fin 32) (pg : Fin 8) :
    Statement (.vsfu h t fn f d a pg) := rfl
theorem vdiv (h : Hdr) (t : VTy) (f : Fp) (d : Fin 32) (a : Fin 32) (b : VB) (pg : Fin 8) :
    Statement (.vdiv h t f d a b pg) := rfl
theorem vdivSqrt (h : Hdr) (t : VTy) (f : Fp) (d : Fin 32) (a : Fin 32) (pg : Fin 8) :
    Statement (.vdivSqrt h t f d a pg) := rfl
theorem vred (h : Hdr) (t : VTy) (op : RedK) (ord : Bool) (f : Fp) (d : GV) (a : Fin 32) (pg : Fin 8) :
    Statement (.vred h t op ord f d a pg) := rfl
theorem vperm (h : Hdr) (t : VTy) (d : Fin 32) (a : Fin 32) (ix : Fin 32) (pg : Fin 8) :
    Statement (.vperm h t d a ix pg) := rfl
theorem vpermRot (h : Hdr) (t : VTy) (dup : Bool) (d : Fin 32) (a : Fin 32) (k : GI) (pg : Fin 8) :
    Statement (.vpermRot h t dup d a k pg) := rfl
theorem vsplat (h : Hdr) (t : VTy) (d : Fin 32) (a : LSrc) (pg : Fin 8) : Statement (.vsplat h t d a pg) := rfl
theorem vmovsX (h : Hdr) (t : VTy) (d : XDst) (a : Fin 32) (ix : GI) : Statement (.vmovsX h t d a ix) := rfl
theorem vmovsI (h : Hdr) (t : VTy) (d : Fin 32) (a : LSrc) (ix : GI) : Statement (.vmovsI h t d a ix) := rfl
theorem vld (h : Hdr) (w : Fin 4) (mig : Bool) (ch : CH) (d : Fin 32) (b : Fin 16) (pg : Fin 8) (disp : BitVec 24) :
    Statement (.vld h w mig ch d b pg disp) := rfl
theorem vst (h : Hdr) (w : Fin 4) (mig : Bool) (ch : CH) (src : Fin 32) (b : Fin 16) (pg : Fin 8) (disp : BitVec 24) :
    Statement (.vst h w mig ch src b pg disp) := rfl
theorem vgath (h : Hdr) (w : Fin 4) (x : Fin 4) (ch : CH) (d : Fin 32) (b : Fin 16) (ix : Fin 32) (pg : Fin 8) :
    Statement (.vgath h w x ch d b ix pg) := rfl
theorem vscat (h : Hdr) (w : Fin 4) (x : Fin 4) (ch : CH) (src : Fin 32) (b : Fin 16) (ix : Fin 32) (pg : Fin 8) :
    Statement (.vscat h w x ch src b ix pg) := rfl
theorem plog (h : Hdr) (t : VTy) (k : LogK) (d : Fin 8) (a : Fin 8) (b : Fin 8) (pg : Fin 8) :
    Statement (.plog h t k d a b pg) := rfl
theorem plogNot (h : Hdr) (t : VTy) (d : Fin 8) (a : Fin 8) (pg : Fin 8) : Statement (.plogNot h t d a pg) := rfl
theorem plogCount (h : Hdr) (t : VTy) (first : Bool) (d : Fin 16) (a : Fin 8) (pg : Fin 8) :
    Statement (.plogCount h t first d a pg) := rfl
theorem plogAny (h : Hdr) (t : VTy) (c : Fin 32) (a : Fin 8) (pg : Fin 8) : Statement (.plogAny h t c a pg) := rfl
theorem vdot (h : Hdr) (k : DotK) (f : Fp) (sat : Bool) (d : Fin 32) (a : Fin 32) (b : Fin 32) (pg : Fin 8) :
    Statement (.vdot h k f sat d a b pg) := rfl
theorem vsmul (h : Hdr) (t : VTy) (f : Fp) (sat : Bool) (d : Fin 32) (a : Fin 32) (c : Fin 32) (off : GI) (pg : Fin 8) :
    Statement (.vsmul h t f sat d a c off pg) := rfl
theorem tshape (h : Hdr) (tl : Fin 16) (v : GI) : Statement (.tshape h tl v) := rfl
theorem tld (h : Hdr) (tl : Fin 16) (b : Fin 16) (st : Option (Fin 16)) (disp : BitVec 24) :
    Statement (.tld h tl b st disp) := rfl
theorem tst (h : Hdr) (tl : Fin 16) (b : Fin 16) (st : Option (Fin 16)) (disp : BitVec 24) :
    Statement (.tst h tl b st disp) := rfl
theorem mma (h : Hdr) (bt : Bool) (r64 : Bool) (c64 : Bool) (set : Bool) (z : Fz) (ac : Fin 4) (ta : Fin 16) (tb : Fin 16) :
    Statement (.mma h bt r64 c64 set z ac ta tb) := rfl
theorem mmaA (h : Hdr) (bt : Bool) (r64 : Bool) (c64 : Bool) (set : Bool) (z : Fz) (j : Fin 16) (ac : Fin 4) (ta : Fin 16) (tb : Fin 16) :
    Statement (.mmaA h bt r64 c64 set z j ac ta tb) := rfl
theorem mmag (h : Hdr) (bt : Bool) (c64 : Bool) (set : Bool) (z : Fz) (j : Option (Fin 16)) (ac : Fin 4) (ta : Fin 16) (tb : Fin 16) (l : Fin 16) :
    Statement (.mmag h bt c64 set z j ac ta tb l) := rfl
theorem accf (h : Hdr) (z : Bool) (c : Bool) (nf : Bool) (f : Fp) (sat : Bool) (j : Option (Fin 16)) (ac : Fin 4) :
    Statement (.accf h z c nf f sat j ac) := rfl
theorem tmap (h : Hdr) (a : Fin 16) : Statement (.tmap h a) := rfl
theorem tmapR (h : Hdr) (a : Fin 16) : Statement (.tmapR h a) := rfl
theorem copy (h : Hdr) (d2 : Bool) (wb : Bool) (ch : CH) (j : Fin 16) (q : Fin 4) (dst : Fin 16) (src : Fin 16) (n : GI) :
    Statement (.copy h d2 wb ch j q dst src n) := rfl
theorem jwait (h : Hdr) (j : GI) (gt : Option (Fin 16)) : Statement (.jwait h j gt) := rfl
theorem jwaitP (h : Hdr) (c : Fin 32) (j : GI) (gt : Option (Fin 16)) : Statement (.jwaitP h c j gt) := rfl
theorem holdW (h : Hdr) (k : KK) (l : Option (Fin 16)) : Statement (.holdW h k l) := rfl
theorem holdT (h : Hdr) (c : Fin 32) (k : KK) (l : Option (Fin 16)) : Statement (.holdT h c k l) := rfl
theorem hrel (h : Hdr) (k : KK) (l : Option (Fin 16)) : Statement (.hrel h k l) := rfl
theorem seek (h : Hdr) (dir : SeekK) (k : KK) (a : Option (Fin 16)) (l : Option (Fin 16)) (disp : BitVec 24) :
    Statement (.seek h dir k a l disp) := rfl
theorem rds (h : Hdr) (sx : Bool) (d : Fin 16) (k : Fin 64) (l : Option (Fin 16)) : Statement (.rds h sx d k l) := rfl
theorem wrs (h : Hdr) (k : Fin 64) (a : GI) (l : Option (Fin 16)) : Statement (.wrs h k a l) := rfl
theorem vrds (h : Hdr) (d : Fin 32) (kg : Fin 4) (l : Option (Fin 16)) : Statement (.vrds h d kg l) := rfl
theorem vwrs (h : Hdr) (kg : Fin 4) (src : Fin 32) (pg : Fin 8) : Statement (.vwrs h kg src pg) := rfl
theorem rwnd (h : Hdr) (e : Bool) (k : KK) (l : Option (Fin 16)) : Statement (.rwnd h e k l) := rfl
theorem hpos (h : Hdr) (d : Fin 16) (k : Fin 64) (l : Option (Fin 16)) : Statement (.hpos h d k l) := rfl
theorem chain (h : Hdr) (d : Fin 16) (a : Fin 16) : Statement (.chain h d a) := rfl
theorem get (h : Hdr) (d : GV) (c : Fin 32) : Statement (.get h d c) := rfl
theorem put (h : Hdr) (a : GIV) : Statement (.put h a) := rfl
theorem putE (h : Hdr) : Statement (.putE h) := rfl
theorem chmodeQ (h : Hdr) (d : Fin 16) (id : Option (Fin 16)) : Statement (.chmodeQ h d id) := rfl
theorem chmodeOcc (h : Hdr) (d : Fin 16) (q : GI) (id : Option (Fin 16)) : Statement (.chmodeOcc h d q id) := rfl
theorem chmodeFold (h : Hdr) (id : Option (Fin 16)) : Statement (.chmodeFold h id) := rfl
theorem chmodeSpread (h : Hdr) (id : Option (Fin 16)) : Statement (.chmodeSpread h id) := rfl
theorem chmodeAuto (h : Hdr) (id : Option (Fin 16)) : Statement (.chmodeAuto h id) := rfl
theorem ftile (h : Hdr) (d : Fin 16) (c : Fin 32) : Statement (.ftile h d c) := rfl
theorem dpush (h : Hdr) (c : Fin 32) (a : GI) (b : GI) : Statement (.dpush h c a b) := rfl
theorem dpop (h : Hdr) (a : Fin 16) (b : Fin 16) (c : Fin 32) : Statement (.dpop h a b c) := rfl
theorem dsteal (h : Hdr) (a : Fin 16) (b : Fin 16) (c : Fin 32) (l : Fin 16) : Statement (.dsteal h a b c l) := rfl
theorem ssend (h : Hdr) (cl : Bool) (l : Fin 16) (p : Fin 4) (a : GIV) : Statement (.ssend h cl l p a) := rfl
theorem srecv (h : Hdr) (d : GV) (c : Fin 32) (p : Fin 4) : Statement (.srecv h d c p) := rfl
theorem mapv (h : Hdr) (d : Fin 16) : Statement (.mapv h d) := rfl
theorem mapvA (h : Hdr) (d : Fin 16) : Statement (.mapvA h d) := rfl
theorem mapack (h : Hdr) (w : Fin 16) : Statement (.mapack h w) := rfl
theorem collAr (h : Hdr) (j : Fin 16) (dst : Fin 16) (src : Fin 16) (n : Fin 16) (mk : Fin 16) :
    Statement (.collAr h j dst src n mk) := rfl
theorem collBc (h : Hdr) (j : Fin 16) (dst : Fin 16) (src : Fin 16) (n : Fin 16) (mk : Fin 16) :
    Statement (.collBc h j dst src n mk) := rfl
theorem collAg (h : Hdr) (j : Fin 16) (dst : Fin 16) (src : Fin 16) (n : Fin 16) (mk : Fin 16) :
    Statement (.collAg h j dst src n mk) := rfl
theorem tlbiCtx (h : Hdr) (c : Fin 16) : Statement (.tlbiCtx h c) := rfl
theorem tlbiPg (h : Hdr) (c : Fin 16) (v : Fin 16) : Statement (.tlbiPg h c v) := rfl
theorem tlbiRng (h : Hdr) (c : Fin 16) (v : Fin 16) (n : Fin 16) : Statement (.tlbiRng h c v n) := rfl
theorem tlbiAll (h : Hdr) : Statement (.tlbiAll h) := rfl
theorem kill (h : Hdr) (f : Bool) (d : Fin 16) (c : Fin 16) : Statement (.kill h f d c) := rfl
theorem ctxSave (h : Hdr) (d : Fin 16) (c : Fin 16) (l : Fin 16) : Statement (.ctxSave h d c l) := rfl
theorem ctxLoad (h : Hdr) (d : Fin 16) (c : Fin 16) (l : Fin 16) : Statement (.ctxLoad h d c l) := rfl
theorem ctxMig (h : Hdr) (d : Fin 16) (c : Fin 16) (l : Fin 16) (p : Fin 16) : Statement (.ctxMig h d c l p) := rfl
theorem ctxRd (h : Hdr) (d : Fin 16) (c : Fin 16) (ix : Fin 16) : Statement (.ctxRd h d c ix) := rfl
theorem ctxWr (h : Hdr) (c : Fin 16) (v : Fin 16) (ix : Fin 16) : Statement (.ctxWr h c v ix) := rfl
theorem ctxRes (h : Hdr) (c : Fin 16) : Statement (.ctxRes h c) := rfl
theorem ctxTv (h : Hdr) (a : Fin 16) : Statement (.ctxTv h a) := rfl
theorem ctxSlot (h : Hdr) (d : Fin 16) (a : Fin 16) : Statement (.ctxSlot h d a) := rfl
theorem pgrefQ (h : Hdr) (d : Fin 16) (c : Fin 16) (v : Fin 16) : Statement (.pgrefQ h d c v) := rfl
theorem pgrefRm (h : Hdr) (d : Fin 16) (c : Fin 16) (v : Fin 16) (e : Fin 16) : Statement (.pgrefRm h d c v e) := rfl
theorem pgrefSh (h : Hdr) (d : Fin 16) (c : Fin 16) (v : Fin 16) (sv : Fin 16) (n : GI) :
    Statement (.pgrefSh h d c v sv n) := rfl
theorem pgrefDr (h : Hdr) (d : Fin 16) (c : Fin 16) (v : Fin 16) : Statement (.pgrefDr h d c v) := rfl
theorem pgrefAdj (h : Hdr) (d : Fin 16) (c : Fin 16) (v : Fin 16) (delta : GI) :
    Statement (.pgrefAdj h d c v delta) := rfl
theorem pgrefWk (h : Hdr) (c : Fin 16) (v : Fin 16) : Statement (.pgrefWk h c v) := rfl
theorem pgrefClr (h : Hdr) (d : Fin 16) (p : Fin 16) : Statement (.pgrefClr h d p) := rfl
theorem mgmtLog (h : Hdr) (c : Fin 16) (a : Fin 16) : Statement (.mgmtLog h c a) := rfl
theorem mgmtTmr (h : Hdr) (tm : Fin 16) : Statement (.mgmtTmr h tm) := rfl
theorem mgmtRetire (h : Hdr) (d : Fin 16) (k : Fin 16) (r : Fin 16) : Statement (.mgmtRetire h d k r) := rfl
theorem mgmtFwsel (h : Hdr) (b : Fin 16) : Statement (.mgmtFwsel h b) := rfl
theorem mgmtFwcommit (h : Hdr) : Statement (.mgmtFwcommit h) := rfl
theorem mgmtQuote (h : Hdr) (d : Fin 16) (n : Fin 16) : Statement (.mgmtQuote h d n) := rfl
theorem mapevtTake (tk : Nat) : Statement (.mapevtTake tk) := rfl
theorem interruptTake (tk : Nat) : Statement (.interruptTake tk) := rfl
theorem resultReturn (tk rid : Nat) : Statement (.resultReturn tk rid) := rfl
theorem remoteRequest (tk rid : Nat) : Statement (.remoteRequest tk rid) := rfl
theorem fetchRefetch (tk : Nat) : Statement (.fetchRefetch tk) := rfl
theorem messageDrop (tk rid ctx : Nat) : Statement (.messageDrop tk rid ctx) := rfl
theorem messageStaleDrop (tk rid ctx : Nat) : Statement (.messageStaleDrop tk rid ctx) := rfl
theorem spawnRequest (tk rid : Nat) : Statement (.spawnRequest tk rid) := rfl
theorem migrantArrive (tk : Nat) : Statement (.migrantArrive tk) := rfl
theorem migrantRetry (tk : Nat) : Statement (.migrantRetry tk) := rfl
theorem migrantAccepted (dest : Nat) : Statement (.migrantAccepted dest) := rfl
theorem inboxAdmit (core : Nat) : Statement (.inboxAdmit core) := rfl
theorem storeDrain (tk bid : Nat) : Statement (.storeDrain tk bid) := rfl
theorem hostWrite (path : Nat) : Statement (.hostWrite path) := rfl
theorem hostRead (path : Nat) : Statement (.hostRead path) := rfl
theorem monitorNotice (dest line : Nat) : Statement (.monitorNotice dest line) := rfl
theorem waitTimeout (tk rid last : Nat) : Statement (.waitTimeout tk rid last) := rfl
theorem barRelease (ctx set : Nat) : Statement (.barRelease ctx set) := rfl
theorem barrierArrival (loc bytes aid : Nat) : Statement (.barrierArrival loc bytes aid) := rfl
theorem linkValueArrive (ctx lcore east val : Nat) : Statement (.linkValueArrive ctx lcore east val) := rfl
theorem jobStart (q : Nat) : Statement (.jobStart q) := rfl
theorem jobComplete (q jid ev : Nat) : Statement (.jobComplete q jid ev) := rfl
theorem jobFault (q err : Nat) : Statement (.jobFault q err) := rfl
theorem tileLoadComplete (tl op : Nat) : Statement (.tileLoadComplete tl op) := rfl
theorem tileStoreComplete (tl op : Nat) : Statement (.tileStoreComplete tl op) := rfl
theorem collectiveStart (peers : Nat) : Statement (.collectiveStart peers) := rfl
theorem leaseGrant (track : Nat) : Statement (.leaseGrant track) := rfl
theorem seekComplete (track : Nat) : Statement (.seekComplete track) := rfl
theorem headSettle (track : Nat) : Statement (.headSettle track) := rfl
theorem cursorStep (track : Nat) : Statement (.cursorStep track) := rfl
theorem itemArrive (ctx chain stage rep : Nat) : Statement (.itemArrive ctx chain stage rep) := rfl
theorem putAccept (ctx chain tk : Nat) : Statement (.putAccept ctx chain tk) := rfl
theorem chainFold (ctx chain : Nat) : Statement (.chainFold ctx chain) := rfl
theorem chainSpread (ctx chain : Nat) : Statement (.chainSpread ctx chain) := rfl
theorem autoSpreadRequest (ctx chain : Nat) : Statement (.autoSpreadRequest ctx chain) := rfl
theorem chainComplete (ctx chain : Nat) : Statement (.chainComplete ctx chain) := rfl
theorem streamWordArrive (core port route : Nat) : Statement (.streamWordArrive core port route) := rfl
theorem streamRouteAdmit (core port : Nat) : Statement (.streamRouteAdmit core port) := rfl
theorem tlbWalk (tk : Nat) : Statement (.tlbWalk tk) := rfl
theorem prefetch (ctx va : Nat) : Statement (.prefetch ctx va) := rfl
theorem taskStart (d : Nat) : Statement (.taskStart d) := rfl
theorem doorbell (q val : Nat) : Statement (.doorbell q val) := rfl
theorem queueEnable (q : Nat) : Statement (.queueEnable q) := rfl
theorem queueDrain (q : Nat) : Statement (.queueDrain q) := rfl
theorem queueAbort (q : Nat) : Statement (.queueAbort q) := rfl
theorem registerWrite (addr val : Nat) : Statement (.registerWrite addr val) := rfl
theorem packetTake (q : Nat) : Statement (.packetTake q) := rfl
theorem launchStart (ctx : Nat) : Statement (.launchStart ctx) := rfl
theorem launchComplete (ctx : Nat) : Statement (.launchComplete ctx) := rfl
theorem retirementMove (class_ res : Nat) : Statement (.retirementMove class_ res) := rfl
theorem sliceFlush (slice : Nat) : Statement (.sliceFlush slice) := rfl
theorem mapPublish (kind class_ cause res old new : Nat) : Statement (.mapPublish kind class_ cause res old new) := rfl
theorem resourceLoss (class_ res cause : Nat) : Statement (.resourceLoss class_ res cause) := rfl
theorem graceExpiry (ctx : Nat) : Statement (.graceExpiry ctx) := rfl
theorem rehashReply (tk rid : Nat) : Statement (.rehashReply tk rid) := rfl
theorem preempt (ctx core : Nat) : Statement (.preempt ctx core) := rfl
theorem liveMigration (ctx lcore phys : Nat) : Statement (.liveMigration ctx lcore phys) := rfl
theorem contextSave (ctx lcore : Nat) : Statement (.contextSave ctx lcore) := rfl
theorem saveResume (ctx lcore : Nat) : Statement (.saveResume ctx lcore) := rfl
theorem contextResume (ctx lcore : Nat) : Statement (.contextResume ctx lcore) := rfl
theorem bermForward (core tk ev : Nat) : Statement (.bermForward core tk ev) := rfl
theorem bermExpire (core ctx lcore : Nat) : Statement (.bermExpire core ctx lcore) := rfl
theorem sluiceArrive (ctx router : Nat) : Statement (.sluiceArrive ctx router) := rfl
theorem sluiceDiscardEnd (ctx router : Nat) : Statement (.sluiceDiscardEnd ctx router) := rfl
theorem killConfirm (ctx : Nat) : Statement (.killConfirm ctx) := rfl
theorem uncorrectableConsumed (tk addr bank : Nat) : Statement (.uncorrectableConsumed tk addr bank) := rfl
theorem slotScrubComplete (tk : Nat) : Statement (.slotScrubComplete tk) := rfl
theorem gangBoundary (n : Nat) : Statement (.gangBoundary n) := rfl
theorem gangReport (n pkg : Nat) : Statement (.gangReport n pkg) := rfl
theorem gangStart (n : Nat) : Statement (.gangStart n) := rfl
theorem gangGraceExpiry (n : Nat) : Statement (.gangGraceExpiry n) := rfl
theorem sensorSample (vals : Nat) : Statement (.sensorSample vals) := rfl
theorem alarmExpiry : Statement .alarmExpiry := rfl
theorem thrlWrite (p : Nat) : Statement (.thrlWrite p) := rfl
theorem timerSync (val : Nat) : Statement (.timerSync val) := rfl
theorem domainForm (pkg members : Nat) : Statement (.domainForm pkg members) := rfl
theorem linkChange (class_ link state rate : Nat) : Statement (.linkChange class_ link state rate) := rfl
theorem boot : Statement .boot := rfl
theorem meshLinkChange (link code : Nat) : Statement (.meshLinkChange link code) := rfl
theorem clockStep (p step_ : Nat) : Statement (.clockStep p step_) := rfl
theorem capacityWithdrawal (p cap : Nat) : Statement (.capacityWithdrawal p cap) := rfl

end Sys2Proof.Laws.HasWord
end

