-- ==== Sys2Proof/Tests/Slice0.lean ====
section
/-!
SUPPORT. Small checks: each limit of WellFormed refuses an ill-formed term; the words that the spec writes out decode to
the instructions they stand for; and for every statement a state and operands that meet its hypotheses, clause by clause.
-/

set_option Elab.async false

namespace Sys2Proof.Tests

open Host Sys2Proof Sys2Proof.Machine Sys2Proof.Slice0

/-! ### States the checks stand on -/

/-- A thread of context 1 on core 0, about to fetch NOP (R118's encoding). -/
def w : State := State.reset.withFetchWord 96 0x0E00E00E00E00E00

/-- The Reeve's thread, about to fetch MGMT.LOG. -/
def rv : State := { State.reset.withFetchWord 96 0xDE0000000004005E00E00E00 with cur := tkOf 0x804 0 }

/-- A state with its executing thread changed. -/
def th (s : State) (f : Thread → Thread) : State := putT s (f (curT s))

/-- A state with registers of its executing thread set. -/
def rg (s : State) (l : List (Fin 16 × Word)) : State :=
  th s fun t => l.foldl (fun t x => { t with g := t.g.set x.1 x.2 }) t

/-- A state with the executing thread's context changed. -/
def cx (s : State) (f : Ctx → Ctx) : State := modCtx s (curT s).ctx f

/-- A state with context 1's core context on core 0 changed. -/
def cc (s : State) (f : CoreCtx → CoreCtx) : State := modCC s 1 0 f

/-- An outstanding result that nothing has given yet. -/
def res1 : Res := { id := 1, pc := 0x10000, dst := [.g 4], vals := [], wait := .park, join := none, evt := 0 }

/-- The level of an error-free launch thread's handler. -/
def hd (s : State) : State := th s fun t => { t with tvec := 0x10001 }

/-! ### Results and exceptions -/

theorem witness_AddSubMulShl : Issues {} w ∧ (giVal w (.im 63)).toNat < 64 ∧ 64 ≤ (giVal w (.im 64)).toNat := by
  decide +kernel

theorem witness_DivResult : Issues {} w ∧ giVal w (.im 1) ≠ 0 := by decide +kernel

theorem witness_DivByZero : Issues {} (hd w) ∧ giVal (hd w) (.im 0) = 0 ∧ (curT (hd w)).res = [] ∧
    (curT (hd w)).tvec ≠ 0 ∧ (curT (hd w)).inh = false := by decide +kernel

theorem witness_LogicShiftCompare : Issues {} w := by decide +kernel

theorem witness_MoviLea : Issues {} w := by decide +kernel

theorem witness_BitFields : Issues {} w ∧ 64 ≤ (giVal w (.im 64)).toNat ∧ giVal w (.im 0) = 0 ∧
    (giVal w (.im 63)).toNat < 64 ∧ giVal w (.im 1) ≠ 0 := by decide +kernel

theorem witness_BitCounts : Issues {} w := by decide +kernel

theorem witness_ScalarFrame : scalarDst (.add {} false false 4 (.im 1) (.im 2)) = some ({}, 4) ∧
    (∃ t, exec (.add {} false false 4 (.im 1) (.im 2)) w = .next t) ∧
    (∃ t, exec (.cmp {} ⟨.eq, false⟩ 0 (.im 1) (.im 2)) w = .next t) := ⟨rfl, ⟨_, rfl⟩, ⟨_, rfl⟩⟩

theorem witness_ScalarResult : ({} : Hdr).sw = false := rfl

theorem witness_RunEnds : ({ sw := true } : Hdr).sw = true ∧ (curT (th w fun t => { t with res := [res1] })).res ≠ [] ∧
    (curT w).res = [] ∧ deferred { curT w with run := runAt (curT w), pc := nextPc (curT w).pc } = none := by
  decide +kernel

theorem witness_GuardFalse : hdrOf (.nop { ga := 1 }) = some { ga := 1 } ∧ MayRun (.nop { ga := 1 }) w ∧
    ((readC w (curT w) 1 != false) && (readC w (curT w) 0 != false)) = false ∧
    MayRun (.sysr { ga := 1 } 4 0) w := by decide +kernel

theorem witness_MayNotRun : (hdrOf (.kill {} false 4 5) = some {} ∧ coreOnly (.kill {} false 4 5) = false ∧
    levelOf (.kill {} false 4 5) ≤ 1 ∧ levelOf (.kill {} false 4 5) < (curT w).priv.toNat) ∧
    (levelOf (.sysr {} 4 0x400) < (curT w).priv.toNat ∧ sysAbsent (coreOf w.cur) 0x400 = false) ∧
    (hdrOf (.chain {} 4 5) = some {} ∧ ¬ OnCore rv ∧ coreOnly (.chain {} 4 5) = true) ∧
    (0x101 ≤ (0x101 : BitVec 24).toNat ∧ (0x220 : BitVec 24).toNat ≤ 0x220) := by decide +kernel

theorem witness_TrapEntry : ((curT (hd w)).res = [] ∧ (curT (hd w)).tvec ≠ 0 ∧ (curT (hd w)).inh = false) ∧
    (curT (th w fun t => { t with res := [res1] })).res ≠ [] := by decide +kernel

theorem witness_TrapKills : (curT w).res = [] ∧ OnCore w ∧ (curT w).tvec = 0 ∧
    (let s := th (hd w) fun t => { t with inh := true }
     (curT s).res = [] ∧ OnCore s ∧ (curT s).inh = true) := by decide +kernel

theorem witness_TrapInstr : Issues {} (hd w) ∧ (curT (hd w)).res = [] ∧ (curT (hd w)).tvec ≠ 0 ∧
    (curT (hd w)).inh = false := by decide +kernel

/-- Inside a handler, with the last slot of a line to return to. -/
def ih : State := th (hd w) fun t => { t with inh := true, epc := 0x10044 }

theorem witness_TretReturns : Issues {} ih ∧ (curT ih).inh = true ∧ (curT ih).res = [] ∧ (curT ih).epc.toNat % 8 ≤ 4 ∧
    (curT ih).mheld = false ∧
    (let s := cx (th ih fun t => { t with mheld := true }) fun x => { x with mapvec := 2 }
     (curT s).mheld = true ∧ (ctxD s (curT s).ctx).ackv.toNat < (ctxD s (curT s).ctx).mapvec.toNat) ∧
    (let s := cx (th ih fun t => { t with mheld := true }) fun x => { x with mapvec := 2, ackv := 2 }
     (curT s).mheld = true ∧ (ctxD s (curT s).ctx).mapvec.toNat ≤ (ctxD s (curT s).ctx).ackv.toNat) ∧
    (curT (th ih fun t => { t with res := [res1] })).res ≠ [] ∧
    (let s := th ih fun t => { t with epc := 0x10045 }
     (curT s).inh = true ∧ (curT s).res = [] ∧ OnCore s ∧ 4 < (curT s).epc.toNat % 8) ∧ (curT w).inh = false := by
  decide +kernel

/-! ### Control, threads and system registers -/

theorem witness_Branches : Issues {} w ∧ (slotTarget (curT w).pc 4).toOption = some 0x10004 ∧
    (0x10004 : Word).toNat / 8 % 8 = 0 ∧ (0x10004 : Word).toNat % 8 ≤ 4 ∧ gVal w 4 ≠ 1 ∧ gVal (rg w [(4, 1)]) 4 = 1 ∧
    (gVal (rg w [(4, 0x00FFFFFFFFFFFFC4)]) 4 = 0x00FFFFFFFFFFFFC4 ∧ (0x00FFFFFFFFFFFFC4 : Word).toNat < 2 ^ 56 ∧
      (0x00FFFFFFFFFFFFC4 : Word).toNat / 8 % 8 = 0 ∧ (0x00FFFFFFFFFFFFC4 : Word).toNat % 8 ≤ 4) ∧
    (slotTarget (curT w).pc 0x800000).isOk = false ∧
    (gVal (rg w [(4, 0x10005)]) 4 = 0x10005 ∧ 4 < (0x10005 : Word).toNat % 8) ∧
    2 ^ 56 ≤ (gVal (rg w [(4, 0x0100000000000000)]) 4).toNat := by decide +kernel

/-- A second core of context 1, east of its first; g4 names it, g5 none. -/
def ea : State := rg { w with cctxs := mset w.cctxs (ccKey 1 1) { phys := 1, slots := 1 } } [(4, 1), (5, 2)]

/-- The executing thread has a result outstanding. -/
def out (s : State) : State := th s fun t => { t with res := [res1] }

theorem witness_ThreadOps : Issues {} ea ∧ OnCore ea ∧ HasRoom ea ∧ InOrder ea false ∧
    (namedCore ea (gVal ea 4)).isSome = true ∧ (namedCore ea (gVal ea 0)).isSome = true ∧ namedCore ea (gVal ea 5) = none ∧
    (slotTarget (curT ea).pc 1).isOk = true ∧ (slotTarget (curT ea).pc 0x800000).isOk = false ∧
    ((curT ea).res = [] ∧ (gVal ea 0).toNat = (curT ea).lcore ∧ (gVal ea 4).toNat ≠ (curT ea).lcore) ∧
    (Issues {} (out ea) ∧ OnCore (out ea) ∧ (curT (out ea)).res ≠ []) ∧
    ((curT ea).evt = 0 ∧ tmoOf (giVal ea (.im 0)) = 0 ∧ tmoOf (giVal ea (.im 1)) ≠ 0 ∧
      (curT (th ea fun t => { t with evt := 64 })).evt ≠ 0) ∧
    (Issues {} rv ∧ ¬ OnCore rv ∧ (curT rv).res = []) := by decide +kernel

/-- Context 1's core has 4 tiles; its registers as given. -/
def sy (l : List (Fin 16 × Word)) : State := cx (rg w l) fun x => { x with pkt := { x.pkt with res := 0x9030400000 } }

theorem witness_SystemReads : Issues {} w ∧ Level 2 w ∧ OnCore w ∧ HasRoom w ∧ (getCC w (curT w).ctx (curT w).lcore).isSome = true ∧
    (Level 1 rv ∧ Issues {} rv ∧ HasRoom rv ∧ 0x400 ≤ (0x440 : BitVec 24).toNat) ∧
    ((0x21F : BitVec 24).toNat = 0x210 + (15 : Fin 16).val ∧ (15 : Fin 16).val < tileShare w) ∧
    (Issues {} (sy []) ∧ HasRoom (sy []) ∧ Level 2 (sy []) ∧ OnCore (sy []) ∧ (3 : Fin 16).val < tileShare (sy []) ∧
      tileShare (sy []) ≤ (4 : Fin 16).val) ∧
    (let r (n : Nat) : Res := { res1 with wait := .request (.sysr n) }
     let s (n : Nat) := th w fun t => { t with res := [r n] }
     requestOf (s 0x21F) 0 1 = some (r 0x21F, .sysr 0x21F) ∧ (r 0x21F).port = false ∧
     requestOf (s 0x400) 0 1 = some (r 0x400, .sysr 0x400) ∧ requestOf (s 0x304) 0 1 = some (r 0x304, .sysr 0x304) ∧
     (r 0x304).sentTo = none ∧ isCompute (coreOf 0) = true ∧ (getCtx w (getT w 0).ctx).isSome = true ∧
     ((getCC (s 0x304) (getT (s 0x304) 0).ctx 0).any fun c => c.cst == .resident) = true) := by decide +kernel

theorem witness_SystemWrites : Issues {} w ∧ Level 2 w ∧ OnCore w ∧ (getCC w (curT w).ctx (curT w).lcore).isSome = true ∧
    ((gVal w 4).getLsbD 63 = false) ∧
    (let s := rg w [(4, 0x800000000000FFF0), (5, 0x800000000000FFF8)]
     let f := fun r : Fin 16 => ((gVal s r).setWidth 18 &&& 0x3FFF8 : BitVec 18).toNat + 16
     (gVal s 4).getLsbD 63 = true ∧ (gVal s 5).getLsbD 63 = true ∧
     ((getCC s (curT s).ctx (curT s).lcore).any fun c => !c.dqEn && decide (f 4 ≤ c.shSize ∧ c.shSize < f 5)) = true ∧
     ((getCC (cc s fun c => { c with dqEn := true }) 1 0).any fun c => c.dqEn) = true) ∧
    (let s := th (cx w fun x => { x with graceAt := some 0 }) fun t => { t with priv := 1 }
     Issues {} s ∧ Level 1 s ∧ ((getCtx s (curT s).ctx).any fun x => x.graceAt == some 0) = true ∧
     ((getCtx w (curT w).ctx).any fun x => x.graceAt == none) = true) ∧
    (let s := sy [(4, 0x43F10000), (5, 0)]
     Issues {} s ∧ Level 2 s ∧ OnCore s ∧ (0x213 : BitVec 24).toNat = 0x210 + (3 : Fin 16).val ∧
     inService s.cmap clsEngine (coreOf s.cur / 8) = true ∧ (3 : Fin 16).val < tileShare s ∧
     tileIdle (tileAt s (tileKey s 3)) = true ∧ shapeOk (gVal s 4) = true ∧ shapeOk (gVal s 5) = false) ∧
    (Issues {} rv ∧ Level 0 rv) := by decide +kernel

/-! ### Memory and synchronisation -/

/-- The state after an instruction. -/
def nx (i : Instr) (s : State) : State :=
  match exec i s with
  | .next t => t
  | _ => s

/-- g4 names the last word of the one translated page, g5 and g6 its upper half and an object below it. -/
def wm : State := rg w [(4, 0x1FFF8), (5, 0x18000), (6, 0x10100)]

/-- The translated page is host memory, and a FENCE of the thread stands behind a track write that is incomplete. -/
def fh : State :=
  let s := { wm with clusters := mset wm.clusters 0 { clusterAt wm 0 with
    tlb := [{ ctx := 1, page := 1, pa := hostLoc 0x10000, w := true, x := true, cow := false }] } }
  nx (.fence {} .core) (setTrack s 3 { acc := [{ tk := 0, gen := 1, ctx := 1, pc := 0, gang := [3], op := .wrs 7, clock := 0 }] })

/-- A request of the thread to host memory waits in the port behind a FENCE; the translated page is not host memory. -/
def fq : State :=
  let s := nx (.fence {} .core) (setTrack wm 3 { acc := [{ tk := 0, gen := 1, ctx := 1, pc := 0, gang := [3], op := .wrs 7, clock := 0 }] })
  th s fun t => { t with res := [{ res1 with dst := [], port := true, fence := t.fence, wait := .request (.load 0 (hostLoc 0) 8 false) }] }

/-- A store to host memory waits behind a FENCE; g4 names the first word of the scratchpad share. -/
def fs : State := rg (nx (.st {} 3 0 false .normal (.im 1) 4 none 0) fh) [(4, 0x00FFFFFFFFFC0000)]

/-- The sector of the page's last word is poisoned. -/
def po (s : State) : State := { s with poison := [0x1FFF8 / 32] }

theorem witness_LoadStore : Issues {} wm ∧ HasRoom wm ∧ effAddr wm 4 none 0 0 = 0x1FFF8 ∧ InOrder wm true ∧
    (migTarget wm 0x1FFF8 = none ∧ Reaches wm 0x1FFF8 8 8 false 0x1FFF8 ∧ NoFence wm 0x1FFF8 ∧
      readsPoison wm (curT wm) (locsFrom 0x1FFF8 8) = false) ∧
    (Issues {} (po wm) ∧ Reaches (po wm) 0x1FFF8 8 8 false 0x1FFF8 ∧ NoFence (po wm) 0x1FFF8 ∧
      readsPoison (po wm) (curT (po wm)) (locsFrom 0x1FFF8 8) = true) ∧
    (access wm 0x1FFF8 8 8 true = .ok 0x1FFF8 ∧ bufWrites (curT wm) < 64) ∧
    (Issues {} fh ∧ HasRoom fh ∧ InOrder fh true ∧ Reaches fh 0x1FFF8 8 8 false (hostLoc 0x1FFF8) ∧
      ¬ NoFence fh (hostLoc 0x1FFF8) ∧ access fh 0x1FFF8 8 8 true = .ok (hostLoc 0x1FFF8) ∧ bufWrites (curT fh) < 64) ∧
    ((migTarget ea 0x80000000040000).any (fun e => e.toOption == some (1, 1)) = true ∧
      (migTarget ea 0x80000000080000).any (fun e => e.toOption.isNone) = true ∧
      (curT ea).res = []) ∧
    access wm 0x1FFFC 8 8 false = .trap 0x05 0x1FFFC ∧ access wm 0x1FFFC 8 8 true = .trap 0x05 0x1FFFC := by decide +kernel

theorem witness_LoadStoreFrame : Issues {} w ∧ ({} : Hdr).sw = false ∧ HasRoom w ∧ access w (effAddr w 4 none 0 0x1FFF8) 8 8 true = .ok 0x1FFF8 ∧
    Reaches w (effAddr w 4 none 0 0x1FFF8) 8 8 false 0x1FFF8 ∧ bufWrites (curT w) < 64 ∧ InOrder w true ∧ NoFence w 0x1FFF8 ∧
    (∃ t, exec (.st {} 3 0 false .normal (.im 1) 4 none 0x1FFF8) w = .next t) ∧
    (∃ t, exec (.ld {} 3 false 0 false .normal 4 4 none 0x1FFF8) w = .next t) := by
  refine ⟨by decide +kernel, rfl, by decide +kernel, by decide +kernel, by decide +kernel, by decide +kernel,
    by decide +kernel, by decide +kernel, ⟨_, rfl⟩, ⟨_, rfl⟩⟩

theorem witness_Atoms :
    (Issues {} wm ∧ HasRoom wm ∧ Reaches wm (gVal wm 4).toNat 8 8 true 0x1FFF8 ∧ regionOf 0x1FFF8 ≠ 2 ∧ StoresFree wm ∧
      InOrder wm true ∧ atomHeld wm 0x1FFF8 = false) ∧
    (Issues {} fq ∧ HasRoom fq ∧ Reaches fq (gVal fq 4).toNat 8 8 true 0x1FFF8 ∧ regionOf 0x1FFF8 ≠ 2 ∧ StoresFree fq ∧
      InOrder fq true ∧ atomHeld fq 0x1FFF8 = true) ∧ isSram (sramLoc (ccKey 1 0) 0) = true ∧
    (Issues {} fh ∧ HasRoom fh ∧ Reaches fh (gVal fh 4).toNat 8 8 true (hostLoc 0x1FFF8) ∧ regionOf (hostLoc 0x1FFF8) = 2 ∧
      isSram (hostLoc 0x1FFF8) = false) ∧
    ((curT wm).buf = [] ∧ (curT wm).region = none ∧ (atomVal .cas false 8 5 5 6).isSome = true ∧
      atomVal .cas false 8 5 4 6 = none) ∧
    ((2 : Nat) ^ 32 - 1 < 2 ^ (8 * 4) ∧ (5 : Nat) = 5 ∧ (5 : Nat) ≠ 6 ∧ 0 < 4) := by decide +kernel

/-- The page's upper half is bound to an object below it. -/
def bd : State := cx wm fun x => { x with binds := [{ base := 0x18000, len := 0x8000, obj := 0x10100, from_ := 0, until_ := none }] }

/-- g4 names the first word of the scratchpad share. -/
def wl : State := rg w [(4, 0x00FFFFFFFFFC0000)]

/-- A request of the thread of w is outstanding. -/
def rq (q : Req) : State := th w fun t => { t with res := [{ res1 with wait := .request q }] }

theorem witness_AcquireRelease : Issues {} wm ∧ HasRoom wm ∧ effAddr wm 4 none 0 0 = 0x1FFF8 ∧
    Reaches wm 0x1FFF8 8 8 false 0x1FFF8 ∧ Reaches wm 0x1FFF8 8 8 true 0x1FFF8 ∧ isBound wm (curT wm).ctx 0x1FFF8 = false ∧
    InOrder wm false ∧ StoresFree wm ∧ objHeld wm 0x1FFF8 = false ∧
    (Reaches bd 0x1FFF8 8 8 false 0x1FFF8 ∧ Reaches bd 0x1FFF8 8 8 true 0x1FFF8 ∧ isBound bd (curT bd).ctx 0x1FFF8 = true) ∧
    (Issues {} fh ∧ HasRoom fh ∧ Reaches fh 0x1FFF8 8 8 false (hostLoc 0x1FFF8) ∧ Reaches fh 0x1FFF8 8 8 true (hostLoc 0x1FFF8) ∧
      InOrder fh false ∧ StoresFree fh ∧ objHeld fh (hostLoc 0x1FFF8) = true) ∧
    (let s := th wl fun t => { t with res := [{ res1 with dst := [], wait := .request (.rel 0x1FFF8 0x1FFF8 false 1) }] }
     Issues {} s ∧ ¬ InOrder s false ∧ acqGoes s (sramLoc (ccKey 1 0) 0) = true ∧ objHeld s (sramLoc (ccKey 1 0) 0) = false ∧
       Reaches s (effAddr s 4 none 0 0) 8 8 false (sramLoc (ccKey 1 0) 0)) ∧
    (let s := rq (.acq 0x1FFF8 0x1FFF8)
     let r : Res := { res1 with wait := .request (.acq 0x1FFF8 0x1FFF8) }
     findRes (getT s 0) 1 = some r ∧ requestOf s 0 1 = some (r, .acq 0x1FFF8 0x1FFF8) ∧ Lands s 0 0x1FFF8 r ∧ r.port = false ∧
       (getT s 0).region = none ∧ poisoned s (locsFrom 0x1FFF8 8) = false ∧ (getT s 0).buf = []) ∧
    (let s := rq (.rel 0x1FFF8 0x1FFF8 true 1)
     let r : Res := { res1 with wait := .request (.rel 0x1FFF8 0x1FFF8 true 1) }
     findRes (getT s 0) 1 = some r ∧ requestOf s 0 1 = some (r, .rel 0x1FFF8 0x1FFF8 true 1) ∧ Lands s 0 0x1FFF8 r) := by
  decide +kernel

theorem witness_BindFenceIdem : Issues {} wm ∧ (gVal wm 4).toNat % 32 ≠ 0 ∧ (gVal wm 5).toNat % 32 = 0 ∧
    (giVal wm (.im 1)).toNat % 32 ≠ 0 ∧ giVal wm (.im 0) = 0 ∧
    (giVal wm (.im 32)).toNat % 32 = 0 ∧ giVal wm (.im 32) ≠ 0 ∧ (gVal (rg wm [(6, 0x18101)]) 6).toNat % 8 ≠ 0 ∧
    bindTrap false (liveBinds wm) (gVal wm 5).toNat 32 (gVal wm 6).toNat = none ∧ (liveBinds wm).any (fun _ => true) = false ∧
    bindTrap true (liveBinds wm) (gVal wm 5).toNat 32 (gVal wm 6).toNat = none ∧
    (bindTrap false ((liveBinds bd).filter Binding.stands) 0x18000 0x8000 0x10100 = none ∧
      (liveBinds bd).any (fun x => x.base == 0x18000 && x.len == 0x8000 && x.obj == 0x10100 && x.stands) = true) ∧
    bindTrap false ((liveBinds bd).filter Binding.stands) 0x18020 32 0x10100 = some (0x06, 0x18020) ∧
    (let x : Binding := { base := 0x18000, len := 0x8000, obj := 0x10100, from_ := 0, until_ := none }
     windowOf 0x18020 = .translated ∧ windowOf 0x1803F = .translated ∧ windowOf 0x10100 = .translated ∧
     (x.base < 0x18020 + 32 ∧ 0x18020 < x.base + x.len ∧ x.base ≠ 0x18020) ∧
     (overlaps 0x10200 32 x.base x.len = false ∧ x.base ≤ 0x1FFF8 ∧ 0x1FFF8 < x.base + x.len)) ∧
    (readDue (curT w) = false ∧ Scope.thread ≠ .core ∧ (curT w).res = []) ∧
    (Issues {} (rq (.acq 0x1FFF8 0x1FFF8)) ∧ readDue (curT (rq (.acq 0x1FFF8 0x1FFF8))) = true ∧
      (curT (rq (.acq 0x1FFF8 0x1FFF8))).res ≠ []) := by decide +kernel

/-- A monitor on the line of g4, not yet written, and written. -/
def mo (b : Bool) : State := th wl fun t => { t with mons := [{ line := sramLoc (ccKey 1 0) 0 / 32, written := b, armed := 0 }] }

/-- Four monitors, none on the line of g4. -/
def mo4 : State := th wl fun t => { t with mons := (List.range 4).map fun k => { line := k, written := false, armed := k } }

theorem witness_Monitors : Issues {} wl ∧ HasRoom wl ∧ Reaches wl (effAddr wl 4 none 0 0) 1 1 false (sramLoc (ccKey 1 0) 0) ∧
    (curT wl).mons.length < 4 ∧ (monOf (curT (mo false)) (sramLoc (ccKey 1 0) 0 / 32)).isSome = true ∧
    (Issues {} mo4 ∧ Reaches mo4 (effAddr mo4 4 none 0 0) 1 1 false (sramLoc (ccKey 1 0) 0) ∧
      monOf (curT mo4) (sramLoc (ccKey 1 0) 0 / 32) = none ∧ 4 ≤ (curT mo4).mons.length) ∧
    (lineOf wl (gVal wl 4).toNat).bind (fun l => monOf (curT wl) l) = none ∧
    (let s := mo true
     Issues {} s ∧ ((lineOf s (gVal s 4).toNat).bind (fun l => monOf (curT s) l)).any
       (fun m => m.written && noticeIn s s.cur m == 0) = true) ∧
    (let s := later (mo true) 9 (.monitorNotice (addressOf (mo true) 0 + armStamp 0) (sramLoc (ccKey 1 0) 0 / 32))
     ((lineOf s (gVal s 4).toNat).bind (fun l => monOf (curT s) l)).any (fun m => m.written && noticeIn s s.cur m != 0) = true) ∧
    ((lineOf (mo false) (gVal (mo false) 4).toNat).bind (fun l => monOf (curT (mo false)) l)).any (!·.written) = true ∧
    tmoOf (giVal wl (.im 0)) = 0 ∧ tmoOf (giVal wl (.im 1)) ≠ 0 := by decide +kernel

theorem witness_Barriers : Issues {} wl ∧ HasRoom wl ∧
    (giVal wl (.im 1)).getLsbD 0 ≠ (barAt wl (curT wl).ctx (barSetOf .all (routerOf (coreOf wl.cur)))).phase ∧
    (giVal wl (.im 0)).getLsbD 0 = (barAt wl (curT wl).ctx (barSetOf .all (routerOf (coreOf wl.cur)))).phase ∧
    tmoOf (giVal wl (.im 0)) = 0 ∧ tmoOf (giVal wl (.im 1)) ≠ 0 ∧
    (let f := fun s : State =>
       let set := barSetOf .all (routerOf (coreOf s.cur))
       let b := barAt s 1 set
       (barAt (checkBar (setBar s 1 set { b with arrived := addNew s.cur b.arrived }) 1 set) 1 set).full
     let s2 := { wl with threads := mset wl.threads 1 (curT wl), slots := mset wl.slots 1 (slotAt wl 0) }
     (f wl).isSome = true ∧ f s2 = none ∧ (curT s2).ctx = 1) ∧
    windowOf (gVal wl 4).toNat = .local_ ∧ Reaches wl (gVal wl 4).toNat 8 8 false (sramLoc (ccKey 1 0) 0) ∧
    windowOf 0x80000000000000 = .global ∧ InOrder wl true ∧ StoresFree wl ∧
    hostHeld wl = false ∧ (Issues {} fs ∧ HasRoom fs ∧ InOrder fs true ∧ StoresFree fs ∧ hostHeld fs = true ∧
      Reaches fs (gVal fs 4).toNat 8 8 false (sramLoc (ccKey 1 0) 0)) ∧
    barWord wl (sramLoc (ccKey 1 0) 0) / 2 ^ 63 % 2 ≠ (giVal wl (.im 1)).toNat % 2 ∧
    barWord wl (sramLoc (ccKey 1 0) 0) / 2 ^ 63 % 2 = (giVal wl (.im 0)).toNat % 2 ∧
    (windowOf (gVal wm 4).toNat ≠ .local_ ∧ windowOf (gVal wm 4).toNat ≠ .global) := by decide +kernel

/-- One closed store in the buffer. -/
def sb : State := th w fun t => { t with buf := [.write 7 0 [(0x20000, 5)] false] }

theorem witness_StoreDrains : MemOk sb ∧ mget sb.threads 0 = some (curT sb) ∧
    (curT sb).buf = .write 7 0 [(0x20000, 5)] false :: [] ∧
    (sb.threads.find? fun e => hasEntry e.2.buf 7) = some (0, curT sb) ∧
    drainHeld sb 0 (curT sb) (.write 7 0 [(0x20000, 5)] false) 7 = false ∧ dying sb (curT sb).ctx = false ∧ ([0x20000] : List Nat).Nodup := by
  unfold MemOk; decide +kernel

/-! ### Vectors -/

theorem witness_VectorLanes : Issues {} w ∧ OnCore w ∧ Agrees w (rounding w true 1 7) ∧
    VRegs (31 :: 31 :: (vbRegs (.v 31) ++ vbRegs (.g 15))) w ∧ VRegs [31, 0, 31] w ∧
    RM.rne ≠ .rsr ∧ 63 < 256 / VTy.size .f32 := by decide +kernel

theorem witness_IntegerLanes : Issues {} w ∧ OnCore w ∧ VRegs [31, 0, 31] w ∧ VTy.isFloat .i8 = false ∧
    ({} : Fp).rm ≠ .rsr := by decide +kernel

/-- The same context with one vector register. -/
def v1 : State := { w with slots := mset w.slots 0 { slotAt w 0 with vregs := 1 } }

theorem witness_VectorOthers : Issues {} w ∧ OnCore w ∧ VRegs (31 :: 0 :: vbRegs (.v 31)) w ∧
    Agrees w (rounding w true 4 0) ∧ Agrees w (fun j => decide (j < 256)) ∧
    (min (giVal w (.im 64)).toNat 64 ≤ lanesOf (VTy.size .f32) ∧ lanesOf (VTy.size .f32) < 65 ∧
      (30 : Fin 32).val ≠ 31 ∧ (30 : Fin 32).val + 1 < (slotAt w w.cur).vregs ∧ (31 : Fin 32).val = 31) ∧
    (let n := min (giVal v1 (.im 128)).toNat (fmtCount (blockCode .e2m1))
     Issues {} v1 ∧ OnCore v1 ∧ VRegs [0, 0] v1 ∧ lanesOf (VTy.size .f32) < n ∧ (slotAt v1 v1.cur).vregs ≤ (0 : Fin 32).val + 1) := by
  decide +kernel

theorem witness_VectorResultFrame : ({} : Hdr).sw = false := rfl

/-- An error that strikes lane 63, and one that strikes its last bit alone. -/
def up (sign : Bool) (frac : Int) : State :=
  { w with corrupt := [{ unit := (0, 0), nth := 63, cls := false, sign := sign, exp := 0, frac := frac }] }

theorem witness_ShadowDisagreement : rounds (.vadd {} .f32 false {} false 31 0 (.v 31) 0) = some ({}, 4, 31, 0, 31 :: 0 :: [31]) ∧
    Issues {} (up true 0) ∧ OnCore (up true 0) ∧ VRegs (31 :: 0 :: [31]) (up true 0) ∧
    (((up true 0).corrupt.find? fun u => u.unit == (0, coreOf (up true 0).cur) && rounding (up true 0) true 4 0 u.nth).any
      fun u => u.fin && u.sign) = true ∧
    (((up false 2).corrupt.find? fun u => u.unit == (0, coreOf (up false 2).cur) && rounding (up false 2) true 4 0 u.nth).any
      fun u => decide (1 < u.frac.natAbs)) = true ∧
    (((up false (-1)).corrupt.find? fun u => u.unit == (0, coreOf (up false (-1)).cur) && rounding (up false (-1)) true 4 0 u.nth).any
      fun u => !u.cls && !u.sign && u.exp == 0 && decide (u.frac.natAbs ≤ 1)) = true ∧
    (let s := { w with corrupt := [{ unit := (0, 0), nth := 63, fin := false, sign := true }] }
     (s.corrupt.find? fun u => u.unit == (0, coreOf s.cur) && rounding s true 4 0 u.nth).any
       fun u => !u.cls && !u.fin && decide (u.frac.natAbs ≤ 1)) = true := by decide +kernel

/-- The last 256 bytes of the translated page, lane by lane. -/
def va : State := th (rg w [(4, 0x1FF00), (5, 0x1FF02)]) fun t => { t with v := t.v.set 3 (ofLanes 4 (List.range 64)) }

theorem witness_VectorMemory :
    let locs := (List.range 64).map fun j => 0x1FF00 + 4 * j
    let gvas := fun r => (activeLanes 4 (pVal va 0)).map fun j => ((gVal va r).toNat + laneN 4 (vVal va 3).toNat j * 4) % 2 ^ 64
    let vas := fun r => (activeLanes 4 (pVal va 0)).map fun j => (effAddr va r none 0 0 + 4 * j) % 2 ^ 64
    Issues {} va ∧ OnCore va ∧ VRegs [31, 3] va ∧ locs.any (heldShare va) = false ∧
    migTarget va (effAddr va 4 none 0 0) = none ∧ HasRoom va ∧ InOrder va true ∧
    (lanesAccess va 4 false (vas 4)).toOption = some locs ∧ (lanesAccess va 4 true (vas 4)).toOption = some locs ∧
    (lanesAccess va 4 false (gvas 4)).toOption = some locs ∧ (lanesAccess va 4 true (gvas 4)).toOption = some locs ∧
    ((vas 5 :: [gvas 5]).all fun v => [false, true].all fun wr => match lanesAccess va 4 wr v with
      | .error (a, .trap c x) => a == 0x1FF02 && c == 0x05 && x == 0x1FF02
      | _ => false) = true := by
  decide +kernel

/-- In ea, with the east link's queue at the neighbour full. -/
def full (s : State) : State := { s with cctxs := mmap (fun k c => if k = ccKey 1 1 then { c with west := List.replicate 4 0 } else c) s.cctxs }

theorem witness_VectorMoves : Issues {} ea ∧ OnCore ea ∧ VRegs [31, 0] ea ∧ HasRoom ea ∧
    linkEnd ea (curT ea).ctx (coreOf ea.cur) true = some 1 ∧ linkEnd ea (curT ea).ctx (coreOf ea.cur) false = none ∧
    linkRoom ea (curT ea).ctx 1 false = true ∧ linkRoom (full ea) (curT ea).ctx 1 false = false ∧
    linkEnd (full ea) (curT (full ea)).ctx (coreOf (full ea).cur) true = some 1 ∧ Issues {} (full ea) ∧ OnCore (full ea) ∧
    VRegs [31, 0] (full ea) ∧
    (let s := { ea with cur := tkOf 1 0, threads := mset ea.threads (tkOf 1 0) { curT ea with lcore := 1 },
                        slots := mset ea.slots (tkOf 1 0) (slotAt ea 0)
                        cctxs := mset ea.cctxs (ccKey 1 2) { phys := 2, slots := 1 } }
     Issues {} s ∧ OnCore s ∧ VRegs [31] s ∧ HasRoom s ∧ linkEnd s (curT s).ctx (coreOf s.cur) false = some 0 ∧
       linkEnd s (curT s).ctx (coreOf s.cur) true = some 2) := by
  decide +kernel

/-! ### Tiles, jobs and tracks -/

/-- Tiles 0 and 15 are ready with two rows of 256 bytes; tile 1 has their shape and is empty; the rest have none. -/
def ti : State :=
  let t : Tile := { shape := 0x20110000, st := .ready 0, data := List.replicate 512 0 }
  let s := rg wl [(5, 0x43F10000), (6, 0x00FFFFFFFFFC0004)]
  let s := setTile (setTile s (tileKey s 0) t) (tileKey s 15) t
  setTile s (tileKey s 1) { shape := 0x20110000, st := .empty }

/-- The same of a launch with four tiles a core. -/
def ti4 : State := cx ti fun x => { x with pkt := { x.pkt with res := 0x9030400000 } }

theorem witness_TileMoves : Issues {} ti ∧ OnCore ti ∧ Engine ti ∧
    ((15 : Fin 16).val < tileShare ti ∧ tileIdle (tileAt ti (tileKey ti 15)) = true ∧ shapeOk (giVal ti (.g 5)) = true ∧
      shapeOk (giVal ti (.im 0)) = false) ∧
    (Issues {} ti4 ∧ OnCore ti4 ∧ Engine ti4 ∧ tileShare ti4 ≤ (4 : Fin 16).val) ∧
    (let x := tileAt ti (tileKey ti 15)
     let locs := [sramLoc (ccKey 1 0) 0, sramLoc (ccKey 1 0) 256]
     shRowB x.shape = 256 ∧ shRows x.shape = 2 ∧ (rowLocs ti (effAddr ti 4 none 0 0) 256 256 2).toOption = some locs ∧
      effAddr ti 4 none 0 0 % shSize x.shape = 0 ∧ (256 : Int) % (shSize x.shape : Int) = 0 ∧ locs.any (heldShare ti) = false ∧
      x.st = .ready 0) ∧
    ((tileAt ti (tileKey ti 1)).st = .empty ∧ (tileAt ti (tileKey ti 1)).shape = (tileAt ti (tileKey ti 15)).shape ∧
      (1 : Fin 16).val < tileShare ti) ∧
    HasRoom ti ∧ InOrder ti true ∧ StoresFree ti := by decide +kernel

/-- The row map names a bank address that is not a multiple of 8 for core 0. -/
def br : State := { ti with clusters := mset ti.clusters 0 { clusterAt ti 0 with rowmap := BitVec.ofNat 768 (2 ^ 292) } }

theorem witness_EngineJobs : Issues {} ti ∧ OnCore ti ∧ Pair ti 0 15 ∧ pairFails ti 0 15 true = none ∧ Pair ti 0 1 ∧
    pairFails ti 0 1 true = some (2, 1) ∧ QueueRoom (qmOf ti) ti ∧ HasRoom ti ∧ tileShare ti ≠ 0 ∧
    ((clusterLoc ti (gVal ti 4).toNat 128).toOption = some (sramLoc (ccKey 1 0) 0) ∧ (gVal ti 4).toNat % 8 = 0) ∧
    ((clusterLoc ti (gVal ti 6).toNat 128).toOption = some (sramLoc (ccKey 1 0) 4) ∧ (gVal ti 6).toNat % 8 ≠ 0) ∧
    (clusterLoc ti (gVal ti 0).toNat 128).isOk = false ∧
    rowError ti (curT ti).ctx 0 (clusterAt ti 0).rowmap 256 = none ∧
    (Issues {} br ∧ OnCore br ∧ Engine br ∧ tileShare br ≠ 0 ∧ HasRoom br ∧
      rowError br (curT br).ctx (coreOf br.cur / 8) (clusterAt br (coreOf br.cur / 8)).rowmap 256 = some 1) := by
  unfold QueueRoom Pair; decide +kernel

/-- g5 names the second half of the share; g6 a collective's size and g7 its package; g8 two rows of 64 bytes, 64 apart, and a
word at the share's start; g11 its last 64 bytes. -/
def co : State := rg wl [(5, 0x00FFFFFFFFFC8000), (6, 0x0000000200000040), (7, 1), (8, 0x0000000100000040),
  (9, 0x0000004000000040), (10, 0x00FFFFFFFFFC0000), (11, 0x00FFFFFFFFFCFFC0)]

theorem witness_MapsAndCopies :
    let locs := (List.range 12).map fun k => sramLoc (ccKey 1 0) (8 * k)
    let p := { co with poison := [sramLoc (ccKey 1 0) 0 / 32] }
    Issues {} co ∧ OnCore co ∧ Engine co ∧ tileShare co ≠ 0 ∧ locs.any (heldShare co) = false ∧
    (locs.flatMap fun x => locsFrom x 8).any (portHeld co) = false ∧
    (let f := rg fh [(4, 0x10000)]
     let hosts := (List.range 12).map fun k => hostLoc (0x10000 + 8 * k)
     Issues {} f ∧ OnCore f ∧ Engine f ∧ tileShare f ≠ 0 ∧ hosts.any (heldShare f) = false ∧ InOrder f true ∧
       (lanesAccess f 8 false (imageVas (gVal f 4).toNat)).toOption = some hosts ∧
       (hosts.flatMap fun x => locsFrom x 8).any (portHeld f) = true) ∧
    (lanesAccess co 8 false (imageVas (gVal co 4).toNat)).toOption = some locs ∧
    (lanesAccess co 8 true (imageVas (gVal co 4).toNat)).toOption = some locs ∧ InOrder co true ∧
    readsPoison co (curT co) (locs.flatMap fun x => locsFrom x 8) = false ∧
    (Issues {} p ∧ (lanesAccess p 8 false (imageVas (gVal p 4).toNat)).toOption = some locs ∧
      readsPoison p (curT p) (locs.flatMap fun x => locsFrom x 8) = true) ∧ ((7 : Nat) < 8 ∧ (8 : Nat) < 9) ∧
    inService co.cmap clsCopy (coreOf co.cur / 8) = true ∧
    bitsOf (giVal co (.g 8)) 47 32 + 1 = 2 ∧ bitsOf (giVal co (.g 8)) 31 0 = 64 ∧
    strideOf (gVal co (regAfter (.g 8) 1)) true = 64 ∧ strideOf (gVal co (regAfter (.g 8) 1)) false = 64 ∧
    copyEdges co (gVal co 5).toNat (gVal co 4).toNat 2 64 64 64 = none ∧
    copyEdges co (gVal co 5).toNat (gVal co 4).toNat 1 (bitsOf (giVal co (.im 64)) 31 0) 0 0 = none ∧
    (copyEdges co (gVal co 5).toNat (gVal co 11).toNat 1 (bitsOf (giVal co (.im 65)) 31 0) 0 0).isSome = true := by decide +kernel

theorem witness_MapsAndCopies_rooms : QueueRoom (queueKey (coreOf co.cur / 8) 4) co ∧ QueueRoom qclKey co ∧
    windowOf (gVal co (regAfter (.g 8) 2)).toNat = .local_ ∧
    Reaches co (gVal co (regAfter (.g 8) 2)).toNat 8 8 false (sramLoc (ccKey 1 0) 0) ∧ InOrder co true ∧
    ((List.range 3).all fun f => collTrap co f (gVal co 5).toNat (gVal co 4).toNat (gVal co 6) (gVal co 7) == none) = true ∧
    ((List.range 3).all fun f =>
      (collTrap co f (gVal co 5).toNat (gVal co 4).toNat (gVal co 0) (gVal co 7)).isSome) = true := by
  unfold QueueRoom; decide +kernel

/-- Context 1 has a job in flight and a complete one. -/
def jb : State := cc w fun x => { x with jobs := [⟨1, 0x8000, {}⟩, ⟨65535, 0, {}⟩] }

theorem witness_JobWaits : Issues {} jb ∧ OnCore jb ∧ HasRoom jb ∧ InOrder jb false ∧
    ((giVal jb (.im 1)).toNat % 65536 ≠ 0 ∧ jobRec jb (curT jb).ctx (curT jb).lcore 1 = some ⟨1, 0x8000, {}⟩ ∧
      isPending 0x8000 = true) ∧
    ((giVal jb (.im (-1))).toNat % 65536 = 65535 ∧
      jobRec jb (curT jb).ctx (curT jb).lcore 65535 = some ⟨65535, 0, {}⟩ ∧ isPending 0 = false) ∧
    ((giVal jb (.im 0)).toNat % 65536 = 0 ∧ jobRec jb (curT jb).ctx (curT jb).lcore 2 = none) ∧
    (fenceQueues (coreOf jb.cur) (giVal jb (.im 63)).toNat).all (fun q => (queueAt jb q).ents.isEmpty) = true ∧
    (let s := fun n => setQueue jb qclKey { ents := List.replicate n (.mark 1 []) }
     let qs := fun s => fenceQueues (coreOf s.cur) (giVal s (.im 63)).toNat
     (qs (s 63)).all (fun q => decide ((queueAt (s 63) q).ents.length < 64)) = true ∧
     (qs (s 63)).all (fun q => (queueAt (s 63) q).ents.isEmpty) = false ∧
     (qs (s 64)).any (fun q => decide (64 ≤ (queueAt (s 64) q).ents.length)) = true) := by
  decide +kernel

/-- Context 1 holds the leases of its last gang of tracks; another context holds track 0's. -/
def le : State := (List.range 16).foldl (fun s k => setTrack s (48 + k) { owner := some 1 }) (setTrack w 0 { owner := some 2 })

/-- An access of the thread of w. -/
def ac (gang : List Nat) (op : TrkOp) : Acc := { tk := 0, gen := 1, ctx := 1, pc := 0x10000, gang := gang, op := op, clock := 0 }

theorem witness_Leases : Issues {} le ∧ OnCore le ∧ HasRoom le ∧ fencedNow le = false ∧ fencedNow fh = true ∧
    (let ks := (List.range 16).map fun k => 48 + k
     Tracks le none (.kg 3) ks ∧ (ks.all fun k => leaseAfter le (curT le).ctx k == some true) = true ∧
       ownsAll le 1 ks = true ∧ (ac ks (.holdT 1 5)).op = .holdT 1 5 ∧
       awaits 1 (getT (th le fun t => { t with res := [res1] }) (ac ks (.holdT 1 5)).tk) = true) ∧
    (Tracks le (some 4) (.k 0) [0] ∧ ([0].all fun k => leaseAfter le (curT le).ctx k == some true) = false ∧
      ownsAll le 1 [0] = false ∧ ([0].any fun k => (trackAt le k).owner.isSome) = true) ∧
    ((trackAt le ([63].headD 0)).acc = [] ∧ Tracks le none (.k 63) [63]) ∧
    (Issues {} fh ∧ OnCore fh ∧ Tracks fh none (.k 63) [63]) := by
  decide +kernel

theorem witness_TrackAccess_owed : (∀ n ∈ trackOps w [5] (.rds {} false 4 5 none), onTrack n.2) ∧
    ∀ n ∈ trackOps w [5] (.seek {} .fwd (.k 5) none none 16383), onTrack n.2 := by
  refine ⟨by simp [trackOps, onTrack], fun n h => ?_⟩
  simp only [trackOps, seekOps, List.mem_map, List.mem_singleton, exists_eq_left] at h
  subst h; show (0 + BitVec.signExtend 64 (16383 : BitVec 24)).toNat ≤ 16383; decide +kernel

/-- Context 1 is owed the lease of track 5; its g5 names no logical core. -/
def ow : State := cc (rg le [(5, 9)]) fun c => { c with owed := [(5, 0, true, false, 0)] }

theorem witness_TrackAccess_forms : trackForm (.rds {} false 4 1 none) = some ({}, .k 1, none, [], true) ∧
    trackForm (.vrds {} 31 3 (some 5)) = some ({}, .kg 3, some 5, [31], true) ∧
    trackForm (.hpos {} 4 63 none) = some ({}, .k 63, none, [], false) := ⟨rfl, rfl, rfl⟩

theorem witness_TrackAccess : Issues {} le ∧ OnCore le ∧ HasRoom le ∧ VRegs [31] le ∧
    (Leased le [63] ∧ Tracks le (some 4) (.k 63) [63] ∧
      (0x3FFF : Word) = 0 + (0x3FFF : BitVec 24).signExtend 64 ∧ (0x3FFF : Word).toNat ≤ 16383 ∧ 16383 < (0x4000 : Word).toNat) ∧
    (let ks := (List.range 16).map fun k => 48 + k
     Leased le ks ∧ Tracks le none (.kg 3) ks) ∧
    (Tracks le none (.k 1) [1] ∧
      ([1].any fun k => leaseAfter le (curT le).ctx k == some false && !owedAfter le (curT le).ctx k) = true) ∧
    (Issues {} ow ∧ OnCore ow ∧ HasRoom ow ∧
      Tracks ow none (.k 5) [5] ∧ ([5].all fun k => leaseAfter ow (curT ow).ctx k == some true || owedAfter ow (curT ow).ctx k) = true ∧
      (owedGang ow [5]).isSome = true) ∧
    (let s := cc le fun c => { c with tmap := List.range 63 }
     Issues {} s ∧ OnCore s ∧ HasRoom s ∧ ((vtracks (.k 63)).any fun v => decide ((curCC s).tmap.length ≤ v)) = true) ∧
    namedCore ow (gVal ow 5) = none ∧
    ((namedCore ea (gVal ea 4)).isSome = true ∧ (gVal ea 4).toNat ≠ (curT ea).lcore ∧ (curT ea).res = []) := by decide +kernel

/-! ### Chains, deques and streams -/

/-- A chain of two stages, one replica each, in which the executing thread stands at a stage; its queue holds an item. -/
def chn (st : Nat) (f : Chain → Chain) : State :=
  let ch : Chain := { id := 1, folded := false, auto := false, depth := 2, vec := false, qoff := 0, cmpl := 0,
                      reps := [⟨0, 0, some 0, none, .run, false, false⟩, ⟨1, 0, some 0, none, .atGet, false, false⟩],
                      counts := [1, 1], queues := [{ items := [(0, [⟨5, {}, 0⟩])] }], homes := [0, 0] }
  th (cx w fun x => { x with chains := [f ch] }) fun t => { t with chain := some ⟨1, st, 0⟩ }

/-- What curReplica gives, asked of its chain and replica. -/
def at? (s : State) (p : Chain → Replica → Bool) : Bool := (curReplica s).any fun e => p e.1 e.2

/-- A folded chain, empty, with its queue in the state given. -/
def fo (q : CQueue) (ch : Chain) : Chain := { ch with folded := true, queues := [q] }

/-- The consumer has quit. -/
def gone (ch : Chain) : Chain :=
  { ch with reps := [⟨0, 0, some 0, none, .run, false, false⟩, ⟨1, 0, none, none, .run, false, true⟩] }

/-- The share holds a spread chain's descriptor: two stages, depth 2, scalar, at the thread's own line, and the queues at
qoff; n is its first byte. -/
def de (n qhi : Byte) : State := { wl with mem := Memory.writes wl.mem ((locsFrom (sramLoc (ccKey 1 0) 0) 8).zip [n, 0, 2, 0, 0, 0, qhi, 0]) }

theorem witness_Chains_chain :
    let locs := (List.range 8).map fun k => sramLoc (ccKey 1 0) (8 * k)
    let all := locs.flatMap fun x => locsFrom x 8
    let p := { de 2 0 with poison := [sramLoc (ccKey 1 0) 0 / 32] }
    let ds := fun s => parseDesc (BitVec.ofNat 64 (gVal s 4).toNat)
      (readThreadMany (countCorrected (closeCur s) all) 0 (curT (countCorrected (closeCur s) all)) (sectors all)).1
    let f := rg fh [(4, 0x10000)]
    let hosts := (List.range 8).map fun k => hostLoc (0x10000 + 8 * k)
    Issues {} (de 2 0) ∧ OnCore (de 2 0) ∧ HasRoom (de 2 0) ∧ (gVal (de 2 0) 4).toNat % 64 = 0 ∧ InOrder (de 2 0) true ∧
    locs.any (heldShare (de 2 0)) = false ∧ all.any (portHeld (de 2 0)) = false ∧
    (Issues {} f ∧ OnCore f ∧ HasRoom f ∧ InOrder f true ∧ hosts.any (heldShare f) = false ∧ (gVal f 4).toNat % 64 = 0 ∧
      (lanesAccess f 8 false ((List.range 8).map fun k => (gVal f 4).toNat + 8 * k)).toOption = some hosts ∧
      (hosts.flatMap fun x => locsFrom x 8).any (portHeld f) = true) ∧
    (lanesAccess (de 2 0) 8 false ((List.range 8).map fun k => (gVal (de 2 0) 4).toNat + 8 * k)).toOption = some locs ∧
    readsPoison (de 2 0) (curT (de 2 0)) all = false ∧ readsPoison p (curT p) all = true ∧
    (ds (de 2 0)).any (fun d => areaFits (de 2 0) (curT (de 2 0)).ctx d) = true ∧
    (ds (de 2 1)).any (fun d => !areaFits (de 2 1) (curT (de 2 1)).ctx d) = true ∧ (ds (de 1 0)).isNone = true ∧
    ((gVal wm 4).toNat % 64 ≠ 0 ∧ windowOf (gVal wm 4).toNat ≠ .reserved) := by
  decide +kernel

theorem witness_Chains_get :
    Issues {} (chn 1 id) ∧ OnCore (chn 1 id) ∧ HasRoom (chn 1 id) ∧ Drains (chn 1 id) ∧ VRegs (gvRegs (.v 31)) (chn 1 id) ∧
    curReplica w = none ∧ at? (chn 0 id) (fun _ r => r.stage == 0) = true ∧
    at? (chn 1 id) (fun ch r => r.stage != 0 && !kindOk ch (.v 31) && kindOk ch (.g 15) && !ch.folded) = true ∧
    (let q : CQueue := { items := [(0, [⟨5, {}, 0⟩])] }
     let s := chn 1 (fo q)
     let rdy := fun s ch (r : Replica) => getReady s (curT s).ctx ch r.stage r.rep
     at? s (fun ch r => ch.folded && r.at_ == .atGet && rdy s ch r && kindOk ch (.g 15)) = true ∧
     (let s := chn 1 fun ch => { fo q ch with reps := [⟨1, 0, some 0, none, .run, false, false⟩] }
      at? s (fun ch r => ch.folded && r.at_ != .atGet && rdy s ch r) = true) ∧
     (let s := chn 1 (fo {})
      at? s (fun ch r => ch.folded && !rdy s ch r) = true ∧ CanSwitch s ∧
        (curT (th s fun t => { t with inh := true })).inh = true)) := by decide +kernel

theorem witness_Chains_put :
    Issues {} (chn 0 id) ∧ OnCore (chn 0 id) ∧ HasRoom (chn 0 id) ∧ Drains (chn 0 id) ∧ VRegs (givRegs (.v 31)) (chn 0 id) ∧
    at? (chn 1 id) (fun ch r => r.stage + 1 == chStages ch) = true ∧
    at? (chn 0 fun ch => { ch with reps := [⟨0, 0, some 0, none, .run, true, false⟩] })
      (fun ch r => r.stage + 1 != chStages ch && r.done) = true ∧
    at? (chn 0 id) (fun ch r => r.stage + 1 != chStages ch && !r.done && !putKindOk ch (.v 31) && putKindOk ch (.im 0) &&
      canAccept ch r.stage r.rep && (chQueue ch r.stage).p == r.rep && !ch.folded) = true ∧
    at? (chn 0 fun ch => { ch with queues := [{ items := [(0, [⟨5, {}, 0⟩, ⟨6, {}, 0⟩])] }] })
      (fun ch r => !ch.folded && !canAccept ch r.stage r.rep) = true ∧
    at? (chn 0 fun ch => { ch with queues := [{ p := 1 }] }) (fun ch r => !ch.folded && (chQueue ch r.stage).p != r.rep) = true ∧
    at? (chn 0 (fo {} ∘ gone)) (fun ch r => ch.folded && (chQueue ch r.stage).p == r.rep && consumersQuit ch r.stage) = true ∧
    (CanSwitch (chn 0 (fo {})) ∧ at? (chn 0 (fo {})) (fun ch r => ch.folded && canAccept ch r.stage r.rep &&
      !consumersQuit ch r.stage && (chQueue ch r.stage).p == r.rep) = true) ∧
    (let s := chn 0 (fo { p := 1 })
     CanSwitch s ∧ (curT (th s fun t => { t with inh := true })).inh = true ∧
       at? s (fun ch r => ch.folded && !canAccept ch r.stage r.rep && (chQueue ch r.stage).p != r.rep) = true) := by decide +kernel

/-- A launch grid of one sub-tile, and of none. -/
def gr (n : Nat) : State := cx w fun x => { x with nclus := 1, pkt := { x.pkt with grid := BitVec.ofNat 64 n } }

theorem witness_Chains_other :
    let i := fun s : State => (((getCC s 1 0).map (·.cluster)).getD 0) + (ctxD s 1).nclus * mgetD (ctxD s 1).ftile 0 0
    i (gr 1) < subTiles (ctxD (gr 1) 1).pkt.grid ∧ subTiles (ctxD (gr 0) 1).pkt.grid ≤ i (gr 0) ∧
    chainNamed (chn 1 id) none = some 1 ∧ (chainOf (closeCur (chn 1 id)) 1 1).isSome = true ∧
    chainNamed w (some 4) = some 0 ∧ chainOf (closeCur w) 1 0 = none ∧ chainNamed w none = none := by decide +kernel

/-- The core context's deque stands at the start of its share, with one entry's room; it holds n entries. -/
def dqs (n : Byte) : State :=
  cc { w with mem := Memory.write w.mem (sramLoc (ccKey 1 0) 8) n } fun x => { x with dqEn := true, dqBase := 0, dqLim := 32 }

theorem witness_Deques :
    (let s := dqs 0
     let loc := sramLoc (ccKey 1 0) 0
     Issues {} s ∧ OnCore s ∧ HasRoom s ∧ Drains s ∧ InOrder s true ∧ InOrder w true ∧
     ((getCC s (curT s).ctx (curT s).lcore).any fun cc => cc.dqEn &&
       (dequeOf s (ccKey (curT s).ctx (curT s).lcore) cc).toOption == some (loc, 1)) = true ∧
     dequeBot (closeCur s) loc = dequeTop (closeCur s) loc ∧
     (dequeBot (dqs 1) loc + 2 ^ 32 - dequeTop (dqs 1) loc) % 2 ^ 32 = 1 ∧ dequeBot (dqs 1) loc ≠ dequeTop (dqs 1) loc ∧
     ((getCC (dqs 1) 1 0).any fun cc => (dequeOf (dqs 1) (ccKey 1 0) cc).toOption == some (loc, 1)) = true ∧
     ((getCC (dqs 2) 1 0).any fun cc => match dequeOf (dqs 2) (ccKey 1 0) cc with
       | .error n => n == 3
       | _ => false) = true ∧
     ((getCC w 1 0).any fun cc => !cc.dqEn) = true) ∧
    (namedCore w (gVal w 4)).isSome = true ∧ namedCore ow (gVal ow 5) = none := by decide +kernel

/-- Context 1 has a route to port 3 of its own core, with n scalar words buffered. -/
def rt (n : Nat) (c : Nat) : Route :=
  { id := 9, ctx := c, lcore := 0, vec := false, arrived := true, words := List.replicate n (5, false) }
def st (n : Nat) (c : Nat) : State := modPort w 0 3 fun p => { p with held := some (rt n c) }

theorem witness_Streams : Issues {} w ∧ OnCore w ∧ HasRoom w ∧ VRegs (givRegs (.v 31)) w ∧ VRegs (gvRegs (.v 31)) w ∧
    ((namedCore w (gVal w 4)).any fun cc => cc.cst == .resident && unitState w.cmap clsCore cc.phys != 3 &&
      !(portAt w cc.phys 3).chain && (routeTo? w cc 3).isNone) = true ∧
    ((namedCore (st 1 1) (gVal w 4)).any fun cc => routeTo? (st 1 1) cc 3 == some (rt 1 1)) = true ∧
    (512 < ((rt 64 1).words.length + (rt 64 1).flying.length + 1) * Machine.wordBytes false ∧
      ¬ 512 < ((rt 63 1).words.length + (rt 63 1).flying.length + 1) * Machine.wordBytes false) ∧
    ((namedCore (cc w fun c => { c with cst := .saving }) (gVal w 4)).any fun c => c.cst == .saving) = true ∧
    (let s := { w with cmap := { w.cmap with units := mset w.cmap.units (unitKey clsCore 0) 3 } }
     ((namedCore s (gVal s 4)).any fun c => c.cst == .resident && unitState s.cmap clsCore c.phys == 3) = true) ∧
    (let s := modPort w 0 3 fun p => { p with chain := true }
     ((namedCore s (gVal s 4)).any fun cc => cc.cst == .resident && (portAt s cc.phys 3).chain) = true) ∧
    ((portAt w (coreOf w.cur) 3).chain = false ∧ (portAt w (coreOf w.cur) 3).held = none) ∧
    ((portAt (st 1 2) 0 3).held = some (rt 1 2) ∧ (rt 1 2).ctx ≠ (curT w).ctx) ∧
    ((portAt (st 1 1) 0 3).held = some (rt 1 1) ∧ (rt 1 1).ctx = (curT w).ctx ∧ (rt 1 1).vec = false ∧ (rt 1 1).words ≠ [] ∧
      srecvWaits (st 1 1) 1 0 3 = [] ∧ (takeWord (closeCur (st 1 1)) 0 3).1 = some (5, false)) ∧ (rt 0 1).words = [] := by
  decide +kernel

/-! ### Privileged instructions -/

/-- A thread of level 1; g5 names its own context, g6 none. -/
def lv : State := th (rg w [(5, 1), (6, 2)]) fun t => { t with priv := 1 }

theorem witness_MapAndKill : Issues {} w ∧ HasRoom w ∧ (gVal w 4).toNat ≤ (ctxD w (curT w).ctx).ackv.toNat ∧
    ((ctxD w (curT w).ctx).ackv.toNat < (gVal (rg w [(4, 1)]) 4).toNat ∧
      (ctxD w (curT w).ctx).mapvec.toNat < (gVal (rg w [(4, 1)]) 4).toNat) ∧
    (let s := cx (rg w [(4, 1)]) fun x => { x with mapvec := 1 }
     (ctxD s (curT s).ctx).ackv.toNat < (gVal s 4).toNat ∧ (gVal s 4).toNat ≤ (ctxD s (curT s).ctx).mapvec.toNat) ∧
    (Issues {} lv ∧ Level 1 lv ∧ HasRoom lv ∧ getCtx (closeCur lv) ((gVal lv 6).toNat % 65536) = none ∧
      (getCtx (closeCur lv) ((gVal lv 5).toNat % 65536)).isSome = true) := by decide +kernel

/-- The same, of a launch that reserves no tiles; g7 asks for any core. -/
def lm : State := cx (rg lv [(7, 0xFFF)]) fun x => { x with pkt := { x.pkt with res := 0x30400000 } }

theorem witness_ContextInstructions : Issues {} lv ∧ Level 1 lv ∧ HasRoom lv ∧ liveCtx lv ((gVal lv 6).toNat % 65536) = false ∧
    (gVal lv 5).toNat % 65536 = 1 ∧ liveCtx lv 1 = true ∧ (gVal lv 0).toNat < 4096 ∧ (getCC lv 1 (gVal lv 5).toNat).isNone = true ∧
    ((getCC lv 1 0).any fun cc => cc.cst == .resident && cc.phys == bitsOf (gVal lv 0) 11 0) = true ∧
    (ctxD (closeCur lv) 1).saveBase = 0 := by decide +kernel

/-- A level 1 thread whose context has a save area; whose core context is saved; which names core 1 and reserves tiles. -/
def lsv : State := cx lv fun x => { x with saveBase := 0x100000 }
def lsd : State := cc lv fun c => { c with cst := .saved }
def lan : State := rg lv [(7, 1)]

theorem witness_ContextInstructions_ends :
    ((ctxD (closeCur lsv) 1).saveBase ≠ 0 ∧ ((getCC lsv 1 0).any fun c => c.cst != .saved) = true) ∧
    ((getCC lsd 1 0).any fun c => c.cst == .saved && c.cst != .resident) = true ∧
    ((getCC lm 1 0).any fun c => c.phys != bitsOf (gVal lm 7) 11 0 &&
      migCore (closeCur lm) (1, 0, c) (bitsOf (gVal lm 7) 11 0) == some 1) = true ∧
    ((getCC lan 1 0).any fun c => c.phys != bitsOf (gVal lan 7) 11 0 &&
      (migCore (closeCur lan) (1, 0, c) (bitsOf (gVal lan 7) 11 0)).isNone) = true := by decide +kernel

theorem witness_ContextWords : Issues {} lv ∧ Level 1 lv ∧ HasRoom lv ∧ liveCtx lv 1 = true ∧ liveCtx lv 2 = false ∧
    ((gVal lv 5).toNat = 1 ∧ (gVal lv 6).toNat = 2 ∧ ((List.range 10).all fun i =>
      (gVal (rg lv [(7, BitVec.ofNat 64 i)]) 7).toNat == i) = true ∧ 9 ∉ [1, 2, 3, 7, 8]) ∧
    ((gVal (rg lv [(7, 511)]) 7).toNat % 512 ≠ 0 ∧ (gVal (rg lv [(7, 512)]) 7).toNat % 512 = 0) ∧
    bitsOf (gVal (rg lv [(7, 0x3FFF)]) 7) 14 3 = 2047 ∧ bitsOf (gVal (rg lv [(7, 0x4000)]) 7) 14 3 = 2048 := by decide +kernel

/-- A level 1 thread whose context's root is a leaf node with one paged range of pages 1 and 2; g6 and g7 lie in them, g8
does not. -/
def pg : State :=
  let s := rg lv [(6, 0x1FFFF), (7, 0x20000), (8, 0x30000)]
  let cells := (locsFrom 0x100 32).zip (bytesLE 16 0x101 ++ bytesLE 16 0xF0000000000100000000010000000020) ++
    (locsFrom 0x20000 16).zip (bytesLE 8 0xE000000000010000 ++ bytesLE 8 0xE000000000020000)
  { s with mem := Memory.writes s.mem cells }

/-- The same with the root node poisoned. -/
def pp : State := { pg with poison := [0x100 / 32] }

theorem witness_PagingInstructions : Issues {} pg ∧ Level 1 pg ∧ HasRoom pg ∧ (gVal pg 5).toNat % 65536 = 1 ∧
    InOrder pg false ∧ liveCtx pg 1 = true ∧ liveCtx pg ((gVal pg 6).toNat % 65536) = false ∧ Pte pg 1 (gVal pg 6) 0x20000 ∧ Pte pg 1 (gVal pg 7) 0x20008 ∧
    bitsOf (giVal pg (.im 255)) 7 0 ≠ 0 ∧ bitsOf (giVal pg (.im (-256))) 7 0 = 0 ∧
    (bitsOf (pteWord (ptePrep pg 0x20000) 0x20000) 59 52 : Int) + (giVal pg (.im 255)).toInt = 255 ∧
    (bitsOf (pteWord (ptePrep pg 0x20000) 0x20000) 59 52 : Int) + (giVal pg (.im (-1))).toInt < 0 ∧
    (poisonOnWay pg 1 (gVal pg 8).toNat = none ∧ pteOf pg 1 (gVal pg 8).toNat = none) ∧
    (Issues {} pp ∧ Level 1 pp ∧ HasRoom pp ∧ (gVal pp 5).toNat % 65536 = 1 ∧ liveCtx pp 1 = true ∧
      poisonOnWay pp 1 (gVal pp 6).toNat = some 1) := by decide +kernel

theorem witness_ManagementInstructions : Issues {} rv ∧ Level 1 rv ∧ Level 0 rv ∧ HasRoom rv ∧
    (gVal (rg rv [(4, 523696)]) 4).toNat + 64 + quoteLen = 2 ^ 19 ∧
    2 ^ 19 < (gVal (rg rv [(4, 523697)]) 4).toNat + 64 + quoteLen := by decide +kernel

/-! ### The device's own steps, clause by clause -/

/-- The thread of w with an outstanding request for a word. -/
def rs (wt : Wait) : State := th w fun t => { t with res := [{ res1 with wait := wt }] }

/-- A request that the port holds behind a FENCE. -/
def hp : State := th fh fun t => { t with res := [{ res1 with wait := .request (.mapv false), port := true, fence := 1 }] }

theorem witness_ThreadEvents_results :
    (mget w.threads 9 = none ∧ mget w.threads 0 = some (curT w) ∧ holderOf w 9 2 = none ∧ holderOf w 0 2 = none ∧
      holderOf w 0 0 = none ∧ frameAwaits w 2 = false ∧ frameAwaits w 0 = false ∧
      0 ≤ (((slotAt w 0).past.head?).map (·.1)).getD 0 ∧ (((slotAt w 0).past.head?).map (·.1)).getD 0 < 2) ∧
    (let s := rs (.get {} (.g 1) 1)
     holderOf s 0 1 = some 0 ∧ ((findRes (getT s 0) 1).any fun r => r.wait == .get {} (.g 1) 1) = true) ∧
    (holderOf (rs .none) 0 1 = some 0 ∧ ((findRes (getT (rs .none) 0) 1).any fun r => r.wait == .none) = true ∧
      (getT (rs .none) 0).chain = none) ∧
    (let s := th (rs .none) fun t => { t with chain := some ⟨1, 0, 0⟩ }
     holderOf s 0 1 = some 0 ∧ (getT s 0).chain = some ⟨1, 0, 0⟩ ∧ (findRes (getT s 0) 1).isSome = true) ∧
    (let s := chn 1 fun ch => { ch with reps := [⟨1, 0, none, some (curT (rs .none)), .atGet, false, false⟩] }
     holderOf s 0 1 = none ∧ frameAwaits s 1 = true) ∧
    requestOf w 0 1 = none ∧ ((requestOf (rs (.request (.mapv true))) 0 1).any fun e =>
      e.2 == .mapv true && !inPort (rs (.request (.mapv true))) 0 e.1) = true ∧
    ((requestOf hp 0 1).any fun e => inPort hp 0 e.1) = true ∧
    ((getCC (rs (.request (.mapv true))) 1 0).any fun c => c.cst == .resident && res1.sentTo.getD c.phys == c.phys) = true ∧
    (let sent := fun s : State => th s fun t => { t with res := [{ res1 with wait := .request (.mapv true), sentTo := some 5 }] }
     let b := setCore w 5 { coreAt w 5 with berm := [{ ctx := 1, lcore := 0, dest := none, until_ := none }] }
     ((requestOf (sent w) 0 1).any fun e => e.1.sentTo == some 5 && !inPort (sent w) 0 e.1) = true ∧
       ((getCC (sent w) 1 0).any fun c => c.cst == .resident && c.phys != 5) = true ∧ isCompute 5 = true ∧
       forwards (sent w) 5 1 0 = false ∧ forwards (sent b) 5 1 0 = true) ∧
    (let s := cc (rs (.request (.mapv true))) fun c => { c with cst := .saved }
     ((getCC s (getT s 0).ctx 0).any fun c => c.cst != .resident) = true) ∧
    ((requestOf (rs (.request (.chmodeQ 1 0 0))) 0 1).any fun e => e.2 == .chmodeQ 1 0 0) = true := by decide +kernel

/-- A thread in a wait, with a monitor on line 3. -/
def wt (k : Wait) (b : Bool) : State := th (rs k) fun t => { t with mons := [{ line := 3, written := b, armed := 0 }] }

theorem witness_ThreadEvents_waits :
    (let d := addressOf w 0
     msgSlot d = 0 ∧ hereFor w (msgSlot d) (msgStamp d) = true ∧ hereFor w (msgSlot (d + 65536)) (msgStamp (d + 65536)) = false) ∧
    (let mine := fun b => (monOf (getT (latch (wt (.mwait 3) b) 0 2) 0) 3).all fun m => m.written && m.armed == msgArm (addressOf w 0)
     mine true = true ∧ mine false = false) ∧
    ((curT (rs .park)).evt = 0 ∧ (curT (th (rs .park) fun t => { t with evt := 64 })).evt ≠ 0) ∧
    (let s := th (wt (.mwait 3) false) fun t => { t with ghosts := [{ line := 3, written := true, armed := 0 }] }
     (getT s 0).ghosts.any (fun m => m.line == 3 && m.written) = true ∧
       (getT (wt (.mwait 3) false) 0).ghosts.any (fun m => m.line == 3 && m.written) = false) ∧
    findRes (getT w 0) 1 = none ∧ ((findRes (getT (rs .park) 0) 1).any fun r => r.wait == .park) = true ∧
    ((findRes (getT (wt (.mwait 3) true) 0) 1).any fun r => r.wait == .mwait 3) = true ∧
    ((monOf (getT (wt (.mwait 3) true) 0) 3).any (·.written)) = true ∧ ((monOf (getT (wt (.mwait 3) false) 0) 3).any (!·.written)) = true ∧
    (let s := cx (rs (.bar 0)) fun x => { x with bars := [(0, { full := some 0 })] }
     ((findRes (getT s 0) 1).any fun r => r.wait == .bar 0) = true ∧ (barAt s (getT s 0).ctx 0).full.isSome = true ∧
       (barAt (rs (.bar 0)) 1 0).full.isSome = false) ∧
    ((findRes (getT (rs (.bwait 7)) 0) 1).any fun r => r.wait == .bwait 7) = true := by decide +kernel

/-- The thread refetches its line, which is as w has it, or has one bit wrong. -/
def rf (b : Byte) : State :=
  let s := th w fun t => { t with block := .refetch }
  { s with mem := Memory.write s.mem 0x10030 b }

theorem witness_ThreadEvents_fetch : (getT w 0).block ≠ .refetch ∧
    ((getT (rf 0) 0).block = .refetch ∧ fetchAccess (rf 0) 0 (lineAddr (getT (rf 0) 0).pc) = .ok 0x10000 ∧
      parityOk (readLine (setT (rf 0) 0 { getT (rf 0) 0 with block := .free }) 1 (getT (rf 0) 0).view (locsFrom 0x10000 64)) = true) ∧
    (fetchAccess (rf 1) 0 (lineAddr (getT (rf 1) 0).pc) = .ok 0x10000 ∧
      parityOk (readLine (setT (rf 1) 0 { getT (rf 1) 0 with block := .free }) 1 (getT (rf 1) 0).view (locsFrom 0x10000 64)) = false) ∧
    (let s := th (rf 0) fun t => { t with pc := 0x20000 }
     (getT s 0).block = .refetch ∧ fetchAccess s 0 (lineAddr (getT s 0).pc) = .miss) := by decide +kernel

/-- A MAPEVT is given to the thread of a state, or held by it. -/
def me (given held : Bool) (s : State) : State := th s fun t => { t with mapevt := given, mheld := held }

theorem witness_ThreadEvents_map : ((getT w 0).mapevt = false ∧ (getT w 0).mheld = false) ∧
    (let s := me false true w
     (getT s 0).mapevt = false ∧ (getT s 0).mheld = true ∧ (getT s 0).inh = false ∧
       (ctxD s (getT s 0).ctx).mapvec.toNat ≤ (ctxD s (getT s 0).ctx).ackv.toNat) ∧
    ((getT (me true false ih) 0).mapevt = true ∧ (getT (me true false ih) 0).inh = true) ∧
    (let s := me true false (hd w)
     let u := if parked (getT s 0) then breakWaits (getT (unhold s 0) 0) else getT (unhold s 0) 0
     (getT s 0).mapevt = true ∧ (getT s 0).inh = false ∧ (getT s 0).held = none ∧ frameless s (getT s 0) = false ∧
       u.block = .free ∧ u.trapP = none ∧ checkDue u = false) ∧
    (let s := th (me true false (hd w)) fun t => { t with entry := .start }
     (getT s 0).held = none ∧ frameless s (getT s 0) = false ∧ parked (getT s 0) = false ∧ checkDue (getT (unhold s 0) 0) = true) ∧
    (getT (th (me true false (hd w)) fun t => { t with held := some ⟨{}, [(0, [])]⟩ }) 0).held.isSome = true := by decide +kernel

/-- An interrupt is pending at the Reeve, whose thread has a handler. -/
def iv : State := setCore (th rv fun t => { t with tvec := 0x10001 }) 0x804 { coreAt rv 0x804 with pend := 8 }

/-- A thread of service core 3. -/
def sc : State :=
  let k := tkOf 0x803 0
  { w with cur := k, threads := mset w.threads k { curT w with ctx := 0, priv := 1 }, slots := mset w.slots k { (slotAt w 0) with ctx := 0 } }

theorem witness_ThreadEvents_traps :
    (let k := tkOf 0x804 0
     mget iv.threads k = some (getT iv k) ∧ lowestPend iv (coreOf k) = some 3 ∧ isCompute (coreOf k) = false ∧
       (getT iv k).inh = false ∧ (getT iv k).tvec ≠ 0 ∧ atBoundary (getT iv k) = true ∧ checkDue (breakPark (getT iv k)) = false) ∧
    (let s := setCore w 0 { coreAt w 0 with pend := 1 }
     lowestPend s 0 = some 0 ∧ isCompute (coreOf 0) = true) := by decide +kernel

theorem witness_SlotEvents_errors :
    ((slotAt w 0).occ = .used ∧ dying w (curT w).ctx = false ∧ isCompute (coreOf 0) = true) ∧
    (let s := { w with slots := mset w.slots 0 { slotAt w 0 with occ := .scrub } }
     (slotAt s 0).occ ≠ .used ∧ mget s.threads 0 = some (getT s 0)) ∧
    (let k := tkOf 0x803 0
     mget sc.threads k = some (getT sc k) ∧ (slotAt sc k).occ = .used ∧ dying sc (getT sc k).ctx = false ∧
       isCompute (coreOf k) = false ∧ coreOf k = 0x800 + 3) := by decide +kernel

/-- The thread leaves for the own core of its context. -/
def lg (n : Nat) (st : CSt) : State :=
  cc (setCore (th w fun t => { t with block := .leaving 0 0 }) 0
    { coreAt w 0 with inbox := List.replicate n { src := 8, th := curT w, acc := true } }) fun c => { c with cst := st }

theorem witness_ThreadEvents_lost : requestOf w 0 1 = none ∧
    (let q := Req.load 0x20000 0x20000 8 false
     let lost := { rs (.request q) with cmap := { w.cmap with units := (List.range 8).map fun k => (unitKey clsStack k, 3) } }
     let gone := fun s => (requestOf s 0 1).any fun e => e.2 == q && (lostAnswer s 1 0 e.1 e.2).isSome
     (requestOf (rs (.request q)) 0 1).isSome = true ∧ gone (rs (.request q)) = false ∧ gone lost = true) := by decide +kernel

theorem witness_SlotEvents_walks :
    (let s := fun va => setCluster pg 0 { clusterAt pg 0 with walks := [(0, 1, va)] }
     let mine := fun s => (clusterAt s (coreOf 0 / 8)).walks.find? fun w => w.1 == 0
     let s1 := fun va => countCorrected (s va) (walkReads (s va) 1 va)
     mine w = none ∧ mine (s 0x1FFFF) = some (0, 1, 0x1FFFF) ∧ walk (s1 0x1FFFF) 1 0x1FFFF = .ok 0x1FFFF true true false ∧
       mine (s 0x30000) = some (0, 1, 0x30000) ∧ walk (s1 0x30000) 1 0x30000 = .fault 1) ∧
    ((getT (lg 15 .resident) 0).block = .leaving 0 0 ∧ ((getCC (lg 15 .resident) 1 0).any fun c =>
      c.cst == .resident && c.phys == 0 && decide ((coreAt (lg 15 .resident) c.phys).inbox.length < 16)) = true) ∧
    (let s := th (lg 0 .resident) fun t => { t with block := .leaving 0 5 }
     (getT s 0).block = .leaving 0 5 ∧ ((getCC s 1 0).any fun c => c.cst == .resident && c.phys != 5) = true) ∧
    ((getCC (lg 16 .resident) 1 0).any fun c => decide (16 ≤ (coreAt (lg 16 .resident) c.phys).inbox.length)) = true ∧
    ((getCC (lg 0 .saved) 1 0).any fun c => c.cst != .resident) = true ∧
    (let l := th (lg 0 .resident) fun t => { t with ctx := 0 }
     let s := setSlot l 0 { slotAt l 0 with past := [(0, 1)] }
     let n := msgStamp (65536 * (256 * 1 + (slotAt s 0).gen.toNat))
     mget s.threads 0 = some (getT s 0) ∧ (getT s 0).ctx = 0 ∧ (slotAt s 0).past.head?.any (fun e => e.2 == n / 256) = true ∧
       (slotAt s 0).gen.toNat = n % 256) ∧
    (getT (lg 0 .resident) 0).ctx ≠ 0 := by decide +kernel

/-- A child of context 1 waits to be placed; slot 7 of core 0 is reserved for the context in op. -/
def sp : State := { w with spawns := [(1, curT w)] }
def op : State := { sp with slots := mset sp.slots 7 { ctx := 1, lcore := 0, vregs := 32 } }

/-- A thread of context 1 stands in the inbox of core 0. -/
def ib (s : State) (n : Nat) : State := setCore s 0 { coreAt s 0 with inbox := List.replicate n { src := 8, th := curT w, acc := true } }

theorem witness_SlotEvents_places : mget w.spawns 1 = none ∧
    (mget sp.spawns 1 = some (curT w) ∧ ((getCC sp (curT w).ctx (curT w).lcore).any fun c => c.cst == .resident && c.phys == 0) = true ∧
      (((findRes (getT sp 0) 1).bind (·.sentTo)).getD 0) = 0 ∧ openSlot sp 0 (curT w).ctx (curT w).lcore = none) ∧
    (mget op.spawns 1 = some (curT w) ∧ migrantWaits op 0 (curT w).ctx = false ∧
      openSlot op 0 (curT w).ctx (curT w).lcore = some 7) ∧
    migrantWaits (ib op 1) 0 (curT w).ctx = true ∧
    (let s := { sp with cctxs := [] }
     (getCC s (curT w).ctx (curT w).lcore).isNone = true) ∧
    ((getCC (cc sp fun c => { c with cst := .saved }) 1 0).any fun c => c.cst != .resident) = true := by decide +kernel

/-- Whether a record of an inbox finds an open slot. -/
def fits (s : State) (m : Mig) : Bool := (openSlot s 0 m.th.ctx m.th.lcore).isSome

theorem witness_SlotEvents_inbox :
    (takeFirst (fits (ib op 1)) (coreAt (ib op 1) 0).inbox).any (fun e => e.2.isEmpty) = true ∧
    (takeFirst (fits (ib op 2)) (coreAt (ib op 2) 0).inbox).any (fun e => !e.2.isEmpty) = true ∧
    openSlot (ib op 1) 0 (curT w).ctx (curT w).lcore = some 7 ∧
    (takeFirst (fits (ib sp 1)) (coreAt (ib sp 1) 0).inbox).isNone = true := by decide +kernel

theorem witness_SlotEvents_scrubs : (slotAt w 0).occ ≠ .scrub ∧
    (let s := fun (k c : Nat) => { w with slots := mset w.slots k { ctx := c, lcore := 0, vregs := 32, occ := .scrub } }
     ((slotAt (s 7 1) 7).occ = .scrub ∧ isCompute (coreOf 7) = true ∧ coreOf 7 ≠ 0x804 ∧ (slotAt (s 7 1) 7).ctx ≠ 0) ∧
     ((slotAt (s 7 0) 7).occ = .scrub ∧ (slotAt (s 7 0) 7).ctx = 0) ∧
     ((slotAt (s (tkOf 0x804 0) 0) (tkOf 0x804 0)).occ = .scrub ∧ coreOf (tkOf 0x804 0) = 0x804) ∧
     ((slotAt (s (tkOf 0x803 0) 0) (tkOf 0x803 0)).occ = .scrub ∧ coreOf (tkOf 0x803 0) ≠ 0x804 ∧
       isCompute (coreOf (tkOf 0x803 0)) = false)) ∧
    ((quadAt w 3).task = none ∧ mget w.threads (tkOf (0x800 + 3) 0) = none) ∧
    ((quadAt sc 3).task = none ∧ (mget sc.threads (tkOf (0x800 + 3) 0)).isSome = true) := by decide +kernel

/-- A task, ended with a status or not; quadrant 3's service core has it. -/
def qk (e : Option Nat) : Task := { code := 0x20, g1 := 0, g2 := 0, g3 := 0, ended := e }
def qt (e : Option Nat) (s : State) : State := setQuad s 3 { quadAt s 3 with task := some (qk e) }

theorem witness_SlotEvents_tasks :
    (((quadAt (qt (some 1) w) 3).task.any fun k => k.ended == some 1) = true) ∧
    ((quadAt (endTask (qt (some 1) w) 3 (qk (some 1)) 1) 3).task = none ∧
      mget (endTask (qt (some 1) w) 3 (qk (some 1)) 1).threads (tkOf (0x800 + 3) 0) = none) ∧
    (mget (endTask (qt (some 1) sc) 3 (qk (some 1)) 1).threads (tkOf (0x800 + 3) 0)).isSome = true ∧
    (((quadAt (qt none w) 3).task.any fun k => k.ended == none) = true) := by decide +kernel

/-- The prefetcher fetches a page of context 1, whose page 1 lies in the second tier; its pool holds n frames. -/
def pf (page n : Nat) : State :=
  let s := cx pg fun x => { x with tpref := 0x21000 }
  let cells := (locsFrom 0x20000 8).zip (bytesLE 8 0x4) ++ (locsFrom 0x21000 8).zip (bytesLE 8 n)
  { s with mem := Memory.writes s.mem cells, fetches := [{ ctx := 1, page := page, die := 0, core := 0, flags := 0 }] }

/-- The same, with a store to the page behind a FENCE in a thread's buffer. -/
def pw : State := { pf 1 1 with threads := fs.threads, tracks := fs.tracks, slots := fs.slots }

theorem fetchPages_ge (c e base : Nat) : ∀ ks s n, n ≤ (fetchPages c e base ks s n).2
  | [], _, _ => Nat.le_refl _
  | k :: r, s, n => by
    unfold fetchPages
    cases fetchPage s c e base k with
    | none => exact Nat.le_refl _
    | some s1 => exact Nat.le_of_succ_le (fetchPages_ge c e base r s1 (n + 1))

/-- A pool that is not empty gives a frame for the first page. -/
theorem fetchPages_pos (c e base k : Nat) (r : List Nat) (s : State)
    (h : memN s (nbits (ctxD s c).tpref.toNat 63 12 * 4096) 8 ≠ 0) : (fetchPages c e base (k :: r) s 0).2 ≠ 0 := by
  unfold fetchPages fetchPage
  simp only [h, if_false]
  exact Nat.one_le_iff_ne_zero.1 (fetchPages_ge _ _ _ _ _ 1)

theorem witness_SlotEvents_prefetch :
    ((pf 3 0).fetches.find? (fun f => f.ctx == 1 && f.page == pageOf 0x30000)).isSome = true ∧ walk (pf 3 0) 1 0x30000 ≠ .second ∧
    ((pf 1 0).fetches.find? (fun f => f.ctx == 1 && f.page == pageOf 0x10000)).isSome = true ∧ walk (pf 1 0) 1 0x10000 = .second ∧
    (pagedRange (pf 1 0) 1 0x10000).isSome = true ∧ (fetchPages 1 0 1 [0] (pf 1 0) 0).2 = 0 ∧
    shotWaits (pf 1 1) (some 1) [(1, 1), (2, 1)] = false ∧ (walk pw 1 0x10000 = .second ∧ shotWaits pw (some 1) [(1, 1), (2, 1)] = true) ∧
    (walk (pf 1 1) 1 0x10000 = .second ∧ memN (pf 1 1) (nbits (ctxD (pf 1 1) 1).tpref.toNat 63 12 * 4096) 8 ≠ 0) := by
  decide +kernel

/-! ### Host, jobs, tracks and chains -/

/-- The host function is open. -/
def ho : State := { w with booted := true }

/-- A request stands at the head of a host path. -/
def hq (p : Nat) (r : HostReq) : State := { ho with hpaths := [(p, [r])] }

theorem witness_HostEvents :
    (let s := hq (hostPath ho 0x1FFFF) (.write 0x1FFFF [1, 2])
     mgetD s.hpaths (hostPath ho 0x1FFFF) [] = .write 0x1FFFF [1, 2] :: [] ∧ hostOpen s = true ∧
       min 2 (256 - 0x1FFFF % 256) = 1 ∧ min 1 (256 - 0x1FFFF % 256) = 1) ∧
    (hostPath ho 0x1FFFF ≠ hostPath ho 0x1FFFF + 1 ∧
      mgetD (hq (hostPath ho 0x1FFFF + 1) (.write 0x1FFFF [1])).hpaths (hostPath ho 0x1FFFF + 1) [] = .write 0x1FFFF [1] :: []) ∧
    hostOpen w = false ∧
    mgetD (hq 0 (.read 0x1FFFF 2)).hpaths 0 [] = .read 0x1FFFF 2 :: [] ∧ mgetD (hq 0 (.reg 0 8)).hpaths 0 [] = .reg 0 8 :: [] ∧
    (hostOpen ho = true ∧ (qblkAt ho 8191).en = false) ∧
    ((0x100000 : Nat) < 0x180000 ∧ (0x20FFF8 : Nat) < 0x210000 ∧ (0x301FF8 : Nat) < 0x302000) := by decide +kernel

/-- An arrival of one byte at the first word of the scratchpad share, sent to core k, whose barrier expects two. -/
def ar (k : Nat) (late : Bool) : Arrival := { bytes := 1, sentTo := k, late := late, key := 5, view := {}, tk := 0, rid := 1 }
def bw (a : Arrival) (s : State) : State := { s with arrivals := [(1, a)], mem := Memory.write s.mem (sramLoc (ccKey 1 0) 0 + 4) 2 }

theorem witness_BarrierEvents :
    (let s := { w with ctxs := mset w.ctxs 1 { ctxD w 1 with bars := [(0, { full := some 0, arrived := [0] })] } }
     (barAt s 1 0).full.isSome = true ∧ (barAt w 1 0).full.isSome = false) ∧
    (let loc := sramLoc (ccKey 1 0) 0
     let s := bw (ar 0 true) w
     mget w.arrivals 1 = none ∧ mget s.arrivals 1 = some (ar 0 true) ∧ lostShare s loc = false ∧ heldShare s loc = false ∧
     (ar 0 true).sentTo = sramCore s loc ∧ (ar 1 true).sentTo ≠ sramCore (bw (ar 1 true) w) loc ∧ (ar 0 false).late = false ∧
     arrivalWaits s loc (ar 0 true) = false ∧ findRes (getT s 0) 1 = none ∧
     (findRes (getT (bw (ar 0 true) (rs .none)) 0) 1).isSome = true ∧ (arriveVal (barWord s loc) 1).2 = false ∧
     heldShare (cc s fun c => { c with cst := .saved }) loc = true ∧ lostShare { s with cctxs := [] } loc = true ∧
     arrivalWaits { s with arrivals := s.arrivals ++ [(2, { ar 0 true with key := 4 })], ends := [.barrierArrival loc 1 2] }
       loc (ar 0 true) = true) ∧
    (getCC w 1 1).isNone = true ∧ ((getCC w 1 0).any fun c => c.cst == .resident) = true ∧
    ((getCC (cc w fun c => { c with cst := .saving }) 1 0).any fun c => c.cst != .resident) = true := by decide +kernel

/-- A queue of four packets, full, whose indices wrap. -/
def qb : State := setQblk ho 8191 { en := true, log2 := 2, head := 0xFFFFFFFF, tail := 0xFFFFFFFF }

theorem witness_Doorbells :
    (((List.range 4).map fun p => mgetD qb.hpaths p []).all (· == []) = true ∧ hostOpen qb = true ∧ (qblkAt qb 8191).en = true ∧ (qblkAt qb 8191).td = 0 ∧
      (qblkAt qb 8191).err = false ∧ ((BitVec.ofNat 32 3 : W32) - (qblkAt qb 8191).tail).toNat = 4 ∧
      ((BitVec.ofNat 32 3 : W32) - (qblkAt qb 8191).head).toNat = 2 ^ (qblkAt qb 8191).log2 ∧
      2 ^ (qblkAt qb 8191).log2 < ((BitVec.ofNat 32 4 : W32) - (qblkAt qb 8191).head).toNat) ∧
    (let ls := fun (s : State) => (List.range 4).map fun p => mgetD s.hpaths p []
     let heads := fun (s : State) => (ls s).all fun l => l.head? == some (.bell 0 1)
     let stands := fun (s : State) => (ls s).all fun l => l.contains (.bell 0 1)
     let bells := (List.range 4).map fun p => (p, [HostReq.bell 0 1])
     let s1 := { ho with hpaths := bells }
     let s2 := { ho with hpaths := mset bells 3 [.reg 0 8, .bell 0 1] }
     (ls s1).all (· == []) = false ∧ heads s1 = true ∧ (ls s2).all (· == []) = false ∧ heads s2 = false ∧ stands s2 = true ∧
       (ls (hq 0 (.reg 0 8))).all (· == []) = false ∧ heads (hq 0 (.reg 0 8)) = false ∧ stands (hq 0 (.reg 0 8)) = false) := by
  decide +kernel

/-- A job of context 1's thread; a copy of one row of n bytes within the share of context 1 on core 0. -/
def jo (k : JobKind) : Job :=
  { id := 1, ctx := 1, lcore := 0, phys := 0, tk := 0, gen := 1, pc := 0x10000, seed := 1, sync := none, view := {}, kind := k }
def cj (n : Nat) : JobKind := .copy 0x00FFFFFFFFFC8000 0x00FFFFFFFFFC0000 1 n 0 0 none
def qj (q : Nat) (k : JobKind) (r : Bool) : State := setQueue w q { ents := [.job (jo k)], running := r }

/-- What performing a job ends in. -/
def ends (s : State) (k : JobKind) : Nat := match performJob s 1 (jo k) {} with
  | .done _ _ _ none => 0
  | .done _ _ _ (some _) => 1
  | .stall _ _ _ _ => 2

theorem witness_JobEvents_starts :
    (let c (gm : Word) := JobKind.coll 0 0x00FFFFFFFFFC8000 0x00FFFFFFFFFC0000 0x0000000200000040 gm none
     startsAlone (jo (c 1)) = true ∧ settleOwed (qj qclKey (c 3) false) (jo (c 3)) = some (qj qclKey (c 3) false, jo (c 3)) ∧
     headWaits (qj qclKey (c 3) false) (queueAt (qj qclKey (c 3) false) qclKey) = true ∧ startsAlone (jo (c 3)) = false ∧
     (queueAt (qj qclKey (c 3) false) qclKey).ents = .job (jo (c 3)) :: []) ∧
    (headWaits (qj 1 (cj 64) false) (queueAt (qj 1 (cj 64) false) 1) = true ∧
      copySectors 0x00FFFFFFFFFC8000 1 64 0 ≠ 0 ∧ copySectors 0x00FFFFFFFFFC8000 1 0 0 = 0) ∧
    (let k := JobKind.mma 0 0 15 true false false true false false none
     let o : Job := { jo k with owes := [7] }
     let o1 : Job := { jo k with owes := [1] }
     headWaits (qj 0 k false) (queueAt (qj 0 k false) 0) = true ∧ startsAlone (jo k) = true ∧ (jo k).owes = [] ∧
     (settleOwed (setQueue fs 0 { ents := [.job o1] }) o1).isNone = true ∧ (settleOwed (setQueue sb 0 { ents := [.job o] }) o).isSome = true ∧
     headWaits fs { ents := [.job o1] } = true ∧ startsAlone o1 = true) ∧
    headWaits w (queueAt w 0) = false := by decide +kernel

theorem witness_JobEvents_runs :
    runningJob (qj 1 (cj 64) true) 1 = some (jo (cj 64)) ∧ (jo (cj 64)).id = 1 ∧ (1 : Nat) ≠ 2 ∧ runningJob w 1 = none ∧
    ends (qj 1 (cj 64) true) (cj 64) = 0 ∧
    (let k := JobKind.copy 0x00FFFFFFFFFC8000 0x30000 1 64 0 0 none
     let s := { qj 1 k true with mem := pg.mem }
     runningJob s 1 = some (jo k) ∧ ends s k = 2) ∧
    (let s := { qj 1 (cj 64) true with poison := [sramLoc (ccKey 1 0) 0 / 32] }
     runningJob s 1 = some (jo (cj 64)) ∧ ends s (cj 64) = 1) ∧
    ((slotAt w 0).gen.toNat = 1 ∧ (getT w 0).ctx = 1 ∧ (slotAt w 0).occ = .used ∧ (slotAt w 0).gen.toNat ≠ 255) ∧
    (let s := setTile w 15 { shape := 0x20110000, st := .filling, load := 5 }
     (tileAt s 15).st = .filling ∧ (tileAt s 15).load = 5 ∧ (tileAt w 15).st ≠ .filling ∧ (tileAt s 15).load ≠ 4) := by
  decide +kernel

/-- A tile store of one row, due at clock d. -/
def ts (d : Nat) : TileOp :=
  { ctx := 1, tk := 0, rid := 1, tile := 15, rows := [(d, [(0x20000, 5)])], fin := 0, view := {}, covers := [0x20000], rowb := 1 }

theorem witness_TileStores : mget w.tileOps 2 = none ∧
    (let s := fun d => { w with tileOps := [(2, ts d)] }
     mget (s 0).tileOps 2 = some (ts 0) ∧ (ts 0).rows.filter (fun r => decide ((s 0).clock < r.1)) = [] ∧ (ts 0).fin ≤ (s 0).clock ∧
     mget (s 1).tileOps 2 = some (ts 1) ∧ (ts 1).rows.filter (fun r => decide ((s 1).clock < r.1)) ≠ []) := by decide +kernel

/-- A lease request of context 1's thread for track 3. -/
def lq (held : Bool) : LeaseReq := { ctx := 1, gang := [3], slot := 0, held := held }

/-- Track 3 as given. -/
def t3 (t : Track) : State := { setTrack w 3 t with clock := 1 }

theorem witness_TrackEvents :
    (trackAt w 3).wait = [] ∧
    ((trackAt (t3 { wait := [lq true] }) 3).wait = lq true :: [] ∧ grantable (t3 { wait := [lq true] }) (lq true) = true ∧
      (lq true).held = true ∧ (lq false).held = false) ∧
    (let s := { t3 { wait := [lq true] } with retires := [{ cls := clsTrack, res := 3, cause := 2, old := 0 }] }
     grantable s (lq true) = false ∧ (lq true).gang.any (trackRetiring s) = true) ∧
    (let s := t3 { owner := some 2, wait := [lq true] }
     grantable s (lq true) = false ∧ (lq true).gang.any (trackRetiring s) = false) ∧
    (let m : Move := { frm := 5, start := 0, dest := 5 }
     let s := fun c => { t3 { move := some m } with clock := c }
     (trackAt (s (moveEnd m)) 3).move = some m ∧ moveEnd m ≤ (s (moveEnd m)).clock ∧ (s (moveEnd m - 1)).clock < moveEnd m ∧
     (trackAt w 3).move = none) ∧
    (let t (sl : Int) (bad : Bool) : Track := { settled := 1, slip := sl, slipBad := bad }
     (trackAt (t3 (t 0 false)) 3).move = none ∧ (trackAt (t3 (t 0 false)) 3).lost = false ∧ (t 1 false).misfix = false ∧
     verdict { t 1 false with misfix := true } = .corrected 0 ∧ ({ t 1 false with misfix := true } : Track).misfix = true ∧
     (trackAt (t3 (t 0 false)) 3).settled = (t3 {}).clock ∧ verdict (t 0 false) = .fine ∧ verdict (t 1 false) = .corrected 0 ∧
     verdict (t 3 false) = .corrected 4 ∧ verdict (t 2 false) = .lost ∧ verdict (t 0 true) = .lost ∧ (trackAt w 3).settled ≠ (t3 {}).clock) := by
  decide +kernel

theorem witness_TrackAccesses :
    (let a := ac [3] (.rds 1 4 false)
     let s := fun h => t3 { owner := some 1, acc := [a], head := h }
     (trackAt (s 0) 3).acc = a :: [] ∧ accFirst (s 0) a = true ∧ needsHead a = true ∧ needsHead (ac [3] .hrel) = false ∧
     ((a.gang.any fun k => unsettled (trackAt (s 0) k) || (trackAt (s 0) k).head != accHead (s 0) a) ||
       decide ((s 0).clock < accDue (s 0) a)) = false ∧
     (a.gang.any fun k => (trackAt (s 9) k).head != accHead (s 9) a) = true) ∧
    (let a := ac [3, 4] (.seek 5 none)
     let s := setTrack (t3 { owner := some 1, acc := [a] }) 4 { acc := [ac [4] .hrel, a] }
     (trackAt s 3).acc = a :: [] ∧ accFirst s a = false) ∧ (trackAt w 3).acc = [] := by decide +kernel

/-- A chain of context 1 with its parts given; a replica. -/
def rp (st : Nat) (tk : Option Nat) (fr : Option Thread) (p : Parked) (quit : Bool) : Replica := ⟨st, 0, tk, fr, p, false, quit⟩
def ce (f : Chain → Chain) : State :=
  let ch : Chain := { id := 1, folded := false, auto := false, depth := 2, vec := false, qoff := 0, cmpl := 0,
                      reps := [rp 0 (some 0) none .run false, rp 1 none (some (curT w)) .atGet false], counts := [1, 1], queues := [{}],
                      homes := [0, 0] }
  cx w fun x => { x with chains := [f ch] }

/-- Context 1's chain satisfies a test. -/
def ch? (s : State) (p : Chain → Bool) : Bool := (chainOf s 1 1).any p

theorem witness_ChainEvents_items : chainOf w 1 1 = none ∧
    ch? (ce id) (fun ch => ((repOf ch 1 0).bind (·.tk)).isNone && !ch.folded) = true ∧
    (let q : CQueue := { flying := [(0, [⟨5, {}, 0⟩])] }
     let s := th (ce fun ch => { ch with queues := [q], reps := [rp 1 (some 0) none .atGet false] })
       fun t => { t with res := [{ res1 with wait := .get {} (.g 1) 1 }] }
     let d := landDue s.clock (mgetD q.items 0 []) (mgetD q.flying 0 [])
     let s1 := fun ch => setChain s 1 (setChQueue ch 0 { q with flying := mset q.flying 0 d.2, items := mset q.items 0 d.1 })
     ch? s (fun ch => (repOf ch 1 0).bind (·.tk) == some 0 && ((getT (latch (s1 ch) 0 evCHQ) 0).res.find? isGetWait).isSome &&
       ((chainOf (latch (s1 ch) 0 evCHQ) 1 1).map fun ch' => getReady (latch (s1 ch) 0 evCHQ) 1 ch' 1 0) == some true) = true) ∧
    ((⟨5, {}, 3⟩ : Item).due ≤ 3 ∧ (2 : Nat) < (⟨5, {}, 3⟩ : Item).due) := by decide +kernel

theorem witness_ChainEvents :
    (let s := th (ce fun ch => { ch with reps := [rp 0 (some 0) none .atPut false] }) fun t => { t with block := .inChain }
     ch? s (fun ch => ((ch.reps.find? fun r => r.tk == some 0).any fun r => r.at_ == .atPut && (chQueue ch r.stage).p == r.rep)) = true ∧
       (getT s 0).block = .inChain ∧ ch? (ce id) (fun ch => ((ch.reps.find? fun r => r.tk == some 0).any fun r => r.at_ != .atPut)) = true) ∧
    (let s := ce fun ch => { ch with foldP := true, reps := [rp 1 none none .atGet true] }
     ch? s (foldReady s) = true ∧ requestLeft (requestsNow s []) [] = false ∧ (chainOf (requestsNow s []) 1 1).isSome = true) ∧
    (let s0 := ce fun ch => { ch with foldP := true, reps := [rp 1 (some 0) none .atGet false] }
     let q (k : Nat) (x : Wait) (p : Option Nat) : Res := { res1 with id := k, dst := [], vals := [], wait := x, sentTo := p }
     let s := cc (th s0 fun t => { t with res := [q 1 (.request (.mapv false)) (some 0), q 2 (.get {} (.g 1) 1) none] })
       fun c => { c with cst := .saving }
     ch? s (foldReady s) = true ∧ requestLeft (requestsNow s [0]) [0] = true) ∧
    ch? (ce id) (fun ch => !foldReady (ce id) ch) = true ∧
    (let f (b : Bool) := ce fun ch => { ch with folded := true, spreadP := true, reps := [rp 0 (some 0) none .run b] }
     let s := th (f true) fun t => { t with block := .inChain }
     ch? s (fun ch => ch.folded && ch.spreadP && ch.reps.findSome? (·.tk) == some 0 && decide ((getT s 0).res = []) &&
       decide ((waitingFrames ch).length ≤ freeSlots s 1) && (doSpread s 1 ch 0).isSome) = true ∧ (getT s 0).block = .inChain ∧
     ch? (f true) (fun ch => ch.folded && ch.spreadP && ch.reps.findSome? (·.tk) == some 0) = true ∧ (getT (f true) 0).block ≠ .inChain) ∧
    (let s (c : Nat) := { ce fun ch => { ch with folded := true, auto := true, freeFrom := some 0, reps := [] } with clock := c }
     ch? (s 65535) (fun ch => ch.auto && ch.folded && !ch.foldR && ch.freeFrom.getD 65535 == 0 &&
       decide ((ch.reps.filter fun r => !r.quit).length ≤ freeSlots (s 65535) 1)) = true ∧ (65534 : Nat) < 0 + 65535) ∧
    ch? (ce fun ch => { ch with folded := true, auto := true }) (fun ch => ch.auto && ch.folded && !ch.foldR &&
       !decide ((ch.reps.filter fun r => !r.quit).length ≤ freeSlots w 1)) = true ∧
    ch? (ce id) (fun ch => !ch.auto && !ch.reps.all (·.quit)) = true ∧
    ch? (ce fun ch => { ch with reps := [rp 0 none none .run true] }) (fun ch => ch.reps.all (·.quit) && ch.cmpl == 0) = true := by decide +kernel

/-- The completion word of a chain lies in a page that context 1's table maps; or in one that it does not. -/
def cw (a : Word) : State :=
  let s := cx pg fun x => { x with chains := [{ id := 1, folded := false, auto := false, depth := 2, vec := false, qoff := 0, cmpl := a,
                                                reps := [rp 0 none none .run true], counts := [1, 1], queues := [{}], homes := [0, 0] }] }
  { s with threads := [], slots := [] }

theorem witness_ChainEvents_ends :
    (let s := cw 0x1FFF8
     ch? s (fun ch => ch.reps.all (·.quit) && ch.cmpl != 0 && (postChain (drainPending s 1) 1 ch.cmpl 0x01 (ch.view.join (ctxD (drainPending s 1) 1).all)).2) = true) ∧
    (let s := { cw 0x1FFF8 with clusters := [], mem := Memory.writes pg.mem ((locsFrom 0x20000 8).zip (bytesLE 8 0)) }
     ch? s (fun ch => ch.reps.all (·.quit) && ch.cmpl != 0 && !(postChain (drainPending s 1) 1 ch.cmpl 0x01 (ch.view.join (ctxD (drainPending s 1) 1).all)).2) = true) := by decide +kernel

/-- A route to port 3 of core 0, with one word on its way. -/
def rr (arr : Bool) : Route := { id := 9, ctx := 1, lcore := 0, vec := false, arrived := arr, flying := [(5, true)] }

theorem witness_StreamEvents :
    (let s := modPort w 0 3 fun p => { p with coming := [rr false] }
     findRoute s 0 9 = some (0, 3, rr false) ∧ (rr false).flying = (5, true) :: [] ∧
       portFree { portAt s 0 3 with coming := (portAt s 0 3).coming.filter fun x => x.id != 9 } = true) ∧
    (let s := modPort w 0 3 fun p => { p with held := some { rr true with id := 8 }, coming := [rr false] }
     findRoute s 0 9 = some (0, 3, rr false) ∧
       portFree { portAt s 0 3 with coming := (portAt s 0 3).coming.filter fun x => x.id != 9 } = false) ∧
    (let s := modPort w 0 3 fun p => { p with held := some (rr true) }
     findRoute s 0 9 = some (0, 3, rr true) ∧ (rr true).arrived = true ∧ (portAt s 0 3).held.any (fun x => x.id == 9) = true) ∧
    (let s := modPort w 0 3 fun p => { p with waits := [rr true] }
     findRoute s 0 9 = some (0, 3, rr true) ∧ (portAt s 0 3).held.any (fun x => x.id == 9) = false ∧
       (portAt s 0 3).waits = rr true :: [] ∧ (portAt s 0 3).held = none ∧ (portAt s 0 3).chain = false) ∧
    (portAt w 0 3).waits = [] := by decide +kernel

/-! ### Launches, kills and the map -/

/-- Context 1's table also maps a contiguous range from 1 MiB on. -/
def pr : State :=
  let cells := (locsFrom 0x100 1).zip (bytesLE 1 2) ++ (locsFrom 0x120 16).zip (bytesLE 16 0xE00000000010000000001F0000000010)
  { pg with mem := Memory.writes pg.mem cells, booted := true }

/-- Queue 0 holds one packet, of the fields given; its template, at 0x400, has context 1's table. -/
def pq (priv : Bool) (l : List (Nat × Nat)) : State :=
  let s := setQblk pr 0 { en := true, priv := priv, tail := 1, qtmpl := 0x400 }
  let cells := ((0x400, (ctxD pr 1).troot.toNat) :: l).flatMap fun f => (locsFrom (hostLoc f.1) 8).zip (bytesLE 8 f.2)
  { s with mem := Memory.writes s.mem cells }

/-- A packet that can be accepted: PLACE at 0x30; its first dependence at 0x50. -/
def pk (cmpl dep : Nat) : State := pq false [(0x28, cmpl), (0x30, 0x10000000000), (0x50, dep)]

/-- The verdict on queue 0's head packet, if no other queue's comes before it. -/
def vd (s : State) : Option PktVerdict :=
  let s1 := payOwed s 0
  if hostOpen s && pendingIn (qblkAt s1 0) && !outbid s1 0 (qblkAt s1 0) then some (pktVerdict s1 (qblkAt s1 0)) else none

theorem witness_LaunchEvents_packets : hostOpen w = false ∧
    pendingIn (qblkAt (payOwed (pk 0 0) 1) 1) = false ∧
    (let s := payOwed (setQblk (pk 0 0) 1 (qblkAt (pk 0 0) 0)) 1
     hostOpen s = true ∧ pendingIn (qblkAt s 1) = true ∧ outbid s 1 (qblkAt s 1) = true) ∧
    vd (pk 0 0x100000) = some .waits ∧ vd (pk 0 0) = some .accept ∧ vd (pq true []) = some (.task true) ∧
    vd (pq true [(0x30, 1)]) = some (.task false) ∧
    vd (pk 0x1FFF8 1) = some (.status 0x80) := by decide +kernel

/-- Context 2 waits to start on a core. -/
def la (place res ctl : Nat) : State :=
  { w with ctxs := mset w.ctxs 2 { run := .waiting, age := 5, pkt := { place := BitVec.ofNat 64 place, res := BitVec.ofNat 64 res, ctl := BitVec.ofNat 64 ctl } } }
def la? (s : State) (p : Ctx → Bool) : Bool := (getCtx s 2).any fun x => x.run == .waiting && p x

/-- Context 1's core context is of a lower priority, with no tiles, and a launch needs its whole share; the same, with a
save of context 1 under way for context 2. -/
def pe : State := cx (la 0x10000000000 0xF00000 0) fun x => { x with pkt := { x.pkt with res := 0x30400000, ctl := 0x30000 } }
def pe2 : State := cc pe fun c => { c with cst := .saving, claim := 2 }
def claimed (s : State) : Bool := (membersOn s 0).any fun m =>
  m.2.2.claim == 2 && (m.2.2.cst != .resident || moveComing s m.1 m.2.1) && m.2.2.cst != .saved

theorem witness_LaunchEvents_starts :
    ((getCtx w 1).any fun x => x.run != .waiting) = true ∧
    la? (setGang (setQblk (la 0x10000000000 0 0) 0 { gang := 255 }) 255 { period := 1 })
      (fun x => !gangMay (setGang (setQblk (la 0x10000000000 0 0) 0 { gang := 255 }) 255 { period := 1 }) x) = true ∧
    la? (la 0x10000000000 0 0x100000) (fun x => gangMay w x && chosenCores (la 0x10000000000 0 0x100000) 2 x.pkt == some [0] &&
      launchVoid (la 0x10000000000 0 0x100000) x.pkt [0]) = true ∧
    la? (la 0x10000000000 0 0) (fun x => gangMay w x && chosenCores (la 0x10000000000 0 0) 2 x.pkt == some [0] &&
      !launchVoid (la 0x10000000000 0 0) x.pkt [0] && launchFits (la 0x10000000000 0 0) 2 x.pkt [0]) = true ∧
    la? (la 0x17000000000 0 0) (fun x => gangMay w x && chosenCores (la 0x17000000000 0 0) 2 x.pkt == some [0] &&
      !launchVoid (la 0x17000000000 0 0) x.pkt [0] && !launchFits (la 0x17000000000 0 0) 2 x.pkt [0]) = true ∧
    la? (la 0x10000000000 0 0) (fun x => coreServes (la 0x10000000000 0 0) 2 x.pkt 0) = true ∧
    la? (la 0x17000000000 0 0) (fun x => (victimOn (la 0x17000000000 0 0) 0 (pktPrio x.pkt)).isNone) = true ∧
    claimed pe2 = true ∧ la? pe (fun x => !coreServes pe 2 x.pkt 0 && !claimed pe && (victimOn pe 0 (pktPrio x.pkt)).isSome) = true := by
  decide +kernel

/-- No thread of context 1 is left; its completion word lies in a page that its table maps, or in one that it does not. -/
def lc (a : Nat) : State :=
  { cx pg (fun x => { x with pkt := { x.pkt with cmpl := BitVec.ofNat 64 a } }) with threads := [], slots := [] }

theorem witness_LaunchEvents_ends : la? (la 0 0 0) (fun _ => true) = true ∧ lastGone w 1 = false ∧
    ((getCtx (cx w fun x => { x with run := .dying }) 1).any fun x => x.run == .dying) = true ∧
    ((getCtx (lc 0) 1).any fun x => x.run != .waiting && x.run != .dying) = true ∧
    (lastGone (setTrack (lc 0) 3 { acc := [ac [3] (.rds 1 4 false)] }) 1 = true ∧
      workLeft (setTrack (lc 0) 3 { acc := [ac [3] (.rds 1 4 false)] }) 1 = true) ∧
    (lastGone (lc 0x1FFF8) 1 = true ∧ workLeft (lc 0x1FFF8) 1 = false ∧
      (postCompletion (drainPending (lc 0x1FFF8) 1) 1 0x01 (ctxD (drainPending (lc 0x1FFF8) 1) 1).all).2 = true) ∧
    (lastGone (lc 0x30000) 1 = true ∧ workLeft (lc 0x30000) 1 = false ∧
      (postCompletion (drainPending (lc 0x30000) 1) 1 0x01 (ctxD (drainPending (lc 0x30000) 1) 1).all).2 = false) ∧
    (hostOpen w = false ∧ hostOpen ho = true ∧ (qblkAt ho 8191).td = 0 ∧ (qblkAt (setQblk ho 8191 { td := 1 }) 8191).td = 1 ∧
      (qblkAt (setQblk ho 8191 { td := 2 }) 8191).td = 2) := by decide +kernel

/-- A gang of packages 0 and 1 with a period of 100, in some clock; context 2 waits for it. -/
def ga (c : Nat) (r : List Nat) (place : Nat) : State :=
  { setGang (setQblk (la place 0 0) 0 { gang := 255 }) 255 { period := 100, grace := 50, members := [0, 1], reports := r } with clock := c }
def lack (s : State) : List (Nat × Ctx) := (gangWaiting s 255).filter fun e => match chosenCores s e.1 e.2.pkt with
  | some cores => !launchFits s e.1 e.2.pkt cores
  | none => true

theorem witness_LaunchEvents_gangs : (gangAt w 1).period = 0 ∧ (gangAt (setGang w 1 { late := true }) 1).late = true ∧
    ((gangAt (ga 0 [0] 0) 255).period ≠ 0 ∧ nextBoundary (gangAt (ga 0 [0] 0) 255) (timerNow (ga 0 [0] 0)).toNat = (timerNow (ga 0 [0] 0)).toNat ∧
      (gangAt (ga 0 [0] 0) 255).late = false ∧ (gangAt (ga 0 [0] 0) 255).reports.contains 0 = true) ∧
    nextBoundary (gangAt (ga 1 [0] 0) 255) (timerNow (ga 1 [0] 0)).toNat ≠ (timerNow (ga 1 [0] 0)).toNat ∧
    ((gangAt (ga 0 [0] 0) 255).reports.contains 1 = false ∧ 1 ≠ (ga 0 [0] 0).pkg) ∧
    ((gangAt (ga 0 [] 0) 255).reports.contains 0 = false ∧ 0 = (ga 0 [] 0).pkg) ∧
    (let early := fun (v : Word) => (some v).any fun v => decide ((timerNow (ga 49 [0] 0)).toNat < v.toNat)
     early 50 = true ∧ early 49 = false) ∧
    lack (ga 0 [] 0x10000000000) = [] ∧ lack (ga 0 [] 0x17000000000) ≠ [] ∧
    (timerNow (ga 49 [0] 0)).toNat < (gangAt (ga 49 [0] 0) 255).bound.toNat + (gangAt (ga 49 [0] 0) 255).grace.toNat ∧
    ((gangAt (ga 50 [0] 0) 255).bound.toNat + (gangAt (ga 50 [0] 0) 255).grace.toNat ≤ (timerNow (ga 50 [0] 0)).toNat ∧
      (gangMembers (ga 50 [0] 0) (gangAt (ga 50 [0] 0) 255)).find? (fun m => !(gangAt (ga 50 [0] 0) 255).reports.contains m) = some 1) ∧
    (gangMembers (ga 50 [1, 0] 0) (gangAt (ga 50 [1, 0] 0) 255)).find? (fun m => !(gangAt (ga 50 [1, 0] 0) 255).reports.contains m) = none := by
  decide +kernel

/-- A kill of context 1 is in progress. -/
def ko : KillOp := { ctx := 1, status := 0x80, router := 0, waiters := [], start := 0 }
def dy (a : Nat) : State := { cx (lc a) (fun x => { x with run := .dying }) with kills := [ko] }

theorem witness_LaunchEvents : dying w 1 = false ∧ dying (dy 0) 1 = true ∧ (dy 0).kills.find? (fun k => k.ctx == 1) = some ko ∧
    (killStatus (dy 0x1FFF8) 1 ko.status).2 = true ∧ (killStatus (dy 0x30000) 1 ko.status).2 = false := by decide +kernel

/-- A retirement of a resource is under way. -/
def ret (cl res : Nat) : RetireOp := { cls := cl, res := res, cause := 2, old := 0 }
def rq1 (cl res : Nat) : State := { ho with retires := [ret cl res] }

/-- The host function is open, with a Strelmin port and a CXL port fitted and live. -/
def hm : State := { ho with cmap := { ho.cmap with units := [(unitKey clsStrelmin 15, 0), (unitKey clsCxl 2, 0), (unitKey clsLink 0, 6)] } }

/-- Context 1 has passed its grace, or not; it is told, suspended, and its completion word is mapped. -/
def gx (told : Bool) (run : CtxRun) (a : Nat) (clock : Nat) : State :=
  { cx pg (fun x => { x with graceAt := some 0, limit := 7, told := told, run := run, pkt := { x.pkt with cmpl := BitVec.ofNat 64 a } }) with
    clock := clock }

theorem witness_MapAndManagementEvents_map :
    ((rq1 clsCore 0).retires.find? (fun r => r.cls == clsCore && r.res == 0) = some (ret clsCore 0) ∧ retireDone (rq1 clsCore 0) clsCore 0 = false) ∧
    (retireDone (rq1 clsCore 2047) clsCore 2047 = true ∧ clsCore ≠ 5) ∧
    ((rq1 5 255).retires.find? (fun r => r.cls == 5 && r.res == 255) = some (ret 5 255) ∧ retireDone (rq1 5 255) 5 255 = true) ∧
    (let p (l : List Due) : State := { ho with cmap := { ho.cmap with pending := l }, agenda := [(0, .mapPublish 3 clsCore 0 2046 0 0)] }
     w.booted = false ∧ ho.booted = true ∧ othersTurn ho 3 clsCore 2047 = none ∧ othersTurn (p [⟨3, clsCore, 2047, 0⟩]) 3 clsCore 2047 = none ∧
      othersTurn (p [⟨3, clsCore, 2046, 0⟩]) 3 clsCore 2047 = some true ∧ othersTurn (p [⟨3, clsCore, 2045, 0⟩]) 3 clsCore 2047 = some false ∧
      ({ ho with kills := [{ ko with status := 0x82 }] } : State).kills.any (fun k => k.status == 0x82) = true ∧
      ho.kills.any (fun k => k.status == 0x82) = false ∧ (3 : Nat) ≠ 2 ∧ (3 : Nat) ≠ 1 ∧
      ho.retires.find? (fun r => r.cls == clsCore && r.res == 2047) = none) ∧
    (hm.booted = true ∧ unitState hm.cmap 10 2 < 2 ∧ 10 ≠ clsLink) ∧
    (((getCtx (gx false .running 0 8) 1).any fun x => x.run == .running && !x.told && x.graceAt == some 0 && x.limit == 7) = true ∧
      0 + 7 < (gx false .running 0 8).clock ∧ (gx false .running 0 7).clock ≤ 0 + 7) ∧
    (((getCtx (gx true .running 0x1FFF8 8) 1).any fun x => x.run == .running && x.told) = true ∧
      (postCompletion (gx true .running 0x1FFF8 8) 1 0x00 {}).2 = true) ∧
    (((getCtx (gx false .suspended 0x1FFF8 8) 1).any fun x => x.run == .suspended && !x.told) = true ∧
      ctxStill (gx false .suspended 0x1FFF8 8) 1 = true ∧ (postCompletion (gx false .suspended 0x1FFF8 8) 1 0x83 {}).2 = true) ∧
    ctxStill (th (gx false .suspended 0 8) fun t => { t with res := [{ res1 with wait := .none }] }) 1 = false ∧
    (edgeLink (1020 / 4) (1020 % 4) = true ∧ edgeLink (0 / 4) (0 % 4) = false ∧ hm.booted = true ∧ unitState hm.cmap clsLink 0 = 6) ∧
    (unitState hm.cmap clsStrelmin 15 = 0 ∧ mgetD hm.cmap.rate (unitKey clsStrelmin 15) 0 = 0) ∧
    (unitState ho.cmap clsStrelmin 15 = 3 ∧ unitState ho.cmap clsCxl 2 = 3) ∧
    (bitN (2 ^ 63) 63 = true ∧ bitN 1 63 = false ∧ bitN 1 0 = true) ∧
    (unitState ho.cmap clsStack 7 < 2 ∧ mgetD ho.cmap.stepN 7 0 ≠ 3 ∧ capOf ho.cmap 7 - 1 < capOf ho.cmap 7) := by
  decide +kernel

/-- Context 1 is to be saved, or has been; its save area starts at 1 MiB, in a contiguous range of its table. -/
def sv (st : CSt) (saved : Bool) : State :=
  cc (cx pr fun x => { x with saveBase := 0x100000 }) fun c =>
    { c with cst := st, saveAt := 0x100000, saved := if saved then some ⟨0, true, [], [], [], [], [], 0, [1]⟩ else none }
def cc? (s : State) (p : CoreCtx → Bool) : Bool := (getCC s 1 0).any p

theorem witness_LaunchEvents_saves : dying w 1 = false ∧
    (cc? w (fun c => c.cst == .resident) = true ∧ (ctxD w 1).saveBase = 0) ∧
    (cc? (sv .resident false) (fun c => c.cst == .resident) = true ∧ (ctxD (sv .resident false) 1).saveBase ≠ 0) ∧
    cc? (sv .saving true) (fun c => c.cst == .saving && c.saved.isSome) = true ∧
    cc? (sv .saving false) (fun c => c.cst == .saving && c.saved.isNone && quietCC (sv .saving false) 1 0 c) = true ∧
    cc? (out (sv .saving false)) (fun c => c.cst == .saving && c.saved.isNone && !quietCC (out (sv .saving false)) 1 0 c) = true ∧
    (cc? (sv .saved false) (fun c => c.cst == .saved) = true ∧ (tryResume (sv .saved false) 1 0 false).isNone = true) ∧
    (let s := cc (sv .saved true) fun c => { c with shSize := 0 }
     ((tryResume s 1 0 false).any fun s1 => cc? s1 fun c1 => c1.cst != .saved) = true ∧ cc? s (fun c => c.cst == .saved) = true) ∧
    (let s := cc (sv .saved true) fun c => { c with shSize := 0, saveAt := 0xFFFFFFFF00000 }
     ((tryResume s 1 0 false).any fun s1 => cc? s1 fun c1 => c1.cst == .saved) = true) ∧
    cc? lm (fun c => c.target.isNone && (groupOf lm (1, 0, c)).all (fun m => m.2.2.cst == .resident) &&
      (roomFor lm 1 (groupOf lm (1, 0, c))).isSome) = true ∧
    cc? w (fun c => c.target.isNone && (roomFor w 1 (groupOf w (1, 0, c))).isNone) = true ∧
    (let s := cc lm fun c => { c with target := some ⟨4095, 0, [], []⟩ }
     cc? s (fun c => c.target.any (·.phys == 4095) && groupQuiet s (groupOf s (1, 0, c))) = true ∧
       cc? (out s) (fun c => !groupQuiet (out s) (groupOf (out s) (1, 0, c))) = true) := by decide +kernel

/-- Every sensor reads the same value. -/
def sens (v : Nat) : Nat := (List.range 16).foldl (fun a _ => a * 65536 + v) 0

theorem witness_LaunchEvents_berms :
    (let v := 1 * 128 * 65536 + 1 * 128 + 127
     (slotAt w 0).occ = .used ∧ (getT w 0).ctx = v / 128 % 65536 ∧ (slotAt w 0).gen.toNat = v / (128 * 65536)) ∧
    (let kept (s : State) := (ccsOf s 1).find? fun e => e.2.saved.any fun y => y.core == 0 && y.gens.getD (slotOf 0) 256 == 1
     kept w = none ∧ ((kept (sv .saved true)).any fun e => findIdx? (· == slotOf 0) (slotsIn e.2.slots) == some 0) = true ∧
     decide ((slotAt w 0).occ = .used ∧ (getT w 0).ctx = 1 ∧ (slotAt w 0).gen.toNat = 2) = false) ∧
    (forwards w 5 1 0 = false ∧ 5 ≠ coreOf 0 ∧
      forwards (setCore w 5 { coreAt w 5 with berm := [{ ctx := 1, lcore := 0, dest := none, until_ := none }] }) 5 1 (slotAt w 0).lcore = true) := by decide +kernel

theorem witness_MapAndManagementEvents_reeve :
    (w.reeve.armed = true ∧ w.reeve.talert.toInt ≤ sensorMax (sens 0x5F0) ∧ sensorMax (sens 0x5EF) < w.reeve.talert.toInt) ∧
    (let s := { w with reeve := { w.reeve with alarm := some 1 } }
     s.reeve.alarm = some 1 ∧ (timerNow s).toNat < (1 : Word).toNat ∧ (1 : Word).toNat ≤ (timerNow { s with clock := 1 }).toNat) ∧
    (w.domain = [] ∧ ({ w with domain := [0, 1], pkg := 1 } : State).domain ≠ [] ∧
      (w.agenda.any fun e => match e.2 with
        | .timerSync _ => true
        | _ => false) = false ∧
      ((later w 9 (.timerSync 1)).agenda.any fun e => match e.2 with
        | .timerSync _ => true
        | _ => false) = true) ∧
    (ho.booted = true ∧ State.reset.booted = false ∧ State.reset.romHalted = false) := by decide +kernel

/-- Both banks' headers give a body that passes the bank. -/
def nb : State := { State.reset with reeve := { State.reset.reeve with flash := [(0x10017, 255), (0x410017, 255)] } }

/-- R397: a header whose body length passes the bank's makes it no valid bank, whatever the key is. -/
theorem witness_MapAndManagementEvents : bootBank nb = none := by
  have h : ∀ b, decide (bodyLen nb b ≤ 0x400000 - 512) = false := by decide +kernel
  simp [bootBank, bankValid, imageOk, h]

/-! ### Encoding, the step and memory -/

/-- An instruction with every part of its header set. -/
def en : Instr := .add { sw := true, ga := 31, gan := true, gb := 31, gbn := true, pace := 7 } true true 15 (.im (-256)) (.g 15)

theorem witness_DecodeEncode : en.isForm = true ∧ en.wf = true := by decide +kernel

theorem witness_EncodeDecode : decode 0x0E00E00E00E00E00#96 = some (.nop {}) := by decide +kernel

/-- No device step is due; what the turn of the thread comes to: the state in which its line is read. -/
def ag (s : State) : State := { s with agenda := [(1, .boot)] }
def turn (s : State) : State := takeTurn (ag s) 0

/-- The thread of a state is next, no event is due at its boundary, its pc can be a slot, and its line passes a test. -/
def line? (s : State) (p : List Byte → Bool) : Bool :=
  nextSlot (ag s) == some 0 && (boundary (turn s) 0).isNone && (curT (turn s)).held.isNone && slotOkPc (curT (turn s)).pc &&
    (match fetchLine (turn s) with
      | .line bs _ => p bs
      | .stop _ => false)
def clear (s : State) : State := putT (turn s) { curT (turn s) with entry := .none }

/-- Lines that hold no instruction, and whose reserved bits are set. -/
def il : State := State.reset.withFetchWord 96 0
def hb : State := { w with mem := Memory.write w.mem 0x1003C 1 }

theorem witness_StepRunsDecoded_turns :
    (let s := { w with agenda := [(0, .boot)] }
     s.agenda = (0, .boot) :: [] ∧ 0 ≤ s.clock) ∧
    (let s := { State.reset with agenda := [], romHalted := true }
     s.agenda = [] ∧ s.romHalted = true) ∧
    (let s := ag State.reset
     s.agenda = (1, .boot) :: [] ∧ s.clock < 1 ∧ nextSlot s = none ∧ s.ends = [] ∧
       ({ s with ends := [.boot] } : State).ends = .boot :: [] ∧ nextSlot { s with ends := [.boot] } = none) ∧
    (({ w with agenda := [] } : State).agenda = [] ∧ w.romHalted = false) ∧
    (nextSlot (ag (me true false w)) = some 0 ∧ boundary (turn (me true false w)) 0 = some (.mapevtTake 0)) ∧
    (let s := th w fun t => { t with held := some ⟨{}, []⟩ }
     nextSlot (ag s) = some 0 ∧ boundary (turn s) 0 = none ∧ (curT (turn s)).held = some ⟨{}, []⟩) ∧
    (let s := th w fun t => { t with pc := 0x10005 }
     nextSlot (ag s) = some 0 ∧ boundary (turn s) 0 = none ∧ (curT (turn s)).held = none ∧ slotOkPc (curT (turn s)).pc = false) := by
  decide +kernel

theorem witness_StepRunsDecoded :
    (let s := th w fun t => { t with pc := 0x20000 }
     (boundary (turn s) 0).isNone = true ∧ slotOkPc (curT (turn s)).pc = true ∧
     (match fetchLine (turn s) with
      | .line _ _ => false
      | .stop _ => true) = true) ∧
    (let s := th { w with mem := Memory.write w.mem 0x1003E 0 } fun t => { t with entry := .start }
     line? s (fun bs => !entryOk (curT (turn s)) (lineWord bs)) = true) ∧
    (let s := th w fun t => { t with entry := .start, ended := true }
     line? s (fun bs => entryOk (curT (turn s)) (lineWord bs) && checkDue (curT (turn s)) && (curT (turn s)).ended) = true) ∧
    (let s := th (me true false w) fun t => { t with entry := .start }
     line? s (fun bs => entryOk (curT (turn s)) (lineWord bs) && checkDue (curT (turn s)) && !(curT (turn s)).ended &&
       boundary (clear s) 0 == some (.mapevtTake 0)) = true) ∧
    line? w (fun bs => entryOk (curT (turn w)) (lineWord bs) && !checkDue (curT (turn w)) && nbits (lineWord bs) 14 0 == 0 &&
      decode (lineInstr bs (bitsOf (curT (turn w)).pc 2 0)) == some (.nop {})) = true ∧
    line? il (fun bs => entryOk (curT (turn il)) (lineWord bs) && !checkDue (curT (turn il)) && nbits (lineWord bs) 14 0 == 0 &&
      (decode (lineInstr bs (bitsOf (curT (turn il)).pc 2 0))).isNone) = true ∧
    line? hb (fun bs => entryOk (curT (turn hb)) (lineWord bs) && !checkDue (curT (turn hb)) && nbits (lineWord bs) 14 0 != 0) = true := by
  decide +kernel

theorem witness_ThreadStart : (65535 : Nat) < 65536 := by decide

theorem witness_MemoryReadsBack : Memory.wf [] = true ∧ Memory.wf [(3, 1)] = true ∧ MemOk w ∧
    ([(0x10000, 5), (0x10001, 6)].map (·.1) : List Nat).Nodup := by unfold MemOk; decide +kernel

/-! ### Words written out from the encoding tables, one of every form -/

/-- Words of the control instructions, slot by slot. -/
def words_control : List (IWord × Instr) :=
  [(0x0007FF805E00E00E00E00E00, .nop { sw := true, gan := true, ga := 31, gbn := true, gb := 30, pace := 5 }),
   (0x020000000E00E00E00FFFFFE, .br {} (-2)),
   (0x04000000000FE00E00E00E00, .bri {} 15),
   (0x060000000E00E00E00000003, .call {} 3),
   (0x08000000000FE00E00E00E00, .ret {} 15),
   (0x0A0000000003E00E00FFFFED, .loop {} 3 (-19)),
   (0x0C0000000E00E00E00E00E00, .quit {}),
   (0x0E000000000443FE00000008, .spawn {} 4 31 8),
   (0x100000000004E00E00E00E00, .migr {} 4),
   (0x120000000004DFFE00E00E00, .park {} 4 (.im (-1))),
   (0x140000000E00E00E00ABCDEF, .trap {} 0xABCDEF),
   (0x160000000E00E00E00E00E00, .tret {}),
   (0x180000000004E00E00000418, .sysr {} 4 0x418),
   (0x1A000000000DE00E00000403, .sysw {} 13 0x403)]

theorem test_decode_control : (words_control.all fun e => decode e.1 == some e.2) = true := by decide +kernel

/-- Words of the scalar instructions, slot by slot. -/
def words_scalar : List (IWord × Instr) :=
  [(0x1C2000020001002D00E00E00, .add {} true true 1 (.g 2) (.im (-256))),
   (0x1E2000000001002CFFE00E00, .sub {} true false 1 (.g 2) (.im 255)),
   (0x201000000001002003E00E00, .mul {} .hiu false 1 (.g 2) (.g 3)),
   (0x221800000001002003E00E00, .div {} .ru 1 (.g 2) (.g 3)),
   (0x240000000001002003E00E00, .and {} 1 (.g 2) (.g 3)),
   (0x260000000001002003E00E00, .or {} 1 (.g 2) (.g 3)),
   (0x280000000001002003E00E00, .xor {} 1 (.g 2) (.g 3)),
   (0x2A2000020001002003E00E00, .shl {} true true 1 (.g 2) (.g 3)),
   (0x2C0800000001002003E00E00, .shr {} true 1 (.g 2) (.g 3)),
   (0x2E2000000001002003E00E00, .min {} true 1 (.g 2) (.g 3)),
   (0x302000000001002003E00E00, .max {} true 1 (.g 2) (.g 3)),
   (0x32680000043F002003E00E00, .cmp {} ⟨.ge, true⟩ 31 (.g 2) (.g 3)),
   (0x340000000001422003004E00, .sel {} 1 2 (.g 3) (.g 4)),
   (0x360000000001C07E00E00E00, .mov {} 1 (.im 7)),
   (0x381000000001800000000001, .movi {} .hi 1 0x800000000001),
   (0x3A3000000001002003FFFFF8, .lea {} 3 1 2 (some 3) (-8)),
   (0x3C0800000001002C03C04E00, .bfx {} true 1 (.g 2) (.im 3) (.im 4)),
   (0x3E0000000001002C03C04E00, .bfi {} 1 (.g 2) (.im 3) (.im 4)),
   (0x401800000001002E00E00E00, .bitc {} .brev 1 (.g 2))]

theorem test_decode_scalar : (words_scalar.all fun e => decode e.1 == some e.2) = true := by decide +kernel

/-- Words of the memory instructions, slot by slot. -/
def words_memory : List (IWord × Instr) :=
  [(0x437800018001002003FFFFF8, .ld {} 2 true 3 true .bypass 1 2 (some 3) (-8)),
   (0x459800008C09002E00000008, .st {} 3 1 true .stream (.im 9) 2 none 8),
   (0x47D800000001002003C04E00, .atom {} .cas false true 1 2 (.g 3) (some (.im 4))),
   (0x480800000001C20003E00E00, .bind {} true 1 (.im 32) 3),
   (0x4A2000000001002003000008, .acq {} 2 1 2 (some 3) 8),
   (0x4C7000000C01002E00000008, .rel {} true 3 (.im 1) 2 none 8),
   (0x4E2800000E00E00E00E00E00, .fence {} .domain),
   (0x500000000E00E00E00E00E00, .idem {}),
   (0x521000000E00002003000008, .mon {} 1 2 (some 3) 8),
   (0x540000000425002C03E00E00, .mwait {} 5 2 (.im 3)),
   (0x561000000425002C03E00E00, .bar {} .col 5 (.g 2) (.im 3)),
   (0x58000000000800DE00E00E00, .bara {} 8 (.g 13)),
   (0x5A0000000008C01E00E00E00, .bwait {} 8 (.im 1)),
   (0x5A0800000425008C01002E00, .bwaitT {} 5 8 (.im 1) (.g 2)),
   (0x5C0000000C3FE00E00E00E00, .qfence {} (.im 63))]

theorem test_decode_memory : (words_memory.all fun e => decode e.1 == some e.2) = true := by decide +kernel

/-- Words of the vector instructions, slot by slot. -/
def words_vector : List (IWord × Instr) :=
  [(0x5F8000000001E00E00E00E00, .vwidth {} 3 1),
   (0x615800000407425002003E00, .whileP {} 2 ⟨.le, true⟩ 7 5 (.g 2) (.g 3)),
   (0x6380003E021F201202407E00, .vadd {} .f32 false { fzi := true, fzo := true, rm := .rsr } true 31 1 (.v 2) 7),
   (0x64480000021F201002407E00, .vsub {} .i16 true {} false 31 1 (.g 2) 7),
   (0x66980000021F201C02407E00, .vmul {} .i32 true true {} false 31 1 (.im 2) 7),
   (0x69580000021F201202203407, .vfma {} .bf16 true true {} false 31 1 (.v 2) (.v 3) 7),
   (0x6A080000021F201202407E00, .vmin {} .i8 true {} 31 1 (.v 2) 7),
   (0x6D000020021F201202407E00, .vmax {} .f16 false { fzi := true } 31 1 (.v 2) 7),
   (0x6E900000021F201407E00E00, .vun {} .i32 .not {} 31 1 7),
   (0x71A800020406201202407E00, .vcmp {} .f32 ⟨.ge, true⟩ {} 6 1 (.v 2) 7),
   (0x72000000021F407201202E00, .vsel {} .i8 31 7 1 (.v 2)),
   (0x74580000021F201202407E00, .vlog {} .i16 .andn 31 1 (.v 2) 7),
   (0x76980000021F201202407E00, .vshf {} .i32 false .rot false 31 1 (.v 2) 7),
   (0x78300002021F201C03407E00, .vcvt {} .i8 .f32 {} true 31 1 3 7),
   (0x7BE80000021F201C03C20E00, .vqnt {} .int8 .bf16 {} false 31 1 3 (.im 32)),
   (0x7D000000021F201C03C20407, .vdqn {} .f16 {} 31 1 3 (.im 32) 7),
   (0x7FA00000021F201407E00E00, .vsfu {} .f32 .tanh {} 31 1 7),
   (0x81000000021F201202407E00, .vdiv {} .f16 {} 31 1 (.v 2) 7),
   (0x81880000021F201407E00E00, .vdivSqrt {} .f32 {} 31 1 7),
   (0x82A800000003201407E00E00, .vred {} .i32 .max true {} (.g 3) 1 7),
   (0x84000000021F201202407E00, .vperm {} .i8 31 1 2 7),
   (0x84100000021F201002407E00, .vpermRot {} .i8 true 31 1 (.g 2) 7),
   (0x86400000021F012407E00E00, .vsplat {} .i16 31 .lwf 7),
   (0x888000000011201C02E00E00, .vmovsX {} .i32 .le 1 (.im 2)),
   (0x89880000021F010002E00E00, .vmovsI {} .f32 31 .lw (.g 2)),
   (0x8B080001021F002407FFFFFC, .vld {} 2 true .keep 31 2 7 (-4)),
   (0x8C800000021F002407000004, .vst {} 1 false .normal 31 2 7 4),
   (0x8E300000821F002201407E00, .vgath {} 0 3 .stream 31 2 1 7),
   (0x91100000021F002201407E00, .vscat {} 2 1 .normal 31 2 1 7),
   (0x921800000404405406407E00, .plog {} .i8 .andn 4 5 6 7),
   (0x926000000404405407E00E00, .plogNot {} .i16 4 5 7),
   (0x92B000000004405407E00E00, .plogCount {} .i32 true 4 5 7),
   (0x92380000043F405407E00E00, .plogAny {} .i8 31 5 7),
   (0x95A80006021F201202407E00, .vdot {} .bf16 { rm := .rtz } true 31 1 2 7),
   (0x978000000202200201008401, .vsmul {} .f32 {} false 2 0 1 (.g 8) 1)]

theorem test_decode_vector : (words_vector.all fun e => decode e.1 == some e.2) = true := by decide +kernel

/-- Words of the matrix instructions, slot by slot. -/
def words_matrix : List (IWord × Instr) :=
  [(0x98000000060F002E00E00E00, .tshape {} 15 (.g 2)),
   (0x9A000000060F002003FFFFC0, .tld {} 15 2 (some 3) (-64)),
   (0x9C000000060F002E00000040, .tst {} 15 2 none 64),
   (0x9EF000100E00613601602E00, .mma {} true true true true { fzo := true } 3 1 2),
   (0x9E6800000004613600601E00, .mmaA {} false true true false {} 4 3 0 1),
   (0xA0D800000004613601602005, .mmag {} true true true {} (some 4) 3 1 2 5),
   (0xA25000000E00613E00E00E00, .accf {} true false true {} false none 3),
   (0xA40000000004E00E00E00E00, .tmap {} 4),
   (0xA40800000004E00E00E00E00, .tmapR {} 4),
   (0xA61800018004A0C00A00B005, .copy {} true true .bypass 4 3 10 11 (.g 5)),
   (0xA80000000004005E00E00E00, .jwait {} (.g 4) (some 5)),
   (0xA80800000426C04005E00E00, .jwaitP {} 6 (.im 4) (some 5))]

theorem test_decode_matrix : (words_matrix.all fun e => decode e.1 == some e.2) = true := by decide +kernel

/-- Words of the tracks instructions, slot by slot. -/
def words_tracks : List (IWord × Instr) :=
  [(0xAA0000000843004E00E00E00, .holdW {} (.kg 3) (some 4)),
   (0xAA080000042683FE00E00E00, .holdT {} 6 (.k 63) none),
   (0xAC000000083F004E00E00E00, .hrel {} (.k 63) (some 4)),
   (0xAE1000000843004005FFFFFF, .seek {} .rev (.kg 3) (some 4) (some 5) (-1)),
   (0xB0080000000483F005E00E00, .rds {} true 4 63 (some 5)),
   (0xB2000000083FC09005E00E00, .wrs {} 63 (.im 9) (some 5)),
   (0xB4000000021F843005E00E00, .vrds {} 31 3 (some 5)),
   (0xB6000000084321F407E00E00, .vwrs {} 3 31 7),
   (0xB8080000083FE00E00E00E00, .rwnd {} true (.k 63) none),
   (0xBA000000000483F005E00E00, .hpos {} 4 63 (some 5))]

theorem test_decode_tracks : (words_tracks.all fun e => decode e.1 == some e.2) = true := by decide +kernel

/-- Words of the chains instructions, slot by slot. -/
def words_chains : List (IWord × Instr) :=
  [(0xBC0000000004005E00E00E00, .chain {} 4 5),
   (0xBE000000021F426E00E00E00, .get {} (.v 31) 6),
   (0xC0000000021FE00E00E00E00, .put {} (.v 31)),
   (0xC00800000E00E00E00E00E00, .putE {}),
   (0xC20000000004005E00E00E00, .chmodeQ {} 4 (some 5)),
   (0xC20800000004C02005E00E00, .chmodeOcc {} 4 (.im 2) (some 5)),
   (0xC21000000005E00E00E00E00, .chmodeFold {} (some 5)),
   (0xC21800000E00E00E00E00E00, .chmodeSpread {} none),
   (0xC22000000005E00E00E00E00, .chmodeAuto {} (some 5)),
   (0xC40000000004426E00E00E00, .ftile {} 4 6),
   (0xC60000000426C01002E00E00, .dpush {} 6 (.im 1) (.g 2)),
   (0xC80000000004005426E00E00, .dpop {} 4 5 6),
   (0xCA0000000004005423006E00, .dsteal {} 4 5 3 6),
   (0xCC0800000004A0321FE00E00, .ssend {} true 4 3 (.v 31)),
   (0xCE000000021F426A03E00E00, .srecv {} (.v 31) 6 3)]

theorem test_decode_chains : (words_chains.all fun e => decode e.1 == some e.2) = true := by decide +kernel

/-- Words of the system instructions, slot by slot. -/
def words_system : List (IWord × Instr) :=
  [(0xD0000000000CE00E00E00E00, .mapv {} 12),
   (0xD0080000000CE00E00E00E00, .mapvA {} 12),
   (0xD2000000000CE00E00E00E00, .mapack {} 12),
   (0xD4000000000400800900A00B, .collAr {} 4 8 9 10 11),
   (0xD4080000000400800900A00B, .collBc {} 4 8 9 10 11),
   (0xD4100000000400800900A00B, .collAg {} 4 8 9 10 11),
   (0xD60000000E00005E00E00E00, .tlbiCtx {} 5),
   (0xD60800000E00005006E00E00, .tlbiPg {} 5 6),
   (0xD61000000E00005006007E00, .tlbiRng {} 5 6 7),
   (0xD61800000E00E00E00E00E00, .tlbiAll {}),
   (0xD80800000004005E00E00E00, .kill {} true 4 5),
   (0xDA0000000004005006E00E00, .ctxSave {} 4 5 6),
   (0xDA0800000004005006E00E00, .ctxLoad {} 4 5 6),
   (0xDA1000000004005006007E00, .ctxMig {} 4 5 6 7),
   (0xDA1800000004005006E00E00, .ctxRd {} 4 5 6),
   (0xDA2000000E00005006007E00, .ctxWr {} 5 6 7),
   (0xDA2800000E00005E00E00E00, .ctxRes {} 5),
   (0xDA3000000E00005E00E00E00, .ctxTv {} 5),
   (0xDA3800000004005E00E00E00, .ctxSlot {} 4 5),
   (0xDC0000000004005006E00E00, .pgrefQ {} 4 5 6),
   (0xDC0800000004005006007E00, .pgrefRm {} 4 5 6 7),
   (0xDC1000000004001002003C03, .pgrefSh {} 4 1 2 3 (.im 3)),
   (0xDC1800000004005006E00E00, .pgrefDr {} 4 5 6),
   (0xDC200000000C001009DFFE00, .pgrefAdj {} 12 1 9 (.im (-1))),
   (0xDC2800000E00005006E00E00, .pgrefWk {} 5 6),
   (0xDC3000000004005E00E00E00, .pgrefClr {} 4 5),
   (0xDE0000000004005E00E00E00, .mgmtLog {} 4 5),
   (0xDE080000000FE00E00E00E00, .mgmtTmr {} 15),
   (0xDE1000000004005006E00E00, .mgmtRetire {} 4 5 6),
   (0xDE1800000004E00E00E00E00, .mgmtFwsel {} 4),
   (0xDE2000000E00E00E00E00E00, .mgmtFwcommit {}),
   (0xDE2800000004005E00E00E00, .mgmtQuote {} 4 5)]

theorem test_decode_system : (words_system.all fun e => decode e.1 == some e.2) = true := by decide +kernel

/-! ### Words that the spec itself writes out -/

/-- The worked words of the chapters that the statement SampleWords does not hold. -/
def words_worked : List (IWord × Instr) :=
  [(0x420400000007001004000004, .ld { sw := true } 0 false 0 false .normal 7 1 (some 4) 4),
   (0x58000000000800DE00E00E00, .bara {} 8 (.g 13)),
   (0x8B0400000200002401000000, .vld { sw := true } 2 false .normal 0 2 1 0),
   (0x978000000202200201008401, .vsmul {} .f32 {} false 2 0 1 (.g 8) 1),
   (0xA61800000004A0900A00B005, .copy {} true true .normal 4 0 10 11 (.g 5)),
   (0x9E6800000004613600601E00, .mmaA {} false true true false {} 4 3 0 1),
   (0xA20800000004612E00E00E00, .accf {} false false false {} false (some 4) 2),
   (0xAE0000000800E00E00000000, .seek {} .keep (.k 0) none none 0),
   (0xB00400000004800E00E00E00, .rds { sw := true } false 4 0 none),
   (0xAA0000000803E00E00E00E00, .holdW {} (.k 3) none),
   (0x89880000020000700BE00E00, .vmovsI {} .f32 0 (.g 7) (.g 11)),
   (0xDC1000000004001002003C03, .pgrefSh {} 4 1 2 3 (.im 3)),
   (0x458000000C00005E00000018, .st {} 3 0 false .normal (.im 0) 5 none 24),
   (0x500000000E00E00E00E00E00, .idem {}),
   (0xC00000000C0AE00E00E00E00, .put {} (.im 10)),
   (0x878000000200004401E00E00, .vsplat {} .f32 0 (.g 4) 1),
   (0x898000000004202C00E00E00, .vmovsX {} .f32 (.g 4) 2 (.im 0)),
   (0xD0040000000CE00E00E00E00, .mapv { sw := true } 12),
   (0xD80000000004005E00E00E00, .kill {} false 4 5),
   (0xD4000000000400800900A00B, .collAr {} 4 8 9 10 11),
   (0xDE0000000004005E00E00E00, .mgmtLog {} 4 5),
   (0x180000000004E00E00000418, .sysr {} 4 0x418),
   (0xDE080000000FE00E00E00E00, .mgmtTmr {} 15)]

theorem test_decode_worked : (words_worked.all fun e => decode e.1 == some e.2) = true := by decide +kernel

/-! ### Ill-formed terms, one for each check of WellFormed -/

theorem test_wf_refuses :
    Instr.wf (.sysr {} 4 0x11) = false ∧ Instr.wf (.sysw {} 4 0) = false ∧ Instr.wf (.mul {} .hi true 1 (.g 2) (.g 3)) = false ∧
    Instr.wf (.cmp {} ⟨.eq, true⟩ 1 (.g 2) (.g 3)) = false ∧ Instr.wf (.ld {} 3 true 0 false .normal 1 2 none 0) = false ∧
    Instr.wf (.atom {} .cas false true 1 2 (.g 3) none) = false ∧
    Instr.wf (.atom {} .add false true 1 2 (.g 3) (some (.g 4))) = false ∧
    Instr.wf (.atom {} .swap true true 1 2 (.g 3) none) = false ∧
    Instr.wf (.whileP {} 3 ⟨.lt, false⟩ 1 1 (.g 2) (.g 3)) = false ∧
    Instr.wf (.whileP {} 2 ⟨.gt, false⟩ 1 1 (.g 2) (.g 3)) = false ∧
    Instr.wf (.vadd {} .f32 true {} false 1 1 (.v 0) 1) = false ∧
    Instr.wf (.vsub {} .i32 false { fzi := true } false 1 1 (.v 0) 1) = false ∧
    Instr.wf (.vmul {} .i8 false true {} true 1 1 (.v 0) 1) = false ∧
    Instr.wf (.vmul {} .f32 false true {} false 1 1 (.v 0) 1) = false ∧
    Instr.wf (.vfma {} .i8 false false { rm := .rtz } false 1 1 (.v 0) (.v 0) 1) = false ∧
    Instr.wf (.vmin {} .f16 true {} 1 1 (.v 0) 1) = false ∧ Instr.wf (.vmax {} .i8 false { fzo := true } 1 1 (.v 0) 1) = false ∧
    Instr.wf (.vun {} .f32 .not {} 1 1 1) = false ∧ Instr.wf (.vun {} .i8 .neg { fzi := true } 1 1 1) = false ∧
    Instr.wf (.vcmp {} .i8 ⟨.ne, true⟩ {} 1 1 (.v 0) 1) = false := by decide +kernel

theorem test_wf_refuses_more :
    Instr.wf (.vshf {} .f32 false .shl false 1 1 (.v 0) 1) = false ∧ Instr.wf (.vshf {} .i8 false .shr true 1 1 (.v 0) 1) = false ∧
    Instr.wf (.vshf {} .i8 true .shl false 1 1 (.v 0) 1) = false ∧ Instr.wf (.vcvt {} .i8 .f32 {} false 1 1 0 1) = true ∧
    Instr.wf (.vcvt {} .f32 .f32 {} false 1 1 1 1) = false ∧
    Instr.wf (.vcvt {} .i8 .i16 { rm := .rtz } false 1 1 0 1) = false ∧
    Instr.wf (.vqnt {} .e4m3 .i32 {} false 1 1 0 (.im 1)) = false ∧ Instr.wf (.vdqn {} .i32 {} 1 1 0 (.im 1) 1) = false ∧
    Instr.wf (.vsfu {} .i32 .exp2 {} 1 1 1) = false ∧ Instr.wf (.vdiv {} .i32 {} 1 1 (.v 0) 1) = false ∧
    Instr.wf (.vdivSqrt {} .i8 {} 1 1 1) = false ∧ Instr.wf (.vred {} .i8 .add false { fzi := true } (.g 1) 1 1) = false ∧
    Instr.wf (.vld {} 3 false .normal 1 1 1 0) = false ∧ Instr.wf (.vst {} 3 false .normal 1 1 1 0) = false ∧
    Instr.wf (.vgath {} 3 0 .normal 1 1 1 1) = false ∧ Instr.wf (.vscat {} 3 0 .normal 1 1 1 1) = false ∧
    Instr.wf (.vdot {} .i8 { fzo := true } false 1 1 1 1) = false ∧
    Instr.wf (.accf {} false true false { fzi := true } false none 1) = false ∧
    Instr.wf (.accf {} false false false { rm := .rtz } false none 1) = false ∧
    Instr.wf (.accf {} false false true {} false none 1) = false ∧
    Instr.wf (.copy {} true true .normal 1 0 1 1 (.g 14)) = false ∧ Instr.wf (.copy {} true false .normal 1 0 1 1 (.im 1)) = false ∧
    Instr.wf (.copy {} false false .normal 1 0 1 1 (.im (-1))) = false := by decide +kernel

/-- R116, orders 2 to 5: opcode 0x70, MOD 1 on NOP, FZI on NOP, an O5 on ADD, LD.D.SX, SYSR of 0x11, type 0b011, and a
queue value of class s. -/
theorem test_decode_refuses :
    ([0xE00000000E00E00E00E00E00, 0x000800000E00E00E00E00E00, 0x000000200E00E00E00E00E00, 0x1C0000000001002003E00000,
      0x43C000000001002E00000000, 0x180000000004E00E00000011, 0x62C000000201201200401E00, 0xCE0000000201422A09E00E00]
      : List IWord).all (fun w => (decode w).isNone) = true := by decide +kernel

/-! ### One step each, with results worked out by hand from the rules -/

/-- The executing thread after an instruction. -/
def aft (i : Instr) (s : State) : Thread :=
  match exec i s with
  | .next t => curT t
  | _ => Thread.blank

/-- R101, R118: NOP moves the pc to the next slot of the line. -/
theorem test_step_nop : (match step w with
    | .next t => (curT t).pc == 0x10001
    | _ => false) = true := by decide +kernel

/-- R134: the sum wraps modulo 2^64. -/
theorem test_add_wraps : (aft (.add {} false false 4 (.im (-1)) (.im 1)) w).g[4] = 0 := by decide +kernel

/-- R134: SAT clamps a signed sum, and an unsigned difference at 0. -/
theorem test_add_sat :
    (aft (.add {} false true 4 (.g 5) (.im 1)) (rg w [(5, 0x7FFFFFFFFFFFFFFF)])).g[4] = 0x7FFFFFFFFFFFFFFF ∧
    (aft (.sub {} true true 4 (.im 1) (.im 2)) w).g[4] = 0 := by decide +kernel

/-- R119: LOOP falls through when its count reaches 0, and branches back 19 slots, five to a line, otherwise. -/
theorem test_loop : (aft (.loop {} 3 (-4)) (th (rg w [(3, 2)]) fun t => { t with pc := 0x10044 })).pc = 0x10040 ∧
    (aft (.loop {} 3 (-4)) (th (rg w [(3, 1)]) fun t => { t with pc := 0x10044 })).pc = 0x10080 ∧
    (aft (.loop {} 3 (-19)) (th (rg w [(3, 2)]) fun t => { t with pc := 0x100C4 })).pc = 0x10000 := by decide +kernel

/-- R225: 1.5 + 2.25 is 3.75 in the active lanes, and the others keep their value. -/
theorem test_vadd :
    let s := th w fun t => { t with v := (t.v.set 1 (ofLanes 4 (List.replicate 64 0x3FC00000))).set 2 (ofLanes 4 (List.replicate 64 0x40100000)),
                                    p := t.p.set 1 1 }
    laneN 4 ((aft (.vadd {} .f32 false {} false 3 1 (.v 2) 1) s).v[3]).toNat 0 = 0x40700000 ∧
    laneN 4 ((aft (.vadd {} .f32 false {} false 3 1 (.v 2) 1) s).v[3]).toNat 1 = 0 := by decide +kernel

/-- R402, R406, the example under R406: MGMT.LOG at COUNT 0x1_0000 writes its record at ring index 7. -/
theorem test_mgmt_log :
    let s := rg { rv with reeve := { rv.reeve with logHead := 7, timerOff := 0x10000 } } [(4, 0x0101), (5, 3)]
    (match exec (.mgmtLog {} 4 5) s with
      | .next t => t.reeve.logHead == 8 &&
          Memory.readN t.mem (recordLoc s 7) 32 == [0, 0, 1, 0, 0, 0, 0, 0, 1, 1, 4, 8, 7, 0, 0, 0, 3, 0, 0, 0, 0, 0, 0, 0] ++ zeros 8
      | _ => false) = true := by decide +kernel

/-- R162, effect 3: behind a FENCE a later access waits for the one that is incomplete; at thread scope it does not. -/
theorem test_fence_tracks :
    let a : Acc := { tk := 0, gen := 1, ctx := 1, pc := 0, gang := [3], op := .wrs 7, clock := 0 }
    let s := setTrack w 3 { trackAt w 3 with acc := [a] }
    let f := fun (sc : Scope) => { a with gang := [5], fence := (aft (.fence {} sc) s).fence }
    let held := fun (b : Acc) => accFirst (setTrack s 5 { trackAt s 5 with acc := [b] }) b
    held (f .core) = false ∧ held (f .thread) = true := by decide +kernel

end Sys2Proof.Tests
end

/-! ### Issuing under the guards (R107, R108)

Every instruction form goes through one of the model's three gates: `issue`, `issueC` for what only compute cores have
(R117), `issueL` for what needs a level (R115). Where the thread may run the form, each of them is `issue`, and `issue` with
a guard false leaves the marker alone. -/

namespace Sys2Proof.Proofs

open Sys2Proof.Machine Sys2Proof.Slice0 Sys2Proof.Laws

/-- The gates that an instruction form can go through, each with one effect behind it at every state. SYSR and SYSW reach
theirs on a core that has the register (R128), which is part of `MayRun`. -/
inductive Gated (i : Instr) (h : Hdr) : Prop where
  | anywhere (eff : State → State) (he : ∀ s, exec i s = issue h s eff)
  | onCore (eff : State → State) (hc : coreOnly i = true) (he : ∀ s, exec i s = issueC i h s eff)
  | atLevel (eff : State → State) (he : ∀ s, MayRun i s → exec i s = issueL (levelOf i) i h s eff)

/-- Every instruction form goes through a gate, under its own header. -/
theorem gated_of_hdrOf {i : Instr} {h : Hdr} (hh : hdrOf i = some h) : Gated i h := by
  cases i with
  | nop | br | bri | call | ret | loop | quit | park | trap | tret | add | sub | mul | div | and | or | xor | shl | shr
  | min | max | cmp | sel | mov | movi | lea | bfx | bfi | bitc | ld | st | atom | bind | acq | rel | fence | idem | mon
  | mwait | bar | bara | bwait | bwaitT | qfence | mapv | mapvA | mapack | collAr | collBc | collAg =>
    cases hh; exact .anywhere _ fun _ => rfl
  | spawn | migr | vwidth | whileP | vadd | vsub | vmul | vfma | vmin | vmax | vun | vcmp | vsel | vlog | vshf | vcvt
  | vqnt | vdqn | vsfu | vdiv | vdivSqrt | vred | vperm | vpermRot | vsplat | vmovsX | vmovsI | vld | vst | vgath | vscat
  | plog | plogNot | plogCount | plogAny | vdot | vsmul | tshape | tld | tst | mma | mmaA | mmag | accf | tmap | tmapR
  | copy | jwait | jwaitP | holdW | holdT | hrel | seek | rds | wrs | vrds | vwrs | rwnd | hpos | chain | get | put | putE
  | chmodeQ | chmodeOcc | chmodeFold | chmodeSpread | chmodeAuto | ftile | dpush | dpop | dsteal | ssend | srecv =>
    cases hh; exact .onCore _ rfl fun _ => rfl
  | tlbiCtx | tlbiPg | tlbiRng | tlbiAll | kill | ctxSave | ctxLoad | ctxMig | ctxRd | ctxWr | ctxRes | ctxTv | ctxSlot
  | pgrefQ | pgrefRm | pgrefSh | pgrefDr | pgrefAdj | pgrefWk | pgrefClr | mgmtLog | mgmtTmr | mgmtRetire | mgmtFwsel
  | mgmtFwcommit | mgmtQuote =>
    cases hh; exact .atLevel _ fun _ _ => rfl
  | sysr | sysw =>
    cases hh
    exact .atLevel _ fun _ ⟨_, _, hreg⟩ => if_neg (Bool.eq_false_iff.mp hreg)
  | _ => cases hh

/-- A form that the thread may run is issued under its guards. -/
theorem exec_eq_issue {i : Instr} {h : Hdr} {s : State} (hh : hdrOf i = some h) (hr : MayRun i s) :
    ∃ eff, exec i s = issue h s eff := by
  have ⟨hcore, hlevel, _⟩ := hr
  cases gated_of_hdrOf hh with
  | anywhere eff he => exact ⟨eff, he s⟩
  | onCore eff hc he => exact ⟨eff, (he s).trans (issueC_runs (hcore hc))⟩
  | atLevel eff he => exact ⟨eff, (he s hr).trans (issueL_runs hlevel)⟩

/-- Settles O11: whatever the form, it is issued under its guards, and with a guard false the effect is passed over. -/
theorem guardFalse : Obligations.GuardFalse := by
  intro i h s hh hr hg
  obtain ⟨eff, he⟩ := exec_eq_issue hh hr
  exact he.trans (issue_skips hg)

end Sys2Proof.Proofs

/-! ### Scalar results by their bits (R138, R139)

BFX, BFI and BITC are computed on numbers. Here each computation is said by the bits of its operand: BFX extends a slice,
BFI overwrites one, and BITC counts to the first 1 from an end, counts all 1s, or reverses. -/

namespace Sys2Proof.Proofs

open Sys2Proof.Machine Sys2Proof.Slice0 Sys2Proof.Laws

/-! #### A field of a word (R138) -/

section BitField

variable {sx : Bool} {a old : Word} {p n m : Nat}

theorem bfxVal_of_outside (h : 64 ≤ p ∨ n = 0) : bfxVal sx a p n = 0 := if_pos h

theorem bfiVal_of_outside (h : 64 ≤ p ∨ n = 0) : bfiVal old a p n = old := if_pos h

/-- The model's signed reading of the low m bits is the two's complement of a word of m bits. -/
theorem signedN_eq_toInt (hm : 0 < m) (x : Nat) : signedN m x = (BitVec.ofNat m x).toInt := by
  have hpow : 2 ^ (m - 1) + 2 ^ (m - 1) = 2 ^ m := Nat.two_pow_pred_add_two_pow_pred hm
  have hhalf : 2 * (x % 2 ^ m) < 2 ^ m ↔ x % 2 ^ m < 2 ^ (m - 1) := by omega
  simp [signedN, BitVec.toInt_eq_toNat_cond, hhalf]

/-- Inside the word BFX gives the slice of m bits at p, extended. -/
theorem bfxVal_eq_extend (hp : p < 64) (hn : n ≠ 0) (hm : m = min n (64 - p)) :
    bfxVal sx a p n = if sx then (a.extractLsb' p m).signExtend 64 else (a.extractLsb' p m).setWidth 64 := by
  have hin : ¬ (p ≥ 64 ∨ n = 0) := by omega
  have hslice : BitVec.ofNat m (a.toNat / 2 ^ p % 2 ^ m) = a.extractLsb' p m := by
    apply BitVec.eq_of_toNat_eq
    simp [Nat.shiftRight_eq_div_pow]
  simp only [bfxVal, if_neg hin, ← hm]
  cases sx with
  | true =>
    simp only [if_true, w64i, signedN_eq_toInt (by omega : 0 < m), hslice]
    rfl
  | false =>
    rw [← hslice]
    apply BitVec.eq_of_toNat_eq
    simp [w64]

/-- BFX bit by bit: below m the field, from m on zeros or copies of the field's top bit. -/
theorem getLsbD_bfxVal (hp : p < 64) (hn : n ≠ 0) (hm : m = min n (64 - p)) {i : Nat} (hi : i < 64) :
    (bfxVal sx a p n).getLsbD i = if i < m then a.getLsbD (p + i) else sx && a.getLsbD (p + m - 1) := by
  have hm0 : 0 < m := by omega
  rw [bfxVal_eq_extend hp hn hm]
  cases sx with
  | true =>
    have hlast : m - 1 < m := Nat.sub_lt hm0 Nat.one_pos
    simp only [if_true, BitVec.getLsbD_signExtend, BitVec.msb_eq_getLsbD_last, BitVec.getLsbD_extractLsb', hi, hlast,
      decide_true, Bool.true_and, Nat.add_sub_assoc hm0]
    by_cases hfield : i < m
    · simp [hfield]
    · simp [hfield]
  | false => simp [hi]

/-- Replacing the k bits at lo leaves the bits above and below them in their places. -/
theorem replaceBits_eq (x v lo k : Nat) :
    x - x / 2 ^ lo % 2 ^ k * 2 ^ lo + v % 2 ^ k * 2 ^ lo =
      2 ^ lo * (2 ^ k * (x / 2 ^ lo / 2 ^ k) + v % 2 ^ k) + x % 2 ^ lo := by
  have hx : x = 2 ^ lo * (2 ^ k * (x / 2 ^ lo / 2 ^ k)) + x / 2 ^ lo % 2 ^ k * 2 ^ lo + x % 2 ^ lo := by
    rw [Nat.mul_comm (_ % _), ← Nat.mul_add, Nat.div_add_mod, Nat.div_add_mod]
  rw [Nat.mul_add, Nat.mul_comm _ (v % _)]
  omega

/-- Bit by bit, `putBits` takes the bits lo to hi from v and keeps the others. -/
theorem getLsbD_putBits {x : Word} {hi lo v i : Nat} (hlo : lo ≤ hi) (h64 : i < 64) :
    (putBits x hi lo v).getLsbD i = if lo ≤ i ∧ i ≤ hi then v.testBit (i - lo) else x.getLsbD i := by
  have hlow : x.toNat % 2 ^ lo < 2 ^ lo := Nat.mod_lt _ (Nat.two_pow_pos lo)
  have hmid : v % 2 ^ (hi + 1 - lo) < 2 ^ (hi + 1 - lo) := Nat.mod_lt _ (Nat.two_pow_pos _)
  rw [putBits, bitsOf, replaceBits_eq, BitVec.getLsbD_ofNat, Nat.testBit_two_pow_mul_add _ hlow,
    Nat.testBit_two_pow_mul_add _ hmid, ← BitVec.testBit_toNat]
  simp only [h64, decide_true, Bool.true_and, Nat.testBit_mod_two_pow, Nat.testBit_div_two_pow]
  by_cases hbelow : i < lo
  · simp [hbelow, Nat.not_le.mpr hbelow]
  · by_cases habove : i - lo < hi + 1 - lo
    · simp [hbelow, habove, show lo ≤ i ∧ i ≤ hi by omega]
    · simp [hbelow, habove, show ¬ (lo ≤ i ∧ i ≤ hi) by omega,
        show i - lo - (hi + 1 - lo) + (hi + 1 - lo) + lo = i by omega]

/-- BFI bit by bit: from p to p + m - 1 the operand's low bits, elsewhere the old word. -/
theorem getLsbD_bfiVal (hp : p < 64) (hn : n ≠ 0) (hm : m = min n (64 - p)) {i : Nat} (hi : i < 64) :
    (bfiVal old a p n).getLsbD i = if p ≤ i ∧ i < p + m then a.getLsbD (i - p) else old.getLsbD i := by
  have hin : ¬ (p ≥ 64 ∨ n = 0) := by omega
  have hfield : p ≤ i ∧ i ≤ p + m - 1 ↔ p ≤ i ∧ i < p + m := by omega
  rw [bfiVal, if_neg hin, ← hm, getLsbD_putBits (by omega) hi]
  simp only [hfield, BitVec.testBit_toNat]

end BitField

/-! #### Counting and reversing bits (R139) -/

/-- Among the w bits f 0, f 1 and on, the first n are 0, and the next one, if there is one, is 1. -/
def FirstOne (w : Nat) (f : Nat → Bool) (n : Nat) : Prop :=
  n ≤ w ∧ (∀ i, i < n → f i = false) ∧ (n < w → f n = true)

section FirstOne

variable {w n : Nat} {f : Nat → Bool}

theorem firstOne_nil : FirstOne 0 f 0 := by simp [FirstOne]

theorem firstOne_zero_of_one (h : f 0 = true) : FirstOne w f 0 := by simp [FirstOne, h]

/-- A leading 0 counts one more than what follows it. -/
theorem FirstOne.one_add (h0 : f 0 = false) (h : FirstOne w (fun i => f (i + 1)) n) : FirstOne (w + 1) f (1 + n) := by
  obtain ⟨hle, hzeros, hone⟩ := h
  refine ⟨by omega, fun i hi => ?_, fun hlt => ?_⟩
  · cases i with
    | zero => exact h0
    | succ j => exact hzeros j (by omega)
  · rw [Nat.add_comm]
    exact hone (by omega)

end FirstOne

/-- `clzN` counts the zeros from the top down. -/
theorem firstOne_clzN (n x : Nat) : FirstOne n (fun i => x.testBit (n - 1 - i)) (clzN n x) := by
  induction n with
  | zero => exact firstOne_nil
  | succ n ih =>
    rw [clzN]
    split
    next htop => exact firstOne_zero_of_one (by simpa [Nat.testBit_eq_decide_div_mod_eq] using htop)
    next htop =>
      refine FirstOne.one_add (by simpa [Nat.testBit_eq_decide_div_mod_eq] using htop) ?_
      have hshift : ∀ i, n + 1 - 1 - (i + 1) = n - 1 - i := by omega
      simpa only [hshift] using ih

/-- `ctzFrom` counts the zeros from bit i up. -/
theorem firstOne_ctzFrom (n i x : Nat) : FirstOne n (fun j => x.testBit (i + j)) (ctzFrom n i x) := by
  induction n generalizing i with
  | zero => exact firstOne_nil
  | succ n ih =>
    rw [ctzFrom]
    split
    next hbit => exact firstOne_zero_of_one (by simpa [Nat.testBit_eq_decide_div_mod_eq] using hbit)
    next hbit =>
      refine FirstOne.one_add (by simpa [Nat.testBit_eq_decide_div_mod_eq] using hbit) ?_
      simpa only [Nat.add_right_comm i 1, Nat.add_assoc] using ih (i + 1)

/-- `popN` counts the ones among the low n bits. -/
theorem popN_eq_countP (n x : Nat) : popN n x = (List.range n).countP x.testBit := by
  induction n with
  | zero => rfl
  | succ n ih => simp [popN, ih, List.range_succ, Nat.testBit_eq_decide_div_mod_eq, Nat.add_comm]

theorem revN_lt (n x : Nat) : revN n x < 2 ^ n := by
  induction n generalizing x with
  | zero => simp [revN]
  | succ n ih =>
    have hrest := ih (x / 2)
    rcases Nat.mod_two_eq_zero_or_one x with h | h <;> simp only [revN, h, Nat.pow_succ] <;> omega

/-- Bit i of the reversal of n bits is their bit n - 1 - i. -/
theorem testBit_revN {n i : Nat} (x : Nat) (hi : i < n) : (revN n x).testBit i = x.testBit (n - 1 - i) := by
  induction n generalizing x with
  | zero => omega
  | succ n ih =>
    rw [revN, Nat.mul_comm, Nat.testBit_two_pow_mul_add _ (revN_lt n _)]
    split
    next hlow => rw [ih _ hlow, ← Nat.testBit_succ, show (n - 1 - i).succ = n + 1 - 1 - i by omega]
    next htop => simp [show i = n by omega]

theorem bitcVal_popc (a : Word) :
    bitcVal .popc a = BitVec.ofNat 64 ((List.range 64).filter fun i => a.getLsbD i).length := by
  rw [← List.countP_eq_length_filter]
  exact congrArg (BitVec.ofNat 64) (popN_eq_countP 64 a.toNat)

theorem bitcVal_brev (a : Word) : bitcVal .brev a = a.reverse := by
  apply BitVec.eq_of_getLsbD_eq
  intro i hi
  rw [bitcVal, w64, BitVec.getLsbD_ofNat, testBit_revN _ hi, BitVec.getLsbD_reverse, BitVec.getMsbD_eq_getLsbD,
    BitVec.testBit_toNat]

/-! #### The instructions -/

theorem exec_bfx_eq (h : Hdr) (sx : Bool) (d : Fin 16) (a pos len : GI) (s : State) :
    exec (.bfx h sx d a pos len) s = execBfx h sx d a pos len s := rfl

theorem exec_bfi_eq (h : Hdr) (d : Fin 16) (a pos len : GI) (s : State) :
    exec (.bfi h d a pos len) s = execBfi h d a pos len s := rfl

theorem exec_bitc_eq (h : Hdr) (k : BitcK) (d : Fin 16) (a : GI) (s : State) :
    exec (.bitc h k d a) s = execBitc h k d a s := rfl

theorem exec_trap_eq (h : Hdr) (code : BitVec 24) (s : State) : exec (.trap h code) s = execTrap h code s := rfl

section Issued

variable {h : Hdr} {s : State} (hs : Issues h s)
include hs

theorem exec_bfx (sx : Bool) (d : Fin 16) (a pos len : GI) : exec (.bfx h sx d a pos len) s =
    .next (retire h (setG s d (bfxVal sx (giVal s a) (giVal s pos).toNat (giVal s len).toNat))) := by
  rw [exec_bfx_eq, execBfx, issue_runs hs.1 hs.2, resultG]

theorem exec_bfi (d : Fin 16) (a pos len : GI) : exec (.bfi h d a pos len) s =
    .next (retire h (setG s d (bfiVal (gVal s d) (giVal s a) (giVal s pos).toNat (giVal s len).toNat))) := by
  rw [exec_bfi_eq, execBfi, issue_runs hs.1 hs.2, resultG]

theorem exec_bitc (k : BitcK) (d : Fin 16) (a : GI) :
    exec (.bitc h k d a) s = .next (retire h (setG s d (bitcVal k (giVal s a)))) := by
  rw [exec_bitc_eq, execBitc, issue_runs hs.1 hs.2, resultG]

theorem exec_trap (code : BitVec 24) :
    exec (.trap h code) s = .next (trap s 0x12 (code.setWidth 64) (nextPc (curT s).pc)) := by
  rw [exec_trap_eq, execTrap, issue_runs hs.1 hs.2, cTRAPI]

end Issued

/-- Settles O6: outside the word or with no length nothing is moved; inside, the field's bits are those of the slice. -/
theorem bitFields : Obligations.BitFields := by
  intro h d a pos len s hs
  have hlen : (giVal s len).toNat = 0 ↔ giVal s len = 0 := by simp [BitVec.toNat_eq]
  refine ⟨fun hout => ?_, fun hp hn m hm => ?_⟩
  · rw [← hlen] at hout
    exact ⟨fun sx => by rw [exec_bfx hs, bfxVal_of_outside hout], by rw [exec_bfi hs, bfiVal_of_outside hout]⟩
  · rw [ne_eq, ← hlen] at hn
    exact ⟨fun sx => ⟨_, exec_bfx hs sx d a pos len, fun _ => getLsbD_bfxVal hp hn hm⟩,
      _, exec_bfi hs d a pos len, fun _ => getLsbD_bfiVal hp hn hm⟩

/-- Settles O7: CLZ and CTZ count to the first 1 from either end, POPC counts all, BREV reverses. -/
theorem bitCounts : Obligations.BitCounts := by
  intro h d a s hs
  have hclz := firstOne_clzN 64 (giVal s a).toNat
  have hctz := firstOne_ctzFrom 64 0 (giVal s a).toNat
  simp only [FirstOne, BitVec.testBit_toNat, Nat.zero_add] at hclz hctz
  obtain ⟨hclzLe, hclzBits⟩ := hclz
  obtain ⟨hctzLe, hctzBits⟩ := hctz
  exact ⟨⟨_, hclzLe, exec_bitc hs .clz d a, hclzBits⟩, ⟨_, hctzLe, exec_bitc hs .ctz d a, hctzBits⟩,
    by rw [exec_bitc hs, bitcVal_popc], by rw [exec_bitc hs, bitcVal_brev]⟩

/-! ### TRAP (R124) -/

/-- Replacing the executing thread changes nothing outside it. -/
theorem restSame_putT (s : State) (t : Thread) : RestSame s (putT s t) :=
  ⟨rfl, fun _ hk => mget_mset_ne s.threads t hk, fun _ => rfl⟩

/-- Settles O15: issued, TRAP is the trap TRAPI; with nothing outstanding and a handler, that is the handler's entry. -/
theorem trapInstr : Obligations.TrapInstr := by
  intro h code s hs
  refine ⟨exec_trap hs code, fun hres htvec hinh => ?_⟩
  rw [exec_trap hs code, trap_enters hres htvec hinh]
  exact ⟨_, rfl, restSame_putT s _, by simp [trapEntry]⟩

end Sys2Proof.Proofs

/-! ### The instruction word (R107, R110, R116)

The fields of a word, its operand slots and its modifier codes each decode from exactly one value; so does a word. -/

namespace Sys2Proof.Proofs

open Sys2Proof

/-! #### The word and its fields -/

theorem ofBool_getLsbD {w : Nat} (x : BitVec w) (i : Nat) : BitVec.ofBool (x.getLsbD i) = x.extractLsb' i 1 := by
  apply BitVec.eq_of_getLsbD_eq
  intro j hj
  simp [show j = 0 by omega]

/-- The fields of a word are put back in their places. -/
theorem pack_unpack (w : IWord) : pack (unpack w) = w := by
  simp only [pack, unpack, ofBool_getLsbD, BitVec.extractLsb'_append_extractLsb'_eq_extractLsb']
  exact BitVec.extractLsb'_eq_self

/-- Fields put into a word are found again: what lies below a field is passed over, and the field is what follows. -/
theorem unpack_pack (r : Raw) : unpack (pack r) = r := by
  obtain ⟨opc, md, sw, gan, ga, gbn, gb, fzi, fzo, rm, sat, ch, pace, o1, o2, o3, o4, o5⟩ := r
  have bit {b : Bool} {i : Nat} {w : IWord} (h : w.extractLsb' i 1 = BitVec.ofBool b) : w.getLsbD i = b := by
    rw [← ofBool_getLsbD] at h
    revert h
    cases w.getLsbD i <;> cases b <;> decide
  simp only [unpack, pack, Raw.mk.injEq]
  refine ⟨?opc, ?_, bit ?_, bit ?_, ?_, bit ?_, ?_, bit ?_, bit ?_, ?_, bit ?_, ?_, ?_, ?_, ?_, ?_, ?_, ?_⟩
  all_goals repeat rw [BitVec.extractLsb'_append_eq_of_le (by decide)]
  case opc => exact BitVec.extractLsb'_eq_self
  all_goals exact BitVec.extractLsb'_append_eq_right

/-! #### Operand slots -/

section Slot

variable {o : BitVec 12}

theorem eq_slot_iff {c v : Nat} (hc : c < 8) (hv : v < 512) : o = slot c v ↔ slotCls o = c ∧ slotVal o = v := by
  rw [← BitVec.toNat_inj, slot, BitVec.toNat_ofNat, slotCls, slotVal]
  omega

theorem slotIn_eq_some {c lo n : Nat} [NeZero n] {r : Fin n} (hc : c < 8) (hn : lo + n ≤ 512) :
    slotIn o c lo n = some r ↔ o = slot c (lo + r.val) := by
  have hr := r.isLt
  rw [eq_slot_iff hc (by omega), slotIn]
  simp only [Option.ite_none_right_eq_some, Option.some.injEq, Fin.ext_iff, Fin.ofNat]
  constructor
  · rintro ⟨⟨hcls, hlo, hhi⟩, hval⟩
    rw [Nat.mod_eq_of_lt (by omega)] at hval
    omega
  · rintro ⟨hcls, hval⟩
    rw [Nat.mod_eq_of_lt (by omega)]
    omega

theorem slotIn_slot_ne {c c' lo n v : Nat} [NeZero n] (hc : c < 8) (hv : v < 512) (hne : c ≠ c') :
    slotIn (slot c v) c' lo n = none := by
  obtain ⟨hcls, _⟩ := (eq_slot_iff hc hv).mp rfl
  simp [slotIn, hcls, hne]

@[simp] theorem slotImm_eq_some {v : BitVec 9} : slotImm o = some v ↔ o = sIm9 v := by
  have hv := v.isLt
  rw [sIm9, eq_slot_iff (by decide) (by omega), slotImm]
  simp only [Option.ite_none_right_eq_some, Option.some.injEq, ← BitVec.toNat_inj, BitVec.toNat_ofNat, slotVal]
  omega

@[simp] theorem dG_eq_some {r : Fin 16} : dG o = some r ↔ o = sG r := by
  rw [dG, slotIn_eq_some (by decide) (by decide), Nat.zero_add, sG]

@[simp] theorem dV_eq_some {r : Fin 32} : dV o = some r ↔ o = sV r := by
  rw [dV, slotIn_eq_some (by decide) (by decide), Nat.zero_add, sV]

@[simp] theorem dP_eq_some {r : Fin 8} : dP o = some r ↔ o = sP r := by
  rw [dP, slotIn_eq_some (by decide) (by decide), Nat.zero_add, sP]

@[simp] theorem dC_eq_some {r : Fin 32} : dC o = some r ↔ o = sC r := slotIn_eq_some (by decide) (by decide)

@[simp] theorem dT_eq_some {r : Fin 16} : dT o = some r ↔ o = sT r := by
  rw [dT, slotIn_eq_some (by decide) (by decide), Nat.zero_add, sT]

@[simp] theorem dA_eq_some {r : Fin 4} : dA o = some r ↔ o = sA r := slotIn_eq_some (by decide) (by decide)

@[simp] theorem dK_eq_some {r : Fin 64} : dK o = some r ↔ o = sK r := by
  rw [dK, slotIn_eq_some (by decide) (by decide), Nat.zero_add, sK]

@[simp] theorem dKg_eq_some {r : Fin 4} : dKg o = some r ↔ o = sKg r := slotIn_eq_some (by decide) (by decide)

@[simp] theorem dS_eq_some {r : Fin 4} : dS o = some r ↔ o = sS r := by
  rw [dS, slotIn_eq_some (by decide) (by decide), Nat.zero_add, sS]

@[simp] theorem dQ_eq_some {r : Fin 4} : dQ o = some r ↔ o = sQ r := slotIn_eq_some (by decide) (by decide)

@[simp] theorem dIm_eq_some {r : Fin 4} : dIm o = some r ↔ o = sIm r := by
  rw [dIm, slotIn_eq_some (by decide) (by decide), Nat.zero_add, sIm]

/-! An operand that may be of several classes: the class of the slot tells which. -/

theorem slotCls_slot {c v : Nat} (hc : c < 8) (hv : v < 512) : slotCls (slot c v) = c :=
  ((eq_slot_iff hc hv).mp rfl).1

theorem dG_sIm9 (v : BitVec 9) : dG (sIm9 v) = none := slotIn_slot_ne (by decide) v.isLt (by decide)

theorem dV_sIm9 (v : BitVec 9) : dV (sIm9 v) = none := slotIn_slot_ne (by decide) v.isLt (by decide)

theorem dV_sG (r : Fin 16) : dV (sG r) = none := slotIn_slot_ne (by decide) (by omega) (by decide)

theorem dG_sV (r : Fin 32) : dG (sV r) = none := slotIn_slot_ne (by decide) (by omega) (by decide)

theorem slotImm_sV (r : Fin 32) : slotImm (sV r) = none := by
  rw [slotImm, sV, slotCls_slot (by decide) (by omega), if_neg (by decide)]

theorem dK_sKg (r : Fin 4) : dK (sKg r) = none := by
  obtain ⟨hcls, hval⟩ := (eq_slot_iff (c := 4) (v := 64 + r.val) (by decide) (by omega)).mp rfl
  simp [dK, slotIn, sKg, hcls, hval]

/-- No register stands in the slot of an operand that is absent. -/
theorem sG_ne_absent (r : Fin 16) : sG r ≠ absent := by revert r; decide

theorem sIm9_ne_of_slotCls {v : BitVec 9} {x : BitVec 12} (h : slotCls x ≠ 6) : x ≠ sIm9 v := by
  rintro rfl
  exact h (slotCls_slot (by decide) v.isLt)

theorem sGI_ne_absent (x : GI) : absent ≠ sGI x := by
  cases x with
  | g r => exact (sG_ne_absent r).symm
  | im v => exact sIm9_ne_of_slotCls (by decide)

@[simp] theorem dGI_eq_some {x : GI} : dGI o = some x ↔ o = sGI x := by
  cases x with
  | g r => simp [dGI, sGI, dG_eq_some]
  | im v => simp +contextual [dGI, sGI, slotImm_eq_some, dG_sIm9]

@[simp] theorem dVB_eq_some {x : VB} : dVB o = some x ↔ o = sVB x := by
  cases x with
  | v r => simp [dVB, sVB, dV_eq_some]
  | g r => simp +contextual [dVB, sVB, dG_eq_some, dV_sG]
  | im v => simp +contextual [dVB, sVB, slotImm_eq_some, ← and_assoc, dV_sIm9, dG_sIm9]

@[simp] theorem dGV_eq_some {x : GV} : dGV o = some x ↔ o = sGV x := by
  cases x with
  | g r => simp [dGV, sGV, dG_eq_some]
  | v r => simp +contextual [dGV, sGV, dV_eq_some, dG_sV]

@[simp] theorem dGIV_eq_some {x : GIV} : dGIV o = some x ↔ o = sGIV x := by
  cases x with
  | g r => simp [dGIV, sGIV, dG_eq_some]
  | im v => simp +contextual [dGIV, sGIV, slotImm_eq_some, dG_sIm9]
  | v r => simp +contextual [dGIV, sGIV, dV_eq_some, ← and_assoc, dG_sV, slotImm_sV]

@[simp] theorem dKK_eq_some {x : KK} : dKK o = some x ↔ o = sKK x := by
  cases x with
  | k r => simp [dKK, sKK, dK_eq_some]
  | kg r => simp +contextual [dKK, sKK, dKg_eq_some, dK_sKg]

@[simp] theorem dOG_eq_some {x : Option (Fin 16)} : dOG o = some x ↔ o = sOG x := by
  rw [dOG]
  split
  next h => subst h; cases x <;> simp [sOG, (sG_ne_absent _).symm]
  next h => cases x <;> simp [sOG, h, dG_eq_some]

@[simp] theorem dOGI_eq_some {x : Option GI} : dOGI o = some x ↔ o = sOGI x := by
  rw [dOGI]
  split
  next h => subst h; cases x <;> simp [sOGI, sGI_ne_absent]
  next h => cases x <;> simp [sOGI, h, dGI_eq_some]

/-- The link registers LW, LE and LWF are class 0 slots past the scalar registers. -/
theorem link_ne_sG (r : Fin 16) : slot 0 16 ≠ sG r ∧ slot 0 17 ≠ sG r ∧ slot 0 18 ≠ sG r := by revert r; decide

theorem link_ne_sIm9 (v : BitVec 9) : slot 0 16 ≠ sIm9 v ∧ slot 0 17 ≠ sIm9 v ∧ slot 0 18 ≠ sIm9 v :=
  ⟨sIm9_ne_of_slotCls (by decide), sIm9_ne_of_slotCls (by decide), sIm9_ne_of_slotCls (by decide)⟩

theorem links_ne : slot 0 16 ≠ slot 0 17 ∧ slot 0 16 ≠ slot 0 18 ∧ slot 0 17 ≠ slot 0 18 := by decide

@[simp] theorem dLS_eq_some {x : LSrc} : dLS o = some x ↔ o = sLS x := by
  rw [dLS]
  split
  next h => subst h; cases x <;> simp [sLS, link_ne_sG, link_ne_sIm9, links_ne]
  next hlw =>
    split
    next h => subst h; cases x <;> simp [sLS, link_ne_sG, link_ne_sIm9, links_ne, links_ne.1.symm]
    next hle =>
      split
      next h => subst h; cases x <;> simp [sLS, link_ne_sG, link_ne_sIm9, hlw, hle]
      next hlwf =>
        cases x with
        | g r => simp [sLS, dG_eq_some]
        | im v => simp +contextual [sLS, slotImm_eq_some, dG_sIm9]
        | lw | le | lwf => simp [sLS, hlw, hle, hlwf]

@[simp] theorem dXD_eq_some {x : XDst} : dXD o = some x ↔ o = sXD x := by
  rw [dXD]
  split
  next h => subst h; cases x <;> simp [sXD, link_ne_sG, links_ne]
  next hlw =>
    split
    next h => subst h; cases x <;> simp [sXD, link_ne_sG, links_ne.1.symm]
    next hle => cases x <;> simp [sXD, hlw, hle, dG_eq_some]

end Slot

/-! #### Modifier codes: a code stands for at most one modifier -/

section Code

variable {n : Nat}

@[simp] theorem VTy.ofCode_eq_some {x : VTy} : VTy.ofCode n = some x ↔ n = x.code := by
  refine ⟨fun h => ?_, fun h => by subst h; cases x <;> rfl⟩
  unfold VTy.ofCode at h
  split at h <;> cases h <;> rfl

@[simp] theorem Rel.ofCode_eq_some {x : Rel} : Rel.ofCode n = some x ↔ n = x.code := by
  refine ⟨fun h => ?_, fun h => by subst h; cases x <;> rfl⟩
  unfold Rel.ofCode at h
  split at h <;> cases h <;> rfl

@[simp] theorem MulK.ofCode_eq_some {x : MulK} : MulK.ofCode n = some x ↔ n = x.code := by
  refine ⟨fun h => ?_, fun h => by subst h; cases x <;> rfl⟩
  unfold MulK.ofCode at h
  split at h <;> cases h <;> rfl

@[simp] theorem DivK.ofCode_eq_some {x : DivK} : DivK.ofCode n = some x ↔ n = x.code := by
  refine ⟨fun h => ?_, fun h => by subst h; cases x <;> rfl⟩
  unfold DivK.ofCode at h
  split at h <;> cases h <;> rfl

@[simp] theorem MoviK.ofCode_eq_some {x : MoviK} : MoviK.ofCode n = some x ↔ n = x.code := by
  refine ⟨fun h => ?_, fun h => by subst h; cases x <;> rfl⟩
  unfold MoviK.ofCode at h
  split at h <;> cases h <;> rfl

@[simp] theorem BitcK.ofCode_eq_some {x : BitcK} : BitcK.ofCode n = some x ↔ n = x.code := by
  refine ⟨fun h => ?_, fun h => by subst h; cases x <;> rfl⟩
  unfold BitcK.ofCode at h
  split at h <;> cases h <;> rfl

@[simp] theorem AtomOp.ofCode_eq_some {x : AtomOp} : AtomOp.ofCode n = some x ↔ n = x.code := by
  refine ⟨fun h => ?_, fun h => by subst h; cases x <;> rfl⟩
  unfold AtomOp.ofCode at h
  split at h <;> cases h <;> rfl

@[simp] theorem Scope.ofCode_eq_some {x : Scope} : Scope.ofCode n = some x ↔ n = x.code := by
  refine ⟨fun h => ?_, fun h => by subst h; cases x <;> rfl⟩
  unfold Scope.ofCode at h
  split at h <;> cases h <;> rfl

@[simp] theorem BarK.ofCode_eq_some {x : BarK} : BarK.ofCode n = some x ↔ n = x.code := by
  refine ⟨fun h => ?_, fun h => by subst h; cases x <;> rfl⟩
  unfold BarK.ofCode at h
  split at h <;> cases h <;> rfl

@[simp] theorem UnK.ofCode_eq_some {x : UnK} : UnK.ofCode n = some x ↔ n = x.code := by
  refine ⟨fun h => ?_, fun h => by subst h; cases x <;> rfl⟩
  unfold UnK.ofCode at h
  split at h <;> cases h <;> rfl

@[simp] theorem LogK.ofCode_eq_some {x : LogK} : LogK.ofCode n = some x ↔ n = x.code := by
  refine ⟨fun h => ?_, fun h => by subst h; cases x <;> rfl⟩
  unfold LogK.ofCode at h
  split at h <;> cases h <;> rfl

@[simp] theorem ShfK.ofCode_eq_some {x : ShfK} : ShfK.ofCode n = some x ↔ n = x.code := by
  refine ⟨fun h => ?_, fun h => by subst h; cases x <;> rfl⟩
  unfold ShfK.ofCode at h
  split at h <;> cases h <;> rfl

@[simp] theorem BFmt.ofCode_eq_some {x : BFmt} : BFmt.ofCode n = some x ↔ n = x.code := by
  refine ⟨fun h => ?_, fun h => by subst h; cases x <;> rfl⟩
  unfold BFmt.ofCode at h
  split at h <;> cases h <;> rfl

@[simp] theorem SfuK.ofCode_eq_some {x : SfuK} : SfuK.ofCode n = some x ↔ n = x.code := by
  refine ⟨fun h => ?_, fun h => by subst h; cases x <;> rfl⟩
  unfold SfuK.ofCode at h
  split at h <;> cases h <;> rfl

@[simp] theorem RedK.ofCode_eq_some {x : RedK} : RedK.ofCode n = some x ↔ n = x.code := by
  refine ⟨fun h => ?_, fun h => by subst h; cases x <;> rfl⟩
  unfold RedK.ofCode at h
  split at h <;> cases h <;> rfl

@[simp] theorem DotK.ofCode_eq_some {x : DotK} : DotK.ofCode n = some x ↔ n = x.code := by
  refine ⟨fun h => ?_, fun h => by subst h; cases x <;> rfl⟩
  unfold DotK.ofCode at h
  split at h <;> cases h <;> rfl

@[simp] theorem SeekK.ofCode_eq_some {x : SeekK} : SeekK.ofCode n = some x ↔ n = x.code := by
  refine ⟨fun h => ?_, fun h => by subst h; cases x <;> rfl⟩
  unfold SeekK.ofCode at h
  split at h <;> cases h <;> rfl

@[simp] theorem bitOf_eq_some {w : Nat} {b : Bool} (hw : w ≠ 0) : bitOf n w = some b ↔ n = bn b w := by
  cases b with
  | false => simp [bitOf, bn]
  | true =>
    simp only [bitOf, bn, if_true]
    split
    next h => simp [h, hw.symm]
    next h => simp

theorem bn_of_bit (k w : Nat) : bn (k % 2 == 1) w = k % 2 * w := by
  rcases Nat.mod_two_eq_zero_or_one k with h | h <;> simp [bn, h]

theorem w4_val (k : Nat) : (w4 k).val = k % 4 := rfl

@[simp] theorem scaleOf_eq_some {x : Fin 4} : scaleOf n = some x ↔ n = x.val * 2 := by
  have hx := x.isLt
  simp only [scaleOf, Option.ite_none_right_eq_some, Option.some.injEq, Fin.ext_iff, w4_val]
  omega

@[simp] theorem Cond.ofCode_eq_some {c : Cond} : Cond.ofCode n = some c ↔ n = c.code := by
  obtain ⟨r, v⟩ := c
  simp only [Cond.ofCode, Cond.code, Option.ite_none_right_eq_some, Option.map_eq_some_iff, Rel.ofCode_eq_some,
    Cond.mk.injEq]
  constructor
  · rintro ⟨hlt, _, hr, rfl, rfl⟩
    rw [← hr]
    by_cases h8 : n / 8 = 1 <;> simp [bn, h8] <;> omega
  · rintro rfl
    refine ⟨?_, r, ?_, rfl, ?_⟩ <;> cases r <;> cases v <;> decide

theorem CH.code_ofCode (c : BitVec 2) : (CH.ofCode c).code = c := by revert c; decide

theorem CH.ofCode_code (c : CH) : CH.ofCode c.code = c := by cases c <;> rfl

theorem RM.code_ofCode (c : BitVec 2) : (RM.ofCode c).code = c := by revert c; decide

theorem RM.ofCode_code (c : RM) : RM.ofCode c.code = c := by cases c <;> rfl

@[simp] theorem need_eq_some {b : Bool} {u : Unit} : need b = some u ↔ b = true := by
  cases b <;> simp [need]

end Code

/-! #### A header with its fields -/

theorem immHi_imm24 (r : Raw) : immHi (imm24 r) = r.o4 := BitVec.extractLsb'_append_eq_left

theorem immLo_imm24 (r : Raw) : immLo (imm24 r) = r.o5 := BitVec.extractLsb'_append_eq_right

/-- A word is a header with the fields given, exactly if it has that header and those fields. -/
theorem mk_ofHdr_eq_iff {h : Hdr} {raw : Raw} {opc : BitVec 7} {md : BitVec 6} {fzi fzo sat : Bool} {rm ch : BitVec 2}
    {o1 o2 o3 o4 o5 : BitVec 12} :
    { Raw.ofHdr h with
      opc := opc, md := md, fzi := fzi, fzo := fzo, rm := rm, sat := sat, ch := ch
      o1 := o1, o2 := o2, o3 := o3, o4 := o4, o5 := o5 } = raw ↔
    raw.hdr = h ∧ raw.opc.toNat = opc.toNat ∧ raw.md = md ∧ raw.fzi = fzi ∧ raw.fzo = fzo ∧ raw.rm = rm ∧
      raw.sat = sat ∧ raw.ch = ch ∧ raw.o1 = o1 ∧ raw.o2 = o2 ∧ raw.o3 = o3 ∧ raw.o4 = o4 ∧ raw.o5 = o5 := by
  have hg : ∀ x : BitVec 5, BitVec.ofNat 5 (x.toNat % 32) = x := fun x => by
    rw [Nat.mod_eq_of_lt x.isLt, BitVec.ofNat_toNat, BitVec.setWidth_eq]
  have hp : ∀ x : BitVec 3, BitVec.ofNat 3 (x.toNat % 8) = x := fun x => by
    rw [Nat.mod_eq_of_lt x.isLt, BitVec.ofNat_toNat, BitVec.setWidth_eq]
  constructor
  · rintro rfl
    simp [Raw.ofHdr, Raw.hdr]
  · rw [BitVec.toNat_inj]
    rintro ⟨rfl, rfl, rfl, rfl, rfl, rfl, rfl, rfl, rfl, rfl, rfl, rfl, rfl⟩
    simp [Raw.ofHdr, Raw.hdr, hg, hp]

theorem eq_ofNat_iff {w n : Nat} {x : BitVec w} : x = BitVec.ofNat w n ↔ x.toNat = n % 2 ^ w := by
  rw [← BitVec.toNat_inj, BitVec.toNat_ofNat]

/-! #### What is put into a field is read from it -/

@[simp] theorem dG_sG (r : Fin 16) : dG (sG r) = some r := dG_eq_some.mpr rfl

@[simp] theorem dV_sV (r : Fin 32) : dV (sV r) = some r := dV_eq_some.mpr rfl

@[simp] theorem dP_sP (r : Fin 8) : dP (sP r) = some r := dP_eq_some.mpr rfl

@[simp] theorem dC_sC (r : Fin 32) : dC (sC r) = some r := dC_eq_some.mpr rfl

@[simp] theorem dT_sT (r : Fin 16) : dT (sT r) = some r := dT_eq_some.mpr rfl

@[simp] theorem dA_sA (r : Fin 4) : dA (sA r) = some r := dA_eq_some.mpr rfl

@[simp] theorem dK_sK (r : Fin 64) : dK (sK r) = some r := dK_eq_some.mpr rfl

@[simp] theorem dKg_sKg (r : Fin 4) : dKg (sKg r) = some r := dKg_eq_some.mpr rfl

@[simp] theorem dS_sS (r : Fin 4) : dS (sS r) = some r := dS_eq_some.mpr rfl

@[simp] theorem dQ_sQ (r : Fin 4) : dQ (sQ r) = some r := dQ_eq_some.mpr rfl

@[simp] theorem dIm_sIm (r : Fin 4) : dIm (sIm r) = some r := dIm_eq_some.mpr rfl

@[simp] theorem dGI_sGI (x : GI) : dGI (sGI x) = some x := dGI_eq_some.mpr rfl

@[simp] theorem dVB_sVB (x : VB) : dVB (sVB x) = some x := dVB_eq_some.mpr rfl

@[simp] theorem dGV_sGV (x : GV) : dGV (sGV x) = some x := dGV_eq_some.mpr rfl

@[simp] theorem dGIV_sGIV (x : GIV) : dGIV (sGIV x) = some x := dGIV_eq_some.mpr rfl

@[simp] theorem dKK_sKK (x : KK) : dKK (sKK x) = some x := dKK_eq_some.mpr rfl

@[simp] theorem dOG_sOG (x : Option (Fin 16)) : dOG (sOG x) = some x := dOG_eq_some.mpr rfl

@[simp] theorem dOGI_sOGI (x : Option GI) : dOGI (sOGI x) = some x := dOGI_eq_some.mpr rfl

@[simp] theorem dLS_sLS (x : LSrc) : dLS (sLS x) = some x := dLS_eq_some.mpr rfl

@[simp] theorem dXD_sXD (x : XDst) : dXD (sXD x) = some x := dXD_eq_some.mpr rfl

@[simp] theorem need_true : need true = some () := rfl

@[simp] theorem immHi_append_immLo (d : BitVec 24) : immHi d ++ immLo d = d := by
  rw [immHi, immLo, BitVec.extractLsb'_append_extractLsb'_eq_extractLsb' (by decide)]
  exact BitVec.extractLsb'_eq_self

theorem slices_append (x : BitVec 48) :
    x.extractLsb' 36 12 ++ x.extractLsb' 24 12 ++ x.extractLsb' 12 12 ++ x.extractLsb' 0 12 = x := by
  rw [BitVec.extractLsb'_append_extractLsb'_eq_extractLsb' (by decide),
    BitVec.extractLsb'_append_extractLsb'_eq_extractLsb' (by decide),
    BitVec.extractLsb'_append_extractLsb'_eq_extractLsb' (by decide)]
  exact BitVec.extractLsb'_eq_self

@[simp] theorem bn_mod {w n : Nat} (b : Bool) (h : w < n) : bn b w % n = bn b w := by
  cases b <;> simp [bn, Nat.mod_eq_of_lt h]

@[simp] theorem bitOf_bn {w : Nat} (b : Bool) (h : w ≠ 0) : bitOf (bn b w) w = some b := (bitOf_eq_some h).mpr rfl

@[simp] theorem scaleOf_scale (x : Fin 4) : scaleOf (x.val * 2 % 64) = some x := by revert x; decide

@[simp] theorem memMod_sx (w : Fin 4) (sx : Bool) (x : Fin 4) (mig : Bool) :
    memMod ((w.val * 16 + bn sx 8 + x.val * 2 + bn mig 1) % 64) = (w, sx, x, mig) := by revert w sx x mig; decide

@[simp] theorem memMod_noSx (w : Fin 4) (x : Fin 4) (mig : Bool) :
    memMod ((w.val * 16 + x.val * 2 + bn mig 1) % 64) = (w, false, x, mig) := by revert w x mig; decide

@[simp] theorem MulK.ofCode_code (x : MulK) : MulK.ofCode (x.code % 64) = some x := by cases x <;> rfl

@[simp] theorem DivK.ofCode_code (x : DivK) : DivK.ofCode (x.code % 64) = some x := by cases x <;> rfl

@[simp] theorem MoviK.ofCode_code (x : MoviK) : MoviK.ofCode (x.code % 64) = some x := by cases x <;> rfl

@[simp] theorem BitcK.ofCode_code (x : BitcK) : BitcK.ofCode (x.code % 64) = some x := by cases x <;> rfl

@[simp] theorem Scope.ofCode_code (x : Scope) : Scope.ofCode (x.code % 64) = some x := by cases x <;> rfl

@[simp] theorem BarK.ofCode_code (x : BarK) : BarK.ofCode (x.code % 64) = some x := by cases x <;> rfl

@[simp] theorem DotK.ofCode_code (x : DotK) : DotK.ofCode (x.code % 64) = some x := by cases x <;> rfl

@[simp] theorem SeekK.ofCode_code (x : SeekK) : SeekK.ofCode (x.code % 64) = some x := by cases x <;> rfl

@[simp] theorem Cond.ofCode_code (x : Cond) : Cond.ofCode (x.code % 64) = some x := by
  obtain ⟨r, v⟩ := x; cases r <;> cases v <;> rfl

@[simp] theorem Rel.ofCode_code8 (x : Rel) : Rel.ofCode (x.code % 8) = some x := by cases x <;> rfl

@[simp] theorem UnK.ofCode_code8 (x : UnK) : UnK.ofCode (x.code % 8) = some x := by cases x <;> rfl

@[simp] theorem LogK.ofCode_code8 (x : LogK) : LogK.ofCode (x.code % 8) = some x := by cases x <;> rfl

@[simp] theorem SfuK.ofCode_code8 (x : SfuK) : SfuK.ofCode (x.code % 8) = some x := by cases x <;> rfl

@[simp] theorem VTy.ofCode_code8 (x : VTy) : VTy.ofCode (x.code % 8) = some x := by cases x <;> rfl

@[simp] theorem VTy.code_lt (t : VTy) : t.code < 8 := by cases t <;> decide

@[simp] theorem Rel.code_lt (r : Rel) : r.code < 8 := by cases r <;> decide

@[simp] theorem UnK.code_lt (k : UnK) : k.code < 8 := by cases k <;> decide

@[simp] theorem LogK.code_lt (k : LogK) : k.code < 8 := by cases k <;> decide

@[simp] theorem SfuK.code_lt (k : SfuK) : k.code < 8 := by cases k <;> decide

@[simp] theorem bn_lt {w n : Nat} (b : Bool) (h : w < n) : bn b w < n := by cases b <;> simp [bn] <;> omega

@[simp] theorem VTy.ofCode_high (t : VTy) {n : Nat} (hn : n < 8) :
    VTy.ofCode ((t.code * 8 + n) % 64 / 8) = some t := by
  have ht := VTy.code_lt t
  rw [VTy.ofCode_eq_some]
  omega

@[simp] theorem VTy.ofCode_high_zero (t : VTy) : VTy.ofCode (t.code * 8 % 64 / 8) = some t :=
  VTy.ofCode_high t (n := 0) (by decide)

@[simp] theorem BFmt.ofCode_high (x : BFmt) {n : Nat} (hn : n < 8) :
    BFmt.ofCode ((x.code * 8 + n) % 64 / 8) = some x := by
  have hx : x.code < 8 := by cases x <;> decide
  rw [BFmt.ofCode_eq_some]
  omega

@[simp] theorem w4_high (w : Fin 4) {n : Nat} (hn : n < 16) : w4 ((w.val * 16 + n) % 64 / 16) = w := by
  rw [Fin.ext_iff, w4_val]
  omega

@[simp] theorem w4_high_zero (w : Fin 4) : w4 (w.val * 16 % 64 / 16) = w := w4_high w (n := 0) (by decide)

@[simp] theorem Cond.code_lt (c : Cond) : c.code < 16 := by obtain ⟨r, v⟩ := c; cases r <;> cases v <;> decide

@[simp] theorem Cond.ofCode_code16 (x : Cond) : Cond.ofCode (x.code % 16) = some x := by
  obtain ⟨r, v⟩ := x; cases r <;> cases v <;> rfl

@[simp] theorem scale_lt (x : Fin 4) : x.val * 2 < 16 := by omega

@[simp] theorem scaleOf_scale16 (x : Fin 4) : scaleOf (x.val * 2 % 16) = some x := by revert x; decide

theorem atomMod (op : AtomOp) (u dw : Bool) : let m := op.code * 8 + bn u 4 + 2 + bn dw 1
    AtomOp.ofCode (m % 64 / 8) = some op ∧ m % 64 / 2 % 2 = 1 ∧ (m % 64 / 4 % 2 == 1) = u ∧ (m % 2 == 1) = dw := by
  cases op <;> cases u <;> cases dw <;> decide

theorem relMod (acc : Bool) (x : Fin 4) : let m := bn acc 8 + x.val * 2
    (m % 64 / 8 % 2 == 1) = acc ∧ scaleOf (m % 64 - bn acc 8) = some x := by
  revert acc x; decide

theorem vecBits (t : VTy) (a b : Bool) : let m := t.code * 8 + bn a 2 + bn b 1
    VTy.ofCode (m % 64 / 8) = some t ∧ m % 64 / 4 % 2 = 0 ∧ (m % 64 / 2 % 2 == 1) = a ∧ (m % 2 == 1) = b := by
  cases t <;> cases a <;> cases b <;> decide

theorem shfMod (t : VTy) (u : Bool) (k : ShfK) : let m := t.code * 8 + bn u 4 + k.code
    VTy.ofCode (m % 64 / 8) = some t ∧ (m % 64 / 4 % 2 == 1) = u ∧ ShfK.ofCode (m % 4) = some k := by
  cases t <;> cases u <;> cases k <;> decide

theorem redMod (t : VTy) (op : RedK) (b : Bool) : let m := t.code * 8 + op.code * 2 + bn b 1
    VTy.ofCode (m % 64 / 8) = some t ∧ RedK.ofCode (m % 8 / 2) = some op ∧ (m % 2 == 1) = b := by
  cases t <;> cases op <;> cases b <;> decide

section OfHdr
variable (h : Hdr)

@[simp] theorem ofHdr_fzi : (Raw.ofHdr h).fzi = false := rfl

@[simp] theorem ofHdr_fzo : (Raw.ofHdr h).fzo = false := rfl

@[simp] theorem ofHdr_rm : (Raw.ofHdr h).rm = 0 := rfl

@[simp] theorem ofHdr_sat : (Raw.ofHdr h).sat = false := rfl

@[simp] theorem ofHdr_ch : (Raw.ofHdr h).ch = 0 := rfl

@[simp] theorem ofHdr_o1 : (Raw.ofHdr h).o1 = absent := rfl

@[simp] theorem ofHdr_o2 : (Raw.ofHdr h).o2 = absent := rfl

@[simp] theorem ofHdr_o3 : (Raw.ofHdr h).o3 = absent := rfl

@[simp] theorem ofHdr_o4 : (Raw.ofHdr h).o4 = absent := rfl

@[simp] theorem ofHdr_o5 : (Raw.ofHdr h).o5 = absent := rfl

@[simp] theorem hdr_with {opc : BitVec 7} {md : BitVec 6} {fzi fzo sat : Bool} {rm ch : BitVec 2}
    {o1 o2 o3 o4 o5 : BitVec 12} : Raw.hdr { Raw.ofHdr h with
      opc := opc, md := md, fzi := fzi, fzo := fzo, rm := rm, sat := sat, ch := ch
      o1 := o1, o2 := o2, o3 := o3, o4 := o4, o5 := o5 } = h := by
  simp [Raw.ofHdr, Raw.hdr]
end OfHdr

/-! #### The decoder is sound: the word is that of the instruction -/

/-- A decoder's steps, as conjunctions. -/
theorem bind_iff :
    (∀ {α β : Type} {x : Option α} {f : α → Option β} {b : β},
      x >>= f = some b ↔ ∃ a, x = some a ∧ f a = some b) ∧
    (∀ {α : Type} {a b : α}, (pure a : Option α) = some b ↔ a = b) ∧
    (∀ {b : Bool} {u : Unit}, need b = some u ↔ b = true) ∧
    (∀ {m n : Nat}, (m == n) = true ↔ m = n) ∧
    (∀ {w : Nat} {x y : BitVec w}, (x == y) = true ↔ x = y) :=
  ⟨Option.bind_eq_some_iff, by simp, need_eq_some, by simp, by simp⟩

/-- The slots' decoders, together: rewriting with nothing else keeps a long decoder cheap. -/
theorem operand_iff {o : BitVec 12} :
    (∀ {x}, dG o = some x ↔ o = sG x) ∧ (∀ {x}, dV o = some x ↔ o = sV x) ∧ (∀ {x}, dP o = some x ↔ o = sP x) ∧
    (∀ {x}, dC o = some x ↔ o = sC x) ∧ (∀ {x}, dT o = some x ↔ o = sT x) ∧ (∀ {x}, dA o = some x ↔ o = sA x) ∧
    (∀ {x}, dK o = some x ↔ o = sK x) ∧ (∀ {x}, dKg o = some x ↔ o = sKg x) ∧ (∀ {x}, dS o = some x ↔ o = sS x) ∧
    (∀ {x}, dQ o = some x ↔ o = sQ x) ∧ (∀ {x}, dIm o = some x ↔ o = sIm x) ∧
    (∀ {x}, dGI o = some x ↔ o = sGI x) ∧ (∀ {x}, dVB o = some x ↔ o = sVB x) ∧
    (∀ {x}, dGV o = some x ↔ o = sGV x) ∧ (∀ {x}, dGIV o = some x ↔ o = sGIV x) ∧
    (∀ {x}, dKK o = some x ↔ o = sKK x) ∧ (∀ {x}, dOG o = some x ↔ o = sOG x) ∧
    (∀ {x}, dOGI o = some x ↔ o = sOGI x) ∧ (∀ {x}, dLS o = some x ↔ o = sLS x) ∧
    (∀ {x}, dXD o = some x ↔ o = sXD x) := by
  simp

/-- The modifiers' decoders, together. -/
theorem code_iff {n : Nat} :
    (∀ {α : Type} {x : Option α} {a : α}, enumOf x = some a ↔ x = some a) ∧
    (∀ {b}, bitOf n 1 = some b ↔ n = bn b 1) ∧ (∀ {b}, bitOf n 4 = some b ↔ n = bn b 4) ∧
    (∀ {x}, scaleOf n = some x ↔ n = x.val * 2) ∧ (∀ {x}, Cond.ofCode n = some x ↔ n = x.code) ∧
    (∀ {x}, VTy.ofCode n = some x ↔ n = x.code) ∧ (∀ {x}, Rel.ofCode n = some x ↔ n = x.code) ∧
    (∀ {x}, MulK.ofCode n = some x ↔ n = x.code) ∧ (∀ {x}, DivK.ofCode n = some x ↔ n = x.code) ∧
    (∀ {x}, MoviK.ofCode n = some x ↔ n = x.code) ∧ (∀ {x}, BitcK.ofCode n = some x ↔ n = x.code) ∧
    (∀ {x}, AtomOp.ofCode n = some x ↔ n = x.code) ∧ (∀ {x}, Scope.ofCode n = some x ↔ n = x.code) ∧
    (∀ {x}, BarK.ofCode n = some x ↔ n = x.code) ∧ (∀ {x}, UnK.ofCode n = some x ↔ n = x.code) ∧
    (∀ {x}, LogK.ofCode n = some x ↔ n = x.code) ∧ (∀ {x}, ShfK.ofCode n = some x ↔ n = x.code) ∧
    (∀ {x}, BFmt.ofCode n = some x ↔ n = x.code) ∧ (∀ {x}, SfuK.ofCode n = some x ↔ n = x.code) ∧
    (∀ {x}, RedK.ofCode n = some x ↔ n = x.code) ∧ (∀ {x}, DotK.ofCode n = some x ↔ n = x.code) ∧
    (∀ {x}, SeekK.ofCode n = some x ↔ n = x.code) := by
  simp [enumOf]

theorem imm48_slices (r : Raw) : (imm48 r).extractLsb' 36 12 = r.o2 ∧ (imm48 r).extractLsb' 24 12 = r.o3 ∧
    (imm48 r).extractLsb' 12 12 = r.o4 ∧ (imm48 r).extractLsb' 0 12 = r.o5 := by
  refine ⟨?o2, ?_, ?_, ?_⟩
  all_goals rw [imm48]
  all_goals repeat rw [BitVec.extractLsb'_append_eq_of_le (by decide)]
  case o2 => exact BitVec.extractLsb'_eq_self
  all_goals exact BitVec.extractLsb'_append_eq_right

theorem md_eq_iff {raw : Raw} {n : Nat} : raw.md = BitVec.ofNat 6 n ↔ raw.md.toNat = n % 64 := eq_ofNat_iff

theorem bn_of_two {m k : Nat} (h : m = k ∨ m = k + 1) : bn (m == k + 1) 1 = m - k := by
  rcases h with rfl | rfl <;> simp [bn]

/-- A choice between two values is c. -/
theorem ite_eq_iff_or {α : Type} {p : Prop} [Decidable p] {a b c : α} :
    (if p then a else b) = c ↔ p ∧ a = c ∨ ¬ p ∧ b = c := by
  by_cases hp : p <;> simp [hp]

/-- The word comes back: it is that of the instruction, which is well-formed. -/
structure ComesBack (raw : Raw) (i : Instr) : Prop where
  wf : i.wf = true
  word : toRaw i = some raw

theorem toRaw_of_fromRaw_control {raw : Raw} {i : Instr} (h : fromRaw raw = some i)
    (hhi : raw.opc.toNat < 0xe) : ComesBack raw i := by
  have hmd := raw.md.isLt
  generalize hopc : raw.opc.toNat = n at hhi
  have hlo := Nat.zero_le n
  iterate 14 rcases Nat.lt_or_eq_of_le hlo with hlo | rfl
  · omega
  all_goals
    rw [fromRaw, hopc] at h
    dsimp only at h
    simp only [
      decNop, decBr, decBri, decCall, decRet, decLoop, decQuit, decSpawn, decMigr, decPark, decTrap, decTret, decSysr,
      decSysw, bind_iff, operand_iff] at h
    revert h
    simp -failIfUnchanged only [forall_exists_index, and_imp]
    intros
  all_goals
    subst_vars
    refine ⟨by trivial, congrArg some (mk_ofHdr_eq_iff.mpr ?_)⟩
    simp_all [md_eq_iff, immHi_imm24, immLo_imm24]

theorem toRaw_of_fromRaw_scalar {raw : Raw} {i : Instr} (h : fromRaw raw = some i)
    (hlo : 0xe ≤ raw.opc.toNat) (hhi : raw.opc.toNat < 0x21) : ComesBack raw i := by
  have hmd := raw.md.isLt
  generalize hopc : raw.opc.toNat = n at hlo hhi
  iterate 19 rcases Nat.lt_or_eq_of_le hlo with hlo | rfl
  · omega
  all_goals
    rw [fromRaw, hopc] at h
    dsimp only at h
    simp only [
      decAdd, decSub, decMul, decDiv, decAnd, decOr, decXor, decShl, decShr, decMin, decMax, decCmp, decSel, decMov,
      decMovi, decLea, decBfx, decBfi, decBitc, enumOf, bind_iff, operand_iff, code_iff] at h
    revert h
    simp -failIfUnchanged only [forall_exists_index, and_imp]
    intros
  all_goals
    subst_vars
    refine ⟨by trivial, congrArg some (mk_ofHdr_eq_iff.mpr ?_)⟩
    simp_all [md_eq_iff, immHi_imm24, immLo_imm24, imm48_slices]
  all_goals omega

theorem toRaw_of_fromRaw_memory {raw : Raw} {i : Instr} (h : fromRaw raw = some i)
    (hlo : 0x21 ≤ raw.opc.toNat) (hhi : raw.opc.toNat < 0x2f) : ComesBack raw i := by
  have hmd := raw.md.isLt
  generalize hopc : raw.opc.toNat = n at hlo hhi
  iterate 14 rcases Nat.lt_or_eq_of_le hlo with hlo | rfl
  · omega
  all_goals
    rw [fromRaw, hopc] at h
    dsimp only at h
    simp only [
      decLd, decSt, decAtom, decBind, decAcq, decRel, decFence, decIdem, decMon, decMwait, decBar, decBara, decBwait,
      decBwaitT, decQfence, enumOf, bind_iff, operand_iff, code_iff, ite_eq_iff_or,
      reduceCtorEq, and_false, or_false] at h
    revert h
    simp -failIfUnchanged only [forall_exists_index, and_imp, or_imp, forall_and, imp_and]
    repeat' apply And.intro
    all_goals intros
  all_goals
    subst_vars
    refine ⟨by trivial, congrArg some (mk_ofHdr_eq_iff.mpr ?_)⟩
    simp_all [md_eq_iff, bn_of_bit, memMod, w4_val, CH.code_ofCode, immHi_imm24, immLo_imm24]
  all_goals omega

theorem toRaw_of_fromRaw_lanes {raw : Raw} {i : Instr} (h : fromRaw raw = some i)
    (hlo : 0x2f ≤ raw.opc.toNat) (hhi : raw.opc.toNat < 0x3c) : ComesBack raw i := by
  have hmd := raw.md.isLt
  generalize hopc : raw.opc.toNat = n at hlo hhi
  iterate 13 rcases Nat.lt_or_eq_of_le hlo with hlo | rfl
  · omega
  all_goals
    rw [fromRaw, hopc] at h
    dsimp only at h
    simp only [
      decVwidth, decWhileP, decVadd, decVsub, decVmul, decVfma, decVmin, decVmax, decVun, decVcmp, decVsel, decVlog,
      decVshf, enumOf, bind_iff, operand_iff, code_iff] at h
    revert h
    simp -failIfUnchanged only [forall_exists_index, and_imp]
    intros
  all_goals
    subst_vars
    refine ⟨by trivial, congrArg some (mk_ofHdr_eq_iff.mpr ?_)⟩
    simp_all [md_eq_iff, bn_of_bit, w4_val, RM.code_ofCode]
  all_goals omega

theorem toRaw_of_fromRaw_numbers {raw : Raw} {i : Instr} (h : fromRaw raw = some i)
    (hlo : 0x3c ≤ raw.opc.toNat) (hhi : raw.opc.toNat < 0x45) : ComesBack raw i := by
  have hmd := raw.md.isLt
  generalize hopc : raw.opc.toNat = n at hlo hhi
  iterate 9 rcases Nat.lt_or_eq_of_le hlo with hlo | rfl
  · omega
  all_goals
    rw [fromRaw, hopc] at h
    dsimp only at h
    simp only [
      decVcvt, decVqnt, decVdqn, decVsfu, decVdiv, decVdivSqrt, decVred, decVperm, decVpermRot, decVsplat, decVmovsX,
      decVmovsI, enumOf, bind_iff, operand_iff, code_iff, ite_eq_iff_or, reduceCtorEq, and_false, or_false] at h
    revert h
    simp -failIfUnchanged only [forall_exists_index, and_imp, or_imp, forall_and, imp_and]
    repeat' apply And.intro
    all_goals intros
  all_goals
    subst_vars
    refine ⟨by trivial, congrArg some (mk_ofHdr_eq_iff.mpr ?_)⟩
    simp_all [md_eq_iff, bn_of_bit, bn_of_two (k := 1), RM.code_ofCode]
  all_goals omega

theorem toRaw_of_fromRaw_vectorMemory {raw : Raw} {i : Instr} (h : fromRaw raw = some i)
    (hlo : 0x45 ≤ raw.opc.toNat) (hhi : raw.opc.toNat < 0x4c) : ComesBack raw i := by
  have hmd := raw.md.isLt
  generalize hopc : raw.opc.toNat = n at hlo hhi
  iterate 7 rcases Nat.lt_or_eq_of_le hlo with hlo | rfl
  · omega
  all_goals
    rw [fromRaw, hopc] at h
    dsimp only at h
    simp only [
      decVld, decVst, decVgath, decVscat, decPlog, decPlogNot, decPlogCount, decPlogAny, decVdot, decVsmul, enumOf,
      bind_iff, operand_iff, code_iff, ite_eq_iff_or, reduceCtorEq, and_false, or_false] at h
    revert h
    simp -failIfUnchanged only [forall_exists_index, and_imp, or_imp, forall_and, imp_and]
    repeat' apply And.intro
    all_goals intros
  all_goals
    subst_vars
    refine ⟨by trivial, congrArg some (mk_ofHdr_eq_iff.mpr ?_)⟩
    simp_all [md_eq_iff, bn_of_two (k := 5), w4_val, RM.code_ofCode, CH.code_ofCode, immHi_imm24, immLo_imm24]
  all_goals omega

theorem toRaw_of_fromRaw_matrix {raw : Raw} {i : Instr} (h : fromRaw raw = some i)
    (hlo : 0x4c ≤ raw.opc.toNat) (hhi : raw.opc.toNat < 0x55) : ComesBack raw i := by
  have hmd := raw.md.isLt
  generalize hopc : raw.opc.toNat = n at hlo hhi
  iterate 9 rcases Nat.lt_or_eq_of_le hlo with hlo | rfl
  · omega
  all_goals
    rw [fromRaw, hopc] at h
    dsimp only at h
    simp only [
      decTshape, decTld, decTst, decMma, decMmaA, decMmag, decAccf, decTmap, decTmapR, decCopy, decJwait, decJwaitP,
      bind_iff, operand_iff, ite_eq_iff_or, reduceCtorEq, and_false, or_false] at h
    revert h
    simp -failIfUnchanged only [forall_exists_index, and_imp, or_imp, forall_and, imp_and]
    repeat' apply And.intro
    all_goals intros
  all_goals
    subst_vars
    refine ⟨by trivial, congrArg some (mk_ofHdr_eq_iff.mpr ?_)⟩
    simp_all [md_eq_iff, bn_of_bit, RM.code_ofCode, CH.code_ofCode, immHi_imm24, immLo_imm24]
  all_goals omega

theorem toRaw_of_fromRaw_tracks {raw : Raw} {i : Instr} (h : fromRaw raw = some i)
    (hlo : 0x55 ≤ raw.opc.toNat) (hhi : raw.opc.toNat < 0x5e) : ComesBack raw i := by
  have hmd := raw.md.isLt
  generalize hopc : raw.opc.toNat = n at hlo hhi
  iterate 9 rcases Nat.lt_or_eq_of_le hlo with hlo | rfl
  · omega
  all_goals
    rw [fromRaw, hopc] at h
    dsimp only at h
    simp only [
      decHoldW, decHoldT, decHrel, decSeek, decRds, decWrs, decVrds, decVwrs, decRwnd, decHpos, enumOf, bind_iff,
      operand_iff, code_iff, ite_eq_iff_or, reduceCtorEq, and_false, or_false] at h
    revert h
    simp -failIfUnchanged only [forall_exists_index, and_imp, or_imp, forall_and, imp_and]
    repeat' apply And.intro
    all_goals intros
  all_goals
    subst_vars
    refine ⟨by trivial, congrArg some (mk_ofHdr_eq_iff.mpr ?_)⟩
    simp_all [md_eq_iff, immHi_imm24, immLo_imm24]
  all_goals omega

theorem toRaw_of_fromRaw_chains {raw : Raw} {i : Instr} (h : fromRaw raw = some i)
    (hlo : 0x5e ≤ raw.opc.toNat) (hhi : raw.opc.toNat < 0x68) : ComesBack raw i := by
  have hmd := raw.md.isLt
  generalize hopc : raw.opc.toNat = n at hlo hhi
  iterate 10 rcases Nat.lt_or_eq_of_le hlo with hlo | rfl
  · omega
  all_goals
    rw [fromRaw, hopc] at h
    dsimp only at h
    simp only [
      decChain, decGet, decPut, decPutE, decChmodeQ, decChmodeOcc, decChmodeFold, decChmodeSpread, decChmodeAuto,
      decFtile, decDpush, decDpop, decDsteal, decSsend, decSrecv, bind_iff, operand_iff, code_iff, ite_eq_iff_or,
      reduceCtorEq, and_false, or_false] at h
    revert h
    simp -failIfUnchanged only [forall_exists_index, and_imp, or_imp, forall_and, imp_and]
    repeat' apply And.intro
    all_goals intros
  all_goals
    subst_vars
    refine ⟨by trivial, congrArg some (mk_ofHdr_eq_iff.mpr ?_)⟩
    simp_all [md_eq_iff]

theorem toRaw_of_fromRaw_contexts {raw : Raw} {i : Instr} (h : fromRaw raw = some i)
    (hlo : 0x68 ≤ raw.opc.toNat) (hhi : raw.opc.toNat < 0x6e) : ComesBack raw i := by
  have hmd := raw.md.isLt
  generalize hopc : raw.opc.toNat = n at hlo hhi
  iterate 6 rcases Nat.lt_or_eq_of_le hlo with hlo | rfl
  · omega
  all_goals
    rw [fromRaw, hopc] at h
    dsimp only at h
    simp only [
      decMapv, decMapvA, decMapack, decCollAr, decCollBc, decCollAg, decTlbiCtx, decTlbiPg, decTlbiRng, decTlbiAll,
      decKill, decCtxSave, decCtxLoad, decCtxMig, decCtxRd, decCtxWr, decCtxRes, decCtxTv, decCtxSlot,
      bind_iff, operand_iff, code_iff, ite_eq_iff_or, reduceCtorEq, and_false, or_false] at h
    revert h
    simp -failIfUnchanged only [forall_exists_index, and_imp, or_imp, forall_and, imp_and]
    repeat' apply And.intro
    all_goals intros
  all_goals
    subst_vars
    refine ⟨by trivial, congrArg some (mk_ofHdr_eq_iff.mpr ?_)⟩
    simp_all [md_eq_iff]

theorem toRaw_of_fromRaw_management {raw : Raw} {i : Instr} (h : fromRaw raw = some i)
    (hlo : 0x6e ≤ raw.opc.toNat) (hhi : raw.opc.toNat < 0x70) : ComesBack raw i := by
  have hmd := raw.md.isLt
  generalize hopc : raw.opc.toNat = n at hlo hhi
  iterate 2 rcases Nat.lt_or_eq_of_le hlo with hlo | rfl
  · omega
  all_goals
    rw [fromRaw, hopc] at h
    dsimp only at h
    simp only [
      decPgrefQ, decPgrefRm, decPgrefSh, decPgrefDr, decPgrefAdj, decPgrefWk, decPgrefClr, decMgmtLog, decMgmtTmr,
      decMgmtRetire, decMgmtFwsel, decMgmtFwcommit, decMgmtQuote, bind_iff, operand_iff, ite_eq_iff_or,
      reduceCtorEq, and_false, or_false] at h
    revert h
    simp -failIfUnchanged only [forall_exists_index, and_imp, or_imp, forall_and, imp_and]
    repeat' apply And.intro
    all_goals intros
  all_goals
    subst_vars
    refine ⟨by trivial, congrArg some (mk_ofHdr_eq_iff.mpr ?_)⟩
    simp_all [md_eq_iff]

/-- The words with one of the 16 opcodes that no instruction has do not decode. -/
theorem fromRaw_unassigned {raw : Raw} (hlo : 0x70 ≤ raw.opc.toNat) : fromRaw raw = none := by
  have hhi := raw.opc.isLt
  generalize hopc : raw.opc.toNat = n at hlo hhi
  iterate 16 rcases Nat.lt_or_eq_of_le hlo with hlo | rfl
  · omega
  all_goals
    rw [fromRaw, hopc]
    rfl

/-- A word that decodes gives a well-formed instruction, whose word it is. -/
theorem toRaw_of_fromRaw {raw : Raw} {i : Instr} (h : fromRaw raw = some i) : ComesBack raw i := by
  by_cases he : raw.opc.toNat < 0xe
  · exact toRaw_of_fromRaw_control h he
  by_cases h21 : raw.opc.toNat < 0x21
  · exact toRaw_of_fromRaw_scalar h (Nat.le_of_not_lt he) h21
  by_cases h2f : raw.opc.toNat < 0x2f
  · exact toRaw_of_fromRaw_memory h (Nat.le_of_not_lt h21) h2f
  by_cases h3c : raw.opc.toNat < 0x3c
  · exact toRaw_of_fromRaw_lanes h (Nat.le_of_not_lt h2f) h3c
  by_cases h45 : raw.opc.toNat < 0x45
  · exact toRaw_of_fromRaw_numbers h (Nat.le_of_not_lt h3c) h45
  by_cases h4c : raw.opc.toNat < 0x4c
  · exact toRaw_of_fromRaw_vectorMemory h (Nat.le_of_not_lt h45) h4c
  by_cases h55 : raw.opc.toNat < 0x55
  · exact toRaw_of_fromRaw_matrix h (Nat.le_of_not_lt h4c) h55
  by_cases h5e : raw.opc.toNat < 0x5e
  · exact toRaw_of_fromRaw_tracks h (Nat.le_of_not_lt h55) h5e
  by_cases h68 : raw.opc.toNat < 0x68
  · exact toRaw_of_fromRaw_chains h (Nat.le_of_not_lt h5e) h68
  by_cases h6e : raw.opc.toNat < 0x6e
  · exact toRaw_of_fromRaw_contexts h (Nat.le_of_not_lt h68) h6e
  by_cases h70 : raw.opc.toNat < 0x70
  · exact toRaw_of_fromRaw_management h (Nat.le_of_not_lt h6e) h70
  rw [fromRaw_unassigned (Nat.le_of_not_lt h70)] at h
  cases h

/-! #### The decoder is complete: a form's word decodes to it -/

theorem need_bind {α} {b : Bool} {x : Option α} (h : b = true) : (need b).bind (fun _ => x) = x := by subst h; rfl

theorem LogK.code_lt4 (k : LogK) : k.code % 8 < 4 := by cases k <;> decide

theorem copyMod (a b : Bool) : let m := bn a 1 + bn b 2
    m % 64 < 4 ∧ (m % 2 == 1) = a ∧ (m % 64 / 2 % 2 == 1) = b := by revert a b; decide

theorem mmaMod (a b c d : Bool) : let m := bn a 2 + bn b 4 + bn c 8 + bn d 16
    m % 64 < 32 ∧ m % 2 = 0 ∧ (m % 64 / 2 % 2 == 1) = a ∧ (m % 64 / 4 % 2 == 1) = b ∧ (m % 64 / 8 % 2 == 1) = c ∧
      (m % 64 / 16 % 2 == 1) = d := by revert a b c d; decide

theorem mmaAMod (a b c d : Bool) : let m := 1 + bn a 2 + bn b 4 + bn c 8 + bn d 16
    m % 64 < 32 ∧ m % 2 = 1 ∧ (m % 64 / 2 % 2 == 1) = a ∧ (m % 64 / 4 % 2 == 1) = b ∧ (m % 64 / 8 % 2 == 1) = c ∧
      (m % 64 / 16 % 2 == 1) = d := by revert a b c d; decide

theorem mmagMod (j a b c : Bool) : let m := bn j 1 + bn a 2 + bn b 8 + bn c 16
    m % 64 < 32 ∧ m % 64 / 4 % 2 = 0 ∧ (m % 2 == 1) = j ∧ (m % 64 / 2 % 2 == 1) = a ∧ (m % 64 / 8 % 2 == 1) = b ∧
      (m % 64 / 16 % 2 == 1) = c := by revert j a b c; decide

theorem accfMod (j a b c : Bool) : let m := bn j 1 + bn a 2 + bn b 4 + bn c 8
    m % 64 < 16 ∧ (m % 2 == 1) = j ∧ (m % 64 / 2 % 2 == 1) = a ∧ (m % 64 / 4 % 2 == 1) = b ∧
      (m % 64 / 8 % 2 == 1) = c := by revert j a b c; decide

theorem rotMod (t : VTy) (b : Bool) : let m := t.code * 8 + 1 + bn b 1
    VTy.ofCode (m % 64 / 8) = some t ∧ m % 8 ≠ 0 ∧ (m % 8 = 1 ↔ b = false) ∧ (m % 8 == 2) = b := by
  cases t <;> cases b <;> decide

theorem countMod (t : VTy) (b : Bool) : let m := t.code * 8 + 5 + bn b 1
    VTy.ofCode (m % 64 / 8) = some t ∧ ¬ m % 8 < 4 ∧ m % 8 ≠ 4 ∧ (m % 8 = 5 ↔ b = false) ∧ (m % 8 == 6) = b := by
  cases t <;> cases b <;> decide

/-- An instruction form's word decodes to it: each field is read back from the place in which the encoder put it. -/
theorem fromRaw_toRaw (i : Instr) (hform : i.isForm = true) (hwf : i.wf = true) :
    (toRaw i).bind fromRaw = some i := by
  cases i with
  | nop h =>
    show decNop _ = _
    simp [decNop]
  | br h d =>
    show decBr _ = _
    simp [decBr, imm24]
  | bri h r =>
    show decBri _ = _
    simp [decBri]
  | call h d =>
    show decCall _ = _
    simp [decCall, imm24]
  | ret h r =>
    show decRet _ = _
    simp [decRet]
  | loop h n d =>
    show decLoop _ = _
    simp [decLoop, imm24]
  | quit h =>
    show decQuit _ = _
    simp [decQuit]
  | spawn h l c d =>
    show decSpawn _ = _
    simp [decSpawn, imm24]
  | migr h l =>
    show decMigr _ = _
    simp [decMigr]
  | park h d tmo =>
    show decPark _ = _
    simp [decPark]
  | trap h code =>
    show decTrap _ = _
    simp [decTrap, imm24]
  | tret h =>
    show decTret _ = _
    simp [decTret]
  | sysr h d n =>
    show decSysr _ = _
    simp [decSysr, imm24]
    exact need_bind hwf
  | sysw h r n =>
    show decSysw _ = _
    simp [decSysw, imm24]
    exact need_bind hwf
  | add h u sat d a b =>
    show decAdd _ = _
    simp [decAdd]
  | sub h u sat d a b =>
    show decSub _ = _
    simp [decSub]
  | mul h k sat d a b =>
    show decMul _ = _
    simp [decMul, enumOf]
    exact need_bind hwf
  | div h k d a b =>
    show decDiv _ = _
    simp [decDiv, enumOf]
  | and h d a b =>
    show decAnd _ = _
    simp [decAnd]
  | or h d a b =>
    show decOr _ = _
    simp [decOr]
  | xor h d a b =>
    show decXor _ = _
    simp [decXor]
  | shl h u sat d a b =>
    show decShl _ = _
    simp [decShl]
  | shr h ar d a b =>
    show decShr _ = _
    simp [decShr]
  | min h u d a b =>
    show decMin _ = _
    simp [decMin]
  | max h u d a b =>
    show decMax _ = _
    simp [decMax]
  | cmp h cd c a b =>
    show decCmp _ = _
    simp [decCmp, enumOf]
    exact need_bind hwf
  | sel h d c a b =>
    show decSel _ = _
    simp [decSel]
  | mov h d a =>
    show decMov _ = _
    simp [decMov]
  | movi h k d imm =>
    show decMovi _ = _
    simp [decMovi, enumOf, imm48, slices_append]
  | lea h x d b x_ disp =>
    show decLea _ = _
    simp [decLea, imm24]
  | bfx h sx d a pos len =>
    show decBfx _ = _
    simp [decBfx]
  | bfi h d a pos len =>
    show decBfi _ = _
    simp [decBfi]
  | bitc h k d a =>
    show decBitc _ = _
    simp [decBitc, enumOf]
  | ld h w sx x mig ch d b x_ disp =>
    show decLd _ = _
    simp [decLd, imm24, CH.ofCode_code, -Bool.not_and]
    exact need_bind hwf
  | st h w x mig ch a b x_ disp =>
    show decSt _ = _
    simp [decSt, imm24, CH.ofCode_code]
  | atom h op u dw d a b n =>
    show decAtom _ = _
    simp [decAtom, enumOf, atomMod op u dw]
    exact need_bind hwf
  | bind h u b len o =>
    show decBind _ = _
    simp [decBind]
  | acq h x d b x_ disp =>
    show decAcq _ = _
    simp [decAcq, imm24]
  | rel h acc x v b x_ disp =>
    show decRel _ = _
    simp [decRel, relMod acc x, imm24]
  | fence h sc =>
    show decFence _ = _
    simp [decFence, enumOf]
  | idem h =>
    show decIdem _ = _
    simp [decIdem]
  | mon h x b x_ disp =>
    show decMon _ = _
    simp [decMon, imm24]
  | mwait h c a tmo =>
    show decMwait _ = _
    simp [decMwait]
  | bar h k c sense tmo =>
    show decBar _ = _
    simp [decBar, enumOf]
  | bara h a n =>
    show decBara _ = _
    simp [decBara]
  | bwait h a ph =>
    show decBwait _ = _
    simp [decBwait]
  | bwaitT h c a ph tmo =>
    show decBwaitT _ = _
    simp [decBwaitT]
  | qfence h mask =>
    show decQfence _ = _
    simp [decQfence]
  | vwidth h w d =>
    show decVwidth _ = _
    simp [decVwidth]
  | whileP h w cd d c a lim =>
    show decWhileP _ = _
    simp [decWhileP, enumOf]
    exact need_bind hwf
  | vadd h t u f sat d a b pg =>
    show decVadd _ = _
    simp [decVadd, enumOf, RM.ofCode_code]
    exact need_bind hwf
  | vsub h t u f sat d a b pg =>
    show decVsub _ = _
    simp [decVsub, enumOf, RM.ofCode_code]
    exact need_bind hwf
  | vmul h t u hi f sat d a b pg =>
    show decVmul _ = _
    simp [decVmul, enumOf, vecBits t hi u, RM.ofCode_code, -Bool.not_and]
    exact need_bind hwf
  | vfma h t np nc f sat d a b c pg =>
    show decVfma _ = _
    simp [decVfma, enumOf, vecBits t np nc, RM.ofCode_code]
    exact need_bind hwf
  | vmin h t u z d a b pg =>
    show decVmin _ = _
    simp [decVmin, enumOf]
    exact need_bind hwf
  | vmax h t u z d a b pg =>
    show decVmax _ = _
    simp [decVmax, enumOf]
    exact need_bind hwf
  | vun h t k z d a pg =>
    show decVun _ = _
    simp [decVun, enumOf, -Bool.not_and]
    exact need_bind hwf
  | vcmp h t cd z d a b pg =>
    show decVcmp _ = _
    simp [decVcmp, enumOf]
    exact need_bind hwf
  | vsel h t d ps a b =>
    show decVsel _ = _
    simp [decVsel, enumOf]
  | vlog h t k d a b pg =>
    show decVlog _ = _
    simp [decVlog, enumOf]
  | vshf h t u k sat d a b pg =>
    show decVshf _ = _
    simp [decVshf, enumOf, shfMod t u k]
    exact need_bind hwf
  | vcvt h t s2 f sat d a part pg =>
    show decVcvt _ = _
    simp [decVcvt, enumOf, RM.ofCode_code]
    exact need_bind hwf
  | vqnt h fm s2 f sat d a blk cnt =>
    show decVqnt _ = _
    simp [decVqnt, enumOf, RM.ofCode_code]
    exact need_bind hwf
  | vdqn h t f d a blk first pg =>
    show decVdqn _ = _
    simp [decVdqn, enumOf, RM.ofCode_code]
    exact need_bind hwf
  | vsfu h t fn f d a pg =>
    show decVsfu _ = _
    simp [decVsfu, enumOf, RM.ofCode_code]
    exact need_bind hwf
  | vdiv h t f d a b pg =>
    show (if _ then decVdiv _ else _) = _
    simp [decVdiv, enumOf, RM.ofCode_code]
    exact need_bind hwf
  | vdivSqrt h t f d a pg =>
    show (if _ then decVdiv _ else if _ then decVdivSqrt _ else _) = _
    simp [decVdivSqrt, enumOf, RM.ofCode_code]
    exact need_bind hwf
  | vred h t op ord f d a pg =>
    show decVred _ = _
    simp [decVred, enumOf, redMod t op ord, RM.ofCode_code]
    exact need_bind hwf
  | vperm h t d a ix pg =>
    show (if _ then decVperm _ else _) = _
    simp [decVperm, enumOf]
  | vpermRot h t dup d a k pg =>
    show (if _ then decVperm _ else if _ then decVpermRot _ else _) = _
    simp [decVpermRot, enumOf, rotMod t dup]
  | vsplat h t d a pg =>
    show decVsplat _ = _
    simp [decVsplat, enumOf]
  | vmovsX h t d a ix =>
    show (if _ then decVmovsX _ else _) = _
    simp [decVmovsX, enumOf]
  | vmovsI h t d a ix =>
    show (if _ then decVmovsX _ else if _ then decVmovsI _ else _) = _
    simp [decVmovsI, enumOf]
  | vld h w mig ch d b pg disp =>
    show decVld _ = _
    simp [decVld, imm24, CH.ofCode_code]
    exact need_bind hwf
  | vst h w mig ch src b pg disp =>
    show decVst _ = _
    simp [decVst, imm24, CH.ofCode_code]
    exact need_bind hwf
  | vgath h w x ch d b ix pg =>
    show decVgath _ = _
    simp [decVgath, CH.ofCode_code]
    exact need_bind hwf
  | vscat h w x ch src b ix pg =>
    show decVscat _ = _
    simp [decVscat, CH.ofCode_code]
    exact need_bind hwf
  | plog h t k d a b pg =>
    show (if _ then decPlog _ else _) = _
    simp [decPlog, enumOf, LogK.code_lt4 k]
  | plogNot h t d a pg =>
    show (if _ then decPlog _ else if _ then decPlogNot _ else _) = _
    simp [decPlogNot, enumOf]
  | plogCount h t first d a pg =>
    show (if _ then decPlog _ else if _ then decPlogNot _ else if _ then decPlogCount _ else _) = _
    simp [decPlogCount, enumOf, countMod t first]
  | plogAny h t c a pg =>
    show (if _ then decPlog _ else if _ then decPlogNot _ else if _ then decPlogCount _
        else if _ then decPlogAny _ else _) = _
    simp [decPlogAny, enumOf]
  | vdot h k f sat d a b pg =>
    show decVdot _ = _
    simp [decVdot, enumOf, RM.ofCode_code]
    exact need_bind hwf
  | vsmul h t f sat d a c off pg =>
    show decVsmul _ = _
    simp [decVsmul, enumOf, RM.ofCode_code]
  | tshape h tl v =>
    show decTshape _ = _
    simp [decTshape]
  | tld h tl b st disp =>
    show decTld _ = _
    simp [decTld, imm24]
  | tst h tl b st disp =>
    show decTst _ = _
    simp [decTst, imm24]
  | mma h bt r64 c64 set z ac ta tb =>
    show (if _ then decMma _ else _) = _
    simp [decMma, mmaMod bt r64 c64 set]
  | mmaA h bt r64 c64 set z j ac ta tb =>
    show (if _ then decMma _ else if _ then decMmaA _ else _) = _
    simp [decMmaA, mmaAMod bt r64 c64 set]
  | mmag h bt c64 set z j ac ta tb l =>
    show decMmag _ = _
    simp [decMmag, mmagMod j.isSome bt c64 set]
  | accf h z c nf f sat j ac =>
    show decAccf _ = _
    simp [decAccf, accfMod j.isSome z c nf, RM.ofCode_code]
    exact need_bind hwf
  | tmap h a =>
    show decTmap _ = _
    simp [decTmap]
  | tmapR h a =>
    show decTmapR _ = _
    simp [decTmapR]
  | copy h d2 wb ch j q dst src n =>
    show decCopy _ = _
    simp [decCopy, copyMod d2 wb, CH.ofCode_code]
    exact need_bind hwf
  | jwait h j gt =>
    show decJwait _ = _
    simp [decJwait]
  | jwaitP h c j gt =>
    show decJwaitP _ = _
    simp [decJwaitP]
  | holdW h k l =>
    show decHoldW _ = _
    simp [decHoldW]
  | holdT h c k l =>
    show decHoldT _ = _
    simp [decHoldT]
  | hrel h k l =>
    show decHrel _ = _
    simp [decHrel]
  | seek h dir k a l disp =>
    show decSeek _ = _
    simp [decSeek, enumOf, imm24]
  | rds h sx d k l =>
    show decRds _ = _
    simp [decRds]
  | wrs h k a l =>
    show decWrs _ = _
    simp [decWrs]
  | vrds h d kg l =>
    show decVrds _ = _
    simp [decVrds]
  | vwrs h kg src pg =>
    show decVwrs _ = _
    simp [decVwrs]
  | rwnd h e k l =>
    show decRwnd _ = _
    simp [decRwnd]
  | hpos h d k l =>
    show decHpos _ = _
    simp [decHpos]
  | chain h d a =>
    show decChain _ = _
    simp [decChain]
  | get h d c =>
    show decGet _ = _
    simp [decGet]
  | put h a =>
    show decPut _ = _
    simp [decPut]
  | putE h =>
    show decPutE _ = _
    simp [decPutE]
  | chmodeQ h d id =>
    show decChmodeQ _ = _
    simp [decChmodeQ]
  | chmodeOcc h d q id =>
    show decChmodeOcc _ = _
    simp [decChmodeOcc]
  | chmodeFold h id =>
    show decChmodeFold _ = _
    simp [decChmodeFold]
  | chmodeSpread h id =>
    show decChmodeSpread _ = _
    simp [decChmodeSpread]
  | chmodeAuto h id =>
    show decChmodeAuto _ = _
    simp [decChmodeAuto]
  | ftile h d c =>
    show decFtile _ = _
    simp [decFtile]
  | dpush h c a b =>
    show decDpush _ = _
    simp [decDpush]
  | dpop h a b c =>
    show decDpop _ = _
    simp [decDpop]
  | dsteal h a b c l =>
    show decDsteal _ = _
    simp [decDsteal]
  | ssend h cl l p a =>
    show decSsend _ = _
    simp [decSsend]
  | srecv h d c p =>
    show decSrecv _ = _
    simp [decSrecv]
  | mapv h d =>
    show decMapv _ = _
    simp [decMapv]
  | mapvA h d =>
    show decMapvA _ = _
    simp [decMapvA]
  | mapack h w =>
    show decMapack _ = _
    simp [decMapack]
  | collAr h j dst src n mk =>
    show decCollAr _ = _
    simp [decCollAr]
  | collBc h j dst src n mk =>
    show decCollBc _ = _
    simp [decCollBc]
  | collAg h j dst src n mk =>
    show decCollAg _ = _
    simp [decCollAg]
  | tlbiCtx h c =>
    show decTlbiCtx _ = _
    simp [decTlbiCtx]
  | tlbiPg h c v =>
    show decTlbiPg _ = _
    simp [decTlbiPg]
  | tlbiRng h c v n =>
    show decTlbiRng _ = _
    simp [decTlbiRng]
  | tlbiAll h =>
    show decTlbiAll _ = _
    simp [decTlbiAll]
  | kill h f d c =>
    show decKill _ = _
    simp [decKill]
  | ctxSave h d c l =>
    show decCtxSave _ = _
    simp [decCtxSave]
  | ctxLoad h d c l =>
    show decCtxLoad _ = _
    simp [decCtxLoad]
  | ctxMig h d c l p =>
    show decCtxMig _ = _
    simp [decCtxMig]
  | ctxRd h d c ix =>
    show decCtxRd _ = _
    simp [decCtxRd]
  | ctxWr h c v ix =>
    show decCtxWr _ = _
    simp [decCtxWr]
  | ctxRes h c =>
    show decCtxRes _ = _
    simp [decCtxRes]
  | ctxTv h a =>
    show decCtxTv _ = _
    simp [decCtxTv]
  | ctxSlot h d a =>
    show decCtxSlot _ = _
    simp [decCtxSlot]
  | pgrefQ h d c v =>
    show decPgrefQ _ = _
    simp [decPgrefQ]
  | pgrefRm h d c v e =>
    show decPgrefRm _ = _
    simp [decPgrefRm]
  | pgrefSh h d c v sv n =>
    show decPgrefSh _ = _
    simp [decPgrefSh]
  | pgrefDr h d c v =>
    show decPgrefDr _ = _
    simp [decPgrefDr]
  | pgrefAdj h d c v delta =>
    show decPgrefAdj _ = _
    simp [decPgrefAdj]
  | pgrefWk h c v =>
    show decPgrefWk _ = _
    simp [decPgrefWk]
  | pgrefClr h d p =>
    show decPgrefClr _ = _
    simp [decPgrefClr]
  | mgmtLog h c a =>
    show decMgmtLog _ = _
    simp [decMgmtLog]
  | mgmtTmr h tm =>
    show decMgmtTmr _ = _
    simp [decMgmtTmr]
  | mgmtRetire h d k r =>
    show decMgmtRetire _ = _
    simp [decMgmtRetire]
  | mgmtFwsel h b =>
    show decMgmtFwsel _ = _
    simp [decMgmtFwsel]
  | mgmtFwcommit h =>
    show decMgmtFwcommit _ = _
    simp [decMgmtFwcommit]
  | mgmtQuote h d n =>
    show decMgmtQuote _ = _
    simp [decMgmtQuote]
  | _ => cases hform

/-- The instruction forms are what has a word. -/
theorem encode_isSome (i : Instr) : (encode i).isSome = i.isForm := by cases i <;> rfl

/-- Settles O55: the fields of a form's word are found again (`unpack_pack`), and its decoder reads them back. -/
theorem decodeEncode : Obligations.DecodeEncode := by
  intro i hform hwf
  have h := fromRaw_toRaw i hform hwf
  obtain ⟨raw, hraw, hdec⟩ := Option.bind_eq_some_iff.mp h
  refine ⟨pack raw, by rw [encode, hraw, Option.map_some], ?_⟩
  rw [decode, unpack_pack, hdec]

/-- Settles O56: each decoder answers only where the word's every field is what its instruction's word has. -/
theorem encodeDecode : Obligations.EncodeDecode := by
  intro w i h
  obtain ⟨hwf, hraw⟩ := toRaw_of_fromRaw h
  have hw : encode i = some w := by rw [encode, hraw, Option.map_some, pack_unpack]
  exact ⟨by rw [← encode_isSome, hw, Option.isSome_some], hwf, hw⟩

end Sys2Proof.Proofs

/-! ### Scalar arithmetic (R134 to R137) -/

namespace Sys2Proof.Proofs

open Sys2Proof.Machine Sys2Proof.Slice0 Sys2Proof.Laws

/-! #### The results as words -/

/-- The model's clamp is the clamp by minimum and maximum. -/
theorem clampI_eq {lo hi : Int} (h : lo ≤ hi) (x : Int) : clampI x lo hi = max lo (min x hi) := by
  rw [clampI]
  split
  · omega
  · split <;> omega

theorem narrow_eq_given (u sat : Bool) (x : Int) : narrow u sat x = given u sat x := by
  cases sat with
  | false => rfl
  | true =>
    cases u with
    | false => exact congrArg w64i (clampI_eq (by decide) x)
    | true => exact congrArg w64i (clampI_eq (by decide) x)

/-- The high word of a signed product. -/
theorem mulVal_hi (sat : Bool) (a b : Word) :
    mulVal .hi sat a b = (a.signExtend 128 * b.signExtend 128).extractLsb' 64 64 := by
  rw [BitVec.signExtend, BitVec.signExtend, ← BitVec.ofInt_mul]
  apply BitVec.eq_of_toNat_eq
  rw [mulVal, w64i, BitVec.toNat_ofInt, BitVec.extractLsb'_toNat, BitVec.toNat_ofInt]
  generalize a.toInt * b.toInt = p
  rw [Nat.shiftRight_eq_div_pow]
  omega

/-- The high word of an unsigned product. -/
theorem mulVal_hiu (sat : Bool) (a b : Word) :
    mulVal .hiu sat a b = (a.setWidth 128 * b.setWidth 128).extractLsb' 64 64 := by
  have ha := a.isLt
  have hb := b.isLt
  have hlt : a.toNat * b.toNat < 2 ^ 128 := by
    calc a.toNat * b.toNat < 2 ^ 64 * 2 ^ 64 := Nat.mul_lt_mul'' ha hb
      _ = 2 ^ 128 := by decide
  apply BitVec.eq_of_toNat_eq
  rw [mulVal, w64, BitVec.toNat_ofNat, BitVec.extractLsb'_toNat, BitVec.toNat_mul, BitVec.toNat_setWidth,
    BitVec.toNat_setWidth, Nat.mod_eq_of_lt (by omega : a.toNat < 2 ^ 128),
    Nat.mod_eq_of_lt (by omega : b.toNat < 2 ^ 128), Nat.mod_eq_of_lt hlt, Nat.shiftRight_eq_div_pow]

theorem shlVal_of_lt {u sat : Bool} {a : Int} {b : Nat} (hb : b < 64) : shlVal u sat a b = given u sat (a * 2 ^ b) := by
  rw [shlVal, if_pos hb, narrow_eq_given]

theorem asInt_eq_zero_iff (u : Bool) (x : Word) : asInt u x = 0 ↔ x = 0 := by
  cases u with
  | false => simp [asInt, ← BitVec.toInt_inj]
  | true => simp [asInt, BitVec.toNat_eq]

/-- A word is negative if it is signed and its top bit is set. -/
theorem asInt_neg_iff (u : Bool) (x : Word) : asInt u x < 0 ↔ u = false ∧ x.msb = true := by
  cases u with
  | false => simp [asInt, BitVec.msb_eq_toInt]
  | true => simp [asInt]

/-- Shifted out of the word: 0, or the end of the range that the exact result lies beyond. -/
theorem shlVal_of_ge {u sat : Bool} {a : Word} {b : Nat} (hb : 64 ≤ b) : shlVal u sat (asInt u a) b =
    if sat = false ∨ a = 0 then 0
    else if u then 0xFFFFFFFFFFFFFFFF
    else if a.msb then 0x8000000000000000 else 0x7FFFFFFFFFFFFFFF := by
  rw [shlVal, if_neg (Nat.not_lt.mpr hb)]
  simp only [asInt_neg_iff, bne_iff_ne, ne_eq, asInt_eq_zero_iff, Bool.and_eq_true]
  cases sat with
  | false => simp
  | true =>
    by_cases ha : a = 0
    · simp [ha]
    · cases u with
      | true =>
        have hclamp : narrow true true 18446744073709551616 = 18446744073709551615#64 := by decide
        simp [hclamp]
      | false => cases hm : a.msb <;> simp only [ha] <;> decide

theorem divVal_q (a b : Word) : divVal .q a b = a.sdiv b := by
  apply BitVec.eq_of_toInt_eq
  rw [divVal, w64i, BitVec.toInt_ofInt, BitVec.toInt_sdiv]

theorem divVal_r (a b : Word) : divVal .r a b = a.srem b := by
  rw [divVal, w64i, ← BitVec.toInt_srem, BitVec.ofInt_toInt]

theorem divVal_qu (a b : Word) : divVal .qu a b = a / b := by
  rw [divVal, w64, ← BitVec.toNat_udiv, BitVec.ofNat_toNat, BitVec.setWidth_eq]

theorem divVal_ru (a b : Word) : divVal .ru a b = a % b := by
  rw [divVal, w64, ← BitVec.toNat_umod, BitVec.ofNat_toNat, BitVec.setWidth_eq]

theorem shrVal_logical (a : Word) (b : Nat) : shrVal false a b = a >>> b := by
  have ha := a.isLt
  apply BitVec.eq_of_toNat_eq
  rw [BitVec.toNat_ushiftRight, Nat.shiftRight_eq_div_pow, shrVal, if_neg Bool.false_ne_true]
  have hle : a.toNat / 2 ^ b ≤ a.toNat := Nat.div_le_self _ _
  split
  next h => rw [w64, BitVec.toNat_ofNat, Nat.mod_eq_of_lt (by omega)]
  next h =>
    have hpow : 2 ^ 64 ≤ 2 ^ b := Nat.pow_le_pow_right (by decide) (Nat.not_lt.mp h)
    rw [Nat.div_eq_of_lt (by omega)]
    rfl

/-- A shift by 64 or more leaves the sign, as a shift by 64 does. -/
theorem shrVal_arithmetic (a : Word) (b : Nat) : shrVal true a b = a.sshiftRight b := by
  have hlo := BitVec.le_two_mul_toInt (x := a)
  have hhi := BitVec.two_mul_toInt_lt (x := a)
  rw [shrVal, if_pos rfl, BitVec.sshiftRight, w64i, Int.shiftRight_eq_div_pow]
  rcases Nat.le_total b 64 with h | h
  · rw [Nat.min_eq_left h]; norm_cast
  · rw [Nat.min_eq_right h]
    have hpow : (2 : Int) ^ 64 ≤ 2 ^ b := by exact_mod_cast Nat.pow_le_pow_right (by decide) h
    have hcast (n : Nat) : ((2 ^ n : Nat) : Int) = 2 ^ n := Int.natCast_pow 2 n
    congr 1
    rcases Int.lt_or_le a.toInt 0 with hn | hp
    · rw [Int.ediv_eq_neg_one_of_neg_of_le hn (by omega), hcast, Int.ediv_eq_neg_one_of_neg_of_le hn (by omega)]
    · rw [Int.ediv_eq_zero_of_lt hp (by omega), hcast, Int.ediv_eq_zero_of_lt hp (by omega)]

/-! #### The instructions, issued -/

/-- Under its guards and with nothing to suppress it an instruction has its effect. -/
theorem issued {h : Hdr} {s : State} {eff : State → State} (hs : Issues h s) : issue h s eff = .next (eff s) :=
  issue_runs hs.1 hs.2

section Issued

variable {h : Hdr} {s : State} (hs : Issues h s)
include hs

theorem exec_add (u sat : Bool) (d : Fin 16) (a b : GI) : exec (.add h u sat d a b) s =
    .next (retire h (setG s d (given u sat (int u (giVal s a) + int u (giVal s b))))) := by
  show execAdd h u sat d a b s = _
  rw [execAdd, issued hs, resultG, narrow_eq_given]
  rfl

theorem exec_sub (u sat : Bool) (d : Fin 16) (a b : GI) : exec (.sub h u sat d a b) s =
    .next (retire h (setG s d (given u sat (int u (giVal s a) - int u (giVal s b))))) := by
  show execSub h u sat d a b s = _
  rw [execSub, issued hs, resultG, narrow_eq_given]
  rfl

theorem exec_mul (k : MulK) (sat : Bool) (d : Fin 16) (a b : GI) : exec (.mul h k sat d a b) s =
    .next (holdFor 3 (retire h (setG s d (mulVal k sat (giVal s a) (giVal s b))))) := by
  show execMul h k sat d a b s = _
  rw [execMul, issued hs, resultG]

theorem exec_shl (u sat : Bool) (d : Fin 16) (a b : GI) : exec (.shl h u sat d a b) s =
    .next (retire h (setG s d (shlVal u sat (asInt u (giVal s a)) (giVal s b).toNat))) := by
  show execShl h u sat d a b s = _
  rw [execShl, issued hs, resultG]

theorem exec_div (k : DivK) (d : Fin 16) (a b : GI) : exec (.div h k d a b) s =
    .next (if giVal s b = 0 then trapHere s cDIVZ (giVal s a)
      else holdFor 20 (retire h (setG s d (divVal k (giVal s a) (giVal s b))))) := by
  show execDiv h k d a b s = _
  rw [execDiv, issued hs]
  rfl

theorem exec_div_of_ne_zero (k : DivK) (d : Fin 16) {a b : GI} (hb : giVal s b ≠ 0) : exec (.div h k d a b) s =
    .next (holdFor 20 (retire h (setG s d (divVal k (giVal s a) (giVal s b))))) := by
  rw [exec_div hs, if_neg hb]

theorem exec_cmp (r : Rel) (v : Bool) (c : Fin 32) (a b : GI) : exec (.cmp h ⟨r, v⟩ c a b) s =
    .next (retire h (setC s c (relInt r (asInt v (giVal s a)) (asInt v (giVal s b))))) := by
  show execCmp h ⟨r, v⟩ c a b s = _
  rw [execCmp, issued hs, resultC, condInt]

theorem exec_movi (k : MoviK) (d : Fin 16) (imm : BitVec 48) : exec (.movi h k d imm) s =
    .next (retire h (setG s d (moviVal k (gVal s d) imm))) := by
  show execMovi h k d imm s = _
  rw [execMovi, issued hs, resultG]

theorem exec_lea (x : Fin 4) (d b : Fin 16) (r : Option (Fin 16)) (disp : BitVec 24) : exec (.lea h x d b r disp) s =
    .next (retire h (setG s d (w64 (effAddr s b r x disp)))) := by
  show execLea h x d b r disp s = _
  rw [execLea, issued hs, resultG]

end Issued

/-- Settles O1: each of the four gives its exact result, narrowed (`narrow_eq_given`) or cut (`mulVal_hi`). -/
theorem addSubMulShl : Obligations.AddSubMulShl := by
  intro h u sat d a b s hs
  refine ⟨exec_add hs .., exec_sub hs .., ?_, ?_, ?_, ?_, fun hb => ?_, fun hb => ?_⟩
  · rw [exec_mul hs, mulVal, narrow_eq_given]; rfl
  · rw [exec_mul hs, mulVal, narrow_eq_given]; rfl
  · rw [exec_mul hs, mulVal_hi]
  · rw [exec_mul hs, mulVal_hiu]
  · rw [exec_shl hs, shlVal_of_lt hb]; rfl
  · rw [exec_shl hs, shlVal_of_ge hb]

/-- Settles O2: the words' own quotients and remainders are those of the integers, truncated. -/
theorem divResult : Obligations.DivResult := by
  intro h d a b s hs hb
  exact ⟨by rw [exec_div_of_ne_zero hs _ _ hb, divVal_q], by rw [exec_div_of_ne_zero hs _ _ hb, divVal_r],
    by rw [exec_div_of_ne_zero hs _ _ hb, divVal_qu], by rw [exec_div_of_ne_zero hs _ _ hb, divVal_ru]⟩

/-- Settles O3: the trap has nothing to wait for and a handler, so its entry is taken. -/
theorem divByZero : Obligations.DivByZero := by
  intro h k d a b s hs hb hres htvec hinh
  rw [exec_div hs, if_pos hb, trapHere, trap_enters hres htvec hinh]
  exact ⟨_, rfl, restSame_putT s _, by simp [trapEntry, cDIVZ]⟩

theorem asInt_inj {v : Bool} {x y : Word} : asInt v x = asInt v y ↔ x = y := by
  cases v with
  | false => simp [asInt, BitVec.toInt_inj]
  | true => exact Int.ofNat_inj.trans BitVec.toNat_inj

theorem asInt_beq (v : Bool) (x y : Word) : (asInt v x == asInt v y) = (x == y) := by
  rw [Bool.eq_iff_iff, beq_iff_eq, beq_iff_eq, asInt_inj]

/-- The greater of two words, whichever of two equal ones is taken. -/
theorem max_swap (u : Bool) (x y : Word) :
    (if asInt u x ≤ asInt u y then y else x) = if asInt u y ≤ asInt u x then x else y := by
  rcases Int.lt_trichotomy (asInt u x) (asInt u y) with h | h | h
  · rw [if_pos (Int.le_of_lt h), if_neg (Int.not_le.mpr h)]
  · rw [asInt_inj.mp h]
  · rw [if_neg (Int.not_le.mpr h), if_pos (Int.le_of_lt h)]

/-- Settles O4: SHR's two forms are shifts of words, and the conditions compare the operands as integers. -/
theorem logicShiftCompare : Obligations.LogicShiftCompare := by
  intro h d c a b s hs
  refine ⟨?and, ?or, ?xor, ?shr, ?sar, fun u => ?min, fun u => ?max, ?sel, ?mov, fun v => ?eq, fun v => ?ne,
    fun _ => exec_cmp hs .., fun _ => exec_cmp hs .., fun _ => exec_cmp hs .., fun _ => exec_cmp hs ..⟩
  case and => show execAnd .. = _; rw [execAnd, issued hs, resultG]
  case or => show execOr .. = _; rw [execOr, issued hs, resultG]
  case xor => show execXor .. = _; rw [execXor, issued hs, resultG]
  case shr => show execShr .. = _; rw [execShr, issued hs, resultG, shrVal_logical]
  case sar => show execShr .. = _; rw [execShr, issued hs, resultG, shrVal_arithmetic]
  case min => show execMin .. = _; rw [execMin, issued hs, resultG]; rfl
  case max => show execMax .. = _; rw [execMax, issued hs, resultG, max_swap]; rfl
  case sel => show execSel .. = _; rw [execSel, issued hs, resultG, cVal]
  case mov => show execMov .. = _; rw [execMov, issued hs, resultG]
  case eq => rw [exec_cmp hs]; simp [relInt, asInt_beq]
  case ne => rw [exec_cmp hs]; simp [relInt, bne, asInt_beq]

theorem moviVal_hi (old : Word) (imm : BitVec 48) :
    moviVal .hi old imm = (imm.setWidth 64 <<< 16) ||| (old &&& 0xFFFF) := by
  have hmask : ∀ i : Fin 64, (0xFFFF : Word).getLsbD i.val = decide (i.val < 16) := by decide
  apply BitVec.eq_of_getLsbD_eq
  intro i hi
  rw [moviVal, BitVec.getLsbD_append, BitVec.getLsbD_or, BitVec.getLsbD_and, hmask ⟨i, hi⟩, BitVec.getLsbD_shiftLeft,
    BitVec.getLsbD_setWidth, BitVec.getLsbD_extractLsb']
  by_cases hlow : i < 16
  · simp [hlow]
  · simp [hlow, hi, show i - 16 < 64 by omega]

/-- An effective address is base, scaled index and displacement, added as words. -/
theorem effAddr_eq (s : State) (b : Fin 16) (r : Option (Fin 16)) (x : Fin 4) (disp : BitVec 24) :
    w64 (effAddr s b r x disp) = gVal s b + (r.elim 0 fun r => gVal s r <<< x.val) + disp.signExtend 64 := by
  have hscale (v : Word) : v * w64 (2 ^ x.val) = v <<< x.val := by
    rw [BitVec.shiftLeft_eq_mul_twoPow]
    congr 1
    revert x; decide
  have hword (v : Word) : w64 v.toNat = v := by rw [w64, BitVec.ofNat_toNat, BitVec.setWidth_eq]
  cases r with
  | none => rw [effAddr, hword]; rfl
  | some r => rw [effAddr, hword]; simp only [hscale]; rfl

/-- Settles O5. -/
theorem moviLea : Obligations.MoviLea := by
  intro h d b r x imm disp s hs
  refine ⟨exec_movi hs .sx .., exec_movi hs .z .., ?_, ?_, ?_⟩
  · rw [exec_movi hs, moviVal_hi]
  · rw [exec_lea hs, effAddr_eq]; simp
  · rw [exec_lea hs, effAddr_eq]; rfl

/-! ### The frames of scalar instructions, and the end of a run (R63 to R65, R101, R110) -/

section Frame

variable {h : Hdr} {s t : State} {i : Instr} {d : Fin 16}

/-- The executing thread, replaced twice, is the second one. -/
theorem putT_again (s : State) (a b : Thread) : putT (putT s a) b = putT s b := by
  simp [putT, setT]

theorem retire_setG (hsw : h.sw = false) (x : Word) : retire h (setG s d x) = putT s { writeG (curT s) d x with
    run := runAt (curT s), pc := nextPc (curT s).pc, hold := s.clock + 1 + h.pace.val } := by
  rw [retire_plain hsw, setG, putT_again, curT_putT]
  rfl

theorem retire_setC (hsw : h.sw = false) (c : Fin 32) (b : Bool) :
    retire h (setC s c b) = putT s { writeC (curT s) c b with
      run := runAt (curT s), pc := nextPc (curT s).pc, hold := s.clock + 1 + h.pace.val } := by
  rw [retire_plain hsw, setC, putT_again, curT_putT]
  rfl

/-- Writing a predicate leaves the others; c0 takes no write. -/
theorem getLsbD_setPw_of_ne (pw : W32) (b : Bool) {c k : Fin 32} (hk : k ≠ c ∨ k = 0) :
    (setPw pw c b).getLsbD k.val = pw.getLsbD k.val := by
  rw [setPw]
  split
  next => rfl
  next hc =>
    have hne : k.val ≠ c.val := fun h => by grind
    have hbit : (1#32 <<< c.val).getLsbD k.val = false := by
      simp only [BitVec.getLsbD_shiftLeft, BitVec.getLsbD_one]
      grind
    split
    · rw [BitVec.getLsbD_or, hbit, Bool.or_false]
    · rw [BitVec.getLsbD_and, BitVec.getLsbD_not, hbit]
      simp

/-- With no deferred trap the end of a run begins the next one. -/
theorem finishRun_of_not_deferred {x : Thread} (hd : deferred x = none) :
    finishRun (putT s x) s.cur = putT s { x with run := {}, ended := false } := by
  have hx : getT (putT s x) s.cur = x := curT_putT s x
  rw [finishRun, hx]
  simp only [hd]
  exact putT_again s x _

/-- A thread has done one scalar instruction: its register d may differ, and how far its run and its hold are. -/
def WroteG (d : Fin 16) (a b : Thread) : Prop :=
  SpecialSame a b ∧ (∀ r : Fin 16, r ≠ d → b.g[r] = a.g[r]) ∧ b.pw = a.pw ∧ b.v = a.v ∧ b.p = a.p ∧ b.pc = nextPc a.pc

theorem WroteG.hold {a b : Thread} (hw : WroteG d a b) (n : Nat) : WroteG d a { b with hold := n } := hw

theorem wroteG_setG (hsw : h.sw = false) (x : Word) :
    ∃ b, retire h (setG s d x) = putT s b ∧ WroteG d (curT s) b := by
  refine ⟨_, retire_setG hsw x, by simp [SpecialSame], fun r hr => ?_, rfl, rfl, rfl, rfl⟩
  simpa using Vector.getElem_set_ne d.isLt r.isLt (fun hv => hr (Fin.ext hv.symm))

theorem wroteG_skip (hsw : h.sw = false) : ∃ b, retire h s = putT s b ∧ WroteG d (curT s) b :=
  ⟨_, retire_plain hsw, by simp [SpecialSame], fun _ _ => rfl, rfl, rfl, rfl, rfl⟩

theorem wroteG_holdFor {n : Nat} (ht : ∃ b, t = putT s b ∧ WroteG d (curT s) b) :
    ∃ b, holdFor n t = putT s b ∧ WroteG d (curT s) b := by
  obtain ⟨b, rfl, hw⟩ := ht
  exact ⟨_, by rw [holdFor, putT_again, curT_putT], hw.hold _⟩

/-- Each of the scalar instructions writes its register and completes; MUL holds its thread, too. -/
theorem exec_scalar (hi : scalarDst i = some (h, d)) : ∃ f : State → Word,
    (∀ s, exec i s = issue h s fun s => resultG h d (f s) s) ∨
    (∀ s, exec i s = issue h s fun s => holdFor 3 (resultG h d (f s) s)) := by
  cases i with
  | mul => cases hi; exact ⟨_, .inr fun _ => rfl⟩
  | add | sub | and | or | xor | shl | shr | min | max | sel | mov | movi | lea | bfx | bfi | bitc =>
    cases hi; exact ⟨_, .inl fun _ => rfl⟩
  | _ => cases hi

end Frame

/-- Settles O8: every one of them ends in a state that differs in the executing thread alone. -/
theorem scalarFrame : Obligations.ScalarFrame := by
  refine ⟨fun i h d s t hi hsw ht => ?_, fun h cd c a b s t hsw ht => ?_⟩
  · have hb : ∃ b, t = putT s b ∧ WroteG d (curT s) b := by
      obtain ⟨f, he | he⟩ := exec_scalar hi
      · rcases issue_cases ((he s).symm.trans ht) with rfl | rfl
        · exact wroteG_setG hsw (f s)
        · exact wroteG_skip hsw
      · rcases issue_cases ((he s).symm.trans ht) with rfl | rfl
        · exact wroteG_holdFor (wroteG_setG hsw (f s))
        · exact wroteG_skip hsw
    obtain ⟨b, rfl, hw⟩ := hb
    rw [curT_putT]
    exact ⟨restSame_putT s b, hw⟩
  · have he : exec (.cmp h cd c a b) s = issue h s fun s => resultC h c (condInt cd (giVal s a) (giVal s b)) s := rfl
    rcases issue_cases (he.symm.trans ht) with rfl | rfl
    · rw [resultC, retire_setC hsw, curT_putT]
      exact ⟨restSame_putT s _, by simp [SpecialSame], rfl, rfl, rfl, rfl, fun k hk => getLsbD_setPw_of_ne _ _ hk⟩
    · rw [retire_plain hsw, curT_putT]
      exact ⟨restSame_putT s _, by simp [SpecialSame], rfl, rfl, rfl, rfl, fun _ _ => rfl⟩

/-- Settles O9. -/
theorem scalarResult : Obligations.ScalarResult := by
  intro h d x s hsw
  rw [retire_setG hsw, curT_putT]
  exact ⟨restSame_putT s _, rfl⟩

/-- Settles O10: at the marker the thread waits for its results, or, with none and no deferred trap, begins a new
run. -/
theorem runEnds : Obligations.RunEnds := by
  intro h s hsw
  have hwait (hres : (curT s).res ≠ []) : retire h s = putT s { curT s with
      run := runAt (curT s), pc := nextPc (curT s).pc, hold := s.clock + 1 + h.pace.val, ended := true } := by
    simp [retire, retireTo, hsw, hres]
  have hgo (hres : (curT s).res = [])
      (hdef : deferred { curT s with run := runAt (curT s), pc := nextPc (curT s).pc } = none) :
      retire h s = putT s { curT s with
        run := {}, pc := nextPc (curT s).pc, hold := s.clock + 1 + h.pace.val, ended := false } := by
    rw [retire, retireTo, if_pos hsw, if_pos hres]
    exact finishRun_of_not_deferred hdef
  refine ⟨fun hres => by rw [hwait hres, curT_putT], fun hres hdef => by rw [hgo hres hdef, curT_putT], fun hor => ?_⟩
  by_cases hres : (curT s).res = []
  · rw [hgo hres (hor.resolve_left (not_not_intro hres))]
    exact restSame_putT s _
  · rw [hwait hres]
    exact restSame_putT s _

end Sys2Proof.Proofs

/-! ### Memory (R141, R142) -/

namespace Sys2Proof.Proofs

open Sys2Proof.Machine Sys2Proof.Slice0 Sys2Proof.Laws

theorem wfFrom_cons_iff {lo a : Nat} {b : Byte} {m : Memory} : Memory.wfFrom lo ((a, b) :: m) = true ↔
    lo ≤ a ∧ b ≠ Memory.unlisted ∧ Memory.wfFrom (a + 1) m = true := by
  simp [Memory.wfFrom, and_assoc]

theorem read_cons_same (a : Nat) (b : Byte) (m : Memory) : Memory.read ((a, b) :: m) a = b := if_pos rfl

theorem read_cons_ne {a c : Nat} (b : Byte) (m : Memory) (h : c ≠ a) :
    Memory.read ((a, b) :: m) c = Memory.read m c := if_neg h

/-- In canonical form the first listed address is the first that reads as no unlisted one does. -/
theorem not_read_eq_of_lt {lo a a' : Nat} {b b' : Byte} {m n : Memory} (hm : Memory.wfFrom lo ((a, b) :: m) = true)
    (hn : Memory.wfFrom lo ((a', b') :: n) = true) (hlt : a < a') :
    Memory.read ((a, b) :: m) a ≠ Memory.read ((a', b') :: n) a := by
  obtain ⟨_, hb, _⟩ := wfFrom_cons_iff.mp hm
  obtain ⟨_, hb', hrest⟩ := wfFrom_cons_iff.mp hn
  have hfrom : Memory.wfFrom a' ((a', b') :: n) = true := wfFrom_cons_iff.mpr ⟨Nat.le_refl _, hb', hrest⟩
  rw [read_cons_same, read_below hfrom hlt]
  exact hb

/-- Memories in canonical form that read alike are the same. -/
theorem eq_of_read_eq {lo : Nat} {m n : Memory} (hm : Memory.wfFrom lo m = true) (hn : Memory.wfFrom lo n = true)
    (h : ∀ a, Memory.read m a = Memory.read n a) : m = n := by
  induction m generalizing lo n with
  | nil =>
    cases n with
    | nil => rfl
    | cons c n =>
      obtain ⟨_, hb, _⟩ := wfFrom_cons_iff.mp hn
      exact absurd ((h c.1).trans (read_cons_same _ _ _)).symm hb
  | cons c m ih =>
    obtain ⟨_, hb, hrest⟩ := wfFrom_cons_iff.mp hm
    cases n with
    | nil => exact absurd ((read_cons_same _ _ _).symm.trans (h c.1)) hb
    | cons c' n =>
      obtain ⟨a, b⟩ := c
      obtain ⟨a', b'⟩ := c'
      rcases Nat.lt_trichotomy a a' with hlt | rfl | hlt
      · exact absurd (h a) (not_read_eq_of_lt hm hn hlt)
      · obtain ⟨_, _, hrest'⟩ := wfFrom_cons_iff.mp hn
        have hb : b = b' := by simpa only [read_cons_same] using h a
        have htail : m = n := ih hrest hrest' fun c => by
          rcases Decidable.em (c = a) with rfl | hne
          · rw [read_below hrest (Nat.lt_succ_self _), read_below hrest' (Nat.lt_succ_self _)]
          · simpa only [read_cons_ne _ _ hne] using h c
        rw [hb, htail]
      · exact absurd (h a').symm (not_read_eq_of_lt hn hm hlt)

/-- Bytes written at locations all different read back, and every other location keeps its byte. -/
theorem read_writes_nodup {m : Memory} {cells : List (Nat × Byte)} (hm : Memory.wf m = true)
    (hnd : (cells.map (·.1)).Nodup) (a : Nat) : Memory.read (Memory.writes m cells) a =
      match cells.find? fun c => c.1 == a with
      | some c => c.2
      | none => Memory.read m a := by
  induction cells generalizing m with
  | nil => rfl
  | cons c cells ih =>
    obtain ⟨hnot, hnd⟩ := List.nodup_cons.mp hnd
    rw [Memory.writes, List.foldl_cons]
    rcases Decidable.em (c.1 = a) with rfl | hne
    · have hother : ∀ e ∈ cells, e.1 ≠ c.1 := fun e he h => hnot (List.mem_map.mpr ⟨e, he, h⟩)
      rw [List.find?_cons_of_pos (by simp)]
      exact (read_writes_other hother).trans (read_write_same _ _ hm)
    · rw [List.find?_cons_of_neg (by simpa using hne)]
      refine (ih (write_wf _ _ hm) hnd).trans ?_
      split
      · rfl
      · exact read_write_ne _ (Ne.symm hne)

/-- Settles O60: a write reads back, canonical memories are told apart by reading, and `append` writes a list
of bytes. -/
theorem memoryReadsBack : Obligations.MemoryReadsBack := by
  refine ⟨fun m a b x hm => ⟨write_wf a x hm, read_write a b x hm⟩, fun m n hm hn h => eq_of_read_eq hm hn h,
    fun s cells who hm => ⟨?_, append_time s cells who, fun hnd a => ?_⟩⟩
  · rw [MemOk, append_mem]
    exact writes_wf cells hm
  · rw [append_mem]
    exact read_writes_nodup hm hnd a

end Sys2Proof.Proofs

/-! ### Stores drain (R146, R156) -/

namespace Sys2Proof.Proofs

open Sys2Proof.Machine Sys2Proof.Slice0 Sys2Proof.Laws

/-! #### What a write of memory leaves of a thread -/

/-- A thread without its monitors: notices of writes change nothing else of it. -/
def unwatched (t : Thread) : Thread := { t with mons := [], ghosts := [] }

/-- A thread of the state, without its monitors. -/
def bareThread (k : Nat) (s : State) : Option Thread := (mget s.threads k).map unwatched

theorem mget_modT (s : State) (j k : Nat) (f : Thread → Thread) :
    mget (modT s j f).threads k = if k = j then (mget s.threads k).map f else mget s.threads k := by
  rw [modT]
  rcases Decidable.em (k = j) with rfl | hne
  · cases h : mget s.threads k <;> simp [h]
  · cases mget s.threads j <;> simp [mget_mset, hne]

theorem bareThread_modT (s : State) (j k : Nat) {f : Thread → Thread} (hf : ∀ t, unwatched (f t) = unwatched t) :
    bareThread k (modT s j f) = bareThread k s := by
  rw [bareThread, mget_modT]
  split
  · simp [bareThread, Function.comp_def, hf]
  · rfl

theorem bareThread_notify (k : Nat) (s : State) (locs : List Nat) (who : Option Nat) :
    bareThread k (notify s locs who) = bareThread k s := by
  unfold notify
  dsimp only
  refine foldl_keeps (bareThread k) _ (fun s e => ?_) _ _
  split
  · rfl
  · refine foldl_keeps (bareThread k) _ (fun s ln => ?_) _ _
    split
    · rfl
    · exact bareThread_modT s _ k fun _ => rfl

theorem spoilAreas_threads (s : State) (locs : List Nat) : (spoilAreas s locs).threads = s.threads := by
  unfold spoilAreas
  dsimp only
  split
  · rfl
  · split <;> rfl

/-- A write of memory leaves of every thread all but its monitors. -/
theorem bareThread_append (k : Nat) (s : State) (cells : List (Nat × Byte)) (who : Option Nat) :
    bareThread k (append s cells who).2 = bareThread k s := by
  refine (bareThread_notify k _ _ _).trans ?_
  rw [bareThread, spoilAreas_threads]
  rfl

theorem noteWriter_keeps {β : Type} (q : State → β) (hq : ∀ s f, q { s with filters := f } = q s) (s : State)
    (c core : Nat) (locs : List Nat) : q (noteWriter s c core locs) = q s := by
  unfold noteWriter
  split
  · rfl
  · refine foldl_keeps q _ (fun s x => ?_) _ _
    dsimp only
    split
    · rfl
    · split
      · rfl
      · exact hq _ _

theorem noteWriter_mem (s : State) (c core : Nat) (locs : List Nat) : (noteWriter s c core locs).mem = s.mem :=
  noteWriter_keeps State.mem (fun _ _ => rfl) s c core locs

theorem noteWriter_threads (s : State) (c core : Nat) (locs : List Nat) :
    (noteWriter s c core locs).threads = s.threads :=
  noteWriter_keeps State.threads (fun _ _ => rfl) s c core locs

/-! #### The drain of the oldest entry -/

section Drain

variable {s : State} {tk bid va : Nat} {cells : List (Nat × Byte)} {rest : List BufItem} {t : Thread}

/-- The oldest entry drains alone: nothing stands before it. -/
theorem drainsWith_head (s : State) (core : Nat) : drainsWith s core (.write bid va cells false :: rest) bid =
    [.write bid va cells false] := by
  simp [drainsWith, drainSet, bufBefore, BufItem.id?]

theorem bufRemove_head (hrest : (rest.all fun b => b.id? != some bid) = true) :
    bufRemove (.write bid va cells false :: rest) bid = rest.dropWhile fun b => !b.isWrite := by
  rw [bufRemove, List.filter_cons_of_neg (by simp [BufItem.id?]), List.filter_eq_self.mpr (List.all_eq_true.mp hrest)]

theorem not_discardedCells {c : Nat} (hd : dying s c = false) (core : Nat) (cells : List (Nat × Byte)) :
    discardedCells s c core cells = false := by
  simp [discardedCells, discarded, hd]

/-- A thread whose entry, about to drain, is no longer noted to drain to host memory. -/
def unnoted (t : Thread) (bid : Nat) : Thread := { t with hostSt := t.hostSt.filter (·.1 != bid) }

/-- A closed entry that nothing holds back is drained. -/
theorem drainNamed_head (hfind : (s.threads.find? fun e => hasEntry e.2.buf bid) = some (tk, t))
    (hbuf : t.buf = .write bid va cells false :: rest)
    (hheld : drainHeld s tk t (.write bid va cells false) bid = false) : drainNamed tk bid s =
      drainOne (setT s tk (unnoted t bid)) tk (.write bid va cells false) := by
  have hentry : t.buf.find? (fun b => b.id? == some bid) = some (.write bid va cells false) := by
    rw [hbuf, List.find?_cons_of_pos (by simp [BufItem.id?])]
  have hwaits : drainWaits s tk bid t = false := by
    simp [drainWaits, hbuf, drainsWith_head, BufItem.id?, hheld]
  simp only [drainNamed, hfind, hentry, BufItem.opened, hwaits, Bool.false_eq_true, if_false]
  show drainWith (setT s tk (unnoted t bid)) tk bid = _
  have hset : drainsWith (setT s tk (unnoted t bid)) (coreOf tk) (unnoted t bid).buf bid =
      [.write bid va cells false] := by rw [unnoted, hbuf, drainsWith_head]
  rw [drainWith, getT_setT_same, hset]
  rfl

/-- A drain that is not discarded writes the entry's bytes. -/
theorem drainOne_mem {c : Nat} (hc : (getT s tk).ctx = c) (hd : dying s c = false) :
    (drainOne s tk (.write bid va cells false)).mem = Memory.writes s.mem cells := by
  simp only [drainOne, hc, not_discardedCells hd, Bool.false_eq_true, if_false, noteWriter_mem, modT_mem, append_mem]

/-- Of its thread a drain changes the buffer, the view and the monitors. -/
theorem drainOne_thread (hd : dying s t.ctx = false) (ht : mget s.threads tk = some t) :
    ∃ v, bareThread tk (drainOne s tk (.write bid va cells false)) =
      some (unwatched { t with buf := bufRemove t.buf bid, view := v }) := by
  have hc : (getT s tk).ctx = t.ctx := by rw [getT, mgetD, ht, Option.getD_some]
  have hb := bareThread_append tk (modT s tk fun t => { t with buf := bufRemove t.buf bid }) cells none
  rw [bareThread, bareThread, mget_modT, if_pos rfl, ht] at hb
  simp only [drainOne, hc, not_discardedCells hd, Bool.false_eq_true, if_false, bareThread,
    noteWriter_threads, mget_modT,
    if_true, Option.map_map]
  cases hu : mget (append (modT s tk fun t => { t with buf := bufRemove t.buf bid }) cells none).2.threads tk with
  | none => simp [hu] at hb
  | some u =>
    rw [hu, Option.map_some, Option.map_some, Option.map_some, Option.some.injEq] at hb
    have hview (v : View) := congrArg (fun x : Thread => { x with view := v }) hb
    exact ⟨_, congrArg some (hview _)⟩

end Drain

/-- Settles O27: the entry drains alone (`drainNamed_head`), and its drain is one `append` of its bytes. -/
theorem storeDrains : Obligations.StoreDrains := by
  intro s tk bid va cells rest t hmem ht hbuf hfind hheld hdying hrest hnd
  have hx : mget (setT s tk (unnoted t bid)).threads tk = some (unnoted t bid) := mget_mset_same s.threads tk _
  have hdx : dying (setT s tk (unnoted t bid)) (unnoted t bid).ctx = false := hdying
  refine ⟨drainNamed tk bid s, rfl, fun a => ?_, ?_⟩
  · rw [drainNamed_head hfind hbuf hheld, drainOne_mem (by rw [getT_setT_same]) hdx]
    exact read_writes_nodup hmem hnd a
  · obtain ⟨v, hv⟩ := drainOne_thread (bid := bid) (va := va) (cells := cells) hdx hx
    rw [drainNamed_head hfind hbuf hheld]
    obtain ⟨u, hu, hw⟩ := Option.map_eq_some_iff.mp hv
    have hg := congrArg Thread.g hw
    have hpw := congrArg Thread.pw hw
    have hpc := congrArg Thread.pc hw
    refine ⟨u, hu, ?_, hg, hpw, hpc⟩
    rw [← bufRemove_head (bid := bid) (va := va) (cells := cells) hrest, ← hbuf]
    exact congrArg Thread.buf hw

end Sys2Proof.Proofs

/-! ### Lanes of vector registers (R216, R217) -/

namespace Sys2Proof.Proofs

open Sys2Proof.Machine Sys2Proof.Slice0 Sys2Proof.Laws

/-! #### A register and its lanes -/

/-- The number whose digits to the base 2^(8 z) are given, lowest first. -/
def lanesNum (z : Nat) (l : List Nat) : Nat := l.foldr (fun x a => x % 2 ^ (8 * z) + 2 ^ (8 * z) * a) 0

theorem lanesNum_lt (z : Nat) (l : List Nat) : lanesNum z l < 2 ^ (8 * z * l.length) := by
  induction l with
  | nil => exact Nat.one_pos
  | cons x l ih =>
    have hx : x % 2 ^ (8 * z) < 2 ^ (8 * z) := Nat.mod_lt _ (Nat.two_pow_pos _)
    have hrest : lanesNum z l + 1 ≤ 2 ^ (8 * z * l.length) := ih
    calc x % 2 ^ (8 * z) + 2 ^ (8 * z) * lanesNum z l < 2 ^ (8 * z) * (lanesNum z l + 1) := by rw [Nat.mul_add]; omega
      _ ≤ 2 ^ (8 * z) * 2 ^ (8 * z * l.length) := Nat.mul_le_mul_left _ hrest
      _ = 2 ^ (8 * z * (x :: l).length) := by rw [← Nat.pow_add, List.length_cons, Nat.mul_succ, Nat.add_comm]

/-- Digit j of the number is the lane. -/
theorem lanesNum_digit (z : Nat) {l : List Nat} {j : Nat} (hj : j < l.length) :
    laneN z (lanesNum z l) j = l[j] % 2 ^ (8 * z) := by
  induction l generalizing j with
  | nil => cases hj
  | cons x l ih =>
    have hx : x % 2 ^ (8 * z) < 2 ^ (8 * z) := Nat.mod_lt _ (Nat.two_pow_pos _)
    have hcons : lanesNum z (x :: l) = x % 2 ^ (8 * z) + 2 ^ (8 * z) * lanesNum z l := rfl
    cases j with
    | zero => rw [laneN, hcons, Nat.mul_zero, Nat.pow_zero, Nat.div_one, Nat.add_mul_mod_self_left, Nat.mod_mod]; rfl
    | succ j =>
      have hdiv : lanesNum z (x :: l) / 2 ^ (8 * z * (j + 1)) = lanesNum z l / 2 ^ (8 * z * j) := by
        rw [hcons, Nat.mul_add, Nat.mul_one, Nat.add_comm (8 * z * j), Nat.pow_add, ← Nat.div_div_eq_div_mul,
          Nat.add_mul_div_left _ _ (Nat.two_pow_pos _), Nat.div_eq_of_lt hx, Nat.zero_add]
      rw [laneN, hdiv]
      exact ih (Nat.lt_of_succ_lt_succ hj)

/-- The lanes that a register is made of are read from it. -/
theorem laneN_ofLanes {z : Nat} {l : List Nat} {j : Nat} (hj : j < l.length) (hz : z * l.length ≤ 256) :
    laneN z (ofLanes z l).toNat j = l[j] % 2 ^ (8 * z) := by
  have hlt : lanesNum z l < 2 ^ 2048 := Nat.lt_of_lt_of_le (lanesNum_lt z l)
    (Nat.pow_le_pow_right (by decide) (by rw [Nat.mul_assoc]; omega))
  rw [ofLanes, BitVec.toNat_ofNat]
  show laneN z (lanesNum z l % 2 ^ 2048) j = _
  rw [Nat.mod_eq_of_lt hlt, lanesNum_digit z hj]

theorem laneN_lt (z v j : Nat) : laneN z v j < 2 ^ (8 * z) := Nat.mod_lt _ (Nat.two_pow_pos _)

/-- A register given lane by lane. -/
theorem laneN_ofLanes_map {z j : Nat} (f : Nat → Nat) (hj : j < lanesOf z) :
    laneN z (ofLanes z ((List.range (lanesOf z)).map f)).toNat j = f j % 2 ^ (8 * z) := by
  have hlen : ((List.range (lanesOf z)).map f).length = lanesOf z := by rw [List.length_map, List.length_range]
  rw [laneN_ofLanes (by rw [hlen]; exact hj) (by rw [hlen]; exact Nat.mul_div_le 256 z), List.getElem_map,
    List.getElem_range]

/-! #### Computing lane by lane -/

/-- What a lane of a computation gives, without stochastic draws. -/
def laneValue (z : Nat) (p : VPred) (old : Vec) (g : Nat → Nat → Nat × Flags) (j : Nat) : Nat :=
  if laneOn z p j then (g j 0).1 else laneN z old.toNat j

/-- What the active lanes of a list raise, without stochastic draws. -/
def laneFlags (z : Nat) (p : VPred) (g : Nat → Nat → Nat × Flags) (js : List Nat) (fl : Flags) : Flags :=
  js.foldl (fun fl j => if laneOn z p j then fl ||| (g j 0).2 else fl) fl

theorem laneLoop_foldl {z : Nat} {p : VPred} {old : Vec} {rm : RM} (hrm : rm ≠ .rsr) (g : Nat → Nat → Nat × Flags)
    (js : List Nat) (a : LaneAcc) :
    js.foldl (fun (a : LaneAcc) j =>
      if laneOn z p j then
        let (d, r) := takeDraw rm a.rng
        let (x, fl) := g j d
        { lanes := x :: a.lanes, fl := a.fl ||| fl, rng := r }
      else { a with lanes := laneN z old.toNat j :: a.lanes }) a =
    { lanes := (js.map (laneValue z p old g)).reverse ++ a.lanes, fl := laneFlags z p g js a.fl, rng := a.rng } := by
  induction js generalizing a with
  | nil => rfl
  | cons j js ih =>
    rw [List.foldl_cons, ih]
    by_cases hon : laneOn z p j = true
    · simp [hon, takeDraw, hrm, laneValue, laneFlags]
    · simp [hon, laneValue, laneFlags]

/-- Without stochastic draws each lane has its value, the flags are those of the active lanes, and the generator
stays. -/
theorem laneLoop_eq {z : Nat} {p : VPred} {old : Vec} {rm : RM} (hrm : rm ≠ .rsr) (rng : W32)
    (g : Nat → Nat → Nat × Flags) : laneLoop z p old rm rng g =
      (ofLanes z ((List.range (lanesOf z)).map (laneValue z p old g)), laneFlags z p g (List.range (lanesOf z)) 0,
          rng) := by
  rw [laneLoop]
  simp only [laneLoop_foldl hrm, List.append_nil, List.reverse_reverse]

theorem laneN_laneLoop {z : Nat} {p : VPred} {old : Vec} {rm : RM} (hrm : rm ≠ .rsr) (rng : W32)
    (g : Nat → Nat → Nat × Flags) {j : Nat} (hj : j < lanesOf z) :
    laneN z (laneLoop z p old rm rng g).1.toNat j =
      if laneOn z p j then (g j 0).1 % 2 ^ (8 * z) else laneN z old.toNat j := by
  rw [laneLoop_eq hrm, laneN_ofLanes_map _ hj, laneValue]
  split
  · rfl
  · exact Nat.mod_eq_of_lt (laneN_lt z _ j)

/-! ### Vector instructions (R217 to R237) -/

section Issued

variable {i : Instr} {h : Hdr} {rs : List (Fin 32)} {s : State} {eff : State → State} (hs : Issues h s)
  (hcore : OnCore s) (hv : VRegs rs s)
include hs hcore hv

/-- With its unit's shadow in agreement a vector instruction has its effect. -/
theorem vecIssued {sh : State → Shadow}
    (ha : (s.corrupt.any fun u => u.unit == (0, coreOf s.cur) && (sh s).on u.nth) = false) :
    vecIssue i h rs sh s eff = .next (eff s) := (vecIssue_runs hcore hv ha).trans (issued hs)

/-- One without a shadow has its effect. -/
theorem vecIssued_plain : vecIssue i h rs noShadow s eff = .next (eff s) := (vecIssue_plain hcore hv).trans (issued hs)

end Issued

/-- Settles O28: each instruction is a lane computation, and without draws its lanes are `laneN_laneLoop`. -/
theorem vectorLanes : Obligations.VectorLanes := by
  refine ⟨fun h t u hi f sat d a b pg s hs hc hv ha => ⟨?_, ?_, ?_⟩,
    fun h t np nc f sat d a b c pg s hs hc hv ha => ?_, fun h t k z d a pg s hs hc hv => ?_,
    fun h t u sat lk sk d a b pg s hs hc hv => ⟨?_, ?_⟩, fun h t f d a blk k pg s hs hc hv ha => ?_,
    fun h t fn f d a pg s hs hc hv ha => ⟨?_, ?_⟩, fun h t f d a b pg s hs hc hv ha => ?_,
    fun h t d a ix pg s hs hc hv => ?_, fun h t d a k pg s hs hc hv => ⟨?_, ?_⟩,
    fun h t f sat d a c k pg s hs hc hv => ?_, fun h f sat d a b pg s hs hc hv => ⟨?_, fun ha => ⟨?_, ?_⟩⟩,
    fun t p old rm rng g hrm => ⟨by rw [laneLoop_eq hrm], fun j hj => laneN_laneLoop hrm rng g hj⟩⟩
  · show execVadd .. = _; rw [execVadd, vecIssued hs hc hv ha]; rfl
  · show execVsub .. = _; rw [execVsub, vecIssued hs hc hv ha]; rfl
  · show execVmul .. = _; rw [execVmul, vecIssued hs hc hv ha]; rfl
  · show execVfma .. = _; rw [execVfma, vecIssued hs hc hv ha]; rfl
  · show execVun .. = _; rw [execVun, vecIssued_plain hs hc hv]; rfl
  · show execVlog .. = _; rw [execVlog, vecIssued_plain hs hc hv]; cases lk <;> rfl
  · show execVshf .. = _; rw [execVshf, vecIssued_plain hs hc hv]; rfl
  · show execVdqn .. = _; rw [execVdqn, vecIssued hs hc hv ha]; rfl
  · show execVsfu .. = _; rw [execVsfu, vecIssued hs hc hv ha]; rfl
  · show execVdivSqrt .. = _; rw [execVdivSqrt, vecIssued hs hc hv ha]; rfl
  · show execVdiv .. = _; rw [execVdiv, vecIssued hs hc hv ha]; rfl
  · show execVperm .. = _; rw [execVperm, vecIssued_plain hs hc hv]; rfl
  · show execVpermRot .. = _; rw [execVpermRot, vecIssued_plain hs hc hv]; rfl
  · show execVpermRot .. = _; rw [execVpermRot, vecIssued_plain hs hc hv]; rfl
  · show execVsmul .. = _; rw [execVsmul, vecIssued_plain hs hc hv]; rfl
  · show execVdot .. = _
    rw [execVdot, vecIssued hs hc hv (by simp [laneShadow])]
    rfl
  · show execVdot .. = _; rw [execVdot, vecIssued hs hc hv ha]; rfl
  · show execVdot .. = _; rw [execVdot, vecIssued hs hc hv ha]; rfl

end Sys2Proof.Proofs

namespace Sys2Proof.Proofs

open Sys2Proof.Machine Sys2Proof.Slice0 Sys2Proof.Laws

/-! #### Integer lanes (R225) -/

/-- The model's narrowing of an exact lane, by minimum and maximum. -/
theorem narrowLane_eq (u sat : Bool) (z : Nat) (e : Int) : narrowLane u sat z e =
    ((if sat then
        (if u then max 0 (min e (2 ^ (8 * z) - 1)) else max (-2 ^ (8 * z - 1)) (min e (2 ^ (8 * z - 1) - 1)))
      else e) % 2 ^ (8 * z)).toNat := by
  have hpos (n : Nat) : (0 : Int) < 2 ^ n := Int.pow_pos (by decide)
  cases sat with
  | false => rfl
  | true =>
    cases u with
    | false =>
      have h := hpos (8 * z - 1)
      exact congrArg (wrapN (8 * z)) (clampI_eq (by omega) e)
    | true =>
      have h := hpos (8 * z)
      exact congrArg (wrapN (8 * z)) (clampI_eq (by omega) e)

theorem narrowLane_lt (u sat : Bool) (z : Nat) (e : Int) : narrowLane u sat z e < 2 ^ (8 * z) := by
  have hpos : (0 : Int) < 2 ^ (8 * z) := Int.pow_pos (by decide)
  rw [narrowLane, wrapN]
  rw [Int.toNat_lt (Int.emod_nonneg _ (Int.ne_of_gt hpos)), Int.natCast_pow]
  exact Int.emod_lt_of_pos _ hpos

theorem laneFlags_zero {z : Nat} {p : VPred} {g : Nat → Nat → Nat × Flags} (hg : ∀ j, (g j 0).2 = 0) (js : List Nat) :
    laneFlags z p g js 0 = 0 := by
  induction js with
  | nil => rfl
  | cons j js ih => rw [laneFlags, List.foldl_cons, hg, show (0 : Flags) ||| 0 = 0 from rfl, ite_self]; exact ih

theorem raiseFlags_zero (t : Thread) : raiseFlags t 0 = t := by
  simp [raiseFlags, enabledFlag]

/-- A computation that raises nothing and draws nothing writes its register alone. -/
theorem lanes_quiet {h : Hdr} {z : Nat} {d : Fin 32} {pg : Fin 8} {rm : RM} {s : State} {g : Nat → Nat → Nat × Flags}
    (hrm : rm ≠ .rsr) (hg : ∀ j, (g j 0).2 = 0) : lanes h z d pg rm s g =
      retire h (putT s (writeV (curT s) d (laneLoop z (pVal s pg) (vVal s d) rm (curT s).rng g).1)) := by
  rw [lanes, resultV, laneLoop_eq hrm, laneFlags_zero hg, raiseFlags_zero]
  rfl

/-- What an integer lane computation gives. -/
theorem lanes_int {h : Hdr} {t : VTy} {u sat : Bool} {d : Fin 32} {pg : Fin 8} {rm : RM} {s : State} {e : Nat → Int}
    {o : Host.Outcome State Fault Refusal} (hrm : rm ≠ .rsr)
    (ho : o = .next (lanes h t.size d pg rm s fun j _ => (narrowLane u sat t.size (e j), 0))) :
    ∃ v : Vec, o = .next (retire h (putT s (writeV (curT s) d v))) ∧
      ∀ j, j < lanesOf t.size → laneN t.size v.toNat j = if laneOn t.size (pVal s pg) j then
        ((if sat then (if u then max 0 (min (e j) (2 ^ (8 * t.size) - 1))
          else max (-2 ^ (8 * t.size - 1)) (min (e j) (2 ^ (8 * t.size - 1) - 1))) else e j) % 2 ^ (8 * t.size)).toNat
        else laneN t.size (vVal s d).toNat j := by
  refine ⟨_, ho.trans (congrArg _ (lanes_quiet hrm fun _ => rfl)), fun j hj => ?_⟩
  rw [laneN_laneLoop hrm _ _ hj, Nat.mod_eq_of_lt (narrowLane_lt u sat _ _), narrowLane_eq]

/-- Settles O29: an integer computation raises and draws nothing, and each lane is the exact one, narrowed. -/
theorem integerLanes : Obligations.IntegerLanes := by
  intro h t u sat f d a b pg s hs hc hv ht hrm
  have hv' : VRegs (d :: a :: vbRegs (.v b)) s := hv
  have hag : Agrees s (rounding s t.isFloat t.size pg) := by simp [ht]
  have hlanes := vectorLanes.1 h t u false f sat d a (.v b) pg s hs hc hv' hag
  obtain ⟨hadd, hsub, hmul⟩ := hlanes
  simp only [ht, Bool.false_eq_true, if_false] at hadd hsub hmul
  exact ⟨lanes_int hrm hadd, lanes_int hrm hsub, lanes_int hrm hmul⟩

/-! #### The other vector instructions, and completing with a vector result (R217, R219) -/

theorem minmaxI_min (u : Bool) (z x y : Nat) :
    minmaxI u false z x y = if laneInt u z x ≤ laneInt u z y then x else y := by
  by_cases h : laneInt u z x ≤ laneInt u z y <;> simp [minmaxI, h]

theorem minmaxI_max (u : Bool) (z x y : Nat) :
    minmaxI u true z x y = if laneInt u z x ≤ laneInt u z y then y else x := by
  by_cases h : laneInt u z x ≤ laneInt u z y <;> simp [minmaxI, h]

/-- A bitwise operation of predicates, said of their bits. -/
theorem logVal_bit (k : LogK) (x y : Bool) : (logVal k (if x then 1 else 0) (if y then 1 else 0) == 1) = match k with
    | .and => x && y
    | .or => x || y
    | .xor => x != y
    | .andn => x && !y := by
  cases k <;> cases x <;> cases y <;> rfl

section Quantise

variable {h : Hdr} {fm : BFmt} {t : VTy} {f : Fp} {sat : Bool} {d a : Fin 32} {blk : Fin 4} {x : GI} {s : State}
  (hs : Issues h s) (hc : OnCore s) (hv : VRegs [d, a] s)

/-- The elements that VQNT gathers: the second register is read only where they pass the first. -/
theorem qntElems_eq {n : Nat} : ((List.range n).map fun k => (fmtOf t).value ((fmtOf t).flush f.fzi
      (if k < lanesOf t.size then laneN t.size (vVal s a).toNat k
        else laneN t.size (if lanesOf t.size < n then (vVal s (a + 1)).toNat else 0) (k - lanesOf t.size)))) =
    qntElems s t f a n := by
  refine List.map_congr_left fun k hk => ?_
  have hk : k < n := List.mem_range.mp hk
  by_cases hlow : k < lanesOf t.size
  · rw [if_pos hlow, if_pos hlow]
  · rw [if_neg hlow, if_neg hlow, if_pos (by omega)]

include hs hc hv

theorem exec_vqnt_runs (hsrc : ¬ (lanesOf t.size < qntCount s fm x ∧ (a.val = 31 ∨ (slotAt s s.cur).vregs ≤ a.val + 1)))
    (ha : Agrees s (fun j => fm != .shp8 && fm != .int8 && decide (j < qntCount s fm x))) :
    exec (.vqnt h fm t f sat d a blk x) s = .next (
      let q := quantise fm f sat (qntElems s t f a (qntCount s fm x)) (curT s).rng
      resultV h d (ofLanes 64 ((List.range 4).map fun k => if k = blk.val then q.1 else laneN 64 (vVal s d).toNat k),
        q.2.1, q.2.2) s) := by
  show execVqnt .. = _
  rw [execVqnt, issueC_runs hc, issued hs]
  simp only [withVRegs_runs hv, if_neg hsrc]
  rw [withShadow_runs ha, qntElems_eq]

theorem exec_vqnt_absent (hsrc : lanesOf t.size < qntCount s fm x ∧ (a.val = 31 ∨ (slotAt s s.cur).vregs ≤ a.val + 1)) :
    exec (.vqnt h fm t f sat d a blk x) s = .next (illop (.vqnt h fm t f sat d a blk x) s) := by
  show execVqnt .. = _
  rw [execVqnt, issueC_runs hc, issued hs]
  simp only [withVRegs_runs hv, if_pos hsrc]

end Quantise

/-- Settles O30: each completes with its result, once its checks have passed. -/
theorem vectorOthers : Obligations.VectorOthers := by
  refine ⟨fun h t u z d a b pg s hs hc hv => ⟨?_, ?_, ?_⟩, fun h t cd z pd a b pg s hs hc hv => ?_,
    fun h t s2 f sat d a part pg s hs hc hv ha => ?_,
    fun h fm t f sat d a blk x s hs hc hv => ⟨fun hsrc ha => ?_, fun hn hsrc => ?_⟩,
    fun h t op ord f g d a pg s hs hc ha => ⟨fun hv => ?_, fun hv => ?_⟩,
    fun h w cd pd g c x y s hs hc => ⟨?_, ?_⟩, fun h t first lk g c pd pa pb pg s hs hc => ⟨?_, ?_, ?_, ?_⟩⟩
  · show execVmin .. = _
    rw [execVmin, vecIssued_plain hs hc hv, minmaxOp]
    simp only [laneOp, minmaxI_min]
  · show execVmax .. = _
    rw [execVmax, vecIssued_plain hs hc hv, minmaxOp]
    simp only [laneOp, minmaxI_max]
  · show execVsel .. = _; rw [execVsel, vecIssued_plain hs hc hv]
  · show execVcmp .. = _; rw [execVcmp, vecIssued_plain hs hc hv]
  · show execVcvt .. = _; rw [execVcvt, vecIssued hs hc hv ha]
  · exact exec_vqnt_runs hs hc hv (by rw [qntCount]; omega) ha
  · rw [exec_vqnt_absent hs hc hv ⟨hn, hsrc⟩, illop, cILLOP]
  · show execVred .. = _; rw [execVred, vecIssued hs hc hv ha]; simp only [redVal]; cases t.isFloat <;> rfl
  · show execVred .. = _; rw [execVred, vecIssued hs hc hv ha]; simp only [redVal]; cases t.isFloat <;> rfl
  · show execVwidth .. = _; rw [execVwidth, issueC_runs hc, issued hs]; rfl
  · show execWhileP .. = _; rw [execWhileP, issueC_runs hc, issued hs]; rfl
  · show execPlog .. = _; rw [execPlog, issueC_runs hc, issued hs]; simp only [logVal_bit] <;> rfl
  · show execPlogNot .. = _; rw [execPlogNot, issueC_runs hc, issued hs]
  · show execPlogCount .. = _; rw [execPlogCount, issueC_runs hc, issued hs]; rfl
  · show execPlogAny .. = _; rw [execPlogAny, issueC_runs hc, issued hs]; rfl

/-- The executing thread after it completes with a vector result, without a switch marker. -/
def wroteV (h : Hdr) (d : Fin 32) (x : Vec × Flags × W32) (s : State) : Thread :=
  { writeV (raiseFlags (curT s) x.2.1) d x.1 with
    rng := x.2.2, run := runAt (raiseFlags (curT s) x.2.1), pc := nextPc (curT s).pc
    hold := s.clock + 1 + h.pace.val }

theorem resultV_plain {h : Hdr} (hsw : h.sw = false) (d : Fin 32) (x : Vec × Flags × W32) (s : State) :
    resultV h d x s = putT s (wroteV h d x s) := by
  rw [resultV, retire_plain hsw, putT_again, curT_putT]
  rfl

theorem resultP_plain {h : Hdr} (hsw : h.sw = false) (q : Fin 8) (v : VPred) (fl : Flags) (s : State) :
    resultP h q v fl s = putT s { writeP (raiseFlags (curT s) fl) q v with
      run := runAt (writeP (raiseFlags (curT s) fl) q v), pc := nextPc (writeP (raiseFlags (curT s) fl) q v).pc
      hold := s.clock + 1 + h.pace.val } := by
  rw [resultP, retire_plain hsw, putT_again, curT_putT]
  rfl

/-- Settles O31: completing writes the executing thread alone, and of it the result, the flags, the pc and the run. -/
theorem vectorResultFrame : Obligations.VectorResultFrame := by
  intro h d q x v fl g s hsw
  refine ⟨?_, ?_⟩
  · simp only [resultV_plain hsw, curT_putT]
    exact ⟨restSame_putT s _, by simp [wroteV, writeV, cancelReg, raiseFlags]⟩
  · simp only [resultP_plain hsw, curT_putT]
    refine ⟨restSame_putT s _, ?_⟩
    by_cases hq : q = 0
    · simp [writeP, hq, raiseFlags]
    · simp [writeP, hq, raiseFlags]

/-! #### The shadow check (R214, R349) -/

/-- An instruction that rounds is a lane computation under its shadow; the computation does not see the errors due. -/
theorem exec_rounds {i : Instr} {h : Hdr} {z : Nat} {d : Fin 32} {pg : Fin 8} {rs : List (Fin 32)}
    (hi : rounds i = some (h, z, d, pg, rs)) : ∃ (rm : RM) (g : State → Nat → Nat → Nat × Flags),
      (∀ s, exec i s = vecIssue i h rs (laneShadow true z d pg) s (laneOp h z d pg rm g)) ∧
      ∀ s c, g { s with corrupt := c } = g s := by
  cases i with
  | vadd h t u f sat d a b pg | vsub h t u f sat d a b pg | vmul h t u hi f sat d a b pg
  | vfma h t np nc f sat d a b c pg =>
    obtain ⟨ht, hi⟩ := Option.ite_none_right_eq_some.mp hi
    cases hi
    exact ⟨_, _, fun s => by rw [← ht]; rfl, fun _ _ => rfl⟩
  | vdqn | vsfu | vdiv | vdivSqrt => cases hi; exact ⟨_, _, fun _ => rfl, fun _ _ => rfl⟩
  | vdot h k f sat d a b pg =>
    cases k with
    | i8 => cases hi
    | f16 | bf16 => cases hi; exact ⟨_, _, fun _ => rfl, fun _ _ => rfl⟩
  | _ => cases hi

section Shadowed

variable {i : Instr} {h : Hdr} {z : Nat} {d : Fin 32} {pg : Fin 8} {rs : List (Fin 32)} {s : State} {u : Upset}
  {eff : State → State} (hs : Issues h s) (hc : OnCore s) (hv : VRegs rs s)
  (hu : (s.corrupt.find? fun u => u.unit == (0, coreOf s.cur) && rounding s true z pg u.nth) = some u)
include hs hc hv hu

/-- An error that strikes an active lane is compared: caught, no result is written; else its lane becomes free. -/
theorem vecIssue_struck : vecIssue i h rs (laneShadow true z d pg) s eff = .next (
    if u.caught then retire h (putT { s with corrupt := s.corrupt.erase u } { curT s with
      run := { runAt (curT s) with sdc := some ((curT s).pc, (runAt (curT s)).closer) } })
    else freeLane z d u.nth (eff { s with corrupt := s.corrupt.erase u })) := by
  have hfind : (s.corrupt.find? fun u => u.unit == (0, coreOf s.cur) && (laneShadow true z d pg s).on u.nth) = some u :=
    hu
  rw [vecIssue, issueC_runs hc, issued hs]
  simp only [withVRegs_runs hv, withShadow, hfind]
  rfl

end Shadowed

theorem caught_iff (u : Upset) : u.caught = true ↔
    u.cls = true ∨ (u.fin = true ∧ (u.sign = true ∨ u.exp ≠ 0)) ∨ 1 < u.frac.natAbs := by
  simp [Upset.caught, or_assoc]

/-- Freeing a lane of a register changes that lane alone. -/
theorem freeLane_putT (z : Nat) (d : Fin 32) (j : Nat) (s : State) (t : Thread) : freeLane z d j (putT s t) =
    putT s { t with v := t.v.set d (ofLanes z ((List.range (lanesOf z)).map fun k =>
      laneN z (if k = j then (Config.freeVec s.freeCtr 6000).toNat else t.v[d].toNat) k)) } := by
  have ht : mget (putT s t).threads s.cur = some t := mget_mset_same s.threads s.cur t
  show modT (putT s t) s.cur _ = _
  rw [modT, ht]
  exact putT_again s t _

/-- Settles O32: a caught error writes no result; one let pass frees its lane of what the computation gives. -/
theorem shadowDisagreement : Obligations.ShadowDisagreement := by
  intro i h z d pg rs s u hi hs hc hv hu
  obtain ⟨rm, g, hexec, hg⟩ := exec_rounds hi
  refine ⟨fun hcaught => ?_, fun hcls hfin hfrac hsw => ?_⟩
  · rw [hexec, vecIssue_struck hs hc hv hu, if_pos ((caught_iff u).mpr hcaught)]
  · have hnot : ¬ u.caught = true := by
      rw [caught_iff]
      grind
    have hlanes (c : List Upset) : laneOp h z d pg rm g { s with corrupt := c } =
        putT { s with corrupt := c } (wroteV h d (laneLoop z (pVal s pg) (vVal s d) rm (curT s).rng (g s)) s) := by
      rw [laneOp, resultV_plain hsw, hg]
      rfl
    have hclean : exec i { s with corrupt := [] } = .next (laneOp h z d pg rm g { s with corrupt := [] }) := by
      rw [hexec]
      exact vecIssued (s := { s with corrupt := [] }) hs hc hv rfl
    have hstruck : exec i s = .next (freeLane z d u.nth
        (laneOp h z d pg rm g { s with corrupt := s.corrupt.erase u })) := by
      rw [hexec, vecIssue_struck hs hc hv hu, if_neg hnot]
    refine ⟨_, _, hclean, hstruck, ?_⟩
    rw [hlanes, hlanes, freeLane_putT, curT_putT, curT_putT]
    refine ⟨rfl, rfl, rfl, rfl, fun r hr => ?_, fun j hj hne => ?_⟩
    · exact Vector.getElem_set_ne d.isLt r.isLt fun hv => hr (Fin.ext hv.symm)
    · have hsame := laneN_ofLanes_map (z := z) (j := j) (fun k => laneN z (if k = u.nth then
        (Config.freeVec s.freeCtr 6000).toNat
        else ((wroteV h d (laneLoop z (pVal s pg) (vVal s d) rm (curT s).rng (g s)) s).v[d]).toNat) k) hj
      rw [if_neg hne, Nat.mod_eq_of_lt (laneN_lt z _ j)] at hsame
      simpa using hsame

end Sys2Proof.Proofs

/-! ### Which instruction may run where (R115 to R117, R128) -/

namespace Sys2Proof.Proofs

open Sys2Proof.Machine Sys2Proof.Slice0 Sys2Proof.Laws

/-- An instruction that only compute cores have goes through their gate. -/
theorem exec_coreOnly {i : Instr} {h : Hdr} (hh : hdrOf i = some h) (hc : coreOnly i = true) :
    ∃ eff, ∀ s, exec i s = issueC i h s eff := by
  cases i with
  | spawn | migr | vwidth | whileP | vadd | vsub | vmul | vfma | vmin | vmax | vun | vcmp | vsel | vlog | vshf | vcvt
  | vqnt | vdqn | vsfu | vdiv | vdivSqrt | vred | vperm | vpermRot | vsplat | vmovsX | vmovsI | vld | vst | vgath |
      vscat
  | plog | plogNot | plogCount | plogAny | vdot | vsmul | tshape | tld | tst | mma | mmaA | mmag | accf | tmap | tmapR
  | copy | jwait | jwaitP | holdW | holdT | hrel | seek | rds | wrs | vrds | vwrs | rwnd | hpos | chain | get | put |
      putE
  | chmodeQ | chmodeOcc | chmodeFold | chmodeSpread | chmodeAuto | ftile | dpush | dpop | dsteal | ssend | srecv =>
    cases hh; exact ⟨_, fun _ => rfl⟩
  | _ => cases hc

/-- The core of the executing thread has the system register that the instruction names (R128). -/
def HasReg (i : Instr) (s : State) : Prop :=
  match i with
  | .sysr _ _ n => sysAbsent (coreOf s.cur) n.toNat = false
  | .sysw _ _ n => sysAbsent (coreOf s.cur) n.toNat = false
  | _ => True

/-- An instruction of a level below 2 that every core has goes through the gate of its level. -/
theorem exec_ofLevel {i : Instr} {h : Hdr} (hh : hdrOf i = some h) (hc : coreOnly i = false) (hl : levelOf i ≤ 1) :
    ∃ eff, ∀ s, HasReg i s → exec i s = issueL (levelOf i) i h s eff := by
  cases i with
  | tlbiCtx | tlbiPg | tlbiRng | tlbiAll | kill | ctxSave | ctxLoad | ctxMig | ctxRd | ctxWr | ctxRes | ctxTv | ctxSlot
  | pgrefQ | pgrefRm | pgrefSh | pgrefDr | pgrefAdj | pgrefWk | pgrefClr | mgmtLog | mgmtTmr | mgmtRetire | mgmtFwsel
  | mgmtFwcommit | mgmtQuote =>
    cases hh; exact ⟨_, fun _ _ => rfl⟩
  | sysr | sysw =>
    cases hh; exact ⟨_, fun _ hreg => if_neg (Bool.eq_false_iff.mp hreg)⟩
  | nop | br | bri | call | ret | loop | quit | park | trap | tret | add | sub | mul | div | and | or | xor | shl | shr
  | min | max | cmp | sel | mov | movi | lea | bfx | bfi | bitc | ld | st | atom | bind | acq | rel | fence | idem | mon
  | mwait | bar | bara | bwait | bwaitT | qfence | mapv | mapvA | mapack | collAr | collBc | collAg =>
    exact absurd (show 2 ≤ 1 from hl) (by decide)
  | spawn | migr | vwidth | whileP | vadd | vsub | vmul | vfma | vmin | vmax | vun | vcmp | vsel | vlog | vshf | vcvt
  | vqnt | vdqn | vsfu | vdiv | vdivSqrt | vred | vperm | vpermRot | vsplat | vmovsX | vmovsI | vld | vst | vgath |
      vscat
  | plog | plogNot | plogCount | plogAny | vdot | vsmul | tshape | tld | tst | mma | mmaA | mmag | accf | tmap | tmapR
  | copy | jwait | jwaitP | holdW | holdT | hrel | seek | rds | wrs | vrds | vwrs | rwnd | hpos | chain | get | put |
      putE
  | chmodeQ | chmodeOcc | chmodeFold | chmodeSpread | chmodeAuto | ftile | dpush | dpop | dsteal | ssend | srecv =>
    cases hc
  | _ => cases hh

/-- SYSR and SYSW of a register that the core lacks trap ILLOP, before their level is looked at. -/
theorem exec_sys_absent {i : Instr} {h : Hdr} {d : Fin 16} {n : BitVec 24} {s : State}
    (hi : i = .sysr h d n ∨ i = .sysw h d n) (habs : sysAbsent (coreOf s.cur) n.toNat = true) :
    exec i s = .next (illop i s) := by
  rcases hi with rfl | rfl
  · exact if_pos habs
  · exact if_pos habs

/-- Settles O12: the gates of the core and of the level trap, whatever the guards. -/
theorem mayNotRun : Obligations.MayNotRun := by
  refine ⟨fun i h s hh hc hl hpriv hreg => ?_, fun i h s hh hcore => ⟨fun hc => ?_, fun d n hi hn => ?_⟩⟩
  · obtain ⟨eff, he⟩ := exec_ofLevel hh hc hl
    rw [he s hreg, issueL_traps hpriv, privTrapI, cPRIV]
  · obtain ⟨eff, he⟩ := exec_coreOnly hh hc
    rw [he s, issueC_illop (Bool.eq_false_iff.mpr hcore), illop, cILLOP]
  · have habs : sysAbsent (coreOf s.cur) n.toNat = true := by
      simp only [sysAbsent, Bool.eq_false_iff.mpr hcore, Bool.not_false, Bool.true_and, Bool.or_eq_true,
        Bool.and_eq_true, decide_eq_true_eq]
      exact hn
    rw [exec_sys_absent hi habs, illop, cILLOP]

/-! ### Traps and handlers (R125, R126) -/

/-- Settles O13: the trap enters the handler, or is noted in the thread until its results are back. -/
theorem trapEntry : Obligations.TrapEntry := by
  refine ⟨fun s cause tval epc hres htvec hinh => ?_, fun s cause tval epc hres => ?_⟩
  · rw [trap_enters hres htvec hinh, curT_putT]
    exact ⟨restSame_putT s _, rfl⟩
  · rw [trap_waits hres, curT_putT]
    exact ⟨restSame_putT s _, rfl⟩

/-- A trap that no handler takes kills the context of a thread on a compute core. -/
theorem trap_kills {s : State} {cause : BitVec 8} {tval epc : Word} (hres : (curT s).res = []) (hcore : OnCore s)
    (hno : (curT s).tvec = 0 ∨ (curT s).inh = true) :
    trap s cause tval epc = startKill s (curT s).ctx 0x82 (routerOf (coreOf s.cur)) [] := by
  rw [curT] at *
  rw [trap, takeTrap, if_pos hres, enterTrap, if_pos hno, if_pos hcore]

/-- Settles O14. -/
theorem trapKills : Obligations.TrapKills := fun _ _ _ _ hres hcore hno => trap_kills hres hcore hno

/-- Completing at a pc, without a switch marker, writes one thread. -/
theorem retireTo_plain {h : Hdr} {pc : Word} {s : State} (hsw : h.sw = false) : retireTo h pc s =
    putT s { curT s with run := runAt (curT s), pc := pc, hold := s.clock + 1 + h.pace.val } := by
  simp [retireTo, hsw]

theorem bitsOf_low (x : Word) : bitsOf x 2 0 = x.toNat % 8 := by simp [bitsOf]

/-- A held MAPEVT with a handler and no result outstanding enters the handler. -/
theorem takeMapevt_enters {s : State} {x : Thread} (hres : x.res = []) (htvec : x.tvec ≠ 0) (hinh : x.inh = false) :
    takeMapevt (putT s x) s.cur = putT s (Machine.trapEntry { x with mapevt := false, mheld := false }
      { cause := cMAPEVT, tval := (ctxD s x.ctx).mapvec, epc := x.pc }) := by
  have hx : getT (putT s x) s.cur = x := curT_putT s x
  rw [takeMapevt, hx]
  have hset : setT (putT s x) s.cur { x with mapevt := false, mheld := false } =
      putT s { x with mapevt := false, mheld := false } := putT_again s x _
  rw [hset]
  exact trap_enters (s := putT s _) (by rw [curT_putT]; exact hres) (by rw [curT_putT]; exact htvec)
    (by rw [curT_putT]; exact hinh) |>.trans (by rw [putT_again, curT_putT]; rfl)

section Tret

variable {h : Hdr} {s : State} (hs : Issues h s)
include hs

theorem exec_tret_outside (hinh : (curT s).inh = false) : exec (.tret h) s = .next (illop (.tret h) s) := by
  show execTret h s = _
  rw [execTret, issued hs]
  simp only [hinh, if_true]

theorem exec_tret_waits (hinh : (curT s).inh = true) (hres : (curT s).res ≠ []) :
    exec (.tret h) s = .next (retry s) := by
  show execTret h s = _
  rw [execTret, issued hs]
  simp only [hinh, Bool.true_eq_false, if_false, if_pos hres]

theorem exec_tret_kills (hinh : (curT s).inh = true) (hres : (curT s).res = []) (hepc : 4 < (curT s).epc.toNat % 8) :
    exec (.tret h) s = .next (killCur s 0x82) := by
  rw [← bitsOf_low] at hepc
  show execTret h s = _
  rw [execTret, issued hs]
  simp only [hinh, Bool.true_eq_false, if_false, hres, ne_eq, not_true, if_pos hepc]

theorem exec_tret_returns (hinh : (curT s).inh = true) (hres : (curT s).res = []) (hepc : (curT s).epc.toNat % 8 ≤ 4) :
    exec (.tret h) s = .next (
      if (curT s).mheld ∧ (ctxD s (curT s).ctx).ackv.toNat < (ctxD s (curT s).ctx).mapvec.toNat then
        takeMapevt (putT s { curT s with
          inh := false, mheld := false, pc := (curT s).epc, hold := s.clock + 1 + h.pace.val }) s.cur
      else retireTo h (curT s).epc (putT s { curT s with inh := false, mheld := false })) := by
  rw [← bitsOf_low, ← Nat.not_lt] at hepc
  show execTret h s = _
  rw [execTret, issued hs]
  simp only [hinh, Bool.true_eq_false, if_false, hres, ne_eq, not_true, if_neg hepc]

end Tret

/-- Settles O16: each of TRET's outcomes is one branch of it. -/
theorem tretReturns : Obligations.TretReturns := by
  intro h s hs
  refine ⟨fun hinh hres hepc => ⟨fun hno => ?_, fun hheld hver htvec => ?_⟩, exec_tret_waits hs, ?_,
    fun hinh => by rw [exec_tret_outside hs hinh, illop, cILLOP]⟩
  · have hret : exec (.tret h) s =
        .next (retireTo h (curT s).epc (putT s { curT s with inh := false, mheld := false })) := by
      rw [exec_tret_returns hs hinh hres hepc, if_neg (by rintro ⟨hm, hv⟩; rcases hno with h | h <;> grind)]
    refine ⟨hret, fun hsw => ?_⟩
    rw [hret, retireTo_plain hsw, putT_again, curT_putT]
    exact ⟨_, rfl, restSame_putT s _, by simp⟩
  · rw [exec_tret_returns hs hinh hres hepc, if_pos ⟨hheld, hver⟩,
      takeMapevt_enters (x := { curT s with inh := false, mheld := false, pc := (curT s).epc, hold := _ })
        hres htvec rfl]
    exact ⟨_, rfl, restSame_putT s _, by simp [Machine.trapEntry, cMAPEVT]⟩
  · intro hinh hres hepc hcore
    rw [exec_tret_kills hs hinh hres hepc, killCur, if_pos hcore]

/-! ### Branches (R101, R102, R118, R119) -/

section Branch

variable {h : Hdr} {s : State}

/-- A target that a slot can have is gone to. -/
theorem jump_ok {t : Word} (hmid : t.toNat / 8 % 8 = 0) (hslot : t.toNat % 8 ≤ 4) : jump h t s = branchTo h t s := by
  rw [jump, if_neg (by rw [bitsOf_low, bitsOf]; omega)]

/-- One that no slot can have traps. -/
theorem jump_bad {t : Word} (hbad : t.toNat / 8 % 8 ≠ 0 ∨ 4 < t.toNat % 8) : jump h t s = trapHere s 0x03 t := by
  rw [jump, if_pos (by rw [bitsOf_low, bitsOf]; omega), cBADTGT]

theorem branch_ok {d : BitVec 24} {t : Word} (ht : slotTarget (curT s).pc d = .ok t) (hmid : t.toNat / 8 % 8 = 0)
    (hslot : t.toNat % 8 ≤ 4) : branch h d s = branchTo h t s := by
  rw [branch, ht]
  exact jump_ok hmid hslot

theorem branch_out {d : BitVec 24} {x : Word} (hx : slotTarget (curT s).pc d = .error x) :
    branch h d s = trapHere s 0x03 x := by
  rw [branch, hx, cBADTGT]

theorem branchReg_ok {r : Fin 16} (htop : (gVal s r).toNat < 2 ^ 56) (hmid : (gVal s r).toNat / 8 % 8 = 0)
    (hslot : (gVal s r).toNat % 8 ≤ 4) : branchReg h r s = branchTo h (gVal s r) s := by
  have hin : bitsOf (gVal s r) 63 56 = 0 := by rw [bitsOf, Nat.div_eq_of_lt htop] <;> rfl
  simp only [branchReg, hin, ne_eq, not_true, if_false]
  exact jump_ok hmid hslot

theorem branchReg_bad {r : Fin 16}
    (hbad : 2 ^ 56 ≤ (gVal s r).toNat ∨ (gVal s r).toNat / 8 % 8 ≠ 0 ∨ 4 < (gVal s r).toNat % 8) :
    branchReg h r s = trapHere s 0x03 (gVal s r) := by
  simp only [branchReg]
  split
  next => rw [cBADTGT]
  next hin =>
    refine jump_bad (hbad.resolve_left fun hle => hin ?_)
    have hlt := (gVal s r).isLt
    rw [bitsOf]
    omega

/-- Writing a scalar register leaves the pc. -/
theorem pc_setG (r : Fin 16) (x : Word) : (curT (setG s r x)).pc = (curT s).pc := by rw [setG, curT_putT, writeG_pc]

variable (hs : Issues h s)
include hs

theorem exec_br (d : BitVec 24) : exec (.br h d) s = .next (branch h d s) := by
  show execBr h d s = _
  rw [execBr, issued hs]

theorem exec_call (d : BitVec 24) : exec (.call h d) s = .next (branch h d (setG s 15 (nextPc (curT s).pc))) := by
  show execCall h d s = _
  rw [execCall, issued hs]

theorem exec_bri (r : Fin 16) : exec (.bri h r) s = .next (branchReg h r s) := by
  show execBri h r s = _
  rw [execBri, issued hs]

theorem exec_ret (r : Fin 16) : exec (.ret h r) s = .next (branchReg h r s) := by
  show execRet h r s = _
  rw [execRet, issued hs]

theorem exec_loop_on {n : Fin 16} (hn : gVal s n ≠ 1) (d : BitVec 24) :
    exec (.loop h n d) s = .next (branch h d (setG s n (gVal s n - 1))) := by
  have hne : gVal s n - 1 ≠ 0 := fun h0 => hn (by rw [BitVec.sub_eq_iff_eq_add] at h0; exact h0)
  show execLoop h n d s = _
  rw [execLoop, issued hs]
  simp only [if_pos hne]

theorem exec_loop_done {n : Fin 16} (hn : gVal s n = 1) (d : BitVec 24) :
    exec (.loop h n d) s = .next (retire h (setG s n 0)) := by
  show execLoop h n d s = _
  rw [execLoop, issued hs]
  simp [hn]

end Branch

/-- Settles O17: every branch is one of `branch` and `branchReg`, after the register that it writes. -/
theorem branches : Obligations.Branches := by
  refine ⟨fun h s hs => ?_, fun h d s t hs ht hmid hslot => ⟨?_, ?_, fun n hn => ?_⟩,
    fun h d n s hs hn => exec_loop_done hs hn d, fun h d s x hs hx => ⟨?_, ?_, fun n hn => ?_⟩,
    fun h r s hs => ⟨fun htop hmid hslot => ⟨?_, ?_⟩, fun hbad => ⟨?_, ?_⟩⟩⟩
  · show execNop h s = _
    rw [execNop, issued hs]
  · rw [exec_br hs, branch_ok ht hmid hslot]
  · rw [exec_call hs, branch_ok (by rwa [pc_setG]) hmid hslot]
  · rw [exec_loop_on hs hn, branch_ok (by rwa [pc_setG]) hmid hslot]
  · rw [exec_br hs, branch_out hx]
  · rw [exec_call hs, branch_out (by rwa [pc_setG])]
  · rw [exec_loop_on hs hn, branch_out (by rwa [pc_setG])]
  · rw [exec_bri hs, branchReg_ok htop hmid hslot]
  · rw [exec_ret hs, branchReg_ok htop hmid hslot]
  · rw [exec_bri hs, branchReg_bad hbad]
  · rw [exec_ret hs, branchReg_bad hbad]

/-! ### Threads (R72, R121 to R123) -/

section Threads

variable {h : Hdr} {s : State} (hs : Issues h s)
include hs

theorem exec_spawn_absent (hcore : OnCore s) {l : Fin 16} (hl : namedCore s (gVal s l) = none) (c : Fin 32)
    (o : BitVec 24) : exec (.spawn h l c o) s = .next (trapHere s 0x06 (gVal s l)) := by
  show execSpawn h l c o s = _
  rw [execSpawn, issueC_runs hcore, issued hs]
  simp only [hl, cPROT]

theorem exec_spawn_out (hcore : OnCore s) {l : Fin 16} (hl : (namedCore s (gVal s l)).isSome = true) {o : BitVec 24}
    {x : Word} (hx : slotTarget (curT s).pc o = .error x) (c : Fin 32) :
    exec (.spawn h l c o) s = .next (trapHere s 0x03 x) := by
  obtain ⟨cc, hcc⟩ := Option.isSome_iff_exists.mp hl
  show execSpawn h l c o s = _
  rw [execSpawn, issueC_runs hcore, issued hs]
  simp only [hcc, hx, cBADTGT]

theorem exec_spawn_sends (hcore : OnCore s) (hroom : HasRoom s) (hord : InOrder s false) {l : Fin 16} {cc : CoreCtx}
    (hl : namedCore s (gVal s l) = some cc) {o : BitVec 24} {t : Word} (ht : slotTarget (curT s).pc o = .ok t)
    (c : Fin 32) : exec (.spawn h l c o) s = .next (
      let r := resultWait [.c c] (.request (.spawn (gVal s l).toNat)) (closeCur s)
      let s1 := sendTo r.2 r.1 (some cc.phys)
      retire h (later { s1 with spawns := mset s1.spawns r.1 (spawnChild s (gVal s l).toNat t) }
        (coreLat s1 (coreOf s.cur) cc.phys) (.spawnRequest s.cur r.1))) := by
  show execSpawn h l c o s = _
  rw [execSpawn, issueC_runs hcore, issued hs]
  simp only [hl, ht, withRoom_runs hroom, withOrder_runs hord]

theorem exec_migr_absent (hcore : OnCore s) {l : Fin 16} (hl : namedCore s (gVal s l) = none) :
    exec (.migr h l) s = .next (trapHere s 0x06 (gVal s l)) := by
  show execMigr h l s = _
  rw [execMigr, issueC_runs hcore, issued hs]
  simp only [hl, cPROT]

theorem exec_migr (hcore : OnCore s) {l : Fin 16} {cc : CoreCtx} (hl : namedCore s (gVal s l) = some cc) :
    exec (.migr h l) s = .next (if (curT s).res ≠ [] then retry s
      else if (gVal s l).toNat = (curT s).lcore then retire h s
      else depart (retire h s) s.cur (gVal s l).toNat cc.phys) := by
  show execMigr h l s = _
  rw [execMigr, issueC_runs hcore, issued hs]
  simp only [hl]

theorem exec_park (hroom : HasRoom s) (d : Fin 16) (tmo : GI) : exec (.park h d tmo) s = .next (
    if (curT s).evt ≠ 0 ∨ tmoOf (giVal s tmo) = 0 then waitNow h [.g d ((curT s).evt.setWidth 64)] (curT s).evt none s
    else
      let r := resultWait [.g d] .park s
      retire h (schedTimeout r.2 s.cur r.1 (tmoOf (giVal s tmo)))) := by
  show execPark h d tmo s = _
  rw [execPark, issued hs, withRoom_runs hroom]

theorem exec_quit : exec (.quit h) s = .next (if (curT s).res ≠ [] then retry s
    else if isCompute (coreOf s.cur) then quitThread (closeCur s) s.cur
    else quitPriv (drainAll (closeCur s) s.cur) s.cur) := by
  show execQuit h s = _
  rw [execQuit, issued hs]

end Threads

/-- Settles O18: each outcome is one branch of its instruction, which the hypotheses choose. -/
theorem threadOps : Obligations.ThreadOps := by
  refine ⟨fun h l c o s cc t hs hcore hroom hord hl ht => exec_spawn_sends hs hcore hroom hord hl ht c,
    fun h l c o s hs hcore => ⟨fun hl => ⟨exec_spawn_absent hs hcore hl c o, exec_migr_absent hs hcore hl⟩,
      fun x hl hx => exec_spawn_out hs hcore hl hx c⟩,
    fun h l s cc hs hcore hl => ⟨fun hres heq => ?_, fun hres hne => ?_, fun hres => ?_⟩,
    fun h d tmo s hs hroom => ⟨fun hnow => ?_, fun hevt htmo => ?_⟩,
    fun h s hs => ⟨fun hres hcore => ?_, fun hres hcore => ?_, fun hres => ?_⟩⟩
  · rw [exec_migr hs hcore hl, if_neg (not_not_intro hres), if_pos heq]
  · rw [exec_migr hs hcore hl, if_neg (not_not_intro hres), if_neg hne]
  · rw [exec_migr hs hcore hl, if_pos hres]
  · rw [exec_park hs hroom, if_pos hnow]
  · rw [exec_park hs hroom, if_neg (by simp [hevt, htmo])]
  · rw [exec_quit hs, if_neg (not_not_intro hres), if_pos hcore]
  · rw [exec_quit hs, if_neg (not_not_intro hres), if_neg hcore]
  · rw [exec_quit hs, if_pos hres]

end Sys2Proof.Proofs

/-! ### Loads and stores (R145, R147, R168 to R170) -/

namespace Sys2Proof.Proofs

open Sys2Proof.Machine Sys2Proof.Slice0 Sys2Proof.Laws

/-! #### Requests and replies -/

theorem portRequest_eq (h : Hdr) (dst : List RegId) (q : Req) (s : State) :
    portRequest h dst q s = inPortNow h dst q 1 s := rfl

/-- Bytes that have been read return as a variable result. -/
theorem memResult_clean (h : Hdr) (va : Nat) (read : Option Req) (vals : List RegW) (s : State) :
    memResult h va read false vals s = resultFrom h (memDelay s).1 read vals (memDelay s).2 := rfl

/-- Poisoned bytes that have been read are consumed in their stead. -/
theorem memResult_poisoned (h : Hdr) (va : Nat) (read : Option Req) (vals : List RegW) (s : State) :
    memResult h va read true vals s = consumed h (vals.map RegW.reg) va s := rfl

/-- The executing thread moves to the share that its address names. -/
theorem withMig_departs {s : State} {va l k : Nat} {eff : State → State} (hm : migTarget s va = some (.ok (l, k)))
    (hres : (curT s).res = []) : withMig true s va eff = depart s s.cur l k := by
  simp only [withMig, if_true, hm, migrateHere, if_pos hres]

/-- A core that the context lacks has no share. -/
theorem withMig_absent {s : State} {va l : Nat} {eff : State → State} (hm : migTarget s va = some (.error l)) :
    withMig true s va eff = trapHere s 0x06 (BitVec.ofNat 64 l) := by
  simp only [withMig, if_true, hm, cPROT, w64]

theorem withTarget_traps {s : State} {va z a : Nat} {w : Bool} {c : BitVec 8} {v : Word} {eff : Nat → State → State}
    (hx : access s va z a w = .trap c v) : withTarget s va z a w eff = trapHere s c v := by
  simp [withTarget, hx]

/-! #### LD and ST -/

section LoadStore

variable {h : Hdr} {w : Fin 4} {sx mig : Bool} {x : Fin 4} {ch : CH} {d b : Fin 16} {a : GI} {ix : Option (Fin 16)}
  {disp : BitVec 24} {s : State} {va loc : Nat} (hs : Issues h s) (hva : effAddr s b ix x disp = va)
include hs hva

/-- LD, its room and the move that it asks for settled. -/
theorem exec_ld_target (hroom : HasRoom s) (hmig : mig = true → migTarget s va = none) :
    exec (.ld h w sx x mig ch d b ix disp) s = .next (
      withTarget s va (2 ^ w.val) (2 ^ w.val) false fun loc s =>
        if heldShare s loc then retry s
        else withOrder s true fun s =>
          if portHeld s loc then portRequest h [.g d] (.load va loc (2 ^ w.val) sx) s
          else
            let r := readThread s 0 (curT s) (locsFrom loc (2 ^ w.val))
            memResult h va (some (.load va loc (2 ^ w.val) sx)) (readsPoison s (curT s) (locsFrom loc (2 ^ w.val)))
              [.g d (ldVal (2 ^ w.val) sx r.1)]
              (countCorrected (putT s { curT s with view := r.2 }) (locsFrom loc (2 ^ w.val)))) := by
  subst hva
  show execLd h w sx x mig ch d b ix disp s = _
  rw [execLd, issued hs, withRoom_runs hroom]
  simp only [withMig_runs hmig]

/-- LD with every check passed and nothing before it. -/
theorem exec_ld (hroom : HasRoom s) (hmig : mig = true → migTarget s va = none)
    (hreach : Reaches s va (2 ^ w.val) (2 ^ w.val) false loc) (hord : InOrder s true) :
    exec (.ld h w sx x mig ch d b ix disp) s = .next (
      if portHeld s loc then inPortNow h [.g d] (.load va loc (2 ^ w.val) sx) 1 s
      else
        let r := readThread s 0 (curT s) (locsFrom loc (2 ^ w.val))
        memResult h va (some (.load va loc (2 ^ w.val) sx)) (readsPoison s (curT s) (locsFrom loc (2 ^ w.val)))
          [.g d (ldVal (2 ^ w.val) sx r.1)]
          (countCorrected (putT s { curT s with view := r.2 }) (locsFrom loc (2 ^ w.val)))) := by
  obtain ⟨hacc, hheld⟩ := hreach
  rw [exec_ld_target hs hva hroom hmig, withTarget_runs hacc]
  simp only [hheld, Bool.false_eq_true, if_false, withOrder_runs hord, portRequest_eq]

/-- LD that first asks for a move. -/
theorem exec_ld_mig (hroom : HasRoom s) :
    ∃ eff, exec (.ld h w sx x true ch d b ix disp) s = .next (withMig true s va eff) := by
  subst hva
  show ∃ eff, execLd h w sx x true ch d b ix disp s = .next (withMig true s _ eff)
  rw [execLd, issued hs, withRoom_runs hroom]
  exact ⟨_, rfl⟩

/-- ST, the move that it asks for settled. -/
theorem exec_st_target (hmig : mig = true → migTarget s va = none) :
    exec (.st h w x mig ch a b ix disp) s = .next (
      withTarget s va (2 ^ w.val) (2 ^ w.val) true fun loc s => withBufRoom 1 s fun s =>
        retire h (issueStore (if portHeld s loc then
            putT s { curT s with hostSt := (curT s).hostSt ++ [(s.idCtr + 1, (curT s).fence)] } else s)
          s.cur (va / 32) ((locsFrom loc (2 ^ w.val)).zip (bytesLE (2 ^ w.val) (giVal s a).toNat)))) := by
  subst hva
  show execSt h w x mig ch a b ix disp s = _
  rw [execSt, issued hs]
  simp only [withMig_runs hmig]

theorem exec_st (hmig : mig = true → migTarget s va = none)
    (hacc : access s va (2 ^ w.val) (2 ^ w.val) true = .ok loc) (hbuf : bufWrites (curT s) < 64) :
    exec (.st h w x mig ch a b ix disp) s = .next (
      retire h (issueStore (if portHeld s loc then
          putT s { curT s with hostSt := (curT s).hostSt ++ [(s.idCtr + 1, (curT s).fence)] } else s)
        s.cur (va / 32) ((locsFrom loc (2 ^ w.val)).zip (bytesLE (2 ^ w.val) (giVal s a).toNat)))) := by
  rw [exec_st_target hs hva hmig, withTarget_runs hacc, withBufRoom_runs hbuf]

theorem exec_st_mig : ∃ eff, exec (.st h w x true ch a b ix disp) s = .next (withMig true s va eff) := by
  subst hva
  show ∃ eff, execSt h w x true ch a b ix disp s = .next (withMig true s _ eff)
  rw [execSt, issued hs]
  exact ⟨_, rfl⟩

end LoadStore

/-- Settles O20: with the checks passed a load reads, or waits in the port, and a store is buffered; a check traps. -/
theorem loadStore : Obligations.LoadStore := by
  refine ⟨fun h w sx mig x ch d b ix disp s va loc hs hroom hva hmig hreach hord => ⟨?_, ?_, ?_⟩,
    fun h w mig x ch b a ix disp s va loc hs hva hmig hacc hbuf => ⟨?_, ?_⟩,
    fun h w sx x ch d b a ix disp s va hs hva => ⟨fun l k hm hres => ⟨?_, ?_⟩, fun l hm hroom => ⟨?_, ?_⟩,
      fun c v hacc hroom => ?_, fun c v hacc => ?_⟩⟩
  · intro hf hp
    rw [exec_ld hs hva hroom hmig hreach hord, if_neg (by simp [hf]), hp]
    rfl
  · intro hf hp
    rw [exec_ld hs hva hroom hmig hreach hord, if_neg (by simp [hf]), hp]
    rfl
  · intro hf
    rw [exec_ld hs hva hroom hmig hreach hord, if_pos (Bool.not_eq_false _ ▸ hf)]
  · intro hf
    rw [exec_st hs hva hmig hacc hbuf, if_neg (by simp [hf])]
  · intro hf
    rw [exec_st hs hva hmig hacc hbuf, if_pos (Bool.not_eq_false _ ▸ hf)]
  · have hroom : HasRoom s := by rw [HasRoom, hres]; decide
    exact (exec_ld_mig hs hva hroom).elim fun _ he => he.trans (congrArg _ (withMig_departs hm hres))
  · exact (exec_st_mig hs hva).elim fun _ he => he.trans (congrArg _ (withMig_departs hm hres))
  · exact (exec_ld_mig hs hva hroom).elim fun _ he => he.trans (congrArg _ (withMig_absent hm))
  · exact (exec_st_mig hs hva).elim fun _ he => he.trans (congrArg _ (withMig_absent hm))
  · rw [exec_ld_target hs hva hroom fun h => absurd h Bool.false_ne_true, withTarget_traps hacc]
  · rw [exec_st_target hs hva fun h => absurd h Bool.false_ne_true, withTarget_traps hacc]

/-! #### What a store and a load leave unchanged (R145, R147) -/

section Frame

/-- A state with other names, times and delays: what device steps that are put on the agenda change. -/
def timed (s : State) (n : Nat) (ag : List (Nat × Instr)) (sc : List Nat) : State :=
  { s with idCtr := n, agenda := ag, sched := sc }

variable {s : State} {n k : Nat} {ag : List (Nat × Instr)} {sc : List Nat} {b : Thread} {h : Hdr} {d : Fin 16}

@[simp] theorem curT_timed (s : State) (n : Nat) (ag : List (Nat × Instr)) (sc : List Nat) :
    curT (timed s n ag sc) = curT s := rfl

theorem putT_timed : putT (timed s n ag sc) b = timed (putT s b) n ag sc := rfl

theorem later_timed (i : Instr) :
    later (timed s n ag sc) k i = timed s n (insertTimed (s.clock + k) i ag) sc := rfl

theorem takeDelay_eq (s : State) (lim : Nat) : ∃ sc, (takeDelay s lim).2 = timed s s.idCtr s.agenda sc := by
  rw [takeDelay]
  split
  · exact ⟨s.sched, rfl⟩
  · exact ⟨_, rfl⟩

theorem schedDrain_eq (tk id : Nat) : ∃ ag' sc', schedDrain (timed s n ag sc) tk id = timed s n ag' sc' := by
  obtain ⟨sc', hsc⟩ := takeDelay_eq (timed s n ag sc) drainBound
  show ∃ ag' sc', later (takeDelay (timed s n ag sc) drainBound).2 _ _ = _
  rw [hsc]
  exact ⟨_, sc', rfl⟩

/-- Issuing a store adds one entry to its thread's buffer. -/
theorem issueStore_eq (s : State) (va : Nat) (cells : List (Nat × Byte)) : ∃ id opn n ag sc,
    issueStore s s.cur va cells =
      timed (putT s { curT s with buf := (curT s).buf ++ [.write id va cells opn] }) n ag sc := by
  refine ⟨s.idCtr + 1, (curT s).region.isSome, s.idCtr + 1, ?_⟩
  have hput : issueStore s s.cur va cells =
      let s2 := timed (putT s { curT s with
        buf := (curT s).buf ++ [.write (s.idCtr + 1) va cells (curT s).region.isSome] })
        (s.idCtr + 1) s.agenda s.sched
      if (curT s).region.isSome then s2 else schedDrain s2 s.cur (s.idCtr + 1) := rfl
  rw [hput]
  split
  · exact ⟨_, _, rfl⟩
  · exact schedDrain_eq _ _

theorem countCorrected_eq (s : State) (locs : List Nat) : ∃ rv, countCorrected s locs = { s with reeve := rv } := by
  simp only [countCorrected]
  split
  · exact ⟨s.reeve, rfl⟩
  · exact ⟨_, rfl⟩

/-- Going on after the executing thread was replaced. -/
theorem retire_putT (hsw : h.sw = false) : retire h (timed (putT s b) n ag sc) =
    timed (putT s { b with run := runAt b, pc := nextPc b.pc, hold := s.clock + 1 + h.pace.val }) n ag sc := by
  rw [retire, retireTo_plain hsw, curT_timed, curT_putT, putT_timed, putT_again]
  rfl

/-- A thread with one more store in its buffer, after a plain instruction. -/
def Stored (va : Nat) (cells : List (Nat × Byte)) (a b : Thread) : Prop :=
  b = { a with buf := b.buf, hostSt := b.hostSt, run := b.run, pc := nextPc a.pc, hold := b.hold } ∧
  ∃ id opn, b.buf = a.buf ++ [.write id va cells opn]

/-- Issuing a store and going on changes the thread's buffer and what every instruction changes. -/
theorem issueStore_retire (hsw : h.sw = false) (s : State) (va : Nat) (cells : List (Nat × Byte)) : ∃ b n ag sc,
    retire h (issueStore s s.cur va cells) = timed (putT s b) n ag sc ∧ Stored va cells (curT s) b := by
  obtain ⟨id, opn, n, ag, sc, hst⟩ := issueStore_eq s va cells
  rw [hst, retire_putT hsw]
  refine ⟨_, _, _, _, rfl, ?_, id, opn, ?_⟩
  · rfl
  · rfl

/-- The same where the store is noted to wait behind a FENCE. -/
theorem issueStore_noted (hsw : h.sw = false) (s : State) (va : Nat) (cells : List (Nat × Byte)) (held : Bool)
    (ho : List (Nat × Nat)) : ∃ b n ag sc,
    retire h (issueStore (if held then putT s { curT s with hostSt := ho } else s) s.cur va cells) =
      timed (putT s b) n ag sc ∧ Stored va cells (curT s) b := by
  cases held with
  | false => exact issueStore_retire hsw s va cells
  | true =>
    obtain ⟨b, n, ag, sc, hb, hst⟩ := issueStore_retire hsw (putT s { curT s with hostSt := ho }) va cells
    rw [putT_again, curT_putT] at *
    exact ⟨b, n, ag, sc, hb, hst⟩

/-- The thread with a result added that will write gD. -/
def awaiting (t : Thread) (d : Fin 16) (r : Res) : Thread :=
  { cancelReg t (.g d) with res := (cancelReg t (.g d)).res ++ [{ r with dst := [.g d] }] }

theorem addRes_timed {r : Res} (hr : r.dst = [.g d]) :
    addRes (timed s n ag sc) r = timed (putT s (awaiting (curT s) d r)) n ag sc := by
  rw [addRes, hr]
  rfl

/-- A thread with one more result outstanding, on gD alone, and another view, after a plain instruction. -/
def Awaits (d : Fin 16) (a b : Thread) : Prop :=
  b = { a with res := b.res, view := b.view, run := b.run, pc := nextPc a.pc, hold := b.hold } ∧
  ∃ r, b.res = (cancelReg a (.g d)).res ++ [r] ∧ r.dst = [.g d]

theorem awaits_awaiting (a : Thread) (d : Fin 16) (r : Res) (run : Run) (hold : Nat) :
    Awaits d a { awaiting a d r with run := run, pc := nextPc a.pc, hold := hold } := by
  constructor
  · rfl
  · exact ⟨{ r with dst := [.g d] }, rfl, rfl⟩

/-- Adding a result on gD and going on changes the thread's results and what every instruction changes. -/
theorem addRes_retire (hsw : h.sw = false) (i : Instr) {r : Res} (hr : r.dst = [.g d]) :
    ∃ b ag', retire h (later (addRes (timed s n ag sc) r) k i) = timed (putT s b) n ag' sc ∧ Awaits d (curT s) b := by
  rw [addRes_timed hr, later_timed, retire_putT hsw]
  exact ⟨_, _, rfl, awaits_awaiting ..⟩

/-- Memory bytes that were read are outstanding on gD alone, poisoned or not. -/
theorem memResult_awaits (hsw : h.sw = false) (va : Nat) (read : Option Req) (p : Bool) (v : Word) (s : State) :
    ∃ b n ag sc, memResult h va read p [.g d v] s = timed (putT s b) n ag sc ∧ Awaits d (curT s) b := by
  obtain ⟨sc, hsc⟩ := takeDelay_eq s 4096
  have hm : (memDelay s).2 = timed s s.idCtr s.agenda sc := hsc
  cases p with
  | false =>
    rw [memResult_clean, hm]
    obtain ⟨b, ag, hb, ha⟩ := addRes_retire (s := s) (n := s.idCtr + 1) (ag := s.agenda) (sc := sc) (d := d) hsw
      (.resultReturn s.cur (s.idCtr + 1)) (k := (memDelay s).1) (r :=
        { id := s.idCtr + 1, pc := (curT s).pc, dst := [.g d], vals := [.g d v], wait := .none, join := none, evt := 0
          again := read, sent := s.clock }) rfl
    exact ⟨b, _, ag, sc, hb, ha⟩
  | true =>
    obtain ⟨b, ag, hb, ha⟩ := addRes_retire (s := s) (n := s.idCtr + 1) (ag := s.agenda) (sc := sc) (d := d) hsw
      (.uncorrectableConsumed s.cur va 0) (k := (memDelay s).1) (r :=
        { id := s.idCtr + 1, pc := (curT s).pc, dst := [.g d], vals := [], wait := .none, join := none, evt := 0
          fence := (curT s).fence }) rfl
    rw [memResult_poisoned]
    simp only [consumed, hm]
    exact ⟨b, _, ag, sc, hb, ha⟩

/-- The same after the thread's view took in what it read, and corrected errors were counted. -/
theorem memResult_read (hsw : h.sw = false) (va : Nat) (read : Option Req) (p : Bool) (v : Word) (s : State)
    (vw : View) (locs : List Nat) : ∃ b rv n ag sc,
    memResult h va read p [.g d v] (countCorrected (putT s { curT s with view := vw }) locs) =
      timed (putT { s with reeve := rv } b) n ag sc ∧ Awaits d (curT s) b := by
  obtain ⟨rv, hrv⟩ := countCorrected_eq (putT s { curT s with view := vw }) locs
  obtain ⟨b, n, ag, sc, hb, ha⟩ := memResult_awaits hsw va read p v
      (putT { s with reeve := rv } { curT s with view := vw })
    (d := d)
  rw [putT_again, curT_putT] at *
  rw [hrv]
  exact ⟨b, rv, n, ag, sc, hb, ha⟩

/-- What stays when the executing thread alone changes, names and times apart. -/
theorem timed_putT_frame (s : State) (b : Thread) (n : Nat) (ag : List (Nat × Instr)) (sc : List Nat) :
    (∀ l, Memory.read (timed (putT s b) n ag sc).mem l = Memory.read s.mem l) ∧
    (∀ k, k ≠ s.cur → mget (timed (putT s b) n ag sc).threads k = mget s.threads k) ∧
    curT (timed (putT s b) n ag sc) = b :=
  ⟨fun _ => rfl, fun _ hk => mget_mset_ne _ _ hk, curT_putT s b⟩

end Frame

/-- Settles O21: by issuing, ST adds a buffer entry and LD a result, and nothing but their own thread changes. -/
theorem loadStoreFrame : Obligations.LoadStoreFrame := by
  refine ⟨fun h w mig x ch a b ix disp s t loc hs hsw hmig hacc hbuf ht => ?_,
    fun h w sx mig x ch d b ix disp s t loc hs hsw hroom hmig hreach hord hf ht => ?_⟩
  · obtain ⟨b', n, ag, sc, hb, hstored, hbuf'⟩ := issueStore_noted hsw s (effAddr s b ix x disp / 32)
      ((locsFrom loc (2 ^ w.val)).zip (bytesLE (2 ^ w.val) (giVal s a).toNat)) (portHeld s loc)
      ((curT s).hostSt ++ [(s.idCtr + 1, (curT s).fence)])
    rw [exec_st hs rfl hmig hacc hbuf, hb] at ht
    obtain rfl := Host.Outcome.next.inj ht
    obtain ⟨hmem, hthr, hcur⟩ := timed_putT_frame s b' n ag sc
    rw [hcur]
    exact ⟨hmem, hthr, rfl, hstored, hbuf'⟩
  · obtain ⟨b', rv, n, ag, sc, hb, hb', r, hres, hdst⟩ := memResult_read hsw (effAddr s b ix x disp)
      (some (.load (effAddr s b ix x disp) loc (2 ^ w.val) sx)) (readsPoison s (curT s) (locsFrom loc (2 ^ w.val)))
      (ldVal (2 ^ w.val) sx (readThread s 0 (curT s) (locsFrom loc (2 ^ w.val))).1) s
      (readThread s 0 (curT s) (locsFrom loc (2 ^ w.val))).2 (locsFrom loc (2 ^ w.val)) (d := d)
    rw [exec_ld hs rfl hroom hmig hreach hord, if_neg (by simp [hf]), hb] at ht
    obtain rfl := Host.Outcome.next.inj ht
    obtain ⟨hmem, hthr, hcur⟩ := timed_putT_frame { s with reeve := rv } b' n ag sc
    rw [hcur]
    exact ⟨hmem, hthr, rfl, hb', r, hres, hdst⟩

end Sys2Proof.Proofs

/-! ### ATOM (R150, R171, R172) -/

namespace Sys2Proof.Proofs

open Sys2Proof.Machine Sys2Proof.Slice0 Sys2Proof.Laws

/-! #### Where the step is taken -/

section Atom

variable {h : Hdr} {op : AtomOp} {u dw : Bool} {d a : Fin 16} {b : GI} {n : Option GI} {s : State} {loc : Nat}

/-- The width of an ATOM. -/
def atomBytes (dw : Bool) : Nat := if dw then 8 else 4

/-- The third operand of an ATOM, cut to its width. -/
def atomThird (s : State) (dw : Bool) (n : Option GI) : Nat :=
  match n with
  | some x => (giVal s x).toNat % 2 ^ (8 * atomBytes dw)
  | none => 0

/-- The second operand of an ATOM, cut to its width. -/
def atomSecond (s : State) (dw : Bool) (b : GI) : Nat := (giVal s b).toNat % 2 ^ (8 * atomBytes dw)

/-- ATOM once it is in order: in the port, on its way home, or performed. -/
def atomIssued (h : Hdr) (op : AtomOp) (u : Bool) (w : Nat) (d : Fin 16) (va loc y c : Nat) (s : State) : State :=
  let q : Req := .atom va loc w op u y c
  if atomHeld s loc then portRequest h [.g d] q (markCloser s)
  else
    let e := atomTravels s loc
    if e.1 then
      portSend h [.g d] q false
        (latency e.2.cmap (routerOf (coreOf e.2.cur)) (homeRouter e.2 (curGen e.2) loc)) (markCloser e.2)
    else
      let r := atomStep (countCorrected e.2 (locsFrom loc w)) op u w loc y c
      memResult h va none (poisoned e.2 (locsFrom loc w)) [.g d (w64 r.1)] r.2

theorem exec_atom_checked (hs : Issues h s) (hroom : HasRoom s)
    (hreach : Reaches s (gVal s a).toNat (atomBytes dw) (atomBytes dw) true loc) :
    exec (.atom h op u dw d a b n) s = .next (
      if regionOf loc = 2 ∧ !isSram loc then trapHere s cPROT (w64 (gVal s a).toNat)
      else withOrder s true fun s => withTstDone s fun s =>
        atomIssued h op u (atomBytes dw) d (gVal s a).toNat loc (atomSecond s dw b) (atomThird s dw n) s) := by
  obtain ⟨hacc, hheld⟩ := hreach
  show execAtom h op u dw d a b n s = _
  rw [execAtom, issued hs, withRoom_runs hroom]
  exact congrArg _ (withChecks_runs hacc hheld)

theorem memResult_eq (h : Hdr) (va : Nat) (read : Option Req) (p : Bool) (vals : List RegW) (s : State) :
    memResult h va read p vals s = if p then consumed h (vals.map RegW.reg) va s
      else resultFrom h (memDelay s).1 read vals (memDelay s).2 := by
  cases p <;> rfl

theorem atomTravels_cur (s : State) (loc : Nat) : (atomTravels s loc).2.cur = s.cur := by
  unfold atomTravels
  split
  · rfl
  · show (takeDelay s 2).2.cur = s.cur
    obtain ⟨sc, hsc⟩ := takeDelay_eq s 2
    rw [hsc]
    rfl

theorem atomTravels_sram (hl : isSram loc = true) (s : State) : atomTravels s loc = (false, s) := by
  rw [atomTravels, if_pos hl]

theorem exec_atom_host (hs : Issues h s) (hroom : HasRoom s)
    (hreach : Reaches s (gVal s a).toNat (atomBytes dw) (atomBytes dw) true loc) (h2 : regionOf loc = 2)
    (hl : isSram loc = false) :
    exec (.atom h op u dw d a b n) s = .next (trapHere s 0x06 (BitVec.ofNat 64 (gVal s a).toNat)) := by
  rw [exec_atom_checked hs hroom hreach, if_pos ⟨h2, by rw [hl, Bool.not_false]⟩, cPROT, w64]

theorem exec_atom (hs : Issues h s) (hroom : HasRoom s)
    (hreach : Reaches s (gVal s a).toNat (atomBytes dw) (atomBytes dw) true loc)
    (hl : regionOf loc = 2 → isSram loc = true) (hfree : StoresFree s) (hord : InOrder s true) :
    exec (.atom h op u dw d a b n) s = .next (
      atomIssued h op u (atomBytes dw) d (gVal s a).toNat loc (atomSecond s dw b) (atomThird s dw n) s) := by
  have hhost : ¬ (regionOf loc = 2 ∧ (!isSram loc) = true) := fun ⟨h2, hn⟩ => by simp [hl h2] at hn
  rw [exec_atom_checked hs hroom hreach, if_neg hhost, withOrder_runs hord, withTstDone_runs hfree]

end Atom

/-! #### The step -/

theorem length_bytesLE (n x : Nat) : (bytesLE n x).length = n := by simp [bytesLE]

theorem locsFrom_succ (loc n : Nat) : locsFrom loc (n + 1) = loc :: locsFrom (loc + 1) n := by
  simp [locsFrom, List.range_succ_eq_map, Nat.add_comm, Nat.add_left_comm, Function.comp_def]

/-- Bytes that are written from a location on read back there, and other locations keep theirs. -/
theorem read_writes_from {m : Memory} (hm : Memory.wf m = true) (loc a : Nat) (bs : List Byte) :
    Memory.read (Memory.writes m ((locsFrom loc bs.length).zip bs)) a =
      if loc ≤ a ∧ a < loc + bs.length then bs.getD (a - loc) 0 else Memory.read m a := by
  induction bs generalizing loc m with
  | nil => rw [if_neg (by simp only [List.length_nil]; omega)]; rfl
  | cons x bs ih =>
    rw [List.length_cons, locsFrom_succ, List.zip_cons_cons, Memory.writes, List.foldl_cons]
    refine (ih (write_wf loc x hm) (loc + 1)).trans ?_
    rw [read_write _ _ _ hm]
    rcases Nat.lt_trichotomy a loc with ha | rfl | ha
    · rw [if_neg (by omega), if_neg (by omega), if_neg (by omega)]
    · rw [if_neg (by omega), if_pos rfl, if_pos (by omega), Nat.sub_self, List.getD_cons_zero]
    · rw [show a - loc = (a - (loc + 1)) + 1 by omega, List.getD_cons_succ, if_neg (Nat.ne_of_gt ha)]
      exact ite_congr (propext (by omega)) (fun _ => rfl) (fun _ => rfl)

section Step

variable {s : State} {op : AtomOp} {u : Bool} {n loc b c : Nat}

/-- With no store of its own buffered ATOM's step first changes of its thread the run alone. -/
theorem closeRegion_drained (hbuf : (curT s).buf = []) (hreg : (curT s).region = none) (p : BufItem → Bool) :
    (drainWhere (closeRegion s s.cur) s.cur p).mem = s.mem := by
  have hclose : closeRegion s s.cur = putT s { curT s with run := { (curT s).run with closer := true } } := by
    have hr : (getT s s.cur).region = none := hreg
    unfold closeRegion
    dsimp only
    split
    · rfl
    · rename_i hsome
      simp [hr] at hsome
  have hb : (getT (putT s { curT s with run := { (curT s).run with closer := true } }) s.cur).buf = [] := by
    rw [putT, getT_setT_same]
    exact hbuf
  rw [hclose, drainWhere, hb]
  rfl

theorem atomStep_old (hbuf : (curT s).buf = []) (hreg : (curT s).region = none) :
    (atomStep s op u n loc b c).1 = memN s loc n := by
  simp only [atomStep, atomBy, closeRegion_drained hbuf hreg]
  split <;> rfl

theorem atomStep_mem (hbuf : (curT s).buf = []) (hreg : (curT s).region = none) :
    (atomStep s op u n loc b c).2.mem = match atomVal op u n (memN s loc n) b c with
      | some y => Memory.writes s.mem ((locsFrom loc n).zip (bytesLE n y))
      | none => s.mem := by
  have hold : ofBytesLE (Memory.readN s.mem loc n) = memN s loc n := rfl
  simp only [atomStep, atomBy, closeRegion_drained hbuf hreg, hold]
  cases atomVal op u n (memN s loc n) b c with
  | some y => simp only [noteWriter_mem, modT_mem, append_mem, closeRegion_drained hbuf hreg]
  | none => simp only [modT_mem, closeRegion_drained hbuf hreg]

end Step

/-! #### What the operations write -/

theorem exists_min_signedN (u : Bool) (n x b c : Nat) (hu : u = false) : ∃ y, atomVal .min u n x b c = some y ∧
    signedN (8 * n) y = min (signedN (8 * n) x) (signedN (8 * n) b) := by
  subst hu
  refine ⟨_, rfl, ?_⟩
  by_cases hle : signedN (8 * n) x ≤ signedN (8 * n) b
  · simp [hle, Int.min_eq_left hle]
  · simp [hle, Int.min_eq_right (Int.le_of_not_le hle)]

theorem exists_max_signedN (u : Bool) (n x b c : Nat) (hu : u = false) : ∃ y, atomVal .max u n x b c = some y ∧
    signedN (8 * n) y = max (signedN (8 * n) x) (signedN (8 * n) b) := by
  subst hu
  refine ⟨_, rfl, ?_⟩
  by_cases hle : signedN (8 * n) x ≤ signedN (8 * n) b
  · simp [hle, Int.max_eq_right hle]
  · simp [hle, Int.max_eq_left (Int.le_of_not_le hle)]

/-- Settles O22: ATOM is issued by one case of `atomIssued`, its step is `atomStep_old` and `atomStep_mem`. -/
theorem atoms : Obligations.Atoms := by
  refine ⟨fun h op u dw d a b n s loc hs hroom hreach => ⟨exec_atom_host hs hroom hreach,
      fun hl hfree hord => ⟨fun hheld => ?_, fun hheld => ?_, fun hsr => atomTravels_sram hsr s⟩⟩,
    fun s op u n loc b c hbuf hreg hmem => ⟨atomStep_old hbuf hreg, fun y hy a => ?_, fun hnone a => ?_⟩,
    fun u n x b c hx hb => ⟨rfl, rfl, rfl, rfl, rfl, ?_, ?_, ?_, ?_, fun _ => exists_min_signedN false n x b c rfl,
      fun _ => exists_max_signedN false n x b c rfl⟩⟩
  · rw [exec_atom hs hroom hreach hl hfree hord, atomIssued]
    dsimp only
    rw [if_pos hheld]
    rfl
  · rw [exec_atom hs hroom hreach hl hfree hord, atomIssued]
    dsimp only
    rw [if_neg (by simp [hheld]), atomTravels_cur]
    refine congrArg _ (ite_congr rfl (fun _ => rfl) fun _ => memResult_eq ..)
  · rw [atomStep_mem hbuf hreg, hy]
    have hread := read_writes_from hmem loc a (bytesLE n y)
    rwa [length_bytesLE] at hread
  · rw [atomStep_mem hbuf hreg, hnone]
  · simp [atomVal, Nat.min_def]
  · simp [atomVal, Nat.max_def]
  · intro h
    simp [atomVal, h]
  · intro h
    simp [atomVal, h]

end Sys2Proof.Proofs

/-! ### Objects, bindings, fences, monitors and barriers (R162, R173 to R190) -/

namespace Sys2Proof.Proofs

open Sys2Proof.Machine Sys2Proof.Slice0 Sys2Proof.Laws

/-! #### ACQ and REL (R174, R175) -/

section AcqRel

variable {h : Hdr} {x : Fin 4} {d b : Fin 16} {ix : Option (Fin 16)} {disp : BitVec 24} {s : State} {va loc : Nat}

/-- A request sent to its home, or held in the port. -/
theorem portSend_eq_given (h : Hdr) (dst : List RegId) (q : Req) (held : Bool) (d : Nat) (s : State) :
    portSend h dst q held d s = if held then inPortNow h dst q d s else sentHome h dst q d s := by
  cases held <;> rfl

theorem exec_acq (hs : Issues h s) (hroom : HasRoom s) (hva : effAddr s b ix x disp = va)
    (hreach : Reaches s va 8 8 false loc) : exec (.acq h x d b ix disp) s = .next (
      if isBound s (curT s).ctx va then trapHere s cPROT (w64 va)
      else if stepDue (curT s) && !acqGoes s loc then retry s
      else withTstDone s fun s => portSend h [.g d] (.acq va loc) (objHeld s loc) (acqLegs s loc).1 s) := by
  obtain ⟨hacc, hheld⟩ := hreach
  subst hva
  show execAcq h x d b ix disp s = _
  rw [execAcq, issued hs, withRoom_runs hroom]
  simp only [withChecks_runs hacc hheld]

theorem exec_rel {acc : Bool} {v : GI} (hs : Issues h s) (hroom : HasRoom s) (hva : effAddr s b ix x disp = va)
    (hreach : Reaches s va 8 8 true loc) : exec (.rel h acc x v b ix disp) s = .next (
      if isBound s (curT s).ctx va then trapHere s cPROT (w64 va)
      else withOrder s false fun s => withTstDone s fun s =>
        portSend h [] (.rel va loc acc (giVal s v)) (objHeld s loc) (relLeg s loc) (markCloser s)) := by
  obtain ⟨hacc, hheld⟩ := hreach
  subst hva
  show execRel h acc x v b ix disp s = _
  rw [execRel, issued hs, withRoom_runs hroom]
  simp only [withChecks_runs hacc hheld]

/-- An ACQ in order is not held. -/
theorem acq_not_due (hord : InOrder s false ∨ acqGoes s loc = true) : (stepDue (curT s) && !acqGoes s loc) = false := by
  rcases hord with hord | hgo
  · rw [InOrder, Bool.false_and, Bool.or_false] at hord
    rw [hord, Bool.false_and]
  · rw [hgo, Bool.not_true, Bool.and_false]

end AcqRel

/-! #### The steps at the object (R148, R149) -/

section Object

variable {s : State} {tk rid loc : Nat} {r : Res}

/-- A request that lands meets its effect. -/
theorem lands_runs {eff : State → State} (hl : Lands s tk loc r) (hr : findRes (getT s tk) rid = some r)
    (hreg : (getT s tk).region = none) :
    (unlessLost s tk rid loc fun s => atShare s tk rid loc fun s => afterWalks s tk rid eff) = eff s := by
  obtain ⟨hlost, hdy, htst, hheld, hsent⟩ := hl
  have hdisc : discarded s (getT s tk).ctx (coreOf tk) loc = false := by rw [discarded, hdy, Bool.false_and]
  have hwalk : regionWalks (getT s tk) = false := by rw [regionWalks, hreg]; rfl
  simp only [unlessLost, hlost, atShare, hdisc, htst, Bool.false_eq_true, if_false]
  have hafter : afterWalks s tk rid eff = eff s := by
    simp only [afterWalks, hwalk, Bool.false_eq_true, if_false]
  split
  · rename_i cc hcc
    obtain ⟨hsram, hget⟩ : isSram loc = true ∧ mget s.cctxs (sramKey loc) = some cc := by
      split at hcc
      · exact ⟨‹_›, hcc⟩
      · simp at hcc
    have hres : cc.cst = .resident := by simpa [heldShare, hsram, hget] using hheld
    have hfrom : ((findRes (getT s tk) rid).bind (·.sentTo)).getD cc.phys = cc.phys := by
      rw [hr, Option.bind_some]
      rcases hsent with hnone | hsome
      · rw [hnone, Option.getD_none]
      · rw [hsome, if_pos hsram, hget, Option.map_some, Option.getD_some]
    simp only [atCC, hres, ne_eq, not_true_eq_false, if_false, hfrom, true_or, if_true, hafter]
  · exact hafter

/-- A request that no port holds is performed where it arrives. -/
theorem exec_remoteRequest {q : Req} (hq : requestOf s tk rid = some (r, q)) (hport : r.port = false) :
    exec (.remoteRequest tk rid) s = .next (performRequest s tk rid r q) := by
  have hin : inPort s tk r = false := by rw [inPort, hport, Bool.false_and]
  show execRemoteRequest tk rid s = _
  simp only [execRemoteRequest, hq, hin, Bool.false_eq_true, if_false]

theorem drainWhere_empty (hbuf : (getT s tk).buf = []) (p : BufItem → Bool) : drainWhere s tk p = s := by
  rw [drainWhere, hbuf]
  rfl

/-- With an empty buffer an acquire reads what memory holds. -/
theorem acqStep_fst (hbuf : (getT s tk).buf = []) : (acqStep s tk loc).1 = w64 (memN s loc 8) := by
  have hdrain : acqDrain s tk loc = s := by
    simp only [acqDrain, hbuf, List.any_nil, Bool.false_eq_true, if_false]
    exact drainWhere_empty hbuf _
  rw [acqStep, hdrain]

theorem closeRegion_mem (hreg : (getT s tk).region = none) : (closeRegion s tk).mem = s.mem := by
  unfold closeRegion
  dsimp only
  split
  · rfl
  · rename_i hsome
    simp [hreg] at hsome

theorem closeRegion_buf (hreg : (getT s tk).region = none) : (getT (closeRegion s tk) tk).buf = (getT s tk).buf := by
  unfold closeRegion
  dsimp only
  split
  · rw [getT_setT_same]
  · rename_i hsome
    simp [hreg] at hsome

/-- With an empty buffer a release writes its object alone. -/
theorem relStep_mem (hbuf : (getT s tk).buf = []) (hreg : (getT s tk).region = none) (acc : Bool) (val : Word) :
    (relStep s tk rid loc acc val).mem = Memory.writes s.mem ((locsFrom loc 8).zip
      (bytesLE 8 (if acc then w64 (memN s loc 8) + val else val).toNat)) := by
  have hclosed : (getT (closeRegion s tk) tk).buf = [] := (closeRegion_buf hreg).trans hbuf
  have hmem : memN (closeRegion s tk) loc 8 = memN s loc 8 := by rw [memN, memN, closeRegion_mem hreg]
  simp only [relStep, drainWhere_empty hclosed, noteWriter_mem, modT_mem, append_mem, closeRegion_mem hreg, hmem]

end Object

/-- Settles O23: ACQ and REL are requests to their object's home, where `acqStep` and `relStep` read and write it. -/
theorem acquireRelease : Obligations.AcquireRelease := by
  refine ⟨fun h x d b ix disp s va loc hs hroom hva hreach => ⟨fun hbound => ?_,
      fun hbound hord hfree => ⟨fun hobj => ?_, fun hobj => ?_⟩⟩,
    fun h acc x b v ix disp s va loc hs hroom hva hreach => ⟨fun hbound => ?_,
        fun hbound hord hfree => ⟨fun hobj => ?_, fun hobj => ?_⟩⟩,
    fun tk rid va loc acc val r s hr hl hreg hport => ⟨fun hq hp => ?_, fun hq => ?_,
        fun hbuf hmem => ⟨acqStep_fst hbuf, fun a => ?_⟩⟩⟩
  · rw [exec_acq hs hroom hva hreach, if_pos hbound, cPROT, w64]
  · rw [exec_acq hs hroom hva hreach, if_neg (by simp [hbound]), if_neg (by simp [acq_not_due hord]),
      withTstDone_runs hfree, portSend_eq_given, if_neg (by simp [hobj])]
  · rw [exec_acq hs hroom hva hreach, if_neg (by simp [hbound]), if_neg (by simp [acq_not_due hord]),
      withTstDone_runs hfree, portSend_eq_given, if_pos hobj]
  · rw [exec_rel hs hroom hva hreach, if_pos hbound, cPROT, w64]
  · rw [exec_rel hs hroom hva hreach, if_neg (by simp [hbound]), withOrder_runs hord, withTstDone_runs hfree,
      portSend_eq_given, if_neg (by simp [hobj])]
  · rw [exec_rel hs hroom hva hreach, if_neg (by simp [hbound]), withOrder_runs hord, withTstDone_runs hfree,
      portSend_eq_given, if_pos hobj]
  · rw [exec_remoteRequest hq hport]
    refine congrArg _ ((lands_runs hl hr hreg).trans ?_)
    rw [hp]
    rfl
  · rw [exec_remoteRequest hq hport]
    exact congrArg _ (lands_runs hl hr hreg)
  · rw [relStep_mem hbuf hreg]
    have hread := read_writes_from hmem loc a (bytesLE 8 (if acc then w64 (memN s loc 8) + val else val).toNat)
    rwa [length_bytesLE] at hread

/-! #### BIND, FENCE and IDEM (R173, R176, R178) -/

section Bind

/-- The binding of a range to an object that stands in a set. -/
def sameBind (base n obj : Nat) (x : Binding) : Bool := x.base == base && x.len == n && x.obj == obj && x.stands

/-- The set of bindings after BIND or BIND.U, whose operands have no trap. -/
def bindSet (s : State) (u : Bool) (base n obj : Nat) : List Binding :=
  if u then (liveBinds s).map fun x => if sameBind base n obj x then { x with until_ := some (s.clock + 8) } else x
  else if (liveBinds s).any (sameBind base n obj) then liveBinds s
  else liveBinds s ++ [{ base := base, len := n, obj := obj, from_ := s.clock + 8, until_ := none }]

variable {h : Hdr} {u : Bool} {b o : Fin 16} {len : GI} {s : State}

theorem exec_bind (hs : Issues h s) : exec (.bind h u b len o) s = .next (
    match bindTrap u ((liveBinds s).filter Binding.stands) (gVal s b).toNat (giVal s len).toNat (gVal s o).toNat with
    | some (cause, tv) => trapHere s cause (w64 tv)
    | none => holdFor 8 (retire h (modCtx s (curT s).ctx fun x =>
        { x with binds := bindSet s u (gVal s b).toNat (giVal s len).toNat (gVal s o).toNat }))) := by
  show execBind h u b len o s = _
  rw [execBind, issued hs]
  rfl

theorem bindTrap_misaligned {bs : List Binding} {base n obj : Nat} (hb : base % 32 ≠ 0 ∨ n % 32 ≠ 0 ∨ n = 0) :
    bindTrap u bs base n obj = some (0x05, base) := by
  simp only [bindTrap, hb, if_true]
  rfl

theorem bindTrap_object {bs : List Binding} {base n obj : Nat} (hb : base % 32 = 0) (hn : n % 32 = 0) (h0 : n ≠ 0)
    (ho : obj % 8 ≠ 0) : bindTrap u bs base n obj = some (0x05, obj) := by
  simp only [bindTrap, hb, hn, h0, ho, ne_eq, not_true_eq_false, not_false_eq_true, or_self, if_true, if_false]
  rfl

variable {bs : List Binding} {base n obj : Nat} {x : Binding}

/-- The set of a BIND whose operands are aligned and translated. -/
theorem bindTrap_of_translated (hw : windowOf base = .translated) (hw' : windowOf (base + n - 1) = .translated)
    (hwo : windowOf obj = .translated) (hb : base % 32 = 0) (hn : n % 32 = 0) (h0 : n ≠ 0) (ho : obj % 8 = 0) :
    bindTrap false bs base n obj =
      if bs.any (fun b => !(b.base == base && b.len == n && b.obj == obj) && overlaps base n b.base b.len) then
        some (0x06, base)
      else if bs.any (fun b => b.covers obj || overlaps base n b.obj 8) || overlaps base n obj 8 then some (0x06, obj)
      else if 64 ≤ bs.length && !bs.any (fun b => b.base == base && b.len == n && b.obj == obj) then some (0x06, base)
      else none := by
  simp only [bindTrap, hb, hn, h0, ho, hw, hw', hwo, ne_eq, not_true_eq_false, or_self, if_false,
    reduceCtorEq, false_and, decide_false, Bool.false_eq_true, cPROT]

end Bind

/-- Settles O24: BIND by `exec_bind` and `bindTrap`, FENCE and IDEM by the branches of their effects. -/
theorem bindFenceIdem : Obligations.BindFenceIdem := by
  refine ⟨fun h u b o len s hs => ⟨fun hbad => ?_, fun hb hn h0 ho => ?_, fun c v ht => ?_,
      fun ht => ⟨fun hu hno => ?_, fun hu hsame => ?_, fun hu => ?_⟩⟩,
    fun bs base n obj x hx hw hw' hwo hb hn h0 ho => ⟨fun hlt hlt' hne => ?_, fun hall hle hlt => ?_⟩,
    fun h sc s hs => ⟨fun hr => ?_, fun hr hsc => ?_, fun hr hsc => ?_, fun hres => ?_, fun hres => ?_⟩⟩
  · rw [exec_bind hs, bindTrap_misaligned hbad]; rfl
  · rw [exec_bind hs, bindTrap_object hb hn h0 ho]; rfl
  · rw [exec_bind hs, ht]; rfl
  · rw [exec_bind hs, ht, bindSet, hu, if_neg (by simp), if_neg (by simpa [sameBind] using hno)]
  · rw [exec_bind hs, ht, bindSet, hu, if_neg (by simp), if_pos (by simpa [sameBind] using hsame)]
  · rw [exec_bind hs, ht, bindSet, hu, if_pos rfl]; rfl
  · rw [bindTrap_of_translated hw hw' hwo hb hn h0 ho, if_pos]
    refine List.any_eq_true.mpr ⟨x, hx, ?_⟩
    simp [overlaps, hne, hlt, hlt']
  · rw [bindTrap_of_translated hw hw' hwo hb hn h0 ho, if_neg, if_pos]
    · exact Bool.or_eq_true_iff.mpr (.inl (List.any_eq_true.mpr ⟨x, hx, by simp [Binding.covers, hle, hlt]⟩))
    · rw [Bool.not_eq_true, List.any_eq_false]
      intro y hy
      rcases hall y hy with hsame | hapart
      · rw [hsame, Bool.not_true, Bool.false_and]
        exact Bool.false_ne_true
      · rw [hapart, Bool.and_false]
        exact Bool.false_ne_true
  · show execFence h sc s = _; rw [execFence, issued hs]; simp only [hr, if_true]
  · show execFence h sc s = _; rw [execFence, issued hs]; simp only [hr, hsc, if_true, Bool.false_eq_true, if_false]
  · show execFence h sc s = _; rw [execFence, issued hs]; simp only [hr, hsc, Bool.false_eq_true, if_false]
  · show execIdem h s = _; rw [execIdem, issued hs]; simp only [hres, ne_eq, not_true_eq_false, if_false]
  · show execIdem h s = _; rw [execIdem, issued hs]; simp only [hres, ne_eq, not_false_eq_true, if_true]

/-! #### Monitors (R180 to R184) -/

section Monitors

variable {h : Hdr} {s : State}

theorem exec_mon {x : Fin 4} {b : Fin 16} {ix : Option (Fin 16)} {disp : BitVec 24} {loc : Nat} (hs : Issues h s)
    (hreach : Reaches s (effAddr s b ix x disp) 1 1 false loc) : exec (.mon h x b ix disp) s = .next (
      let s1 := if (monOf (curT s) (loc / 32)).isSome then s
        else if 4 ≤ (curT s).mons.length then
          (match (curT s).mons.head? with
            | some m => displaceOne s s.cur m
            | none => s)
        else s
      retire h (putT s1 (armed s (curT s1) loc))) := by
  obtain ⟨hacc, hheld⟩ := hreach
  show execMon h x b ix disp s = _
  rw [execMon, issued hs]
  exact congrArg _ (withChecks_runs hacc hheld)

theorem exec_mwait {c : Fin 32} {a : Fin 16} {tmo : GI} (hs : Issues h s) (hroom : HasRoom s) :
    exec (.mwait h c a tmo) s = .next (
      match (lineOf s (gVal s a).toNat).bind fun l => monOf (curT s) l with
      | none => waitNow h [.c c false] evMDSP none s
      | some m =>
        let s1 := putT s (disarm (curT s) m.line)
        if m.written then
          (if noticeIn s s.cur m = 0 then waitNow h [.c c true] evMWR none s1
           else waitOver h (noticeIn s s.cur m) [.c c true] evMWR none s1)
        else if tmoOf (giVal s tmo) = 0 then waitNow h [.c c false] evTMO none s1
        else
          let r := resultWait [.c c] (.mwait m.line) s
          retire h (schedTimeout r.2 s.cur r.1 (tmoOf (giVal s tmo)))) := by
  show execMwait h c a tmo s = _
  rw [execMwait, issued hs, withRoom_runs hroom] <;> rfl

end Monitors

/-- Settles O25: the cases of `exec_mon` and `exec_mwait`. -/
theorem monitors : Obligations.Monitors := by
  refine ⟨fun h x b ix disp s loc hs hreach => ⟨fun hany => ?_, fun m rest hnone hfull hmons => ?_⟩,
    fun h a c tmo s hs hroom => ⟨fun hnone => ?_,
        fun m hm => ⟨fun hw hn => ?_, fun hw hn => ?_, fun hw ht => ?_, fun hw ht => ?_⟩⟩⟩
  · rw [exec_mon hs hreach]
    by_cases hmon : (monOf (curT s) (loc / 32)).isSome = true
    · simp only [hmon, if_true]
    · have hlen : ¬ 4 ≤ (curT s).mons.length := by have := hany.resolve_left hmon; omega
      simp only [hmon, hlen, if_false, Bool.false_eq_true]
  · rw [exec_mon hs hreach]
    simp only [hnone, Option.isSome_none, Bool.false_eq_true, if_false, hfull, if_true]
    rw [hmons, List.head?_cons]
  · rw [exec_mwait hs hroom, hnone]
  · rw [exec_mwait hs hroom, hm]; simp only [hw, hn, if_true]
  · rw [exec_mwait hs hroom, hm]; simp only [hw, hn, if_true, if_false]
  · rw [exec_mwait hs hroom, hm]; simp only [hw, ht, Bool.false_eq_true, if_true, if_false]
  · rw [exec_mwait hs hroom, hm]; simp only [hw, ht, Bool.false_eq_true, if_false]

/-! #### Barriers (R185 to R190) -/

section Barriers

variable {h : Hdr} {s : State} {a : Fin 16} {c : Fin 32} {tmo n ph : GI} {loc : Nat}

theorem exec_bar {k : BarK} {sense : GI} (hs : Issues h s) (hroom : HasRoom s) : exec (.bar h k c sense tmo) s = .next (
    let x := (curT s).ctx
    let set := barSetOf k (routerOf (coreOf s.cur))
    let b := barAt s x set
    let s1 := checkBar (setBar s x set { b with arrived := addNew s.cur b.arrived }) x set
    if (giVal s sense).getLsbD 0 ≠ b.phase then waitNow h [.c c true] evBPH none s
    else if tmoOf (giVal s tmo) = 0 ∧ (barAt s1 x set).full.isNone then waitNow h [.c c false] evTMO none s
    else
      let r := resultWait [.c c] (.bar set) s1
      retire h (schedTimeout r.2 s.cur r.1 (tmoOf (giVal s tmo)))) := by
  show execBar h k c sense tmo s = _
  rw [execBar, issued hs, withRoom_runs hroom]

/-- A scratchpad barrier whose checks pass. -/
theorem withBarrier_runs {va : Nat} {eff : Nat → State → State} (hw : windowOf va = .local_ ∨ windowOf va = .global)
    (hreach : Reaches s va 8 8 false loc) (hord : InOrder s true) : withBarrier s va eff = eff loc s := by
  obtain ⟨hacc, hheld⟩ := hreach
  rw [withBarrier, if_pos hw, withAccess_runs hacc hheld hord]

/-- A barrier outside the shares. -/
theorem withBarrier_traps {va : Nat} {eff : Nat → State → State} (hl : windowOf va ≠ .local_)
    (hg : windowOf va ≠ .global) :
    withBarrier s va eff = trapHere s 0x06 (BitVec.ofNat 64 va) := by
  rw [withBarrier, if_neg (not_or.mpr ⟨hl, hg⟩), cPROT, w64]

theorem exec_bara (hs : Issues h s) (hroom : HasRoom s) : exec (.bara h a n) s = .next (
    withBarrier s (gVal s a).toNat fun loc s => withTstDone s fun s =>
      if hostHeld s then portRequest h [] (.bara loc ((giVal s n).toNat % 2 ^ 32)) (markCloser s)
      else
        let s1 := drainAll (closeCur s) s.cur
        let r := resultWait [] .none s1
        retire h (sendArrival r.2 (relLeg s loc) loc ((giVal s n).toNat % 2 ^ 32) (curT s1).view
            (10000 + s.cur) s.cur r.1)) := by
  show execBara h a n s = _
  rw [execBara, issued hs, withRoom_runs hroom]

theorem bwaitAt_runs {t : Nat} {dst : List RegId} (hroom : HasRoom s)
    (hw : windowOf (gVal s a).toNat = .local_ ∨ windowOf (gVal s a).toNat = .global)
    (hreach : Reaches s (gVal s a).toNat 8 8 false loc) (hord : InOrder s true) : bwaitAt h a ph t dst s =
      if barWord s loc / 2 ^ 63 % 2 ≠ (giVal s ph).toNat % 2 then
        waitNow h (valsOf dst 0 true) evBPH (some (acquired (acqDrain s s.cur loc) loc)) (acqDrain s s.cur loc)
      else if t = 0 then waitNow h (valsOf dst 0 false) evTMO none s
      else
        let r := resultWait dst (.bwait loc) s
        retire h (schedTimeout { r.2 with bwaits := r.2.bwaits ++ [(loc, s.cur, r.1)] } s.cur r.1 t) := by
  rw [bwaitAt, withRoom_runs hroom, withBarrier_runs hw hreach hord]
  rfl

theorem bwaitAt_traps {t : Nat} {dst : List RegId} (hroom : HasRoom s) (hl : windowOf (gVal s a).toNat ≠ .local_)
    (hg : windowOf (gVal s a).toNat ≠ .global) :
    bwaitAt h a ph t dst s = trapHere s 0x06 (BitVec.ofNat 64 (gVal s a).toNat) := by
  rw [bwaitAt, withRoom_runs hroom, withBarrier_traps hl hg]

theorem exec_bwait (hs : Issues h s) : exec (.bwait h a ph) s = .next (bwaitAt h a ph 0xFFFFFFFF [] s) := by
  show execBwait h a ph s = _
  rw [execBwait, issued hs]

theorem exec_bwaitT (hs : Issues h s) :
    exec (.bwaitT h c a ph tmo) s = .next (bwaitAt h a ph (tmoOf (giVal s tmo)) [.c c] s) := by
  show execBwaitT h c a ph tmo s = _
  rw [execBwaitT, issued hs]

end Barriers

/-- Settles O26: the cases of `exec_bar`, `exec_bara` and `bwaitAt_runs`; outside the shares the barrier traps. -/
theorem barriers : Obligations.Barriers := by
  refine ⟨fun h k c sense tmo s hs hroom => ⟨fun hph => ?_, fun hph ht hfull => ?_, fun hph hgo => ?_⟩,
    fun h c a tmo n ph s loc hs hroom hw hreach hord => ⟨fun hfree hheld => ?_, fun hfree hheld => ?_,
      fun hdiff => ⟨?_, ?_⟩, fun hsame => ⟨?_, fun ht => ?_, fun ht => ?_⟩⟩,
    fun h c a tmo n ph s hs hroom hl hg => ⟨?_, ?_, ?_⟩⟩
  · rw [exec_bar hs hroom]; exact congrArg _ (if_pos hph)
  · rw [exec_bar hs hroom]
    exact congrArg _ ((if_neg (not_not_intro hph)).trans (if_pos ⟨ht, by rw [hfull, Option.isNone_none]⟩))
  · rw [exec_bar hs hroom]
    refine congrArg _ ((if_neg (not_not_intro hph)).trans (if_neg fun ⟨ht, hnone⟩ => ?_))
    rcases hgo with hne | hsome
    · exact hne ht
    · rw [Option.isSome_iff_ne_none] at hsome
      exact hsome (Option.isNone_iff_eq_none.mp hnone)
  · rw [exec_bara hs hroom, withBarrier_runs hw hreach hord, withTstDone_runs hfree, if_pos hheld]
    rfl
  · rw [exec_bara hs hroom, withBarrier_runs hw hreach hord, withTstDone_runs hfree, if_neg (by simp [hheld])]
  · rw [exec_bwait hs, bwaitAt_runs hroom hw hreach hord, if_pos hdiff]; rfl
  · rw [exec_bwaitT hs, bwaitAt_runs hroom hw hreach hord, if_pos hdiff]; rfl
  · rw [exec_bwait hs, bwaitAt_runs hroom hw hreach hord, if_neg (not_not_intro hsame), if_neg (by decide)]; rfl
  · rw [exec_bwaitT hs, bwaitAt_runs hroom hw hreach hord, if_neg (not_not_intro hsame), if_pos ht]; rfl
  · rw [exec_bwaitT hs, bwaitAt_runs hroom hw hreach hord, if_neg (not_not_intro hsame), if_neg ht]
  · rw [exec_bara hs hroom, withBarrier_traps hl hg]
  · rw [exec_bwait hs, bwaitAt_traps hroom hl hg]
  · rw [exec_bwaitT hs, bwaitAt_traps hroom hl hg]

end Sys2Proof.Proofs

/-! ### System registers (R128 to R131) -/

namespace Sys2Proof.Proofs

open Sys2Proof.Machine Sys2Proof.Slice0 Sys2Proof.Laws

/-! #### Predicates as one word -/

/-- Writing a bit of PW writes that bit; c0 keeps 1. -/
theorem pwBit_writeC (t : Thread) (c k : Fin 32) (b : Bool) :
    pwBit (writeC t c b) k = if k = c then (k == 0 || b) else pwBit t k := by
  have hpw : (writeC t c b).pw = setPw t.pw c b := rfl
  rw [pwBit, pwBit, hpw]
  by_cases h0 : k = 0
  · subst h0
    simp
  · have hk : (k == 0) = false := by simpa using h0
    rw [hk, Bool.false_or, Bool.false_or]
    by_cases hkc : k = c
    · subst hkc
      rw [if_pos rfl, setPw, if_neg h0]
      have hbit : (1#32 <<< k.val).getLsbD k.val = true := by
        simp
      cases b
      · rw [if_neg Bool.false_ne_true, BitVec.getLsbD_and, BitVec.getLsbD_not, hbit, Bool.not_true, Bool.and_false,
          Bool.and_false]
      · rw [if_pos rfl, BitVec.getLsbD_or, hbit, Bool.or_true]
    · rw [if_neg hkc]
      exact getLsbD_setPw_of_ne _ _ (.inl hkc)

/-- A predicate that was written awaits no result, and no write makes one awaited. -/
theorem pendingReg_writeC {t : Thread} {c k : Fin 32} {b : Bool} (hk : k = c ∨ pendingReg t (.c k) = false) :
    pendingReg (writeC t c b) (.c k) = false := by
  have hres : (writeC t c b).res = (cancelReg t (.c c)).res := rfl
  rw [pendingReg, hres, cancelReg, List.any_map, List.any_eq_false]
  intro x hx hcon
  have hmem : RegId.c k ∈ x.dst ∧ RegId.c k ≠ RegId.c c := by simpa using hcon
  rcases hk with rfl | hno
  · exact hmem.2 rfl
  · exact List.any_eq_false.mp hno x hx (by simpa using hmem.1)

/-- Writing a list of predicates from a word. -/
def writeCs (v : Word) (l : List (Fin 32)) (t : Thread) : Thread := l.foldl (fun t c => writeC t c (v.getLsbD c.val)) t

theorem pwBit_writeCs (v : Word) (l : List (Fin 32)) (t : Thread) (k : Fin 32) :
    pwBit (writeCs v l t) k = if k ∈ l then (k == 0 || v.getLsbD k.val) else pwBit t k := by
  induction l generalizing t with
  | nil => rfl
  | cons c l ih =>
    rw [writeCs, List.foldl_cons]
    refine (ih _).trans ?_
    rw [pwBit_writeC]
    by_cases hl : k ∈ l
    · simp [hl]
    · by_cases hc : k = c
      · subst hc
        simp [hl]
      · simp [hl, hc]

theorem pendingReg_writeCs {v : Word} {l : List (Fin 32)} {t : Thread} {k : Fin 32}
    (hk : k ∈ l ∨ pendingReg t (.c k) = false) : pendingReg (writeCs v l t) (.c k) = false := by
  induction l generalizing t with
  | nil => exact hk.resolve_left List.not_mem_nil
  | cons c l ih =>
    rw [writeCs, List.foldl_cons]
    refine ih ?_
    by_cases hl : k ∈ l
    · exact .inl hl
    · refine .inr (pendingReg_writeC ?_)
      rcases hk with hmem | hno
      · exact .inl ((List.mem_cons.mp hmem).resolve_right hl)
      · exact .inr hno

/-- Writing predicates changes PW and what results will still write. -/
theorem writeCs_eq (v : Word) (l : List (Fin 32)) (t : Thread) :
    writeCs v l t = { t with pw := (writeCs v l t).pw, res := (writeCs v l t).res } := by
  induction l generalizing t with
  | nil => rfl
  | cons c l ih =>
    rw [writeCs, List.foldl_cons]
    exact ih (writeC t c (v.getLsbD c.val))

/-- PW gathers the predicates of a list, each in its place. -/
theorem getLsbD_gather (f : Fin 32 → Bool) (l : List (Fin 32)) (a : Word) (i : Nat) :
    (l.foldl (fun a c => if f c then a ||| (1#64 <<< c.val) else a) a).getLsbD i =
      (a.getLsbD i || l.any fun c => f c && c.val == i) := by
  induction l generalizing a with
  | nil => simp
  | cons c l ih =>
    rw [List.foldl_cons, ih, List.any_cons, ← Bool.or_assoc]
    refine congrArg (· || _) ?_
    cases hf : f c
    · simp
    · rw [if_pos rfl, BitVec.getLsbD_or, Bool.true_and]
      refine congrArg (a.getLsbD i || ·) ?_
      rw [BitVec.getLsbD_shiftLeft, BitVec.getLsbD_one, Bool.eq_iff_iff]
      simp
      omega

theorem pwVal_bit (s : State) (t : Thread) (c : Fin 32) : (pwVal s t).getLsbD c.val = readC s t c := by
  rw [pwVal, getLsbD_gather, show (0 : Word).getLsbD _ = false from BitVec.getLsbD_zero, Bool.false_or,
      Bool.eq_iff_iff, List.any_eq_true]
  constructor
  · rintro ⟨k, -, hk⟩
    obtain ⟨hf, hkc⟩ := Bool.and_eq_true_iff.mp hk
    rwa [← Fin.ext (beq_iff_eq.mp hkc)]
  · intro hc
    exact ⟨c, List.mem_finRange c, by simp [hc]⟩

theorem pwVal_high (s : State) (t : Thread) {i : Nat} (hi : 32 ≤ i) : (pwVal s t).getLsbD i = false := by
  rw [pwVal, getLsbD_gather, show (0 : Word).getLsbD _ = false from BitVec.getLsbD_zero, Bool.false_or,
      List.any_eq_false]
  intro k _ hk
  have := beq_iff_eq.mp (Bool.and_eq_true_iff.mp hk).2
  omega

/-! #### SYSR -/

section Sysr

variable {h : Hdr} {d : Fin 16} {n : BitVec 24} {s : State}

/-- Registers that every core has. -/
theorem sysAbsent_of_present {k : Nat} (hk : OnCore s ∨ k < 0x101 ∨ 0x103 < k ∧ k < 0x200 ∨ 0x220 < k) :
    sysAbsent (coreOf s.cur) k = false := by
  rw [sysAbsent]
  rcases hk with hc | hk
  · rw [hc]
    rfl
  · simp
    omega

theorem exec_sysr (hs : Issues h s) (habs : sysAbsent (coreOf s.cur) n.toNat = false)
    (hl : Level (sysReadLevel n.toNat) s) : exec (.sysr h d n) s = .next (
      let ask := fun (s : State) => startRequest h [.g d] (.sysr n.toNat) (sysHolder s n.toNat) s
      if n.toNat < 0x200 then resultG h d (sysFixed s s.cur n.toNat) s
      else match tsTile n.toNat with
        | some t => withTile s t ask
        | none => ask s) := by
  show execSysr h d n s = _
  rw [execSysr, habs, if_neg Bool.false_ne_true, issueL_runs hl, issued hs] <;> rfl

/-- A thread or core register is a fixed result. -/
theorem exec_sysr_fixed (hs : Issues h s) (hl : Level 2 s) {k : Nat} (hk : k < 0x200)
    (hp : OnCore s ∨ k < 0x101 ∨ 0x103 < k) :
    exec (.sysr h d (BitVec.ofNat 24 k)) s = .next (retire h (setG s d (sysFixed s s.cur k))) := by
  have hn : (BitVec.ofNat 24 k).toNat = k := by rw [BitVec.toNat_ofNat, Nat.mod_eq_of_lt (by omega)]
  have habs : sysAbsent (coreOf s.cur) (BitVec.ofNat 24 k).toNat = false := by
    rw [hn]
    exact sysAbsent_of_present (hp.imp_right (Or.imp_right fun h => .inl ⟨h, hk⟩))
  have hlev : sysReadLevel (BitVec.ofNat 24 k).toNat = 2 := by rw [hn, sysReadLevel, if_neg (by omega)]
  rw [exec_sysr hs habs (by rw [hlev]; exact hl), hn]
  simp only [hk, if_true, resultG]

/-- A register of another holder is asked for there. -/
theorem exec_sysr_asked (hs : Issues h s) (hroom : HasRoom s) (habs : sysAbsent (coreOf s.cur) n.toNat = false)
    (hl : Level (sysReadLevel n.toNat) s) (hn : 0x200 ≤ n.toNat)
    (ht : ∀ t, tsTile n.toNat = some t → t.val < tileShare s) :
    exec (.sysr h d n) s = .next (asked h [.g d] (.sysr n.toNat) (sysHolder s n.toNat) s) := by
  have hask : startRequest h [.g d] (.sysr n.toNat) (sysHolder s n.toNat) s =
      asked h [.g d] (.sysr n.toNat) (sysHolder s n.toNat) s := by
    rw [startRequest, withRoom_runs hroom]
  rw [exec_sysr hs habs hl]
  simp only [Nat.not_lt.mpr hn, if_false]
  split
  · rename_i t htt
    rw [withTile_runs (ht t htt), hask]
  · rw [hask]

theorem tsTile_some {k : Nat} {tl : Fin 16} (hk : k = 0x210 + tl.val) : tsTile k = some tl := by
  have hlt := tl.isLt
  rw [tsTile, if_pos (by omega), hk]
  refine congrArg some (Fin.ext ?_)
  show (0x210 + tl.val - 0x210) % 16 = tl.val
  omega

theorem tsTile_none {k : Nat} (hk : k < 0x210 ∨ 0x220 ≤ k) : tsTile k = none := by
  rw [tsTile, if_neg (by omega)]

/-- The fixed registers are thread and core registers that every core has. -/
theorem fixedRegs_fixed : ∀ e ∈ fixedRegs s, (e.1 < 0x101 ∨ 0x103 < e.1) ∧ e.1 < 0x200 ∧
    sysFixed s s.cur e.1 = e.2 := by
  intro e he
  simp only [fixedRegs, List.mem_cons, List.not_mem_nil, or_false] at he
  rcases he with rfl | rfl | rfl | rfl | rfl | rfl | rfl | rfl | rfl | rfl | rfl | rfl | rfl | rfl | rfl | rfl | rfl <;>
    exact ⟨by simp, by simp, rfl⟩

end Sysr

/-- The request for a register is answered by its holder. -/
theorem exec_sysr_reply {tk rid k : Nat} {r : Res} {s : State} (hq : requestOf s tk rid = some (r, .sysr k))
    (hport : r.port = false) (hk : k < 0x300 ∨ 0x400 ≤ k) : exec (.remoteRequest tk rid) s = .next (
      reply s tk rid (if 0x400 ≤ k then 0x804 else coreOf tk) (valsOf r.dst (sysVariable s tk k) true)) := by
  rw [exec_remoteRequest hq hport]
  refine congrArg _ (if_neg ?_)
  omega

theorem findRes_of_requestOf {tk rid : Nat} {r : Res} {q : Req} {s : State} (hq : requestOf s tk rid = some (r, q)) :
    findRes (getT s tk) rid = some r := by
  obtain ⟨t, ht, hq⟩ := Option.bind_eq_some_iff.mp hq
  obtain ⟨r', hr', hq⟩ := Option.bind_eq_some_iff.mp hq
  have hrr : r' = r := by
    split at hq
    · exact (Prod.mk.inj (Option.some.inj hq)).1
    · cases hq
  rw [getT, mgetD, ht, Option.getD_some, hr', hrr]

/-- A request at a core context that is on its core, where it was sent. -/
theorem atCC_runs {s : State} {c l tk rid : Nat} {cc : CoreCtx} {i : Instr} {eff : State → State} {r : Res}
    (hres : cc.cst = .resident) (hr : findRes (getT s tk) rid = some r)
    (hsent : r.sentTo = none ∨ r.sentTo = some cc.phys) : atCC s c l cc tk rid i eff = eff s := by
  have hfrom : ((findRes (getT s tk) rid).bind (·.sentTo)).getD cc.phys = cc.phys := by
    rw [hr, Option.bind_some]
    rcases hsent with h | h <;> rw [h] <;> rfl
  simp only [atCC, hres, ne_eq, not_true_eq_false, if_false, hfrom, true_or, if_true]

theorem clId_of_compute {s : State} {core : Nat} (hc : isCompute core = true) : clId s core =
    BitVec.ofNat 64 (s.pkg * 2 ^ 16 + polderOf (core / 8) * 2 ^ 13 + dieOf (core / 8) * 2 ^ 11 + core / 8) := by
  have hlt : core < 2048 := by simpa [isCompute] using hc
  have hr : ry (core / 8) * 16 + rx (core / 8) = core / 8 := by rw [rx, ry]; omega
  simp only [clId, routerOf, hlt, if_true, w64]
  rw [Nat.add_assoc _ (ry _ * 16), hr]

theorem toList_getD {α : Type} {n i : Nat} (v : Vector α n) (d : α) (h : i < n) : v.toList.getD i d = v[i] := by
  simp [List.getD_eq_getElem?_getD, h]

theorem systemReads : SystemReads := by
  refine ⟨fun h d s hs hl => ⟨fun e he => ?_, ?_, ?_, fun hc cc hcc => ?_⟩,
    fun h d tl n s hs hroom => ⟨fun hl hc hn => ?_, fun hl hc hn ht => ?_, fun hl hc hn ht => ?_,
        fun hl hn hn' => ?_, fun hl hn => ?_⟩,
    fun tk rid n r s hq hport => ⟨fun hn => ?_, fun hn => ?_, fun cc hn hn' hcc hres hsent => ?_⟩,
    fun tk s => ⟨fun hc => ?_, rfl, rfl, rfl, fun hx => ?_, rfl, rfl, fun tl => ?_, fun p => ?_, fun p => ?_, rfl,
        rfl, rfl, rfl, rfl⟩⟩
  · obtain ⟨hp, hk, hv⟩ := fixedRegs_fixed e he
    rw [exec_sysr_fixed hs hl hk (.inr hp), hv]
  · exact ⟨pwVal s (curT s), exec_sysr_fixed hs hl (by decide) (.inr (by decide)), pwVal_bit s _,
      fun i hi => pwVal_high s _ hi⟩
  · exact exec_sysr_fixed hs hl (by decide) (.inr (by decide))
  · have hget : getCC s (getT s s.cur).ctx (getT s s.cur).lcore = some cc := hcc
    refine ⟨exec_sysr_fixed hs hl (by decide) (.inl hc), ?_, ?_⟩
    · refine (exec_sysr_fixed hs hl (by decide) (.inl hc)).trans ?_
      simp only [sysFixed, hget]
      rfl
    · refine (exec_sysr_fixed hs hl (by decide) (.inl hc)).trans ?_
      simp only [sysFixed, hget]
      rfl
  · rw [exec_sysr_asked hs hroom (sysAbsent_of_present (.inl hc)) (by rw [sysReadLevel, if_neg (by omega)]; exact hl)
      (by omega) fun t ht => absurd ht (by rw [tsTile_none (by omega)]; exact nofun), sysHolder, if_neg (by omega),
      if_neg (by omega)]
  · have hlt := tl.isLt
    rw [exec_sysr_asked hs hroom (sysAbsent_of_present (.inl hc)) (by rw [sysReadLevel, if_neg (by omega)]; exact hl)
      (by omega) fun t htt => by rw [← Option.some.inj ((tsTile_some hn).symm.trans htt)]; exact ht, sysHolder,
      if_neg (by omega), if_neg (by omega)]
  · have hlt := tl.isLt
    rw [exec_sysr hs (sysAbsent_of_present (.inl hc)) (by rw [sysReadLevel, if_neg (by omega)]; exact hl)]
    dsimp only
    rw [if_neg (by omega), tsTile_some hn]
    exact congrArg _ (if_neg (Nat.not_lt.mpr ht))
  · rw [exec_sysr_asked hs hroom (sysAbsent_of_present (.inr (by omega)))
      (by rw [sysReadLevel, if_neg (by omega)]; exact hl)
      (by omega) fun t ht => absurd ht (by rw [tsTile_none (by omega)]; exact nofun), sysHolder, if_neg (by omega),
      if_pos hn]
  · rw [exec_sysr_asked hs hroom (sysAbsent_of_present (.inr (by omega))) (by rw [sysReadLevel, if_pos hn]; exact hl)
      (by omega) fun t ht => absurd ht (by rw [tsTile_none (by omega)]; exact nofun), sysHolder, if_pos hn]
  · rw [exec_sysr_reply hq hport (.inl hn), if_neg (by omega)]
  · rw [exec_sysr_reply hq hport (.inr hn), if_pos hn]
  · rw [exec_remoteRequest hq hport]
    refine congrArg _ ((if_pos ⟨hn, hn'⟩).trans ?_)
    simp only [atCore0, hcc]
    exact atCC_runs hres (findRes_of_requestOf hq) hsent
  · exact clId_of_compute hc
  · exact if_pos hx
  · have hlt := tl.isLt
    simp only [sysVariable]
    rw [if_neg (by omega), if_pos (by omega), Nat.add_sub_cancel_left]
  · have hlt := p.isLt
    simp only [sysVariable, sysReeve]
    rw [if_pos (by omega), if_pos (by omega), Nat.add_sub_cancel_left, toList_getD _ _ (by omega)] <;> rfl
  · have hlt := p.isLt
    simp only [sysVariable, sysReeve]
    rw [if_pos (by omega), if_neg (by omega), if_pos (by omega), Nat.add_sub_cancel_left,
      toList_getD _ _ (by omega)] <;> rfl

/-! #### SYSW -/

section Sysw

variable {h : Hdr} {r : Fin 16} {n : BitVec 24} {s : State}

theorem exec_sysw (hs : Issues h s) (habs : sysAbsent (coreOf s.cur) n.toNat = false)
    (hl : Level (sysWriteLevel n.toNat) s) : exec (.sysw h r n) s = .next (
      match tsTile n.toNat with
      | some t => withUnit s clsEngine fun s => setShape s t (gVal s r) (retire h)
      | none => retire h (writeSys s n.toNat (gVal s r))) := by
  show execSysw h r n s = _
  rw [execSysw, habs, if_neg Bool.false_ne_true, issueL_runs hl, issued hs] <;> rfl

/-- A register that holds no tile shape is written by `writeSys`. -/
theorem exec_sysw_plain (hs : Issues h s) {k : Nat} (hk : k < 0x1000)
    (hp : OnCore s ∨ k < 0x101 ∨ 0x103 < k ∧ k < 0x200 ∨ 0x220 < k) (ht : k < 0x210 ∨ 0x220 ≤ k)
    (hl : Level (sysWriteLevel k) s) :
    exec (.sysw h r (BitVec.ofNat 24 k)) s = .next (retire h (writeSys s k (gVal s r))) := by
  have hn : (BitVec.ofNat 24 k).toNat = k := by rw [BitVec.toNat_ofNat, Nat.mod_eq_of_lt (by omega)]
  rw [exec_sysw hs (by rw [hn]; exact sysAbsent_of_present hp) (by rw [hn]; exact hl), hn, tsTile_none ht]

theorem sysWriteLevel_thread {k : Nat} (hk : k < 0x400) (h2 : k ≠ 0x302) : sysWriteLevel k = 2 := by
  rw [sysWriteLevel, if_neg (by omega), if_neg h2]

theorem writeSys_thread {k : Nat} (hk : k < 0x100) (v : Word) :
    writeSys s k v = putT s (writeThreadReg s.clock (curT s) k v) := if_pos hk

theorem writeSys_reeve {k : Nat} (hk : 0x400 ≤ k) (v : Word) : writeSys s k v = writeReeve s k v :=
  (if_neg (by omega)).trans (if_pos hk)

/-- Every thread register but PW is written as `threadWrites` says. -/
theorem threadWrites_written (v : Word) : ∀ e ∈ threadWrites s v,
    e.1 < 0x100 ∧ writeThreadReg s.clock (curT s) e.1 v = e.2 := by
  intro e he
  simp only [threadWrites, List.mem_cons, List.not_mem_nil, or_false] at he
  rcases he with rfl | rfl | rfl | rfl | rfl | rfl | rfl | rfl | rfl | rfl <;> exact ⟨by simp, rfl⟩

/-- Every register of the Reeve but the throttles is written as `reeveWrites` says. -/
theorem reeveWrites_written (v : Word) : ∀ e ∈ reeveWrites s v, 0x400 ≤ e.1 ∧ e.1 < 0x1000 ∧
    writeReeve s e.1 v = e.2 := by
  intro e he
  simp only [reeveWrites, List.mem_cons, List.not_mem_nil, or_false] at he
  rcases he with rfl | rfl | rfl | rfl | rfl <;> exact ⟨by simp, by simp, rfl⟩

theorem writeReeve_thrl (p : Fin 8) (v : Word) : writeReeve s (0x400 + p.val) v =
    laterAt { s with reeve := { s.reeve with thrl := s.reeve.thrl.set p (v.setWidth 3) } } ((s.clock / 8 + 1) * 8)
      (.thrlWrite p.val) := by
  have hlt := p.isLt
  have hreg : writeReeve s (0x400 + p.val) v = writeThrl s (0x400 + p.val - 0x400) v := by
    unfold writeReeve
    split
    · omega
    · omega
    · omega
    · omega
    · omega
    · rfl
  rw [hreg, Nat.add_sub_cancel_left, writeThrl, dif_pos hlt]

theorem writeDqBase_eq {cc : CoreCtx} (hcc : getCC s (curT s).ctx (curT s).lcore = some cc) (v : Word) :
    writeDqBase s v =
      let put := fun bad => setCC s (curT s).ctx (curT s).lcore
        { cc with dqBase := dqField v, dqEn := v.getLsbD 63, dqBad := bad }
      let opens := v.getLsbD 63 && !cc.dqEn
      let fits := decide ((dqField v).toNat + 16 ≤ cc.shSize)
      if opens && fits then
        (append (put false) ((locsFrom (sramLoc (ccKey (curT s).ctx (curT s).lcore) (dqField v).toNat) 16).zip
          (zeros 16)) none).2
      else put (if opens then !fits else cc.dqBad) := by
  simp only [writeDqBase, hcc]
  by_cases hboth : (v.getLsbD 63 && !cc.dqEn && decide ((dqField v).toNat + 16 ≤ cc.shSize)) = true
  · obtain ⟨hopens, hfits⟩ := Bool.and_eq_true_iff.mp hboth
    rw [hopens, hfits]
    rfl
  · rw [if_neg hboth, if_neg hboth]

theorem setGrace_eq {x : Ctx} (hx : getCtx s (curT s).ctx = some x) (v : Word) : setGrace s (curT s).ctx v =
    let lim : W32 := if (v.setWidth 32 : W32).toNat < 0x10000 then 0x10000 else v.setWidth 32
    let s1 := setCtx s (curT s).ctx { x with limit := lim }
    match x.graceAt with
    | some t0 => laterAt s1 (t0 + lim.toNat + 1) (.graceExpiry (curT s).ctx)
    | none => s1 := by
  have hmod (f : Ctx → Ctx) : modCtx s (curT s).ctx f = setCtx s (curT s).ctx (f x) := by rw [modCtx, hx]
  have hput (y : Ctx) : ctxD (setCtx s (curT s).ctx y) (curT s).ctx = y := by
    rw [ctxD, setCtx, mgetD, mget_mset_same, Option.getD_some]
  simp only [setGrace, hmod, hput] <;> rfl

theorem exec_sysw_dqBase (hs : Issues h s) (hl : Level 2 s) (hc : OnCore s) :
    exec (.sysw h r 0x102) s = .next (retire h (writeDqBase s (gVal s r))) :=
  exec_sysw_plain hs (by decide) (.inl hc) (.inl (by decide)) hl

theorem exec_sysw_dqLim (hs : Issues h s) (hl : Level 2 s) (hc : OnCore s) : exec (.sysw h r 0x103) s = .next (
    retire h (modCC s (curT s).ctx (curT s).lcore fun cc => { cc with dqLim := dqField (gVal s r) })) :=
  exec_sysw_plain hs (by decide) (.inl hc) (.inl (by decide)) hl

theorem exec_sysw_grace (hs : Issues h s) (hl : Level 1 s) :
    exec (.sysw h r 0x302) s = .next (retire h (setGrace s (curT s).ctx (gVal s r))) :=
  exec_sysw_plain hs (by decide) (.inr (by decide)) (.inr (by decide)) hl

/-- SYSW of a tile's shape acts as TSHAPE. -/
theorem exec_sysw_shape {tl : Fin 16} (hs : Issues h s) (hl : Level 2 s) (hc : OnCore s) (hn : n.toNat = 0x210 + tl.val)
    (hu : inService s.cmap clsEngine (coreOf s.cur / 8) = true) (ht : tl.val < tileShare s)
    (hidle : tileIdle (tileAt s (tileKey s tl.val)) = true) : exec (.sysw h r n) s = .next (
      if !shapeOk (gVal s r) then tileErr s 1 tl.val
      else retire h (setTile s (tileKey s tl.val) { tileAt s (tileKey s tl.val) with
        shape := (gVal s r).setWidth 32, st := .empty, data := [] })) := by
  have hlt := tl.isLt
  have hlev : sysWriteLevel n.toNat = 2 := sysWriteLevel_thread (by omega) (by omega)
  rw [exec_sysw hs (sysAbsent_of_present (.inl hc)) (by rw [hlev]; exact hl), tsTile_some hn]
  dsimp only
  rw [withUnit_runs hu, setShape, withTile_runs ht]
  simp only [hidle, Bool.not_true, Bool.false_eq_true, if_false]

end Sysw

theorem systemWrites : SystemWrites := by
  refine ⟨fun h r s hs hl => ⟨fun e he => ?_, ⟨writePw (curT s) (gVal s r), ?_, ?_, fun c => ⟨?_, ?_⟩⟩, ?_⟩,
    fun h r s cc hs hl hc hcc => ⟨fun hen => ?_, fun hen hno hbad => ?_, fun hen hno hfit => ?_, ?_⟩,
    fun h r s x hs hl hx => ⟨fun hg => ?_, fun t0 hg => ?_⟩,
    fun h r tl n s hs hl hc hn hu ht hidle => ⟨fun hok => ?_, fun hok => ?_⟩,
    fun h r s hs hl => ⟨fun e he => ?_, fun p => ?_⟩⟩
  · obtain ⟨hk, hv⟩ := threadWrites_written (gVal s r) e he
    rw [exec_sysw_plain hs (by omega) (.inr (.inl (by omega))) (.inl (by omega))
      (by rw [sysWriteLevel_thread (by omega) (by omega)]; exact hl), writeSys_thread hk, hv]
  · exact exec_sysw_plain hs (by decide) (.inr (.inl (by decide))) (.inl (by decide)) hl
  · exact writeCs_eq _ _ _
  · exact (pwBit_writeCs _ _ _ _).trans (if_pos (List.mem_finRange c))
  · exact pendingReg_writeCs (.inl (List.mem_finRange c))
  · exact exec_sysw_plain hs (by decide) (.inr (by decide)) (.inr (by decide)) hl
  · have hopens : ((gVal s r).getLsbD 63 && !cc.dqEn) = false := by rcases hen with h | h <;> rw [h] <;> simp
    rw [exec_sysw_dqBase hs hl hc, writeDqBase_eq hcc]
    simp only [hopens, Bool.false_and, Bool.false_eq_true, if_false]
    rfl
  · have hfits : decide ((dqField (gVal s r)).toNat + 16 ≤ cc.shSize) = false := decide_eq_false (Nat.not_le.mpr hbad)
    rw [exec_sysw_dqBase hs hl hc, writeDqBase_eq hcc]
    simp only [hen, hno, hfits, Bool.not_false, Bool.and_false, Bool.and_true, Bool.false_eq_true, if_false, if_true]
    rfl
  · have hfits : decide ((dqField (gVal s r)).toNat + 16 ≤ cc.shSize) = true := decide_eq_true hfit
    rw [exec_sysw_dqBase hs hl hc, writeDqBase_eq hcc]
    simp only [hen, hno, hfits, Bool.not_false, Bool.and_true, if_true]
    rfl
  · rw [exec_sysw_dqLim hs hl hc, modCC, hcc]
    rfl
  · rw [exec_sysw_grace hs hl, setGrace_eq hx, hg]
  · rw [exec_sysw_grace hs hl, setGrace_eq hx, hg]
  · rw [exec_sysw_shape hs hl hc hn hu ht hidle, hok]; rfl
  · rw [exec_sysw_shape hs hl hc hn hu ht hidle, hok]; rfl
  · obtain ⟨hk, hk', hv⟩ := reeveWrites_written (gVal s r) e he
    rw [exec_sysw_plain hs hk' (.inr (by omega)) (.inr (by omega)) (by rw [sysWriteLevel, if_pos hk]; exact hl),
      writeSys_reeve hk, hv]
  · have hlt := p.isLt
    rw [exec_sysw_plain hs (by omega) (.inr (by omega)) (.inr (by omega))
      (by rw [sysWriteLevel, if_pos (by omega)]; exact hl), writeSys_reeve (by omega), writeReeve_thrl]

/-- Settles O19: SYSR is `exec_sysr` and SYSW is `exec_sysw`, register by register. -/
theorem systemRegisters : Obligations.SystemRegisters := ⟨systemReads, systemWrites⟩

end Sys2Proof.Proofs

/-! ### Vector memory, element moves and links (R221, R231 to R233) -/

namespace Sys2Proof.Proofs

open Sys2Proof.Machine Sys2Proof.Slice0 Sys2Proof.Laws

/-! #### Vector memory -/

/-- The lowest failing lane's trap. -/
theorem withLanes_traps {s : State} {z va : Nat} {w : Bool} {vas : List Nat} {c : BitVec 8} {v : Word}
    {eff : List Nat → State → State} (hx : lanesAccess s z w vas = .error (va, .trap c v)) :
    withLanes s z w vas eff = trapHere s c v := by
  rw [withLanes, hx]

section VectorMemory

variable {h : Hdr} {w x : Fin 4} {mig : Bool} {ch : CH} {d ix : Fin 32} {b : Fin 16} {pg : Fin 8} {disp : BitVec 24}
  {s : State} (hs : Issues h s) (hc : OnCore s)
include hs hc

theorem exec_vld (hv : VRegs [d] s) (hroom : HasRoom s)
    (hmig : (mig && activeLanes (2 ^ w.val) (pVal s pg) != []) = true → migTarget s (effAddr s b none 0 disp) = none) :
    exec (.vld h w mig ch d b pg disp) s = .next (
      let js := activeLanes (2 ^ w.val) (pVal s pg)
      let vas := js.map fun j => (effAddr s b none 0 disp + 2 ^ w.val * j) % 2 ^ 64
      withLanes s (2 ^ w.val) false vas fun locs s => vecRead h (2 ^ w.val) d js vas locs true s) := by
  show execVld h w mig ch d b pg disp s = _
  rw [execVld, vecIssued_plain hs hc hv, withRoom_runs hroom]
  exact congrArg _ (withMig_runs hmig)

theorem exec_vst (hv : VRegs [d] s)
    (hmig : (mig && activeLanes (2 ^ w.val) (pVal s pg) != []) = true → migTarget s (effAddr s b none 0 disp) = none) :
    exec (.vst h w mig ch d b pg disp) s = .next (
      let js := activeLanes (2 ^ w.val) (pVal s pg)
      let vas := js.map fun j => (effAddr s b none 0 disp + 2 ^ w.val * j) % 2 ^ 64
      withLanes s (2 ^ w.val) true vas fun locs s =>
        issueWrites h (sectorWrites (laneCells (2 ^ w.val) (vVal s d).toNat js vas locs).flatten) s) := by
  show execVst h w mig ch d b pg disp s = _
  rw [execVst, vecIssued_plain hs hc hv]
  exact congrArg _ (withMig_runs hmig)

theorem exec_vgath (hv : VRegs [d, ix] s) (hroom : HasRoom s) : exec (.vgath h w x ch d b ix pg) s = .next (
      let js := activeLanes (2 ^ w.val) (pVal s pg)
      let vas := js.map fun j => ((gVal s b).toNat + laneN (2 ^ w.val) (vVal s ix).toNat j * 2 ^ x.val) % 2 ^ 64
      withLanes s (2 ^ w.val) false vas fun locs s => vecRead h (2 ^ w.val) d js vas locs false s) := by
  show execVgath h w x ch d b ix pg s = _
  rw [execVgath, vecIssued_plain hs hc hv, withRoom_runs hroom]

theorem exec_vscat (hv : VRegs [d, ix] s) : exec (.vscat h w x ch d b ix pg) s = .next (
      let js := activeLanes (2 ^ w.val) (pVal s pg)
      let vas := js.map fun j => ((gVal s b).toNat + laneN (2 ^ w.val) (vVal s ix).toNat j * 2 ^ x.val) % 2 ^ 64
      withLanes s (2 ^ w.val) true vas fun locs s =>
        issueWrites h ((laneCells (2 ^ w.val) (vVal s d).toNat js vas locs).filterMap fun c => match c with
          | [] => none
          | e :: r => some (e.1, (e :: r).map (·.2))) s) := by
  show execVscat h w x ch d b ix pg s = _
  rw [execVscat, vecIssued_plain hs hc hv] <;> rfl

end VectorMemory

/-- Settles O33: with every lane's checks passed the lanes are read or stored, else the lowest failing lane traps. -/
theorem vectorMemory : Obligations.VectorMemory := by
  refine ⟨fun h w mig ch d b pg disp s hs hc hv hmig => ⟨fun locs hroom hx hh ho => ?_, fun va c v hroom hx => ?_,
      fun locs hx hh ho => ?_, fun va c v hx => ?_⟩,
    fun h w x ch d ix b pg s hs hc hv => ⟨fun locs hroom hx hh ho => ?_, fun va c v hroom hx => ?_,
      fun locs hx hh ho => ?_, fun va c v hx => ?_⟩⟩
  · rw [exec_vld hs hc hv hroom hmig]
    exact congrArg _ (withLanes_runs hx hh ho)
  · rw [exec_vld hs hc hv hroom hmig]
    exact congrArg _ (withLanes_traps hx)
  · rw [exec_vst hs hc hv hmig]
    exact congrArg _ (withLanes_runs hx hh ho)
  · rw [exec_vst hs hc hv hmig]
    exact congrArg _ (withLanes_traps hx)
  · rw [exec_vgath hs hc hv hroom]
    exact congrArg _ (withLanes_runs hx hh ho)
  · rw [exec_vgath hs hc hv hroom]
    exact congrArg _ (withLanes_traps hx)
  · rw [exec_vscat hs hc hv]
    exact congrArg _ (withLanes_runs hx hh ho)
  · rw [exec_vscat hs hc hv]
    exact congrArg _ (withLanes_traps hx)

/-! #### Element moves and links -/

section Moves

variable {h : Hdr} {t : VTy} {d a : Fin 32} {ix : GI} {pg : Fin 8} {l : LSrc} {s : State} (hs : Issues h s)
    (hc : OnCore s)

/-- The value of a source that is a register or an immediate. -/
theorem lsrcLane_some {x : Nat}
    (hx : (∃ r, l = .g r ∧ x = (gVal s r).toNat % 2 ^ (8 * t.size)) ∨ (∃ v, l = .im v ∧ x = immLane t v)) :
    lsrcLane s t l = some x := by
  rcases hx with ⟨r, rfl, rfl⟩ | ⟨v, rfl, rfl⟩ <;> rfl

/-- A link has no value at hand. -/
theorem lsrcLane_none (hl : l = .le ∨ l = .lw ∨ l = .lwf) : lsrcLane s t l = none := by
  rcases hl with rfl | rfl | rfl <;> rfl

/-- A link that is there is read, or waited on. -/
theorem readLink_present {z : Nat} {mask : VPred} (hroom : HasRoom s)
    (hp : linkEnd s (curT s).ctx (coreOf s.cur) (l == .le) ≠ none)
    (hf : l = .lwf → linkEnd s (curT s).ctx (coreOf s.cur) true ≠ none) : readLink h d z mask l s =
      let r := resultWait [.v d] (.link (l == .le) (l == .lwf) z mask) s
      retire h (serveLink 4 64 (curT s).ctx (curT s).lcore (l == .le) r.2) := by
  have hfwd : (l == LSrc.lwf && (linkEnd s (curT s).ctx (coreOf s.cur) true).isNone) = false := by
    by_cases hl : l = .lwf
    · rw [Option.isNone_eq_false_iff.mpr (Option.isSome_iff_ne_none.mpr (hf hl)), Bool.and_false]
    · simp [hl]
  simp only [readLink, Option.isNone_eq_false_iff.mpr (Option.isSome_iff_ne_none.mpr hp), hfwd, Bool.false_eq_true,
    if_false, withRoom_runs hroom]

/-- An absent link traps. -/
theorem readLink_absent {z : Nat} {mask : VPred} (hl : l = .le ∨ l = .lw ∨ l = .lwf)
    (hp : linkEnd s (curT s).ctx (coreOf s.cur) (l == .le) = none) : readLink h d z mask l s =
      let tr := linkTrap s (l == .le) (if l = .lwf then 18 else if l = .le then 17 else 16)
      trapHere s tr.1 tr.2 := by
  simp only [readLink, hp, Option.isNone_none, if_true]
  rcases hl with rfl | rfl | rfl <;> rfl

include hs hc

theorem exec_vsplat (hv : VRegs [d] s) : exec (.vsplat h t d l pg) s = .next (match lsrcLane s t l with
    | some x => lanes h t.size d pg .rne s fun _ _ => (x, 0)
    | none => readLink h d t.size (pVal s pg) l s) := by
  show execVsplat h t d l pg s = _
  rw [execVsplat, vecIssued_plain hs hc hv]
  rfl

theorem exec_vmovsI (hv : VRegs [d] s) : exec (.vmovsI h t d l ix) s = .next (
    let mask := predOf t.size fun j => j == (giVal s ix).toNat
    match lsrcLane s t l with
    | some x => resultV h d (mergeLanes t.size mask (vVal s d) fun _ => x, 0, (curT s).rng) s
    | none => readLink h d t.size mask l s) := by
  show execVmovsI h t d l ix s = _
  rw [execVmovsI, vecIssued_plain hs hc hv] <;> rfl

/-- The element that VMOVS.X moves. -/
def element (s : State) (t : VTy) (a : Fin 32) (ix : GI) : Word :=
  if 256 / t.size ≤ (giVal s ix).toNat then 0
  else if t.isFloat then BitVec.ofNat 64 (lane s t a (giVal s ix).toNat)
  else BitVec.ofInt 64 (signedN (8 * t.size) (lane s t a (giVal s ix).toNat))

theorem exec_vmovsX (hv : VRegs [a] s) (x : XDst) : exec (.vmovsX h t x a ix) s = .next (
    let send := fun (east : Bool) =>
      match linkEnd s (curT s).ctx (coreOf s.cur) east with
      | none => let tr := linkTrap s east (if east then 17 else 16); trapHere s tr.1 tr.2
      | some n =>
        if linkRoom s (curT s).ctx n (!east) then
          retire h (sendLink s (curT s).ctx (coreOf s.cur) n east (element s t a ix))
        else retry s
    match x with
    | .g r => retire h (setG s r (element s t a ix))
    | .le => send true
    | .lw => send false) := by
  show execVmovsX h t x a ix s = _
  rw [execVmovsX, vecIssued_plain hs hc hv]
  rfl

/-- VMOVS.X to a link that is there. -/
theorem exec_vmovsX_link (hv : VRegs [a] s) {e : Bool} {n : Nat}
    (hn : linkEnd s (curT s).ctx (coreOf s.cur) e = some n) :
    exec (.vmovsX h t (if e then .le else .lw) a ix) s = .next (
      if linkRoom s (curT s).ctx n (!e) then
        retire h (sendLink s (curT s).ctx (coreOf s.cur) n e (element s t a ix))
      else retry s) := by
  rw [exec_vmovsX hs hc hv]
  cases e <;> simp only [Bool.false_eq_true, if_false, if_true, hn]

theorem exec_vmovsX_absent (hv : VRegs [a] s) {e : Bool} (hn : linkEnd s (curT s).ctx (coreOf s.cur) e = none) :
    exec (.vmovsX h t (if e then .le else .lw) a ix) s = .next (
      let tr := linkTrap s e (if e then 17 else 16); trapHere s tr.1 tr.2) := by
  rw [exec_vmovsX hs hc hv]
  cases e <;> simp only [Bool.false_eq_true, if_false, if_true, hn]

end Moves

/-- Settles O34: registers and immediates by `lsrcLane_some`, links by `readLink_present`, `readLink_absent` and
VMOVS.X. -/
theorem vectorMoves : Obligations.VectorMoves := by
  refine ⟨fun h t d ix pg l s hs hc hv => ⟨fun x hx => ⟨?_, ?_⟩, fun hl =>
      ⟨fun hroom hp hf => ⟨?_, ?_⟩, fun hp => ⟨?_, ?_⟩⟩⟩,
    fun h t a ix r s hs hc hv => ⟨exec_vmovsX hs hc hv (.g r), fun e n hn => ⟨fun hr => ?_, fun hr => ?_⟩,
      fun e hn => exec_vmovsX_absent hs hc hv hn⟩⟩
  · rw [exec_vsplat hs hc hv, lsrcLane_some hx]
  · rw [exec_vmovsI hs hc hv, lsrcLane_some hx]
  · rw [exec_vsplat hs hc hv, lsrcLane_none hl]
    exact congrArg _ (readLink_present hroom hp hf)
  · rw [exec_vmovsI hs hc hv, lsrcLane_none hl]
    exact congrArg _ (readLink_present hroom hp hf)
  · rw [exec_vsplat hs hc hv, lsrcLane_none hl]
    exact congrArg _ (readLink_absent hl hp)
  · rw [exec_vmovsI hs hc hv, lsrcLane_none hl]
    exact congrArg _ (readLink_absent hl hp)
  · rw [exec_vmovsX_link hs hc hv hn, if_pos hr]
    rfl
  · rw [exec_vmovsX_link hs hc hv hn, if_neg (by simp [hr])]

end Sys2Proof.Proofs

/-! ### Tiles, engine jobs, copies and waits for jobs (R238 to R261, R391) -/

namespace Sys2Proof.Proofs

open Sys2Proof.Machine Sys2Proof.Slice0 Sys2Proof.Laws

/-! #### Tile loads and stores (R243 to R245) -/

section TileMoves

variable {h : Hdr} {tl b : Fin 16} {st : Option (Fin 16)} {disp : BitVec 24} {s : State} {x : Tile} {locs : List Nat}
  (hs : Issues h s) (hc : OnCore s)

theorem withTile_beyond {eff : State → State} (ht : tileShare s ≤ tl.val) : withTile s tl eff = tileErr s 6 tl.val := by
  rw [withTile, if_neg (Nat.not_lt.mpr ht)]

/-- Every check of a tile's rows passes. -/
theorem withRows_runs {eff : Tile → List Nat → State → State} (hr : Rows s tl b st disp x locs) :
    withRows s tl b st disp eff = eff x locs s := by
  obtain ⟨hu, ht, rfl, hne, hlocs, ha, hst, hheld⟩ := hr
  rw [withRows, withUnit_runs hu, withTile_runs ht]
  cases st with
  | none =>
    rw [Option.map_none, Option.getD_none] at hlocs hst
    simp only [hne, if_false, hlocs, ha, hst, ne_eq, not_true_eq_false, or_self, hheld, Bool.false_eq_true]
  | some r =>
    rw [Option.map_some, Option.getD_some] at hlocs hst
    simp only [hne, if_false, hlocs, ha, hst, ne_eq, not_true_eq_false, or_self, hheld, Bool.false_eq_true]

theorem withSource_empty {eff : State → State} (he : (tileAt s (tileKey s tl.val)).st = .empty) :
    withSource s tl eff = tileErr s 2 tl.val := by
  rw [withSource, he]

theorem withSource_ready {eff : State → State} {r : Nat} (he : (tileAt s (tileKey s tl.val)).st = .ready r) :
    withSource s tl eff = eff s := by
  rw [withSource, he]

include hs hc

theorem exec_tshape {v : GI} (hu : Engine s) :
    exec (.tshape h tl v) s = .next (setShape s tl (giVal s v) (retire h)) := by
  show execTshape h tl v s = _
  rw [execTshape, issueC_runs hc, issued hs, withUnit_runs hu]

theorem exec_tld (hr : Rows s tl b st disp x locs) (ho : InOrder s true) (hf : StoresFree s) (hi : tileIdle x = true) :
    exec (.tld h tl b st disp) s = .next (
      let bytes := locs.flatMap fun r => locsFrom r (shRowB x.shape)
      let s1 := drainCovering (closeCur s) s.cur bytes
      let r := readThreadMany s1 0 (curT s1) (sectors bytes)
      let n := newId (putT s1 { curT s1 with view := r.2 })
      let s2 := setTile (countCorrected n.2 bytes) (tileKey s tl.val)
        { x with st := .filling, data := r.1, load := n.1 }
      retire h (later s2 (3 + locs.length + tileFar s locs) (.tileLoadComplete (tileKey s tl.val) n.1))) := by
  show execTld h tl b st disp s = _
  rw [execTld, issueC_runs hc, issued hs, withRows_runs hr]
  simp only [hi, Bool.not_true, Bool.false_eq_true, if_false, withOrder_runs ho, withTstDone_runs hf]

theorem exec_tst (hroom : HasRoom s) (hr : Rows s tl b st disp x locs) : exec (.tst h tl b st disp) s = .next (
    withSource s tl fun s => withOrder s false fun s => withTstDone s fun s =>
      let n := shRowB x.shape
      let far := tileFar s locs
      let s1 := drainCovering (closeCur s) s.cur (locs.flatMap fun r => locsFrom r n)
      let op := newId s1
      let w := resultWait [] (.tst op.1) op.2
      let items := (List.range locs.length).map fun r =>
        (s.clock + 3 + r + far, (locsFrom (locs.getD r 0) n).zip ((x.data.drop (r * n)).take n))
      let o : TileOp := { ctx := (curT s).ctx, tk := s.cur, rid := w.1, tile := tileKey s tl.val, rows := items,
                          fin := s.clock + 3 + locs.length + far, view := {}, covers := locs, rowb := n }
      let s4 := addReader { w.2 with tileOps := mset w.2.tileOps op.1 o } (tileKey s tl.val)
      retire h (later s4 (3 + far) (.tileStoreComplete (tileKey s tl.val) op.1))) := by
  show execTst h tl b st disp s = _
  rw [execTst, issueC_runs hc, issued hs, withRoom_runs hroom, withRows_runs hr]

end TileMoves

/-- Settles O35: TSHAPE by `setShape`, TLD and TST once `withRows_runs` has passed their rows. -/
theorem tileMoves : Obligations.TileMoves := by
  refine ⟨fun h tl v s hs hc hu => ⟨fun ht hi hok => ?_, fun ht hi hok => ?_, fun ht => ?_⟩,
    fun h tl b st disp s x locs hs hc hr => ⟨fun ho hf hi => exec_tld hs hc hr ho hf hi,
      fun hroom ho hf ⟨r, hst⟩ => ?_, fun hroom he => ?_⟩⟩
  · rw [exec_tshape hs hc hu, setShape, withTile_runs ht]
    simp only [hi, hok, Bool.not_true, Bool.false_eq_true, if_false]
  · rw [exec_tshape hs hc hu, setShape, withTile_runs ht]
    simp only [hi, hok, Bool.not_true, Bool.not_false, Bool.false_eq_true, if_false, if_true]
  · rw [exec_tshape hs hc hu, setShape, withTile_beyond ht]
  · have hx : x = tileAt s (tileKey s tl.val) := hr.2.2.1
    rw [exec_tst hs hc hroom hr, withSource_ready (hx ▸ hst), withOrder_runs ho, withTstDone_runs hf]
  · have hx : x = tileAt s (tileKey s tl.val) := hr.2.2.1
    rw [exec_tst hs hc hroom hr, withSource_empty (hx ▸ he)]

/-! #### Jobs of the matrix engine (R240 to R252, R260) -/

section Engine

variable {h : Hdr} {s : State} {ta tb : Fin 16} {ac : Fin 4} {bt : Bool}

/-- Readers change tiles alone. -/
theorem addReader_eq (s : State) (k : Nat) : ∃ ts, addReader s k = { s with tiles := ts } := by
  unfold addReader
  dsimp only
  split
  · exact ⟨_, rfl⟩
  · exact ⟨s.tiles, rfl⟩

theorem readPair_eq (ta tb : Fin 16) (s : State) : ∃ ts, readPair ta tb s = { s with tiles := ts } := by
  obtain ⟨ts, hts⟩ := addReader_eq s (tileKey s ta.val)
  unfold readPair
  dsimp only
  rw [hts]
  split
  · exact ⟨ts, rfl⟩
  · obtain ⟨ts', hts'⟩ := addReader_eq { s with tiles := ts } (tileKey s tb.val)
    exact ⟨ts', hts'⟩

/-- A job that enters its queue: with an id register its id is the result, without one the thread waits. -/
def enqueued (h : Hdr) (q : Nat) (kind : JobKind) (rsr : Bool) : Option (Fin 16) → State → State
  | some r => enqueueId h q kind rsr r
  | none => enqueueSync h q kind rsr

/-- A job enters its queue in the form that its id register asks for. -/
theorem enqueueForm_runs {q : Nat} {kind : JobKind} {rsr : Bool} {j : Option (Fin 16)} (hq : QueueRoom q s) :
    enqueueForm h q kind rsr j s = enqueued h q kind rsr j s := by
  obtain ⟨h1, h2, h3, h4, h5⟩ := hq
  rw [enqueueForm, withQueue_runs h1 h2 h3 h4 h5]
  cases j <;> rfl

theorem queueRoom_readPair {q : Nat} (hq : QueueRoom q s) : QueueRoom q (readPair ta tb s) := by
  obtain ⟨ts, hts⟩ := readPair_eq ta tb s
  rw [hts]
  exact hq

/-- A job of two tiles enters its queue, and the tiles have a reader more. -/
theorem withQueue_readPair {q : Nat} {kind : JobKind} {rsr : Bool} {j : Option (Fin 16)} (hq : QueueRoom q s) :
    (withQueue q s fun s => enqueueForm h q kind rsr j (readPair ta tb s)) =
      enqueued h q kind rsr j (readPair ta tb s) := by
  obtain ⟨h1, h2, h3, h4, h5⟩ := hq
  rw [withQueue_runs h1 h2 h3 h4 h5, enqueueForm_runs (queueRoom_readPair ⟨h1, h2, h3, h4, h5⟩)]

/-- A pair of tiles that names tiles and a bank of the share, none of them filling. -/
theorem withPair_eq {eff : State → State} (hp : Pair s ta tb) : withPair s ac ta tb bt eff =
    match pairFails s ta tb bt with
    | some (r, t) => tileErr s r t
    | none => eff s := by
  obtain ⟨hu, hbank, hta, htb, hna, hnb⟩ := hp
  rw [withPair, withUnit_runs hu, withBank_runs hbank, withTile_runs hta, withTile_runs htb]
  simp only [hna, hnb, or_self, if_false] <;> rfl

variable {r64 c64 set : Bool} {fz : Fz} {j : Fin 16}

/-- The job of an MMA. -/
def mmaKind (s : State) (bt r64 c64 set : Bool) (fz : Fz) (ac : Fin 4) (ta tb : Fin 16) (l : Option Nat) : JobKind :=
  .mma ac.val (tileKey s ta.val) (tileKey s tb.val) bt r64 c64 set fz.fzi fz.fzo l

/-- MMA and MMA.A on such a pair. -/
theorem mmaForm_eq {j : Option (Fin 16)} (hp : Pair s ta tb) (hf : pairFails s ta tb bt = none)
    (hq : QueueRoom (qmOf s) s) : mmaForm h bt r64 c64 set fz j ac ta tb s =
      enqueued h (qmOf s) (mmaKind s bt r64 c64 set fz ac ta tb none) false j (readPair ta tb s) := by
  rw [mmaForm, withPair_eq hp, hf]
  exact withQueue_readPair hq

theorem mmaForm_fails {j : Option (Fin 16)} {r tl : Nat} (hp : Pair s ta tb)
    (hf : pairFails s ta tb bt = some (r, tl)) : mmaForm h bt r64 c64 set fz j ac ta tb s = tileErr s r tl := by
  rw [mmaForm, withPair_eq hp, hf]

/-- A synchronous form finds room for its result. -/
theorem withRoomSync_runs {j : Option (Fin 16)} {eff : State → State} (hroom : j.isNone → HasRoom s) :
    withRoomSync j s eff = eff s := by
  cases j with
  | none => exact withRoom_runs (hroom rfl)
  | some r => rfl

variable (hs : Issues h s) (hc : OnCore s)
include hs hc

theorem exec_mmaA : exec (.mmaA h bt r64 c64 set fz j ac ta tb) s =
    .next (mmaForm h bt r64 c64 set fz (some j) ac ta tb s) := by
  show execMmaA h bt r64 c64 set fz j ac ta tb s = _
  rw [execMmaA, issueC_runs hc, issued hs]

theorem exec_mma (hroom : HasRoom s) : exec (.mma h bt r64 c64 set fz ac ta tb) s =
    .next (mmaForm h bt r64 c64 set fz none ac ta tb s) := by
  show execMma h bt r64 c64 set fz ac ta tb s = _
  rw [execMma, issueC_runs hc, issued hs, withRoom_runs hroom]

theorem exec_mmag {j : Option (Fin 16)} {l : Fin 16} (hroom : j.isNone → HasRoom s) (hp : Pair s ta tb)
    (hf : pairFails s ta tb bt = none) : exec (.mmag h bt c64 set fz j ac ta tb l) s = .next (
      match clusterLoc s (gVal s l).toNat 128 with
      | .error e => trapHere s cPROT (w64 e)
      | .ok loc =>
        if (gVal s l).toNat % 8 ≠ 0 then trapHere s cALIGN (w64 (gVal s l).toNat)
        else withQueue (qmOf s) s fun s =>
          enqueueForm h (qmOf s) (mmaKind s bt false c64 set fz ac ta tb (some loc)) false j (readPair ta tb s)) := by
  show execMmag h bt c64 set fz j ac ta tb l s = _
  rw [execMmag, issueC_runs hc, issued hs, withRoomSync_runs hroom, withPair_eq hp, hf]
  rfl

theorem exec_mmag_runs {j : Option (Fin 16)} {l : Fin 16} {loc : Nat} (hroom : j.isNone → HasRoom s) (hp : Pair s ta tb)
    (hf : pairFails s ta tb bt = none) (hl : clusterLoc s (gVal s l).toNat 128 = .ok loc)
    (ha : (gVal s l).toNat % 8 = 0) (hq : QueueRoom (qmOf s) s) :
    exec (.mmag h bt c64 set fz j ac ta tb l) s = .next (
      enqueued h (qmOf s) (mmaKind s bt false c64 set fz ac ta tb (some loc)) false j (readPair ta tb s)) := by
  rw [exec_mmag hs hc hroom hp hf, hl]
  dsimp only
  rw [if_neg (not_not_intro ha)]
  exact congrArg _ (withQueue_readPair hq)

theorem exec_accf {z c nf sat : Bool} {f : Fp} {j : Option (Fin 16)} (hroom : j.isNone → HasRoom s) (hu : Engine s)
    (hbank : tileShare s ≠ 0) : exec (.accf h z c nf f sat j ac) s = .next (
      match rowError s (curT s).ctx (coreOf s.cur / 8) (clusterAt s (coreOf s.cur / 8)).rowmap
          (if c then 128 else 256) with
      | some off => trapHere s cPROT (w64 off)
      | none => enqueueForm h (qmOf s) (.accf ac.val z c nf f.fzo f.rm sat (clusterAt s (coreOf s.cur / 8)).rowmap)
          (f.rm == .rsr && c) j s) := by
  show execAccf h z c nf f sat j ac s = _
  rw [execAccf, issueC_runs hc, issued hs, withRoomSync_runs hroom, withUnit_runs hu, withBank_runs hbank] <;> rfl

end Engine

/-- Settles O36: the pair's checks by `withPair_eq`, then the job enters its queue (`withQueue_readPair`). -/
theorem engineJobs : Obligations.EngineJobs := by
  refine ⟨fun h bt r64 c64 set fz j ta tb ac s hs hc hp => ⟨fun hf hq => ⟨?_, fun hroom => ?_⟩,
      fun r tl hf => ⟨?_, fun hroom => ?_⟩⟩,
    fun h bt c64 set fz j ta tb l ac s hs hc hp hf => ⟨fun loc hl ha hq => ⟨?_, fun hroom => ?_⟩, fun e he => ?_,
        fun loc hl ha => ?_⟩,
    fun h z c nf sat f j ac s hs hc hu hbank => ⟨fun he hq => ⟨?_, fun hroom => ?_⟩,
        fun off he => ⟨?_, fun hroom => ?_⟩⟩⟩
  · rw [exec_mmaA hs hc, mmaForm_eq hp hf hq]; rfl
  · rw [exec_mma hs hc hroom, mmaForm_eq hp hf hq]; rfl
  · rw [exec_mmaA hs hc, mmaForm_fails hp hf]
  · rw [exec_mma hs hc hroom, mmaForm_fails hp hf]
  · exact exec_mmag_runs hs hc (j := some j) (fun h => absurd h Bool.false_ne_true) hp hf hl ha hq
  · exact exec_mmag_runs hs hc (fun _ => hroom) hp hf hl ha hq
  · rw [exec_mmag hs hc (j := some j) (fun h => absurd h Bool.false_ne_true) hp hf, he]; rfl
  · rw [exec_mmag hs hc (j := some j) (fun h => absurd h Bool.false_ne_true) hp hf, hl]; exact congrArg _ (if_pos ha)
  · rw [exec_accf hs hc (j := some j) (fun h => absurd h Bool.false_ne_true) hu hbank, he]
    exact congrArg _ (enqueueForm_runs hq)
  · rw [exec_accf hs hc (fun _ => hroom) hu hbank, he]; exact congrArg _ (enqueueForm_runs hq)
  · rw [exec_accf hs hc (j := some j) (fun h => absurd h Bool.false_ne_true) hu hbank, he]; rfl
  · rw [exec_accf hs hc (fun _ => hroom) hu hbank, he]; rfl

/-! #### Row maps, copies and collectives (R257 to R259, R391) -/

section Maps

variable {h : Hdr} {a : Fin 16} {s : State} {locs : List Nat}

/-- Clearing fields of a word, one after another. -/
theorem getLsbD_clear (f : Nat → Nat) (l : List Nat) (m : BitVec 768) (k : Nat) :
    (l.foldl (fun m c => m &&& ~~~(0x1FF#768 <<< f c)) m).getLsbD k =
      (m.getLsbD k && l.all fun c => !(0x1FF#768 <<< f c).getLsbD k) := by
  induction l generalizing m with
  | nil => simp
  | cons c l ih =>
    rw [List.foldl_cons, ih, List.all_cons, BitVec.getLsbD_and, BitVec.getLsbD_not, ← Bool.and_assoc]
    by_cases hk : k < 768
    · simp [hk, Bool.and_assoc]
    · simp [BitVec.getLsbD_of_ge _ _ (Nat.le_of_not_lt hk)]

/-- Bits 62 to 54 of a core entry read as zeros. -/
theorem rowmapOf_clear (x : Nat) {c i : Nat} (hc : c < 8) (hi : i < 9) :
    (rowmapOf x).getLsbD (256 + 64 * c + 54 + i) = false := by
  have hbit : (0x1FF#768 <<< (256 + 64 * c + 54)).getLsbD (256 + 64 * c + 54 + i) = true := by
    rw [BitVec.getLsbD_shiftLeft, Nat.add_sub_cancel_left]
    have hfield : (0x1FF#768).getLsbD i = true := by
      rw [BitVec.getLsbD_ofNat, show 0x1FF = 2 ^ 9 - 1 from rfl, Nat.testBit_two_pow_sub_one, decide_eq_true hi,
        Bool.and_true, decide_eq_true (by omega)]
    rw [hfield]
    simp
    omega
  have hall : ((List.range 8).all fun c' => !(0x1FF#768 <<< (256 + 64 * c' + 54)).getLsbD
      (256 + 64 * c + 54 + i)) = false := by
    rw [List.all_eq_false]
    exact ⟨c, List.mem_range.mpr hc, by rw [hbit]; simp⟩
  rw [rowmapOf, BitVec.getLsbD_and, getLsbD_clear, hall, Bool.and_false, Bool.and_false]

theorem exec_tmap (hs : Issues h s) (hc : OnCore s) (hu : Engine s) (hbank : tileShare s ≠ 0)
    (hx : lanesAccess s 8 false (imageVas (gVal s a).toNat) = .ok locs) (hh : locs.any (heldShare s) = false)
    (ho : InOrder s true) : exec (.tmap h a) s = .next (
      if (locs.flatMap fun x => locsFrom x 8).any (portHeld s) then retry s
      else if readsPoison s (curT s) (locs.flatMap fun x => locsFrom x 8) then
        later (putT s { curT s with block := .device }) 0 (.uncorrectableConsumed s.cur (gVal s a).toNat 0)
      else
        let s1 := countCorrected (closeCur s) (locs.flatMap fun x => locsFrom x 8)
        let r := readThreadMany s1 0 (curT s1) (sectors (locs.flatMap fun x => locsFrom x 8))
        let m := memDelay (setCluster (putT s1 { curT s1 with view := r.2 }) (coreOf s.cur / 8)
          { clusterAt s1 (coreOf s.cur / 8) with rowmap := rowmapOf (ofBytesLE r.1) })
        holdFor m.1 (retire h m.2)) := by
  show execTmap h a s = _
  rw [execTmap, issueC_runs hc, issued hs, withUnit_runs hu, withBank_runs hbank]
  exact congrArg _ (withLanes_runs hx hh ho)

theorem exec_tmapR (hs : Issues h s) (hc : OnCore s) (hu : Engine s) (hbank : tileShare s ≠ 0)
    (hx : lanesAccess s 8 true (imageVas (gVal s a).toNat) = .ok locs) (hh : locs.any (heldShare s) = false)
    (ho : InOrder s false) : exec (.tmapR h a) s = .next (
      let img := bytesLE 96 (clusterAt s (coreOf s.cur / 8)).rowmap.toNat
      let cells := (((imageVas (gVal s a).toNat).zip locs).zip (List.range 12)).map fun e =>
        (List.range 8).map fun k => ((e.1.1 + k) / 32, e.1.2 + k, img.getD (8 * e.2 + k) 0)
      issueWrites h (sectorWrites cells.flatten) (closeCur s)) := by
  show execTmapR h a s = _
  rw [execTmapR, issueC_runs hc, issued hs, withUnit_runs hu, withBank_runs hbank]
  exact congrArg _ (withLanes_runs hx hh ho)

end Maps

section Copies

variable {h : Hdr} {j dst src : Fin 16} {s : State}

/-- The rows of a COPY. -/
def copyRows (s : State) (d2 : Bool) (x : GI) : Nat := if d2 then bitsOf (giVal s x) 47 32 + 1 else 1

/-- The stride register of a COPY. -/
def copyStride (s : State) (d2 : Bool) (x : GI) : Word := if d2 then gVal s (regAfter x 1) else 0

/-- The address that a COPY's checks refuse. -/
def copyBad (s : State) (dst src : Fin 16) (d2 : Bool) (x : GI) : Option Nat :=
  copyEdges s (gVal s dst).toNat (gVal s src).toNat (copyRows s d2 x) (bitsOf (giVal s x) 31 0)
    (strideOf (copyStride s d2 x) true) (strideOf (copyStride s d2 x) false)

/-- The job of a COPY. -/
def copyJob (s : State) (dst src : Fin 16) (d2 : Bool) (x : GI) (b : Option Nat) : JobKind :=
  .copy (gVal s dst).toNat (gVal s src).toNat (copyRows s d2 x) (bitsOf (giVal s x) 31 0)
    (strideOf (copyStride s d2 x) true) (strideOf (copyStride s d2 x) false) b

theorem exec_copy {q : Fin 4} {ch : CH} {x : GI} {d2 wb : Bool} (hs : Issues h s) (hc : OnCore s)
    (hu : inService s.cmap clsCopy (coreOf s.cur / 8) = true) : exec (.copy h d2 wb ch j q dst src x) s = .next (
      match copyBad s dst src d2 x with
      | some va => trapHere s cPROT (w64 va)
      | none =>
        let qk := queueKey (coreOf s.cur / 8) (1 + q.val)
        let go := fun (b : Option Nat) (s' : State) => withQueue qk s' fun s' =>
          enqueueId h qk (copyJob s dst src d2 x b) false j s'
        if wb then withBarrier s (gVal s (regAfter x (if d2 then 2 else 1))).toNat fun loc s => go (some loc) s
        else go none s) := by
  show execCopy h d2 wb ch j q dst src x s = _
  rw [execCopy, issueC_runs hc, issued hs, withUnit_runs hu]
  rfl

/-- COPY whose checks pass, with room in its queue. -/
theorem exec_copy_plain {q : Fin 4} {ch : CH} {x : GI} {d2 : Bool} (hs : Issues h s) (hc : OnCore s)
    (hu : inService s.cmap clsCopy (coreOf s.cur / 8) = true) (hok : copyBad s dst src d2 x = none)
    (hq : QueueRoom (queueKey (coreOf s.cur / 8) (1 + q.val)) s) : exec (.copy h d2 false ch j q dst src x) s = .next (
      enqueueId h (queueKey (coreOf s.cur / 8) (1 + q.val)) (copyJob s dst src d2 x none) false j s) := by
  obtain ⟨h1, h2, h3, h4, h5⟩ := hq
  rw [exec_copy hs hc hu, hok]
  exact congrArg _ (withQueue_runs h1 h2 h3 h4 h5)

theorem exec_copy_barrier {q : Fin 4} {ch : CH} {x : GI} {d2 : Bool} {loc : Nat} (hs : Issues h s) (hc : OnCore s)
    (hu : inService s.cmap clsCopy (coreOf s.cur / 8) = true) (hok : copyBad s dst src d2 x = none)
    (hq : QueueRoom (queueKey (coreOf s.cur / 8) (1 + q.val)) s)
    (hw : windowOf (gVal s (regAfter x (if d2 then 2 else 1))).toNat = .local_ ∨
      windowOf (gVal s (regAfter x (if d2 then 2 else 1))).toNat = .global)
    (hreach : Reaches s (gVal s (regAfter x (if d2 then 2 else 1))).toNat 8 8 false loc) (ho : InOrder s true) :
    exec (.copy h d2 true ch j q dst src x) s = .next (
      enqueueId h (queueKey (coreOf s.cur / 8) (1 + q.val)) (copyJob s dst src d2 x (some loc)) false j s) := by
  obtain ⟨h1, h2, h3, h4, h5⟩ := hq
  rw [exec_copy hs hc hu, hok]
  exact congrArg _ ((withBarrier_runs hw hreach ho).trans (withQueue_runs h1 h2 h3 h4 h5))

variable {n mk : Fin 16} {form : Nat}

/-- COLL of a form whose checks pass. -/
theorem collForm_runs (hs : Issues h s)
    (hok : collTrap s form (gVal s dst).toNat (gVal s src).toNat (gVal s n) (gVal s mk) = none)
        (hq : QueueRoom qclKey s) :
    collForm h form j dst src n mk s = .next (enqueueId h qclKey
      (.coll form (gVal s dst).toNat (gVal s src).toNat (gVal s n) (gVal s mk) none) false j s) := by
  obtain ⟨h1, h2, h3, h4, h5⟩ := hq
  rw [collForm, issued hs]
  simp only [hok]
  exact congrArg _ (withQueue_runs h1 h2 h3 h4 h5)

theorem collForm_traps {x : Word} (hs : Issues h s)
    (hbad : collTrap s form (gVal s dst).toNat (gVal s src).toNat (gVal s n) (gVal s mk) = some x) :
    collForm h form j dst src n mk s = .next (trapHere s 0x06 x) := by
  rw [collForm, issued hs]
  simp only [hbad]
  rfl

end Copies

/-- Settles O37: TMAP and TMAP.R by their lanes, COPY and COLL by their checks and their queue. -/
theorem mapsAndCopies : Obligations.MapsAndCopies := by
  refine ⟨fun h a s locs hs hc hu hbank => ⟨fun hx hh ho => ⟨fun hp => ?_, fun hp hpo => ?_, fun hp hpo => ?_⟩,
      fun hx hh ho => exec_tmapR hs hc hu hbank hx hh ho⟩,
    fun x c i hc hi => rowmapOf_clear x hc hi,
    fun h j dst src q ch x d2 s hs hc hu => ⟨fun va wb hbad => ?_, fun hok hq =>
      ⟨exec_copy_plain hs hc hu hok hq, fun loc hw hreach ho => exec_copy_barrier hs hc hu hok hq hw hreach ho⟩⟩,
    fun h j dst src n mk s hs => ⟨fun hok hq => collForm_runs hs hok hq, fun hok hq => collForm_runs hs hok hq,
      fun hok hq => collForm_runs hs hok hq, fun x hbad => collForm_traps hs hbad, fun x hbad => collForm_traps hs hbad,
      fun x hbad => collForm_traps hs hbad⟩⟩
  · rw [exec_tmap hs hc hu hbank hx hh ho, if_pos hp]
  · rw [exec_tmap hs hc hu hbank hx hh ho, if_neg (by simp only [hp, Bool.false_eq_true, not_false_eq_true]),
      if_neg (by simp only [hpo, Bool.false_eq_true, not_false_eq_true])]
  · rw [exec_tmap hs hc hu hbank hx hh ho, if_neg (by simp only [hp, Bool.false_eq_true, not_false_eq_true]),
      if_pos hpo]
  · have hb : copyBad s dst src d2 x = some va := hbad
    rw [exec_copy hs hc hu, hb]
    rfl

/-! #### Waiting for jobs and queues (R153, R254) -/

section JobWaits

variable {h : Hdr} {j : GI} {gt : Option (Fin 16)} {c : Fin 32} {s : State}

/-- The record that JWAIT's operand names, if there is one. -/
def jwaitRec (s : State) (j : GI) : Option JobRec :=
  if (giVal s j).toNat % 65536 = 0 then none else jobRec s (curT s).ctx (curT s).lcore ((giVal s j).toNat % 65536)

theorem exec_jwait (hs : Issues h s) (hc : OnCore s) (hroom : HasRoom s) : exec (.jwait h j gt) s = .next (
    match jwaitRec s j with
    | some r =>
      if isPending r.status then
        retire h (resultWait (jwaitDst gt) (.job (curT s).lcore ((giVal s j).toNat % 65536) gt) s).2
      else
        let w := resultWait (jwaitDst gt) .none s
        let t := modRes (latchEvt w.2.clock (curT w.2) evJOB) w.1 fun x =>
          { x with vals := valsOf (jwaitDst gt) r.status true, join := some r.view, evt := evJOB }
        retire h (later (putT w.2 t) 2 (.resultReturn w.2.cur w.1))
    | none => resultIn h 2 (valsOf (jwaitDst gt) 0 true) s) := by
  show execJwait h j gt s = _
  rw [execJwait, issueC_runs hc, issued hs, withRoom_runs hroom]
  rfl

theorem exec_jwaitP (hs : Issues h s) (hc : OnCore s) : exec (.jwaitP h c j gt) s = .next (
    match jwaitRec s j with
    | some r =>
      if isPending r.status then polled h c gt false r.status s
      else polled h c gt true r.status (putT s { curT s with view := (curT s).view.join r.view })
    | none => polled h c gt true 0 s) := by
  show execJwaitP h c j gt s = _
  rw [execJwaitP, issueC_runs hc, issued hs]
  rfl

theorem exec_qfence {m : GI} (hs : Issues h s) (ho : InOrder s false) : exec (.qfence h m) s = .next (
    let qs := fenceQueues (coreOf s.cur) (giVal s m).toNat
    if qs.any fun q => decide (64 ≤ (queueAt s q).ents.length) then retry s
    else if qs.all fun q => (queueAt s q).ents.isEmpty then retire h (passMark s qs)
    else
      let n := newId s
      retire h (pumpQueues (qs.foldl (fun s q =>
        setQueue s q { queueAt s q with ents := (queueAt s q).ents ++ [.mark n.1 qs] }) n.2))) := by
  show execQfence h m s = _
  rw [execQfence, issued hs, withOrder_runs ho]

end JobWaits

/-- Settles O38: the cases of JWAIT, JWAIT.P and QFENCE. -/
theorem jobWaits : Obligations.JobWaits := by
  refine ⟨fun h j gt c s r hs hc hne hr => ?_, fun h j gt c s hs hc hno => ?_,
    fun h m s hs ho => ⟨fun hall => ?_, fun hroom hsome => ?_, fun hfull => ?_⟩⟩
  · have hrec : jwaitRec s j = some r := (if_neg hne).trans hr
    refine ⟨fun hroom hp => ?_, fun hroom hp => ?_, fun hp => ?_, fun hp => ?_⟩
    · rw [exec_jwait hs hc hroom, hrec]; exact congrArg _ (if_pos hp)
    · rw [exec_jwait hs hc hroom, hrec]; exact congrArg _ (if_neg (by rw [hp]; exact Bool.false_ne_true))
    · rw [exec_jwaitP hs hc, hrec]; exact congrArg _ (if_pos hp)
    · rw [exec_jwaitP hs hc, hrec]; exact congrArg _ (if_neg (by rw [hp]; exact Bool.false_ne_true))
  · have hrec : jwaitRec s j = none := by
      rw [jwaitRec]
      split
      · rfl
      · exact hno.resolve_left ‹_›
    refine ⟨fun hroom => ?_, ?_⟩
    · rw [exec_jwait hs hc hroom, hrec]
    · rw [exec_jwaitP hs hc, hrec]
  · have hroom : (fenceQueues (coreOf s.cur) (giVal s m).toNat).any
      (fun q => decide (64 ≤ (queueAt s q).ents.length)) = false := by
      rw [List.any_eq_false]
      intro q hq hlen
      have hempty := List.isEmpty_iff.mp (List.all_eq_true.mp hall q hq)
      simp [hempty] at hlen
    rw [exec_qfence hs ho]
    exact congrArg _ ((if_neg (by rw [hroom]; exact Bool.false_ne_true)).trans (if_pos hall))
  · have hroom' : (fenceQueues (coreOf s.cur) (giVal s m).toNat).any
      (fun q => decide (64 ≤ (queueAt s q).ents.length)) = false := by
      rw [List.any_eq_false]
      intro q hq hlen
      have := of_decide_eq_true (List.all_eq_true.mp hroom q hq)
      have := of_decide_eq_true hlen
      omega
    rw [exec_qfence hs ho]
    exact congrArg _ ((if_neg (by rw [hroom']; exact Bool.false_ne_true)).trans
        (if_neg (by rw [hsome]; exact Bool.false_ne_true)))
  · rw [exec_qfence hs ho]
    exact congrArg _ (if_pos hfull)

end Sys2Proof.Proofs

/-! ### Tracks (R263 to R287) -/

namespace Sys2Proof.Proofs

open Sys2Proof.Machine Sys2Proof.Slice0 Sys2Proof.Laws

/-! #### What a track operand names (R264, R276, R278) -/

section Naming

variable {l : Option (Fin 16)} {k : KK} {s : State} {ks : List Nat} {eff : List Nat → State → State}

theorem withTracks_named (ht : Tracks s l k ks) : withTracks s l k eff = eff ks s := by
  obtain ⟨hl, hv, rfl⟩ := ht
  exact withTracks_runs hl hv

theorem withTracks_lacking (hv : ((vtracks k).any fun v => decide ((curCC s).tmap.length ≤ v)) = true) :
    withTracks s none k eff = trkOwn s 1 k := by
  simp only [withTracks, hv, if_true]

theorem withTracks_absent {r : Fin 16} (hn : namedCore s (gVal s r) = none) :
    withTracks s (some r) k eff = trapHere s 0x06 (gVal s r) := by
  simp only [withTracks, hn, cPROT]

theorem withTracks_departs {r : Fin 16} {cc : CoreCtx} (hn : namedCore s (gVal s r) = some cc)
    (hne : (gVal s r).toNat ≠ (curT s).lcore) (hres : (curT s).res = []) :
    withTracks s (some r) k eff = depart s s.cur (gVal s r).toNat cc.phys := by
  simp only [withTracks, hn, hne, if_false, migrateHere, hres, if_true]

/-- The context has or is owed every lease. -/
theorem withClaim_claimed (ht : Tracks s l k ks)
    (hc : (ks.all fun k => leaseAfter s (curT s).ctx k == some true || owedAfter s (curT s).ctx k) = true) :
    withClaim s l k eff = eff ks s := by
  have hno (x : Option Bool) (hx : x ≠ some true) :
      (ks.any fun k => leaseAfter s (curT s).ctx k == x && !owedAfter s (curT s).ctx k) = false := by
    rw [List.any_eq_false]
    intro j hj hand
    obtain ⟨hlease, howed⟩ := Bool.and_eq_true_iff.mp hand
    rcases Bool.or_eq_true_iff.mp (List.all_eq_true.mp hc j hj) with h | h
    · exact hx ((beq_iff_eq.mp hlease).symm.trans (beq_iff_eq.mp h))
    · rw [h] at howed
      exact Bool.false_ne_true howed
  exact withClaim_runs (funext fun _ => withTracks_named ht) (hno (some false) (by decide)) (hno none (by decide))

/-- An instruction under leases acts on the tracks that it names. -/
theorem acts_of_claim {o : Host.Outcome State Fault Refusal} (hcl : o = .next (withClaim s l k eff)) :
    ∃ eff, o = .next (withTracks s l k eff) :=
  ⟨_, hcl⟩

theorem withClaim_lacking (ht : Tracks s l k ks)
    (hno : (ks.any fun k => leaseAfter s (curT s).ctx k == some false && !owedAfter s (curT s).ctx k) = true) :
    withClaim s l k eff = trkOwn s 2 k := by
  rw [withClaim, withTracks_named ht]
  exact if_pos hno

/-- A context that holds the leases is owed none of them. -/
theorem owedGang_of_leased (hl : Leased s ks) : owedGang s ks = none := by
  have hnone : (ks.findSome? fun k => if owedAfter s (curT s).ctx k then owedOf s (curT s).ctx k else none) = none := by
    rw [List.findSome?_eq_none_iff]
    intro j hj
    have hno := (Bool.and_eq_true_iff.mp (List.all_eq_true.mp hl j hj)).2
    exact if_neg (by simpa using hno)
  rw [owedGang, hnone] <;> rfl

theorem claimed_of_leased (hl : Leased s ks) :
    (ks.all fun k => leaseAfter s (curT s).ctx k == some true || owedAfter s (curT s).ctx k) = true := by
  rw [List.all_eq_true]
  intro j hj
  rw [(Bool.and_eq_true_iff.mp (List.all_eq_true.mp hl j hj)).1, Bool.true_or]

/-- Under held leases the accesses enter the tracks' queues. -/
theorem withLeases_leased {h : Hdr} {ops : List Nat → List (List Nat × TrkOp)} (ht : Tracks s l k ks)
    (hl : Leased s ks) :
    withLeases s h l k ops = enterOps h (ops ks) s := by
  rw [withLeases, withClaim_claimed ht (claimed_of_leased hl), underLeases_runs (owedGang_of_leased hl)]

end Naming

/-! #### The track instructions -/

section Track

variable {h : Hdr} {k : KK} {k1 : Fin 64} {kg : Fin 4} {l a : Option (Fin 16)} {d : Fin 16} {c : Fin 32} {v : Fin 32}
    {x : GI} {pg : Fin 8}
  {dir : SeekK} {e sx : Bool} {disp : BitVec 24} {s : State}

/-- The target of a SEEK. -/
def seekTarget (s : State) (a : Option (Fin 16)) (disp : BitVec 24) : Word :=
  (match a with
    | some r => gVal s r
    | none => 0) + disp.signExtend 64

/-- The direction that a SEEK sets. -/
def seekDir : SeekK → Option Bool
  | .keep => none
  | .fwd => some false
  | .rev => some true

variable (hs : Issues h s) (hc : OnCore s)
include hs hc

theorem exec_holdW : exec (.holdW h k l) s = .next (withTracks s l k fun ks s =>
    if (ks.all fun k => leaseAfter s (curT s).ctx k == some true) && !fencedNow s then retire h (closeCur s)
    else holdForLease s (holdSet s ks) (some h) ks []) := by
  show execHoldW h k l s = _
  rw [execHoldW, issueC_runs hc, issued hs]

theorem exec_holdT (hroom : HasRoom s) : exec (.holdT h c k l) s = .next (withTracks s l k fun ks s =>
    let r := resultWait [.c c] .none (closeCur s)
    retire h (pushAcc r.2 (holdSet s ks) (.holdT r.1 c))) := by
  show execHoldT h c k l s = _
  rw [execHoldT, issueC_runs hc, issued hs, withRoom_runs hroom]

theorem exec_hrel :
    exec (.hrel h k l) s = .next (withTracks s l k fun ks s => retire h (pushAcc (closeCur s) ks .hrel)) := by
  show execHrel h k l s = _
  rw [execHrel, issueC_runs hc, issued hs]

theorem exec_hpos : exec (.hpos h d k1 l) s = .next (withTracks s l (.k k1) fun ks s =>
    resultG h d (hposWord s (curT s).ctx (ks.headD 0) k1.val) (closeCur s)) := by
  show execHpos h d k1 l s = _
  rw [execHpos, issueC_runs hc, issued hs]

theorem exec_seek : exec (.seek h dir k a l disp) s = .next (withClaim s l k fun ks s =>
    if 16383 < (seekTarget s a disp).toNat then trapHere s cPROT (seekTarget s a disp)
    else underLeases h (seekOps (seekTarget s a disp).toNat (seekDir dir)) ks s) := by
  show execSeek h dir k a l disp s = _
  unfold execSeek
  rw [issueC_runs hc, issued hs] <;> rfl

theorem exec_rwnd :
    exec (.rwnd h e k l) s = .next (withLeases s h l k (seekOps (if e then 16383 else 0) (some e))) := by
  show execRwnd h e k l s = _
  rw [execRwnd, issueC_runs hc, issued hs]

theorem exec_rds (hroom : HasRoom s) : exec (.rds h sx d k1 l) s = .next (
    withLeases s h l (.k k1) fun ks => [(ks, .rds 0 d sx)]) := by
  show execRds h sx d k1 l s = _
  rw [execRds, issueC_runs hc, issued hs, withRoom_runs hroom]

theorem exec_wrs : exec (.wrs h k1 x l) s = .next (
    withLeases s h l (.k k1) fun ks => [(ks, .wrs ((giVal s x).setWidth 32))]) := by
  show execWrs h k1 x l s = _
  rw [execWrs, issueC_runs hc, issued hs]

theorem exec_vrds (hv : VRegs [v] s) (hroom : HasRoom s) : exec (.vrds h v kg l) s = .next (
    withLeases s h l (.kg kg) fun ks => [(ks, .vrds 0 v)]) := by
  show execVrds h v kg l s = _
  rw [execVrds, vecIssued_plain hs hc hv, withRoom_runs hroom]

theorem exec_vwrs (hv : VRegs [v] s) : exec (.vwrs h kg v pg) s = .next (
    withLeases s h none (.kg kg) fun ks => [(ks, .vwrs (vVal s v) (pVal s pg))]) := by
  show execVwrs h kg v pg s = _
  rw [execVwrs, vecIssued_plain hs hc hv]

end Track

/-- Every track instruction acts on the tracks that it names. -/
theorem exec_track {i : Instr} {h : Hdr} {k : KK} {l : Option (Fin 16)} {rs : List (Fin 32)} {need : Bool} {s : State}
    (hi : trackForm i = some (h, k, l, rs, need)) (hs : Issues h s) (hc : OnCore s) (hroom : HasRoom s)
    (hv : VRegs rs s) : ∃ eff, exec i s = .next (withTracks s l k eff) := by
  unfold trackForm at hi
  split at hi <;> cases hi
  · exact ⟨_, exec_holdW hs hc⟩
  · exact ⟨_, exec_holdT hs hc hroom⟩
  · exact ⟨_, exec_hrel hs hc⟩
  · exact ⟨_, exec_hpos hs hc⟩
  · exact acts_of_claim (exec_seek hs hc)
  · exact acts_of_claim (exec_rwnd hs hc)
  · exact acts_of_claim (exec_rds hs hc hroom)
  · exact acts_of_claim (exec_wrs hs hc)
  · exact acts_of_claim (exec_vrds hs hc hv hroom)
  · exact acts_of_claim (exec_vwrs hs hc hv)

/-- Those that need leases enter their accesses under them, a seek within the track. -/
theorem exec_track_leased {i : Instr} {h : Hdr} {k : KK} {l : Option (Fin 16)} {rs : List (Fin 32)} {s : State}
    (hi : trackForm i = some (h, k, l, rs, true)) (hs : Issues h s) (hc : OnCore s) (hroom : HasRoom s)
    (hv : VRegs rs s) : ∃ eff, exec i s = .next (withClaim s l k eff) ∧
      ∀ ks, ks ≠ [] → (∀ n ∈ trackOps s ks i, onTrack n.2) →
        eff ks s = underLeases h (fun ks => trackOps s ks i) ks s := by
  unfold trackForm at hi
  split at hi <;> cases hi
  · refine ⟨_, exec_seek hs hc, fun ks hne hon => ?_⟩
    obtain ⟨j, ks', rfl⟩ := List.exists_cons_of_ne_nil hne
    have hT : (seekTarget s _ _).toNat ≤ 16383 := hon _ (List.mem_cons_self ..)
    exact if_neg (Nat.not_lt.mpr hT)
  · exact ⟨underLeases h _, exec_rwnd hs hc, fun _ _ _ => rfl⟩
  · exact ⟨underLeases h _, exec_rds hs hc hroom, fun _ _ _ => rfl⟩
  · exact ⟨underLeases h _, exec_wrs hs hc, fun _ _ _ => rfl⟩
  · exact ⟨underLeases h _, exec_vrds hs hc hv hroom, fun _ _ _ => rfl⟩
  · exact ⟨underLeases h _, exec_vwrs hs hc hv, fun _ _ _ => rfl⟩

/-- Settles O40: the accesses enter under held leases (`withLeases_leased`), else they wait or trap. -/
theorem trackAccess : Obligations.TrackAccess := by
  refine ⟨fun h dir e k a l disp s ks hs hc ht hl => ⟨fun hT => ?_, fun hT => ?_, ?_⟩,
    fun h sx d k x l s ks hs hc ht hl => ⟨fun hroom => ?_, ?_⟩,
    fun h v kg pg l s ks hs hc hv ht hl => ⟨fun hroom => ?_, ?_⟩,
    fun i h k l rs need s hi hs hc hroom hv => ⟨fun ks hneed ht => ⟨fun hno => ?_, fun g hclaim hg hon => ?_⟩,
      ?_, ?_, ?_⟩⟩
  · rw [exec_seek hs hc, withClaim_claimed ht (claimed_of_leased hl)]
    refine congrArg _ ((if_neg (Nat.not_lt.mpr hT)).trans ?_)
    rw [underLeases_runs (owedGang_of_leased hl)]
    cases dir <;> rfl
  · rw [exec_seek hs hc, withClaim_claimed ht (claimed_of_leased hl)]
    exact congrArg _ (if_pos hT)
  · rw [exec_rwnd hs hc, withLeases_leased ht hl]
  · rw [exec_rds hs hc hroom, withLeases_leased ht hl]; rfl
  · rw [exec_wrs hs hc, withLeases_leased ht hl]; rfl
  · rw [exec_vrds hs hc hv hroom, withLeases_leased ht hl]; rfl
  · rintro rfl
    rw [exec_vwrs hs hc hv, withLeases_leased ht hl]; rfl
  · subst hneed
    obtain ⟨eff, he, -⟩ := exec_track_leased hi hs hc hroom hv
    rw [he, withClaim_lacking ht hno]
  · subst hneed
    have hne : ks ≠ [] := by
      rintro rfl
      cases hg
    obtain ⟨eff, he, heff⟩ := exec_track_leased hi hs hc hroom hv
    rw [he, withClaim_claimed ht hclaim, heff ks hne hon]
    simp only [underLeases, hg]
  · rintro rfl hlack
    obtain ⟨eff, he⟩ := exec_track hi hs hc hroom hv
    rw [he, withTracks_lacking hlack]
  · rintro r rfl hn
    obtain ⟨eff, he⟩ := exec_track hi hs hc hroom hv
    rw [he, withTracks_absent hn]
  · rintro r cc rfl hn hne hres
    obtain ⟨eff, he⟩ := exec_track hi hs hc hroom hv
    rw [he, withTracks_departs hn hne hres]

/-! #### Leases -/

section HoldT

variable {a : Acc} {rid : Nat} {c : Fin 32} {s : State}

/-- A HOLD.T that takes nothing answers its thread. -/
theorem performHoldT_answers (hop : a.op = .holdT rid c) (haw : awaits rid (getT s a.tk) = true)
    (hno : ownsAll s a.ctx a.gang = true ∨ (a.gang.any fun k => (trackAt s k).owner.isSome) = true) :
    performHoldT s a rid c = later (modT s a.tk fun t => modRes t rid fun r =>
      { r with vals := [.c c (ownsAll s a.ctx a.gang)] }) 4 (.resultReturn a.tk rid) := by
  have hholder : holderOf s a.tk rid = some a.tk := if_pos haw
  have hawaited : accAwaited s a = true := by
    simp only [accAwaited, accRid, hop, awaited, hholder, Option.isSome_some, Bool.true_or]
  have hfree (ho : ownsAll s a.ctx a.gang = false) :
      (a.gang.all fun k => (trackAt s k).owner.isNone && (trackAt s k).wait.isEmpty && !trackRetiring s k) = false := by
    obtain ⟨j, hj, hown⟩ := List.any_eq_true.mp (hno.resolve_left (by rw [ho]; exact Bool.false_ne_true))
    rw [List.all_eq_false]
    exact ⟨j, hj, by simp [Option.isSome_iff_ne_none.mp hown]⟩
  cases ho : ownsAll s a.ctx a.gang with
  | true => simp only [performHoldT, ho, Bool.not_true, Bool.false_and, Bool.false_eq_true, if_false, hawaited, if_true,
      modHolder, hholder, Bool.true_or]
  | false => simp only [performHoldT, ho, hfree ho, Bool.and_false, Bool.false_eq_true, if_false, hawaited, if_true,
      modHolder, hholder, Bool.or_false]

/-- With nothing queued on its track HPOS gives the head state as it stands. -/
theorem hposWord_idle {k n : Nat} {c : Nat} (hacc : (trackAt s k).acc = []) : hposWord s c k n =
    headState (trackAt s k) n ((if lostAt (trackAt s k) s.clock then 8 else 0) +
        (if (owedOf s c k).isSome then 4 else 0) +
      (if (trackAt s k).owner = some c then 2 else 0) + (if (trackAt s k).move.isSome then 1 else 0))
      ((trackAt s k).owner == some c && (trackAt s k).gang) := by
  have hq : queuedStep 64 s k [] = ((trackAt s k).cursor, (trackAt s k).back, (trackAt s k).move.isSome) := rfl
  simp only [hposWord, hacc, hq, owedAfter, List.any_nil, Bool.not_false, Bool.and_true, beq_iff_eq]
  rfl

end HoldT

/-- Settles O39: HOLD.W, HOLD.T, HREL and HPOS on the tracks they name. -/
theorem leases : Obligations.Leases := by
  refine ⟨fun h c k l s ks hs hc ht => ⟨fun hall hf => ?_, fun hno => ?_, fun hroom => ?_, ?_⟩,
    fun a rid c s hop haw => ⟨fun hown => ?_, fun hown hsome => ?_⟩,
    fun h d k l s ks hs hc ht => ⟨?_, fun hacc => hposWord_idle hacc⟩⟩
  · rw [exec_holdW hs hc, withTracks_named ht]
    exact congrArg _ (if_pos (by rw [hall, hf]; rfl))
  · rw [exec_holdW hs hc, withTracks_named ht]
    refine congrArg _ (if_neg ?_)
    rcases hno with h | h <;> rw [h] <;> simp
  · rw [exec_holdT hs hc hroom, withTracks_named ht]
  · rw [exec_hrel hs hc, withTracks_named ht]
  · rw [performHoldT_answers hop haw (.inl hown), hown]
  · rw [performHoldT_answers hop haw (.inr hsome), hown]
  · rw [exec_hpos hs hc, withTracks_named ht, resultG]

end Sys2Proof.Proofs

/-! ### Chains (R313 to R337) -/

namespace Sys2Proof.Proofs

open Sys2Proof.Machine Sys2Proof.Slice0 Sys2Proof.Laws

/-- With its stores free to drain an instruction that drains them runs. -/
theorem withDrain_runs {s : State} {eff : State → State} (hd : Drains s) : withDrain s eff = eff s := by
  obtain ⟨hheld, hord, hfree⟩ := hd
  simp only [withDrain, hheld, Bool.false_eq_true, if_false, withOrder_runs hord, withTstDone_runs hfree]

/-! #### CHAIN (R332, R317) -/

section Chain

variable {h : Hdr} {d a : Fin 16} {s : State} {locs : List Nat}

/-- The descriptor that CHAIN reads at the locations given, with the view after its reads. -/
def descRead (all : List Nat) (s : State) : List Byte × View :=
  let s1 := countCorrected (closeCur s) all
  readThreadMany s1 0 (curT s1) (sectors all)

/-- The request for a chain, once its descriptor's bytes are read. -/
def chainAsks (h : Hdr) (d : Fin 16) (va : Nat) (all : List Nat) (s : State) : State :=
  let s1 := countCorrected (closeCur s) all
  let s2 := putT s1 { curT s1 with view := (descRead all s).2 }
  let m := memDelay s2
  let w := resultWait [.g d] (.request (.chainId (w64 va) (ofBytesLE (descRead all s).1))) m.2
  retire h (later { w.2 with spawns := mset w.2.spawns w.1 (chainTemplate s2) }
    (m.1 + legTo w.2 (coreOf s.cur) (core0 w.2 (curT s).ctx (coreOf s.cur))) (.remoteRequest s.cur w.1))

/-- What CHAIN does with a descriptor read at the locations given. -/
def descChecked (h : Hdr) (d : Fin 16) (va : Nat) (all : List Nat) (s : State) : State :=
  match parseDesc (w64 va) (descRead all s).1 with
  | none => chainErr s 7 0
  | some ds => if !areaFits s (curT s).ctx ds then trapHere s cPROT (w64 ds.qoff) else chainAsks h d va all s

section Desc

variable {va : Nat} {all : List Nat} {ds : ChainDesc}

theorem descChecked_refused (hp : parseDesc (w64 va) (descRead all s).1 = none) :
    descChecked h d va all s = chainErr s 7 0 := by
  rw [descChecked, hp]

theorem descChecked_unfit (hp : parseDesc (w64 va) (descRead all s).1 = some ds)
    (hfit : areaFits s (curT s).ctx ds = false) : descChecked h d va all s = trapHere s cPROT (w64 ds.qoff) := by
  simp only [descChecked, hp, hfit, Bool.not_false, if_true]

theorem descChecked_asks (hp : parseDesc (w64 va) (descRead all s).1 = some ds)
    (hfit : areaFits s (curT s).ctx ds = true) : descChecked h d va all s = chainAsks h d va all s := by
  simp only [descChecked, hp, hfit, Bool.not_true, Bool.false_eq_true, if_false]

end Desc

/-- What CHAIN does with the descriptor's locations, once its reads are in order. -/
def chainReads (h : Hdr) (d : Fin 16) (va : Nat) (all : List Nat) (s : State) : State :=
  if all.any (portHeld s) then retry s
  else if readsPoison s (curT s) all then
    later (putT s { curT s with block := .device }) 0 (.uncorrectableConsumed s.cur va 0)
  else descChecked h d va all s

theorem chainReads_clean {va : Nat} {all : List Nat} (hfree : all.any (portHeld s) = false)
    (hclean : readsPoison s (curT s) all = false) : chainReads h d va all s = descChecked h d va all s := by
  rw [chainReads, hfree, hclean] <;> rfl

variable (hs : Issues h s) (hc : OnCore s) (hroom : HasRoom s)
include hs hc hroom

theorem exec_chain_misaligned (ha : (gVal s a).toNat % 64 ≠ 0) (hw : windowOf (gVal s a).toNat ≠ .reserved) :
    exec (.chain h d a) s = .next (trapHere s cALIGN (w64 (gVal s a).toNat)) := by
  show execChain h d a s = _
  rw [execChain, issueC_runs hc, issued hs, withRoom_runs hroom]
  exact congrArg _ (if_pos ⟨ha, hw⟩)

theorem exec_chain (ha : (gVal s a).toNat % 64 = 0) (hheld : locs.any (heldShare s) = false) (hord : InOrder s true)
    (hacc : lanesAccess s 8 false ((List.range 8).map fun k => (gVal s a).toNat + 8 * k) = .ok locs) :
    exec (.chain h d a) s = .next (chainReads h d (gVal s a).toNat (locs.flatMap fun x => locsFrom x 8) s) := by
  show execChain h d a s = _
  rw [execChain, issueC_runs hc, issued hs, withRoom_runs hroom]
  refine congrArg _ ((if_neg fun hn => hn.1 ha).trans ?_)
  rw [withLanes_runs hacc hheld hord] <;> rfl

end Chain

/-! #### GET and PUT (R333, R334) -/

section GetPut

variable {h : Hdr} {gd : GV} {c : Fin 32} {pa : GIV} {s : State} {ch : Chain} {r : Replica}
  {kind : Chain → Bool} {eff : Chain → Replica → State → State}

theorem withPut_outside (hr : curReplica s = none) : withPut s kind eff = chainErr s 3 0 := by
  rw [withPut, hr]

theorem withPut_last (hr : curReplica s = some (ch, r)) (hlast : r.stage + 1 = chStages ch) :
    withPut s kind eff = chainErr s 2 r.stage := by
  rw [withPut, hr]
  exact if_pos hlast

theorem withPut_ended (hr : curReplica s = some (ch, r)) (hlast : r.stage + 1 ≠ chStages ch) (hdone : r.done = true) :
    withPut s kind eff = chainErr s 4 r.stage := by
  rw [withPut, hr]
  exact (if_neg hlast).trans (if_pos hdone)

theorem withPut_kind (hr : curReplica s = some (ch, r)) (hp : Passes ch r) (hk : kind ch = false) :
    withPut s kind eff = chainErr s 6 r.stage := by
  obtain ⟨hlast, hdone⟩ := hp
  simp only [withPut, hr, hlast, hdone, hk, if_false, Bool.false_eq_true, Bool.not_false, if_true]

theorem withPut_runs (hst : AtStage s ch r) (hp : Passes ch r) (hk : kind ch = true) :
    withPut s kind eff = eff ch r s := by
  obtain ⟨hr, hroom, hd⟩ := hst
  obtain ⟨hlast, hdone⟩ := hp
  simp only [withPut, hr, hlast, hdone, hk, if_false, Bool.false_eq_true, Bool.not_true, withRoom_runs hroom,
    withDrain_runs hd]

/-- What a GET does in its chain, past its checks. -/
def getIn (h : Hdr) (gd : GV) (c : Fin 32) (ch : Chain) (r : Replica) (s : State) : State :=
  let ready := getReady s (curT s).ctx ch r.stage r.rep
  if ch.folded && !ready && (curT s).inh then chainErr s 5 r.stage
  else if ch.folded && !ready && (curT s).res != [] then retry s
  else
    let s1 := closeCur s
    if ready && ch.folded && r.at_ == .atGet then finishGet h gd c s1 ch r
    else if ch.folded && !ready then switchFrame s1 s1.cur .atGet
    else waitGet s1 h gd c ch r ready

/-- What a PUT does in its chain, past its checks. -/
def putIn (h : Hdr) (pa : GIV) (ch : Chain) (r : Replica) (s : State) : State :=
  let x := putVal s pa
  if ch.folded then putFolded h s ch r x
  else if canAccept ch r.stage r.rep then
    let s1 := chainDone (acceptPut (closeCur s) ch r x)
    checkFold (resultIn h (acceptLat s ch r) [] (wakePut s1 (curT s1).ctx ch.id r.stage)) (curT s1).ctx ch.id
  else parkAt (closeCur s) ch r .atPut true (s.clock + 1)

/-- What a PUT.E does in its chain, past its checks. -/
def putEIn (h : Hdr) (ch : Chain) (r : Replica) (s : State) : State :=
  if (chQueue ch r.stage).p = r.rep then
    let s2 := chainDone (endStream (drainAll (closeCur s) s.cur) (curT s).ctx
      (modRep ch r.stage r.rep fun r => { r with at_ := .run }) r.stage r.rep (coreOf s.cur) false)
    if ch.folded then retire h s2 else checkFold (resultIn h (acceptLat s ch r) [] s2) (curT s).ctx ch.id
  else if ch.folded then
    (if (curT s).inh then chainErr s 5 r.stage
     else if (curT s).res ≠ [] then retry s
     else switchFrame (closeCur s) s.cur .atPut)
  else parkAt (closeCur s) ch r .atPut true (s.clock + 1)

variable (hs : Issues h s) (hc : OnCore s)

section Get

variable (hv : VRegs (gvRegs gd) s)
include hs hc hv

theorem exec_get_outside (hr : curReplica s = none) : exec (.get h gd c) s = .next (chainErr s 3 0) := by
  show execGet h gd c s = _
  rw [execGet, issueC_runs hc, issued hs, withVRegs_runs hv, hr]

theorem exec_get_first (hr : curReplica s = some (ch, r)) (h0 : r.stage = 0) :
    exec (.get h gd c) s = .next (chainErr s 1 0) := by
  show execGet h gd c s = _
  rw [execGet, issueC_runs hc, issued hs, withVRegs_runs hv, hr]
  exact congrArg _ (if_pos h0)

theorem exec_get_kind (hr : curReplica s = some (ch, r)) (h0 : r.stage ≠ 0) (hk : kindOk ch gd = false) :
    exec (.get h gd c) s = .next (chainErr s 6 r.stage) := by
  show execGet h gd c s = _
  rw [execGet, issueC_runs hc, issued hs, withVRegs_runs hv, hr]
  exact congrArg _ ((if_neg h0).trans (if_pos (by rw [hk]; rfl)))

theorem exec_get (hst : AtStage s ch r) (h0 : r.stage ≠ 0) (hk : kindOk ch gd = true) :
    exec (.get h gd c) s = .next (getIn h gd c ch r s) := by
  obtain ⟨hr, hroom, hd⟩ := hst
  have hgo (eff : State → State) : (if ch.folded then withDrain s else withOrder s false) eff = eff s := by
    split
    · exact withDrain_runs hd
    · exact withOrder_runs hd.2.1
  show execGet h gd c s = _
  rw [execGet, issueC_runs hc, issued hs, withVRegs_runs hv, hr]
  refine congrArg _ ((if_neg h0).trans ((if_neg (by rw [hk]; exact Bool.false_ne_true)).trans ?_))
  rw [withRoom_runs hroom, hgo] <;> rfl

end Get

include hs hc

theorem exec_put (hv : VRegs (givRegs pa) s) :
    exec (.put h pa) s = .next (withPut s (fun ch => putKindOk ch pa) (putIn h pa)) := by
  show execPut h pa s = _
  rw [execPut, issueC_runs hc, issued hs, withVRegs_runs hv] <;> rfl

theorem exec_putE : exec (.putE h) s = .next (withPut s (fun _ => true) (putEIn h)) := by
  show execPutE h s = _
  rw [execPutE, issueC_runs hc, issued hs] <;> rfl

end GetPut

section Folded

variable {h : Hdr} {gd : GV} {c : Fin 32} {x : Vec} {pa : GIV} {s : State} {ch : Chain} {r : Replica}

theorem getIn_spread (hf : ch.folded = false) :
    getIn h gd c ch r s = waitGet (closeCur s) h gd c ch r (getReady s (curT s).ctx ch r.stage r.rep) := by
  simp only [getIn, hf, Bool.false_and, Bool.and_false, Bool.false_eq_true, if_false]

theorem getIn_ready (hf : ch.folded = true) (hr : getReady s (curT s).ctx ch r.stage r.rep = true) :
    getIn h gd c ch r s = if r.at_ == .atGet then finishGet h gd c (closeCur s) ch r
      else waitGet (closeCur s) h gd c ch r true := by
  simp only [getIn, hf, hr, Bool.not_true, Bool.and_false, Bool.false_and, Bool.false_eq_true, if_false, Bool.true_and]

theorem getIn_handler (hf : ch.folded = true) (hr : getReady s (curT s).ctx ch r.stage r.rep = false)
    (hin : (curT s).inh = true) : getIn h gd c ch r s = chainErr s 5 r.stage := by
  simp only [getIn, hf, hr, hin, Bool.not_false, Bool.and_true, if_true]

theorem getIn_switch (hf : ch.folded = true) (hr : getReady s (curT s).ctx ch r.stage r.rep = false)
    (hsw : CanSwitch s) : getIn h gd c ch r s = switchFrame (closeCur s) (closeCur s).cur .atGet := by
  obtain ⟨hin, hres⟩ := hsw
  have hno : ((curT s).res != []) = false := by rw [hres]; rfl
  simp only [getIn, hf, hr, hin, hno, Bool.not_false, Bool.and_true, Bool.and_false, Bool.false_and, Bool.false_eq_true,
    if_true, if_false]

theorem putIn_folded (hf : ch.folded = true) : putIn h pa ch r s = putFolded h s ch r (putVal s pa) := if_pos hf

theorem putIn_spread (hf : ch.folded = false) : putIn h pa ch r s =
    if canAccept ch r.stage r.rep then
      checkFold (resultIn h (acceptLat s ch r) [] (wakePut (chainDone (acceptPut (closeCur s) ch r (putVal s pa)))
        (curT (chainDone (acceptPut (closeCur s) ch r (putVal s pa)))).ctx ch.id r.stage))
        (curT (chainDone (acceptPut (closeCur s) ch r (putVal s pa)))).ctx ch.id
    else parkAt (closeCur s) ch r .atPut true (s.clock + 1) :=
  if_neg (by rw [hf]; exact Bool.false_ne_true)

theorem putFolded_discards (hgone : ((chQueue ch r.stage).p == r.rep && consumersQuit ch r.stage) = true) :
    putFolded h s ch r x = retire h (chainDone (acceptPut (closeCur s) ch r x)) := if_pos hgone

theorem putFolded_handler (hgone : ((chQueue ch r.stage).p == r.rep && consumersQuit ch r.stage) = false)
    (hin : (curT s).inh = true) : putFolded h s ch r x = chainErr s 5 r.stage := by
  simp only [putFolded, hgone, hin, Bool.false_eq_true, if_false, if_true]

theorem putFolded_switch (hgone : ((chQueue ch r.stage).p == r.rep && consumersQuit ch r.stage) = false)
    (hsw : CanSwitch s) : putFolded h s ch r x = if canAccept ch r.stage r.rep then
      switchFrame (leaveRun h (chainDone (acceptPut (closeCur s) ch r x)))
        (leaveRun h (chainDone (acceptPut (closeCur s) ch r x))).cur .ready
      else switchFrame (closeCur s) (closeCur s).cur .atPut := by
  obtain ⟨hin, hres⟩ := hsw
  simp only [putFolded, hgone, hin, hres, Bool.false_eq_true, if_false, ne_eq, not_true]

theorem putEIn_turn (hp : (chQueue ch r.stage).p = r.rep) : putEIn h ch r s =
    (let s2 := chainDone (endStream (drainAll (closeCur s) s.cur) (curT s).ctx
      (modRep ch r.stage r.rep fun r => { r with at_ := .run }) r.stage r.rep (coreOf s.cur) false)
     if ch.folded then retire h s2 else checkFold (resultIn h (acceptLat s ch r) [] s2) (curT s).ctx ch.id) := if_pos hp

theorem putEIn_parks (hp : (chQueue ch r.stage).p ≠ r.rep) (hf : ch.folded = false) :
    putEIn h ch r s = parkAt (closeCur s) ch r .atPut true (s.clock + 1) :=
  (if_neg hp).trans (if_neg (by rw [hf]; exact Bool.false_ne_true))

theorem putEIn_handler (hp : (chQueue ch r.stage).p ≠ r.rep) (hf : ch.folded = true) (hin : (curT s).inh = true) :
    putEIn h ch r s = chainErr s 5 r.stage :=
  (if_neg hp).trans ((if_pos hf).trans (if_pos hin))

theorem putEIn_switch (hp : (chQueue ch r.stage).p ≠ r.rep) (hf : ch.folded = true) (hsw : CanSwitch s) :
    putEIn h ch r s = switchFrame (closeCur s) s.cur .atPut :=
  (if_neg hp).trans ((if_pos hf).trans ((if_neg (by rw [hsw.1]; exact Bool.false_ne_true)).trans
    (if_neg fun hres => hres hsw.2)))

end Folded

/-! #### CHMODE and FTILE (R335, R337) -/

section Chmode

variable {s : State} {id : Option (Fin 16)} {n : Nat} {eff : Nat → State → State}

theorem withChainId_named (hn : chainNamed s id = some n) : withChainId s id eff = eff n (closeCur s) := by
  cases id with
  | some r => rw [← Option.some.inj hn]; rfl
  | none =>
    obtain ⟨p, hp, rfl⟩ := Option.map_eq_some_iff.mp hn
    simp only [withChainId, hp]

theorem withChainId_outside (hn : chainNamed s id = none) : withChainId s id eff = chainErr s 3 0 := by
  cases id with
  | some r => cases hn
  | none => simp only [withChainId, Option.map_eq_none_iff.mp hn]

variable {h : Hdr} {d : Fin 16} {q : GI} {c : Fin 32} (hs : Issues h s) (hc : OnCore s)
include hs hc

theorem exec_chmodeQ : exec (.chmodeQ h d id) s = .next (withChainId s id fun n s =>
    startRequest h [.g d] (.chmodeQ n (ownPlace s n).1 (ownPlace s n).2) (chainHolder s) s) := by
  show execChmodeQ h d id s = _
  rw [execChmodeQ, issueC_runs hc, issued hs]

theorem exec_chmodeOcc : exec (.chmodeOcc h d q id) s = .next (withChainId s id fun n s =>
    startRequest h [.g d] (.chmodeOcc n (giVal s q).toNat) (chainHolder s) s) := by
  show execChmodeOcc h d q id s = _
  rw [execChmodeOcc, issueC_runs hc, issued hs]

theorem exec_chmodeFold : exec (.chmodeFold h id) s = .next (
    chmodeReq h id s fun s c ch => requestFold s c { ch with auto := false } false) := by
  show execChmodeFold h id s = _
  rw [execChmodeFold, issueC_runs hc, issued hs]

theorem exec_chmodeSpread : exec (.chmodeSpread h id) s = .next (chmodeReq h id s fun s c ch =>
    let folding := ch.foldP && ch.foldR
    let s1 := setChain s c { ch with
        auto := false, foldP := folding, foldR := folding, spreadP := ch.folded || folding }
    let s2 := if ch.foldP && !folding then
        (List.range ch.queues.length).foldl (fun s q => wakePut s c ch.id q) s1
      else s1
    later s2 0 (.chainSpread c ch.id)) := by
  show execChmodeSpread h id s = _
  rw [execChmodeSpread, issueC_runs hc, issued hs]

theorem exec_chmodeAuto : exec (.chmodeAuto h id) s = .next (chmodeReq h id s fun s c ch =>
    later (setChain s c { ch with auto := true, foldR := ch.foldP && ch.foldR }) 1 (.autoSpreadRequest c ch.id)) := by
  show execChmodeAuto h id s = _
  rw [execChmodeAuto, issueC_runs hc, issued hs]

theorem exec_ftile (hroom : HasRoom s) : exec (.ftile h d c) s = .next (
    let s1 := closeCur s
    let x := ctxD s1 (curT s1).ctx
    let k := ((getCC s1 (curT s1).ctx (curT s1).lcore).map (·.cluster)).getD 0
    let i := k + x.nclus * mgetD x.ftile k 0
    if i < subTiles x.pkt.grid then resultIn h 8 [.g d (subTile x.pkt.grid i), .c c true]
      (setCtx s1 (curT s1).ctx { x with ftile := mset x.ftile k (mgetD x.ftile k 0 + 1) })
    else resultIn h 8 [.c c false] s1) := by
  show execFtile h d c s = _
  rw [execFtile, issueC_runs hc, issued hs, withRoom_runs hroom]

end Chmode

section ChmodeReq

variable {h : Hdr} {s : State} {id : Option (Fin 16)} {n : Nat} {f : State → Nat → Chain → State}

theorem chmodeReq_of {ch : Chain} (hn : chainNamed s id = some n)
    (hch : chainOf (closeCur s) (curT (closeCur s)).ctx n = some ch) :
    chmodeReq h id s f = retire h (f (closeCur s) (curT (closeCur s)).ctx ch) := by
  simp only [chmodeReq, withChainId_named hn, hch]

/-- A request on no chain has no effect. -/
theorem chmodeReq_none (hn : chainNamed s id = some n) (hch : chainOf (closeCur s) (curT (closeCur s)).ctx n = none) :
    chmodeReq h id s f = retire h (closeCur s) := by
  simp only [chmodeReq, withChainId_named hn, hch]

theorem chmodeReq_outside (hn : chainNamed s id = none) : chmodeReq h id s f = chainErr s 3 0 :=
  withChainId_outside hn

theorem startRequest_asked {dst : List RegId} {rq : Req} {k : Nat} (hroom : HasRoom s) :
    startRequest h dst rq k s = asked h dst rq k s := by
  rw [startRequest, withRoom_runs hroom]

end ChmodeReq

/-- Settles O41: each chain instruction by its equation above. -/
theorem chains : Obligations.Chains := by
  refine ⟨fun h d a s hs hc hroom => ⟨fun ha hw => exec_chain_misaligned hs hc hroom ha hw,
      fun locs ha hheld hord hacc => ?_⟩,
    fun h gd c s hs hc hv => ⟨fun hr => exec_get_outside hs hc hv hr,
      fun ch r hr => ⟨fun h0 => exec_get_first hs hc hv hr h0, fun h0 hk => exec_get_kind hs hc hv hr h0 hk⟩,
      fun ch r hst h0 hk => ⟨fun hf => ?_, fun hf hready => ⟨fun hat => ?_, fun hat => ?_⟩,
        fun hf hready => ⟨fun hin => ?_, fun hsw => ?_⟩⟩⟩,
    fun h pa s hs hc => ⟨fun hr => ⟨fun hv => ?_, ?_⟩,
      fun ch r hr => ⟨fun hlast => ⟨fun hv => ?_, ?_⟩, fun hlast hdone => ⟨fun hv => ?_, ?_⟩, fun hp hv hk => ?_⟩,
      fun ch r hst hp hv hk => ⟨fun hf => ⟨fun hacc => ?_, fun hacc => ?_⟩,
        fun hf => ⟨fun hgone => ?_, fun hgone hin => ?_, fun hgone hsw => ⟨fun hacc => ?_, fun hacc => ?_⟩⟩⟩,
      fun ch r hst hp => ⟨fun hturn => ⟨fun hf => ?_, fun hf => ?_⟩,
        fun hturn => ⟨fun hf => ?_, fun hf hin => ?_, fun hf hsw => ?_⟩⟩⟩,
    fun h d c s hs hc hroom => ⟨fun hi => ?_, fun hi => ?_⟩,
    fun h d q id s hs hc => ⟨fun n hn => ⟨fun hroom => ⟨?_, ?_⟩, fun hch => ⟨?_, ?_, ?_⟩, fun ch hch => ⟨?_, ?_, ?_⟩⟩,
      fun hn => ⟨?_, ?_, ?_, ?_, ?_⟩⟩⟩
  · rw [exec_chain hs hc hroom ha hheld hord hacc]
    refine ⟨fun hp => congrArg _ (if_pos hp), fun hp hpois => congrArg _ ((if_neg (by simp [hp])).trans (if_pos hpois)),
      fun hp hpois => ?_⟩
    rw [chainReads_clean hp hpois]
    exact ⟨fun hno => congrArg _ (descChecked_refused hno),
        fun ds hds => ⟨fun hfit => congrArg _ (descChecked_unfit hds hfit),
      fun hfit => congrArg _ (descChecked_asks hds hfit)⟩⟩
  · rw [exec_get hs hc hv hst h0 hk, getIn_spread hf]
  · rw [exec_get hs hc hv hst h0 hk, getIn_ready hf hready, hat]; rfl
  · rw [exec_get hs hc hv hst h0 hk, getIn_ready hf hready, if_neg (by simpa using hat)]
  · rw [exec_get hs hc hv hst h0 hk, getIn_handler hf hready hin]
  · rw [exec_get hs hc hv hst h0 hk, getIn_switch hf hready hsw]
  · rw [exec_put hs hc hv, withPut_outside hr]
  · rw [exec_putE hs hc, withPut_outside hr]
  · rw [exec_put hs hc hv, withPut_last hr hlast]
  · rw [exec_putE hs hc, withPut_last hr hlast]
  · rw [exec_put hs hc hv, withPut_ended hr hlast hdone]
  · rw [exec_putE hs hc, withPut_ended hr hlast hdone]
  · rw [exec_put hs hc hv, withPut_kind hr hp hk]
  · rw [exec_put hs hc hv, withPut_runs hst hp hk, putIn_spread hf, if_pos hacc]
  · rw [exec_put hs hc hv, withPut_runs hst hp hk, putIn_spread hf, hacc]; rfl
  · rw [exec_put hs hc hv, withPut_runs hst hp hk, putIn_folded hf, putFolded_discards hgone]
  · rw [exec_put hs hc hv, withPut_runs hst hp hk, putIn_folded hf, putFolded_handler hgone hin]
  · rw [exec_put hs hc hv, withPut_runs hst hp hk, putIn_folded hf, putFolded_switch hgone hsw, if_pos hacc]
  · rw [exec_put hs hc hv, withPut_runs hst hp hk, putIn_folded hf, putFolded_switch hgone hsw, hacc]; rfl
  · rw [exec_putE hs hc, withPut_runs hst hp rfl, putEIn_turn hturn]
    exact congrArg _ (if_pos hf)
  · rw [exec_putE hs hc, withPut_runs hst hp rfl, putEIn_turn hturn]
    exact congrArg _ (if_neg (by rw [hf]; exact Bool.false_ne_true))
  · rw [exec_putE hs hc, withPut_runs hst hp rfl, putEIn_parks hturn hf]
  · rw [exec_putE hs hc, withPut_runs hst hp rfl, putEIn_handler hturn hf hin]
  · rw [exec_putE hs hc, withPut_runs hst hp rfl, putEIn_switch hturn hf hsw]
  · rw [exec_ftile hs hc hroom]
    exact congrArg _ (if_pos hi)
  · rw [exec_ftile hs hc hroom]
    exact congrArg _ (if_neg (Nat.not_lt.mpr hi))
  · rw [exec_chmodeQ hs hc, withChainId_named hn, startRequest_asked (by rwa [HasRoom, closeCur_res])]
  · rw [exec_chmodeOcc hs hc, withChainId_named hn, startRequest_asked (by rwa [HasRoom, closeCur_res])]
  · rw [exec_chmodeFold hs hc, chmodeReq_none hn hch]
  · rw [exec_chmodeSpread hs hc, chmodeReq_none hn hch]
  · rw [exec_chmodeAuto hs hc, chmodeReq_none hn hch]
  · rw [exec_chmodeFold hs hc, chmodeReq_of hn hch]
  · rw [exec_chmodeSpread hs hc, chmodeReq_of hn hch]
  · rw [exec_chmodeAuto hs hc, chmodeReq_of hn hch]
  · rw [exec_chmodeQ hs hc, withChainId_outside hn]
  · rw [exec_chmodeOcc hs hc, withChainId_outside hn]
  · rw [exec_chmodeFold hs hc, chmodeReq_outside hn]
  · rw [exec_chmodeSpread hs hc, chmodeReq_outside hn]
  · rw [exec_chmodeAuto hs hc, chmodeReq_outside hn]

end Sys2Proof.Proofs

/-! ### Deques and streams (R338 to R344) -/

namespace Sys2Proof.Proofs

open Sys2Proof.Machine Sys2Proof.Slice0 Sys2Proof.Laws

/-! #### The work deque (R339, R340) -/

section DequeOps

variable {h : Hdr} {a b l : Fin 16} {c : Fin 32} {x y : GI} {s : State} {loc cap : Nat}
  {eff : Nat → Nat → State → State}

/-- Why the issuer has no deque (R340). -/
def noDeque (s : State) : Option Nat :=
  match getCC s (curT s).ctx (curT s).lcore with
  | none => some 1
  | some cc => if !cc.dqEn then some 1 else match dequeOf s (ccKey (curT s).ctx (curT s).lcore) cc with
    | .error n => some n
    | .ok _ => none

theorem withDeque_runs (hd : Deque s loc cap) (hroom : HasRoom s) : withDeque s eff = eff loc cap s := by
  obtain ⟨cc, hcc, hen, hdq⟩ := hd
  simp only [withDeque, hcc, hen, hdq, Bool.not_true, Bool.false_eq_true, if_false, withRoom_runs hroom]

theorem withDeque_traps {n : Nat} (hn : noDeque s = some n) : withDeque s eff = dequeErr s n := by
  unfold noDeque at hn
  unfold withDeque
  cases hcc : getCC s (curT s).ctx (curT s).lcore with
  | none =>
    rw [hcc] at hn
    rw [← Option.some.inj hn]
  | some cc =>
    rw [hcc] at hn
    simp only at hn ⊢
    by_cases hen : (!cc.dqEn) = true
    · rw [if_pos hen] at hn ⊢
      rw [← Option.some.inj hn]
    · rw [if_neg hen] at hn ⊢
      cases hdq : dequeOf s (ccKey (curT s).ctx (curT s).lcore) cc with
      | error r =>
        rw [hdq] at hn
        rw [← Option.some.inj hn]
      | ok r =>
        rw [hdq] at hn
        cases hn

theorem dpushStep_full {u v : Word}
    (hn : (dequeBot (drainAll s s.cur) loc + 2 ^ 32 - dequeTop (drainAll s s.cur) loc) % 2 ^ 32 = cap) :
    dpushStep s loc cap u v = (drainAll s s.cur, false) := if_pos hn

theorem dpushStep_room {u v : Word}
    (hn : (dequeBot (drainAll s s.cur) loc + 2 ^ 32 - dequeTop (drainAll s s.cur) loc) % 2 ^ 32 ≠ cap) :
    dpushStep s loc cap u v =
      (let s2 := drainAll s s.cur
       let e := dequeEntry loc cap (dequeBot s2 loc)
       let s3 := storeWord s2 s2.cur e u.toNat
       let s4 := storeWord s3 s2.cur (e + 8) v.toNat
       let s5 := storeWord s4 s4.cur (loc + 8) ((dequeBot s2 loc + 1) % 2 ^ 32)
       ({ s5 with
          rels := mset s5.rels loc ((mgetD s5.rels loc {}).join (curT s5).view)
          vers := mset s5.vers loc (mgetD s5.vers loc 0 + 1) }, true)) := if_neg hn

variable (hs : Issues h s) (hc : OnCore s)
include hs hc

theorem exec_dpush : exec (.dpush h c x y) s = .next (withDeque s fun loc cap s => withDrain s fun s =>
    let (s1, ok) := dpushStep (closeCur s) loc cap (giVal s x) (giVal s y)
    resultIn h 4 [.c c ok] s1) := by
  show execDpush h c x y s = _
  rw [execDpush, issueC_runs hc, issued hs]

theorem exec_dpop : exec (.dpop h a b c) s = .next (withDeque s fun loc cap s => withOrder s true fun s =>
    let s1 := closeCur s
    let bot := dequeBot s1 loc
    if bot = dequeTop s1 loc then resultIn h 4 [.c c false] s1
    else
      let k := (bot + 2 ^ 32 - 1) % 2 ^ 32
      let s2 := storeWord s1 s1.cur (loc + 8) k
      let e := dequeEntry loc cap k
      resultJoin h 4 [.g a (w64 (memN s2 e 8)), .g b (w64 (memN s2 (e + 8) 8)), .c c true] (acquired s2 loc) s2) := by
  show execDpop h a b c s = _
  rw [execDpop, issueC_runs hc, issued hs]

section Own

variable (hd : Deque s loc cap) (hroom : HasRoom s)
include hd hroom

theorem exec_dpush_full (hdr : Drains s)
    (hn : (dequeBot (drainAll (closeCur s) (closeCur s).cur) loc + 2 ^ 32 -
      dequeTop (drainAll (closeCur s) (closeCur s).cur) loc) % 2 ^ 32 = cap) :
    exec (.dpush h c x y) s = .next (resultIn h 4 [.c c false] (drainAll (closeCur s) (closeCur s).cur)) := by
  rw [exec_dpush hs hc, withDeque_runs hd hroom, withDrain_runs hdr, dpushStep_full hn]

theorem exec_dpush_room (hdr : Drains s)
    (hn : (dequeBot (drainAll (closeCur s) (closeCur s).cur) loc + 2 ^ 32 -
      dequeTop (drainAll (closeCur s) (closeCur s).cur) loc) % 2 ^ 32 ≠ cap) :
    exec (.dpush h c x y) s = .next (
      let s2 := drainAll (closeCur s) (closeCur s).cur
      let e := dequeEntry loc cap (dequeBot s2 loc)
      let s3 := storeWord s2 s2.cur e (giVal s x).toNat
      let s4 := storeWord s3 s2.cur (e + 8) (giVal s y).toNat
      let s5 := storeWord s4 s4.cur (loc + 8) ((dequeBot s2 loc + 1) % 2 ^ 32)
      resultIn h 4 [.c c true] { s5 with
        rels := mset s5.rels loc ((mgetD s5.rels loc {}).join (curT s5).view)
        vers := mset s5.vers loc (mgetD s5.vers loc 0 + 1) }) := by
  rw [exec_dpush hs hc, withDeque_runs hd hroom, withDrain_runs hdr, dpushStep_room hn]

theorem exec_dpop_empty (hord : InOrder s true) (he : dequeBot (closeCur s) loc = dequeTop (closeCur s) loc) :
    exec (.dpop h a b c) s = .next (resultIn h 4 [.c c false] (closeCur s)) := by
  rw [exec_dpop hs hc, withDeque_runs hd hroom, withOrder_runs hord]
  exact congrArg _ (if_pos he)

theorem exec_dpop_takes (hord : InOrder s true) (he : dequeBot (closeCur s) loc ≠ dequeTop (closeCur s) loc) :
    exec (.dpop h a b c) s = .next (
      let s1 := closeCur s
      let k := (dequeBot s1 loc + 2 ^ 32 - 1) % 2 ^ 32
      let s2 := storeWord s1 s1.cur (loc + 8) k
      let e := dequeEntry loc cap k
      resultJoin h 4 [.g a (w64 (memN s2 e 8)), .g b (w64 (memN s2 (e + 8) 8)), .c c true] (acquired s2 loc) s2) := by
  rw [exec_dpop hs hc, withDeque_runs hd hroom, withOrder_runs hord]
  exact congrArg _ (if_neg he)

end Own

theorem exec_dsteal {cc : CoreCtx} (hn : namedCore s (gVal s l) = some cc) (hroom : HasRoom s) (hord : InOrder s true) :
    exec (.dsteal h a b c l) s = .next (
      let r := resultWait [.c c] (.request (.dsteal (gVal s l).toNat a b c false)) (markCloser s)
      let s2 := putT r.2 (modRes (curT r.2) r.1 fun x => { x with dst := [.g a, .g b, .c c], sentTo := some cc.phys })
      retire h (later s2 (if (gVal s l).toNat = (curT s).lcore then 0 else coreLat s (coreOf s.cur) cc.phys)
        (.remoteRequest s.cur r.1))) := by
  show execDsteal h a b c l s = _
  rw [execDsteal, issueC_runs hc, issued hs]
  simp only [hn, withRoom_runs hroom, withOrder_runs hord]

theorem exec_dsteal_absent (hn : namedCore s (gVal s l) = none) :
    exec (.dsteal h a b c l) s = .next (trapHere s cPROT (gVal s l)) := by
  show execDsteal h a b c l s = _
  rw [execDsteal, issueC_runs hc, issued hs]
  simp only [hn]

end DequeOps

/-! #### Stream routes (R341 to R344) -/

section Ssend

variable {h : Hdr} {cl : Bool} {l : Fin 16} {p : Fin 4} {a : GIV} {s : State} {cc : CoreCtx}

/-- What SSEND does at the core of its target. -/
def sendAt (h : Hdr) (cl : Bool) (p : Fin 4) (a : GIV) (cc : CoreCtx) (s : State) : State :=
  if cc.cst = .saving ∨ cc.cst = .saved then retry s
  else if unitState s.cmap clsCore cc.phys = 3 then
    trapHere s (lostTrap (ctxD s (curT s).ctx).ackv (sinceOf s.cmap clsCore cc.phys)).1
      (lostTrap (ctxD s (curT s).ctx).ackv (sinceOf s.cmap clsCore cc.phys)).2
  else if (portAt s cc.phys p).chain then strmErr s 2 p.val
  else
    match routeTo? s cc p with
    | some r =>
      if r.vec ≠ GIV.isVec a then strmErr s 3 p.val
      else if 512 < (r.words.length + r.flying.length + 1) * Machine.wordBytes (GIV.isVec a) then
        putT s { curT s with block := .port }
      else
        retire h (later (modPort (closeCur s) cc.phys p.val fun q => mapRoute q r.id fun r =>
          { r with flying := r.flying ++ [(putVal s a, cl)], closed := cl })
          (coreLat s (coreOf s.cur) cc.phys) (.streamWordArrive cc.phys p.val r.id))
    | none =>
      let n := newId (closeCur s)
      let r : Route := { id := n.1, ctx := (curT s).ctx, lcore := (curT s).lcore, vec := GIV.isVec a, closed := cl,
                         flying := [(putVal s a, cl)] }
      retire h (later (modPort n.2 cc.phys p.val fun q => { q with coming := q.coming ++ [r] })
        (coreLat s (coreOf s.cur) cc.phys) (.streamWordArrive cc.phys p.val n.1))

variable (hs : Issues h s) (hc : OnCore s) (hv : VRegs (givRegs a) s)

section Exec
include hs hc hv

theorem exec_ssend (hn : namedCore s (gVal s l) = some cc) :
    exec (.ssend h cl l p a) s = .next (sendAt h cl p a cc s) := by
  show execSsend h cl l p a s = _
  rw [execSsend, issueC_runs hc, issued hs, withVRegs_runs hv]
  simp only [hn]
  rfl

theorem exec_ssend_absent (hn : namedCore s (gVal s l) = none) :
    exec (.ssend h cl l p a) s = .next (trapHere s cPROT (gVal s l)) := by
  show execSsend h cl l p a s = _
  rw [execSsend, issueC_runs hc, issued hs, withVRegs_runs hv]
  simp only [hn]

end Exec

theorem sendAt_lost (h1 : cc.cst ≠ .saving) (h2 : cc.cst ≠ .saved) (h3 : unitState s.cmap clsCore cc.phys = 3) :
    sendAt h cl p a cc s = trapHere s (lostTrap (ctxD s (curT s).ctx).ackv (sinceOf s.cmap clsCore cc.phys)).1
      (lostTrap (ctxD s (curT s).ctx).ackv (sinceOf s.cmap clsCore cc.phys)).2 :=
  (if_neg (not_or.mpr ⟨h1, h2⟩)).trans (if_pos h3)

theorem sendAt_chain (h1 : cc.cst ≠ .saving) (h2 : cc.cst ≠ .saved) (h3 : unitState s.cmap clsCore cc.phys ≠ 3)
    (h4 : (portAt s cc.phys p).chain = true) : sendAt h cl p a cc s = strmErr s 2 p.val :=
  (if_neg (not_or.mpr ⟨h1, h2⟩)).trans ((if_neg h3).trans (if_pos h4))

/-- An open port: the route decides. -/
theorem sendAt_open (ho : PortOpen s cc p) : sendAt h cl p a cc s =
    match routeTo? s cc p with
    | some r =>
      if r.vec ≠ GIV.isVec a then strmErr s 3 p.val
      else if 512 < (r.words.length + r.flying.length + 1) * Machine.wordBytes (GIV.isVec a) then
        putT s { curT s with block := .port }
      else
        retire h (later (modPort (closeCur s) cc.phys p.val fun q => mapRoute q r.id fun r =>
          { r with flying := r.flying ++ [(putVal s a, cl)], closed := cl })
          (coreLat s (coreOf s.cur) cc.phys) (.streamWordArrive cc.phys p.val r.id))
    | none =>
      let n := newId (closeCur s)
      let r : Route := { id := n.1, ctx := (curT s).ctx, lcore := (curT s).lcore, vec := GIV.isVec a, closed := cl,
                         flying := [(putVal s a, cl)] }
      retire h (later (modPort n.2 cc.phys p.val fun q => { q with coming := q.coming ++ [r] })
        (coreLat s (coreOf s.cur) cc.phys) (.streamWordArrive cc.phys p.val n.1)) := by
  obtain ⟨h1, h2, h3, h4⟩ := ho
  exact (if_neg (not_or.mpr ⟨h1, h2⟩)).trans ((if_neg h3).trans (if_neg (by rw [h4]; exact Bool.false_ne_true)))

end Ssend

section Srecv

variable {h : Hdr} {d : GV} {p : Fin 4} {c : Fin 32} {s : State}

/-- Whether a GET or SRECV writes a vector register. -/
def toVec : GV → Bool
  | .v _ => true
  | .g _ => false

/-- SRECV waits for a word. -/
def recvWaits (h : Hdr) (d : GV) (c : Fin 32) (p : Fin 4) (s : State) : State :=
  retire h (resultWait [GV.reg d, .c c] (.srecv p.val (toVec d)) (markCloser s)).2

/-- SRECV at a port that no chain holds. -/
def recvAt (h : Hdr) (d : GV) (c : Fin 32) (p : Fin 4) (s : State) : State :=
  match (portAt s (coreOf s.cur) p).held with
  | none => recvWaits h d c p s
  | some r =>
    if r.ctx ≠ (curT s).ctx then strmErr s 1 p.val
    else if r.vec ≠ toVec d then strmErr s 4 p.val
    else if r.words = [] ∨ srecvWaits s r.ctx (coreOf s.cur) p ≠ [] then recvWaits h d c p s
    else
      match takeWord (closeCur s) (coreOf s.cur) p with
      | (some (x, last), s1) => waitNow h (srecvVals [GV.reg d, .c c] x last) evSTRM none s1
      | (none, s1) => recvWaits h d c p s1

theorem recvAt_empty (hr : (portAt s (coreOf s.cur) p).held = none) : recvAt h d c p s = recvWaits h d c p s := by
  rw [recvAt, hr]

theorem exec_srecv (hs : Issues h s) (hc : OnCore s) (hroom : HasRoom s) (hv : VRegs (gvRegs d) s) :
    exec (.srecv h d c p) s =
      .next (if (portAt s (coreOf s.cur) p).chain then strmErr s 2 p.val else recvAt h d c p s) := by
  show execSrecv h d c p s = _
  unfold execSrecv
  rw [issueC_runs hc, issued hs, withVRegs_runs hv, withRoom_runs hroom] <;> rfl

variable {r : Route} (hr : (portAt s (coreOf s.cur) p).held = some r)
include hr

theorem recvAt_other (hx : r.ctx ≠ (curT s).ctx) : recvAt h d c p s = strmErr s 1 p.val := by
  rw [recvAt, hr]
  exact if_pos hx

theorem recvAt_class (hx : r.ctx = (curT s).ctx) (hv : r.vec ≠ toVec d) : recvAt h d c p s = strmErr s 4 p.val := by
  rw [recvAt, hr]
  exact (if_neg (not_not_intro hx)).trans (if_pos hv)

theorem recvAt_waits (hx : r.ctx = (curT s).ctx) (hv : r.vec = toVec d)
    (hw : r.words = [] ∨ srecvWaits s r.ctx (coreOf s.cur) p ≠ []) : recvAt h d c p s = recvWaits h d c p s := by
  rw [recvAt, hr]
  exact (if_neg (not_not_intro hx)).trans ((if_neg (not_not_intro hv)).trans (if_pos hw))

theorem recvAt_takes {x : Vec} {last : Bool} {s1 : State} (hx : r.ctx = (curT s).ctx) (hv : r.vec = toVec d)
    (hw : r.words ≠ []) (hno : srecvWaits s r.ctx (coreOf s.cur) p = [])
    (htake : takeWord (closeCur s) (coreOf s.cur) p = (some (x, last), s1)) :
    recvAt h d c p s = waitNow h (srecvVals [GV.reg d, .c c] x last) evSTRM none s1 := by
  have hnot : ¬(r.words = [] ∨ srecvWaits s r.ctx (coreOf s.cur) p ≠ []) := not_or.mpr ⟨hw, not_not_intro hno⟩
  rw [recvAt, hr]
  refine (if_neg (not_not_intro hx)).trans ((if_neg (not_not_intro hv)).trans ((if_neg hnot).trans ?_))
  rw [htake]

end Srecv

/-- Settles O42: each deque and stream instruction by its equation above. -/
theorem dequesStreams : Obligations.DequesStreams := by
  refine ⟨fun h a b c x y s hs hc => ⟨fun loc cap hd hroom => ⟨fun hdr => ⟨fun hn => ?_, fun hn => ?_⟩,
      fun hord he => ?_, fun hord he => ?_⟩, fun n hn => ⟨?_, ?_⟩⟩,
    fun h a b l c s hs hc => ⟨fun cc hn hroom hord => exec_dsteal hs hc hn hroom hord, exec_dsteal_absent hs hc⟩,
    fun h cl l p a s hs hc hv => ⟨exec_ssend_absent hs hc hv, fun cc hn => ?_⟩,
    fun h d p c s hs hc hroom hv => ?_⟩
  · exact exec_dpush_full hs hc hd hroom hdr hn
  · exact exec_dpush_room hs hc hd hroom hdr hn
  · exact exec_dpop_empty hs hc hd hroom hord he
  · exact exec_dpop_takes hs hc hd hroom hord he
  · rw [exec_dpush hs hc, withDeque_traps hn]
  · rw [exec_dpop hs hc, withDeque_traps hn]
  · rw [exec_ssend hs hc hv hn]
    refine ⟨fun hst => congrArg _ (if_pos hst), fun h1 h2 h3 => congrArg _ (sendAt_lost h1 h2 h3),
      fun h1 h2 h3 h4 => congrArg _ (sendAt_chain h1 h2 h3 h4), fun ho => ?_⟩
    rw [sendAt_open ho]
    refine ⟨fun hr => ?_, fun r hr => ?_⟩
    · rw [hr]
    · rw [hr]
      exact ⟨fun hvec => congrArg _ (if_pos hvec),
        fun hvec hfull => congrArg _ ((if_neg (not_not_intro hvec)).trans (if_pos (of_decide_eq_true hfull))),
        fun hvec hfull => congrArg _ ((if_neg (not_not_intro hvec)).trans (if_neg (of_decide_eq_false hfull)))⟩
  · rw [exec_srecv hs hc hroom hv]
    refine ⟨fun hch => congrArg _ (if_pos hch), fun hch => ?_⟩
    rw [hch]
    exact ⟨fun hno => congrArg _ (recvAt_empty hno), fun r hr => ⟨fun hx => congrArg _ (recvAt_other hr hx),
      fun hx hvec => congrArg _ (recvAt_class hr hx hvec),
          fun hx hvec => ⟨fun hw => congrArg _ (recvAt_waits hr hx hvec hw),
        fun x last s1 hw hno ht => congrArg _ (recvAt_takes hr hx hvec hw hno ht)⟩⟩⟩

end Sys2Proof.Proofs

/-! ### The map, the context, the paging and the management instructions (R366 to R374, R396 to R406) -/

namespace Sys2Proof.Proofs

open Sys2Proof.Machine Sys2Proof.Slice0 Sys2Proof.Laws

theorem bitsOf_half (v : Word) : bitsOf v 15 0 = v.toNat % 65536 := by simp [bitsOf]

theorem withCtx_traps {s : State} {g : Fin 16} {eff : Nat → State → State}
    (hl : liveCtx s ((gVal s g).toNat % 65536) = false) : withCtx s g eff = trapHere s 0x06 (gVal s g) := by
  simp only [withCtx, hl, Bool.false_eq_true, if_false, cPROT]

/-- A request from behind a region's end. -/
theorem startRequest_closed {h : Hdr} {dst : List RegId} {rq : Req} {k : Nat} {s : State} (hroom : HasRoom s) :
    startRequest h dst rq k (closeCur s) = asked h dst rq k (closeCur s) :=
  startRequest_asked (by rwa [HasRoom, closeCur_res])

/-! #### MAPV, MAPACK and KILL (R366, R369, R371) -/

section Map

variable {h : Hdr} {d w c : Fin 16} {f : Bool} {s : State} (hs : Issues h s)
include hs

theorem exec_mapv : exec (.mapv h d) s = .next (mapRead h d false s) := issued hs

theorem exec_mapvA : exec (.mapvA h d) s = .next (mapRead h d true s) := issued hs

theorem exec_mapack : exec (.mapack h w) s = .next (
    if (gVal s w).toNat ≤ (ctxD s (curT s).ctx).ackv.toNat then retire h (closeCur s)
    else if (ctxD s (curT s).ctx).mapvec.toNat < (gVal s w).toNat then trapHere s 0x06 (gVal s w)
    else holdFor (resolveTime (closeCur s) (curT s).ctx (coreOf s.cur)) (retire h
      (modCtx (ackTo (closeCur s) (curT s).ctx (gVal s w)) (curT s).ctx fun x =>
        { x with ackHold := (closeCur s).clock + resolveTime (closeCur s) (curT s).ctx (coreOf s.cur) }))) := by
  show execMapack h w s = _
  rw [execMapack, issued hs, cPROT] <;> rfl

theorem exec_kill (hl : Level 1 s) (hroom : HasRoom s) : exec (.kill h f d c) s = .next (
    if (getCtx (closeCur s) ((gVal s c).toNat % 65536)).isNone then resultIn h 1 [.g d 1] (closeCur s)
    else
      let r := resultWait [.g d] (.kill ((gVal s c).toNat % 65536)) (closeCur s)
      retire h (startKill r.2 ((gVal s c).toNat % 65536) (if f then 0x82 else 0x80) (routerOf (coreOf s.cur))
        [(s.cur, r.1, !dying (closeCur s) ((gVal s c).toNat % 65536))])) := by
  show execKill h f d c s = _
  rw [execKill, issueL_runs hl, issued hs, withRoom_runs hroom]

end Map

/-- Settles O43: MAPV, MAPACK and KILL by their equations. -/
theorem mapAndKill : Obligations.MapAndKill := by
  refine ⟨fun h d w s hs => ⟨fun hroom => ⟨?_, ?_⟩, fun hw => ?_, fun hw => ⟨fun hv => ?_, fun hv => ?_⟩⟩,
    fun h f d c s hs hl hroom => ⟨fun hn => ?_, fun hn => ?_⟩⟩
  · rw [exec_mapv hs, mapRead, startRequest_closed hroom]
  · rw [exec_mapvA hs, mapRead, startRequest_closed hroom]
  · rw [exec_mapack hs, if_pos hw]
  · rw [exec_mapack hs, if_neg (Nat.not_le.mpr hw), if_pos hv]
  · rw [exec_mapack hs, if_neg (Nat.not_le.mpr hw), if_neg (Nat.not_lt.mpr hv)]
  · rw [exec_kill hs hl hroom, hn]
    rfl
  · rw [exec_kill hs hl hroom, if_neg (by rw [Option.isNone_iff_eq_none]; exact Option.isSome_iff_ne_none.mp hn)]

/-! #### The CTX instructions (R372 to R374) -/

section Named

variable {h : Hdr} {d c l p : Fin 16} {s : State} {eff : Nat → Nat → CoreCtx → State → State}

theorem withNamed_dead (hroom : HasRoom s) (hl : liveCtx s ((gVal s c).toNat % 65536) = false) :
    withNamed h d c l s eff = trapHere s 0x06 (gVal s c) := by
  rw [withNamed, withRoom_runs hroom, withCtx_traps hl]

theorem withNamed_absent (hroom : HasRoom s) (hl : liveCtx s ((gVal s c).toNat % 65536) = true)
    (hn : (if (gVal s l).toNat < 4096 then getCC s ((gVal s c).toNat % 65536) (gVal s l).toNat else none) = none) :
    withNamed h d c l s eff = resultIn h 1 [.g d 3] (closeCur s) := by
  rw [withNamed, withRoom_runs hroom, withCtx_runs hl]
  simp only [hn]

theorem withNamed_runs {cc : CoreCtx} (hroom : HasRoom s) (hl : liveCtx s ((gVal s c).toNat % 65536) = true)
    (hlt : (gVal s l).toNat < 4096) (hcc : getCC s ((gVal s c).toNat % 65536) (gVal s l).toNat = some cc) :
    withNamed h d c l s eff = eff ((gVal s c).toNat % 65536) (gVal s l).toNat cc (closeCur s) := by
  rw [withNamed, withRoom_runs hroom, withCtx_runs hl]
  simp only [if_pos hlt, hcc]

/-- CTX.SAVE of a core context. -/
def saveNamed (h : Hdr) (d : Fin 16) (c l : Nat) (cc : CoreCtx) (s : State) : State :=
  if cc.cst = .saved then resultIn h 1 [.g d 1] s
  else if (ctxD s c).saveBase = 0 then resultIn h 1 [.g d 2] s
  else holdCtxOp h d opSave c l s

/-- CTX.LOAD of a core context. -/
def loadNamed (h : Hdr) (d : Fin 16) (c l : Nat) (cc : CoreCtx) (s : State) : State :=
  if cc.cst = .resident then resultIn h 1 [.g d 1] s else holdCtxOp h d opLoad c l s

/-- CTX.MIG of a core context to a core. -/
def migNamed (h : Hdr) (d : Fin 16) (k c l : Nat) (cc : CoreCtx) (s : State) : State :=
  if cc.phys = k then resultIn h 1 [.g d 1] s
  else match migCore s (c, l, cc) k with
    | none => resultIn h 1 [.g d 2] s
    | some k => later (holdCtxOp h d (opMig k) c l s) 0 (.liveMigration c l k)

theorem migNamed_refused {k n m : Nat} {cc : CoreCtx} (hne : cc.phys ≠ k) (hq : migCore s (n, m, cc) k = none) :
    migNamed h d k n m cc s = resultIn h 1 [.g d 2] s := by
  rw [migNamed, if_neg hne, hq]

theorem migNamed_moves {k n m q : Nat} {cc : CoreCtx} (hne : cc.phys ≠ k) (hq : migCore s (n, m, cc) k = some q) :
    migNamed h d k n m cc s = later (holdCtxOp h d (opMig q) n m s) 0 (.liveMigration n m q) := by
  rw [migNamed, if_neg hne, hq]

variable (hs : Issues h s) (hl : Level 1 s)
include hs hl

theorem exec_ctxSave : exec (.ctxSave h d c l) s = .next (withNamed h d c l s (saveNamed h d)) := by
  show execCtxSave h d c l s = _
  rw [execCtxSave, issueL_runs hl, issued hs] <;> rfl

theorem exec_ctxLoad : exec (.ctxLoad h d c l) s = .next (withNamed h d c l s (loadNamed h d)) := by
  show execCtxLoad h d c l s = _
  rw [execCtxLoad, issueL_runs hl, issued hs] <;> rfl

theorem exec_ctxMig : exec (.ctxMig h d c l p) s =
    .next (withNamed h d c l s (migNamed h d (bitsOf (gVal s p) 11 0))) := by
  show execCtxMig h d c l p s = _
  rw [execCtxMig, issueL_runs hl, issued hs] <;> rfl

end Named

section Words

variable {h : Hdr} {d c ix v l : Fin 16} {s : State} (hs : Issues h s) (hl : Level 1 s)

/-- CTX.WR of a word. -/
def writeWord (h : Hdr) (i x : Word) (c : Nat) (s : State) : State :=
  match i.toNat with
  | 1 => retire h (modCtx (closeCur s) c fun y => { y with troot := x &&& 0x00000FFFFFFFFFFF })
  | 2 => retire h (modCtx (closeCur s) c fun y => { y with tpref := x &&& 0xFFFFFFFFFFFFF0FF })
  | 3 => retire h (modCtx (closeCur s) c fun y => { y with saveBase := x &&& 0x00FFFFFFFFF00000 })
  | 7 => retire h (setGrace (closeCur s) c x)
  | 8 => retire h (clearDrops (closeCur s) c x)
  | _ => trapHere s 0x06 i

theorem writeWord_other {i x : Word} {n : Nat} (hi : i.toNat ∉ [1, 2, 3, 7, 8]) :
    writeWord h i x n s = trapHere s 0x06 i := by
  unfold writeWord
  split
  case h_6 => rfl
  all_goals exact absurd (by simp [*]) hi

include hs hl

theorem exec_ctxRd (hroom : HasRoom s) : exec (.ctxRd h d c ix) s = .next (asked h [.g d]
    (.ctxRd ((gVal s c).toNat % 65536) (gVal s ix)) (core0 s ((gVal s c).toNat % 65536) (coreOf s.cur))
      (closeCur s)) := by
  show execCtxRd h d c ix s = _
  rw [execCtxRd, issueL_runs hl, issued hs]
  simp only [bitsOf_half, startRequest_closed hroom]

theorem exec_ctxWr :
    exec (.ctxWr h c v ix) s = .next (withCtx s c fun n s => writeWord h (gVal s ix) (gVal s v) n s) := by
  show execCtxWr h c v ix s = _
  rw [execCtxWr, issueL_runs hl, issued hs] <;> rfl

theorem exec_ctxRes : exec (.ctxRes h c) s = .next (withCtx s c fun n s =>
    retire h (modCtx (resumeCtx (closeCur s) n) n fun x => { x with
      ackHold := s.clock + resolveTime (closeCur s) n (core0 (closeCur s) n (coreOf s.cur)) })) := by
  show execCtxRes h c s = _
  rw [execCtxRes, issueL_runs hl, issued hs]

theorem exec_ctxTv : exec (.ctxTv h v) s = .next (if (gVal s v).toNat % 512 ≠ 0 then trapHere s 0x05 (gVal s v)
    else retire h ((if coreOf s.cur = 0x804 then List.range 4 else [coreOf s.cur - 0x800]).foldl
      (fun x d => setQuad x d { quadAt x d with tv := some (gVal s v) }) (closeCur s))) := by
  show execCtxTv h v s = _
  rw [execCtxTv, issueL_runs hl, issued hs, cALIGN]

theorem exec_ctxSlot : exec (.ctxSlot h d l) s = .next (
    if 2047 < bitsOf (gVal s l) 14 3 then trapHere s 0x06 (gVal s l)
    else startRequest h [.g d] (.ctxSlot (tkOf (bitsOf (gVal s l) 14 3) (bitsOf (gVal s l) 2 0)))
        (bitsOf (gVal s l) 14 3)
      (closeCur s)) := by
  show execCtxSlot h d l s = _
  rw [execCtxSlot, issueL_runs hl, issued hs, cPROT]

end Words

/-- Settles O44: the CTX instructions on what they name (`withNamed_runs`, `withCtx_runs`) and on what does not
exist. -/
theorem contextInstructions : Obligations.ContextInstructions := by
  refine ⟨fun h d c l p s hs hl hroom => ⟨fun hd => ⟨?_, ?_, ?_⟩, fun hlive hn => ⟨?_, ?_, ?_⟩,
      fun cc hlive hlt hcc => ?_⟩,
    fun h d c ix v s hs hl => ⟨exec_ctxRd hs hl, fun hlive => ?_, fun hd => ⟨?_, ?_⟩⟩,
    fun h d l v s hs hl => ⟨fun hv => ?_, fun hv => ?_, fun hk hroom => ?_, fun hk => ?_⟩⟩
  · rw [exec_ctxSave hs hl, withNamed_dead hroom hd]
  · rw [exec_ctxLoad hs hl, withNamed_dead hroom hd]
  · rw [exec_ctxMig hs hl, withNamed_dead hroom hd]
  · rw [exec_ctxSave hs hl, withNamed_absent hroom hlive hn]
  · rw [exec_ctxLoad hs hl, withNamed_absent hroom hlive hn]
  · rw [exec_ctxMig hs hl, withNamed_absent hroom hlive hn]
  · rw [exec_ctxSave hs hl, exec_ctxLoad hs hl, exec_ctxMig hs hl]
    simp only [withNamed_runs hroom hlive hlt hcc]
    exact ⟨fun hst => congrArg _ (if_pos hst), fun hst hb => congrArg _ ((if_neg hst).trans (if_pos hb)),
      fun hst hb => congrArg _ ((if_neg hst).trans (if_neg hb)), fun hst => congrArg _ (if_pos hst),
      fun hst => congrArg _ (if_neg hst), fun hk => congrArg _ (if_pos hk),
      fun hk hq => congrArg _ (migNamed_refused hk hq), fun q hk hq => congrArg _ (migNamed_moves hk hq)⟩
  · rw [exec_ctxWr hs hl, exec_ctxRes hs hl, withCtx_runs hlive, withCtx_runs hlive]
    exact ⟨fun hi => by simp only [writeWord, hi], fun hi => by simp only [writeWord, hi],
      fun hi => by simp only [writeWord, hi], fun hi => by simp only [writeWord, hi],
      fun hi => by simp only [writeWord, hi], fun hi => by rw [writeWord_other hi], rfl⟩
  · rw [exec_ctxWr hs hl, withCtx_traps hd]
  · rw [exec_ctxRes hs hl, withCtx_traps hd]
  · rw [exec_ctxTv hs hl, if_pos hv]
  · rw [exec_ctxTv hs hl, if_neg (not_not_intro hv)]
  · rw [exec_ctxSlot hs hl, if_neg (Nat.not_lt.mpr hk), startRequest_closed hroom]
  · rw [exec_ctxSlot hs hl, if_pos hk]

/-! #### TLBI and PGREF (R309 to R311, R370) -/

section Tlbi

variable {h : Hdr} {c v n : Fin 16} {s : State}

theorem tlbi_shot {k : Option Nat} {ps : List (Nat × Nat)} (hroom : HasRoom s) :
    tlbi h k ps s = shot h k ps (closeCur s) := by
  rw [tlbi, withRoom_runs hroom]

variable (hs : Issues h s) (hl : Level 1 s)
include hs hl

theorem exec_tlbiAll : exec (.tlbiAll h) s = .next (tlbi h none allPages s) := by
  show execTlbiAll h s = _
  rw [execTlbiAll, issueL_runs hl, issued hs]

theorem exec_tlbiCtx : exec (.tlbiCtx h c) s = .next (withCtx s c fun k s => tlbi h (some k) allPages s) := by
  show execTlbiCtx h c s = _
  rw [execTlbiCtx, issueL_runs hl, issued hs]

theorem exec_tlbiPg : exec (.tlbiPg h c v) s =
    .next (withCtx s c fun k s => tlbi h (some k) [(pageOf (gVal s v).toNat, 1)] s) := by
  show execTlbiPg h c v s = _
  rw [execTlbiPg, issueL_runs hl, issued hs]

theorem exec_tlbiRng : exec (.tlbiRng h c v n) s =
    .next (withCtx s c fun k s => tlbi h (some k) [(pageOf (gVal s v).toNat, bitsOf (gVal s n) 31 0)] s) := by
  show execTlbiRng h c v n s = _
  rw [execTlbiRng, issueL_runs hl, issued hs]

end Tlbi

section Pgref

variable {h : Hdr} {d c v e : Fin 16} {x : GI} {s : State} {k : Nat}

theorem withPte_absent {w : Word} {eff : Nat → State → State} (hq : poisonOnWay s k w.toNat = none)
    (hp : pteOf s k w.toNat = none) : withPte s k w eff = trapHere s 0x06 w := by
  simp only [withPte, hq, hp, cPROT]

theorem withPte_poisoned {w : Word} {line : Nat} {eff : Nat → State → State}
    (hq : poisonOnWay s k w.toNat = some line) : withPte s k w eff =
      trapHere (poisonFault s (dieOf (routerOf (coreOf s.cur))) k (coreOf s.cur % 4096) line 0) 0x06 w := by
  simp only [withPte, hq, cPROT]

/-- PGREF.Q of a page entry. -/
def pteRead (h : Hdr) (d : Fin 16) (a : Nat) (s : State) : State :=
  resultIn h (memDelay (closeCur s)).1 [.g d (pteWord (memDelay (closeCur s)).2 a)] (memDelay (closeCur s)).2

/-- A PGREF that replaces the word of a page entry. -/
def pteChange (h : Hdr) (d : Fin 16) (k : Nat) (w : Word) (f : Word → Word) (a : Nat) (s : State) : State :=
  pgrefRest h [.g d (pteWord (ptePrep s a) a)] k [w] (writePte (ptePrep s a) a (f (pteWord (ptePrep s a) a)))

/-- PGREF.ADJ of a page entry. -/
def pteAdjust (h : Hdr) (d : Fin 16) (k : Nat) (w : Word) (delta : Int) (a : Nat) (s : State) : State :=
  if (bitsOf (pteWord (ptePrep s a) a) 59 52 : Int) + delta < 0 ∨
      255 < (bitsOf (pteWord (ptePrep s a) a) 59 52 : Int) + delta then
    trapHere s 0x06 w
  else pteChange h d k w
    (fun old => putBits old 59 52 ((bitsOf (pteWord (ptePrep s a) a) 59 52 : Int) + delta).toNat) a s

/-- PGREF.SH of two page entries. -/
def pteShare (h : Hdr) (d : Fin 16) (k : Nat) (w u : Word) (m a b : Nat) (s : State) : State :=
  let q := ptePrep (ptePrep s a) b
  let s2 := writePte q a (sharedPte (pteWord q b) m)
  pgrefRest h [.g d (pteWord q a)] k [w, u] (writePte s2 b (sharedPte (pteWord s2 b) m))

variable (hs : Issues h s) (hl : Level 1 s) (hroom : HasRoom s)
include hs hl hroom

theorem exec_pgrefQ : exec (.pgrefQ h d c v) s = .next (withCtx s c fun k s => withPte s k (gVal s v) fun a s =>
    withOrder s false (pteRead h d a)) := by
  show execPgrefQ h d c v s = _
  rw [execPgrefQ, issueL_runs hl, issued hs, withRoom_runs hroom] <;> rfl

theorem exec_pgrefRm : exec (.pgrefRm h d c v e) s = .next (withCtx s c fun k s => withPte s k (gVal s v) fun a s =>
    withOrder s false fun s => pteChange h d k (gVal s v) (fun _ => gVal s e) a s) := by
  show execPgrefRm h d c v e s = _
  rw [execPgrefRm, issueL_runs hl, issued hs, withRoom_runs hroom] <;> rfl

theorem exec_pgrefDr : exec (.pgrefDr h d c v) s = .next (withCtx s c fun k s => withPte s k (gVal s v) fun a s =>
    withOrder s false fun s => pteChange h d k (gVal s v) (fun old => putBits old 63 63 0) a s) := by
  show execPgrefDr h d c v s = _
  rw [execPgrefDr, issueL_runs hl, issued hs, withRoom_runs hroom] <;> rfl

theorem exec_pgrefAdj : exec (.pgrefAdj h d c v x) s = .next (withCtx s c fun k s => withPte s k (gVal s v) fun a s =>
    withOrder s false fun s => pteAdjust h d k (gVal s v) (giVal s x).toInt a s) := by
  show execPgrefAdj h d c v x s = _
  rw [execPgrefAdj, issueL_runs hl, issued hs, withRoom_runs hroom] <;> rfl

theorem exec_pgrefSh : exec (.pgrefSh h d c v e x) s = .next (withCtx s c fun k s => withPte s k (gVal s v) fun a s =>
    let m := bitsOf (giVal s x) 7 0
    if m = 0 then trapHere s 0x06 (giVal s x)
    else withPte s k (gVal s e) fun b s => withOrder s false fun s =>
      pteShare h d k (gVal s v) (gVal s e) m a b s) := by
  show execPgrefSh h d c v e x s = _
  rw [execPgrefSh, issueL_runs hl, issued hs, withRoom_runs hroom, cPROT] <;> rfl

theorem exec_pgrefWk : exec (.pgrefWk h c v) s =
    .next (withCtx s c fun k s => pgrefRest h [] k [gVal s v] (closeCur s)) := by
  show execPgrefWk h c v s = _
  rw [execPgrefWk, issueL_runs hl, issued hs, withRoom_runs hroom]

theorem exec_pgrefClr : exec (.pgrefClr h d v) s = .next (
    let line := bitsOf (gVal s v) 51 8
    let m := memDelay (closeCur { s with ptPoison := s.ptPoison.filter fun e => e.2 != line })
    resultIn h m.1 [.g d (if s.ptPoison.any fun e => e.2 == line then 1 else 0)] m.2) := by
  show execPgrefClr h d v s = _
  rw [execPgrefClr, issueL_runs hl, issued hs, withRoom_runs hroom]

end Pgref

/-- Settles O45: the TLBI and PGREF instructions, on a live context, on a page entry and without. -/
theorem pagingInstructions : Obligations.PagingInstructions := by
  refine ⟨fun h c v n s hs hl => ⟨fun hroom => ?_, fun hlive hroom => ⟨?_, ?_, ?_⟩, fun hd => ⟨?_, ?_, ?_⟩⟩,
    fun h d c v e x s hs hl hroom => ⟨fun hlive =>
        ⟨fun a ha => ⟨fun h0 => ?_, fun hord => ⟨?_, ?_, fun b hb h0 => ?_, ?_,
      fun m hm hrefs => ?_, fun hrefs => ?_⟩⟩, fun hq hp => ⟨?_, ?_, ?_, ?_, ?_⟩, fun line hq => ?_, ?_⟩,
      fun hd => ⟨?_, ?_, ?_, ?_, ?_, ?_⟩, exec_pgrefClr hs hl hroom⟩⟩
  · rw [exec_tlbiAll hs hl, tlbi_shot hroom, allPages]
  · rw [exec_tlbiCtx hs hl, withCtx_runs hlive, tlbi_shot hroom, allPages]
  · rw [exec_tlbiPg hs hl, withCtx_runs hlive, tlbi_shot hroom]
  · rw [exec_tlbiRng hs hl, withCtx_runs hlive, tlbi_shot hroom]
  · rw [exec_tlbiCtx hs hl, withCtx_traps hd]
  · rw [exec_tlbiPg hs hl, withCtx_traps hd]
  · rw [exec_tlbiRng hs hl, withCtx_traps hd]
  · rw [exec_pgrefSh hs hl hroom, withCtx_runs hlive, withPte_runs ha.2 ha.1]
    exact congrArg _ (if_pos h0)
  · rw [exec_pgrefQ hs hl hroom, withCtx_runs hlive, withPte_runs ha.2 ha.1, withOrder_runs hord, pteRead]
  · rw [exec_pgrefRm hs hl hroom, withCtx_runs hlive, withPte_runs ha.2 ha.1, withOrder_runs hord, pteChange]
  · rw [exec_pgrefSh hs hl hroom, withCtx_runs hlive, withPte_runs ha.2 ha.1]
    refine congrArg _ ((if_neg h0).trans ?_)
    rw [withPte_runs hb.2 hb.1, withOrder_runs hord, pteShare]
  · rw [exec_pgrefDr hs hl hroom, withCtx_runs hlive, withPte_runs ha.2 ha.1, withOrder_runs hord, pteChange]
  · rw [exec_pgrefAdj hs hl hroom, withCtx_runs hlive, withPte_runs ha.2 ha.1, withOrder_runs hord, pteAdjust]
    rw [hrefs, if_neg (by omega), pteChange, Int.toNat_natCast]
  · rw [exec_pgrefAdj hs hl hroom, withCtx_runs hlive, withPte_runs ha.2 ha.1, withOrder_runs hord, pteAdjust,
      if_pos hrefs]
  · rw [exec_pgrefQ hs hl hroom, withCtx_runs hlive, withPte_absent hq hp]
  · rw [exec_pgrefRm hs hl hroom, withCtx_runs hlive, withPte_absent hq hp]
  · rw [exec_pgrefSh hs hl hroom, withCtx_runs hlive, withPte_absent hq hp]
  · rw [exec_pgrefDr hs hl hroom, withCtx_runs hlive, withPte_absent hq hp]
  · rw [exec_pgrefAdj hs hl hroom, withCtx_runs hlive, withPte_absent hq hp]
  · rw [exec_pgrefQ hs hl hroom, withCtx_runs hlive, withPte_poisoned hq]
  · rw [exec_pgrefWk hs hl hroom, withCtx_runs hlive]
  · rw [exec_pgrefQ hs hl hroom, withCtx_traps hd]
  · rw [exec_pgrefRm hs hl hroom, withCtx_traps hd]
  · rw [exec_pgrefSh hs hl hroom, withCtx_traps hd]
  · rw [exec_pgrefDr hs hl hroom, withCtx_traps hd]
  · rw [exec_pgrefAdj hs hl hroom, withCtx_traps hd]
  · rw [exec_pgrefWk hs hl hroom, withCtx_traps hd]

/-! #### The MGMT instructions (R396, R402 to R406) -/

section Mgmt

variable {h : Hdr} {d a b : Fin 16} {s : State} (hs : Issues h s)
include hs

theorem exec_mgmtLog (hl : Level 1 s) : exec (.mgmtLog h a b) s =
    .next (retire h (writeLog (closeCur s) (bitsOf (gVal s a) 15 0) (coreOf s.cur) (gVal s b))) := by
  show execMgmtLog h a b s = _
  rw [execMgmtLog, issueL_runs hl, issued hs]

theorem exec_mgmtRetire (hl : Level 1 s) (hroom : HasRoom s) : exec (.mgmtRetire h d a b) s = .next (asked h [.g d]
    (.retire (bitsOf (gVal s a) 7 0) (bitsOf (gVal s a) 15 8) (bitsOf (gVal s b) 31 0)) 0x804 (closeCur s)) := by
  show execMgmtRetire h d a b s = _
  rw [execMgmtRetire, issueL_runs hl, issued hs, startRequest_closed hroom]

theorem exec_mgmtTmr (hl : Level 0 s) :
    exec (.mgmtTmr h a) s = .next (retire h (setAlarm (closeCur s) (gVal s a))) := by
  show execMgmtTmr h a s = _
  rw [execMgmtTmr, issueL_runs hl, issued hs]

theorem exec_mgmtFwsel (hl : Level 0 s) : exec (.mgmtFwsel h a) s = .next (retire h { closeCur s with
    reeve := { (closeCur s).reeve with
      flash := Memory.write (closeCur s).reeve.flash 0x810000 (BitVec.ofNat 8 (bitsOf (gVal s a) 0 0)) } }) := by
  show execMgmtFwsel h a s = _
  rw [execMgmtFwsel, issueL_runs hl, issued hs]

theorem exec_mgmtFwcommit (hl : Level 0 s) : exec (.mgmtFwcommit h) s = .next (retire h { closeCur s with
    reeve := { (closeCur s).reeve with counter := committed (closeCur s) } }) := by
  show execMgmtFwcommit h s = _
  rw [execMgmtFwcommit, issueL_runs hl, issued hs]

theorem exec_mgmtQuote (hl : Level 0 s) : exec (.mgmtQuote h d a) s = .next (
    if 2 ^ 19 < (gVal s a).toNat + 64 + quoteLen then trapHere s 0x06 (gVal s a)
    else startRequest h [.g d] (.quote (gVal s a).toNat) 0x804 (closeCur s)) := by
  show execMgmtQuote h d a s = _
  rw [execMgmtQuote, issueL_runs hl, issued hs, cPROT]

end Mgmt

/-- Settles O46: the MGMT instructions by their equations. -/
theorem managementInstructions : Obligations.ManagementInstructions := by
  refine fun h d a b s hs => ⟨fun hl => ⟨?_, exec_mgmtRetire hs hl⟩,
    fun hl => ⟨exec_mgmtTmr hs hl, exec_mgmtFwsel hs hl, exec_mgmtFwcommit hs hl, fun hq hroom => ?_, fun hq => ?_⟩⟩
  · rw [exec_mgmtLog hs hl, writeLog, recordLoc, ringBase]
  · rw [exec_mgmtQuote hs hl, if_neg (Nat.not_lt.mpr hq), startRequest_closed hroom]
  · rw [exec_mgmtQuote hs hl, if_pos hq]

end Sys2Proof.Proofs

/-! ### The step, reset and a launch's first state (R57, R97 to R110) -/

namespace Sys2Proof.Proofs

open Sys2Proof.Machine Sys2Proof.Slice0 Sys2Proof.Laws

/-! #### The step -/

section Step

variable {s : State}

theorem step_due {c : Nat} {i : Instr} {rest : List (Nat × Instr)} (hag : s.agenda = (c, i) :: rest)
    (hc : c ≤ s.clock) :
    step s = exec i { s with agenda := rest, freeCtr := s.freeCtr + 1 } := by
  simp only [step, hag, hc, if_true]

theorem step_halted (hag : s.agenda = []) (hr : s.romHalted = true) : step s = .fault .romHalted := by
  simp only [step, hag, hr, if_true]

/-- With no device step due the issue turns follow. -/
theorem step_issues (h : (s.agenda = [] ∧ s.romHalted = false) ∨
    (∃ c i rest, s.agenda = (c, i) :: rest ∧ s.clock < c)) : step s = stepIssue s := by
  rcases h with ⟨hag, hr⟩ | ⟨c, i, rest, hag, hc⟩
  · simp only [step, hag, hr, Bool.false_eq_true, if_false]
  · simp only [step, hag, Nat.not_le.mpr hc, if_false]

theorem stepIssue_tick (hn : nextSlot s = none) (he : s.ends = []) :
    stepIssue s = .next { s with clock := s.clock + 1, turn := 0 } := by
  simp only [stepIssue, hn, he, tick]

theorem stepIssue_end {i : Instr} {rest : List Instr} (hn : nextSlot s = none) (he : s.ends = i :: rest) :
    stepIssue s = exec i { s with ends := rest, turn := 4096, freeCtr := s.freeCtr + 1 } := by
  simp only [stepIssue, hn, he]

theorem stepIssue_slot {tk : Nat} (hn : nextSlot s = some tk) : stepIssue s = stepSlot (takeTurn s tk) tk := by
  simp only [stepIssue, hn]

theorem stepSlot_event {tk : Nat} {e : Instr} (hb : boundary s tk = some e) : stepSlot s tk = exec e s := by
  simp only [stepSlot, hb]

/-- What a fetch and its decoding end in runs. -/
def runIssue : Issue → Host.Outcome State Fault Refusal
  | .stop s => .next s
  | .run i s => exec i s

theorem stepSlot_fetch {tk : Nat} (hb : boundary s tk = none) : stepSlot s tk = runIssue (fetchDecode s) := by
  simp only [stepSlot, hb]
  cases fetchDecode s <;> rfl

end Step

section Fetch

variable {s s0 s3 : State} {bs : List Byte}

theorem fetchDecode_held {p : Held} (hp : (curT s).held = some p) :
    fetchDecode s = .stop (issueWrites p.hdr p.ws s) := by
  simp only [fetchDecode, hp]

variable (hheld : (curT s).held = none)
include hheld

theorem fetchDecode_badSlot (hok : slotOkPc (curT s).pc = false) : fetchDecode s = .stop (entryTrap s) := by
  simp only [fetchDecode, hheld, hok, Bool.not_false, if_true]

variable (hok : slotOkPc (curT s).pc = true)
include hok

theorem fetchDecode_stop (hf : fetchLine s = .stop s3) : fetchDecode s = .stop s3 := by
  simp only [fetchDecode, hheld, hok, Bool.not_true, Bool.false_eq_true, if_false, hf]

/-- The state once the check of a branch's target is done. -/
def entered (s s0 : State) : State := putT s0 { curT s with entry := .none }

/-- What follows a line that was read. -/
def lineIssue (s s0 : State) (bs : List Byte) : Issue :=
  if !entryOk (curT s) (lineWord bs) then .stop (entryTrap s0)
  else
    let s1 := entered s s0
    if checkDue (curT s) && (curT s).ended then .stop (finishRun s1 s.cur)
    else match (if checkDue (curT s) then boundary s1 s.cur else none) with
    | some e => .run e s1
    | none =>
      if nbits (lineWord bs) 14 0 ≠ 0 then .stop (trapHere s1 cILLOP (w64 (2 ^ 63 + lineWord bs)))
      else
        match decode (lineInstr bs (bitsOf (curT s).pc 2 0)) with
        | some i => .run i s1
        | none => .stop (trapHere s1 cILLOP (wordHigh (lineInstr bs (bitsOf (curT s).pc 2 0))))

theorem fetchDecode_line (hf : fetchLine s = .line bs s0) : fetchDecode s = lineIssue s s0 bs := by
  simp only [fetchDecode, hheld, hok, Bool.not_true, Bool.false_eq_true, if_false, hf, lineIssue, entered] <;> rfl

end Fetch

section Line

variable {s s0 : State} {bs : List Byte}

theorem lineIssue_badEntry (hen : entryOk (curT s) (lineWord bs) = false) :
    lineIssue s s0 bs = .stop (entryTrap s0) := by
  simp only [lineIssue, hen, Bool.not_false, if_true]

variable (hen : entryOk (curT s) (lineWord bs) = true)
include hen

theorem lineIssue_ended (hd : checkDue (curT s) = true) (he : (curT s).ended = true) :
    lineIssue s s0 bs = .stop (finishRun (entered s s0) s.cur) := by
  simp only [lineIssue, hen, hd, he, Bool.not_true, Bool.false_eq_true, if_false, Bool.and_true, if_true]

theorem lineIssue_event {e : Instr} (hd : checkDue (curT s) = true) (he : (curT s).ended = false)
    (hb : boundary (entered s s0) s.cur = some e) :
    lineIssue s s0 bs = .run e (entered s s0) := by
  simp only [lineIssue, hen, hd, he, Bool.not_true, Bool.false_eq_true, if_false, Bool.and_false, if_true, hb]

variable (hgo : checkDue (curT s) = false ∨
  ((curT s).ended = false ∧ boundary (entered s s0) s.cur = none))
include hgo

/-- Nothing waited for the check: the line's instruction is next. -/
theorem lineIssue_goes : lineIssue s s0 bs =
    if nbits (lineWord bs) 14 0 ≠ 0 then
      .stop (trapHere (entered s s0) cILLOP (w64 (2 ^ 63 + lineWord bs)))
    else
      match decode (lineInstr bs (bitsOf (curT s).pc 2 0)) with
      | some i => .run i (entered s s0)
      | none => .stop (trapHere (entered s s0) cILLOP
          (wordHigh (lineInstr bs (bitsOf (curT s).pc 2 0)))) := by
  have hend : (checkDue (curT s) && (curT s).ended) = false := by
    rcases hgo with h | h
    · rw [h, Bool.false_and]
    · rw [h.1, Bool.and_false]
  have hnone : (if checkDue (curT s) then boundary (entered s s0) s.cur else none) = none := by
    rcases hgo with h | h
    · rw [h]; rfl
    · rw [h.2, ite_self]
  simp only [lineIssue, hen, hend, hnone, Bool.not_true, Bool.false_eq_true, if_false]

theorem lineIssue_runs {i : Instr} (hbits : nbits (lineWord bs) 14 0 = 0)
    (hdec : decode (lineInstr bs (bitsOf (curT s).pc 2 0)) = some i) :
    lineIssue s s0 bs = .run i (entered s s0) := by
  rw [lineIssue_goes hen hgo, if_neg (not_not_intro hbits), hdec]

theorem lineIssue_illop (hbits : nbits (lineWord bs) 14 0 = 0)
    (hdec : decode (lineInstr bs (bitsOf (curT s).pc 2 0)) = none) :
    lineIssue s s0 bs = .stop (trapHere (entered s s0) cILLOP
      (wordHigh (lineInstr bs (bitsOf (curT s).pc 2 0)))) := by
  rw [lineIssue_goes hen hgo, if_neg (not_not_intro hbits), hdec]

theorem lineIssue_reserved (hbits : nbits (lineWord bs) 14 0 ≠ 0) : lineIssue s s0 bs =
    .stop (trapHere (entered s s0) cILLOP (w64 (2 ^ 63 + lineWord bs))) := by
  rw [lineIssue_goes hen hgo, if_pos hbits]

end Line

/-- Settles O57: the agenda, then the slot's boundary, its fetch and its line, case by case. -/
theorem stepRunsDecoded : Obligations.StepRunsDecoded := by
  refine fun s => ⟨fun c i rest hag hc => step_due hag hc, step_halted, fun hno => ?_⟩
  rw [step_issues hno]
  refine ⟨stepIssue_tick, fun i rest hn he => stepIssue_end hn he, fun tk hn => ?_⟩
  rw [stepIssue_slot hn]
  refine ⟨fun e hb => stepSlot_event hb, fun p hb hp => ?_, fun hb hp hok => ?_, fun hb hp hok => ⟨fun s3 hf => ?_,
    fun bs s0 hf => ⟨fun hen => ?_, fun hen hd he => ?_, fun e hen hd he hbe => ?_, fun hen hgo => ?_⟩⟩⟩
  · rw [stepSlot_fetch hb, fetchDecode_held hp, runIssue]
  · rw [stepSlot_fetch hb, fetchDecode_badSlot hp hok, runIssue]
  · rw [stepSlot_fetch hb, fetchDecode_stop hp hok hf, runIssue]
  · rw [stepSlot_fetch hb, fetchDecode_line hp hok hf, lineIssue_badEntry hen, runIssue]
  · rw [stepSlot_fetch hb, fetchDecode_line hp hok hf, lineIssue_ended hen hd he]
    rfl
  · rw [stepSlot_fetch hb, fetchDecode_line hp hok hf, lineIssue_event hen hd he hbe, runIssue, entered]
  · rw [stepSlot_fetch hb, fetchDecode_line hp hok hf]
    refine ⟨fun hbits i hdec => ?_, fun hbits hdec => ?_, fun hbits => ?_⟩
    · rw [lineIssue_runs hen hgo hbits hdec, runIssue, entered]
    · rw [lineIssue_illop hen hgo hbits hdec]
      rfl
    · rw [lineIssue_reserved hen hgo hbits]
      rfl

/-! #### Words of the spec, reset and a launch's threads -/

/-- Settles O54, word by word. -/
theorem sampleWords : Obligations.SampleWords :=
  ⟨by decide, by decide, by decide, by decide, by decide, by decide, by decide, by decide, by decide, by decide,
      by decide,
    by decide, by decide, by decide, by decide⟩

/-- Settles O58: each field of the reset state as it is written. -/
theorem resetValues : Obligations.ResetValues :=
  ⟨rfl, rfl, rfl, rfl, rfl, rfl, rfl, rfl, rfl, rfl, rfl, rfl, rfl, rfl, rfl, rfl, rfl⟩

/-- The scalar registers of a launch's first thread: the packet's arguments, then zeros. -/
theorem launchThread_g (s : State) (c : Nat) (p : Packet) (l lane : Nat) (i : Fin 16) :
    (launchThread s c p l lane).g[i] = if i = 0 then p.arg0 else if i = 1 then p.arg1 else if i = 2 then p.arg2
      else if i = 3 then p.arg3 else 0 := by
  obtain ⟨i, hi⟩ := i
  simp only [launchThread, Fin.getElem_fin, Fin.ext_iff, Vector.getElem_set, Vector.getElem_replicate]
  grind

/-- A new thread's vector predicates: all of p0, none of the others. -/
theorem blank_p : ∀ i : Fin 8, Thread.blank.p[i] = if i = 0 then BitVec.allOnes 256 else 0 := by decide

/-- Settles O59: the fields of `launchThread`. -/
theorem threadStart : Obligations.ThreadStart := by
  refine fun s c p l lane hlane => ⟨launchThread_g s c p l lane, rfl, rfl, ?_, rfl, rfl, rfl, rfl, rfl, ?_, fun i => ?_,
    fun i => ?_, rfl, rfl, rfl, rfl, rfl⟩
  · exact (BitVec.toNat_ofNat lane 16).trans (Nat.mod_eq_of_lt hlane)
  · rfl
  · exact Vector.getElem_replicate _
  · exact blank_p i

end Sys2Proof.Proofs

/-! ### The device's steps at a thread (R36, R45, R63 to R69, R103, R123, R182 to R190, R407, R408) -/

namespace Sys2Proof.Proofs

open Sys2Proof.Machine Sys2Proof.Slice0 Sys2Proof.Laws

/-! #### Results that return (R63 to R66, R69) -/

section Return

variable {tk rid k : Nat} {s : State} {r : Res}

theorem resultReturn_get {h : Hdr} {d : GV} {c : Fin 32} (hk : holderOf s tk rid = some k)
    (hr : findRes (getT s k) rid = some r) (hw : r.wait = .get h d c) :
    exec (.resultReturn tk rid) s = .next (returnGet s k rid h d c) := by
  show execResultReturn tk rid s = _
  simp only [execResultReturn, hk, hr, hw]

/-- A result other than a GET's settles its thread, whose chain may fold. -/
theorem resultReturn_settles (hk : holderOf s tk rid = some k) (hr : findRes (getT s k) rid = some r)
    (hw : ∀ h d c, r.wait ≠ .get h d c) : exec (.resultReturn tk rid) s = .next (
      match (getT s k).chain with
      | some p => checkFold (settle (setT s k (returnRes (getT s k) r)) k) (getT s k).ctx p.chain
      | none => settle (setT s k (returnRes (getT s k) r)) k) := by
  show execResultReturn tk rid s = _
  cases hc : r.wait with
  | get h d c => exact absurd hc (hw h d c)
  | _ => simp only [execResultReturn, hk, hr, hc] <;> rfl

theorem resultReturn_frame (hk : holderOf s tk rid = none) (hf : frameAwaits s rid = true) :
    exec (.resultReturn tk rid) s = .next (modFrame s rid fun t => match findRes t rid with
      | some r => returnRes t r
      | none => t) := by
  show execResultReturn tk rid s = _
  simp only [execResultReturn, hk, hf, if_true] <;> rfl

/-- No one awaits the result. -/
theorem resultReturn_unawaited (hk : holderOf s tk rid = none) (hf : frameAwaits s rid = false) :
    exec (.resultReturn tk rid) s = .next (
      if (mget s.threads tk).isNone || decide (rid ≤ (((slotAt s tk).past.head?).map (·.1)).getD 0) then
        countDrop s (messageCtx s tk rid)
      else s) := by
  show execResultReturn tk rid s = _
  simp only [execResultReturn, hk, hf, Bool.false_eq_true, if_false]

/-- What a returning result changes of its thread. -/
theorem returnRes_fields (t : Thread) (r : Res) :
    (returnRes t r).g = (r.vals.foldl (fun t w => if r.dst.contains w.reg then applyW t w else t) t).g ∧
    (returnRes t r).res = t.res.filter (fun q => q.id != r.id) ∧
    (returnRes t r).evt =
      (r.vals.foldl (fun t w => if r.dst.contains w.reg then applyW t w else t) t).evt &&& ~~~r.evt ∧
    (returnRes t r).view =
      (r.join.map (r.vals.foldl (fun t w => if r.dst.contains w.reg then applyW t w else t) t).view.join).getD
        (r.vals.foldl (fun t w => if r.dst.contains w.reg then applyW t w else t) t).view := by
  unfold returnRes
  cases r.lost with
  | none => cases r.join <;> exact ⟨rfl, rfl, rfl, rfl⟩
  | some x =>
    cases r.join <;> dsimp only <;> split <;> exact ⟨rfl, rfl, rfl, rfl⟩

/-- A returning result of one scalar register writes it where it is still owed. -/
theorem returnRes_g {t : Thread} {d : Fin 16} {x : Word} (hv : r.vals = [.g d x]) :
    (returnRes t r).g = (if r.dst.contains (.g d) then t.g.set d x else t.g) ∧
    (returnRes t r).res = t.res.filter (fun q => q.id != r.id) ∧ (returnRes t r).evt = t.evt &&& ~~~r.evt ∧
    (returnRes t r).view = (r.join.map t.view.join).getD t.view := by
  obtain ⟨hg, hres, hevt, hview⟩ := returnRes_fields t r
  rw [hg, hres, hevt, hview, hv]
  have hfold : [RegW.g d x].foldl (fun t w => if r.dst.contains w.reg then applyW t w else t) t =
      if r.dst.contains (.g d) then { t with g := t.g.set d x } else t := rfl
  rw [hfold]
  split <;> exact ⟨rfl, rfl, rfl, rfl⟩

end Return

/-! #### Requests (R408, R162, R358) -/

section Request

variable {tk rid : Nat} {s : State} {r : Res} {q : Req} {cc : CoreCtx}

theorem remoteRequest_none (hq : requestOf s tk rid = none) : exec (.remoteRequest tk rid) s = .next s := by
  show execRemoteRequest tk rid s = _
  simp only [execRemoteRequest, hq]

theorem remoteRequest_some (hq : requestOf s tk rid = some (r, q)) : exec (.remoteRequest tk rid) s =
    .next (if inPort s tk r then later s 1 (.remoteRequest tk rid) else performRequest s tk rid r q) := by
  show execRemoteRequest tk rid s = _
  simp only [execRemoteRequest, hq]

theorem remoteRequest_performs (hq : requestOf s tk rid = some (r, q)) (hp : inPort s tk r = false) :
    exec (.remoteRequest tk rid) s = .next (performRequest s tk rid r q) := by
  rw [remoteRequest_some hq, hp]
  rfl

theorem atCore0_eq {c : Nat} {eff : Nat → State → State} (hcc : getCC s c 0 = some cc) :
    atCore0 s c tk rid eff = atCC s c 0 cc tk rid (.remoteRequest tk rid) (eff cc.phys) := by
  simp only [atCore0, hcc]

theorem atCC_away {c l : Nat} {i : Instr} {eff : State → State} (hc : cc.cst ≠ .resident) :
    atCC s c l cc tk rid i eff = holdAt s c l i := if_pos hc

/-- A request that arrives where its core context was before it moved. -/
theorem atCC_moved {c l k : Nat} {i : Instr} {eff : State → State} (hc : cc.cst = .resident)
    (hr : findRes (getT s tk) rid = some r) (hs : r.sentTo = some k) (hk : k ≠ cc.phys) (hcomp : isCompute k = true) :
    atCC s c l cc tk rid i eff = if forwards s k c l then
        later (modT s tk fun t => modRes t rid fun r => { r with sentTo := some cc.phys }) (coreLat s k cc.phys) i
      else later (modT s tk fun t => modRes t rid fun r => { r with sentTo := none }) 0 (.messageDrop tk rid c) := by
  have hfrom : ((findRes (getT s tk) rid).bind (·.sentTo)).getD cc.phys = k := by
    rw [hr, Option.bind_some, hs, Option.getD_some]
  simp only [atCC, hc, ne_eq, not_true_eq_false, if_false, hfrom, hk, hcomp, Bool.not_true, Bool.false_eq_true, or_self]

/-- A request that arrives at its core context performs there. -/
theorem atCC_here {c l : Nat} {i : Instr} {eff : State → State} (hc : cc.cst = .resident)
    (hr : findRes (getT s tk) rid = some r) (hs : r.sentTo.getD cc.phys = cc.phys) :
    atCC s c l cc tk rid i eff = eff s := by
  refine atCC_runs hc hr ?_
  cases hsent : r.sentTo with
  | none => exact .inl rfl
  | some k =>
    rw [hsent, Option.getD_some] at hs
    exact .inr (congrArg some hs)

end Request

/-! #### Monitors and timeouts (R123, R182 to R190) -/

section Waits

variable {tk rid : Nat} {s : State} {r : Res}

theorem monitorNotice_stale {dest line : Nat} (hh : hereFor s (msgSlot dest) (msgStamp dest) = false) :
    exec (.monitorNotice dest line) s = .next (countDrop s (msgStamp dest / 256)) := by
  show execMonitorNotice dest line s = _
  simp only [execMonitorNotice, hh, Bool.not_false, if_true]

theorem monitorNotice_here {dest line : Nat} (hh : hereFor s (msgSlot dest) (msgStamp dest) = true) :
    exec (.monitorNotice dest line) s = .next (
      if (monOf (getT (latch s (msgSlot dest) evMWR) (msgSlot dest)) line).all fun m =>
          m.written && m.armed == msgArm dest then
        (waitsWhere (getT (latch s (msgSlot dest) evMWR) (msgSlot dest)) (· == .mwait line)).foldl
          (fun s r => endWait (modT s (msgSlot dest) fun t => disarm t line) (msgSlot dest) r.id
              (valsOf r.dst 0 true) evMWR none 0)
          (latch s (msgSlot dest) evMWR)
      else latch s (msgSlot dest) evMWR) := by
  show execMonitorNotice dest line s = _
  simp only [execMonitorNotice, hh, Bool.not_true, Bool.false_eq_true, if_false]

theorem waitTimeout_gone (hr : findRes (getT s tk) rid = none) (last : Nat) :
    exec (.waitTimeout tk rid last) s = .next s := by
  show execWaitTimeout tk rid last s = _
  simp only [execWaitTimeout, hr]

variable (hr : findRes (getT s tk) rid = some r)
include hr

theorem waitTimeout_first : exec (.waitTimeout tk rid 0) s = .next (atClockEnd s (.waitTimeout tk rid 1)) := by
  show execWaitTimeout tk rid 0 s = _
  simp only [execWaitTimeout, hr, if_true]

theorem waitTimeout_end : exec (.waitTimeout tk rid 1) s = .next (timeoutNow s tk r) := by
  show execWaitTimeout tk rid 1 s = _
  simp only [execWaitTimeout, hr] <;> rfl

theorem waitTimeout_event : exec (.waitTimeout tk rid 2) s = .next (eventNow s tk r) := by
  show execWaitTimeout tk rid 2 s = _
  simp only [execWaitTimeout, hr] <;> rfl

omit hr

theorem timeoutNow_park (hw : r.wait = .park) :
    timeoutNow s tk r = if (getT s tk).evt = 0 then latch s tk evTMO else s := by
  simp only [timeoutNow, hw]

theorem eventNow_park (hw : r.wait = .park) : eventNow s tk r = if (getT s tk).evt = 0 then s
    else endWait s tk r.id (valsOf r.dst ((getT s tk).evt.setWidth 64) true) (getT s tk).evt none 1 := by
  simp only [eventNow, hw]

theorem timeoutNow_mwait {line : Nat} {m : Mon} (hw : r.wait = .mwait line) (hm : monOf (getT s tk) line = some m) :
    timeoutNow s tk r = if m.written then s
      else finishWait (modT s tk fun t => disarm t line) tk r.id (valsOf r.dst 0 false) evTMO none 1 := by
  simp only [timeoutNow, hw, hm]

theorem eventNow_mwait {line : Nat} (hw : r.wait = .mwait line) : eventNow s tk r =
    if (getT s tk).ghosts.any fun m => m.line == line && m.written then
      modT s tk fun t => { t with ghosts := t.ghosts.filter fun m => m.line != line }
    else endWait (modT s tk fun t => { t with ghosts := t.ghosts.filter fun m => m.line != line }) tk r.id
      (valsOf r.dst 0 false) evMDSP none 1 := by
  simp only [eventNow, hw]

theorem timeoutNow_bar {set : Nat} (hw : r.wait = .bar set) : timeoutNow s tk r =
    if (barAt s (getT s tk).ctx set).full.isSome then s
    else finishWait (setBar s (getT s tk).ctx set { barAt s (getT s tk).ctx set with
      arrived := (barAt s (getT s tk).ctx set).arrived.filter (· != tk) }) tk r.id
          (valsOf r.dst 0 false) evTMO none 1 := by
  simp only [timeoutNow, hw]

theorem timeoutNow_bwait {loc : Nat} (hw : r.wait = .bwait loc) : timeoutNow s tk r =
    finishWait { s with bwaits := s.bwaits.filter fun e => e != (loc, tk, r.id) } tk r.id
        (valsOf r.dst 0 false) evTMO none 1 := by
  simp only [timeoutNow, hw]

end Waits

/-! #### Lines, MAPEVTs and interrupts (R36, R103, R407) -/

section Boundaries

variable {tk : Nat} {s : State}

theorem fetchRefetch_other (hb : (getT s tk).block ≠ .refetch) : exec (.fetchRefetch tk) s = .next s := by
  show execFetchRefetch tk s = _
  rw [execFetchRefetch]
  exact congrArg _ (if_pos hb)

/-- What a second read of the line finds. -/
theorem fetchRefetch_again (hb : (getT s tk).block = .refetch) : exec (.fetchRefetch tk) s = .next (
    match fetchAccess s tk (lineAddr (getT s tk).pc) with
    | .ok loc =>
      if parityOk (readLine s 1 (getT s tk).view (locsFrom loc 64)) then setT s tk { getT s tk with block := .free }
      else takeTrap (setT s tk { getT s tk with block := .free }) tk
        { cause := cFETCHPAR, tval := w64 (lineAddr (getT s tk).pc), epc := (getT s tk).pc }
    | _ => setT s tk { getT s tk with block := .free }) := by
  show execFetchRefetch tk s = _
  rw [execFetchRefetch]
  exact congrArg _ (if_neg (not_not_intro hb))

/-- The thread that a MAPEVT finds: woken where it is parked. -/
def woken (s : State) (tk : Nat) : Thread :=
    if parked (getT s tk) then breakWaits (getT (unhold s tk) tk) else getT (unhold s tk) tk

theorem mapevtTake_idle (hm : (getT s tk).mapevt = false) (hh : (getT s tk).mheld = false ∨ (getT s tk).inh = true) :
    exec (.mapevtTake tk) s = .next s := by
  have hno : ((getT s tk).mheld && !(getT s tk).inh) = false := by
    rcases hh with h | h <;> rw [h] <;> simp
  show execMapevtTake tk s = _
  simp only [execMapevtTake, hm, hno, Bool.not_false, Bool.and_true, if_true]

theorem mapevtTake_stale (hm : (getT s tk).mapevt = false) (hh : (getT s tk).mheld = true)
    (hi : (getT s tk).inh = false)
    (hv : (ctxD s (getT s tk).ctx).mapvec.toNat ≤ (ctxD s (getT s tk).ctx).ackv.toNat) :
    exec (.mapevtTake tk) s = .next (setT s tk { getT s tk with mheld := false }) := by
  have hno : decide ((ctxD s (getT s tk).ctx).ackv.toNat < (ctxD s (getT s tk).ctx).mapvec.toNat) = false :=
    decide_eq_false (Nat.not_lt.mpr hv)
  show execMapevtTake tk s = _
  rw [execMapevtTake]
  exact congrArg _ ((if_neg (by rw [hm, hh, hi]; decide)).trans (if_pos (by rw [hm, hno]; rfl)))

variable (hm : (getT s tk).mapevt = true)
include hm

theorem mapevtTake_inHandler (hi : (getT s tk).inh = true) :
    exec (.mapevtTake tk) s = .next (setT s tk { getT s tk with mapevt := false, mheld := true }) := by
  show execMapevtTake tk s = _
  rw [execMapevtTake]
  exact congrArg _ ((if_neg (by rw [hm]; simp)).trans ((if_neg (by rw [hm]; simp)).trans (if_pos hi)))

variable (hi : (getT s tk).inh = false)
include hi

theorem mapevtTake_waits (hh : (getT s tk).held.isSome = true ∨ frameless s (getT s tk) = true) :
    exec (.mapevtTake tk) s = .next s := by
  show execMapevtTake tk s = _
  rw [execMapevtTake]
  exact congrArg _ ((if_neg (by rw [hm]; simp)).trans
      ((if_neg (by rw [hm]; simp)).trans ((if_neg (by rw [hi]; simp)).trans
    (if_pos (Bool.or_eq_true_iff.mpr hh)))))

theorem mapevtTake_takes (hh : (getT s tk).held = none) (hf : frameless s (getT s tk) = false) :
    exec (.mapevtTake tk) s = .next (
      if (woken s tk).block ≠ .free ∨ (woken s tk).trapP.isSome ∨ checkDue (woken s tk) then unhold s tk
      else takeMapevt (setT (unhold s tk) tk (woken s tk)) tk) := by
  show execMapevtTake tk s = _
  rw [execMapevtTake]
  exact congrArg _ ((if_neg (by rw [hm]; simp)).trans
      ((if_neg (by rw [hm]; simp)).trans ((if_neg (by rw [hi]; simp)).trans
    (if_neg (Bool.eq_false_iff.mp (by rw [hh, hf]; rfl))))))

end Boundaries

theorem interruptTake_eq {tk n : Nat} {s : State} {t : Thread} (ht : mget s.threads tk = some t)
    (hp : lowestPend s (coreOf tk) = some n) : exec (.interruptTake tk) s = .next (
      if isCompute (coreOf tk) ∨ t.inh ∨ t.tvec = 0 ∨ !atBoundary t ∨ checkDue (breakPark t) then s
      else takeTrap (setT (clearPend s (coreOf tk) n) tk (breakPark t)) tk
        { cause := BitVec.ofNat 8 (0x40 + n), tval := intTval s (coreOf tk) n, epc := (breakPark t).pc }) := by
  show execInterruptTake tk s = _
  simp only [execInterruptTake, ht, hp]

/-! #### Answers of targets that are gone (R45) -/

section Rehash

variable {tk rid : Nat} {s : State} {r : Res} {q : Req}

theorem rehashReply_none (hq : requestOf s tk rid = none) : exec (.rehashReply tk rid) s = .next s := by
  show execRehashReply tk rid s = _
  simp only [execRehashReply, hq]

theorem rehashReply_lost {cause : BitVec 8} {ver : Word} (hq : requestOf s tk rid = some (r, q))
    (hl : lostAnswer s (getT s tk).ctx (coreOf tk) r q = some (cause, ver)) :
    exec (.rehashReply tk rid) s = .next (later
      (modT s tk fun t => modRes t rid fun r =>
        { r with vals := [], wait := .none, lost := some (cause == cMAPSTALE, ver) }) 0 (.resultReturn tk rid)) := by
  show execRehashReply tk rid s = _
  simp only [execRehashReply, hq, hl]

theorem rehashReply_again (hq : requestOf s tk rid = some (r, q))
    (hl : lostAnswer s (getT s tk).ctx (coreOf tk) r q = none) : exec (.rehashReply tk rid) s = .next (
      let s1 := adoptGen s (getT s tk).ctx (coreOf tk)
      later s1 (latency s1.cmap (routerOf (coreOf tk))
          (homeRouter s1 (genFor s1 (getT s tk).ctx (coreOf tk)) (q.locs.headD 0)))
        (.remoteRequest tk rid)) := by
  show execRehashReply tk rid s = _
  simp only [execRehashReply, hq, hl]

end Rehash

/-- Settles O47: each step at a thread by its equation above. -/
theorem threadEvents : Obligations.ThreadEvents := by
  refine ⟨fun tk rid s => ⟨fun k r hk hr => ⟨fun h d c hw => resultReturn_get hk hr hw,
      fun hw => ⟨fun hch => ?_, fun p hch => ?_⟩⟩,
      fun hk => ⟨resultReturn_frame hk, fun hf => ⟨fun hgone => ?_, fun hs hlt => ?_⟩⟩⟩,
    fun t r d x hv => returnRes_g hv,
    fun tk rid s => ⟨remoteRequest_none, fun r q hq => ⟨fun hp => ?_, remoteRequest_performs hq⟩, fun r cc hp hcc =>
      ⟨fun acked hq => ⟨fun hc => ?_, fun k hc hs hk hcomp => ⟨fun hfw => ?_, fun hfw => ?_⟩, fun ⟨_, hc, hs⟩ => ?_⟩,
        fun n st rp ⟨hq, hc, hs⟩ => ?_⟩⟩,
    fun tk rid c s => ⟨rfl, rfl⟩,
    fun dest line s => ⟨monitorNotice_stale, fun hh => ⟨fun hmine => ?_, fun hmine => ?_⟩⟩,
    fun tk rid s => ⟨fun hr last => waitTimeout_gone hr last, fun r hr => ⟨waitTimeout_first hr,
      fun hw => ⟨fun he => ⟨?_, ?_⟩, fun he => ⟨?_, ?_⟩⟩, fun line hw => ⟨fun m hm => ⟨fun hwr => ?_, fun hwr => ?_⟩,
        fun hc => ?_, fun hc => ?_⟩, fun set hw => ⟨fun hfull => ?_, fun hfull => ?_⟩, fun loc hw => ?_⟩⟩,
    fun tk s => ⟨fetchRefetch_other, fun hb => ⟨fun loc hl => ⟨fun hp => ?_, fun hp => ?_⟩, fun hl => ?_⟩⟩,
    fun tk s => ⟨mapevtTake_idle, mapevtTake_stale, mapevtTake_inHandler, mapevtTake_waits,
      fun hm hi hh hf => ⟨fun hb ht hd => ?_, fun hno => ?_⟩⟩,
    fun tk n s t ht hp => ⟨fun hc hi hv hb hd => ?_, fun hno => ?_⟩,
    fun tk rid s => ⟨rehashReply_none, fun r q hq => ⟨fun cause ver hl => rehashReply_lost hq hl,
        rehashReply_again hq⟩⟩⟩
  · rw [resultReturn_settles hk hr hw, hch]
  · rw [resultReturn_settles hk hr hw, hch]
  · rw [resultReturn_unawaited hk hf]
    refine congrArg _ (if_pos ?_)
    rw [Bool.or_eq_true_iff, Option.isNone_iff_eq_none, decide_eq_true_iff]
    exact hgone
  · rw [resultReturn_unawaited hk hf]
    refine congrArg _ (if_neg ?_)
    rw [Bool.or_eq_true_iff, Option.isNone_iff_eq_none, decide_eq_true_iff, not_or]
    exact ⟨Option.isSome_iff_ne_none.mp hs, Nat.not_le.mpr hlt⟩
  · rw [remoteRequest_some hq, hp]
    rfl
  · rw [remoteRequest_performs hq hp, performRequest, atCore0_eq hcc, atCC_away hc]
  · rw [remoteRequest_performs hq hp, performRequest, atCore0_eq hcc,
      atCC_moved hc (findRes_of_requestOf hq) hs hk hcomp,
      if_pos hfw]
  · rw [remoteRequest_performs hq hp, performRequest, atCore0_eq hcc,
      atCC_moved hc (findRes_of_requestOf hq) hs hk hcomp,
      if_neg (Bool.eq_false_iff.mp hfw)]
  · rw [remoteRequest_performs hq hp, performRequest, atCore0_eq hcc, atCC_here hc (findRes_of_requestOf hq) hs, answer]
  · rw [remoteRequest_performs hq hp, performRequest, atCore0_eq hcc, atCC_here hc (findRes_of_requestOf hq) hs, answer]
  · rw [monitorNotice_here hh]
    exact congrArg _ (if_pos hmine)
  · rw [monitorNotice_here hh]
    exact congrArg _ (if_neg (Bool.eq_false_iff.mp hmine))
  · rw [waitTimeout_end hr, timeoutNow_park hw, if_pos he]
  · rw [waitTimeout_event hr, eventNow_park hw, if_pos he]
  · rw [waitTimeout_end hr, timeoutNow_park hw, if_neg he]
  · rw [waitTimeout_event hr, eventNow_park hw, if_neg he]
  · rw [waitTimeout_end hr, timeoutNow_mwait hw hm, if_pos hwr]
  · rw [waitTimeout_end hr, timeoutNow_mwait hw hm, if_neg (Bool.eq_false_iff.mp hwr)]
  · rw [waitTimeout_event hr, eventNow_mwait hw]
    exact congrArg _ (if_pos hc)
  · rw [waitTimeout_event hr, eventNow_mwait hw]
    exact congrArg _ (if_neg (Bool.eq_false_iff.mp hc))
  · rw [waitTimeout_end hr, timeoutNow_bar hw]
    exact congrArg _ (if_pos hfull)
  · rw [waitTimeout_end hr, timeoutNow_bar hw]
    exact congrArg _ (if_neg (Bool.eq_false_iff.mp hfull))
  · rw [waitTimeout_end hr, timeoutNow_bwait hw]
  · rw [fetchRefetch_again hb, hl]
    exact congrArg _ (if_pos hp)
  · rw [fetchRefetch_again hb, hl]
    exact congrArg _ (if_neg (Bool.eq_false_iff.mp hp))
  · rw [fetchRefetch_again hb]
    refine congrArg _ ?_
    split
    · next loc heq => exact absurd heq (hl loc)
    · rfl
  · rw [mapevtTake_takes hm hi hh hf]
    refine congrArg _ (if_neg (not_or.mpr ⟨not_not_intro hb, not_or.mpr ⟨?_, Bool.eq_false_iff.mp hd⟩⟩))
    exact fun hsome => Option.isSome_iff_ne_none.mp hsome ht
  · rw [mapevtTake_takes hm hi hh hf]
    exact congrArg _ (if_pos hno)
  · rw [interruptTake_eq ht hp, if_neg (by rw [hc, hi, hb, hd]; simpa using hv)]
  · rw [interruptTake_eq ht hp, if_pos (by simpa using hno)]

end Sys2Proof.Proofs

/-! ### The device's steps at the slots (R71 to R75, R84, R85, R300 to R307, R352, R353) -/

namespace Sys2Proof.Proofs

open Sys2Proof.Machine Sys2Proof.Slice0 Sys2Proof.Laws

/-! #### SPAWN's request (R71, R84) -/

section Spawn

variable {tk rid : Nat} {s : State} {ch : Thread} {cc : CoreCtx}

/-- The answer to a SPAWN. -/
def spawnReply (tk rid phys : Nat) (s : State) (ok : Bool) : State :=
  later (modT s tk fun t => modRes t rid fun r => { r with vals := valsOf r.dst 0 ok, wait := .none })
    (coreLat s phys (coreOf tk)) (.resultReturn tk rid)

/-- A child that is to be placed at its core context. -/
def spawnAt (tk rid : Nat) (ch : Thread) (phys : Nat) (s : State) : State :=
  match if migrantWaits s phys ch.ctx then none else openSlot s phys ch.ctx ch.lcore with
  | some k => spawnReply tk rid phys (placeThread { s with spawns := mdel s.spawns rid } k ch) true
  | none => spawnReply tk rid phys (later { s with spawns := mdel s.spawns rid } 0
      (.chainFold ch.ctx (65536 + phys))) false

theorem spawnRequest_gone (hch : mget s.spawns rid = none) : exec (.spawnRequest tk rid) s = .next s := by
  show execSpawnRequest tk rid s = _
  simp only [execSpawnRequest, hch]

theorem spawnRequest_nowhere (hch : mget s.spawns rid = some ch) (hcc : getCC s ch.ctx ch.lcore = none) :
    exec (.spawnRequest tk rid) s = .next { s with spawns := mdel s.spawns rid } := by
  show execSpawnRequest tk rid s = _
  simp only [execSpawnRequest, hch, hcc]

theorem spawnRequest_at (hch : mget s.spawns rid = some ch) (hcc : getCC s ch.ctx ch.lcore = some cc) :
    exec (.spawnRequest tk rid) s =
      .next (atCC s ch.ctx ch.lcore cc tk rid (.spawnRequest tk rid) (spawnAt tk rid ch cc.phys)) := by
  show execSpawnRequest tk rid s = _
  simp only [execSpawnRequest, hch, hcc]
  refine congrArg (fun eff => Host.Outcome.next (atCC s ch.ctx ch.lcore cc tk rid _ eff)) (funext fun s => ?_)
  rw [spawnAt]
  cases (if migrantWaits s cc.phys ch.ctx then none else openSlot s cc.phys ch.ctx ch.lcore) <;> rfl

theorem atCC_arrived {c l : Nat} {i : Instr} {eff : State → State} (hc : cc.cst = .resident)
    (hs : ((findRes (getT s tk) rid).bind (·.sentTo)).getD cc.phys = cc.phys) : atCC s c l cc tk rid i eff = eff s := by
  simp only [atCC, hc, ne_eq, not_true_eq_false, if_false, hs, true_or, if_true]

theorem spawnAt_room {k phys : Nat} (hm : migrantWaits s phys ch.ctx = false)
    (ho : openSlot s phys ch.ctx ch.lcore = some k) : spawnAt tk rid ch phys s =
      spawnReply tk rid phys (placeThread { s with spawns := mdel s.spawns rid } k ch) true := by
  simp only [spawnAt, hm, Bool.false_eq_true, if_false, ho]

theorem spawnAt_full {phys : Nat} (hno : migrantWaits s phys ch.ctx = true ∨ openSlot s phys ch.ctx ch.lcore = none) :
    spawnAt tk rid ch phys s = spawnReply tk rid phys
      (later { s with spawns := mdel s.spawns rid } 0 (.chainFold ch.ctx (65536 + phys))) false := by
  have hslot : (if migrantWaits s phys ch.ctx then none else openSlot s phys ch.ctx ch.lcore) = none := by
    rcases hno with h | h
    · rw [if_pos h]
    · rw [h, ite_self]
  simp only [spawnAt, hslot]

end Spawn

/-! #### Discards and scrubs (R352) -/

section Discard

variable {tk a b : Nat} {s : State} {t : Thread}

/-- The state after a discard and its MEMERR task. -/
def discarded2 (s : State) (tk a b : Nat) (t : Thread) : State :=
  pushTask (discardThread s tk) (dieOf (routerOf (coreOf tk)))
    { code := 0x32, g1 := w64 (t.ctx + coreOf tk % 4096 * 65536), g2 := w64 a, g3 := w64 b }

theorem uncorrectable_eq (ht : mget s.threads tk = some t) : exec (.uncorrectableConsumed tk a b) s = .next (
    if (slotAt s tk).occ ≠ .used ∨ dying s t.ctx then s
    else if isCompute (coreOf tk) ∨ 4 ≤ coreOf tk - 0x800 then discarded2 s tk a b t
    else later (setQuad (discarded2 s tk a b t) (coreOf tk - 0x800)
          { quadAt (discarded2 s tk a b t) (coreOf tk - 0x800) with
      task := (quadAt (discarded2 s tk a b t) (coreOf tk - 0x800)).task.map fun k => { k with ended := some 0x80 } }) 1
      (.taskStart (coreOf tk - 0x800))) := by
  show execUncorrectableConsumed tk a b s = _
  rw [execUncorrectableConsumed, ht] <;> rfl

theorem uncorrectable_discards (ht : mget s.threads tk = some t) (hu : (slotAt s tk).occ = .used)
    (hd : dying s t.ctx = false) :
    exec (.uncorrectableConsumed tk a b) s = .next (
      if isCompute (coreOf tk) ∨ 4 ≤ coreOf tk - 0x800 then discarded2 s tk a b t
      else later (setQuad (discarded2 s tk a b t) (coreOf tk - 0x800)
          { quadAt (discarded2 s tk a b t) (coreOf tk - 0x800) with
        task := (quadAt (discarded2 s tk a b t) (coreOf tk - 0x800)).task.map fun k =>
          { k with ended := some 0x80 } }) 1
        (.taskStart (coreOf tk - 0x800))) := by
  rw [uncorrectable_eq ht, if_neg (not_or.mpr ⟨not_not_intro hu, Bool.eq_false_iff.mp hd⟩)]

theorem slotScrubComplete_other (ho : (slotAt s tk).occ ≠ .scrub) : exec (.slotScrubComplete tk) s = .next s := by
  show execSlotScrubComplete tk s = _
  rw [execSlotScrubComplete]
  exact congrArg _ (if_pos ho)

theorem slotScrubComplete_frees (ho : (slotAt s tk).occ = .scrub) : exec (.slotScrubComplete tk) s = .next (
    if coreOf tk = 0x804 then placeThread (freeSlot s tk) tk (firmwareThread (freeSlot s tk) (coreOf tk))
    else if !isCompute (coreOf tk) then later (freeSlot s tk) 1 (.taskStart (coreOf tk - 0x800))
    else if (slotAt s tk).ctx = 0 then freeSlot s tk
    else checkLast (checkBars (freeSlot s tk) (slotAt s tk).ctx) (slotAt s tk).ctx) := by
  show execSlotScrubComplete tk s = _
  rw [execSlotScrubComplete]
  exact congrArg _ (if_neg (not_not_intro ho))

end Discard

/-! #### Walks (R300 to R304) -/

section Walks

variable {tk : Nat} {s : State}

theorem tlbWalk_gone (hw : (clusterAt s (coreOf tk / 8)).walks.find? (fun w => w.1 == tk) = none) :
    exec (.tlbWalk tk) s = .next s := by
  show execTlbWalk tk s = _
  simp only [execTlbWalk, hw]

theorem tlbWalk_ends {k c va : Nat} (hw : (clusterAt s (coreOf tk / 8)).walks.find?
    (fun w => w.1 == tk) = some (k, c, va)) :
    exec (.tlbWalk tk) s = .next (freeWalker ((walkers s (coreOf tk / 8) c (pageOf va)).foldl endWalk
      (fillFrom s (coreOf tk / 8) c va)) (coreOf tk / 8) (k, c, va)) := by
  show execTlbWalk tk s = _
  simp only [execTlbWalk, hw]

theorem fillFrom_ok {cl c va pa : Nat} {w x cow : Bool}
    (hw : walk (countCorrected s (walkReads s c va)) c va = .ok pa w x cow) : fillFrom s cl c va =
      tlbFill (countCorrected s (walkReads s c va)) cl
          (entryOf (countCorrected s (walkReads s c va)) c va pa w x cow) := by
  simp only [fillFrom, hw]

theorem fillFrom_none {cl c va : Nat}
    (hw : ∀ pa w x cow, walk (countCorrected s (walkReads s c va)) c va ≠ .ok pa w x cow) :
    fillFrom s cl c va = countCorrected s (walkReads s c va) := by
  cases hcase : walk (countCorrected s (walkReads s c va)) c va with
  | ok pa w x cow => exact absurd hcase (hw pa w x cow)
  | fault _ => simp only [fillFrom, hcase]
  | second => simp only [fillFrom, hcase]
  | poison _ => simp only [fillFrom, hcase]

end Walks

/-! #### Migration (R74, R75, R85) -/

section Migrants

variable {tk l k core : Nat} {s : State} {cc : CoreCtx}

theorem migrantArrive_eq (hb : (getT s tk).block = .leaving l k) (hcc : getCC s (getT s tk).ctx l = some cc) :
    exec (.migrantArrive tk) s = .next (
      if cc.cst ≠ .resident then holdAt s (getT s tk).ctx l (.migrantArrive tk)
      else if k ≠ cc.phys then
        later (setT s tk { getT s tk with block := .leaving l cc.phys })
            (recLatency s.cmap (routerOf k) (routerOf cc.phys))
          (.migrantArrive tk)
      else if (coreAt s cc.phys).inbox.length < 16 then
        later (later (checkBars (setT (setCore s cc.phys { coreAt s cc.phys with
            inbox := (coreAt s cc.phys).inbox ++
              [{ src := tk, th := { getT s tk with block := .free, lcore := l }, acc := true }] })
          tk (ghost l k)) (getT s tk).ctx) (coreLat s cc.phys (coreOf tk)) (.migrantAccepted (addressOf s tk))) 0
          (.inboxAdmit cc.phys)
      else later s (64 * ceilDiv (recLatency s.cmap (routerOf (coreOf tk)) (routerOf cc.phys) +
          coreLat s cc.phys (coreOf tk)) 64 -
        recLatency s.cmap (routerOf (coreOf tk)) (routerOf cc.phys)) (.migrantRetry tk)) := by
  show execMigrantArrive tk s = _
  simp only [execMigrantArrive, hb, hcc]

theorem migrantRetry_leaves (hb : (getT s tk).block = .leaving l k) : exec (.migrantRetry tk) s =
    .next (later s (recLatency s.cmap (routerOf (coreOf tk)) (routerOf k)) (.migrantArrive tk)) := by
  show execMigrantRetry tk s = _
  simp only [execMigrantRetry, hb]

theorem migrantAccepted_eq {dest : Nat} {t : Thread} (ht : mget s.threads (msgSlot dest) = some t)
    (hb : t.block = .leaving l k) : exec (.migrantAccepted dest) s = .next (
      if t.ctx = 0 ∧ (slotAt s (msgSlot dest)).past.head?.any (fun e => e.2 == msgStamp dest / 256) ∧
          (slotAt s (msgSlot dest)).gen.toNat = msgStamp dest % 256 then freeSlot s (msgSlot dest)
      else s) := by
  show execMigrantAccepted dest s = _
  simp only [execMigrantAccepted, ht, hb]

theorem inboxAdmit_takes {m : Mig} {rest : List Mig}
    (htake : takeFirst (fun m => (openSlot s core m.th.ctx m.th.lcore).isSome) (coreAt s core).inbox = some (m, rest))
    (ho : openSlot s core m.th.ctx m.th.lcore = some k) : exec (.inboxAdmit core) s = .next (
      if rest = [] then placeThread (setCore s core { coreAt s core with inbox := rest }) k
          { m.th with idemPc := m.th.pc }
      else later (placeThread (setCore s core { coreAt s core with inbox := rest }) k { m.th with idemPc := m.th.pc }) 0
        (.inboxAdmit core)) := by
  show execInboxAdmit core s = _
  simp only [execInboxAdmit, htake, ho]

theorem inboxAdmit_none
    (htake : takeFirst (fun m => (openSlot s core m.th.ctx m.th.lcore).isSome) (coreAt s core).inbox = none) :
    exec (.inboxAdmit core) s = .next ((coreAt s core).inbox.foldl (fun s m => askFolds s m.th.ctx core) s) := by
  show execInboxAdmit core s = _
  simp only [execInboxAdmit, htake]

end Migrants

/-! #### Tasks (R353) and the prefetcher (R306, R307) -/

section Tasks

variable {d : Nat} {s : State}

/-- The state once a task that has ended is settled. -/
def tasksSettled (s : State) (d : Nat) : State :=
  match (quadAt s d).task with
  | some k => (match k.ended with
    | some st => endTask s d k st
    | none => s)
  | none => s

theorem taskStart_eq : exec (.taskStart d) s = .next (
    if (quadAt (tasksSettled s d) d).task.isNone ∧ (mget (tasksSettled s d).threads (tkOf (0x800 + d) 0)).isNone then
      startTask (tasksSettled s d) d
    else tasksSettled s d) := rfl

theorem tasksSettled_ended {k : Task} {st : Nat} (hk : (quadAt s d).task = some k) (he : k.ended = some st) :
    tasksSettled s d = endTask s d k st := by
  simp only [tasksSettled, hk, he]

theorem tasksSettled_none (hk : (quadAt s d).task = none) : tasksSettled s d = s := by
  simp only [tasksSettled, hk]

theorem tasksSettled_running {k : Task} (hk : (quadAt s d).task = some k) (he : k.ended = none) :
    tasksSettled s d = s := by
  simp only [tasksSettled, hk, he]

end Tasks

section Prefetch

variable {c va e : Nat} {s : State} {q : Fetching}

/-- The state in which the prefetcher has taken a page's fetch from its list. -/
def fetchTaken (s : State) (c va : Nat) : State :=
  { s with fetches := s.fetches.filter fun f => !(f.ctx == c && f.page == pageOf va) }

/-- The pages of the span that the prefetcher wants, the faulting one first (R306). -/
def spanPages (s : State) (c va e : Nat) : List Nat :=
  let base := nbits e 119 80
  let p := pageOf va - base
  let m := nbits e 79 40 + 1
  let sp := prefetchSpan s e m p (nbits (ctxD s c).tpref.toNat 3 0) (nbits (ctxD s c).tpref.toNat 7 4) 1
  p :: ((List.range sp).map (p / sp * sp + ·)).filter fun k =>
    k != p && (decide (k < m) && nbits (pteAt s e k) 63 63 == 0 && nbits (pteAt s e k) 2 2 == 1)

theorem prefetch_wakes (hw : walk (fetchTaken s c va) c va ≠ .second) : exec (.prefetch c va) s =
    .next (wakeFaults (fetchTaken s c va) c fun page cause => page == pageOf va && cause == 0x30) := by
  show execPrefetch c va s = _
  cases hcase : walk (fetchTaken s c va) c va with
  | second => exact absurd hcase hw
  | ok _ _ _ _ =>
    simp only [fetchTaken] at hcase
    simp only [execPrefetch, hcase, fetchTaken]
  | fault _ =>
    simp only [fetchTaken] at hcase
    simp only [execPrefetch, hcase, fetchTaken]
  | poison _ =>
    simp only [fetchTaken] at hcase
    simp only [execPrefetch, hcase, fetchTaken]

theorem prefetch_span (hq : s.fetches.find? (fun f => f.ctx == c && f.page == pageOf va) = some q)
    (hw : walk (fetchTaken s c va) c va = .second) (he : pagedRange (fetchTaken s c va) c va = some e) :
    exec (.prefetch c va) s = .next (
      let s0 := fetchTaken s c va
      let base := nbits e 119 80
      let ks := spanPages s0 c va e
      let got := fetchPages c e base ks s0 0
      if shotWaits s0 (some c) (ks.map fun k => (base + k, 1)) then later s 1 (.prefetch c va)
      else if got.2 = 0 then taskFor s0 q.die c q.core va 0x30 (q.flags / 16 * 16 + 4)
      else pushTask
          (ks.foldl (fun s k => wakeFaults s c fun page cause => page == base + k && cause == 0x30) got.1) q.die
        { code := 0x20, g1 := w64 c, g2 := w64 (pageOf va * 65536), g3 := w64 got.2 }) := by
  show execPrefetch c va s = _
  simp only [fetchTaken] at hw he
  simp only [execPrefetch, hw, he, hq, Option.getD_some]
  rfl

end Prefetch

/-- Settles O48: each step at a slot by its equation above. -/
theorem slotEvents : Obligations.SlotEvents := by
  refine ⟨fun tk rid s => ⟨spawnRequest_gone, fun ch hch => ⟨spawnRequest_nowhere hch, fun cc hcc =>
      ⟨fun hc => ?_, fun hc hs => ⟨fun k hm ho => ?_, fun hno => ?_⟩⟩⟩⟩,
    fun tk a b s t ht => ⟨fun hno => ?_, fun hu hd => ⟨fun hc => ?_, fun d hc hcore hlt => ?_⟩⟩,
    fun tk s => ⟨tlbWalk_gone, fun k c va hm => ⟨fun pa w x cow hw => ?_, fun hw => ?_⟩⟩,
    fun tk l k s cc hb => ⟨fun hcc => ⟨fun hc => ?_, fun hc hk => ?_, fun hc hk hlen => ?_, fun hc hk hlen => ?_⟩,
      migrantRetry_leaves hb⟩,
    fun dest l k s t ht hb => ⟨fun hctx hm hg => ?_, fun hno => ?_⟩,
    fun core s => ⟨fun m rest k htake ho => ⟨fun hr => ?_, fun hr => ?_⟩, inboxAdmit_none⟩,
    fun tk s => ⟨slotScrubComplete_other, fun ho => ⟨fun hc => ?_, fun hc hn => ?_,
        fun hn hc => ⟨fun h0 => ?_, fun h0 => ?_⟩⟩⟩,
    fun d s => ⟨fun k st hk he => ⟨fun hq ht => ?_, fun hno => ?_⟩, fun hk => ⟨fun ht => ?_, fun ht => ?_⟩,
        fun k hk he => ?_⟩,
    fun c va s q hq => ⟨prefetch_wakes, fun e hw he => ?_⟩⟩
  · rw [spawnRequest_at hch hcc, atCC_away hc]
  · rw [spawnRequest_at hch hcc, atCC_arrived hc hs, spawnAt_room hm ho]
    rfl
  · rw [spawnRequest_at hch hcc, atCC_arrived hc hs, spawnAt_full hno]
    rfl
  · rw [uncorrectable_eq ht]
    exact congrArg _ (if_pos hno)
  · rw [uncorrectable_discards ht hu hd, if_pos (.inl hc)]
    rfl
  · have hquad : coreOf tk - 0x800 = d := by rw [show coreOf tk = 0x800 + d from hcore, Nat.add_sub_cancel_left]
    rw [uncorrectable_discards ht hu hd, hquad, if_neg (not_or.mpr ⟨Bool.eq_false_iff.mp hc, Nat.not_le.mpr hlt⟩)]
    rfl
  · rw [tlbWalk_ends hm, fillFrom_ok hw]
  · rw [tlbWalk_ends hm, fillFrom_none hw]
  · rw [migrantArrive_eq hb hcc, if_pos hc]
  · rw [migrantArrive_eq hb hcc, if_neg (not_not_intro hc), if_pos hk]
  · rw [migrantArrive_eq hb hcc, if_neg (not_not_intro hc), if_neg (not_not_intro hk), if_pos hlen]
  · rw [migrantArrive_eq hb hcc, if_neg (not_not_intro hc), if_neg (not_not_intro hk), if_neg (Nat.not_lt.mpr hlen)]
  · rw [migrantAccepted_eq ht hb]
    exact congrArg _ (if_pos ⟨hctx, hm, hg⟩)
  · rw [migrantAccepted_eq ht hb]
    refine congrArg _ (if_neg fun ⟨h1, h2, h3⟩ => ?_)
    rcases hno with h | h | h
    · exact h h1
    · exact Bool.eq_false_iff.mp h h2
    · exact h h3
  · rw [inboxAdmit_takes htake ho, if_pos hr]
  · rw [inboxAdmit_takes htake ho, if_neg hr]
  · rw [slotScrubComplete_frees ho, if_pos hc, hc]
  · rw [slotScrubComplete_frees ho, if_neg hc, hn]
    rfl
  · rw [slotScrubComplete_frees ho, if_neg hc, hn]
    exact congrArg _ (if_pos h0)
  · rw [slotScrubComplete_frees ho, if_neg hc, hn]
    exact congrArg _ (if_neg h0)
  · rw [taskStart_eq, tasksSettled_ended hk he,
      if_pos ⟨Option.isNone_iff_eq_none.mpr hq, Option.isNone_iff_eq_none.mpr ht⟩]
  · rw [taskStart_eq, tasksSettled_ended hk he]
    refine congrArg _ (if_neg fun ⟨h1, h2⟩ => ?_)
    rw [Option.isNone_iff_eq_none] at h1 h2
    rw [h1, h2] at hno
    exact Bool.false_ne_true hno
  · rw [taskStart_eq, tasksSettled_none hk, if_pos ⟨Option.isNone_iff_eq_none.mpr hk, Option.isNone_iff_eq_none.mpr ht⟩]
  · rw [taskStart_eq, tasksSettled_none hk,
      if_neg fun h => Option.isSome_iff_ne_none.mp ht (Option.isNone_iff_eq_none.mp h.2)]
  · rw [taskStart_eq, tasksSettled_running hk he, if_neg fun h => by
      rw [hk] at h
      exact Bool.false_ne_true h.1]
  · rw [prefetch_span hq hw he]
    exact ⟨fun hw => congrArg _ (if_pos hw), fun hw h0 => congrArg _
        ((if_neg (Bool.eq_false_iff.mp hw)).trans (if_pos h0)),
      fun hw h0 => congrArg _ ((if_neg (Bool.eq_false_iff.mp hw)).trans (if_neg h0))⟩

end Sys2Proof.Proofs

/-! ### Host accesses, barriers, links, doorbells and registers (R154, R186 to R190, R221, R378 to R381) -/

namespace Sys2Proof.Proofs

open Sys2Proof.Machine Sys2Proof.Slice0 Sys2Proof.Laws

/-! #### The host's paths (R154, R378) -/

section Host

variable {path off len n : Nat} {data : List Byte} {rest : List HostReq} {r : HostReq} {s : State}

theorem hostWrite_eq (hp : mgetD s.hpaths path [] = .write off data :: rest) : exec (.hostWrite path) s = .next (
    if !hostOpen s then { s with hpaths := mset s.hpaths path rest }
    else if hostPath s off ≠ path then
      pushHost { s with hpaths := mset s.hpaths path rest } (hostPath s off) (.write off data)
    else
      let n := lineHead off data.length
      let s2 := (sectorCells (((locsFrom off n).zip data).filter fun c => decide (c.1 < hbmBytes s.cmap))).foldl
        (fun s w => (append s w none).2) { s with hpaths := mset s.hpaths path rest }
      let s3 := restHost s2 path (off + n) (data.length - n) (.write (off + n) (data.drop n))
      if n < data.length then later s3 0 (.hostWrite (hostPath s (off + n))) else s3) := by
  show execHostWrite path s = _
  simp only [execHostWrite, hp]

theorem hostRead_eq (hp : mgetD s.hpaths path [] = .read off len :: rest) : exec (.hostRead path) s = .next (
    if hostOpen s && hostPath s off != path then
      pushHost { s with hpaths := mset s.hpaths path rest } (hostPath s off) (.read off len)
    else
      let n := lineHead off len
      let s2 := { { s with hpaths := mset s.hpaths path rest } with
        hreads := s.hreads ++ [(locsFrom off n).map (bar2Byte s)] }
      let s3 := restHost s2 path (off + n) (len - n) (.read (off + n) (len - n))
      if n < len then later s3 0 (.hostRead (hostPath s (off + n))) else s3) := by
  show execHostRead path s = _
  simp only [execHostRead, hp]

theorem hostRead_reg (hp : mgetD s.hpaths path [] = .reg off len :: rest) : exec (.hostRead path) s = .next
    { s with hpaths := mset s.hpaths path rest, hreads := s.hreads ++ [(locsFrom off len).map (bar0Byte s)] } := by
  show execHostRead path s = _
  simp only [execHostRead, hp]

/-- Nothing is left of a host access. -/
theorem restHost_done {left : Nat} (hl : left = 0) : restHost s path off left r = s := if_pos hl

end Host

/-! #### Barriers (R186, R189, R190, R262) -/

section Barrier

variable {c set loc n aid : Nat} {s : State} {a : Arrival}

theorem barRelease_eq : exec (.barRelease c set) s = .next (
    if (barAt s c set).full.isSome then
      latchSaved ((barAt s c set).arrived.foldl (fun s tk =>
        if (getT s tk).ctx = c then
          (waitsWhere (getT s tk) (· == .bar set)).foldl
            (fun s r => finishWait s tk r.id (valsOf r.dst 0 true) evBPH none 0) (latch s tk evBPH)
        else s) (setBar s c set { phase := !(barAt s c set).phase, arrived := [], full := none }))
        (fun key k _ => (barAt s c set).arrived.contains (savedKey (key / 4096) (key % 4096) k)) evBPH
    else s) := rfl

theorem barrierArrival_gone (ha : mget s.arrivals aid = none) : exec (.barrierArrival loc n aid) s = .next s := by
  show execBarrierArrival loc n aid s = _
  simp only [execBarrierArrival, ha]

theorem barrierArrival_eq (ha : mget s.arrivals aid = some a) : exec (.barrierArrival loc n aid) s = .next (
    if lostShare s loc then { s with arrivals := mdel s.arrivals aid }
    else if heldShare s loc then holdAt s (sramKey loc / 4096) (sramKey loc % 4096) (.barrierArrival loc n aid)
    else if sramCore s loc ≠ a.sentTo then
      later { s with arrivals := mset s.arrivals aid { a with sentTo := sramCore s loc } }
          (coreLat s a.sentTo (sramCore s loc))
        (.barrierArrival loc n aid)
    else if !a.late then
      atClockEnd { s with arrivals := mset s.arrivals aid { a with late := true } } (.barrierArrival loc n aid)
    else if arrivalWaits s loc a then atClockEnd s (.barrierArrival loc n aid)
    else arriveNow s loc aid a) := by
  show execBarrierArrival loc n aid s = _
  simp only [execBarrierArrival, ha]

/-- An arrival that is at its word's core. -/
theorem barrierArrival_come (ha : mget s.arrivals aid = some a) (hl : lostShare s loc = false)
    (hh : heldShare s loc = false)
    (hs : a.sentTo = sramCore s loc) : exec (.barrierArrival loc n aid) s = .next (
    if !a.late then atClockEnd { s with arrivals := mset s.arrivals aid { a with late := true } }
        (.barrierArrival loc n aid)
    else if arrivalWaits s loc a then atClockEnd s (.barrierArrival loc n aid)
    else arriveNow s loc aid a) := by
  rw [barrierArrival_eq ha, if_neg (Bool.eq_false_iff.mp hl), if_neg (Bool.eq_false_iff.mp hh),
      if_neg (not_not_intro hs.symm)]

/-- The state after an arrival has changed its word, and the flip's waiters have been woken. -/
def arrived (s : State) (loc aid : Nat) (a : Arrival) : Nat × State :=
  let w := arriveVal (barWord s loc) a.bytes
  let p := append { s with arrivals := mdel s.arrivals aid } ((locsFrom loc 8).zip (bytesLE 8 w.1)) none
  let s2 := { p.2 with
    rels := mset p.2.rels loc ((mgetD p.2.rels loc {}).join a.view)
    vers := mset p.2.vers loc (mgetD p.2.vers loc 0 + 1) }
  (p.1, if w.2 then flipWake s2 loc else s2)

theorem arriveNow_eq : arriveNow s loc aid a =
    match findRes (getT (arrived s loc aid a).2 a.tk) a.rid with
    | some _ =>
      let s4 := modT (arrived s loc aid a).2 a.tk fun t =>
        { t with view := t.view.raises (locsFrom loc 8) (arrived s loc aid a).1 }
      later s4 (if sramCore s loc = coreOf a.tk then 3 else awayLat s4 a.tk loc) (.resultReturn a.tk a.rid)
    | none => (arrived s loc aid a).2 := by
  unfold arriveNow arrived
  rcases arriveVal (barWord s loc) a.bytes with ⟨w, flip⟩
  rfl

theorem arriveNow_quiet (hr : findRes (getT (arrived s loc aid a).2 a.tk) a.rid = none) :
    arriveNow s loc aid a = (arrived s loc aid a).2 := by
  rw [arriveNow_eq, hr]

theorem arriveNow_acknowledged (hr : (findRes (getT (arrived s loc aid a).2 a.tk) a.rid).isSome = true) :
    arriveNow s loc aid a =
      let s4 := modT (arrived s loc aid a).2 a.tk fun t =>
        { t with view := t.view.raises (locsFrom loc 8) (arrived s loc aid a).1 }
      later s4 (if sramCore s loc = coreOf a.tk then 3 else awayLat s4 a.tk loc) (.resultReturn a.tk a.rid) := by
  obtain ⟨r, hr⟩ := Option.isSome_iff_exists.mp hr
  rw [arriveNow_eq, hr]

end Barrier

/-! #### Links (R221) -/

section Link

variable {c l e v : Nat} {s : State}

theorem linkValueArrive_nowhere (hcc : getCC s c l = none) : exec (.linkValueArrive c l e v) s = .next s := by
  show execLinkValueArrive c l e v s = _
  simp only [execLinkValueArrive, hcc]

theorem linkValueArrive_eq {cc : CoreCtx} (hcc : getCC s c l = some cc) : exec (.linkValueArrive c l e v) s = .next (
    if cc.cst ≠ .resident then holdLink s c l e v
    else serveLink 1 64 c l (e == 1) (setCC s c l (setLinkQ cc (e == 1) (linkQ cc (e == 1) ++ [w64 v])))) := by
  show execLinkValueArrive c l e v s = _
  simp only [execLinkValueArrive, hcc]

end Link

/-! #### Doorbells and registers (R379 to R381) -/

section Bell

variable {q v a : Nat} {s : State}

/-- The requests on the four paths. -/
def hostPaths (s : State) : List (List HostReq) := (List.range 4).map fun p => mgetD s.hpaths p []

/-- The head of every path is taken. -/
def dropHeads (s : State) : State :=
  (List.range 4).foldl (fun s p => { s with hpaths := mset s.hpaths p ((mgetD s.hpaths p []).drop 1) }) s

theorem doorbell_eq : exec (.doorbell q v) s = .next (
    if (hostPaths s).all (· == []) then ring s q v
    else if (hostPaths s).all fun l => l.head? == some (.bell q v) then ring (dropHeads s) q v
    else if (hostPaths s).all fun l => l.contains (.bell q v) then later s 1 (.doorbell q v)
    else later (pushBell s q v) 1 (.doorbell q v)) := rfl

/-- A doorbell that no earlier request holds rings. -/
theorem doorbell_rings {s1 : State} (hp : (hostPaths s).all (· == []) = true ∧ s1 = s ∨
    (hostPaths s).all (· == []) = false ∧
    (hostPaths s).all (fun l => l.head? == some (.bell q v)) = true ∧ s1 = dropHeads s) :
    exec (.doorbell q v) s = .next (ring s1 q v) := by
  rw [doorbell_eq]
  rcases hp with ⟨hall, rfl⟩ | ⟨hno, hheads, rfl⟩
  · rw [if_pos hall]
  · rw [if_neg (Bool.eq_false_iff.mp hno), if_pos hheads]

/-- The clocks by which a doorbell moves its queue's tail. -/
def bellStep (s : State) (q v : Nat) : Nat := (BitVec.ofNat 32 v - (qblkAt s q).tail).toNat

theorem ring_none (hno : hostOpen s = false ∨ (qblkAt s q).en = false ∨ (qblkAt s q).td ≠ 0 ∨ (qblkAt s q).err = true ∨
    8192 ≤ q ∨ bellStep s q v = 0 ∨ 2 ^ 31 ≤ bellStep s q v) : ring s q v = s := by
  unfold ring
  by_cases hsh : (!hostOpen s || !(qblkAt s q).en || (qblkAt s q).td != 0 || (qblkAt s q).err ||
      decide (8192 ≤ q)) = true
  · exact if_pos hsh
  · refine (if_neg hsh).trans (if_pos ?_)
    simp only [Bool.or_eq_true, Bool.not_eq_true', bne_iff_ne, decide_eq_true_eq, not_or] at hsh
    obtain ⟨⟨⟨⟨h1, h2⟩, h3⟩, h4⟩, h5⟩ := hsh
    rcases hno with h | h | h | h | h | h
    · exact absurd h h1
    · exact absurd h h2
    · exact absurd h h3
    · exact absurd h h4
    · exact absurd h h5
    · exact h

theorem ring_moves (h1 : hostOpen s = true) (h2 : (qblkAt s q).en = true) (h3 : (qblkAt s q).td = 0)
    (h4 : (qblkAt s q).err = false) (h5 : q < 8192) (h6 : bellStep s q v ≠ 0) (h7 : bellStep s q v < 2 ^ 31) :
    ring s q v = if 2 ^ (qblkAt s q).log2 < (BitVec.ofNat 32 v - (qblkAt s q).head).toNat then
        setQblk s q { qblkAt s q with err := true, errAt := some s.clock }
      else
        let d := takeDelay (raiseInt (setQblk s q { qblkAt s q with
          tail := BitVec.ofNat 32 v, marks := (qblkAt s q).marks ++ [((BitVec.ofNat 32 v).toNat, s.clock)] })
          (0x800 + (qblkAt s q).sc) 2) 65536
        later d.2 d.1 (.packetTake q) := by
  have hsh : (!hostOpen s || !(qblkAt s q).en || (qblkAt s q).td != 0 || (qblkAt s q).err ||
      decide (8192 ≤ q)) = false := by
    rw [h1, h2, h3, h4, decide_eq_false (Nat.not_le.mpr h5)]
    rfl
  unfold ring
  exact (if_neg (Bool.eq_false_iff.mp hsh)).trans (if_neg (not_or.mpr ⟨h6, Nat.not_le.mpr h7⟩))

theorem queueEnable_eq : exec (.queueEnable q) s = .next (
    if !hostOpen s || (qblkAt s q).en || decide (8192 ≤ q) then s
    else setQblk s q { qblkAt s q with en := true, head := 0, tail := 0, marks := [], td := 0 }) := rfl

theorem registerWrite_closed (ho : hostOpen s = false) : exec (.registerWrite a v) s = .next s := by
  show execRegisterWrite a v s = _
  simp only [execRegisterWrite, ho, Bool.not_false, if_true]

theorem registerWrite_eq (ho : hostOpen s = true) : exec (.registerWrite a v) s = .next (
    if 0x100000 ≤ a ∧ a < 0x180000 then writeQblk s ((a - 0x100000) / 64) (a % 64) (w64 v)
    else if 0x200000 ≤ a ∧ a < 0x210000 then
      later (pushBell s ((a - 0x200000) / 8) v) 0 (.doorbell ((a - 0x200000) / 8) v)
    else if 0x300000 ≤ a ∧ a < 0x302000 then writeGang s ((a - 0x300000) / 32) (a % 32) (w64 v)
    else s) := by
  show execRegisterWrite a v s = _
  simp only [execRegisterWrite, ho, Bool.not_true, Bool.false_eq_true, if_false]

end Bell

/-- Settles O49: each host and barrier step by its equation above. -/
theorem memoryAndHostEvents : Obligations.MemoryAndHostEvents := by
  refine ⟨fun path off data rest s hp => ⟨fun ho => ?_, fun ho hh => ?_, fun ho hh => ⟨fun hn => ?_, fun hn => ?_⟩⟩,
    fun path off len rest s => ⟨fun hp => ⟨fun ho hh => ?_, fun hno => ⟨fun hn => ?_, fun hn => ?_⟩⟩, hostRead_reg⟩,
    fun c set s => ⟨fun hf => ?_, fun hf => ?_⟩,
    fun loc n aid s => ⟨barrierArrival_gone, fun a ha => ⟨fun hl => ?_, fun hl hh => ?_, fun hl hh hs => ?_,
      fun ⟨hl, hh, hs⟩ hlate => ?_, fun ⟨hl, hh, hs⟩ hlate hw => ?_,
          fun ⟨hl, hh, hs⟩ hlate hw => ⟨fun hr => ?_, fun hr => ?_⟩⟩⟩,
    fun c l e v s => ⟨linkValueArrive_nowhere, fun cc hcc => ⟨fun hc => ?_, fun hc => ?_⟩⟩,
    fun q v s s1 => ⟨fun hp => ?_, fun hno hheads => ⟨fun hst => ?_, fun hst => ?_⟩⟩,
    fun q s => ⟨fun ho he hq => ?_, fun hno => ?_⟩,
    fun a v s => ⟨registerWrite_closed, fun ho => ⟨fun h1 h2 => ?_, fun h1 h2 => ?_, fun h1 h2 => ?_, fun hno => ?_⟩⟩⟩
  · rw [hostWrite_eq hp, ho]
    rfl
  · rw [hostWrite_eq hp, ho]
    exact congrArg _ (if_pos hh)
  · rw [hostWrite_eq hp, ho]
    exact congrArg _ ((if_neg (not_not_intro hh)).trans
        ((if_neg (Nat.not_lt.mpr hn)).trans (restHost_done (Nat.sub_eq_zero_of_le hn))))
  · rw [hostWrite_eq hp, ho]
    exact congrArg _ ((if_neg (not_not_intro hh)).trans (if_pos hn))
  · rw [hostRead_eq hp, if_pos (by rw [ho, bne_iff_ne.mpr hh]; rfl)]
  · have hcond : (hostOpen s && hostPath s off != path) = false := by
      rcases hno with h | h <;> rw [h] <;> simp
    rw [hostRead_eq hp, hcond]
    exact congrArg _ ((if_neg (Nat.not_lt.mpr hn)).trans (restHost_done (Nat.sub_eq_zero_of_le hn)))
  · have hcond : (hostOpen s && hostPath s off != path) = false := by
      rcases hno with h | h <;> rw [h] <;> simp
    rw [hostRead_eq hp, hcond]
    exact congrArg _ (if_pos hn)
  · rw [barRelease_eq, if_neg (Bool.eq_false_iff.mp hf)]
  · rw [barRelease_eq, if_pos hf]
  · rw [barrierArrival_eq ha, if_pos hl]
  · rw [barrierArrival_eq ha, if_neg (Bool.eq_false_iff.mp hl), if_pos hh]
  · rw [barrierArrival_eq ha, if_neg (Bool.eq_false_iff.mp hl), if_neg (Bool.eq_false_iff.mp hh), if_pos (Ne.symm hs)]
  · rw [barrierArrival_come ha hl hh hs, hlate]
    rfl
  · rw [barrierArrival_come ha hl hh hs, hlate, hw]
    rfl
  · rw [barrierArrival_come ha hl hh hs, hlate, hw]
    exact congrArg _ (arriveNow_quiet hr)
  · rw [barrierArrival_come ha hl hh hs, hlate, hw]
    exact congrArg _ (arriveNow_acknowledged hr)
  · rw [linkValueArrive_eq hcc, if_neg (not_not_intro hc), w64]
  · rw [linkValueArrive_eq hcc, if_pos hc]
  · rw [doorbell_rings hp]
    exact ⟨fun hno => congrArg _ (ring_none hno), fun h1 h2 h3 h4 h5 h6 h7 =>
      ⟨fun hf => congrArg _ ((ring_moves h1 h2 h3 h4 h5 h6 h7).trans (if_pos hf)),
        fun hf => congrArg _ ((ring_moves h1 h2 h3 h4 h5 h6 h7).trans (if_neg (Nat.not_lt.mpr hf)))⟩⟩
  · rw [doorbell_eq]
    exact congrArg _ ((if_neg (Bool.eq_false_iff.mp hno)).trans
        ((if_neg (Bool.eq_false_iff.mp hheads)).trans (if_pos hst)))
  · rw [doorbell_eq]
    exact congrArg _ ((if_neg (Bool.eq_false_iff.mp hno)).trans ((if_neg (Bool.eq_false_iff.mp hheads)).trans
      (if_neg (Bool.eq_false_iff.mp hst))))
  · rw [queueEnable_eq, ho, he, decide_eq_false (Nat.not_le.mpr hq)]
    rfl
  · rw [queueEnable_eq, if_pos]
    rcases hno with h | h | h <;> simp [h]
  · rw [registerWrite_eq ho, if_pos ⟨h1, h2⟩, w64]
  · rw [registerWrite_eq ho, if_neg (by omega), if_pos ⟨h1, h2⟩]
  · rw [registerWrite_eq ho, if_neg (by omega), if_neg (by omega), if_pos ⟨h1, h2⟩, w64]
  · rw [registerWrite_eq ho, if_neg (by omega), if_neg (by omega), if_neg (by omega)]

end Sys2Proof.Proofs

section
/-!
Jobs and tiles (R152, R244, R245, R253, R255): what starts, completes and faults a job, and what the clock of a tile's
load or store does.
-/

namespace Sys2Proof.Proofs

open Sys2Proof.Machine

/-! ### A job starts -/

section JobStart

variable {q : Nat} {s s1 : State} {j j1 : Job} {rest : List QEnt}

theorem jobStart_idle (h : headWaits s (queueAt s q) = false) : exec (.jobStart q) s = .next s := by
  show execJobStart q s = _
  simp [execJobStart, h]

theorem collectiveStart_idle (h : headWaits s (queueAt s qclKey) = false) (peers : Nat) :
    exec (.collectiveStart peers) s = .next s := by
  show execCollectiveStart peers s = _
  simp [execCollectiveStart, h]

theorem jobStart_joint (h : headWaits s (queueAt s q) = true) (he : (queueAt s q).ents = .job j :: rest)
    (ha : startsAlone j = false) : exec (.jobStart q) s = .next s := by
  show execJobStart q s = _
  simp [execJobStart, h, he, ha]

theorem jobStart_owing (h : headWaits s (queueAt s q) = true) (he : (queueAt s q).ents = .job j :: rest)
    (ha : startsAlone j = true) (hs : settleOwed s j = none) :
    exec (.jobStart q) s = .next (later s 1 (.jobStart q)) := by
  show execJobStart q s = _
  simp [execJobStart, h, he, ha, hs]

theorem jobStart_starts (h : headWaits s (queueAt s q) = true) (he : (queueAt s q).ents = .job j :: rest)
    (ha : startsAlone j = true) (hs : settleOwed s j = some (s1, j1)) :
    exec (.jobStart q) s = .next (startHead s1 q j1 rest) := by
  show execJobStart q s = _
  simp [execJobStart, h, he, ha, hs]

theorem collectiveStart_starts {f dst src gn gm p} (h : headWaits s (queueAt s qclKey) = true)
    (he : (queueAt s qclKey).ents = .job j :: rest) (hk : j.kind = .coll f dst src gn gm p)
    (hs : settleOwed s j = some (s1, j1)) (peers : Nat) :
    exec (.collectiveStart peers) s =
      .next (startHead s1 qclKey { j1 with kind := .coll f dst src gn gm (some peers) } rest) := by
  show execCollectiveStart peers s = _
  simp [execCollectiveStart, h, he, hk, hs]

theorem settleOwed_free (h : j.owes = []) : settleOwed s j = some (s, j) := by
  simp [settleOwed, h]

/-- The queue's head runs: what startHead writes to the queue. -/
def headRuns (s1 : State) (q : Nat) (rest : List QEnt) (s2 : State) (j2 : Job) : State :=
  setQueue s2 q { queueAt s1 q with
    ents := .job { j2 with view := j2.view.join (queueAt s1 q).last } :: rest, running := true }

theorem startHead_copy_empty {dst src rows rb ds ss w} (hk : j1.kind = .copy dst src rows rb ds ss w)
    (hn : copySectors dst rows rb ds = 0) :
    startHead s1 q j1 rest = later (headRuns s1 q rest s1 j1) 0 (.jobComplete q j1.id 0) := by
  simp only [startHead, hk, hn, if_true, headRuns]

theorem startHead_copy {dst src rows rb ds ss w} (hk : j1.kind = .copy dst src rows rb ds ss w)
    (hn : copySectors dst rows rb ds ≠ 0) :
    startHead s1 q j1 rest =
      let s2 := headRuns s1 q rest (takeDelay s1 4096).2 { j1 with lat := 20 + (takeDelay s1 4096).1 }
      setCopies s2 (q / 5) ((copiesNow s2 (q / 5)).filter (fun e => e.1 != q) ++
        [(q, copySectors dst rows rb ds)]) := by
  simp only [startHead, hk, hn, if_false, headRuns]

theorem startHead_coll {f dst src gn gm p} (hk : j1.kind = .coll f dst src gn gm p) :
    startHead s1 q j1 rest = later (headRuns s1 q rest (takeDelay s1 4096).2 j1)
      (jobClocks s1 q j1 + (takeDelay s1 4096).1) (.jobComplete q j1.id 0) := by
  simp only [startHead, hk, headRuns]

theorem startHead_engine (hc : ∀ dst src rows rb ds ss w, j1.kind ≠ .copy dst src rows rb ds ss w)
    (hl : ∀ f dst src gn gm p, j1.kind ≠ .coll f dst src gn gm p) :
    startHead s1 q j1 rest =
      later (headRuns s1 q rest s1 { j1 with left := jobClocks s1 q j1, since := s1.clock })
        (stretch s1 (q / 5) (jobClocks s1 q j1)) (.jobComplete q j1.id 0) := by
  cases hk : j1.kind with
  | mma => simp only [startHead, hk, headRuns]
  | accf => simp only [startHead, hk, headRuns]
  | copy => exact (hc _ _ _ _ _ _ _ hk).elim
  | coll => exact (hl _ _ _ _ _ _ hk).elim

end JobStart

/-! ### A job completes or stops -/

section JobEnd

variable {q jid err : Nat} {s s1 : State} {j : Job} {v : View} {fl : Flags}

theorem jobComplete_idle (h : runningJob s q = none) : exec (.jobComplete q jid 0) s = .next s := by
  show execJobComplete q jid 0 s = _
  simp [execJobComplete, h]

theorem jobFault_idle (h : runningJob s q = none) : exec (.jobFault q err) s = .next s := by
  show execJobFault q err s = _
  simp [execJobFault, h]

theorem jobComplete_other (h : runningJob s q = some j) (hj : j.id ≠ jid) :
    exec (.jobComplete q jid 0) s = .next s := by
  show execJobComplete q jid 0 s = _
  simp [execJobComplete, h, hj]

theorem jobComplete_done (h : runningJob s q = some j) (hj : j.id = jid)
    (hp : performJob s q j j.view = .done s1 v fl none) :
    exec (.jobComplete q jid 0) s = .next (finishJob s1 q j v fl none) := by
  show execJobComplete q jid 0 s = _
  simp [execJobComplete, h, hj, hp]

theorem jobComplete_error {c a : Nat} (h : runningJob s q = some j) (hj : j.id = jid)
    (hp : performJob s q j j.view = .done s1 v fl (some (c, a))) :
    exec (.jobComplete q jid 0) s = .next (later (setQueue s1 q { queueAt s1 q with
      ents := .job { j with view := v, fl := fl } :: (queueAt s1 q).ents.drop 1 }) 0 (.jobFault q (c + 256 * a))) := by
  show execJobComplete q jid 0 s = _
  simp [execJobComplete, h, hj, hp]

theorem jobComplete_stall {a b c d} (h : runningJob s q = some j) (hj : j.id = jid)
    (hp : performJob s q j j.view = .stall a b c d) :
    exec (.jobComplete q jid 0) s = .next (later s 0 (.jobFault q 0)) := by
  show execJobComplete q jid 0 s = _
  simp [execJobComplete, h, hj, hp]

theorem jobFault_error (h : runningJob s q = some j) (he : err ≠ 0) :
    exec (.jobFault q err) s = .next (finishJob s q j j.view j.fl (some (err % 256, err / 256))) := by
  show execJobFault q err s = _
  simp [execJobFault, h, he]

theorem jobFault_stall {va cause reason w} (h : runningJob s q = some j)
    (hp : performJob s q j j.view = .stall va cause reason w) :
    exec (.jobFault q 0) s = .next (
      let s1 := handFault s (dieOf (if q = qclKey then 0 else q / 5)) j.ctx 0xFFF va cause
        (reason + 1024 + (if w then 256 else 0))
      setQueue s1 q { queueAt s1 q with running := false, stalled := some (j.ctx, pageOf va, cause) }) := by
  show execJobFault q 0 s = _
  simp [execJobFault, h, hp]

theorem jobFault_again {e} (h : runningJob s q = some j) (hp : performJob s q j j.view = .done s1 v fl e) :
    exec (.jobFault q 0) s = .next (later s 0 (.jobComplete q j.id 0)) := by
  show execJobFault q 0 s = _
  simp [execJobFault, h, hp]

/-- A completion event names its slot and the slot's generation in one number. -/
theorem jobComplete_event {c tk gen : Nat} (hg : gen < 256) :
    exec (.jobComplete c jid (1 + 256 * tk + gen)) s = .next (jobEvent s c tk gen) := by
  have hd : (1 + 256 * tk + gen - 1) / 256 = tk := by omega
  have hm : (1 + 256 * tk + gen - 1) % 256 = gen := by omega
  have hz : 1 + 256 * tk + gen ≠ 0 := by omega
  show execJobComplete c jid (1 + 256 * tk + gen) s = _
  simp only [execJobComplete, if_pos hz, hd, hm]

end JobEnd

/-- What a tile store appends at a clock: its rows due, sector by sector, but for what a kill discards. -/
def tileRowsDue (s : State) (o : TileOp) : List (List (Nat × Byte)) :=
  ((o.rows.filter fun r => decide (r.1 ≤ s.clock)).flatMap fun r => sectorCells r.2).filter
    fun w => !discardedCells s o.ctx (o.tile / 16) w

section TileStore

variable {tl op : Nat} {s : State} {o : TileOp}

theorem tileStoreComplete_gone (h : mget s.tileOps op = none) : exec (.tileStoreComplete tl op) s = .next s := by
  show execTileStoreComplete tl op s = _
  simp [execTileStoreComplete, h]

theorem tileStoreComplete_ends (h : mget s.tileOps op = some o)
    (hr : o.rows.filter (fun r => decide (s.clock < r.1)) = []) (hf : o.fin ≤ s.clock) :
    exec (.tileStoreComplete tl op) s = .next (
      let w := appendAll s o.view (tileRowsDue s o)
      later (modHolder (dropReader { w.1 with tileOps := mdel w.1.tileOps op } o.tile) o.tk o.rid fun t =>
        modRes t o.rid fun r => { r with wait := .none, join := some w.2 }) 0 (.resultReturn o.tk o.rid)) := by
  show execTileStoreComplete tl op s = _
  simp only [execTileStoreComplete, h, hr, hf, and_self, if_true, tileRowsDue]

theorem tileStoreComplete_goesOn (h : mget s.tileOps op = some o)
    (hr : ¬ (o.rows.filter (fun r => decide (s.clock < r.1)) = [] ∧ o.fin ≤ s.clock)) :
    exec (.tileStoreComplete tl op) s = .next (
      let w := appendAll s o.view (tileRowsDue s o)
      let rest := o.rows.filter fun r => decide (s.clock < r.1)
      laterAt { w.1 with tileOps := mset w.1.tileOps op { o with rows := rest, view := w.2 } }
        ((rest.head?.map (·.1)).getD o.fin) (.tileStoreComplete tl op)) := by
  show execTileStoreComplete tl op s = _
  simp only [execTileStoreComplete, h, if_neg hr, tileRowsDue]
  cases o.rows.filter (fun r => decide (s.clock < r.1)) <;> rfl

end TileStore

/-- Settles O50: each kind of job at its start, each outcome of performing one, and a tile's two events. -/
theorem jobEvents : Obligations.JobEvents := by
  unfold Obligations.JobEvents
  refine ⟨fun q s j rest hw he => ⟨jobStart_joint hw he, jobStart_owing hw he, settleOwed_free, fun s1 j1 hs => ?_⟩,
    fun q s hw => ⟨jobStart_idle hw, fun peers hq => ?_⟩,
    fun q jid s j hr => ⟨jobComplete_other hr, fun hj => ⟨fun _ _ _ => jobComplete_done hr hj,
      fun _ _ _ _ _ => jobComplete_error hr hj, fun _ _ _ _ => jobComplete_stall hr hj⟩,
      fun _ => jobFault_error hr, fun _ _ _ _ => jobFault_stall hr, fun _ _ _ _ => jobFault_again hr⟩,
    fun q jid err s hr => ⟨jobComplete_idle hr, jobFault_idle hr⟩,
    fun c jid tk gen s hg => ⟨fun h1 h2 h3 => ?_, fun h => ?_⟩,
    fun tl op s => ⟨fun h1 h2 => congrArg _ (if_pos ⟨h1, h2⟩), fun h => congrArg _ (if_neg ?_)⟩,
    fun tl op s => ⟨tileStoreComplete_gone, fun o ho => ⟨tileStoreComplete_ends ho, fun h =>
      tileStoreComplete_goesOn ho ?_⟩⟩⟩
  · refine ⟨fun dst src rows rb ds ss w ha hk => ⟨fun hn => ?_, fun hn => ?_⟩, fun ha hc hl => ?_,
      fun f dst src gn gm p hk => ⟨fun ha => ?_, fun peers hq hjk => ?_⟩⟩
    · rw [jobStart_starts hw he ha hs, startHead_copy_empty hk hn, headRuns]
    · rw [jobStart_starts hw he ha hs, startHead_copy hk hn]; rfl
    · rw [jobStart_starts hw he ha hs, startHead_engine hc hl]; rfl
    · rw [jobStart_starts hw he ha hs, startHead_coll hk]; rfl
    · subst hq
      rw [collectiveStart_starts hw he hjk hs, startHead_coll rfl]; rfl
  · subst hq
    exact collectiveStart_idle hw peers
  · rw [jobComplete_event hg]
    exact congrArg _ (if_pos ⟨h1, h2, h3⟩)
  · rw [jobComplete_event hg]
    exact congrArg _ (if_neg fun ⟨h1, h2, h3⟩ => by simp [h1, h2, h3] at h)
  · rintro ⟨h1, h2⟩
    simp [h1, h2] at h
  · rintro ⟨h1, h2⟩
    rcases h with h | h
    · exact h h1
    · exact absurd h2 (Nat.not_le.mpr h)

end Sys2Proof.Proofs
end

section
/-!
Tracks, chains and stream routes (R268 to R287, R318 to R333, R341 to R343): the clocks of a head, a lease and an
access, the arrival of items and words, and a chain's change of form and end.
-/

namespace Sys2Proof.Proofs

open Sys2Proof.Machine

/-! ### Tracks -/

section Tracks

variable {k : Nat} {s : State}

theorem leaseGrant_idle (h : (trackAt s k).wait = []) : exec (.leaseGrant k) s = .next s := by
  show execLeaseGrant k s = _
  simp [execLeaseGrant, h]

theorem leaseGrant_granted {r : LeaseReq} {rest : List LeaseReq} (h : (trackAt s k).wait = r :: rest)
    (hg : grantable s r = true) :
    exec (.leaseGrant k) s =
      let s1 := r.gang.foldl (fun s k => grantTrack s r k) s
      .next (meetOthers (if r.held then endHold s1 r else s1) r.ctx r.gang) := by
  show execLeaseGrant k s = _
  simp only [execLeaseGrant, h, hg, if_true]

theorem leaseGrant_refused {r : LeaseReq} {rest : List LeaseReq} (h : (trackAt s k).wait = r :: rest)
    (hg : grantable s r = false) :
    exec (.leaseGrant k) s =
      .next (if r.gang.any (trackRetiring s) then later s 1 (.leaseGrant k) else s) := by
  show execLeaseGrant k s = _
  simp only [execLeaseGrant, h, hg, Bool.false_eq_true, if_false]

theorem seekComplete_still (h : (trackAt s k).move = none) : exec (.seekComplete k) s = .next s := by
  show execSeekComplete k s = _
  simp [execSeekComplete, h]

theorem seekComplete_arrived {m : Move} (h : (trackAt s k).move = some m) (hm : moveEnd m ≤ s.clock) :
    exec (.seekComplete k) s = .next (later (setTrack s k { trackAt s k with
      head := m.dest, move := none, lost := false, settled := s.clock + 3 }) 3 (.headSettle k)) := by
  show execSeekComplete k s = _
  simp only [execSeekComplete, h, if_neg (Nat.not_lt.mpr hm)]

theorem seekComplete_early {m : Move} (h : (trackAt s k).move = some m) (hm : s.clock < moveEnd m) :
    exec (.seekComplete k) s = .next s := by
  show execSeekComplete k s = _
  simp only [execSeekComplete, h, if_pos hm]

theorem headSettle_due (hm : (trackAt s k).move = none) (hl : (trackAt s k).lost = false)
    (hs : (trackAt s k).settled = s.clock) :
    exec (.headSettle k) s = .next (serveTrack 64 (settleAt s k) k) := by
  show execHeadSettle k s = _
  simp [execHeadSettle, hm, hl, hs]

theorem headSettle_stale
    (h : (trackAt s k).move.isSome = true ∨ (trackAt s k).lost = true ∨ (trackAt s k).settled ≠ s.clock) :
    exec (.headSettle k) s = .next s :=
  congrArg _ (if_pos h)

theorem settleAt_fine (h : verdict (trackAt s k) = .fine) :
    settleAt s k = setTrack s k { trackAt s k with settled := s.clock, reread := false } := by
  simp only [settleAt, h]

theorem settleAt_lost (h : verdict (trackAt s k) = .lost) : settleAt s k = trkErr s k := by
  simp only [settleAt, h]

/-- A correction moves the misalignment to what the check found. -/
theorem settleAt_corrected {sl : Int} (h : verdict (trackAt s k) = .corrected sl) (hm : (trackAt s k).misfix = false) :
    settleAt s k = setTrack { s with reeve := { s.reeve with shifts := s.reeve.shifts + 1 } } k
      { trackAt s k with settled := s.clock + 3, slip := sl, misfix := false, reread := (trackAt s k).misfix,
                         herr := min 255 ((trackAt s k).herr + 1) } := by
  simp only [settleAt, h, hm, Bool.false_eq_true, if_false]

/-- A correction that fails leaves the misalignment, and is read again. -/
theorem settleAt_misfixed {sl : Int} (h : verdict (trackAt s k) = .corrected sl) (hm : (trackAt s k).misfix = true) :
    settleAt s k = later (setTrack { s with reeve := { s.reeve with shifts := s.reeve.shifts + 1 } } k
      { trackAt s k with settled := s.clock + 3, misfix := false, reread := (trackAt s k).misfix,
                         herr := min 255 ((trackAt s k).herr + 1) }) 3 (.headSettle k) := by
  simp only [settleAt, h, hm, if_true]

theorem cursorStep_idle (h : (trackAt s k).acc = []) : exec (.cursorStep k) s = .next s := by
  show execCursorStep k s = _
  simp [execCursorStep, h]

/-- Whether an access's heads are not yet over its position, or its clock has not come. -/
def accSettling (s : State) (a : Acc) : Bool :=
  (a.gang.any fun k => unsettled (trackAt s k) || (trackAt s k).head != accHead s a) || decide (s.clock < accDue s a)

theorem cursorStep_held {a : Acc} {rest : List Acc} (h : (trackAt s k).acc = a :: rest) (hf : accFirst s a = false) :
    exec (.cursorStep k) s = .next s := by
  show execCursorStep k s = _
  simp only [execCursorStep, h, hf, Bool.not_false, if_true]

theorem cursorStep_serves {a : Acc} {rest : List Acc} (h : (trackAt s k).acc = a :: rest) (hf : accFirst s a = true)
    (hn : needsHead a = false ∨ accSettling s a = true) :
    exec (.cursorStep k) s = .next (serveTrack 64 s k) := by
  show execCursorStep k s = _
  simp only [execCursorStep, h, hf, Bool.not_true, Bool.false_eq_true, if_false]
  rcases hn with hn | hn
  · simp only [hn, Bool.not_false, if_true]
  · rw [accSettling] at hn
    simp only [hn, if_true, ite_self]

theorem cursorStep_performs {a : Acc} {rest : List Acc} (h : (trackAt s k).acc = a :: rest) (hf : accFirst s a = true)
    (hn : needsHead a = true) (hs : accSettling s a = false) :
    exec (.cursorStep k) s =
      .next (a.gang.foldl (fun s k => serveTrack 64 s k) (performAcc (dropAcc s a) a)) := by
  show execCursorStep k s = _
  rw [accSettling] at hs
  simp only [execCursorStep, h, hf, hn, hs, Bool.not_true, Bool.false_eq_true, if_false]

end Tracks

/-! ### Items and turns -/

section Items

variable {c n st rp tk : Nat} {s : State} {ch : Chain}

/-- What an arrival leaves of a chain: the items that are due have joined their consumer's queue. -/
def itemsLanded (s : State) (c : Nat) (ch : Chain) (st rp : Nat) : State :=
  let q := chQueue ch (st - 1)
  let d := landDue s.clock (mgetD q.items rp []) (mgetD q.flying rp [])
  setChain s c (setChQueue ch (st - 1) { q with flying := mset q.flying rp d.2, items := mset q.items rp d.1 })

theorem itemArrive_noChain (h : chainOf s c n = none) : exec (.itemArrive c n st rp) s = .next s := by
  show execItemArrive c n st rp s = _
  simp [execItemArrive, h]

theorem itemArrive_noThread (h : chainOf s c n = some ch)
    (ht : (repOf ch st rp).bind (·.tk) = none ∨ ch.folded = true) :
    exec (.itemArrive c n st rp) s = .next (itemsLanded s c ch st rp) := by
  show execItemArrive c n st rp s = _
  simp only [execItemArrive, h]
  cases hb : (repOf ch st rp).bind (·.tk) with
  | none => rfl
  | some tk =>
    have hf : ch.folded = true := by simpa [hb] using ht
    simp only [hf, if_true] <;> rfl

/-- Whether the replica's GET finds what it waits for. -/
def getWakes (s : State) (c n st rp : Nat) : Bool := ((chainOf s c n).map fun ch' => getReady s c ch' st rp).getD false

theorem itemArrive_thread (h : chainOf s c n = some ch) (ht : (repOf ch st rp).bind (·.tk) = some tk)
    (hf : ch.folded = false) :
    exec (.itemArrive c n st rp) s =
      let s2 := latch (itemsLanded s c ch st rp) tk evCHQ
      .next (match (getT s2 tk).res.find? isGetWait with
        | some g => if getWakes s2 c n st rp then later s2 4 (.resultReturn tk g.id) else s2
        | none => s2) := by
  have hw : ∀ s2, getWakes s2 c n st rp = match chainOf s2 c n with
      | some ch' => getReady s2 c ch' st rp
      | none => false := by
    intro s2
    rw [getWakes]
    cases chainOf s2 c n <;> rfl
  show execItemArrive c n st rp s = _
  simp only [execItemArrive, h, ht, hf, Bool.false_eq_true, if_false, hw] <;> rfl

theorem landDue_lands {now : Nat} {here fl : List Item} {it : Item} (h : it.due ≤ now) :
    landDue now here (it :: fl) = landDue now (here ++ [it]) fl := by
  rw [landDue, if_pos h]

theorem landDue_waits {now : Nat} {here fl : List Item} {it : Item} (h : now < it.due) :
    landDue now here (it :: fl) = (here, it :: fl) := by
  rw [landDue, if_neg (Nat.not_le.mpr h)]

theorem putAccept_eq {r : Replica} (h : chainOf s c n = some ch)
    (hr : ch.reps.find? (fun r => r.tk == some tk) = some r) :
    exec (.putAccept c n tk) s = .next (
      if r.at_ = .atPut ∧ (getT s tk).block = .inChain ∧ (chQueue ch r.stage).p = r.rep then
        latch (modT s tk fun t => { t with block := .free }) tk evCHQ
      else s) := by
  show execPutAccept c n tk s = _
  simp only [execPutAccept, h, hr]

end Items

/-! ### A chain's form and end -/

section Forms

variable {c n : Nat} {s : State} {ch : Chain}

theorem chainFold_lacksSlot (h : 65536 ≤ n) :
    exec (.chainFold c n) s = .next ((ctxD s c).chains.foldl (fun s ch =>
      if ch.auto ∧ !ch.folded ∧ stageOn ch (n - 65536) then requestFold s c ch false else s) s) :=
  congrArg _ (if_pos h)

theorem chainFold_unready (h : n < 65536)
    (hc : chainOf s c n = none ∨ ∃ ch, chainOf s c n = some ch ∧ foldReady s ch = false) :
    exec (.chainFold c n) s = .next s := by
  show execChainFold c n s = _
  rw [execChainFold, if_neg (Nat.not_le.mpr h)]
  rcases hc with hc | ⟨ch, hc, hr⟩
  · simp only [hc]
  · simp only [hc, hr, Bool.not_false, if_true]

theorem chainFold_ready (h : n < 65536) (hc : chainOf s c n = some ch) (hr : foldReady s ch = true) :
    exec (.chainFold c n) s =
      let s1 := requestsNow s (ch.reps.filterMap (·.tk))
      .next (if requestLeft s1 (ch.reps.filterMap (·.tk)) then later s1 1 (.chainFold c n)
        else match chainOf s1 c n with
          | some ch1 => foldNow s1 c ch1
          | none => s1) := by
  show execChainFold c n s = _
  rw [execChainFold, if_neg (Nat.not_le.mpr h)]
  simp only [hc, hr, Bool.not_true, Bool.false_eq_true, if_false] <;> rfl

theorem chainSpread_eq {tk : Nat} (hc : chainOf s c n = some ch) (hf : ch.folded = true) (hp : ch.spreadP = true)
    (ht : ch.reps.findSome? (·.tk) = some tk) :
    exec (.chainSpread c n) s = .next (
      if (getT s tk).block = .inChain ∧ (getT s tk).res = [] ∧ (waitingFrames ch).length ≤ freeSlots s c then
        (match doSpread s c ch tk with
          | some s1 => modT s1 tk fun t => { t with block := .free }
          | none => s)
      else s) := by
  show execChainSpread c n s = _
  simp only [execChainSpread, hc, hf, hp, and_self, if_true, ht] <;> rfl

theorem autoSpread_off (hc : chainOf s c n = some ch) (h : ch.auto = false ∨ ch.folded = false ∨ ch.foldR = true) :
    exec (.autoSpreadRequest c n) s = .next s := by
  have hoff : (!ch.auto || !ch.folded || ch.foldR) = true := by
    rcases h with h | h | h <;> simp [h]
  show execAutoSpreadRequest c n s = _
  simp only [execAutoSpreadRequest, hc, hoff, if_true]

/-- The clock's test of R327. -/
theorem autoSpread_tests (hc : chainOf s c n = some ch) (ha : ch.auto = true) (hf : ch.folded = true)
    (hr : ch.foldR = false) :
    exec (.autoSpreadRequest c n) s = .next (
      if decide ((ch.reps.filter fun r => !r.quit).length ≤ freeSlots s c) then
        if ch.freeFrom.getD s.clock + 65535 ≤ s.clock then
          later (setChain s c { ch with spreadP := true, freeFrom := none }) 0 (.chainSpread c n)
        else later (setChain s c { ch with freeFrom := some (ch.freeFrom.getD s.clock) }) 1 (.autoSpreadRequest c n)
      else later (setChain s c { ch with freeFrom := none }) 1 (.autoSpreadRequest c n)) := by
  show execAutoSpreadRequest c n s = _
  simp only [execAutoSpreadRequest, hc, ha, hf, hr, Bool.not_true, Bool.or_self, Bool.false_eq_true, if_false]

/-- A chain leaves its context: its ports are free again and its table entry is gone. -/
def chainGone (c n : Nat) (ch : Chain) (s : State) : State :=
  later (modCtx
    (ch.ports.foldl (fun s e => later (modPort s e.1 e.2 fun p => { p with chain := false }) 0
      (.streamRouteAdmit e.1 e.2)) s) c
    fun x => { x with chains := x.chains.filter fun e => e.id != n }) 0 (.launchComplete c)

/-- The word that a chain's end posts (R329). -/
def chainPost (s : State) (c : Nat) (ch : Chain) : State × Bool :=
  postChain (drainPending s c) c ch.cmpl 0x01 (ch.view.join (ctxD (drainPending s c) c).all)

theorem chainComplete_running (hc : chainOf s c n = some ch) (hq : ch.reps.all (·.quit) = false) :
    exec (.chainComplete c n) s = .next s := by
  show execChainComplete c n s = _
  simp only [execChainComplete, hc, hq, Bool.not_false, if_true]

theorem chainComplete_silent (hc : chainOf s c n = some ch) (hq : ch.reps.all (·.quit) = true) (h0 : ch.cmpl = 0) :
    exec (.chainComplete c n) s = .next (chainGone c n ch (drainPending s c)) := by
  show execChainComplete c n s = _
  simp only [execChainComplete, hc, hq, h0, if_true, Bool.not_true, Bool.false_eq_true, if_false] <;> rfl

theorem chainComplete_posts {s2 : State} {ok : Bool} (hc : chainOf s c n = some ch) (hq : ch.reps.all (·.quit) = true)
    (h0 : ch.cmpl ≠ 0) (hp : chainPost s c ch = (s2, ok)) :
    exec (.chainComplete c n) s = .next (if ok then chainGone c n ch s2 else later s2 1 (.chainComplete c n)) := by
  rw [chainPost] at hp
  show execChainComplete c n s = _
  simp only [execChainComplete, hc, hq, if_neg h0, hp, Bool.not_true, Bool.false_eq_true, if_false]
  cases ok <;> rfl

end Forms

/-! ### Stream routes -/

section Streams

variable {core p rt k : Nat} {q : Fin 4} {r : Route} {s : State}

theorem streamWord_saved (h : findRoute s core rt = none) :
    exec (.streamWordArrive core p rt) s = .next (savedWord s rt) := by
  show execStreamWordArrive core p rt s = _
  simp only [execStreamWordArrive, h]

theorem streamWord_comes {w : Vec × Bool} {fl : List (Vec × Bool)} (h : findRoute s core rt = some (k, q, r))
    (hw : r.flying = w :: fl) :
    exec (.streamWordArrive core p rt) s =
      let r1 := { r with arrived := true, words := r.words ++ [w], flying := fl }
      let x := portAt s k q
      let x1 := { x with coming := x.coming.filter fun x => x.id != rt }
      .next (if r.arrived then wordsIn (modPort s k q.val fun x => mapRoute x rt fun _ => r1) k q r.ctx
        else wordsIn (modPort s k q.val fun _ =>
          if portFree x then { x1 with held := some r1 } else { x1 with waits := x1.waits ++ [r1] }) k q r.ctx) := by
  show execStreamWordArrive core p rt s = _
  simp only [execStreamWordArrive, h, hw]

theorem streamRouteAdmit_eq {x : Port} (hx : portAt s core q = x) :
    exec (.streamRouteAdmit core q.val) s = .next (match x.waits with
      | r :: rest =>
        if x.held.isSome ∨ x.chain then s
        else feedPort (modPort s core q.val fun _ => { x with held := some r, waits := rest }) core q
      | [] => s) := by
  subst hx
  show execStreamRouteAdmit core q.val s = _
  simp only [execStreamRouteAdmit, Nat.mod_eq_of_lt q.isLt, Fin.eta] <;> rfl

end Streams

/-- The oldest request of a track at its grant (R270, R271). -/
theorem leaseGrant_cases (k : Nat) (s : State) :
    (∀ r rest, (trackAt s k).wait = r :: rest →
      (grantable s r = true →
        let s1 := r.gang.foldl (fun s k => grantTrack s r k) s
        (r.held = true → exec (.leaseGrant k) s = .next (meetOthers (endHold s1 r) r.ctx r.gang)) ∧
        (r.held = false → exec (.leaseGrant k) s = .next (meetOthers s1 r.ctx r.gang))) ∧
      (grantable s r = false →
        (r.gang.any (trackRetiring s) = true → exec (.leaseGrant k) s = .next (later s 1 (.leaseGrant k))) ∧
        (r.gang.any (trackRetiring s) = false → exec (.leaseGrant k) s = .next s))) := by
  refine fun r rest hw => ⟨fun hg => ⟨fun hh => ?_, fun hh => ?_⟩, fun hg => ⟨fun hr => ?_, fun hr => ?_⟩⟩
  · rw [leaseGrant_granted hw hg, hh]; rfl
  · rw [leaseGrant_granted hw hg, hh]; rfl
  · rw [leaseGrant_refused hw hg, hr]; rfl
  · rw [leaseGrant_refused hw hg, hr]; rfl

/-- Settles O51: each event by the state of the track, the chain or the port that it finds. -/
theorem trackAndChainEvents : Obligations.TrackAndChainEvents := by
  unfold Obligations.TrackAndChainEvents
  refine ⟨fun k s => ⟨leaseGrant_idle, leaseGrant_cases k s⟩,
    fun k s => ⟨seekComplete_still, fun m hm => ⟨seekComplete_arrived hm, seekComplete_early hm⟩⟩,
    fun k s => ⟨fun hm hl hs => ⟨fun hv => ?_, fun sl hv => ⟨fun hx => ?_, fun hx => ?_⟩, fun hv => ?_⟩,
        headSettle_stale⟩,
    fun k s => ⟨cursorStep_idle, fun a rest ha => ⟨cursorStep_held ha, cursorStep_serves ha, cursorStep_performs ha⟩⟩,
    fun c n st rp s => ⟨itemArrive_noChain, fun ch hc => ⟨itemArrive_noThread hc, fun tk ht hf =>
      ⟨fun g hg hw => ?_, fun hw => ?_⟩⟩⟩,
    fun now here fl it => ⟨by rw [landDue], landDue_lands, landDue_waits⟩,
    fun c n tk s ch r hc hr => ⟨fun h1 h2 h3 => ?_, fun h => ?_⟩,
    fun c n s => ⟨chainFold_lacksSlot, fun hn => ⟨fun ch hc hr => ⟨fun hl => ?_, fun ch1 hl hc1 => ?_⟩,
      chainFold_unready hn⟩⟩,
    fun c n tk s ch hc hf hp ht => ⟨fun s1 hm hs => ?_, fun h => ?_⟩,
    fun c n s ch hc => ⟨autoSpread_off hc, fun ha hf hr => ⟨fun hx => ?_, fun hx hl => ?_, fun hx hl => ?_⟩⟩,
    fun c n s ch hc => ⟨chainComplete_running hc, fun hq => ⟨chainComplete_silent hc hq,
      fun s2 h0 hp => ?_, fun s2 h0 hp => ?_⟩⟩,
    fun core p rt k q r w fl s hr hw => ⟨fun ha => ?_, fun ha => ⟨fun hx => ?_, fun hx => ?_⟩⟩,
    fun core p rt s h => streamWord_saved h,
    fun core q s => ⟨fun r more hw hh hc => ?_, fun h => ?_⟩⟩
  · rw [headSettle_due hm hl hs, settleAt_fine hv]
  · rw [headSettle_due hm hl hs, settleAt_corrected hv hx]
  · rw [headSettle_due hm hl hs, settleAt_misfixed hv hx]
  · rw [headSettle_due hm hl hs, settleAt_lost hv]
  · rw [itemArrive_thread hc ht hf]
    exact congrArg _ (by rw [itemsLanded, hg, getWakes]; exact if_pos hw)
  · rw [itemArrive_thread hc ht hf]
    refine congrArg Host.Outcome.next ?_
    simp only [itemsLanded, getWakes]
    rcases hw with hw | hw
    · rw [hw]
    · simp only [hw, Bool.false_eq_true, if_false]
      split <;> rfl
  · rw [putAccept_eq hc hr, if_pos ⟨h1, h2, h3⟩]
  · rw [putAccept_eq hc hr, if_neg fun ⟨h1, h2, h3⟩ => by simp [h1, h2, h3] at h]
  · rw [chainFold_ready hn hc hr]
    exact congrArg _ (if_pos hl)
  · rw [chainFold_ready hn hc hr]
    simp only [hl, Bool.false_eq_true, if_false, hc1]
  · rw [chainSpread_eq hc hf hp ht, if_pos (of_decide_eq_true hm), hs]
  · rw [chainSpread_eq hc hf hp ht]
    rcases h with h | h
    · rw [if_neg (of_decide_eq_false h)]
    · simp only [h, ite_self]
  · rw [autoSpread_tests hc ha hf hr, hx]; rfl
  · rw [autoSpread_tests hc ha hf hr, hx, if_pos rfl, if_neg (Nat.not_le.mpr hl)]
  · rw [autoSpread_tests hc ha hf hr, hx, if_pos rfl, if_pos hl]
  · rw [chainComplete_posts hc hq h0 hp]; rfl
  · rw [chainComplete_posts hc hq h0 hp]; rfl
  · rw [streamWord_comes hr hw, ha]; rfl
  · rw [streamWord_comes hr hw, ha]; simp only [hx, Bool.false_eq_true, if_false, if_true]
  · rw [streamWord_comes hr hw, ha]; simp only [hx, Bool.false_eq_true, if_false]
  · rw [streamRouteAdmit_eq rfl, hw]
    exact congrArg _ (if_neg (by simp [hh, hc]))
  · rw [streamRouteAdmit_eq rfl]
    rcases h with h | h | h
    · rw [h]
    · cases (portAt s core q).waits <;> simp [h]
    · cases (portAt s core q).waits <;> simp [h]

end Sys2Proof.Proofs
end

section
/-!
Launches (R49, R54 to R58, R355 to R367, R382, R387): a packet at its queue's head, a launch that waits, starts and
completes, pre-emption and teardown, gangs, the moves and saves of core contexts, and kills.
-/

namespace Sys2Proof.Proofs

open Sys2Proof.Machine

/-! ### Packets, starts and completions -/

section Packets

variable {q c core : Nat} {s : State} {x : Ctx}

theorem packetTake_closed (h : hostOpen s = false) : exec (.packetTake q) s = .next s := by
  show execPacketTake q s = _
  simp only [execPacketTake, h, Bool.not_false, if_true]

/-- A packet's take ends by considering it again where its queue still owes a status. -/
def takenTo (q : Nat) (t : State) : State :=
  if t.agenda.any (fun e => e.2 == .packetTake q) then t else oweNext t q (.packetTake q)

theorem packetTake_open (h : hostOpen s = true) :
    exec (.packetTake q) s = .next (takenTo q (considerHead (payOwed s q) q)) := by
  show execPacketTake q s = _
  simp only [execPacketTake, h, Bool.not_true, Bool.false_eq_true, if_false] <;> rfl

theorem considerHead_none (h : pendingIn (qblkAt s q) = false) : considerHead s q = s := by
  simp only [considerHead, h, Bool.not_false, if_true]

theorem considerHead_outbid (h : pendingIn (qblkAt s q) = true) (ho : outbid s q (qblkAt s q) = true) :
    considerHead s q = soon s 1 (.packetTake q) := by
  simp only [considerHead, h, ho, Bool.not_true, Bool.false_eq_true, if_false, if_true]

/-- A packet that the service core prefers has the effect of its verdict. -/
theorem considerHead_judged (h : pendingIn (qblkAt s q) = true) (ho : outbid s q (qblkAt s q) = false) :
    considerHead s q = match pktVerdict s (qblkAt s q) with
      | .waits => soon s 1 (.packetTake q)
      | .task true =>
        pushTask (takeHead s q 0) (qblkAt s q).sc (packetTask q (packetAt s (qblkAt s q)))
      | .task false => packetStatus (takeHead s q 0) q (qblkAt s q) 0x80
      | .status st => packetStatus (takeHead s q 0) q (qblkAt s q) st
      | .accept => acceptPacket s q (qblkAt s q) := by
  simp only [considerHead, h, ho, Bool.not_true, Bool.false_eq_true, if_false] <;> rfl

theorem launchStart_started (hx : getCtx s c = some x) (hr : x.run ≠ .waiting) :
    exec (.launchStart c) s = .next s := by
  show execLaunchStart c s = _
  simp only [execLaunchStart, hx, if_pos hr]

theorem launchStart_waits (hx : getCtx s c = some x) (hr : x.run = .waiting)
    (h : gangMay s x = false ∨ chosenCores s c x.pkt = none) :
    exec (.launchStart c) s = .next (soon s 1 (.launchStart c)) := by
  show execLaunchStart c s = _
  simp only [execLaunchStart, hx, if_neg (not_not_intro hr)]
  rcases h with h | h
  · simp only [h, Bool.not_false, if_true]
  · simp only [h, ite_self]

theorem launchStart_chosen {cores : List Nat} (hx : getCtx s c = some x) (hr : x.run = .waiting)
    (hg : gangMay s x = true) (hc : chosenCores s c x.pkt = some cores) :
    exec (.launchStart c) s = .next (
      if launchVoid s x.pkt cores then voidLaunch s c
      else if launchFits s c x.pkt cores then startLaunch s c x.pkt cores
      else soon (askRoom s c x.pkt cores) 1 (.launchStart c)) := by
  show execLaunchStart c s = _
  simp only [execLaunchStart, hx, if_neg (not_not_intro hr), hg, hc, Bool.not_true, Bool.false_eq_true, if_false]

theorem launchComplete_stays (hx : getCtx s c = some x)
    (h : x.run = .waiting ∨ x.run = .dying ∨ lastGone s c = false) : exec (.launchComplete c) s = .next s := by
  show execLaunchComplete c s = _
  have hs : x.run = .waiting ∨ x.run = .dying ∨ (!lastGone s c) = true := by simpa using h
  simp only [execLaunchComplete, hx, if_pos hs]

theorem launchComplete_ended (hx : getCtx s c = some x) (hw : x.run ≠ .waiting) (hd : x.run ≠ .dying)
    (hl : lastGone s c = true) :
    exec (.launchComplete c) s = .next (
      if workLeft s c then later s 1 (.launchComplete c)
      else
        let r := postCompletion (drainPending s c) c (if x.lost then 0x82 else 0x01) (ctxD (drainPending s c) c).all
        if r.2 then releaseCtx r.1 c else later r.1 1 (.launchComplete c)) := by
  show execLaunchComplete c s = _
  have hs : ¬ (x.run = .waiting ∨ x.run = .dying ∨ (!lastGone s c) = true) := by simp [hw, hd, hl]
  simp only [execLaunchComplete, hx, if_neg hs]

end Packets

/-! ### Pre-emption and teardown -/

section Teardown

variable {q c core : Nat} {s : State} {x : Ctx}

/-- Whether a core context of a core is already on its way for a launch. -/
def claimedFor (s : State) (c core : Nat) : Bool := (membersOn s core).any fun m =>
  m.2.2.claim == c && (m.2.2.cst != .resident || moveComing s m.1 m.2.1) && m.2.2.cst != .saved

theorem preempt_none (hx : getCtx s c = some x)
    (h : x.run ≠ .waiting ∨ coreServes s c x.pkt core = true ∨ claimedFor s c core = true ∨
      victimOn s core (pktPrio x.pkt) = none) : exec (.preempt c core) s = .next s := by
  rw [claimedFor] at h
  show execPreempt c core s = _
  simp only [execPreempt, hx]
  rcases h with h | h | h | h
  · simp only [h, not_false_eq_true, true_or, if_true, ne_eq]
  · simp only [h, or_true, if_true]
  · simp only [h, if_true, ite_self]
  · simp only [h, ite_self]

theorem preempt_claims {m : Member} {i : Instr} (hx : getCtx s c = some x) (hr : x.run = .waiting)
    (hs : coreServes s c x.pkt core = false) (hc : claimedFor s c core = false)
    (hv : victimOn s core (pktPrio x.pkt) = some (m, i)) :
    exec (.preempt c core) s = .next (later (modCC s m.1 m.2.1 fun cc => { cc with claim := c }) 0 i) := by
  rw [claimedFor] at hc
  show execPreempt c core s = _
  have hn : ¬ (x.run ≠ .waiting ∨ coreServes s c x.pkt core = true) := by simp [hr, hs]
  simp only [execPreempt, hx, if_neg hn, hc, hv, Bool.false_eq_true, if_false]

/-- The test that QUEUE_DRAIN and QUEUE_ABORT make of their queue. -/
theorem teardown_shut {b : Bool} (h : hostOpen s = false ∨ 8192 ≤ q) :
    (!hostOpen s || b || decide (8192 ≤ q)) = true := by
  rcases h with h | h <;> simp [h]

theorem teardown_open {b : Bool} (ho : hostOpen s = true) (hq : q < 8192) :
    (!hostOpen s || b || decide (8192 ≤ q)) = b := by
  rw [ho, decide_eq_false (Nat.not_le.mpr hq), Bool.or_false]
  rfl

theorem queueDrain_shut (h : hostOpen s = false ∨ 8192 ≤ q) : exec (.queueDrain q) s = .next s :=
  congrArg _ (if_pos (teardown_shut h))

theorem queueAbort_shut (h : hostOpen s = false ∨ 8192 ≤ q) : exec (.queueAbort q) s = .next s :=
  congrArg _ (if_pos (teardown_shut h))

theorem queueDrain_aborting (ho : hostOpen s = true) (hq : q < 8192) (ht : (qblkAt s q).td = 2) :
    exec (.queueDrain q) s = .next s :=
  congrArg _ (if_pos ((teardown_open ho hq).trans (beq_iff_eq.mpr ht)))

theorem queueDrain_drains (ho : hostOpen s = true) (hq : q < 8192) (ht : (qblkAt s q).td ≠ 2) :
    exec (.queueDrain q) s = .next (settlePackets (setQblk s q { qblkAt s q with td := 1 }) q (.queueDrain q)) := by
  refine congrArg _ (if_neg ?_)
  rw [teardown_open ho hq]
  exact fun h => ht (beq_iff_eq.mp h)

theorem queueAbort_draining (ho : hostOpen s = true) (hq : q < 8192) (ht : (qblkAt s q).td = 1) :
    exec (.queueAbort q) s = .next s :=
  congrArg _ (if_pos ((teardown_open ho hq).trans (beq_iff_eq.mpr ht)))

theorem queueAbort_live (ho : hostOpen s = true) (hq : q < 8192) (ht : (qblkAt s q).td ≠ 1) :
    exec (.queueAbort q) s = .next (
      if (qblkAt s q).td = 2 then settlePackets s q (.queueAbort q)
      else
        let mine := (s.ctxs.filter fun e => e.2.queue == q && e.2.run != .dying).map (·.1)
        settlePackets (mine.foldl (fun t c => startKill t c 0x80 (routerOf (0x800 + (qblkAt s q).sc)) [])
          (setQblk s q { qblkAt s q with td := 2 })) q (.queueAbort q)) := by
  show execQueueAbort q s = _
  simp only [execQueueAbort, teardown_open ho hq, beq_iff_eq, if_neg ht]

end Teardown

/-! ### Gangs -/

section Gangs

variable {n p : Nat} {s : State}

theorem gangBoundary_off (h : n = 0 ∨ (gangAt s n).period = 0) : exec (.gangBoundary n) s = .next s :=
  congrArg _ (if_pos h)

theorem gangReport_off (h : n = 0 ∨ (gangAt s n).period = 0 ∨ (gangAt s n).late = true ∨
    (gangAt s n).reports.contains p = true) : exec (.gangReport n p) s = .next s :=
  congrArg _ (if_pos h)

theorem gangStart_off (h : n = 0 ∨ (gangAt s n).period = 0 ∨ (gangAt s n).late = true) :
    exec (.gangStart n) s = .next s :=
  congrArg _ (if_pos h)

theorem gangGraceExpiry_off (h : n = 0 ∨ (gangAt s n).period = 0 ∨ (gangAt s n).late = true ∨
    (timerNow s).toNat < (gangAt s n).bound.toNat + (gangAt s n).grace.toNat) :
    exec (.gangGraceExpiry n) s = .next s :=
  congrArg _ (if_pos h)

/-- A gang that is not in force meets none of its events. -/
theorem gang_off (h : n = 0 ∨ (gangAt s n).period = 0) :
    exec (.gangBoundary n) s = .next s ∧ exec (.gangReport n p) s = .next s ∧
      exec (.gangStart n) s = .next s ∧ exec (.gangGraceExpiry n) s = .next s :=
  ⟨gangBoundary_off h, gangReport_off (or_assoc.mp (.inl h)), gangStart_off (or_assoc.mp (.inl h)),
    gangGraceExpiry_off (or_assoc.mp (.inl h))⟩

/-- A late attempt meets only the next boundary. -/
theorem gang_late (h : (gangAt s n).late = true) :
    exec (.gangReport n p) s = .next s ∧ exec (.gangStart n) s = .next s ∧ exec (.gangGraceExpiry n) s = .next s :=
  ⟨gangReport_off (.inr (.inr (.inl h))), gangStart_off (.inr (.inr h)), gangGraceExpiry_off (.inr (.inr (.inl h)))⟩

section Live

variable (hn : n ≠ 0) (hp : (gangAt s n).period ≠ 0)
include hn hp

theorem gangBoundary_early (h : nextBoundary (gangAt s n) (timerNow s).toNat ≠ (timerNow s).toNat) :
    exec (.gangBoundary n) s = .next (schedGang s n (timerNow s).toNat) := by
  show execGangBoundary n s = _
  rw [execGangBoundary, if_neg (not_or.mpr ⟨hn, hp⟩), if_pos h]

theorem gangBoundary_opens (h : nextBoundary (gangAt s n) (timerNow s).toNat = (timerNow s).toNat) :
    exec (.gangBoundary n) s = .next (later (later (schedGang (setGang s n
      { gangAt s n with bound := timerNow s, reports := [], late := false, due := none, startAt := none })
        n ((timerNow s).toNat + 1)) (gangAt s n).grace.toNat (.gangGraceExpiry n)) 0 (.gangReport n s.pkg)) := by
  have hb : w64 (timerNow s).toNat = timerNow s := by rw [w64, BitVec.ofNat_toNat, BitVec.setWidth_eq]
  show execGangBoundary n s = _
  rw [execGangBoundary, if_neg (not_or.mpr ⟨hn, hp⟩), if_neg (not_not_intro h), hb]

variable (hl : (gangAt s n).late = false)
include hl

/-- The waiting launches of a gang for which this package lacks room. -/
def gangLacks (s : State) (n : Nat) : List (Nat × Ctx) := (gangWaiting s n).filter fun e =>
  match chosenCores s e.1 e.2.pkt with
  | some cores => !launchFits s e.1 e.2.pkt cores
  | none => true

theorem gangReport_runs (hr : (gangAt s n).reports.contains p = false) :
    exec (.gangReport n p) s = .next (
      if p ≠ s.pkg then gangIn s n p
      else if gangLacks s n = [] then gangIn s n p
      else soon ((gangLacks s n).foldl (fun s e => match chosenCores s e.1 e.2.pkt with
        | some cores => askRoom s e.1 e.2.pkt cores
        | none => s) s) 1 (.gangReport n p)) := by
  have h : ¬ (n = 0 ∨ (gangAt s n).period = 0 ∨ (gangAt s n).late = true ∨
      (gangAt s n).reports.contains p = true) := by
    rw [hl, hr]
    simp only [hn, hp, Bool.false_eq_true, or_self, not_false_eq_true]
  exact congrArg _ (if_neg h)

theorem gangStart_runs :
    exec (.gangStart n) s = .next (
      if (gangAt s n).startAt.any fun v => decide ((timerNow s).toNat < v.toNat) then schedStart s n
      else (gangWaiting s n).foldl (fun s e => soon s 0 (.launchStart e.1))
        (setGang s n { gangAt s n with due := some (BitVec.ofNat 64 s.idCtr), startAt := none })) := by
  have h : ¬ (n = 0 ∨ (gangAt s n).period = 0 ∨ (gangAt s n).late = true) := by
    simp only [hn, hp, hl, Bool.false_eq_true, or_self, not_false_eq_true]
  exact congrArg _ (if_neg h)

theorem gangGraceExpiry_runs (ht : (gangAt s n).bound.toNat + (gangAt s n).grace.toNat ≤ (timerNow s).toNat) :
    exec (.gangGraceExpiry n) s = .next (
      match (gangMembers s (gangAt s n)).find? fun m => !(gangAt s n).reports.contains m with
      | none => s
      | some m => pushTask (setGang s n { gangAt s n with late := true }) (noticeDie s)
          { code := 0x24, g1 := BitVec.ofNat 64 n, g2 := BitVec.ofNat 64 m, g3 := (gangAt s n).bound }) := by
  have h : ¬ (n = 0 ∨ (gangAt s n).period = 0 ∨ (gangAt s n).late = true ∨
      (timerNow s).toNat < (gangAt s n).bound.toNat + (gangAt s n).grace.toNat) := by
    rw [hl]
    simp only [hn, hp, Nat.not_lt.mpr ht, Bool.false_eq_true, or_self, not_false_eq_true]
  exact congrArg _ (if_neg h)

end Live

end Gangs

/-! ### Moves and saves of core contexts -/

section CoreContexts

variable {c l p : Nat} {s : State} {cc : CoreCtx}

section Save

variable (hc : getCC s c l = some cc) (hd : dying s c = false)
include hc hd

theorem contextSave_resident (hs : cc.cst = .resident) :
    exec (.contextSave c l) s = .next (
      if (ctxD s c).saveBase = 0 then s
      else later (modCC (stopCC s c l .saving) c l fun cc => { cc with saveAt := (ctxD s c).saveBase }) 0
        (.contextSave c l)) := by
  show execContextSave c l s = _
  simp only [execContextSave, hc, hd, hs, Bool.false_eq_true, if_false]

theorem contextSave_saving (hs : cc.cst = .saving) :
    exec (.contextSave c l) s = .next (
      if cc.saved.isSome then writeArea s c l
      else if quietCC s c l cc then
        later (takeOut s c l cc) (saveClocks (takeOut s c l cc) c l) (.contextSave c l)
      else later s 1 (.contextSave c l)) := by
  show execContextSave c l s = _
  simp only [execContextSave, hc, hd, hs, Bool.false_eq_true, if_false]

omit hc in
theorem saveResume_writes : exec (.saveResume c l) s = .next (writeArea s c l) := by
  show execSaveResume c l s = _
  simp only [execSaveResume, hd, Bool.false_eq_true, if_false]

omit hd in
theorem contextResume_other (hs : cc.cst ≠ .saved) : exec (.contextResume c l) s = .next s := by
  show execContextResume c l s = _
  simp only [execContextResume, hc, hs, not_false_eq_true, ne_eq, true_or, if_true]

theorem contextResume_saved (hs : cc.cst = .saved) :
    exec (.contextResume c l) s = .next (
      let s1 := (tryResume s c l false).getD s
      match getCC s1 c l with
      | some cc1 => if cc1.cst = .saved then later s1 1 (.contextResume c l) else s1
      | none => s1) := by
  have h : ¬ (cc.cst ≠ .saved ∨ dying s c = true) := by simp [hs, hd]
  show execContextResume c l s = _
  simp only [execContextResume, hc, if_neg h] <;> rfl

theorem contextResume_noRoom (hs : cc.cst = .saved) (ht : tryResume s c l false = none) :
    exec (.contextResume c l) s = .next (later s 1 (.contextResume c l)) := by
  rw [contextResume_saved hc hd hs, ht]
  simp only [Option.getD_none, hc, hs, if_true]

theorem contextResume_tried {s1 : State} {c1 : CoreCtx} (hs : cc.cst = .saved) (ht : tryResume s c l false = some s1)
    (h1 : getCC s1 c l = some c1) :
    exec (.contextResume c l) s = .next (if c1.cst = .saved then later s1 1 (.contextResume c l) else s1) := by
  rw [contextResume_saved hc hd hs, ht]
  simp only [Option.getD_some, h1]

/-- A migration begins where its group may move and the core has room. -/
theorem liveMigration_begins {seats : List Seat} (ht : cc.target = none) (hp : p < 4096)
    (hg : (groupOf s (c, l, cc)).all (fun m => m.2.2.cst == .resident || m.2.2.cst == .saved) = true)
    (hr : roomFor s p (groupOf s (c, l, cc)) = some seats) :
    exec (.liveMigration c l p) s =
      .next (later (startMoves s (groupOf s (c, l, cc)) seats) 0 (.liveMigration c l p)) := by
  show execLiveMigration c l p s = _
  simp only [execLiveMigration, hc, hd, ht, if_neg (Nat.not_le.mpr hp), hg, hr, Bool.false_eq_true, if_false, if_true]

theorem liveMigration_noRoom (ht : cc.target = none) (hp : p < 4096) (hr : roomFor s p (groupOf s (c, l, cc)) = none) :
    exec (.liveMigration c l p) s = .next s := by
  show execLiveMigration c l p s = _
  simp only [execLiveMigration, hc, hd, ht, if_neg (Nat.not_le.mpr hp), hr, ite_self, Bool.false_eq_true]

theorem liveMigration_waits {t : Seat} (ht : cc.target = some t) (hp : p < 4096) (htp : t.phys = p) :
    exec (.liveMigration c l p) s = .next (
      if groupQuiet s (groupOf s (c, l, cc)) then
        later s (streamClocks s (groupOf s (c, l, cc)) p) (.liveMigration c l (p + 4096))
      else later s 1 (.liveMigration c l p)) := by
  show execLiveMigration c l p s = _
  simp only [execLiveMigration, hc, hd, ht, if_neg (Nat.not_le.mpr hp), htp, ne_eq, not_true_eq_false,
    Bool.false_eq_true, if_false]

theorem liveMigration_lands {t : Seat} (ht : cc.target = some t) (htp : t.phys = p) :
    exec (.liveMigration c l (p + 4096)) s = .next (landGroup s (groupOf s (c, l, cc))) := by
  show execLiveMigration c l (p + 4096) s = _
  simp only [execLiveMigration, hc, hd, ht, if_pos (Nat.le_add_left 4096 p), htp, Option.any_some, beq_self_eq_true,
    Bool.false_eq_true, if_false, if_true]

end Save

variable {tk ev : Nat}

theorem bermForward_elsewhere (h : p ≠ coreOf tk) :
    exec (.bermForward p tk ev) s = .next (
      if forwards s p (ev / 128 % 65536) (slotAt s tk).lcore then
        later s (coreLat s p (coreOf tk)) (.bermForward (coreOf tk) tk ev)
      else countDrop s (ev / 128 % 65536)) := by
  show execBermForward p tk ev s = _
  simp only [execBermForward, if_pos h]

/-- Whether an event finds its thread standing in its slot. -/
def bermFinds (s : State) (tk ev : Nat) : Bool := decide
  ((slotAt s tk).occ = .used ∧ (getT s tk).ctx = ev / 128 % 65536 ∧ (slotAt s tk).gen.toNat = ev / (128 * 65536))

/-- The saved core context that an event's thread has gone with. -/
def bermKept (s : State) (p tk ev : Nat) : Option (Nat × CoreCtx) :=
  (ccsOf s (ev / 128 % 65536)).find? fun e =>
    e.2.saved.any fun y => y.core == p && y.gens.getD (slotOf tk) 256 == ev / (128 * 65536)

theorem bermForward_latches (h : p = coreOf tk) (hf : bermFinds s tk ev = true) :
    exec (.bermForward p tk ev) s = .next (latch s tk (BitVec.ofNat 7 (ev % 128))) := by
  rw [bermFinds, decide_eq_true_iff] at hf
  show execBermForward p tk ev s = _
  simp only [execBermForward, if_neg (not_not_intro h), if_pos hf]

theorem bermForward_gone (h : p = coreOf tk) (hf : bermFinds s tk ev = false) (hk : bermKept s p tk ev = none) :
    exec (.bermForward p tk ev) s = .next (countDrop s (ev / 128 % 65536)) := by
  rw [bermFinds, decide_eq_false_iff_not] at hf
  rw [bermKept] at hk
  show execBermForward p tk ev s = _
  simp only [execBermForward, if_neg (not_not_intro h), if_neg hf, hk]

theorem bermForward_saved {l1 r : Nat} (h : p = coreOf tk) (hf : bermFinds s tk ev = false)
    (hk : bermKept s p tk ev = some (l1, cc)) (hr : findIdx? (· == slotOf tk) (slotsIn cc.slots) = some r) :
    exec (.bermForward p tk ev) s = .next (orSaved s (ev / 128 % 65536) l1 r (BitVec.ofNat 7 (ev % 128))) := by
  rw [bermFinds, decide_eq_false_iff_not] at hf
  rw [bermKept] at hk
  show execBermForward p tk ev s = _
  simp only [execBermForward, if_neg (not_not_intro h), if_neg hf, hk, hr]

end CoreContexts

/-! ### Kills -/

section Kills

variable {c router : Nat} {s : State}

theorem sluiceArrive_over (h : dying s c = false) : exec (.sluiceArrive c router) s = .next s := by
  show execSluiceArrive c router s = _
  simp only [execSluiceArrive, h, Bool.not_false, if_true]

/-- The killers are answered, and none waits any more. -/
def killAnswered (s : State) (c : Nat) (k : KillOp) : State :=
  k.waiters.foldl killReply { s with kills := s.kills.map fun x => if x.ctx = c then { x with waiters := [] } else x }

theorem killConfirm_eq {k : KillOp} (h : s.kills.find? (fun k => k.ctx == c) = some k) :
    exec (.killConfirm c) s =
      let r := killStatus (killAnswered s c k) c k.status
      .next (if !r.2 then later r.1 1 (.killConfirm c)
        else removeCtx { r.1 with kills := r.1.kills.filter fun x => x.ctx != c } c) := by
  show execKillConfirm c s = _
  simp only [execKillConfirm, h] <;> rfl

end Kills

/-! ### The statement -/

theorem packetTake_cases (q : Nat) (s : State) :
    let s1 := payOwed s q
    let b := qblkAt s1 q
    let takes := fun (t : State) => exec (.packetTake q) s = .next (takenTo q t)
    (hostOpen s = true →
      (pendingIn b = false → takes s1) ∧
      (pendingIn b = true → outbid s1 q b = true → takes (soon s1 1 (.packetTake q))) ∧
      (pendingIn b = true → outbid s1 q b = false →
        (pktVerdict s1 b = .waits → takes (soon s1 1 (.packetTake q))) ∧
        (pktVerdict s1 b = .accept → takes (acceptPacket s1 q b)) ∧
        (pktVerdict s1 b = .task true → takes (pushTask (takeHead s1 q 0) b.sc (packetTask q (packetAt s1 b)))) ∧
        (pktVerdict s1 b = .task false → takes (packetStatus (takeHead s1 q 0) q b 0x80)) ∧
        (∀ st, pktVerdict s1 b = .status st → takes (packetStatus (takeHead s1 q 0) q b st)))) := by
  intro s1 b takes ho
  have hp : exec (.packetTake q) s = .next (takenTo q (considerHead s1 q)) := packetTake_open ho
  have ht : ∀ t, considerHead s1 q = t → takes t := fun t h => by rw [← h]; exact hp
  refine ⟨fun h => ht _ (considerHead_none h), fun h h2 => ht _ (considerHead_outbid h h2), fun h h2 => ?_⟩
  have hj := considerHead_judged h h2
  refine ⟨fun hv => ht _ ?_, fun hv => ht _ ?_, fun hv => ht _ ?_, fun hv => ht _ ?_, fun st hv => ht _ ?_⟩ <;>
    exact hj.trans (by rw [hv])

theorem launchStart_cases (c : Nat) (s : State) (x : Ctx) (hx : getCtx s c = some x) :
    (∀ cores, x.run = .waiting → gangMay s x = true → chosenCores s c x.pkt = some cores →
      (launchVoid s x.pkt cores = true → exec (.launchStart c) s = .next (voidLaunch s c)) ∧
      (launchVoid s x.pkt cores = false → launchFits s c x.pkt cores = true →
        exec (.launchStart c) s = .next (startLaunch s c x.pkt cores)) ∧
      (launchVoid s x.pkt cores = false → launchFits s c x.pkt cores = false →
        exec (.launchStart c) s = .next (soon (askRoom s c x.pkt cores) 1 (.launchStart c)))) := by
  intro cores hr hg hc
  rw [launchStart_chosen hx hr hg hc]
  refine ⟨fun hv => ?_, fun hv hf => ?_, fun hv hf => ?_⟩
  · rw [hv, if_pos rfl]
  · rw [hv, hf]; rfl
  · rw [hv, hf]; rfl

theorem launchComplete_cases (c : Nat) (s : State) (x : Ctx) (hx : getCtx s c = some x) (hw : x.run ≠ .waiting)
    (hd : x.run ≠ .dying) (hl : lastGone s c = true) :
    (workLeft s c = true → exec (.launchComplete c) s = .next (later s 1 (.launchComplete c))) ∧
    (workLeft s c = false →
      let s1 := drainPending s c
      let word := if x.lost then 0x82 else 0x01
      (∀ s2, postCompletion s1 c word (ctxD s1 c).all = (s2, true) →
        exec (.launchComplete c) s = .next (releaseCtx s2 c)) ∧
      (∀ s2, postCompletion s1 c word (ctxD s1 c).all = (s2, false) →
        exec (.launchComplete c) s = .next (later s2 1 (.launchComplete c)))) := by
  rw [launchComplete_ended hx hw hd hl]
  refine ⟨fun h => by rw [h, if_pos rfl], fun h => ⟨fun s2 hp => ?_, fun s2 hp => ?_⟩⟩
  · simp only [h, Bool.false_eq_true, if_false, hp, if_true]
  · simp only [h, Bool.false_eq_true, if_false, hp]

theorem gang_live (n p : Nat) (s : State) (hn : n ≠ 0) (hp : (gangAt s n).period ≠ 0) (hl : (gangAt s n).late = false) :
    let g := gangAt s n
    let t := (timerNow s).toNat
    let lack := gangLacks s n
    (g.reports.contains p = true → exec (.gangReport n p) s = .next s) ∧
    (g.reports.contains p = false → p ≠ s.pkg ∨ lack = [] → exec (.gangReport n p) s = .next (gangIn s n p)) ∧
    (g.reports.contains p = false → p = s.pkg → lack ≠ [] → exec (.gangReport n p) s =
      .next (soon (lack.foldl (fun s e => match chosenCores s e.1 e.2.pkt with
        | some cores => askRoom s e.1 e.2.pkt cores
        | none => s) s) 1 (.gangReport n p))) ∧
    (let early := g.startAt.any fun v => decide (t < v.toNat)
     (early = true → exec (.gangStart n) s = .next (schedStart s n)) ∧
     (early = false → exec (.gangStart n) s = .next ((gangWaiting s n).foldl (fun s e => soon s 0 (.launchStart e.1))
       (setGang s n { g with due := some (BitVec.ofNat 64 s.idCtr), startAt := none })))) ∧
    (t < g.bound.toNat + g.grace.toNat → exec (.gangGraceExpiry n) s = .next s) ∧
    (g.bound.toNat + g.grace.toNat ≤ t →
      ((gangMembers s g).find? (fun m => !(g.reports.contains m)) = none →
        exec (.gangGraceExpiry n) s = .next s) ∧
      (∀ m, (gangMembers s g).find? (fun m => !(g.reports.contains m)) = some m →
        exec (.gangGraceExpiry n) s = .next (pushTask (setGang s n { g with late := true }) (noticeDie s)
          { code := 0x24, g1 := BitVec.ofNat 64 n, g2 := BitVec.ofNat 64 m, g3 := g.bound }))) := by
  intro g t lack
  refine ⟨fun h => gangReport_off (.inr (.inr (.inr h))), fun h h2 => ?_, fun h h2 h3 => ?_,
    ⟨fun h => ?_, fun h => ?_⟩, fun h => gangGraceExpiry_off (.inr (.inr (.inr h))),
    fun h => ⟨fun hm => ?_, fun m hm => ?_⟩⟩
  · rw [gangReport_runs hn hp hl h]
    rcases h2 with h2 | h2
    · rw [if_pos h2]
    · rw [if_pos h2, ite_self]
  · rw [gangReport_runs hn hp hl h, if_neg (not_not_intro h2), if_neg h3]
  · rw [gangStart_runs hn hp hl]
    exact congrArg _ (if_pos h)
  · rw [gangStart_runs hn hp hl]
    exact congrArg _ (if_neg (Bool.eq_false_iff.mp h))
  · rw [gangGraceExpiry_runs hn hp hl h, hm]
  · rw [gangGraceExpiry_runs hn hp hl h, hm]

theorem contextSave_cases (c l : Nat) (s : State) (cc : CoreCtx) (hc : getCC s c l = some cc) (hd : dying s c = false) :
    (cc.cst = .resident →
      ((ctxD s c).saveBase = 0 → exec (.contextSave c l) s = .next s) ∧
      ((ctxD s c).saveBase ≠ 0 → exec (.contextSave c l) s =
        .next (later (modCC (stopCC s c l .saving) c l fun cc => { cc with saveAt := (ctxD s c).saveBase }) 0
          (.contextSave c l)))) ∧
    (cc.cst = .saving →
      (cc.saved.isSome = true → exec (.contextSave c l) s = .next (writeArea s c l)) ∧
      (cc.saved = none → quietCC s c l cc = true → exec (.contextSave c l) s =
        .next (later (takeOut s c l cc) (saveClocks (takeOut s c l cc) c l) (.contextSave c l))) ∧
      (cc.saved = none → quietCC s c l cc = false → exec (.contextSave c l) s =
        .next (later s 1 (.contextSave c l)))) := by
  refine ⟨fun hs => ?_, fun hs => ?_⟩
  · rw [contextSave_resident hc hd hs]
    exact ⟨fun h => by rw [if_pos h], fun h => by rw [if_neg h]⟩
  · rw [contextSave_saving hc hd hs]
    refine ⟨fun h => by rw [if_pos h], fun h hq => ?_, fun h hq => ?_⟩
    · rw [h, hq]; rfl
    · rw [h, hq]; rfl

/-- Settles O52: each event of packets, launches, gangs, core contexts and kills by the state it finds. -/
theorem launchEvents : Obligations.LaunchEvents := by
  unfold Obligations.LaunchEvents
  refine ⟨fun q s => ⟨packetTake_closed, packetTake_cases q s⟩,
    fun c s x hx => ⟨launchStart_started hx, launchStart_waits hx, launchStart_cases c s x hx⟩,
    fun c s x hx => ⟨launchComplete_stays hx, launchComplete_cases c s x hx⟩,
    fun c core s x hx => ⟨preempt_none hx, fun m i => preempt_claims hx⟩,
    fun q s => ⟨fun h => ⟨queueDrain_shut h, queueAbort_shut h⟩, fun ho hq =>
      ⟨fun h => ⟨queueDrain_aborting ho hq h, ?_⟩, queueAbort_draining ho hq, queueDrain_drains ho hq, fun h h2 => ?_⟩⟩,
    fun n p s => ⟨gang_off, gang_late, fun hn hp =>
      ⟨gangBoundary_early hn hp, gangBoundary_opens hn hp, gang_live n p s hn hp⟩⟩,
    fun c l p s cc hc hd => ?_,
    fun k c l tk p ev s => ⟨rfl, fun h => ⟨fun hf => ?_, fun hf => ?_⟩,
      bermForward_latches, fun h hf => ⟨bermForward_gone h hf, fun l1 cc r => bermForward_saved h hf⟩⟩,
    fun c router s => ⟨sluiceArrive_over, fun h => ?_, rfl, fun k hk => ⟨fun s2 h2 => ?_, fun s2 h2 => ?_⟩⟩⟩
  · have h1 : (qblkAt s q).td ≠ 1 := by rw [h]; decide
    rw [queueAbort_live ho hq h1, if_pos h]
  · rw [queueAbort_live ho hq h, if_neg h2]
  · obtain ⟨hres, hsave⟩ := contextSave_cases c l s cc hc hd
    refine ⟨hres, hsave, saveResume_writes hd, contextResume_other hc, contextResume_noRoom hc hd,
      fun s1 c1 hs ht h1 => ⟨fun h => ?_, fun h => ?_⟩, fun seats => liveMigration_begins hc hd,
      liveMigration_noRoom hc hd, fun t ht hp htp => ⟨fun hq => ?_, fun hq => ?_, liveMigration_lands hc hd ht htp⟩⟩
    · rw [contextResume_tried hc hd hs ht h1, if_neg h]
    · rw [contextResume_tried hc hd hs ht h1, if_pos h]
    · rw [liveMigration_waits hc hd ht hp htp]; exact congrArg _ (if_pos hq)
    · rw [liveMigration_waits hc hd ht hp htp]; exact congrArg _ (if_neg (Bool.eq_false_iff.mp hq))
  · rw [bermForward_elsewhere h]; exact congrArg _ (if_pos hf)
  · rw [bermForward_elsewhere h]; exact congrArg _ (if_neg (Bool.eq_false_iff.mp hf))
  · show execSluiceArrive c router s = _
    simp only [execSluiceArrive, h, Bool.not_true, Bool.false_eq_true, if_false, natsWhere]
  · rw [killConfirm_eq hk]
    rw [killAnswered]
    simp only [h2, Bool.not_true, Bool.false_eq_true, if_false]
  · rw [killConfirm_eq hk]
    rw [killAnswered]
    simp only [h2, Bool.not_false, if_true]

end Sys2Proof.Proofs
end

section
/-!
The map and the Reeve (R26, R30 to R43, R294, R389, R390, R397 to R406): retirements and losses, publication, the
grace window, links, clocks and capacities, the domain, sensors, the alarm, throttles, the timer and the boot.
-/

namespace Sys2Proof.Proofs

open Sys2Proof.Machine

/-! ### Retirement, publication and loss -/

section Retirement

variable {cl res cause : Nat} {s : State} {op : RetireOp}

theorem retirementMove_moves (h : s.retires.find? (fun r => r.cls == cl && r.res == res) = some op)
    (hd : retireDone s cl res = false) :
    exec (.retirementMove cl res) s = .next (soon (retireStep s cl res) 1 (.retirementMove cl res)) := by
  show execRetirementMove cl res s = _
  simp only [execRetirementMove, h, hd, Bool.not_false, if_true]

theorem retirementMove_done (h : s.retires.find? (fun r => r.cls == cl && r.res == res) = some op)
    (hd : retireDone s cl res = true) :
    exec (.retirementMove cl res) s = .next (
      if cl = 5 then soon (takeDelay s 65536).2 (takeDelay s 65536).1 (.sliceFlush res)
      else announce s 1 cl op.cause res op.old 2) := by
  show execRetirementMove cl res s = _
  simp only [execRetirementMove, h, hd, Bool.not_true, Bool.false_eq_true, if_false] <;> rfl

theorem sliceFlush_publishes (h : s.retires.find? (fun r => r.cls == 5 && r.res == res) = some op) :
    exec (.sliceFlush res) s = .next (announce s 1 5 op.cause res op.old 2) := by
  show execSliceFlush res s = _
  simp only [execSliceFlush, clsSlice, h]

theorem resourceLoss_loses (hb : s.booted = true) (h0 : cl ≠ 0) (h10 : cl ≤ 10) (hl : cl ≠ clsLink)
    (hu : unitState s.cmap cl res < 2) : exec (.resourceLoss cl res cause) s = .next (loseResource s cl res cause) := by
  have hn : ¬ ((!s.booted || decide (cl = 0 ∨ 10 < cl ∨ cl = clsLink) ||
      decide (2 ≤ unitState s.cmap cl res)) = true) := by
    simp [hb, h0, Nat.not_lt.mpr h10, hl, hu]
  exact congrArg _ (if_neg hn)

end Retirement

section Publication

variable {kind cl cause res old new : Nat} {s : State}

theorem mapPublish_early (h : s.booted = false) : exec (.mapPublish kind cl cause res old new) s = .next s := by
  show execMapPublish kind cl cause res old new s = _
  simp only [execMapPublish, h, Bool.not_false, if_true]

theorem mapPublish_behind {due : Bool} (h : s.booted = true) (ho : othersTurn s kind cl res = some due) :
    exec (.mapPublish kind cl cause res old new) s =
      .next (later s (if due then 0 else 1) (.mapPublish kind cl cause res old new)) := by
  show execMapPublish kind cl cause res old new s = _
  simp only [execMapPublish, h, ho, Bool.not_true, Bool.false_eq_true, if_false]

theorem mapPublish_purging (h : s.booted = true) (ho : othersTurn s kind cl res = none) (hk : kind = 2)
    (hp : s.kills.any (fun k => k.status == 0x82) = true) :
    exec (.mapPublish kind cl cause res old new) s = .next (later s 1 (.mapPublish kind cl cause res old new)) := by
  subst hk
  show execMapPublish 2 cl cause res old new s = _
  simp only [execMapPublish, h, ho, hp, Bool.not_true, Bool.false_eq_true, if_false, decide_true, Bool.and_self,
    if_true]

/-- A change whose turn it is, with no purge before it. -/
theorem mapPublish_turn (h : s.booted = true) (ho : othersTurn s kind cl res = none)
    (hp : kind ≠ 2 ∨ s.kills.any (fun k => k.status == 0x82) = false) :
    exec (.mapPublish kind cl cause res old new) s = .next (
      match s.retires.find? fun r => r.cls == cl && r.res == res with
      | some op => publish { s with retires := s.retires.filter (· != op) } kind cl cause res old new op.held
      | none => if kind = 1 then s else publish s kind cl cause res old new []) := by
  have hn : ¬ ((decide (kind = 2) && s.kills.any fun k => k.status == 0x82) = true) := by
    rcases hp with hp | hp
    · simp [hp]
    · rw [hp, Bool.and_false]; exact Bool.false_ne_true
  show execMapPublish kind cl cause res old new s = _
  simp only [execMapPublish, h, ho, Bool.not_true, Bool.false_eq_true, if_false, if_neg hn] <;> rfl

end Publication

section Grace

variable {c : Nat} {s : State} {x : Ctx} (hx : getCtx s c = some x)
include hx

theorem graceExpiry_running {t0 : Nat} (hr : x.run = .running) (ht : x.told = false) (hg : x.graceAt = some t0) :
    exec (.graceExpiry c) s = .next (
      if t0 + x.limit.toNat < s.clock then later (setCtx s c { x with run := .suspended }) 0 (.graceExpiry c)
      else s) := by
  show execGraceExpiry c s = _
  simp only [execGraceExpiry, hx, if_pos hr, ht, hg, Bool.false_eq_true, if_false]

theorem graceExpiry_restores {s1 : State} (hr : x.run = .running) (ht : x.told = true)
    (hp : postCompletion s c 0x00 {} = (s1, true)) :
    exec (.graceExpiry c) s = .next (modCtx s1 c fun x => { x with told := false }) := by
  show execGraceExpiry c s = _
  simp only [execGraceExpiry, hx, if_pos hr, ht, hp, if_true]

theorem graceExpiry_suspended (hr : x.run = .suspended) (ht : x.told = false) :
    exec (.graceExpiry c) s = .next (
      if ctxStill s c then
        let r := postCompletion s c 0x83 {}
        if r.2 then mapTasks (modCtx r.1 c fun x => { x with told := true }) c x.mapvec 1
        else later r.1 1 (.graceExpiry c)
      else later s 1 (.graceExpiry c)) := by
  have hn : x.run ≠ .running := by rw [hr]; decide
  have hs : x.run = .suspended ∧ (!x.told) = true := ⟨hr, by rw [ht]; rfl⟩
  show execGraceExpiry c s = _
  simp only [execGraceExpiry, hx, if_neg hn, if_pos hs]

end Grace

/-! ### Links, clocks and capacities -/

section Links

variable {s : State}

theorem meshLinkChange_same {link code : Nat} (h : unitState s.cmap clsLink link = code) :
    exec (.meshLinkChange link code) s = .next s := by
  have hs : (!s.booted || decide (1024 ≤ link ∨ 12 ≤ code) || edgeLink (link / 4) (link % 4) ||
      unitState s.cmap clsLink link == code) = true := by
    rw [h, beq_self_eq_true, Bool.or_true]
  exact congrArg _ (if_pos hs)

/-- The map with a mesh link's code at both its ends, and the task that tells of it. -/
def linkRetrained (s : State) (link code : Nat) : State :=
  retrained { s with cmap := { s.cmap with
    units := mset (mset s.cmap.units (unitKey clsLink (otherEnd link)) code) (unitKey clsLink link) code } }
    clsLink link code

theorem meshLinkChange_changes {link code : Nat} (hb : s.booted = true) (hl : link < 1024) (hc : code < 12)
    (he : edgeLink (link / 4) (link % 4) = false) (h : unitState s.cmap clsLink link ≠ code) :
    exec (.meshLinkChange link code) s = .next (
      let kind := if unitState s.cmap clsLink link < code then 3 else 4
      announce (linkRetrained s link code) kind clsLink (if kind = 3 then 6 else 8) link
        (unitState s.cmap clsLink link) code) := by
  have hn : ¬ ((!s.booted || decide (1024 ≤ link ∨ 12 ≤ code) || edgeLink (link / 4) (link % 4) ||
      unitState s.cmap clsLink link == code) = true) := by
    simp [hb, he, h, hl, hc]
  show execMeshLinkChange link code s = _
  simp only [execMeshLinkChange, if_neg hn] <;> rfl

/-- The map with a package link's rate, and the task that tells of its state. -/
def edgeRetrained (s : State) (cl link st rate : Nat) : State :=
  retrained { s with cmap := { s.cmap with
    rate := mset s.cmap.rate (unitKey cl link) (rate % 65536)
    aux := mset s.cmap.aux (unitKey cl link) (rate / 65536) } } cl link st

theorem linkChange_changes {cl link st rate : Nat} (hb : s.booted = true)
    (hc : cl = clsStrelmin ∧ link < 16 ∨ cl = clsCxl ∧ link < 3) (hst : st < 4) (h2 : st ≠ 2)
    (ho : unitState s.cmap cl link ≠ 2)
    (hd : unitState s.cmap cl link ≠ st ∨ mgetD s.cmap.rate (unitKey cl link) 0 ≠ rate % 65536) :
    exec (.linkChange cl link st rate) s = .next (
      let s1 := edgeRetrained s cl link st rate
      if st = 3 then loseResource s1 cl link 6
      else
        let kind := if st < unitState s.cmap cl link then 4 else 3
        announce (reroute { s1 with cmap := { s1.cmap with units := mset s1.cmap.units (unitKey cl link) st } }) kind cl
          (if kind = 3 then 6 else 8) link (unitState s.cmap cl link) st) := by
  have hcl : ¬ (cl ≠ clsStrelmin ∧ cl ≠ clsCxl) := fun ⟨ha, hb⟩ => by
    rcases hc with ⟨hc, -⟩ | ⟨hc, -⟩
    · exact ha hc
    · exact hb hc
  have hlk : ¬ (16 ≤ link ∨ (cl = clsCxl ∧ 3 ≤ link) ∨ 3 < st) := by
    rintro (h | ⟨h, h'⟩ | h)
    · rcases hc with ⟨-, hc⟩ | ⟨-, hc⟩ <;> omega
    · rcases hc with ⟨hc, -⟩ | ⟨-, hc⟩
      · rw [h] at hc
        exact absurd hc (by decide)
      · omega
    · omega
  have hsame : ¬ ((unitState s.cmap cl link == st && mgetD s.cmap.rate (unitKey cl link) 0 ==
      rate % 65536) = true) := by
    rw [Bool.and_eq_true, beq_iff_eq, beq_iff_eq]
    exact fun ⟨ha, hb⟩ => hd.elim (· ha) (· hb)
  have hold : ¬ (st = 2 ∨ unitState s.cmap cl link = 2) := not_or.mpr ⟨h2, ho⟩
  have hn : ¬ ((!s.booted || decide (cl ≠ clsStrelmin ∧ cl ≠ clsCxl) ||
      decide (16 ≤ link ∨ (cl = clsCxl ∧ 3 ≤ link) ∨ 3 < st) || decide (st = 2 ∨ unitState s.cmap cl link = 2) ||
      (unitState s.cmap cl link == st && mgetD s.cmap.rate (unitKey cl link) 0 == rate % 65536)) = true) := by
    rw [hb, decide_eq_false hcl, decide_eq_false hlk, decide_eq_false hold]
    exact hsame
  show execLinkChange cl link st rate s = _
  simp only [execLinkChange, if_neg hn] <;> rfl

variable {p : Nat}

/-- A stack's place in the map takes a state. -/
def stackShown (s : State) (m : CMap) (p st : Nat) : State :=
  { s with cmap := { m with units := mset m.units (unitKey clsStack p) st } }

theorem clockStep_changes {code : Nat} (hb : s.booted = true) (hp : p < 8) (hu : unitState s.cmap clsStack p < 2)
    (hc : code < 4) (hs : mgetD s.cmap.stepN p 0 ≠ code) :
    exec (.clockStep p code) s = .next (
      let st := if code = 0 ∧ capOf s.cmap p = Config.stackCap then 0 else 1
      announce (stackShown s { s.cmap with stepN := mset s.cmap.stepN p code } p st) 6 clsStack 4 p
        (unitState s.cmap clsStack p) st) := by
  have hn : ¬ ((!s.booted || decide (8 ≤ p ∨ 4 ≤ code ∨ 2 ≤ unitState s.cmap clsStack p) ||
      mgetD s.cmap.stepN p 0 == code) = true) := by
    simp [hb, hp, hc, hu, hs]
  exact congrArg _ (if_neg hn)

theorem capacityWithdrawal_changes {v : Nat} (hb : s.booted = true) (hp : p < 8) (hu : unitState s.cmap clsStack p < 2)
    (hv : v < capOf s.cmap p) :
    exec (.capacityWithdrawal p v) s = .next (announce
      (stackShown s { s.cmap with cap := mset s.cmap.cap p v } p 1) 5 clsStack 2 p (unitState s.cmap clsStack p) 1)
          := by
  have hn : ¬ ((!s.booted || decide (8 ≤ p ∨ 2 ≤ unitState s.cmap clsStack p ∨ capOf s.cmap p ≤ v)) = true) := by
    simp [hb, hp, hu, hv]
  exact congrArg _ (if_neg hn)

theorem domainForm_none {v : Nat} (h : s.booted = false ∨ 64 ≤ p ∨ bitN v p = false) :
    exec (.domainForm p v) s = .next s := by
  have hs : (!s.booted || decide (64 ≤ p) || !bitN v p) = true := by
    rcases h with h | h | h <;> simp [h]
  exact congrArg _ (if_pos hs)

theorem domainForm_forms {v : Nat} (hb : s.booted = true) (hp : p < 64) (hv : bitN v p = true) :
    exec (.domainForm p v) s = .next (
      let s1 := reroute { s with pkg := p, domain := (List.range 64).filter fun p => bitN v p }
      if p = 0 then s1
      else
        let d := takeDelay s1 (2 ^ 64)
        exchange { d.2 with reeve := { d.2.reeve with timer0 := BitVec.ofNat 64 d.1 } } 0) := by
  have hn : ¬ ((!s.booted || decide (64 ≤ p) || !bitN v p) = true) := by
    simp [hb, hp, hv]
  show execDomainForm p v s = _
  simp only [execDomainForm, if_neg hn, natsWhere] <;> rfl

end Links

/-! ### The Reeve -/

section Reeve

variable {s : State}

/-- Whether a sample latches the alert. -/
def alertHit (s : State) (v : Nat) : Bool := s.reeve.armed && decide (s.reeve.talert.toInt ≤ sensorMax v)

/-- The Reeve's sensors with a sample's values, the alert armed or not by them, and no other sample due. -/
def sampled (s : State) (v : Nat) : State :=
  { s with
    reeve := { s.reeve with
      tsens := Vector.ofFn fun i => sensorOf v i.val
      armed := if sensorMax v < s.reeve.tclear.toInt then true else (s.reeve.armed && !alertHit s v) }
    agenda := s.agenda.filter fun e => !isSample e.2 }

theorem sensorSample_eq (v : Nat) :
    exec (.sensorSample v) s = .next (later
      (if alertHit s v then raiseInt (setCore (sampled s v) 0x804
        { coreAt (sampled s v) 0x804 with talrtM := BitVec.ofInt 64 (sensorMax v) }) 0x804 0
      else sampled s v) 1100 (.sensorSample (freeSample s))) := rfl

theorem alarmExpiry_eq {a : Word} (h : s.reeve.alarm = some a) :
    exec .alarmExpiry s = .next (
      if (timerNow s).toNat < a.toNat then soon s (a.toNat - (timerNow s).toNat) .alarmExpiry
      else
        let s1 := { s with reeve := { s.reeve with alarm := none } }
        raiseInt (setCore s1 0x804 { coreAt s1 0x804 with timerA := a }) 0x804 1) := by
  show execAlarmExpiry s = _
  simp only [execAlarmExpiry, h]

theorem thrlWrite_eq {p : Nat} (h : p < 8) :
    exec (.thrlWrite p) s = .next (((List.range 256).filter fun cl => polderOf cl == p).foldl
      (fun t cl => setCopies (retimeEngine s.reeve.thrlEff[p].toNat t cl) cl (copiesNow s cl))
      { s with reeve := { s.reeve with thrlEff := s.reeve.thrlEff.set p s.reeve.thrl[p] } }) := by
  show execThrlWrite p s = _
  simp only [execThrlWrite, throttle, toList_getD _ _ h, dif_pos h, natsWhere]

/-- The Reeve's timer at a value, with what waits for a timer value scheduled anew. -/
def timerSet (s : State) (v : Nat) : State :=
  retime { s with reeve := { s.reeve with
    timerOff := BitVec.ofNat 64 v - BitVec.ofNat 64 s.clock, timerAt := some s.clock } }

/-- Whether another exchange of the timer is due. -/
def timerSyncDue (s : State) : Bool := s.agenda.any fun e => match e.2 with
  | .timerSync _ => true
  | _ => false

theorem timerSync_sets {v : Nat} (hd : s.domain ≠ []) (hp : s.pkg ≠ 0) :
    exec (.timerSync v) s = .next (
      if timerSyncDue (timerSet s v) then timerSet s v else exchange (timerSet s v) (2 ^ 20)) := by
  show execTimerSync v s = _
  rw [execTimerSync, if_neg (not_or.mpr ⟨hd, hp⟩)] <;> rfl

theorem boot_brings {b} (hb : s.booted = false) (hr : s.romHalted = false) (h : bootBank s = some b) :
    exec .boot s = .next (bringUp { s with reeve := { s.reeve with bank := some b } }) := by
  show execBoot s = _
  simp only [execBoot, hb, hr, h, Bool.false_eq_true, or_self, if_false]

theorem boot_halts (hb : s.booted = false) (hr : s.romHalted = false) (h : bootBank s = none) :
    exec .boot s = .next { s with romHalted := true, reeve := { s.reeve with revision := 0xFFFFFFFF } } := by
  show execBoot s = _
  simp only [execBoot, hb, hr, h, Bool.false_eq_true, or_self, if_false]

end Reeve

/-! ### The statement -/

theorem mapPublish_cases (kind cl cause res old new : Nat) (s : State) (hb : s.booted = true)
    (ho : othersTurn s kind cl res = none) (hp : kind ≠ 2 ∨ s.kills.any (fun k => k.status == 0x82) = false) :
    (∀ op, s.retires.find? (fun r => r.cls == cl && r.res == res) = some op →
      exec (.mapPublish kind cl cause res old new) s = .next (publish
        { s with retires := s.retires.filter (· != op) } kind cl cause res old new op.held)) ∧
    (s.retires.find? (fun r => r.cls == cl && r.res == res) = none →
      (kind = 1 → exec (.mapPublish kind cl cause res old new) s = .next s) ∧
      (kind ≠ 1 → exec (.mapPublish kind cl cause res old new) s =
        .next (publish s kind cl cause res old new []))) := by
  rw [mapPublish_turn hb ho hp]
  refine ⟨fun op h => by simp only [h], fun h => ⟨fun hk => ?_, fun hk => ?_⟩⟩
  · simp only [h, if_pos hk]
  · simp only [h, if_neg hk]

/-- Settles O53: each event of the map and of the Reeve by the state it finds. -/
theorem mapAndManagementEvents : Obligations.MapAndManagementEvents := by
  unfold Obligations.MapAndManagementEvents
  refine ⟨fun cl res s op h => ⟨retirementMove_moves h, fun hd hc => ?_, fun hd hc => ?_, fun hc => ?_⟩,
    fun kind cl cause res old new s => ⟨mapPublish_early, fun hb => ⟨fun due => mapPublish_behind hb, fun ho =>
      ⟨mapPublish_purging hb ho, mapPublish_cases kind cl cause res old new s hb ho⟩⟩⟩,
    fun cl res cause s => resourceLoss_loses,
    fun c s x hx => ⟨fun t0 hr ht hg => ⟨fun h => ?_, fun h => ?_⟩, fun s1 => graceExpiry_restores hx,
      fun hr ht => ⟨fun h => ?_, fun s1 h hp => ?_⟩⟩,
    fun link code s hb hl hc he => ⟨meshLinkChange_same, fun h => ?_, fun h => ?_⟩,
    fun cl link st rate s hb hc hst h2 ho hd => ⟨fun h => ?_, fun h h' => ?_, fun h h' => ?_⟩,
    fun p v s => ⟨fun hb hp hv => ⟨fun h => ?_, fun h => ?_⟩, domainForm_none⟩,
    fun p code v s hb hp hu => ⟨clockStep_changes hb hp hu, capacityWithdrawal_changes hb hp hu⟩,
    fun v s => ⟨fun h => ?_, fun h => ?_⟩,
    fun s a ha => ⟨fun h => ?_, fun h => ?_⟩,
    fun p v s => ⟨thrlWrite_eq, fun hd hp => ⟨fun h => ?_, fun h => ?_⟩, fun h => congrArg _ (if_pos h),
      fun h => congrArg _ (if_pos h), fun hb hr => ⟨fun _ => boot_brings hb hr, boot_halts hb hr⟩⟩⟩
  · rw [retirementMove_done h hd, if_neg hc]
  · rw [retirementMove_done h hd, if_pos hc]
  · subst hc
    exact sliceFlush_publishes h
  · rw [graceExpiry_running hx hr ht hg, if_pos h]
  · rw [graceExpiry_running hx hr ht hg, if_neg (Nat.not_lt.mpr h)]
  · rw [graceExpiry_suspended hx hr ht, h]; rfl
  · rw [graceExpiry_suspended hx hr ht, h]
    simp only [hp, if_true]
  · rw [meshLinkChange_changes hb hl hc he (Nat.ne_of_lt h), if_pos h]; rfl
  · rw [meshLinkChange_changes hb hl hc he (Nat.ne_of_gt h), if_neg (Nat.not_lt.mpr (Nat.le_of_lt h))]; rfl
  · rw [linkChange_changes hb hc hst h2 ho hd]
    exact congrArg _ (if_pos h)
  · rw [linkChange_changes hb hc hst h2 ho hd, if_pos h']
    exact congrArg _ (if_neg h)
  · rw [linkChange_changes hb hc hst h2 ho hd, if_neg (Nat.not_lt.mpr h')]
    exact congrArg _ (if_neg h)
  · rw [domainForm_forms hb hp hv]
    exact congrArg _ (if_pos h)
  · rw [domainForm_forms hb hp hv]
    exact congrArg _ (if_neg h)
  · rw [sensorSample_eq, show alertHit s v = false from h]; rfl
  · rw [sensorSample_eq, show alertHit s v = true from h]; rfl
  · rw [alarmExpiry_eq ha, if_neg (Nat.not_lt.mpr h)]
  · rw [alarmExpiry_eq ha, if_pos h]
  · rw [timerSync_sets hd hp]
    exact congrArg _ (if_pos h)
  · rw [timerSync_sets hd hp]
    exact congrArg _ (if_neg (Bool.eq_false_iff.mp h))

end Sys2Proof.Proofs
end
